-- ==== Sys2Proof/Word.lean ====
section
/-! DEFINITION. The word types of the machine (01, R9; 02) and their plainest readings. -/
namespace Sys2Proof

/-- A register or instruction word: 32 bits (R9, R24). -/
abbrev Word := BitVec 32

/-- A register pair, an address or a counter of 64 bits (R9, R11, R142). -/
abbrev DWord := BitVec 64

/-- One byte of memory (R230: a location is one byte). -/
abbrev Byte := BitVec 8

/-- A set of the 64 lanes of a group, bit l for logical lane l (R13 TRAPLANES, R194). -/
abbrev LaneSet := BitVec 64

end Sys2Proof
end

