-- ==== Sys2Proof/Syntax.lean ====
section
/-! DEFINITION. The instructions: one constructor for each row of spec/opcode_table.json, in the
table's order. A word row carries the fields of its encoding (03, R66 to R74); a step of the machine that is no
word (spec/95_what_each_step_holds.md) carries the names of the agents and data it is about. -/
namespace Sys2Proof

/-- An access that a step takes further: its number, and one lane of it; without a lane every lane that may go on (R145). -/
structure AccessAt where
  num  : Nat
  lane : Option Nat := none
  deriving DecidableEq, Repr

/-- A store that a step takes further: to its slice, or `near`, into the L1 of its cluster (R214). -/
structure StoreAt where
  num  : Nat
  lane : Option Nat := none
  near : Bool := false
  deriving DecidableEq, Repr

/-- A register of the control space that the host writes (R391): its offset, and whether the access is one of four bytes to half of an 8-byte register; else it is as
wide as the register. -/
structure RegAt where
  off  : Nat
  half : Bool := false
  deriving DecidableEq, Repr
/-- A slice in which an alarm is raised, and the cycle of it: so many cycles after the present one, which is the cycle under way, or the one that has just ended
(R370). -/
structure AlarmAt where
  slice : Nat
  after : Nat := 0
  deriving DecidableEq, Repr

/-- One constructor per row of the opcode table. The docstring of each is the row's mnemonic and its rule. -/
inductive Instr where
  /-- VIADD (R107) -/
  | viadd (d : BitVec 7) (a : BitVec 7) (b : BitVec 7) (ea : Bool) (eb : Bool)
  /-- VISUB (R107) -/
  | visub (d : BitVec 7) (a : BitVec 7) (b : BitVec 7) (ea : Bool) (eb : Bool)
  /-- VIADDS (R107) -/
  | viadds (d : BitVec 7) (a : BitVec 7) (b : BitVec 7) (ea : Bool) (eb : Bool)
  /-- VISUBS (R107) -/
  | visubs (d : BitVec 7) (a : BitVec 7) (b : BitVec 7) (ea : Bool) (eb : Bool)
  /-- VIMUL (R107) -/
  | vimul (d : BitVec 7) (a : BitVec 7) (b : BitVec 7) (ea : Bool) (eb : Bool)
  /-- VIMULH (R107) -/
  | vimulh (d : BitVec 7) (a : BitVec 7) (b : BitVec 7) (ea : Bool) (eb : Bool)
  /-- VUMULH (R107) -/
  | vumulh (d : BitVec 7) (a : BitVec 7) (b : BitVec 7) (ea : Bool) (eb : Bool)
  /-- VIMAC (R107) -/
  | vimac (d : BitVec 7) (a : BitVec 7) (b : BitVec 7) (ea : Bool) (eb : Bool)
  /-- VIMIN (R107) -/
  | vimin (d : BitVec 7) (a : BitVec 7) (b : BitVec 7) (ea : Bool) (eb : Bool)
  /-- VIMAX (R107) -/
  | vimax (d : BitVec 7) (a : BitVec 7) (b : BitVec 7) (ea : Bool) (eb : Bool)
  /-- VUMIN (R107) -/
  | vumin (d : BitVec 7) (a : BitVec 7) (b : BitVec 7) (ea : Bool) (eb : Bool)
  /-- VUMAX (R107) -/
  | vumax (d : BitVec 7) (a : BitVec 7) (b : BitVec 7) (ea : Bool) (eb : Bool)
  /-- VAND (R107) -/
  | vand (d : BitVec 7) (a : BitVec 7) (b : BitVec 7) (ea : Bool) (eb : Bool)
  /-- VOR (R107) -/
  | vor (d : BitVec 7) (a : BitVec 7) (b : BitVec 7) (ea : Bool) (eb : Bool)
  /-- VXOR (R107) -/
  | vxor (d : BitVec 7) (a : BitVec 7) (b : BitVec 7) (ea : Bool) (eb : Bool)
  /-- VANDN (R107) -/
  | vandn (d : BitVec 7) (a : BitVec 7) (b : BitVec 7) (ea : Bool) (eb : Bool)
  /-- VSHL (R107) -/
  | vshl (d : BitVec 7) (a : BitVec 7) (b : BitVec 7) (ea : Bool) (eb : Bool)
  /-- VSHR (R107) -/
  | vshr (d : BitVec 7) (a : BitVec 7) (b : BitVec 7) (ea : Bool) (eb : Bool)
  /-- VSAR (R107) -/
  | vsar (d : BitVec 7) (a : BitVec 7) (b : BitVec 7) (ea : Bool) (eb : Bool)
  /-- VROL (R107) -/
  | vrol (d : BitVec 7) (a : BitVec 7) (b : BitVec 7) (ea : Bool) (eb : Bool)
  /-- VCLZ (R107) -/
  | vclz (d : BitVec 7) (a : BitVec 7) (ea : Bool) (eb : Bool)
  /-- VPOPC (R107) -/
  | vpopc (d : BitVec 7) (a : BitVec 7) (ea : Bool) (eb : Bool)
  /-- VBREV (R107) -/
  | vbrev (d : BitVec 7) (a : BitVec 7) (ea : Bool) (eb : Bool)
  /-- VIABS (R107) -/
  | viabs (d : BitVec 7) (a : BitVec 7) (ea : Bool) (eb : Bool)
  /-- VFADD (R108) -/
  | vfadd (d : BitVec 7) (a : BitVec 7) (b : BitVec 7) (ea : Bool) (eb : Bool)
  /-- VFSUB (R108) -/
  | vfsub (d : BitVec 7) (a : BitVec 7) (b : BitVec 7) (ea : Bool) (eb : Bool)
  /-- VFMUL (R108) -/
  | vfmul (d : BitVec 7) (a : BitVec 7) (b : BitVec 7) (ea : Bool) (eb : Bool)
  /-- VFMA (R108) -/
  | vfma (d : BitVec 7) (a : BitVec 7) (b : BitVec 7) (ea : Bool) (eb : Bool)
  /-- VFNMA (R108) -/
  | vfnma (d : BitVec 7) (a : BitVec 7) (b : BitVec 7) (ea : Bool) (eb : Bool)
  /-- VFMIN (R109) -/
  | vfmin (d : BitVec 7) (a : BitVec 7) (b : BitVec 7) (ea : Bool) (eb : Bool)
  /-- VFMAX (R109) -/
  | vfmax (d : BitVec 7) (a : BitVec 7) (b : BitVec 7) (ea : Bool) (eb : Bool)
  /-- VFCOPYSIGN (R109) -/
  | vfcopysign (d : BitVec 7) (a : BitVec 7) (b : BitVec 7) (ea : Bool) (eb : Bool)
  /-- VHADD_BF (R110) -/
  | vhaddBf (d : BitVec 7) (a : BitVec 7) (b : BitVec 7) (ea : Bool) (eb : Bool)
  /-- VHMUL_BF (R110) -/
  | vhmulBf (d : BitVec 7) (a : BitVec 7) (b : BitVec 7) (ea : Bool) (eb : Bool)
  /-- VHFMA_BF (R110) -/
  | vhfmaBf (d : BitVec 7) (a : BitVec 7) (b : BitVec 7) (ea : Bool) (eb : Bool)
  /-- VHADD_H (R110) -/
  | vhaddH (d : BitVec 7) (a : BitVec 7) (b : BitVec 7) (ea : Bool) (eb : Bool)
  /-- VHMUL_H (R110) -/
  | vhmulH (d : BitVec 7) (a : BitVec 7) (b : BitVec 7) (ea : Bool) (eb : Bool)
  /-- VHFMA_H (R110) -/
  | vhfmaH (d : BitVec 7) (a : BitVec 7) (b : BitVec 7) (ea : Bool) (eb : Bool)
  /-- VDOT2_BF (R111) -/
  | vdot2Bf (d : BitVec 7) (a : BitVec 7) (b : BitVec 7) (ea : Bool) (eb : Bool)
  /-- VDOT4_I8 (R111) -/
  | vdot4I8 (d : BitVec 7) (a : BitVec 7) (b : BitVec 7) (ea : Bool) (eb : Bool)
  /-- VMOV (R107) -/
  | vmov (d : BitVec 7) (a : BitVec 7) (ea : Bool) (eb : Bool)
  /-- VFABS (R109) -/
  | vfabs (d : BitVec 7) (a : BitVec 7) (ea : Bool) (eb : Bool)
  /-- VFNEG (R109) -/
  | vfneg (d : BitVec 7) (a : BitVec 7) (ea : Bool) (eb : Bool)
  /-- VIADDI (R112) -/
  | viaddi (d : BitVec 7) (e : Bool) (imm : BitVec 16)
  /-- VANDI (R112) -/
  | vandi (d : BitVec 7) (e : Bool) (imm : BitVec 16)
  /-- VORI (R112) -/
  | vori (d : BitVec 7) (e : Bool) (imm : BitVec 16)
  /-- VXORI (R112) -/
  | vxori (d : BitVec 7) (e : Bool) (imm : BitVec 16)
  /-- VMOVI (R112) -/
  | vmovi (d : BitVec 7) (imm : BitVec 16)
  /-- VMOVHI (R112) -/
  | vmovhi (d : BitVec 7) (e : Bool) (imm : BitVec 16)
  /-- VSHLI (R112) -/
  | vshli (d : BitVec 7) (e : Bool) (imm : BitVec 5)
  /-- VSHRI (R112) -/
  | vshri (d : BitVec 7) (e : Bool) (imm : BitVec 5)
  /-- VSARI (R112) -/
  | vsari (d : BitVec 7) (e : Bool) (imm : BitVec 5)
  /-- VIMULI (R112) -/
  | vimuli (d : BitVec 7) (e : Bool) (imm : BitVec 16)
  /-- VFADDI (R112) -/
  | vfaddi (d : BitVec 7) (e : Bool) (imm : BitVec 16)
  /-- VFMULI (R112) -/
  | vfmuli (d : BitVec 7) (e : Bool) (imm : BitVec 16)
  /-- VMOVFI (R112) -/
  | vmovfi (d : BitVec 7) (imm : BitVec 16)
  /-- VLANEI (R112) -/
  | vlanei (d : BitVec 7) (imm : BitVec 16)
  /-- VCMP_EQ (R114) -/
  | vcmpEq (pd : BitVec 5) (a : BitVec 7) (b : BitVec 7) (c : BitVec 2) (ea : Bool) (eb : Bool)
  /-- VCMP_NE (R114) -/
  | vcmpNe (pd : BitVec 5) (a : BitVec 7) (b : BitVec 7) (c : BitVec 2) (ea : Bool) (eb : Bool)
  /-- VCMP_LT (R114) -/
  | vcmpLt (pd : BitVec 5) (a : BitVec 7) (b : BitVec 7) (c : BitVec 2) (ea : Bool) (eb : Bool)
  /-- VCMP_LE (R114) -/
  | vcmpLe (pd : BitVec 5) (a : BitVec 7) (b : BitVec 7) (c : BitVec 2) (ea : Bool) (eb : Bool)
  /-- VCMP_GT (R114) -/
  | vcmpGt (pd : BitVec 5) (a : BitVec 7) (b : BitVec 7) (c : BitVec 2) (ea : Bool) (eb : Bool)
  /-- VCMP_GE (R114) -/
  | vcmpGe (pd : BitVec 5) (a : BitVec 7) (b : BitVec 7) (c : BitVec 2) (ea : Bool) (eb : Bool)
  /-- VCMP_LTU (R114) -/
  | vcmpLtu (pd : BitVec 5) (a : BitVec 7) (b : BitVec 7) (c : BitVec 2) (ea : Bool) (eb : Bool)
  /-- VCMP_LEU (R114) -/
  | vcmpLeu (pd : BitVec 5) (a : BitVec 7) (b : BitVec 7) (c : BitVec 2) (ea : Bool) (eb : Bool)
  /-- VCMP_GTU (R114) -/
  | vcmpGtu (pd : BitVec 5) (a : BitVec 7) (b : BitVec 7) (c : BitVec 2) (ea : Bool) (eb : Bool)
  /-- VCMP_GEU (R114) -/
  | vcmpGeu (pd : BitVec 5) (a : BitVec 7) (b : BitVec 7) (c : BitVec 2) (ea : Bool) (eb : Bool)
  /-- VFCMP_EQ (R114) -/
  | vfcmpEq (pd : BitVec 5) (a : BitVec 7) (b : BitVec 7) (c : BitVec 2) (ea : Bool) (eb : Bool)
  /-- VFCMP_NE (R114) -/
  | vfcmpNe (pd : BitVec 5) (a : BitVec 7) (b : BitVec 7) (c : BitVec 2) (ea : Bool) (eb : Bool)
  /-- VFCMP_LT (R114) -/
  | vfcmpLt (pd : BitVec 5) (a : BitVec 7) (b : BitVec 7) (c : BitVec 2) (ea : Bool) (eb : Bool)
  /-- VFCMP_LE (R114) -/
  | vfcmpLe (pd : BitVec 5) (a : BitVec 7) (b : BitVec 7) (c : BitVec 2) (ea : Bool) (eb : Bool)
  /-- VFCMP_UN (R114) -/
  | vfcmpUn (pd : BitVec 5) (a : BitVec 7) (b : BitVec 7) (c : BitVec 2) (ea : Bool) (eb : Bool)
  /-- VFCLASS (R114) -/
  | vfclass (pd : BitVec 5) (a : BitVec 7) (b : BitVec 7) (c : BitVec 2) (ea : Bool) (eb : Bool)
  /-- VTEST (R114) -/
  | vtest (pd : BitVec 5) (a : BitVec 7) (b : BitVec 7) (c : BitVec 2) (ea : Bool) (eb : Bool)
  /-- PAND (R115) -/
  | pand (pd : BitVec 5) (pa : BitVec 5) (pb : BitVec 5) (c : BitVec 2)
  /-- POR (R115) -/
  | por (pd : BitVec 5) (pa : BitVec 5) (pb : BitVec 5) (c : BitVec 2)
  /-- PXOR (R115) -/
  | pxor (pd : BitVec 5) (pa : BitVec 5) (pb : BitVec 5) (c : BitVec 2)
  /-- PANDN (R115) -/
  | pandn (pd : BitVec 5) (pa : BitVec 5) (pb : BitVec 5) (c : BitVec 2)
  /-- PNOT (R115) -/
  | pnot (pd : BitVec 5) (pa : BitVec 5) (c : BitVec 2)
  /-- PMOV (R115) -/
  | pmov (pd : BitVec 5) (pa : BitVec 5) (c : BitVec 2)
  /-- PSET (R115) -/
  | pset (pd : BitVec 5) (c : BitVec 2)
  /-- PCLR (R115) -/
  | pclr (pd : BitVec 5) (c : BitVec 2)
  /-- LD_B (R143) -/
  | ldB (d : BitVec 7) (a : BitVec 7) (reuse : BitVec 3) (order : BitVec 2) (scope : BitVec 3)
  /-- LD_B_EXT (R143) -/
  | ldBExt (d : BitVec 7) (a : BitVec 7) (reuse : BitVec 3) (order : BitVec 2) (scope : BitVec 3) (off : BitVec 32)
  /-- LD_SB (R143) -/
  | ldSb (d : BitVec 7) (a : BitVec 7) (reuse : BitVec 3) (order : BitVec 2) (scope : BitVec 3)
  /-- LD_SB_EXT (R143) -/
  | ldSbExt (d : BitVec 7) (a : BitVec 7) (reuse : BitVec 3) (order : BitVec 2) (scope : BitVec 3) (off : BitVec 32)
  /-- LD_H (R143) -/
  | ldH (d : BitVec 7) (a : BitVec 7) (reuse : BitVec 3) (order : BitVec 2) (scope : BitVec 3)
  /-- LD_H_EXT (R143) -/
  | ldHExt (d : BitVec 7) (a : BitVec 7) (reuse : BitVec 3) (order : BitVec 2) (scope : BitVec 3) (off : BitVec 32)
  /-- LD_SH (R143) -/
  | ldSh (d : BitVec 7) (a : BitVec 7) (reuse : BitVec 3) (order : BitVec 2) (scope : BitVec 3)
  /-- LD_SH_EXT (R143) -/
  | ldShExt (d : BitVec 7) (a : BitVec 7) (reuse : BitVec 3) (order : BitVec 2) (scope : BitVec 3) (off : BitVec 32)
  /-- LD_W (R143) -/
  | ldW (d : BitVec 7) (a : BitVec 7) (reuse : BitVec 3) (order : BitVec 2) (scope : BitVec 3)
  /-- LD_W_EXT (R143) -/
  | ldWExt (d : BitVec 7) (a : BitVec 7) (reuse : BitVec 3) (order : BitVec 2) (scope : BitVec 3) (off : BitVec 32)
  /-- LD_D (R143) -/
  | ldD (d : BitVec 7) (a : BitVec 7) (reuse : BitVec 3) (order : BitVec 2) (scope : BitVec 3)
  /-- LD_D_EXT (R143) -/
  | ldDExt (d : BitVec 7) (a : BitVec 7) (reuse : BitVec 3) (order : BitVec 2) (scope : BitVec 3) (off : BitVec 32)
  /-- LD_Q (R143) -/
  | ldQ (d : BitVec 7) (a : BitVec 7) (reuse : BitVec 3) (order : BitVec 2) (scope : BitVec 3)
  /-- LD_Q_EXT (R143) -/
  | ldQExt (d : BitVec 7) (a : BitVec 7) (reuse : BitVec 3) (order : BitVec 2) (scope : BitVec 3) (off : BitVec 32)
  /-- LDPK6 (R149) -/
  | ldpk6 (d : BitVec 7) (a : BitVec 7) (reuse : BitVec 3) (order : BitVec 2) (scope : BitVec 3)
  /-- LDPK6_EXT (R149) -/
  | ldpk6Ext (d : BitVec 7) (a : BitVec 7) (reuse : BitVec 3) (order : BitVec 2) (scope : BitVec 3) (off : BitVec 32)
  /-- LDPK4 (R149) -/
  | ldpk4 (d : BitVec 7) (a : BitVec 7) (reuse : BitVec 3) (order : BitVec 2) (scope : BitVec 3)
  /-- LDPK4_EXT (R149) -/
  | ldpk4Ext (d : BitVec 7) (a : BitVec 7) (reuse : BitVec 3) (order : BitVec 2) (scope : BitVec 3) (off : BitVec 32)
  /-- ST_B (R143) -/
  | stB (d : BitVec 7) (a : BitVec 7) (reuse : BitVec 3) (order : BitVec 2) (scope : BitVec 3)
  /-- ST_B_EXT (R143) -/
  | stBExt (d : BitVec 7) (a : BitVec 7) (reuse : BitVec 3) (order : BitVec 2) (scope : BitVec 3) (off : BitVec 32)
  /-- ST_H (R143) -/
  | stH (d : BitVec 7) (a : BitVec 7) (reuse : BitVec 3) (order : BitVec 2) (scope : BitVec 3)
  /-- ST_H_EXT (R143) -/
  | stHExt (d : BitVec 7) (a : BitVec 7) (reuse : BitVec 3) (order : BitVec 2) (scope : BitVec 3) (off : BitVec 32)
  /-- ST_W (R143) -/
  | stW (d : BitVec 7) (a : BitVec 7) (reuse : BitVec 3) (order : BitVec 2) (scope : BitVec 3)
  /-- ST_W_EXT (R143) -/
  | stWExt (d : BitVec 7) (a : BitVec 7) (reuse : BitVec 3) (order : BitVec 2) (scope : BitVec 3) (off : BitVec 32)
  /-- ST_D (R143) -/
  | stD (d : BitVec 7) (a : BitVec 7) (reuse : BitVec 3) (order : BitVec 2) (scope : BitVec 3)
  /-- ST_D_EXT (R143) -/
  | stDExt (d : BitVec 7) (a : BitVec 7) (reuse : BitVec 3) (order : BitVec 2) (scope : BitVec 3) (off : BitVec 32)
  /-- ST_Q (R143) -/
  | stQ (d : BitVec 7) (a : BitVec 7) (reuse : BitVec 3) (order : BitVec 2) (scope : BitVec 3)
  /-- ST_Q_EXT (R143) -/
  | stQExt (d : BitVec 7) (a : BitVec 7) (reuse : BitVec 3) (order : BitVec 2) (scope : BitVec 3) (off : BitVec 32)
  /-- LDS_W (R143) -/
  | ldsW (d : BitVec 7) (a : BitVec 7) (order : BitVec 2) (scope : BitVec 3)
  /-- LDS_W_EXT (R143) -/
  | ldsWExt (d : BitVec 7) (a : BitVec 7) (order : BitVec 2) (scope : BitVec 3) (off : BitVec 32)
  /-- LDS_D (R143) -/
  | ldsD (d : BitVec 7) (a : BitVec 7) (order : BitVec 2) (scope : BitVec 3)
  /-- LDS_D_EXT (R143) -/
  | ldsDExt (d : BitVec 7) (a : BitVec 7) (order : BitVec 2) (scope : BitVec 3) (off : BitVec 32)
  /-- LDS_Q (R143) -/
  | ldsQ (d : BitVec 7) (a : BitVec 7) (order : BitVec 2) (scope : BitVec 3)
  /-- LDS_Q_EXT (R143) -/
  | ldsQExt (d : BitVec 7) (a : BitVec 7) (order : BitVec 2) (scope : BitVec 3) (off : BitVec 32)
  /-- STS_B (R150) -/
  | stsB (d : BitVec 7) (a : BitVec 7) (order : BitVec 2) (scope : BitVec 3)
  /-- STS_B_EXT (R150) -/
  | stsBExt (d : BitVec 7) (a : BitVec 7) (order : BitVec 2) (scope : BitVec 3) (off : BitVec 32)
  /-- STS_H (R150) -/
  | stsH (d : BitVec 7) (a : BitVec 7) (order : BitVec 2) (scope : BitVec 3)
  /-- STS_H_EXT (R150) -/
  | stsHExt (d : BitVec 7) (a : BitVec 7) (order : BitVec 2) (scope : BitVec 3) (off : BitVec 32)
  /-- STS_W (R143) -/
  | stsW (d : BitVec 7) (a : BitVec 7) (order : BitVec 2) (scope : BitVec 3)
  /-- STS_W_EXT (R143) -/
  | stsWExt (d : BitVec 7) (a : BitVec 7) (order : BitVec 2) (scope : BitVec 3) (off : BitVec 32)
  /-- STS_D (R143) -/
  | stsD (d : BitVec 7) (a : BitVec 7) (order : BitVec 2) (scope : BitVec 3)
  /-- STS_D_EXT (R143) -/
  | stsDExt (d : BitVec 7) (a : BitVec 7) (order : BitVec 2) (scope : BitVec 3) (off : BitVec 32)
  /-- STS_Q (R143) -/
  | stsQ (d : BitVec 7) (a : BitVec 7) (order : BitVec 2) (scope : BitVec 3)
  /-- STS_Q_EXT (R143) -/
  | stsQExt (d : BitVec 7) (a : BitVec 7) (order : BitVec 2) (scope : BitVec 3) (off : BitVec 32)
  /-- ATOM_ADD (R154) -/
  | atomAdd (d : BitVec 7) (a : BitVec 7) (reuse : BitVec 3) (order : BitVec 2) (scope : BitVec 3)
  /-- ATOM_ADD_EXT (R154) -/
  | atomAddExt (d : BitVec 7) (a : BitVec 7) (reuse : BitVec 3) (order : BitVec 2) (scope : BitVec 3) (off : BitVec 32)
  /-- ATOM_FADD (R156) -/
  | atomFadd (d : BitVec 7) (a : BitVec 7) (reuse : BitVec 3) (order : BitVec 2) (scope : BitVec 3)
  /-- ATOM_FADD_EXT (R156) -/
  | atomFaddExt (d : BitVec 7) (a : BitVec 7) (reuse : BitVec 3) (order : BitVec 2) (scope : BitVec 3) (off : BitVec 32)
  /-- ATOM_HFADD_BF (R156) -/
  | atomHfaddBf (d : BitVec 7) (a : BitVec 7) (reuse : BitVec 3) (order : BitVec 2) (scope : BitVec 3)
  /-- ATOM_HFADD_BF_EXT (R156) -/
  | atomHfaddBfExt (d : BitVec 7) (a : BitVec 7) (reuse : BitVec 3) (order : BitVec 2) (scope : BitVec 3) (off : BitVec 32)
  /-- ATOM_MIN (R154) -/
  | atomMin (d : BitVec 7) (a : BitVec 7) (reuse : BitVec 3) (order : BitVec 2) (scope : BitVec 3)
  /-- ATOM_MIN_EXT (R154) -/
  | atomMinExt (d : BitVec 7) (a : BitVec 7) (reuse : BitVec 3) (order : BitVec 2) (scope : BitVec 3) (off : BitVec 32)
  /-- ATOM_MAX (R154) -/
  | atomMax (d : BitVec 7) (a : BitVec 7) (reuse : BitVec 3) (order : BitVec 2) (scope : BitVec 3)
  /-- ATOM_MAX_EXT (R154) -/
  | atomMaxExt (d : BitVec 7) (a : BitVec 7) (reuse : BitVec 3) (order : BitVec 2) (scope : BitVec 3) (off : BitVec 32)
  /-- ATOM_MINU (R154) -/
  | atomMinu (d : BitVec 7) (a : BitVec 7) (reuse : BitVec 3) (order : BitVec 2) (scope : BitVec 3)
  /-- ATOM_MINU_EXT (R154) -/
  | atomMinuExt (d : BitVec 7) (a : BitVec 7) (reuse : BitVec 3) (order : BitVec 2) (scope : BitVec 3) (off : BitVec 32)
  /-- ATOM_MAXU (R154) -/
  | atomMaxu (d : BitVec 7) (a : BitVec 7) (reuse : BitVec 3) (order : BitVec 2) (scope : BitVec 3)
  /-- ATOM_MAXU_EXT (R154) -/
  | atomMaxuExt (d : BitVec 7) (a : BitVec 7) (reuse : BitVec 3) (order : BitVec 2) (scope : BitVec 3) (off : BitVec 32)
  /-- ATOM_AND (R154) -/
  | atomAnd (d : BitVec 7) (a : BitVec 7) (reuse : BitVec 3) (order : BitVec 2) (scope : BitVec 3)
  /-- ATOM_AND_EXT (R154) -/
  | atomAndExt (d : BitVec 7) (a : BitVec 7) (reuse : BitVec 3) (order : BitVec 2) (scope : BitVec 3) (off : BitVec 32)
  /-- ATOM_OR (R154) -/
  | atomOr (d : BitVec 7) (a : BitVec 7) (reuse : BitVec 3) (order : BitVec 2) (scope : BitVec 3)
  /-- ATOM_OR_EXT (R154) -/
  | atomOrExt (d : BitVec 7) (a : BitVec 7) (reuse : BitVec 3) (order : BitVec 2) (scope : BitVec 3) (off : BitVec 32)
  /-- ATOM_XOR (R154) -/
  | atomXor (d : BitVec 7) (a : BitVec 7) (reuse : BitVec 3) (order : BitVec 2) (scope : BitVec 3)
  /-- ATOM_XOR_EXT (R154) -/
  | atomXorExt (d : BitVec 7) (a : BitVec 7) (reuse : BitVec 3) (order : BitVec 2) (scope : BitVec 3) (off : BitVec 32)
  /-- ATOM_XCHG (R154) -/
  | atomXchg (d : BitVec 7) (a : BitVec 7) (reuse : BitVec 3) (order : BitVec 2) (scope : BitVec 3)
  /-- ATOM_XCHG_EXT (R154) -/
  | atomXchgExt (d : BitVec 7) (a : BitVec 7) (reuse : BitVec 3) (order : BitVec 2) (scope : BitVec 3) (off : BitVec 32)
  /-- ATOM_CAS (R155) -/
  | atomCas (d : BitVec 7) (a : BitVec 7) (reuse : BitVec 3) (order : BitVec 2) (scope : BitVec 3)
  /-- ATOM_CAS_EXT (R155) -/
  | atomCasExt (d : BitVec 7) (a : BitVec 7) (reuse : BitVec 3) (order : BitVec 2) (scope : BitVec 3) (off : BitVec 32)
  /-- ATOM_CAS_D (R155) -/
  | atomCasD (d : BitVec 7) (a : BitVec 7) (reuse : BitVec 3) (order : BitVec 2) (scope : BitVec 3)
  /-- ATOM_CAS_D_EXT (R155) -/
  | atomCasDExt (d : BitVec 7) (a : BitVec 7) (reuse : BitVec 3) (order : BitVec 2) (scope : BitVec 3) (off : BitVec 32)
  /-- ATOMS_ADD (R154) -/
  | atomsAdd (d : BitVec 7) (a : BitVec 7) (order : BitVec 2) (scope : BitVec 3)
  /-- ATOMS_ADD_EXT (R154) -/
  | atomsAddExt (d : BitVec 7) (a : BitVec 7) (order : BitVec 2) (scope : BitVec 3) (off : BitVec 32)
  /-- ATOMS_FADD (R156) -/
  | atomsFadd (d : BitVec 7) (a : BitVec 7) (order : BitVec 2) (scope : BitVec 3)
  /-- ATOMS_FADD_EXT (R156) -/
  | atomsFaddExt (d : BitVec 7) (a : BitVec 7) (order : BitVec 2) (scope : BitVec 3) (off : BitVec 32)
  /-- ATOMS_MIN (R154) -/
  | atomsMin (d : BitVec 7) (a : BitVec 7) (order : BitVec 2) (scope : BitVec 3)
  /-- ATOMS_MIN_EXT (R154) -/
  | atomsMinExt (d : BitVec 7) (a : BitVec 7) (order : BitVec 2) (scope : BitVec 3) (off : BitVec 32)
  /-- ATOMS_MAX (R154) -/
  | atomsMax (d : BitVec 7) (a : BitVec 7) (order : BitVec 2) (scope : BitVec 3)
  /-- ATOMS_MAX_EXT (R154) -/
  | atomsMaxExt (d : BitVec 7) (a : BitVec 7) (order : BitVec 2) (scope : BitVec 3) (off : BitVec 32)
  /-- ATOMS_XCHG (R154) -/
  | atomsXchg (d : BitVec 7) (a : BitVec 7) (order : BitVec 2) (scope : BitVec 3)
  /-- ATOMS_XCHG_EXT (R154) -/
  | atomsXchgExt (d : BitVec 7) (a : BitVec 7) (order : BitVec 2) (scope : BitVec 3) (off : BitVec 32)
  /-- ATOMS_CAS (R155) -/
  | atomsCas (d : BitVec 7) (a : BitVec 7) (order : BitVec 2) (scope : BitVec 3)
  /-- ATOMS_CAS_EXT (R155) -/
  | atomsCasExt (d : BitVec 7) (a : BitVec 7) (order : BitVec 2) (scope : BitVec 3) (off : BitVec 32)
  /-- FENCE (R158) -/
  | fence (order : BitVec 2) (scope : BitVec 3)
  /-- PREF (R159) -/
  | pref (a : BitVec 7) (reuse : BitVec 3)
  /-- PREF_EXT (R159) -/
  | prefExt (a : BitVec 7) (reuse : BitVec 3) (off : BitVec 32)
  /-- SADD (R85) -/
  | sadd (sd : BitVec 5) (sa : BitVec 5) (sb : BitVec 5)
  /-- SSUB (R85) -/
  | ssub (sd : BitVec 5) (sa : BitVec 5) (sb : BitVec 5)
  /-- SMUL (R85) -/
  | smul (sd : BitVec 5) (sa : BitVec 5) (sb : BitVec 5)
  /-- SMULHU (R85) -/
  | smulhu (sd : BitVec 5) (sa : BitVec 5) (sb : BitVec 5)
  /-- SAND (R85) -/
  | sand (sd : BitVec 5) (sa : BitVec 5) (sb : BitVec 5)
  /-- SOR (R85) -/
  | sor (sd : BitVec 5) (sa : BitVec 5) (sb : BitVec 5)
  /-- SXOR (R85) -/
  | sxor (sd : BitVec 5) (sa : BitVec 5) (sb : BitVec 5)
  /-- SSHL (R85) -/
  | sshl (sd : BitVec 5) (sa : BitVec 5) (sb : BitVec 5)
  /-- SSHR (R85) -/
  | sshr (sd : BitVec 5) (sa : BitVec 5) (sb : BitVec 5)
  /-- SSAR (R85) -/
  | ssar (sd : BitVec 5) (sa : BitVec 5) (sb : BitVec 5)
  /-- SMIN (R85) -/
  | smin (sd : BitVec 5) (sa : BitVec 5) (sb : BitVec 5)
  /-- SMAX (R85) -/
  | smax (sd : BitVec 5) (sa : BitVec 5) (sb : BitVec 5)
  /-- SMINU (R85) -/
  | sminu (sd : BitVec 5) (sa : BitVec 5) (sb : BitVec 5)
  /-- SMAXU (R85) -/
  | smaxu (sd : BitVec 5) (sa : BitVec 5) (sb : BitVec 5)
  /-- SSEQ (R85) -/
  | sseq (sd : BitVec 5) (sa : BitVec 5) (sb : BitVec 5)
  /-- SSLT (R85) -/
  | sslt (sd : BitVec 5) (sa : BitVec 5) (sb : BitVec 5)
  /-- SSLTU (R85) -/
  | ssltu (sd : BitVec 5) (sa : BitVec 5) (sb : BitVec 5)
  /-- SADDI (R86) -/
  | saddi (sd : BitVec 5) (sa : BitVec 5) (imm : BitVec 13)
  /-- SANDI (R86) -/
  | sandi (sd : BitVec 5) (sa : BitVec 5) (imm : BitVec 13)
  /-- SORI (R86) -/
  | sori (sd : BitVec 5) (sa : BitVec 5) (imm : BitVec 13)
  /-- SXORI (R86) -/
  | sxori (sd : BitVec 5) (sa : BitVec 5) (imm : BitVec 13)
  /-- SMOVI (R86) -/
  | smovi (sd : BitVec 5) (imm : BitVec 13)
  /-- SMOVHI (R86) -/
  | smovhi (sd : BitVec 5) (imm : BitVec 13)
  /-- SSHLI (R86) -/
  | sshli (sd : BitVec 5) (sa : BitVec 5) (imm : BitVec 5)
  /-- SSHRI (R86) -/
  | sshri (sd : BitVec 5) (sa : BitVec 5) (imm : BitVec 5)
  /-- SLD_W (R87) -/
  | sldW (sd : BitVec 5) (sa : BitVec 5) (imm : BitVec 13)
  /-- SLD_D (R87) -/
  | sldD (sd : BitVec 5) (sa : BitVec 5) (imm : BitVec 13)
  /-- SST_W (R87) -/
  | sstW (sd : BitVec 5) (sa : BitVec 5) (imm : BitVec 13)
  /-- MOVSR (R89) -/
  | movsr (s : BitVec 5) (n : BitVec 6)
  /-- MOVSW (R89) -/
  | movsw (s : BitVec 5) (n : BitVec 6)
  /-- BRA (R91) -/
  | bra (p : BitVec 5) (neg : Bool) (off : BitVec 17)
  /-- BRAU (R91) -/
  | brau (p : BitVec 5) (neg : Bool) (off : BitVec 17)
  /-- BRAANY (R91) -/
  | braany (p : BitVec 5) (neg : Bool) (off : BitVec 17)
  /-- BRAALL (R91) -/
  | braall (p : BitVec 5) (neg : Bool) (off : BitVec 17)
  /-- CALL (R91) -/
  | call (p : BitVec 5) (neg : Bool) (off : BitVec 17)
  /-- RET (R92) -/
  | ret (a : BitVec 7) (ea : Bool)
  /-- JMPV (R92) -/
  | jmpv (a : BitVec 7) (ea : Bool)
  /-- LOOP (R94) -/
  | loop (lc : BitVec 2) (sa : BitVec 5) (len : BitVec 11)
  /-- LOOPI (R94) -/
  | loopi (lc : BitVec 2) (n : BitVec 10) (len : BitVec 11)
  /-- EXIT (R98) -/
  | exit
  /-- NOP (R98) -/
  | nop
  /-- YIELD (R98) -/
  | yield
  /-- SUSPEND (R99) -/
  | suspend (ec : BitVec 3) (t : BitVec 4) (off : BitVec 16)
  /-- ELECT (R100) -/
  | elect (pd : BitVec 5)
  /-- TRAP (R101) -/
  | trap (code : BitVec 16)
  /-- TRET (R102) -/
  | tret
  /-- TSTAMP (R103) -/
  | tstamp (sd : BitVec 5)
  /-- CYCLE (R103) -/
  | cycle (sd : BitVec 5)
  /-- MMA (R249) -/
  | mma (s : BitVec 5) (ec : BitVec 3)
  /-- ACCZERO (R173) -/
  | acczero (s : BitVec 5) (ec : BitVec 3) (eng : Bool)
  /-- ACCRD (R173) -/
  | accrd (s : BitVec 5) (ec : BitVec 3) (eng : Bool) (d : BitVec 7)
  /-- ACCWR (R173) -/
  | accwr (s : BitVec 5) (ec : BitVec 3) (eng : Bool) (d : BitVec 7)
  /-- ACCDRAIN (R257) -/
  | accdrain (s : BitVec 5) (ec : BitVec 3)
  /-- COPY (R263) -/
  | copy (s : BitVec 5) (ec : BitVec 3)
  /-- GATHER (R264) -/
  | gather (s : BitVec 5) (ec : BitVec 3)
  /-- SCATTER (R264) -/
  | scatter (s : BitVec 5) (ec : BitVec 3)
  /-- COLL (R265) -/
  | coll (s : BitVec 5) (ec : BitVec 3)
  /-- CBLOAD (R255) -/
  | cbload (s : BitVec 5) (ec : BitVec 3) (eng : Bool)
  /-- ACTLOAD (R139) -/
  | actload (s : BitVec 5) (ec : BitVec 3)
  /-- OBJDECL (R175) -/
  | objdecl (s : BitVec 5) (sd : BitVec 5)
  /-- OBJFREE (R175) -/
  | objfree (s : BitVec 5) (ec : BitVec 3)
  /-- TOKREQ (R175) -/
  | tokreq (s : BitVec 5) (ec : BitVec 3)
  /-- TOKREL (R175) -/
  | tokrel (s : BitVec 5) (ec : BitVec 3)
  /-- LAUNCH (R176) -/
  | launch (s : BitVec 5) (sd : BitVec 5)
  /-- WAITCHILD (R177) -/
  | waitchild
  /-- SUCCOK (R177) -/
  | succok
  /-- WAITPRED (R177) -/
  | waitpred
  /-- TBAR (R178) -/
  | tbar (b : BitVec 2)
  /-- TARRIVE (R178) -/
  | tarrive (b : BitVec 2)
  /-- GBAR (R179) -/
  | gbar
  /-- EVINC (R174) -/
  | evinc (ec : BitVec 3) (n : BitVec 8)
  /-- EVDEC (R174) -/
  | evdec (ec : BitVec 3) (n : BitVec 8)
  /-- PHASEEND (R267) -/
  | phaseend (s : BitVec 5) (ec : BitVec 3)
  /-- ENSURE (R184) -/
  | ensure (s : BitVec 5)
  /-- ELSEBY (R184) -/
  | elseby
  /-- ELSEERR (R184) -/
  | elseerr (code : BitVec 15)
  /-- ACCEPT (R184) -/
  | accept (p : BitVec 5)
  /-- REJECT (R184) -/
  | reject
  /-- CONVJOIN (R185) -/
  | convjoin (s : BitVec 5)
  /-- CONVLEAVE (R185) -/
  | convleave (s : BitVec 5)
  /-- RBEGIN (R180) -/
  | rbegin
  /-- REND (R181) -/
  | rend
  /-- RSTAT (R182) -/
  | rstat (sd : BitVec 5) (sel : BitVec 3)
  /-- TELECT (R187) -/
  | telect (pd : BitVec 5)
  /-- METER (R188) -/
  | meter (sd : BitVec 5)
  /-- VFMA3 (R117) -/
  | vfma3 (d : BitVec 7) (a : BitVec 7) (b : BitVec 7) (c : BitVec 7) (ea : Bool) (eb : Bool) (pg : BitVec 5) (neg : Bool) (rm : BitVec 3) (st : BitVec 4) (dt : BitVec 4)
  /-- VSEL (R118) -/
  | vsel (d : BitVec 7) (a : BitVec 7) (b : BitVec 7) (ea : Bool) (eb : Bool) (pg : BitVec 5) (neg : Bool)
  /-- VCVT (R120) -/
  | vcvt (d : BitVec 7) (a : BitVec 7) (ea : Bool) (pg : BitVec 5) (neg : Bool) (rm : BitVec 3) (st : BitVec 4) (dt : BitVec 4) (js : BitVec 3) (jd : BitVec 3)
  /-- VCVTI (R120) -/
  | vcvti (d : BitVec 7) (a : BitVec 7) (ea : Bool) (pg : BitVec 5) (neg : Bool) (rm : BitVec 3) (st : BitVec 4) (dt : BitVec 4) (js : BitVec 3) (jd : BitVec 3)
  /-- VCVTF (R120) -/
  | vcvtf (d : BitVec 7) (a : BitVec 7) (ea : Bool) (pg : BitVec 5) (neg : Bool) (rm : BitVec 3) (st : BitVec 4) (dt : BitVec 4) (js : BitVec 3) (jd : BitVec 3)
  /-- VPACK (R121) -/
  | vpack (d : BitVec 7) (a : BitVec 7) (b : BitVec 7) (ea : Bool) (eb : Bool) (pg : BitVec 5) (neg : Bool) (rm : BitVec 3) (st : BitVec 4) (dt : BitVec 4) (h : Bool)
  /-- VUNPACK (R122) -/
  | vunpack (d : BitVec 7) (a : BitVec 7) (ea : Bool) (pg : BitVec 5) (neg : Bool) (st : BitVec 4) (dt : BitVec 4) (j : BitVec 3)
  /-- VDEQ (R123) -/
  | vdeq (d : BitVec 7) (a : BitVec 7) (b : BitVec 7) (c : BitVec 7) (ea : Bool) (eb : Bool) (pg : BitVec 5) (neg : Bool) (rm : BitVec 3) (st : BitVec 4) (dt : BitVec 4) (j : BitVec 5) (set : Bool)
  /-- VPERM (R130) -/
  | vperm (d : BitVec 7) (a : BitVec 7) (b : BitVec 7) (c : BitVec 7) (ea : Bool) (eb : Bool) (pg : BitVec 5)
  /-- VSHUF (R130) -/
  | vshuf (d : BitVec 7) (a : BitVec 7) (c : BitVec 7) (ea : Bool) (pg : BitVec 5) (off : BitVec 8)
  /-- VLOGRED (R130) -/
  | vlogred (d : BitVec 7) (a : BitVec 7) (c : BitVec 7) (ea : Bool) (pg : BitVec 5) (rm : BitVec 3) (op : BitVec 4)
  /-- VSCAN (R130) -/
  | vscan (d : BitVec 7) (a : BitVec 7) (c : BitVec 7) (ea : Bool) (pg : BitVec 5) (rm : BitVec 3) (op : BitVec 4) (excl : Bool)
  /-- VBCAST (R130) -/
  | vbcast (d : BitVec 7) (a : BitVec 7) (c : BitVec 7) (ea : Bool) (pg : BitVec 5) (lane : BitVec 8)
  /-- VVOTE (R130) -/
  | vvote (d : BitVec 7) (pa : BitVec 5) (c : BitVec 7) (pg : BitVec 5) (mode : BitVec 2)
  /-- VBFE (R124) -/
  | vbfe (d : BitVec 7) (a : BitVec 7) (b : BitVec 7) (ea : Bool) (eb : Bool) (pg : BitVec 5) (neg : Bool) (sx : Bool)
  /-- VBFI (R124) -/
  | vbfi (d : BitVec 7) (a : BitVec 7) (b : BitVec 7) (c : BitVec 7) (ea : Bool) (eb : Bool) (pg : BitVec 5) (neg : Bool)
  /-- VFRCP (R136) -/
  | vfrcp (d : BitVec 7) (a : BitVec 7) (ea : Bool) (pg : BitVec 5) (neg : Bool)
  /-- VFRSQ (R136) -/
  | vfrsq (d : BitVec 7) (a : BitVec 7) (ea : Bool) (pg : BitVec 5) (neg : Bool)
  /-- VFSQRT (R136) -/
  | vfsqrt (d : BitVec 7) (a : BitVec 7) (ea : Bool) (pg : BitVec 5) (neg : Bool) (rm : BitVec 3)
  /-- VFEXP2 (R136) -/
  | vfexp2 (d : BitVec 7) (a : BitVec 7) (ea : Bool) (pg : BitVec 5) (neg : Bool)
  /-- VFLOG2 (R136) -/
  | vflog2 (d : BitVec 7) (a : BitVec 7) (ea : Bool) (pg : BitVec 5) (neg : Bool)
  /-- VFSIN (R136) -/
  | vfsin (d : BitVec 7) (a : BitVec 7) (ea : Bool) (pg : BitVec 5) (neg : Bool)
  /-- VFCOS (R136) -/
  | vfcos (d : BitVec 7) (a : BitVec 7) (ea : Bool) (pg : BitVec 5) (neg : Bool)
  /-- VFDIV (R136) -/
  | vfdiv (d : BitVec 7) (a : BitVec 7) (b : BitVec 7) (ea : Bool) (eb : Bool) (pg : BitVec 5) (neg : Bool) (rm : BitVec 3)
  /-- VACT (R138) -/
  | vact (d : BitVec 7) (a : BitVec 7) (ea : Bool) (pg : BitVec 5) (neg : Bool)
  /-- DROPM (R141) -/
  | dropm (a : BitVec 7) (b : BitVec 7) (c : BitVec 7) (ea : Bool) (eb : Bool) (pg : BitVec 5)
  /-- VRAND (R141) -/
  | vrand (d : BitVec 7) (a : BitVec 7) (b : BitVec 7) (ea : Bool) (eb : Bool) (pg : BitVec 5) (neg : Bool)
  /-- LD_IDX (R160) -/
  | ldIdx (d : BitVec 7) (a : BitVec 7) (b : BitVec 7) (ea : Bool) (eb : Bool) (pg : BitVec 5) (neg : Bool) (st : BitVec 4) (order : BitVec 2) (scope : BitVec 3) (reuse : BitVec 3)
  /-- ST_IDX (R160) -/
  | stIdx (d : BitVec 7) (a : BitVec 7) (b : BitVec 7) (ea : Bool) (eb : Bool) (pg : BitVec 5) (neg : Bool) (st : BitVec 4) (order : BitVec 2) (scope : BitVec 3) (reuse : BitVec 3)
  /-- LREAD (R132) -/
  | lread (d : BitVec 7) (a : BitVec 7) (b : BitVec 7) (ea : Bool) (eb : Bool) (pg : BitVec 5) (neg : Bool)
  /-- LREAD_SCALAR (R132) -/
  | lreadScalar (d : BitVec 7) (a : BitVec 7) (ea : Bool) (lane : BitVec 8)
  /-- LWRITE (R133) -/
  | lwrite (d : BitVec 7) (a : BitVec 7) (ea : Bool) (lane : BitVec 8)
  /-- VPCRD (R134) -/
  | vpcrd (d : BitVec 7) (field : BitVec 4) (lane : BitVec 8)
  /-- VPCWR (R134) -/
  | vpcwr (a : BitVec 7) (ea : Bool) (field : BitVec 4) (lane : BitVec 8)
  /-- VIDIV (R125) -/
  | vidiv (d : BitVec 7) (a : BitVec 7) (b : BitVec 7) (ea : Bool) (eb : Bool) (pg : BitVec 5) (neg : Bool) (st : BitVec 4) (dt : BitVec 4)
  /-- VIREM (R125) -/
  | virem (d : BitVec 7) (a : BitVec 7) (b : BitVec 7) (ea : Bool) (eb : Bool) (pg : BitVec 5) (neg : Bool) (st : BitVec 4) (dt : BitVec 4)
  /-- RUN_START (R196) -/
  | runStart (cl sl : Nat)
  /-- DEFERRED_TRAP_TAKEN (R338) -/
  | deferredTrapTaken (g : Nat)
  /-- LOAD_RESULT (R144) -/
  | loadResult (acc : AccessAt)
  /-- SFU_RESULT (R136) -/
  | sfuResult (prod : Nat)
  /-- LREAD_RESULT (R132) -/
  | lreadResult (prod : Nat)
  /-- ATOMIC_COMPLETION (R156) -/
  | atomicCompletion (acc : AccessAt)
  /-- STORE_PERFORMED (R157) -/
  | storePerformed (acc : StoreAt)
  /-- OBJDECL_RESULT (R175) -/
  | objdeclResult (prod : Nat)
  /-- LAUNCH_RESULT (R176) -/
  | launchResult (prod : Nat)
  /-- METER_RESULT (R188) -/
  | meterResult (prod : Nat)
  /-- ENGINE_COMMAND_START (R169) -/
  | engineCommandStart (cmd : Nat)
  /-- ENGINE_COMMAND_COMPLETION (R170) -/
  | engineCommandCompletion (cmd : Nat)
  /-- TRANSLATION_WALK_END (R224) -/
  | translationWalkEnd (cl part page : Nat)
  /-- PFANS_WRITE (R394) -/
  | pfansWrite (part : Nat) (value : BitVec 64)
  /-- TLB_INVALIDATION_START (R226) -/
  | tlbInvalidationStart (part : Nat) (value : BitVec 64)
  /-- TLB_INVALIDATION_COMPLETE (R226) -/
  | tlbInvalidationComplete (part : Nat)
  /-- TOKEN_REQUEST_ARRIVAL (R239) -/
  | tokenRequestArrival (cl part obj : Nat)
  /-- TOKEN_GRANT (R239) -/
  | tokenGrant (part obj : Nat)
  /-- LINE_MIGRATION_COMPLETE (R217) -/
  | lineMigrationComplete (line : Nat) (dest : Nat)
  /-- WAY_PAIR_GATING (R220) -/
  | wayPairGating (slice : Nat)
  /-- WAY_PAIR_ENABLE (R220) -/
  | wayPairEnable (slice : Nat)
  /-- GBAR_CLUSTER_RELEASE (R325) -/
  | gbarClusterRelease (grid cl : Nat)
  /-- REGION_COMMIT (R283) -/
  | regionCommit (die slot : Nat)
  /-- REGION_RESERVATION_LAPSE (R281) -/
  | regionReservationLapse (die slot : Nat)
  /-- RECOVERY_TICK_LIMIT_EXPIRY (R304) -/
  | recoveryTickLimitExpiry (team : Nat)
  /-- ROLLBACK (R302) -/
  | rollback (team : Nat)
  /-- UNDO_AREA_LOST (R303) -/
  | undoAreaLost (team : Nat)
  /-- LQPTR_TAIL_WRITE (R318) -/
  | lqptrTailWrite (q : Nat) (tail : BitVec 32)
  /-- LAUNCH_RECORD_READ (R319) -/
  | launchRecordRead (q : Nat)
  /-- CHILD_RING_TRANSFER (R320) -/
  | childRingTransfer (grid : Nat)
  /-- TEAM_ADMISSION (R322) -/
  | teamAdmission
  /-- SCRATCHPAD_CLEAR_DONE (R210) -/
  | scratchpadClearDone (team : Nat)
  /-- ADMISSION_RESERVATION (R323) -/
  | admissionReservation (grid team : Nat)
  /-- HELD_OUT_PREEMPTION (R326) -/
  | heldOutPreemption (grid : Nat)
  /-- GROUP_RETIREMENT (R98) -/
  | groupRetirement (g : Nat)
  /-- PRCTL_GO (R328) -/
  | prctlGo (part : Nat) (value : BitVec 64)
  /-- PRCTL_RESUME (R327) -/
  | prctlResume (part : Nat) (value : BitVec 64)
  /-- DRAIN_ALLOWANCE_EXPIRY (R329) -/
  | drainAllowanceExpiry (team : Nat)
  /-- TEAM_SAVE (R329) -/
  | teamSave (team : Nat)
  /-- FLUSH_TO_ENSURE (R304) -/
  | flushToEnsure (team : Nat)
  /-- FLUSH_AND_RESTART (R329) -/
  | flushAndRestart (team : Nat)
  /-- TEAM_RESTORE (R355) -/
  | teamRestore (team : Nat)
  /-- EXIT_STATUS_WRITE (R316) -/
  | exitStatusWrite (g : Nat)
  /-- HANG_WATCHDOG_EXPIRY (R350) -/
  | hangWatchdogExpiry (team : Nat)
  /-- REGISTER_FILE_ERROR (R387) -/
  | registerFileError (g : Nat) (lane : Nat) (reg : Nat)
  /-- MODULE_SHUTDOWN (R336) -/
  | moduleShutdown
  /-- DBG_HALT (R359) -/
  | dbgHalt (part : Nat) (value : BitVec 64)
  /-- DBG_RESUME (R360) -/
  | dbgResume (part : Nat) (value : BitVec 64)
  /-- DBG_STEP (R358) -/
  | dbgStep (part : Nat) (value : BitVec 64)
  /-- HALT_LIMIT_EXPIRY (R359) -/
  | haltLimitExpiry (g : Nat)
  /-- DUMP_ATTACH (R361) -/
  | dumpAttach (part : Nat)
  /-- DUMP_RELEASE (R363) -/
  | dumpRelease (part : Nat)
  /-- DUMP_HOLD_EXPIRY (R363) -/
  | dumpHoldExpiry (cl : Nat)
  /-- GINGHAM_SAMPLE (R364) -/
  | ginghamSample
  /-- CONTROL_INTERVAL (R375) -/
  | controlInterval
  /-- DROOP_ALARM (R370) -/
  | droopAlarm (cl : Nat) (sl : AlarmAt)
  /-- DROOP_STRETCH_END (R370) -/
  | droopStretchEnd (cl sl : Nat)
  /-- HALVED_WINDOW_END (R370) -/
  | halvedWindowEnd (cl sl : Nat)
  /-- TIMING_REPLAY (R377) -/
  | timingReplay (cl sl : Nat) (again : Bool)
  /-- SIGN_PARTITION_COUNTERS (R384) -/
  | signPartitionCounters (value : BitVec 64)
  /-- SIGN_JOB_RECORD (R384) -/
  | signJobRecord (value : BitVec 64)
  /-- SIGNED_READING_WRITTEN (R384) -/
  | signedReadingWritten
  /-- SCRUB_LINE (R386) -/
  | scrubLine (line half errors : Nat) (bank part : Nat)
  /-- SCRUB_WINDOW_EXPIRY (R386) -/
  | scrubWindowExpiry (bank : Nat)
  /-- BANK_REENCODE (R386) -/
  | bankReencode (bank : Nat)
  /-- ERRCTL_CLR (R388) -/
  | errctlClr (part : Nat)
  /-- CLASSIGN_WRITE (R389) -/
  | classignWrite (cl : Nat) (value : BitVec 64)
  /-- HOST_WINDOW_READ (R227) -/
  | hostWindowRead (part win off : Nat) (len : Nat)
  /-- HOST_WINDOW_WRITE (R227) -/
  | hostWindowWrite (part win off : Nat) (bytes : List (BitVec 8))
  /-- FABRIC_ACCESS (R396) -/
  | fabricAccess (port : Nat) (flit : List (BitVec 8))
  /-- KEY_REVOCATION (R397) -/
  | keyRevocation (part : Nat)
  /-- COLD_RESET (R398) -/
  | coldReset
  /-- WARM_RESET (R398) -/
  | warmReset
  /-- REGISTER_WRITE (R391) -/
  | registerWrite (off : RegAt) (value : BitVec 64)
  /-- RING_HEAD_WRITE (R369) -/
  | ringHeadWrite (off : Nat) (value : BitVec 32)
  /-- FABRIC_LINK_FAILURE (R260) -/
  | fabricLinkFailure (member : Nat)
  /-- FLIT_LINK_CHECK_FAILURE (R395) -/
  | flitLinkCheckFailure (port : Nat)
  /-- KILL_REQUEST (R336) -/
  | killRequest (target : BitVec 64)
  /-- PARTITION_TEARDOWN (R336) -/
  | partitionTeardown (part : Nat)
  deriving DecidableEq, Repr

end Sys2Proof
end

