-- ==== Sys2Proof/Decode.lean ====
section
/-! DEFINITION. Decoding (01, R24 to R43, R399; 03, R66 to R74): a header and the words of its clause are read into
instructions or refused with the cause code and DETAIL the spec names; after the decoder, the encoder, written from the
same encoding tables. -/
namespace Sys2Proof

/-- Bits [lo + n - 1 : lo] of a word. -/
def fld (n : Nat) (w : Word) (lo : Nat) : BitVec n := BitVec.ofNat n (w.toNat / 2 ^ lo)

/-- Bit lo of a word. -/
def bit (w : Word) (lo : Nat) : Bool := w.toNat / 2 ^ lo % 2 == 1

/-- A fault found at decode: the cause code of R43 and what TRAPCAUSE.DETAIL holds for it. -/
structure Cause where
  code   : Nat
  detail : Nat
  deriving DecidableEq, Repr

/-- The class of a word, bits [31:29] (R66). -/
def wordClass (w : Word) : Nat := (fld 3 w 29).toNat

/-- The opcode of a word: bits [28:23], in class VI bits [28:24] (R66). -/
def wordOp (w : Word) : Nat := if wordClass w = 1 then (fld 5 w 24).toNat else (fld 6 w 23).toNat

/-- Class in [8:6] and opcode in [5:0] (R67, R163). -/
def classOp (w : Word) : Nat := wordClass w * 64 + wordOp w

/-- The instruction of class VR that opcode `op` names (03, R68); none for a reserved opcode. -/
def parseVR (op : Nat) (w : Word) : Option Instr :=
  match op with
  | 0 => some (.viadd (fld 7 w 16) (fld 7 w 9) (fld 7 w 2) (bit w 1) (bit w 0))
  | 1 => some (.visub (fld 7 w 16) (fld 7 w 9) (fld 7 w 2) (bit w 1) (bit w 0))
  | 2 => some (.viadds (fld 7 w 16) (fld 7 w 9) (fld 7 w 2) (bit w 1) (bit w 0))
  | 3 => some (.visubs (fld 7 w 16) (fld 7 w 9) (fld 7 w 2) (bit w 1) (bit w 0))
  | 4 => some (.vimul (fld 7 w 16) (fld 7 w 9) (fld 7 w 2) (bit w 1) (bit w 0))
  | 5 => some (.vimulh (fld 7 w 16) (fld 7 w 9) (fld 7 w 2) (bit w 1) (bit w 0))
  | 6 => some (.vumulh (fld 7 w 16) (fld 7 w 9) (fld 7 w 2) (bit w 1) (bit w 0))
  | 7 => some (.vimac (fld 7 w 16) (fld 7 w 9) (fld 7 w 2) (bit w 1) (bit w 0))
  | 8 => some (.vimin (fld 7 w 16) (fld 7 w 9) (fld 7 w 2) (bit w 1) (bit w 0))
  | 9 => some (.vimax (fld 7 w 16) (fld 7 w 9) (fld 7 w 2) (bit w 1) (bit w 0))
  | 10 => some (.vumin (fld 7 w 16) (fld 7 w 9) (fld 7 w 2) (bit w 1) (bit w 0))
  | 11 => some (.vumax (fld 7 w 16) (fld 7 w 9) (fld 7 w 2) (bit w 1) (bit w 0))
  | 12 => some (.vand (fld 7 w 16) (fld 7 w 9) (fld 7 w 2) (bit w 1) (bit w 0))
  | 13 => some (.vor (fld 7 w 16) (fld 7 w 9) (fld 7 w 2) (bit w 1) (bit w 0))
  | 14 => some (.vxor (fld 7 w 16) (fld 7 w 9) (fld 7 w 2) (bit w 1) (bit w 0))
  | 15 => some (.vandn (fld 7 w 16) (fld 7 w 9) (fld 7 w 2) (bit w 1) (bit w 0))
  | 16 => some (.vshl (fld 7 w 16) (fld 7 w 9) (fld 7 w 2) (bit w 1) (bit w 0))
  | 17 => some (.vshr (fld 7 w 16) (fld 7 w 9) (fld 7 w 2) (bit w 1) (bit w 0))
  | 18 => some (.vsar (fld 7 w 16) (fld 7 w 9) (fld 7 w 2) (bit w 1) (bit w 0))
  | 19 => some (.vrol (fld 7 w 16) (fld 7 w 9) (fld 7 w 2) (bit w 1) (bit w 0))
  | 20 => some (.vclz (fld 7 w 16) (fld 7 w 9) (bit w 1) (bit w 0))
  | 21 => some (.vpopc (fld 7 w 16) (fld 7 w 9) (bit w 1) (bit w 0))
  | 22 => some (.vbrev (fld 7 w 16) (fld 7 w 9) (bit w 1) (bit w 0))
  | 23 => some (.viabs (fld 7 w 16) (fld 7 w 9) (bit w 1) (bit w 0))
  | 24 => some (.vfadd (fld 7 w 16) (fld 7 w 9) (fld 7 w 2) (bit w 1) (bit w 0))
  | 25 => some (.vfsub (fld 7 w 16) (fld 7 w 9) (fld 7 w 2) (bit w 1) (bit w 0))
  | 26 => some (.vfmul (fld 7 w 16) (fld 7 w 9) (fld 7 w 2) (bit w 1) (bit w 0))
  | 27 => some (.vfma (fld 7 w 16) (fld 7 w 9) (fld 7 w 2) (bit w 1) (bit w 0))
  | 28 => some (.vfnma (fld 7 w 16) (fld 7 w 9) (fld 7 w 2) (bit w 1) (bit w 0))
  | 29 => some (.vfmin (fld 7 w 16) (fld 7 w 9) (fld 7 w 2) (bit w 1) (bit w 0))
  | 30 => some (.vfmax (fld 7 w 16) (fld 7 w 9) (fld 7 w 2) (bit w 1) (bit w 0))
  | 31 => some (.vfcopysign (fld 7 w 16) (fld 7 w 9) (fld 7 w 2) (bit w 1) (bit w 0))
  | 32 => some (.vhaddBf (fld 7 w 16) (fld 7 w 9) (fld 7 w 2) (bit w 1) (bit w 0))
  | 33 => some (.vhmulBf (fld 7 w 16) (fld 7 w 9) (fld 7 w 2) (bit w 1) (bit w 0))
  | 34 => some (.vhfmaBf (fld 7 w 16) (fld 7 w 9) (fld 7 w 2) (bit w 1) (bit w 0))
  | 35 => some (.vhaddH (fld 7 w 16) (fld 7 w 9) (fld 7 w 2) (bit w 1) (bit w 0))
  | 36 => some (.vhmulH (fld 7 w 16) (fld 7 w 9) (fld 7 w 2) (bit w 1) (bit w 0))
  | 37 => some (.vhfmaH (fld 7 w 16) (fld 7 w 9) (fld 7 w 2) (bit w 1) (bit w 0))
  | 38 => some (.vdot2Bf (fld 7 w 16) (fld 7 w 9) (fld 7 w 2) (bit w 1) (bit w 0))
  | 39 => some (.vdot4I8 (fld 7 w 16) (fld 7 w 9) (fld 7 w 2) (bit w 1) (bit w 0))
  | 40 => some (.vmov (fld 7 w 16) (fld 7 w 9) (bit w 1) (bit w 0))
  | 41 => some (.vfabs (fld 7 w 16) (fld 7 w 9) (bit w 1) (bit w 0))
  | 42 => some (.vfneg (fld 7 w 16) (fld 7 w 9) (bit w 1) (bit w 0))
  | _ => none

/-- The instruction of class VI that opcode `op` names (03, R69); none for a reserved opcode. -/
def parseVI (op : Nat) (w : Word) : Option Instr :=
  match op with
  | 0 => some (.viaddi (fld 7 w 17) (bit w 16) (fld 16 w 0))
  | 1 => some (.vandi (fld 7 w 17) (bit w 16) (fld 16 w 0))
  | 2 => some (.vori (fld 7 w 17) (bit w 16) (fld 16 w 0))
  | 3 => some (.vxori (fld 7 w 17) (bit w 16) (fld 16 w 0))
  | 4 => some (.vmovi (fld 7 w 17) (fld 16 w 0))
  | 5 => some (.vmovhi (fld 7 w 17) (bit w 16) (fld 16 w 0))
  | 6 => some (.vshli (fld 7 w 17) (bit w 16) (fld 5 w 0))
  | 7 => some (.vshri (fld 7 w 17) (bit w 16) (fld 5 w 0))
  | 8 => some (.vsari (fld 7 w 17) (bit w 16) (fld 5 w 0))
  | 9 => some (.vimuli (fld 7 w 17) (bit w 16) (fld 16 w 0))
  | 10 => some (.vfaddi (fld 7 w 17) (bit w 16) (fld 16 w 0))
  | 11 => some (.vfmuli (fld 7 w 17) (bit w 16) (fld 16 w 0))
  | 12 => some (.vmovfi (fld 7 w 17) (fld 16 w 0))
  | 13 => some (.vlanei (fld 7 w 17) (fld 16 w 0))
  | _ => none

/-- The instruction of class VP that opcode `op` names (03, R70); none for a reserved opcode. -/
def parseVP (op : Nat) (w : Word) : Option Instr :=
  match op with
  | 0 => some (.vcmpEq (fld 5 w 18) (fld 7 w 11) (fld 7 w 4) (fld 2 w 2) (bit w 1) (bit w 0))
  | 1 => some (.vcmpNe (fld 5 w 18) (fld 7 w 11) (fld 7 w 4) (fld 2 w 2) (bit w 1) (bit w 0))
  | 2 => some (.vcmpLt (fld 5 w 18) (fld 7 w 11) (fld 7 w 4) (fld 2 w 2) (bit w 1) (bit w 0))
  | 3 => some (.vcmpLe (fld 5 w 18) (fld 7 w 11) (fld 7 w 4) (fld 2 w 2) (bit w 1) (bit w 0))
  | 4 => some (.vcmpGt (fld 5 w 18) (fld 7 w 11) (fld 7 w 4) (fld 2 w 2) (bit w 1) (bit w 0))
  | 5 => some (.vcmpGe (fld 5 w 18) (fld 7 w 11) (fld 7 w 4) (fld 2 w 2) (bit w 1) (bit w 0))
  | 6 => some (.vcmpLtu (fld 5 w 18) (fld 7 w 11) (fld 7 w 4) (fld 2 w 2) (bit w 1) (bit w 0))
  | 7 => some (.vcmpLeu (fld 5 w 18) (fld 7 w 11) (fld 7 w 4) (fld 2 w 2) (bit w 1) (bit w 0))
  | 8 => some (.vcmpGtu (fld 5 w 18) (fld 7 w 11) (fld 7 w 4) (fld 2 w 2) (bit w 1) (bit w 0))
  | 9 => some (.vcmpGeu (fld 5 w 18) (fld 7 w 11) (fld 7 w 4) (fld 2 w 2) (bit w 1) (bit w 0))
  | 10 => some (.vfcmpEq (fld 5 w 18) (fld 7 w 11) (fld 7 w 4) (fld 2 w 2) (bit w 1) (bit w 0))
  | 11 => some (.vfcmpNe (fld 5 w 18) (fld 7 w 11) (fld 7 w 4) (fld 2 w 2) (bit w 1) (bit w 0))
  | 12 => some (.vfcmpLt (fld 5 w 18) (fld 7 w 11) (fld 7 w 4) (fld 2 w 2) (bit w 1) (bit w 0))
  | 13 => some (.vfcmpLe (fld 5 w 18) (fld 7 w 11) (fld 7 w 4) (fld 2 w 2) (bit w 1) (bit w 0))
  | 14 => some (.vfcmpUn (fld 5 w 18) (fld 7 w 11) (fld 7 w 4) (fld 2 w 2) (bit w 1) (bit w 0))
  | 15 => some (.vfclass (fld 5 w 18) (fld 7 w 11) (fld 7 w 4) (fld 2 w 2) (bit w 1) (bit w 0))
  | 16 => some (.vtest (fld 5 w 18) (fld 7 w 11) (fld 7 w 4) (fld 2 w 2) (bit w 1) (bit w 0))
  | 17 => some (.pand (fld 5 w 18) (fld 5 w 11) (fld 5 w 4) (fld 2 w 2))
  | 18 => some (.por (fld 5 w 18) (fld 5 w 11) (fld 5 w 4) (fld 2 w 2))
  | 19 => some (.pxor (fld 5 w 18) (fld 5 w 11) (fld 5 w 4) (fld 2 w 2))
  | 20 => some (.pandn (fld 5 w 18) (fld 5 w 11) (fld 5 w 4) (fld 2 w 2))
  | 21 => some (.pnot (fld 5 w 18) (fld 5 w 11) (fld 2 w 2))
  | 22 => some (.pmov (fld 5 w 18) (fld 5 w 11) (fld 2 w 2))
  | 23 => some (.pset (fld 5 w 18) (fld 2 w 2))
  | 24 => some (.pclr (fld 5 w 18) (fld 2 w 2))
  | _ => none

/-- The instruction of class M that opcode `op` names (03, R71); none for a reserved opcode. -/
def parseM (op : Nat) (w : Word) (x : Word) : Option Instr :=
  match op with
  | 0 => some (if bit w 0 then .ldBExt (fld 7 w 16) (fld 7 w 9) (fld 3 w 6) (fld 2 w 4) (fld 3 w 1) (fld 32 x 0) else .ldB (fld 7 w 16) (fld 7 w 9) (fld 3 w 6) (fld 2 w 4) (fld 3 w 1))
  | 1 => some (if bit w 0 then .ldSbExt (fld 7 w 16) (fld 7 w 9) (fld 3 w 6) (fld 2 w 4) (fld 3 w 1) (fld 32 x 0) else .ldSb (fld 7 w 16) (fld 7 w 9) (fld 3 w 6) (fld 2 w 4) (fld 3 w 1))
  | 2 => some (if bit w 0 then .ldHExt (fld 7 w 16) (fld 7 w 9) (fld 3 w 6) (fld 2 w 4) (fld 3 w 1) (fld 32 x 0) else .ldH (fld 7 w 16) (fld 7 w 9) (fld 3 w 6) (fld 2 w 4) (fld 3 w 1))
  | 3 => some (if bit w 0 then .ldShExt (fld 7 w 16) (fld 7 w 9) (fld 3 w 6) (fld 2 w 4) (fld 3 w 1) (fld 32 x 0) else .ldSh (fld 7 w 16) (fld 7 w 9) (fld 3 w 6) (fld 2 w 4) (fld 3 w 1))
  | 4 => some (if bit w 0 then .ldWExt (fld 7 w 16) (fld 7 w 9) (fld 3 w 6) (fld 2 w 4) (fld 3 w 1) (fld 32 x 0) else .ldW (fld 7 w 16) (fld 7 w 9) (fld 3 w 6) (fld 2 w 4) (fld 3 w 1))
  | 5 => some (if bit w 0 then .ldDExt (fld 7 w 16) (fld 7 w 9) (fld 3 w 6) (fld 2 w 4) (fld 3 w 1) (fld 32 x 0) else .ldD (fld 7 w 16) (fld 7 w 9) (fld 3 w 6) (fld 2 w 4) (fld 3 w 1))
  | 6 => some (if bit w 0 then .ldQExt (fld 7 w 16) (fld 7 w 9) (fld 3 w 6) (fld 2 w 4) (fld 3 w 1) (fld 32 x 0) else .ldQ (fld 7 w 16) (fld 7 w 9) (fld 3 w 6) (fld 2 w 4) (fld 3 w 1))
  | 7 => some (if bit w 0 then .ldpk6Ext (fld 7 w 16) (fld 7 w 9) (fld 3 w 6) (fld 2 w 4) (fld 3 w 1) (fld 32 x 0) else .ldpk6 (fld 7 w 16) (fld 7 w 9) (fld 3 w 6) (fld 2 w 4) (fld 3 w 1))
  | 8 => some (if bit w 0 then .ldpk4Ext (fld 7 w 16) (fld 7 w 9) (fld 3 w 6) (fld 2 w 4) (fld 3 w 1) (fld 32 x 0) else .ldpk4 (fld 7 w 16) (fld 7 w 9) (fld 3 w 6) (fld 2 w 4) (fld 3 w 1))
  | 9 => some (if bit w 0 then .stBExt (fld 7 w 16) (fld 7 w 9) (fld 3 w 6) (fld 2 w 4) (fld 3 w 1) (fld 32 x 0) else .stB (fld 7 w 16) (fld 7 w 9) (fld 3 w 6) (fld 2 w 4) (fld 3 w 1))
  | 10 => some (if bit w 0 then .stHExt (fld 7 w 16) (fld 7 w 9) (fld 3 w 6) (fld 2 w 4) (fld 3 w 1) (fld 32 x 0) else .stH (fld 7 w 16) (fld 7 w 9) (fld 3 w 6) (fld 2 w 4) (fld 3 w 1))
  | 11 => some (if bit w 0 then .stWExt (fld 7 w 16) (fld 7 w 9) (fld 3 w 6) (fld 2 w 4) (fld 3 w 1) (fld 32 x 0) else .stW (fld 7 w 16) (fld 7 w 9) (fld 3 w 6) (fld 2 w 4) (fld 3 w 1))
  | 12 => some (if bit w 0 then .stDExt (fld 7 w 16) (fld 7 w 9) (fld 3 w 6) (fld 2 w 4) (fld 3 w 1) (fld 32 x 0) else .stD (fld 7 w 16) (fld 7 w 9) (fld 3 w 6) (fld 2 w 4) (fld 3 w 1))
  | 13 => some (if bit w 0 then .stQExt (fld 7 w 16) (fld 7 w 9) (fld 3 w 6) (fld 2 w 4) (fld 3 w 1) (fld 32 x 0) else .stQ (fld 7 w 16) (fld 7 w 9) (fld 3 w 6) (fld 2 w 4) (fld 3 w 1))
  | 14 => some (if bit w 0 then .ldsWExt (fld 7 w 16) (fld 7 w 9) (fld 2 w 4) (fld 3 w 1) (fld 32 x 0) else .ldsW (fld 7 w 16) (fld 7 w 9) (fld 2 w 4) (fld 3 w 1))
  | 15 => some (if bit w 0 then .ldsDExt (fld 7 w 16) (fld 7 w 9) (fld 2 w 4) (fld 3 w 1) (fld 32 x 0) else .ldsD (fld 7 w 16) (fld 7 w 9) (fld 2 w 4) (fld 3 w 1))
  | 16 => some (if bit w 0 then .ldsQExt (fld 7 w 16) (fld 7 w 9) (fld 2 w 4) (fld 3 w 1) (fld 32 x 0) else .ldsQ (fld 7 w 16) (fld 7 w 9) (fld 2 w 4) (fld 3 w 1))
  | 17 => some (if bit w 0 then .stsBExt (fld 7 w 16) (fld 7 w 9) (fld 2 w 4) (fld 3 w 1) (fld 32 x 0) else .stsB (fld 7 w 16) (fld 7 w 9) (fld 2 w 4) (fld 3 w 1))
  | 18 => some (if bit w 0 then .stsHExt (fld 7 w 16) (fld 7 w 9) (fld 2 w 4) (fld 3 w 1) (fld 32 x 0) else .stsH (fld 7 w 16) (fld 7 w 9) (fld 2 w 4) (fld 3 w 1))
  | 19 => some (if bit w 0 then .stsWExt (fld 7 w 16) (fld 7 w 9) (fld 2 w 4) (fld 3 w 1) (fld 32 x 0) else .stsW (fld 7 w 16) (fld 7 w 9) (fld 2 w 4) (fld 3 w 1))
  | 20 => some (if bit w 0 then .stsDExt (fld 7 w 16) (fld 7 w 9) (fld 2 w 4) (fld 3 w 1) (fld 32 x 0) else .stsD (fld 7 w 16) (fld 7 w 9) (fld 2 w 4) (fld 3 w 1))
  | 21 => some (if bit w 0 then .stsQExt (fld 7 w 16) (fld 7 w 9) (fld 2 w 4) (fld 3 w 1) (fld 32 x 0) else .stsQ (fld 7 w 16) (fld 7 w 9) (fld 2 w 4) (fld 3 w 1))
  | 22 => some (if bit w 0 then .atomAddExt (fld 7 w 16) (fld 7 w 9) (fld 3 w 6) (fld 2 w 4) (fld 3 w 1) (fld 32 x 0) else .atomAdd (fld 7 w 16) (fld 7 w 9) (fld 3 w 6) (fld 2 w 4) (fld 3 w 1))
  | 23 => some (if bit w 0 then .atomFaddExt (fld 7 w 16) (fld 7 w 9) (fld 3 w 6) (fld 2 w 4) (fld 3 w 1) (fld 32 x 0) else .atomFadd (fld 7 w 16) (fld 7 w 9) (fld 3 w 6) (fld 2 w 4) (fld 3 w 1))
  | 24 => some (if bit w 0 then .atomHfaddBfExt (fld 7 w 16) (fld 7 w 9) (fld 3 w 6) (fld 2 w 4) (fld 3 w 1) (fld 32 x 0) else .atomHfaddBf (fld 7 w 16) (fld 7 w 9) (fld 3 w 6) (fld 2 w 4) (fld 3 w 1))
  | 25 => some (if bit w 0 then .atomMinExt (fld 7 w 16) (fld 7 w 9) (fld 3 w 6) (fld 2 w 4) (fld 3 w 1) (fld 32 x 0) else .atomMin (fld 7 w 16) (fld 7 w 9) (fld 3 w 6) (fld 2 w 4) (fld 3 w 1))
  | 26 => some (if bit w 0 then .atomMaxExt (fld 7 w 16) (fld 7 w 9) (fld 3 w 6) (fld 2 w 4) (fld 3 w 1) (fld 32 x 0) else .atomMax (fld 7 w 16) (fld 7 w 9) (fld 3 w 6) (fld 2 w 4) (fld 3 w 1))
  | 27 => some (if bit w 0 then .atomMinuExt (fld 7 w 16) (fld 7 w 9) (fld 3 w 6) (fld 2 w 4) (fld 3 w 1) (fld 32 x 0) else .atomMinu (fld 7 w 16) (fld 7 w 9) (fld 3 w 6) (fld 2 w 4) (fld 3 w 1))
  | 28 => some (if bit w 0 then .atomMaxuExt (fld 7 w 16) (fld 7 w 9) (fld 3 w 6) (fld 2 w 4) (fld 3 w 1) (fld 32 x 0) else .atomMaxu (fld 7 w 16) (fld 7 w 9) (fld 3 w 6) (fld 2 w 4) (fld 3 w 1))
  | 29 => some (if bit w 0 then .atomAndExt (fld 7 w 16) (fld 7 w 9) (fld 3 w 6) (fld 2 w 4) (fld 3 w 1) (fld 32 x 0) else .atomAnd (fld 7 w 16) (fld 7 w 9) (fld 3 w 6) (fld 2 w 4) (fld 3 w 1))
  | 30 => some (if bit w 0 then .atomOrExt (fld 7 w 16) (fld 7 w 9) (fld 3 w 6) (fld 2 w 4) (fld 3 w 1) (fld 32 x 0) else .atomOr (fld 7 w 16) (fld 7 w 9) (fld 3 w 6) (fld 2 w 4) (fld 3 w 1))
  | 31 => some (if bit w 0 then .atomXorExt (fld 7 w 16) (fld 7 w 9) (fld 3 w 6) (fld 2 w 4) (fld 3 w 1) (fld 32 x 0) else .atomXor (fld 7 w 16) (fld 7 w 9) (fld 3 w 6) (fld 2 w 4) (fld 3 w 1))
  | 32 => some (if bit w 0 then .atomXchgExt (fld 7 w 16) (fld 7 w 9) (fld 3 w 6) (fld 2 w 4) (fld 3 w 1) (fld 32 x 0) else .atomXchg (fld 7 w 16) (fld 7 w 9) (fld 3 w 6) (fld 2 w 4) (fld 3 w 1))
  | 33 => some (if bit w 0 then .atomCasExt (fld 7 w 16) (fld 7 w 9) (fld 3 w 6) (fld 2 w 4) (fld 3 w 1) (fld 32 x 0) else .atomCas (fld 7 w 16) (fld 7 w 9) (fld 3 w 6) (fld 2 w 4) (fld 3 w 1))
  | 34 => some (if bit w 0 then .atomCasDExt (fld 7 w 16) (fld 7 w 9) (fld 3 w 6) (fld 2 w 4) (fld 3 w 1) (fld 32 x 0) else .atomCasD (fld 7 w 16) (fld 7 w 9) (fld 3 w 6) (fld 2 w 4) (fld 3 w 1))
  | 35 => some (if bit w 0 then .atomsAddExt (fld 7 w 16) (fld 7 w 9) (fld 2 w 4) (fld 3 w 1) (fld 32 x 0) else .atomsAdd (fld 7 w 16) (fld 7 w 9) (fld 2 w 4) (fld 3 w 1))
  | 36 => some (if bit w 0 then .atomsFaddExt (fld 7 w 16) (fld 7 w 9) (fld 2 w 4) (fld 3 w 1) (fld 32 x 0) else .atomsFadd (fld 7 w 16) (fld 7 w 9) (fld 2 w 4) (fld 3 w 1))
  | 37 => some (if bit w 0 then .atomsMinExt (fld 7 w 16) (fld 7 w 9) (fld 2 w 4) (fld 3 w 1) (fld 32 x 0) else .atomsMin (fld 7 w 16) (fld 7 w 9) (fld 2 w 4) (fld 3 w 1))
  | 38 => some (if bit w 0 then .atomsMaxExt (fld 7 w 16) (fld 7 w 9) (fld 2 w 4) (fld 3 w 1) (fld 32 x 0) else .atomsMax (fld 7 w 16) (fld 7 w 9) (fld 2 w 4) (fld 3 w 1))
  | 39 => some (if bit w 0 then .atomsXchgExt (fld 7 w 16) (fld 7 w 9) (fld 2 w 4) (fld 3 w 1) (fld 32 x 0) else .atomsXchg (fld 7 w 16) (fld 7 w 9) (fld 2 w 4) (fld 3 w 1))
  | 40 => some (if bit w 0 then .atomsCasExt (fld 7 w 16) (fld 7 w 9) (fld 2 w 4) (fld 3 w 1) (fld 32 x 0) else .atomsCas (fld 7 w 16) (fld 7 w 9) (fld 2 w 4) (fld 3 w 1))
  | 41 => some (.fence (fld 2 w 4) (fld 3 w 1))
  | 42 => some (if bit w 0 then .prefExt (fld 7 w 9) (fld 3 w 6) (fld 32 x 0) else .pref (fld 7 w 9) (fld 3 w 6))
  | _ => none

/-- The instruction of class S that opcode `op` names (03, R72); none for a reserved opcode. -/
def parseS (op : Nat) (w : Word) : Option Instr :=
  match op with
  | 0 => some (.sadd (fld 5 w 18) (fld 5 w 13) (fld 5 w 8))
  | 1 => some (.ssub (fld 5 w 18) (fld 5 w 13) (fld 5 w 8))
  | 2 => some (.smul (fld 5 w 18) (fld 5 w 13) (fld 5 w 8))
  | 3 => some (.smulhu (fld 5 w 18) (fld 5 w 13) (fld 5 w 8))
  | 4 => some (.sand (fld 5 w 18) (fld 5 w 13) (fld 5 w 8))
  | 5 => some (.sor (fld 5 w 18) (fld 5 w 13) (fld 5 w 8))
  | 6 => some (.sxor (fld 5 w 18) (fld 5 w 13) (fld 5 w 8))
  | 7 => some (.sshl (fld 5 w 18) (fld 5 w 13) (fld 5 w 8))
  | 8 => some (.sshr (fld 5 w 18) (fld 5 w 13) (fld 5 w 8))
  | 9 => some (.ssar (fld 5 w 18) (fld 5 w 13) (fld 5 w 8))
  | 10 => some (.smin (fld 5 w 18) (fld 5 w 13) (fld 5 w 8))
  | 11 => some (.smax (fld 5 w 18) (fld 5 w 13) (fld 5 w 8))
  | 12 => some (.sminu (fld 5 w 18) (fld 5 w 13) (fld 5 w 8))
  | 13 => some (.smaxu (fld 5 w 18) (fld 5 w 13) (fld 5 w 8))
  | 14 => some (.sseq (fld 5 w 18) (fld 5 w 13) (fld 5 w 8))
  | 15 => some (.sslt (fld 5 w 18) (fld 5 w 13) (fld 5 w 8))
  | 16 => some (.ssltu (fld 5 w 18) (fld 5 w 13) (fld 5 w 8))
  | 17 => some (.saddi (fld 5 w 18) (fld 5 w 13) (fld 13 w 0))
  | 18 => some (.sandi (fld 5 w 18) (fld 5 w 13) (fld 13 w 0))
  | 19 => some (.sori (fld 5 w 18) (fld 5 w 13) (fld 13 w 0))
  | 20 => some (.sxori (fld 5 w 18) (fld 5 w 13) (fld 13 w 0))
  | 21 => some (.smovi (fld 5 w 18) (fld 13 w 0))
  | 22 => some (.smovhi (fld 5 w 18) (fld 13 w 0))
  | 23 => some (.sshli (fld 5 w 18) (fld 5 w 13) (fld 5 w 0))
  | 24 => some (.sshri (fld 5 w 18) (fld 5 w 13) (fld 5 w 0))
  | 25 => some (.sldW (fld 5 w 18) (fld 5 w 13) (fld 13 w 0))
  | 26 => some (.sldD (fld 5 w 18) (fld 5 w 13) (fld 13 w 0))
  | 27 => some (.sstW (fld 5 w 18) (fld 5 w 13) (fld 13 w 0))
  | 28 => some (.movsr (fld 5 w 18) (fld 6 w 12))
  | 29 => some (.movsw (fld 5 w 18) (fld 6 w 12))
  | 32 => some (.bra (fld 5 w 18) (bit w 17) (fld 17 w 0))
  | 33 => some (.brau (fld 5 w 18) (bit w 17) (fld 17 w 0))
  | 34 => some (.braany (fld 5 w 18) (bit w 17) (fld 17 w 0))
  | 35 => some (.braall (fld 5 w 18) (bit w 17) (fld 17 w 0))
  | 36 => some (.call (fld 5 w 18) (bit w 17) (fld 17 w 0))
  | 37 => some (.ret (fld 7 w 16) (bit w 15))
  | 38 => some (.jmpv (fld 7 w 16) (bit w 15))
  | 39 => some (.loop (fld 2 w 21) (fld 5 w 16) (fld 11 w 0))
  | 40 => some (.loopi (fld 2 w 21) (fld 10 w 11) (fld 11 w 0))
  | 41 => some (.exit)
  | 42 => some (.nop)
  | 43 => some (.yield)
  | 44 => some (.suspend (fld 3 w 20) (fld 4 w 16) (fld 16 w 0))
  | 45 => some (.elect (fld 5 w 18))
  | 46 => some (.trap (fld 16 w 0))
  | 47 => some (.tret)
  | 48 => some (.tstamp (fld 5 w 18))
  | 49 => some (.cycle (fld 5 w 18))
  | _ => none

/-- The instruction of class E that opcode `op` names (03, R73); none for a reserved opcode. -/
noncomputable def parseE (op : Nat) (w : Word) : Option Instr :=
  match op with
  | 0 => some (.mma (fld 5 w 18) (fld 3 w 15))
  | 1 => some (.acczero (fld 5 w 18) (fld 3 w 15) (bit w 0))
  | 2 => some (.accrd (fld 5 w 18) (fld 3 w 15) (bit w 7) (fld 7 w 0))
  | 3 => some (.accwr (fld 5 w 18) (fld 3 w 15) (bit w 7) (fld 7 w 0))
  | 4 => some (.accdrain (fld 5 w 18) (fld 3 w 15))
  | 5 => some (.copy (fld 5 w 18) (fld 3 w 15))
  | 6 => some (.gather (fld 5 w 18) (fld 3 w 15))
  | 7 => some (.scatter (fld 5 w 18) (fld 3 w 15))
  | 8 => some (.coll (fld 5 w 18) (fld 3 w 15))
  | 9 => some (.cbload (fld 5 w 18) (fld 3 w 15) (bit w 0))
  | 10 => some (.actload (fld 5 w 18) (fld 3 w 15))
  | 11 => some (.objdecl (fld 5 w 18) (fld 5 w 0))
  | 12 => some (.objfree (fld 5 w 18) (fld 3 w 15))
  | 13 => some (.tokreq (fld 5 w 18) (fld 3 w 15))
  | 14 => some (.tokrel (fld 5 w 18) (fld 3 w 15))
  | 15 => some (.launch (fld 5 w 18) (fld 5 w 0))
  | 16 => some (.waitchild)
  | 17 => some (.succok)
  | 18 => some (.waitpred)
  | 19 => some (.tbar (fld 2 w 0))
  | 20 => some (.tarrive (fld 2 w 0))
  | 21 => some (.gbar)
  | 22 => some (.evinc (fld 3 w 15) (fld 8 w 0))
  | 23 => some (.evdec (fld 3 w 15) (fld 8 w 0))
  | 25 => some (.phaseend (fld 5 w 18) (fld 3 w 15))
  | 26 => some (.ensure (fld 5 w 18))
  | 27 => some (.elseby)
  | 28 => some (.elseerr (fld 15 w 0))
  | 29 => some (.accept (fld 5 w 18))
  | 30 => some (.reject)
  | 31 => some (.convjoin (fld 5 w 18))
  | 32 => some (.convleave (fld 5 w 18))
  | 33 => some (.rbegin)
  | 34 => some (.rend)
  | 35 => some (.rstat (fld 5 w 18) (fld 3 w 0))
  | 36 => some (.telect (fld 5 w 18))
  | 37 => some (.meter (fld 5 w 18))
  | _ => none

/-- The instruction of class X that opcode `op` names (03, R74); none for a reserved opcode. -/
noncomputable def parseX (op : Nat) (w : Word) (x : Word) : Option Instr :=
  match op with
  | 0 => some (.vfma3 (fld 7 w 16) (fld 7 w 9) (fld 7 w 2) (fld 7 x 25) (bit w 1) (bit w 0) (fld 5 x 20) (bit x 19) (fld 3 x 16) (fld 4 x 12) (fld 4 x 8))
  | 1 => some (.vsel (fld 7 w 16) (fld 7 w 9) (fld 7 w 2) (bit w 1) (bit w 0) (fld 5 x 20) (bit x 19))
  | 2 => some (.vcvt (fld 7 w 16) (fld 7 w 9) (bit w 1) (fld 5 x 20) (bit x 19) (fld 3 x 16) (fld 4 x 12) (fld 4 x 8) (fld 3 x 0) (fld 3 x 4))
  | 3 => some (.vcvti (fld 7 w 16) (fld 7 w 9) (bit w 1) (fld 5 x 20) (bit x 19) (fld 3 x 16) (fld 4 x 12) (fld 4 x 8) (fld 3 x 0) (fld 3 x 4))
  | 4 => some (.vcvtf (fld 7 w 16) (fld 7 w 9) (bit w 1) (fld 5 x 20) (bit x 19) (fld 3 x 16) (fld 4 x 12) (fld 4 x 8) (fld 3 x 0) (fld 3 x 4))
  | 5 => some (.vpack (fld 7 w 16) (fld 7 w 9) (fld 7 w 2) (bit w 1) (bit w 0) (fld 5 x 20) (bit x 19) (fld 3 x 16) (fld 4 x 12) (fld 4 x 8) (bit x 0))
  | 6 => some (.vunpack (fld 7 w 16) (fld 7 w 9) (bit w 1) (fld 5 x 20) (bit x 19) (fld 4 x 12) (fld 4 x 8) (fld 3 x 0))
  | 7 => some (.vdeq (fld 7 w 16) (fld 7 w 9) (fld 7 w 2) (fld 7 x 25) (bit w 1) (bit w 0) (fld 5 x 20) (bit x 19) (fld 3 x 16) (fld 4 x 12) (fld 4 x 8) (fld 5 x 0) (bit x 7))
  | 8 => some (.vperm (fld 7 w 16) (fld 7 w 9) (fld 7 w 2) (fld 7 x 25) (bit w 1) (bit w 0) (fld 5 x 20))
  | 9 => some (.vshuf (fld 7 w 16) (fld 7 w 9) (fld 7 x 25) (bit w 1) (fld 5 x 20) (fld 8 x 0))
  | 10 => some (.vlogred (fld 7 w 16) (fld 7 w 9) (fld 7 x 25) (bit w 1) (fld 5 x 20) (fld 3 x 16) (fld 4 x 0))
  | 11 => some (.vscan (fld 7 w 16) (fld 7 w 9) (fld 7 x 25) (bit w 1) (fld 5 x 20) (fld 3 x 16) (fld 4 x 0) (bit x 4))
  | 12 => some (.vbcast (fld 7 w 16) (fld 7 w 9) (fld 7 x 25) (bit w 1) (fld 5 x 20) (fld 8 x 0))
  | 13 => some (.vvote (fld 7 w 16) (fld 5 w 9) (fld 7 x 25) (fld 5 x 20) (fld 2 x 0))
  | 14 => some (.vbfe (fld 7 w 16) (fld 7 w 9) (fld 7 w 2) (bit w 1) (bit w 0) (fld 5 x 20) (bit x 19) (bit x 0))
  | 15 => some (.vbfi (fld 7 w 16) (fld 7 w 9) (fld 7 w 2) (fld 7 x 25) (bit w 1) (bit w 0) (fld 5 x 20) (bit x 19))
  | 16 => some (.vfrcp (fld 7 w 16) (fld 7 w 9) (bit w 1) (fld 5 x 20) (bit x 19))
  | 17 => some (.vfrsq (fld 7 w 16) (fld 7 w 9) (bit w 1) (fld 5 x 20) (bit x 19))
  | 18 => some (.vfsqrt (fld 7 w 16) (fld 7 w 9) (bit w 1) (fld 5 x 20) (bit x 19) (fld 3 x 16))
  | 19 => some (.vfexp2 (fld 7 w 16) (fld 7 w 9) (bit w 1) (fld 5 x 20) (bit x 19))
  | 20 => some (.vflog2 (fld 7 w 16) (fld 7 w 9) (bit w 1) (fld 5 x 20) (bit x 19))
  | 21 => some (.vfsin (fld 7 w 16) (fld 7 w 9) (bit w 1) (fld 5 x 20) (bit x 19))
  | 22 => some (.vfcos (fld 7 w 16) (fld 7 w 9) (bit w 1) (fld 5 x 20) (bit x 19))
  | 23 => some (.vfdiv (fld 7 w 16) (fld 7 w 9) (fld 7 w 2) (bit w 1) (bit w 0) (fld 5 x 20) (bit x 19) (fld 3 x 16))
  | 24 => some (.vact (fld 7 w 16) (fld 7 w 9) (bit w 1) (fld 5 x 20) (bit x 19))
  | 25 => some (.dropm (fld 7 w 9) (fld 7 w 2) (fld 7 x 25) (bit w 1) (bit w 0) (fld 5 x 20))
  | 26 => some (.vrand (fld 7 w 16) (fld 7 w 9) (fld 7 w 2) (bit w 1) (bit w 0) (fld 5 x 20) (bit x 19))
  | 27 => some (.ldIdx (fld 7 w 16) (fld 7 w 9) (fld 7 w 2) (bit w 1) (bit w 0) (fld 5 x 20) (bit x 19) (fld 4 x 12) (fld 2 x 0) (fld 3 x 2) (fld 3 x 5))
  | 28 => some (.stIdx (fld 7 w 16) (fld 7 w 9) (fld 7 w 2) (bit w 1) (bit w 0) (fld 5 x 20) (bit x 19) (fld 4 x 12) (fld 2 x 0) (fld 3 x 2) (fld 3 x 5))
  | 29 => some (if 80 ≤ (fld 7 w 16).toNat ∧ (fld 7 w 16).toNat ≤ 111 then .lreadScalar (fld 7 w 16) (fld 7 w 9) (bit w 1) (fld 8 x 0) else .lread (fld 7 w 16) (fld 7 w 9) (fld 7 w 2) (bit w 1) (bit w 0) (fld 5 x 20) (bit x 19))
  | 30 => some (.lwrite (fld 7 w 16) (fld 7 w 9) (bit w 1) (fld 8 x 0))
  | 31 => some (.vpcrd (fld 7 w 16) (fld 4 x 12) (fld 8 x 0))
  | 32 => some (.vpcwr (fld 7 w 9) (bit w 1) (fld 4 x 12) (fld 8 x 0))
  | 33 => some (.vidiv (fld 7 w 16) (fld 7 w 9) (fld 7 w 2) (bit w 1) (bit w 0) (fld 5 x 20) (bit x 19) (fld 4 x 12) (fld 4 x 8))
  | 34 => some (.virem (fld 7 w 16) (fld 7 w 9) (fld 7 w 2) (bit w 1) (bit w 0) (fld 5 x 20) (bit x 19) (fld 4 x 12) (fld 4 x 8))
  | _ => none
/-- The instruction that a word and the word after it encode, read by the tables of 03; none for a reserved opcode or a header
word. It reads fields only: `wordCauses` says which values are faults. -/
noncomputable def parseWord (w x : Word) : Option Instr :=
  match wordClass w with
  | 0 => parseVR (wordOp w) w
  | 1 => parseVI (wordOp w) w
  | 2 => parseVP (wordOp w) w
  | 3 => parseM (wordOp w) w x
  | 4 => parseS (wordOp w) w
  | 5 => parseE (wordOp w) w
  | 6 => parseX (wordOp w) w x
  | _ => none

/-- A word that takes a second word: class X, and class M with X = 1 (R28, R66), a FENCE too, which is then refused for its X. -/
def takesTwo (w : Word) : Bool :=
  wordClass w == 6 || (wordClass w == 3 && bit w 0)

/-! ### Faults of the fields an instruction uses -/

/-- A source operand: 73 to 79 are reserved (R40, cause 0x11). -/
def srcC (o : BitVec 7) : List Cause :=
  if 73 ≤ o.toNat ∧ o.toNat ≤ 79 then [⟨0x11, o.toNat⟩] else []

/-- A destination operand: reserved (0x11), or a scalar or constant (0x13) (R40). -/
def dstC (o : BitVec 7) : List Cause :=
  if 73 ≤ o.toNat ∧ o.toNat ≤ 79 then [⟨0x11, o.toNat⟩] else if 80 ≤ o.toNat then [⟨0x13, o.toNat⟩] else []

/-- A destination that is a pair or a quad of the v or o file, its number a multiple of `k` (R18, R143, cause 0x14). -/
def groupDstC (k : Nat) (o : BitVec 7) : List Cause :=
  dstC o ++ (if o.toNat = 72 ∨ (o.toNat ≤ 71 ∧ o.toNat % k ≠ 0) then [⟨0x14, o.toNat⟩] else [])

/-- A vector address operand: an even v register or an even s register (R35, cause 0x14; 73 to 79 are 0x11). -/
def addrC (o : BitVec 7) : List Cause :=
  srcC o ++ (if (o.toNat ≤ 63 ∨ (80 ≤ o.toNat ∧ o.toNat ≤ 111)) ∧ o.toNat % 2 = 0 then [] else [⟨0x14, o.toNat⟩])

/-- A cause when a condition holds. -/
def whenC (p : Bool) (c d : Nat) : List Cause := if p then [⟨c, d⟩] else []

/-- A guard or predicate source: 24 to 30 are faults (R34, R90, R126, cause 0x16). -/
def predC (p : BitVec 5) : List Cause := whenC (decide (24 ≤ p.toNat ∧ p.toNat ≤ 30)) 0x16 p.toNat

/-- A predicate destination: 24 to 31 are faults (R34, R100, R141, R167, cause 0x16). -/
def predDstC (p : BitVec 5) : List Cause := whenC (decide (24 ≤ p.toNat)) 0x16 p.toNat

/-- A scalar register that must be the even one of a pair (R37, R87, R103, cause 0x14); DETAIL is its operand value in the
numbering of R40, 80 + n (DEDUCED, log entry 20). -/
def evenC (s : BitVec 5) : List Cause := whenC (decide (s.toNat % 2 = 1)) 0x14 (80 + s.toNat)

/-- A register of the v or o file where no other is allowed: cause 0x09 at the field, 0x11 for a reserved value
(R92, R132, R133). -/
def voC (o : BitVec 7) (pos : Nat) : List Cause := srcC o ++ whenC (decide (o.toNat = 72 ∨ 80 ≤ o.toNat)) 0x09 pos

/-- The destination of LWRITE (R133): any value but a register of the v or o file raises cause 0x09 at the field. -/
def lwriteDstC (o : BitVec 7) : List Cause := srcC o ++ whenC (decide (72 ≤ o.toNat)) 0x09 16

/-- A scalar register or an inline constant where no other is allowed (R133). -/
def scalarSrcC (o : BitVec 7) (pos : Nat) : List Cause := srcC o ++ whenC (decide (o.toNat < 80)) 0x09 pos

/-- The kinds of access that R35 tells apart. -/
inductive AccessKind where
  | load | store | atomic
  deriving DecidableEq, Repr

/-- Order and scope of an access (R35): scopes 6 and 7, acquire on a store, release on a load, and a relaxed plain access with a
scope other than 0 raise cause 0x09 at the field. -/
def orderC (k : AccessKind) (order : BitVec 2) (scope : BitVec 3) (po ps : Nat) : List Cause :=
  whenC (decide (6 ≤ scope.toNat)) 0x09 ps
  ++ whenC (decide ((k = .store ∧ order.toNat = 1) ∨ (k = .load ∧ order.toNat = 2))) 0x09 po
  ++ whenC (decide (k ≠ .atomic ∧ order.toNat = 0 ∧ scope.toNat ≠ 0)) 0x09 ps

/-- A scratchpad word: as `orderC`, and scopes 2 to 5 raise cause 0x09 (R150). -/
def scratchOrderC (k : AccessKind) (order : BitVec 2) (scope : BitVec 3) : List Cause :=
  orderC k order scope 4 1 ++ whenC (decide (2 ≤ scope.toNat)) 0x09 1

/-- The destination of a load of one register (R143): lr raises cause 0x09. So it does for LREAD, which has no form with it (R132; DEDUCED, log
entry 82). -/
def loadDstC (d : BitVec 7) : List Cause := dstC d ++ whenC (decide (d.toNat = 72)) 0x09 16

/-- The destination of a load of a pair or quad (R143). -/
def loadGroupDstC (k : Nat) (d : BitVec 7) : List Cause := groupDstC k d ++ whenC (decide (d.toNat = 72)) 0x09 16

/-- The destination of LDPK6 or LDPK4: v0 to v`top` (R143). -/
def packDstC (top : Nat) (d : BitVec 7) : List Cause :=
  dstC d ++ whenC (decide (top < d.toNat ∧ d.toNat ≤ 72)) 0x14 d.toNat ++ whenC (decide (d.toNat = 72)) 0x09 16

/-- The data of an 8-byte store: an even pair of the v, o or s file or an inline constant (R143). -/
def storePairC (d : BitVec 7) : List Cause :=
  srcC d ++ whenC (decide (d.toNat = 72 ∨ (d.toNat < 112 ∧ d.toNat % 2 = 1))) 0x14 d.toNat

/-- The data of a 16-byte store: a quad (R143). -/
def storeQuadC (d : BitVec 7) : List Cause :=
  srcC d ++ whenC (decide (72 ≤ d.toNat ∨ d.toNat % 4 ≠ 0)) 0x14 d.toNat

/-- D of an atomic with both forms (R153). -/
def atomDC (d : BitVec 7) : List Cause := srcC d ++ whenC (decide (d.toNat = 72)) 0x09 16

/-- D of a compare-and-swap: only the form with return, a pair or a quad (R153, R155). -/
def casDC (k : Nat) (d : BitVec 7) : List Cause :=
  srcC d ++ whenC (decide (d.toNat = 72)) 0x09 16 ++ whenC (decide (72 ≤ d.toNat ∨ d.toNat % k ≠ 0)) 0x14 d.toNat

/-- The lane number of LREAD, LWRITE, VPCRD, VPCWR and VBCAST: imm8[6:0] below GRPWIDTH and imm8[7] zero (R130, R132); R133 and R134 name no cause
for a lane that the group does not have: it is the same (DESIGN CHOICE, log entry 84). -/
def laneC (lane : BitVec 8) : List Cause :=
  whenC (decide (64 ≤ lane.toNat % 128)) 0x09 32 ++ whenC (decide (128 ≤ lane.toNat)) 0x09 39

/-- The member mask of a cross-lane word: an even s register (R126). -/
def maskC (c : BitVec 7) : List Cause :=
  if 80 ≤ c.toNat ∧ c.toNat ≤ 111 then whenC (decide (c.toNat % 2 = 1)) 0x14 c.toNat else [⟨0x09, 57⟩]

/-- The rounding field: 6 and 7 are reserved (R38). -/
def rmC (rm : BitVec 3) : List Cause := whenC (decide (6 ≤ rm.toNat)) 0x09 48

/-- Number of elements of a type in a 32-bit register (R119, R47). -/
def typeElems (t : Nat) : Nat :=
  match t with
  | 0 | 8 | 9 => 1
  | 1 | 2 | 10 | 11 | 15 => 2
  | 7 | 14 => 8
  | _ => 4

/-- stype and dtype (R116, R399): each field that holds no type which the word takes there fails for itself, dtype at 40 and stype at 44; a pair of
types that are taken, but not together, is reported at `pos` (DEDUCED, log entry 20). -/
def typesC (st dt pair : Bool) (pos : Nat) : List Cause :=
  whenC (!dt) 0x09 40 ++ whenC (!st) 0x09 44 ++ whenC (st && dt && !pair) 0x09 pos

/-- VCVT, VCVTI and VCVTF: the types and the element indices (R119, R120, R399). The types that the three words take stand in each field for
itself; an index is judged where the type of its own element is one of them (DEDUCED, log entry 20). -/
def cvtC (okS okD : Bool) (st dt : BitVec 4) (js jd : BitVec 3) : List Cause :=
  typesC okS okD true 44
  ++ whenC (okS && decide (typeElems st.toNat ≤ js.toNat)) 0x09 32
  ++ whenC (okD && decide (typeElems dt.toNat ≤ jd.toNat)) 0x09 36

/-- The pairs of types of VPACK (R121). -/
def packOk (st dt : BitVec 4) : Bool :=
  match dt.toNat with
  | 1 | 2 | 3 | 4 => st == 0
  | 10 | 12 => st == 8
  | 11 | 13 => st == 9
  | _ => false

/-- The source types of VPACK (R121). -/
def packSrc (st : BitVec 4) : Bool := st == 0 || st == 8 || st == 9
/-- The destination types of VPACK (R121). -/
def packTo (dt : BitVec 4) : Bool := match dt.toNat with | 1 | 2 | 3 | 4 | 10 | 11 | 12 | 13 => true | _ => false

/-- VPACK writes a half chosen by h only for the 8-bit types (R121). -/
def packHalf (dt : BitVec 4) : Bool := match dt.toNat with | 3 | 4 | 12 | 13 => true | _ => false

/-- The destination type that a source type of VUNPACK has (R122); none for a source type it does not take. -/
def unpackTo (st : BitVec 4) : Option (BitVec 4) :=
  match st.toNat with
  | 1 | 2 | 3 | 4 | 5 | 6 | 7 => some 0
  | 10 | 12 | 14 => some 8
  | 11 | 13 => some 9
  | _ => none

/-- VDEQ: types, forms and limits of R123. A type that the form chosen by imm8[7] does not take is reported at stype (DESIGN CHOICE, log entry 83). -/
def deqC (a : BitVec 7) (st dt : BitVec 4) (j : BitVec 5) (set : Bool) : List Cause :=
  whenC (decide (2 ≤ dt.toNat)) 0x09 40
  ++ (if set then
        match st.toNat with
        | 7 => whenC (decide (60 < a.toNat)) 0x09 9
        | 5 | 6 => whenC (decide (58 < a.toNat)) 0x09 9
        | _ => [⟨0x09, 44⟩]
      else
        match st.toNat with
        | 3 | 4 | 12 => whenC (decide (4 ≤ j.toNat)) 0x09 32
        | 7 | 14 => whenC (decide (8 ≤ j.toNat)) 0x09 32
        | 15 => whenC (decide (16 ≤ j.toNat)) 0x09 32
        | _ => [⟨0x09, 44⟩])

/-- VLOGRED and VSCAN: op codes 11 to 15 (R130), and a rounding other than 0 unless the op is fadd, which takes 0 to 3 and 5. -/
def redC (rm : BitVec 3) (op : BitVec 4) : List Cause :=
  rmC rm
  ++ whenC (decide (11 ≤ op.toNat)) 0x09 32
  ++ whenC (decide ((op.toNat = 8 ∧ rm.toNat = 4) ∨ (op.toNat ≠ 8 ∧ rm.toNat ≠ 0))) 0x09 48

/-- The element types of LD.IDX and ST.IDX (R160). -/
def idxTypeC (st : BitVec 4) : List Cause := whenC (decide (st.toNat < 8 ∨ 13 < st.toNat)) 0x09 44

/-- The faults that the values of an instruction's own fields are (R31 to R43 and the chapters 04 to 08). The order of a list decides only
between two causes of one code other than 0x09 (log entry 61): SLD.D with `sa` and `sd` odd names `sa`. A pair of types that VPACK does
not take is reported at dtype, which R121's rows judge; other words' pairs at stype (log entry 20). -/
def instrCauses : Instr → List Cause
  | .viadd d a b _ _
  | .visub d a b _ _
  | .viadds d a b _ _
  | .visubs d a b _ _
  | .vimul d a b _ _
  | .vimulh d a b _ _
  | .vumulh d a b _ _
  | .vimac d a b _ _
  | .vimin d a b _ _
  | .vimax d a b _ _
  | .vumin d a b _ _
  | .vumax d a b _ _
  | .vand d a b _ _
  | .vor d a b _ _
  | .vxor d a b _ _
  | .vandn d a b _ _
  | .vshl d a b _ _
  | .vshr d a b _ _
  | .vsar d a b _ _
  | .vrol d a b _ _
  | .vfadd d a b _ _
  | .vfsub d a b _ _
  | .vfmul d a b _ _
  | .vfma d a b _ _
  | .vfnma d a b _ _
  | .vfmin d a b _ _
  | .vfmax d a b _ _
  | .vfcopysign d a b _ _
  | .vhaddBf d a b _ _
  | .vhmulBf d a b _ _
  | .vhfmaBf d a b _ _
  | .vhaddH d a b _ _
  | .vhmulH d a b _ _
  | .vhfmaH d a b _ _
  | .vdot2Bf d a b _ _
  | .vdot4I8 d a b _ _ =>
      dstC d ++ srcC a ++ srcC b
  | .vclz d a _ _
  | .vpopc d a _ _
  | .vbrev d a _ _
  | .viabs d a _ _
  | .vmov d a _ _
  | .vfabs d a _ _
  | .vfneg d a _ _ =>
      dstC d ++ srcC a
  | .viaddi d _ _
  | .vandi d _ _
  | .vori d _ _
  | .vxori d _ _
  | .vmovi d _
  | .vmovhi d _ _
  | .vshli d _ _
  | .vshri d _ _
  | .vsari d _ _
  | .vimuli d _ _
  | .vfaddi d _ _
  | .vfmuli d _ _
  | .vmovfi d _
  | .vlanei d _ =>
      dstC d
  | .vcmpEq pd a b _ _ _
  | .vcmpNe pd a b _ _ _
  | .vcmpLt pd a b _ _ _
  | .vcmpLe pd a b _ _ _
  | .vcmpGt pd a b _ _ _
  | .vcmpGe pd a b _ _ _
  | .vcmpLtu pd a b _ _ _
  | .vcmpLeu pd a b _ _ _
  | .vcmpGtu pd a b _ _ _
  | .vcmpGeu pd a b _ _ _
  | .vfcmpEq pd a b _ _ _
  | .vfcmpNe pd a b _ _ _
  | .vfcmpLt pd a b _ _ _
  | .vfcmpLe pd a b _ _ _
  | .vfcmpUn pd a b _ _ _
  | .vfclass pd a b _ _ _
  | .vtest pd a b _ _ _ =>
      predDstC pd ++ srcC a ++ srcC b
  | .pand pd pa pb _
  | .por pd pa pb _
  | .pxor pd pa pb _
  | .pandn pd pa pb _ =>
      predDstC pd ++ predC pa ++ predC pb
  | .pnot pd pa _
  | .pmov pd pa _ =>
      predDstC pd ++ predC pa
  | .pset pd _
  | .pclr pd _
  | .elect pd
  | .telect pd =>
      predDstC pd
  | .ldB d a _ order scope
  | .ldBExt d a _ order scope _
  | .ldSb d a _ order scope
  | .ldSbExt d a _ order scope _
  | .ldH d a _ order scope
  | .ldHExt d a _ order scope _
  | .ldSh d a _ order scope
  | .ldShExt d a _ order scope _
  | .ldW d a _ order scope
  | .ldWExt d a _ order scope _ =>
      addrC a ++ loadDstC d ++ orderC .load order scope 4 1
  | .ldD d a _ order scope
  | .ldDExt d a _ order scope _ =>
      addrC a ++ loadGroupDstC 2 d ++ orderC .load order scope 4 1
  | .ldQ d a _ order scope
  | .ldQExt d a _ order scope _ =>
      addrC a ++ loadGroupDstC 4 d ++ orderC .load order scope 4 1
  | .ldpk6 d a _ order scope
  | .ldpk6Ext d a _ order scope _ =>
      addrC a ++ packDstC 58 d ++ orderC .load order scope 4 1
  | .ldpk4 d a _ order scope
  | .ldpk4Ext d a _ order scope _ =>
      addrC a ++ packDstC 60 d ++ orderC .load order scope 4 1
  | .stB d a _ order scope
  | .stBExt d a _ order scope _
  | .stH d a _ order scope
  | .stHExt d a _ order scope _
  | .stW d a _ order scope
  | .stWExt d a _ order scope _ =>
      addrC a ++ srcC d ++ orderC .store order scope 4 1
  | .stD d a _ order scope
  | .stDExt d a _ order scope _ =>
      addrC a ++ storePairC d ++ orderC .store order scope 4 1
  | .stQ d a _ order scope
  | .stQExt d a _ order scope _ =>
      addrC a ++ storeQuadC d ++ orderC .store order scope 4 1
  | .ldsW d a order scope
  | .ldsWExt d a order scope _ =>
      addrC a ++ loadDstC d ++ scratchOrderC .load order scope
  | .ldsD d a order scope
  | .ldsDExt d a order scope _ =>
      addrC a ++ loadGroupDstC 2 d ++ scratchOrderC .load order scope
  | .ldsQ d a order scope
  | .ldsQExt d a order scope _ =>
      addrC a ++ loadGroupDstC 4 d ++ scratchOrderC .load order scope
  | .stsB d a order scope
  | .stsBExt d a order scope _
  | .stsH d a order scope
  | .stsHExt d a order scope _
  | .stsW d a order scope
  | .stsWExt d a order scope _ =>
      addrC a ++ srcC d ++ scratchOrderC .store order scope
  | .stsD d a order scope
  | .stsDExt d a order scope _ =>
      addrC a ++ storePairC d ++ scratchOrderC .store order scope
  | .stsQ d a order scope
  | .stsQExt d a order scope _ =>
      addrC a ++ storeQuadC d ++ scratchOrderC .store order scope
  | .atomAdd d a _ order scope
  | .atomAddExt d a _ order scope _
  | .atomFadd d a _ order scope
  | .atomFaddExt d a _ order scope _
  | .atomHfaddBf d a _ order scope
  | .atomHfaddBfExt d a _ order scope _
  | .atomMin d a _ order scope
  | .atomMinExt d a _ order scope _
  | .atomMax d a _ order scope
  | .atomMaxExt d a _ order scope _
  | .atomMinu d a _ order scope
  | .atomMinuExt d a _ order scope _
  | .atomMaxu d a _ order scope
  | .atomMaxuExt d a _ order scope _
  | .atomAnd d a _ order scope
  | .atomAndExt d a _ order scope _
  | .atomOr d a _ order scope
  | .atomOrExt d a _ order scope _
  | .atomXor d a _ order scope
  | .atomXorExt d a _ order scope _
  | .atomXchg d a _ order scope
  | .atomXchgExt d a _ order scope _ =>
      addrC a ++ atomDC d ++ orderC .atomic order scope 4 1
  | .atomCas d a _ order scope
  | .atomCasExt d a _ order scope _ =>
      addrC a ++ casDC 2 d ++ orderC .atomic order scope 4 1
  | .atomCasD d a _ order scope
  | .atomCasDExt d a _ order scope _ =>
      addrC a ++ casDC 4 d ++ orderC .atomic order scope 4 1
  | .atomsAdd d a order scope
  | .atomsAddExt d a order scope _
  | .atomsFadd d a order scope
  | .atomsFaddExt d a order scope _
  | .atomsMin d a order scope
  | .atomsMinExt d a order scope _
  | .atomsMax d a order scope
  | .atomsMaxExt d a order scope _
  | .atomsXchg d a order scope
  | .atomsXchgExt d a order scope _ =>
      addrC a ++ atomDC d ++ scratchOrderC .atomic order scope
  | .atomsCas d a order scope
  | .atomsCasExt d a order scope _ =>
      addrC a ++ casDC 2 d ++ scratchOrderC .atomic order scope
  | .fence order scope =>
      whenC (decide (order.toNat = 0)) 0x09 4 ++ whenC (decide (6 ≤ scope.toNat)) 0x09 1
  | .pref a _
  | .prefExt a _ _ =>
      addrC a
  | .sldW _ sa _
  | .sstW _ sa _ =>
      evenC sa
  | .sldD sd sa _ =>
      evenC sa ++ evenC sd
  | .movsr _ n =>
      whenC (decide (0x20 ≤ n.toNat)) 0x17 n.toNat
  | .movsw _ n =>
      whenC (decide (0x20 ≤ n.toNat)) 0x17 n.toNat ++ whenC (decide (n.toNat < 0x20 ∧ n.toNat ≠ 0x11 ∧ n.toNat ≠ 0x12)) 0x18 n.toNat
  | .bra p _ _
  | .brau p _ _
  | .braany p _ _
  | .braall p _ _
  | .call p _ _
  | .accept p =>
      predC p
  | .ret a _
  | .jmpv a _ =>
      voC a 16
  | .loop lc _ len
  | .loopi lc _ len =>
      whenC (decide (lc.toNat = 3)) 0x09 21 ++ whenC (decide (len.toNat = 0)) 0x09 0
  | .tstamp sd
  | .meter sd =>
      evenC sd
  | .mma s _
  | .accdrain s _
  | .copy s _
  | .gather s _
  | .scatter s _
  | .coll s _
  | .cbload s _ _
  | .actload s _
  | .objdecl s _
  | .launch s _
  | .phaseend s _
  | .ensure s
  | .convjoin s
  | .convleave s =>
      evenC s
  | .accrd _ _ _ d
  | .accwr _ _ _ d =>
      whenC (decide (72 ≤ d.toNat)) 0x09 0
  | .evinc _ n
  | .evdec _ n =>
      whenC (decide (n.toNat = 0)) 0x09 0
  | .vfma3 d a b c _ _ pg _ rm st dt =>
      dstC d ++ srcC a ++ srcC b ++ srcC c ++ predC pg ++ rmC rm ++ typesC (decide (st.toNat < 3)) (decide (dt.toNat < 3)) (st == dt) 44
  | .vsel d a b _ _ pg _
  | .vbfe d a b _ _ pg _ _
  | .vrand d a b _ _ pg _ =>
      dstC d ++ srcC a ++ srcC b ++ predC pg
  | .vcvt d a _ pg _ rm st dt js jd =>
      dstC d ++ srcC a ++ predC pg ++ rmC rm ++ cvtC (decide (st.toNat ≤ 7)) (decide (dt.toNat ≤ 7)) st dt js jd
  | .vcvti d a _ pg _ rm st dt js jd =>
      dstC d ++ srcC a ++ predC pg ++ rmC rm ++ cvtC (decide (st.toNat ≤ 14)) (decide (8 ≤ dt.toNat ∧ dt.toNat ≤ 14)) st dt js jd ++ whenC (decide (8 ≤ st.toNat ∧ rm.toNat ≠ 0)) 0x09 48
  | .vcvtf d a _ pg _ rm st dt js jd =>
      dstC d ++ srcC a ++ predC pg ++ rmC rm ++ cvtC (decide (8 ≤ st.toNat ∧ st.toNat ≤ 14)) (decide (dt.toNat ≤ 7)) st dt js jd
  | .vpack d a b _ _ pg _ rm st dt h =>
      dstC d ++ srcC a ++ srcC b ++ predC pg ++ rmC rm ++ typesC (packSrc st) (packTo dt) (packOk st dt) 40 ++ whenC (h && !packHalf dt) 0x09 32 ++ whenC (decide (8 ≤ dt.toNat ∧ rm.toNat ≠ 0)) 0x09 48
  | .vunpack d a _ pg _ st dt j =>
      groupDstC 2 d ++ srcC a ++ predC pg ++ typesC (unpackTo st).isSome (dt == 0 || dt == 8 || dt == 9) (unpackTo st == some dt) 40 ++ whenC (decide (j.toNat % 2 = 1 ∨ ((unpackTo st).isSome ∧ typeElems st.toNat ≤ j.toNat + 1))) 0x09 32
  | .vdeq d a b c _ eb pg _ rm st dt j set =>
      dstC d ++ srcC a ++ srcC b ++ srcC c ++ predC pg ++ rmC rm ++ deqC a st dt j set ++ whenC (decide (st.toNat ≠ 15 ∧ b.toNat ≠ 0)) 0x09 2 ++ whenC (decide (st.toNat ≠ 15) && eb) 0x09 0
  | .vperm d a b c _ _ pg =>
      dstC d ++ srcC a ++ srcC b ++ maskC c ++ predC pg
  | .vshuf d a c _ pg _ =>
      dstC d ++ srcC a ++ maskC c ++ predC pg
  | .vlogred d a c _ pg rm op
  | .vscan d a c _ pg rm op _ =>
      dstC d ++ srcC a ++ maskC c ++ predC pg ++ redC rm op
  | .vbcast d a c _ pg lane =>
      dstC d ++ srcC a ++ maskC c ++ predC pg ++ laneC lane
  | .vvote d pa c pg mode =>
      (if mode.toNat = 0 then groupDstC 2 d else dstC d) ++ predC pa ++ maskC c ++ predC pg
  | .vbfi d a b c _ _ pg _ =>
      dstC d ++ srcC a ++ srcC b ++ srcC c ++ predC pg
  | .vfrcp d a _ pg _
  | .vfrsq d a _ pg _
  | .vfexp2 d a _ pg _
  | .vflog2 d a _ pg _
  | .vfsin d a _ pg _
  | .vfcos d a _ pg _
  | .vact d a _ pg _ =>
      dstC d ++ srcC a ++ predC pg
  | .vfsqrt d a _ pg _ rm =>
      dstC d ++ srcC a ++ predC pg ++ rmC rm
  | .vfdiv d a b _ _ pg _ rm =>
      dstC d ++ srcC a ++ srcC b ++ predC pg ++ rmC rm
  | .dropm a b c _ _ pg =>
      srcC a ++ srcC b ++ srcC c ++ predDstC pg
  | .ldIdx d a b _ _ pg _ st order scope _ =>
      loadDstC d ++ addrC a ++ srcC b ++ predC pg ++ idxTypeC st ++ orderC .load order scope 32 34
  | .stIdx d a b _ _ pg _ st order scope _ =>
      srcC d ++ addrC a ++ srcC b ++ predC pg ++ idxTypeC st ++ orderC .store order scope 32 34
  | .lread d a b _ _ pg _ =>
      loadDstC d ++ voC a 9 ++ srcC b ++ predC pg
  | .lreadScalar d a _ lane =>
      whenC (decide (d.toNat < 80 ∨ 111 < d.toNat)) 0x13 d.toNat ++ voC a 9 ++ laneC lane
  | .lwrite d a _ lane =>
      lwriteDstC d ++ scalarSrcC a 9 ++ laneC lane
  | .vpcrd d field lane =>
      srcC d ++ whenC (decide (d.toNat ≤ 72)) 0x09 16 ++ whenC (decide (111 < d.toNat)) 0x13 d.toNat ++
      whenC (decide (3 ≤ field.toNat)) 0x09 44 ++ laneC lane
  | .vpcwr a _ field lane =>
      srcC a ++ whenC (decide (a.toNat ≤ 72)) 0x09 9 ++ whenC (decide (3 ≤ field.toNat)) 0x09 44 ++ laneC lane
  | .vidiv d a b _ _ pg _ st dt
  | .virem d a b _ _ pg _ st dt =>
      dstC d ++ srcC a ++ srcC b ++ predC pg ++ typesC (st == 8 || st == 9) (dt == 8 || dt == 9) (st == dt) 44
  | .sadd _ _ _
  | .ssub _ _ _
  | .smul _ _ _
  | .smulhu _ _ _
  | .sand _ _ _
  | .sor _ _ _
  | .sxor _ _ _
  | .sshl _ _ _
  | .sshr _ _ _
  | .ssar _ _ _
  | .smin _ _ _
  | .smax _ _ _
  | .sminu _ _ _
  | .smaxu _ _ _
  | .sseq _ _ _
  | .sslt _ _ _
  | .ssltu _ _ _
  | .saddi _ _ _
  | .sandi _ _ _
  | .sori _ _ _
  | .sxori _ _ _
  | .smovi _ _
  | .smovhi _ _
  | .sshli _ _ _
  | .sshri _ _ _
  | .exit
  | .nop
  | .yield
  | .suspend _ _ _
  | .trap _
  | .tret
  | .cycle _
  | .acczero _ _ _
  | .objfree _ _
  | .tokreq _ _
  | .tokrel _ _
  | .waitchild
  | .succok
  | .waitpred
  | .tbar _
  | .tarrive _
  | .gbar
  | .elseby
  | .elseerr _
  | .reject
  | .rbegin
  | .rend
  | .rstat _ _
  | .runStart _ _
  | .deferredTrapTaken _
  | .loadResult _
  | .sfuResult _
  | .lreadResult _
  | .atomicCompletion _
  | .storePerformed _
  | .objdeclResult _
  | .launchResult _
  | .meterResult _
  | .engineCommandStart _
  | .engineCommandCompletion _
  | .translationWalkEnd _ _ _
  | .pfansWrite _ _
  | .tlbInvalidationStart _ _
  | .tlbInvalidationComplete _
  | .tokenRequestArrival _ _ _
  | .tokenGrant _ _
  | .lineMigrationComplete _ _
  | .wayPairGating _
  | .wayPairEnable _
  | .gbarClusterRelease _ _
  | .regionCommit _ _
  | .regionReservationLapse _ _
  | .recoveryTickLimitExpiry _
  | .rollback _
  | .undoAreaLost _
  | .lqptrTailWrite _ _
  | .launchRecordRead _
  | .childRingTransfer _
  | .teamAdmission
  | .scratchpadClearDone _
  | .admissionReservation _ _
  | .heldOutPreemption _
  | .groupRetirement _
  | .prctlGo _ _
  | .prctlResume _ _
  | .drainAllowanceExpiry _
  | .teamSave _
  | .flushToEnsure _
  | .flushAndRestart _
  | .teamRestore _
  | .exitStatusWrite _
  | .hangWatchdogExpiry _
  | .registerFileError _ _ _
  | .moduleShutdown
  | .dbgHalt _ _
  | .dbgResume _ _
  | .dbgStep _ _
  | .haltLimitExpiry _
  | .dumpAttach _
  | .dumpRelease _
  | .dumpHoldExpiry _
  | .ginghamSample
  | .controlInterval
  | .droopAlarm _ _
  | .droopStretchEnd _ _
  | .halvedWindowEnd _ _
  | .timingReplay _ _ _
  | .signPartitionCounters _
  | .signJobRecord _
  | .signedReadingWritten
  | .scrubLine _ _ _ _ _
  | .scrubWindowExpiry _
  | .bankReencode _
  | .errctlClr _
  | .classignWrite _ _
  | .hostWindowRead _ _ _ _
  | .hostWindowWrite _ _ _ _
  | .fabricAccess _ _
  | .keyRevocation _
  | .coldReset
  | .warmReset
  | .registerWrite _ _
  | .ringHeadWrite _ _
  | .fabricLinkFailure _
  | .flitLinkCheckFailure _
  | .killRequest _
  | .partitionTeardown _ => []

/-! ### Fields an instruction does not use -/

/-- A field of word 1 or 2 that must be zero: cause 0x09 at its lowest bit (R31, R399). -/
def zeroC (w : Word) (hi lo base : Nat) : List Cause :=
  whenC (decide (w.toNat / 2 ^ lo % 2 ^ (hi - lo + 1) ≠ 0)) 0x09 (base + lo)

/-- Unused fields of a VR word: B of a unary word is 0x70 (R32, cause 0x15), and its EB is unused (R31). -/
def rawVR (op : Nat) (w : Word) : List Cause :=
  match op with
  | 0x14 | 0x15 | 0x16 | 0x17 | 0x28 | 0x29 | 0x2A => whenC (decide (fld 7 w 2 ≠ 0x70#7)) 0x15 (fld 7 w 2).toNat ++ zeroC w 0 0 0
  | _ => []

/-- Unused fields of a VI word: E of a word that does not read D, imm16[15:5] of the shifts (R33, R112). -/
def rawVI (op : Nat) (w : Word) : List Cause :=
  match op with
  | 0x04 | 0x0C | 0x0D => zeroC w 16 16 0
  | 0x06 | 0x07 | 0x08 => zeroC w 15 5 0
  | _ => []

/-- The upper bits of a predicate number in a 7-bit source field (R34, R43 cause 0x16). -/
def predHighC (w : Word) (lo : Nat) : List Cause :=
  whenC (decide (32 ≤ (fld 7 w lo).toNat)) 0x16 (fld 7 w lo).toNat

/-- Unused fields of a predicate-logic word (R34, R70). -/
def rawVP (op : Nat) (w : Word) : List Cause :=
  match op with
  | 0x11 | 0x12 | 0x13 | 0x14 => predHighC w 11 ++ predHighC w 4 ++ zeroC w 1 1 0 ++ zeroC w 0 0 0
  | 0x15 | 0x16 => predHighC w 11 ++ zeroC w 10 4 0 ++ zeroC w 1 1 0 ++ zeroC w 0 0 0
  | 0x17 | 0x18 => zeroC w 17 11 0 ++ zeroC w 10 4 0 ++ zeroC w 1 1 0 ++ zeroC w 0 0 0
  | _ => []

/-- Unused fields of an M word: reuse of scratchpad words (R147), all but order and scope of FENCE, D and order of PREF, whose
scope is 0 under R35 (R71, R158, R159). -/
def rawM (op : Nat) (w : Word) : List Cause :=
  if op = 0x29 then zeroC w 22 16 0 ++ zeroC w 15 9 0 ++ zeroC w 8 6 0 ++ zeroC w 0 0 0
  else if op = 0x2A then zeroC w 22 16 0 ++ zeroC w 5 4 0 ++ zeroC w 3 1 0
  else if (0x0E ≤ op ∧ op ≤ 0x15) ∨ (0x23 ≤ op ∧ op ≤ 0x28) then zeroC w 8 6 0
  else []

/-- Unused fields of an S word (R36, R85, R86, R98 to R103). -/
def rawS (op : Nat) (w : Word) : List Cause :=
  if op ≤ 0x10 then zeroC w 7 0 0
  else if op = 0x15 ∨ op = 0x16 then zeroC w 17 13 0
  else if op = 0x17 ∨ op = 0x18 then zeroC w 12 5 0
  else if op = 0x1C ∨ op = 0x1D then zeroC w 11 0 0
  else if op = 0x25 ∨ op = 0x26 then zeroC w 14 0 0
  else if op = 0x27 then zeroC w 15 11 0
  else if op = 0x29 ∨ op = 0x2A ∨ op = 0x2B ∨ op = 0x2F then zeroC w 22 0 0
  else if op = 0x2D ∨ op = 0x30 ∨ op = 0x31 then zeroC w 17 0 0
  else if op = 0x2E then zeroC w 22 16 0
  else []

/-- Unused fields of an E word (R37, R167): s, ec, and the bits of imm15 at and above the part the word uses. A narrower range
that the description names starts a field of its own; what lies above it is reported at its lowest bit (R399). -/
def rawE (op : Nat) (w : Word) : List Cause :=
  let s := zeroC w 22 18 0
  let ec := zeroC w 17 15 0
  let imm (n : Nat) := zeroC w 14 n 0
  match op with
  | 0x00 | 0x04 | 0x05 | 0x06 | 0x07 | 0x08 | 0x0A | 0x0C | 0x0D | 0x0E | 0x19 => imm 0
  | 0x01 | 0x09 => imm 1
  | 0x02 | 0x03 => imm 8
  | 0x0B | 0x0F => ec ++ imm 5
  | 0x10 | 0x11 | 0x12 | 0x15 | 0x1B | 0x1E | 0x21 | 0x22 => s ++ ec ++ imm 0
  | 0x13 | 0x14 => s ++ ec ++ imm 2
  | 0x16 | 0x17 => s ++ imm 8
  | 0x1C => s ++ ec
  | 0x1A | 0x1D | 0x1F | 0x20 | 0x24 | 0x25 => ec ++ imm 0
  | 0x23 => ec ++ imm 3
  | _ => []

/-- Unused fields of an X word (R31, R38, R116, R126, R130 to R141, R160). -/
def rawX (op : Nat) (w x : Word) : List Cause :=
  let dZ := zeroC w 22 16 0
  let aZ := zeroC w 15 9 0
  let bZ := zeroC w 8 2 0
  let eaZ := zeroC w 1 1 0
  let ebZ := zeroC w 0 0 0
  let cZ := zeroC x 31 25 32
  let negZ := zeroC x 19 19 32
  let rmZ := zeroC x 18 16 32
  let stZ := zeroC x 15 12 32
  let dtZ := zeroC x 11 8 32
  let imm (n : Nat) := zeroC x 7 n 32
  let pg31 := whenC (decide (fld 5 x 20 ≠ 31#5)) 0x09 52
  match op with
  | 0x00 => imm 0
  | 0x01 => cZ ++ rmZ ++ stZ ++ dtZ ++ imm 0
  | 0x02 | 0x03 | 0x04 => bZ ++ ebZ ++ cZ ++ zeroC x 3 3 32 ++ zeroC x 7 7 32
  | 0x05 => cZ ++ imm 1
  | 0x06 => bZ ++ ebZ ++ cZ ++ rmZ ++ imm 3
  | 0x07 => zeroC x 6 5 32
  | 0x08 => negZ ++ rmZ ++ stZ ++ dtZ ++ imm 0
  | 0x09 => bZ ++ ebZ ++ negZ ++ rmZ ++ stZ ++ dtZ
  | 0x0A => bZ ++ ebZ ++ negZ ++ stZ ++ dtZ ++ imm 4
  | 0x0B => bZ ++ ebZ ++ negZ ++ stZ ++ dtZ ++ imm 5
  | 0x0C => bZ ++ ebZ ++ negZ ++ rmZ ++ stZ ++ dtZ
  | 0x0D => predHighC w 9 ++ bZ ++ eaZ ++ ebZ ++ negZ ++ rmZ ++ stZ ++ dtZ ++ imm 2
  | 0x0E => cZ ++ rmZ ++ stZ ++ dtZ ++ imm 1
  | 0x0F => rmZ ++ stZ ++ dtZ ++ imm 0
  | 0x10 | 0x11 | 0x13 | 0x14 | 0x15 | 0x16 | 0x18 => bZ ++ ebZ ++ cZ ++ rmZ ++ stZ ++ dtZ ++ imm 0
  | 0x12 => bZ ++ ebZ ++ cZ ++ stZ ++ dtZ ++ imm 0
  | 0x17 => cZ ++ stZ ++ dtZ ++ imm 0
  | 0x19 => dZ ++ negZ ++ rmZ ++ stZ ++ dtZ ++ imm 0
  | 0x1A => cZ ++ rmZ ++ stZ ++ dtZ ++ imm 0
  | 0x1B | 0x1C => eaZ ++ cZ ++ rmZ ++ dtZ
  | 0x1D =>
    if 80 ≤ (fld 7 w 16).toNat ∧ (fld 7 w 16).toNat ≤ 111 then
      whenC (decide (fld 7 w 2 ≠ 0x70#7)) 0x09 2 ++ ebZ ++ cZ ++ pg31 ++ negZ ++ rmZ ++ stZ ++ dtZ
    else cZ ++ rmZ ++ stZ ++ dtZ ++ imm 0
  | 0x1E => bZ ++ ebZ ++ cZ ++ pg31 ++ negZ ++ rmZ ++ stZ ++ dtZ
  | 0x1F => aZ ++ bZ ++ eaZ ++ ebZ ++ cZ ++ pg31 ++ negZ ++ rmZ ++ dtZ
  | 0x20 => dZ ++ bZ ++ ebZ ++ cZ ++ pg31 ++ negZ ++ rmZ ++ dtZ
  | 0x21 | 0x22 => cZ ++ rmZ ++ imm 0
  | _ => []

/-- Every fault of the unused fields of a word. -/
def rawCauses (w x : Word) : List Cause :=
  match wordClass w with
  | 0 => rawVR (wordOp w) w
  | 1 => rawVI (wordOp w) w
  | 2 => rawVP (wordOp w) w
  | 3 => rawM (wordOp w) w
  | 4 => rawS (wordOp w) w
  | 5 => rawE (wordOp w) w
  | 6 => rawX (wordOp w) w x
  | _ => []

/-- The reserved rounding values, reported also where the word rounds nothing (R38). -/
def rawRounding (w x : Word) : List Cause := if wordClass w = 6 then rmC (fld 3 x 16) else []

/-- The cause of two that is reported first: the lower code, and of two 0x09 the lower DETAIL (R43, R399). Which operand of two with the
same other code (0x11, 0x13, 0x14, 0x16) DETAIL names the spec does not say: it is the one met first in the order of
`instrCauses`, D before A, B and C in VR and X words, the address A before D in M words (DESIGN CHOICE, log entry 61). -/
def firstCause (p q : Cause) : Cause :=
  if q.code < p.code ∨ (q.code = p.code ∧ p.code = 0x09 ∧ q.detail < p.detail) then q else p

/-- The cause a list of faults of one word is reported as (R43). -/
def worstCause : List Cause → Option Cause
  | [] => none
  | c :: cs => some (cs.foldl firstCause c)

/-- The faults of one word of a clause, word index `idx` (R43 step 2): a header (0x05), a reserved opcode (0x08, DETAIL of R67),
and the field faults. -/
noncomputable def wordCauses (idx : Nat) (w x : Word) : List Cause :=
  if wordClass w = 7 then [⟨0x05, idx⟩]
  else match parseWord w x with
    | none => [⟨0x08, classOp w⟩]
    | some i => rawCauses w x ++ rawRounding w x ++ instrCauses i

/-- Decoding one word (with the word that follows it): the instruction, or the cause it is refused with. -/
noncomputable def decodeWord (idx : Nat) (w x : Word) : Except Cause Instr :=
  match worstCause (wordCauses idx w x) with
  | some c => .error c
  | none =>
    match parseWord w x with
    | some i => .ok i
    | none => .error ⟨0x08, classOp w⟩

/-! ### Clauses -/

/-- Number of instruction words of a clause, header bits [28:25] (R24). -/
def hdrCount (h : Word) : Nat := (fld 4 h 25).toNat
/-- Engine class of a clause, header bits [24:22] (R24). -/
def hdrEng (h : Word) : Nat := (fld 3 h 22).toNat
/-- Run-end bit of a header (R24). -/
def hdrEnd (h : Word) : Bool := bit h 21
/-- S bit of a header: a precise stop site (R24). -/
def hdrSafe (h : Word) : Bool := bit h 20
/-- Wait mask of a header: bit k selects eck (R24). -/
def hdrMask (h : Word) : BitVec 8 := fld 8 h 12
/-- Wait threshold of a header (R24). -/
def hdrT (h : Word) : Nat := (fld 4 h 8).toNat
/-- Full-wait bit of a header (R22, R24). -/
def hdrFull (h : Word) : Bool := bit h 7

/-- A fault of a clause: cause, DETAIL and the index of the word (R15, R43). -/
structure ClauseFault where
  code   : Nat
  detail : Nat
  word   : Nat
  deriving DecidableEq, Repr

/-- The header's own faults, in the order of R43: not a header (0x00), count 0, engine class 5 to 7, reserved bits. -/
def headerFault (h : Word) : Option ClauseFault :=
  if wordClass h ≠ 7 then some ⟨0x00, wordClass h, 0⟩
  else if hdrCount h = 0 then some ⟨0x01, 0, 0⟩
  else if 5 ≤ hdrEng h then some ⟨0x02, hdrEng h, 0⟩
  else if (fld 7 h 0).toNat ≠ 0 then some ⟨0x03, (fld 7 h 0).toNat, 0⟩
  else none

/-- The control-ending words (R27). -/
def controlEnding (w : Word) : Bool :=
  match wordClass w with
  | 4 => match wordOp w with
    | 0x20 | 0x21 | 0x22 | 0x23 | 0x24 | 0x25 | 0x26 | 0x27 | 0x28 | 0x29 | 0x2B | 0x2C | 0x2E | 0x2F => true
    | _ => false
  | 5 => match wordOp w with
    | 0x10 | 0x12 | 0x13 | 0x15 | 0x1A | 0x1B | 0x1C | 0x1D | 0x1E | 0x22 => true
    | _ => false
  | _ => false

/-- Whether an engine class allows a word (R26): vec 0, mem 1, ctl 2, eng 3, mix 4. -/
def engAllows (eng : Nat) (w : Word) : Bool :=
  match eng with
  | 0 => match wordClass w with
    | 0 | 1 | 2 => true
    | 6 => wordOp w != 0x1B && wordOp w != 0x1C
    | _ => false
  | 1 => match wordClass w with
    | 3 => true
    | 6 => wordOp w == 0x1B || wordOp w == 0x1C
    | _ => false
  | 2 => wordClass w == 4
  | 3 => wordClass w == 5
  | _ => true

/-- The words of a clause at which an instruction starts, with their indices: the second word of an X instruction and an M
extension word are never decoded as instructions (R28, R66). -/
def starts : Nat → Nat → List Word → List (Nat × Word × Option Word)
  | 0, _, _ => []
  | _ + 1, _, [] => []
  | n + 1, idx, w :: ws =>
    if takesTwo w then
      match ws with
      | x :: ws' => (idx, w, some x) :: starts n (idx + 2) ws'
      | [] => [(idx, w, none)]
    else (idx, w, some 0) :: starts n (idx + 1) ws

/-- Step 2 of R43: the first word with a fault. Of a pair cut off by the clause end only class and opcode are judged (R28). -/
noncomputable def wordFault (p : Nat × Word × Option Word) : Option ClauseFault :=
  match p with
  | (idx, w, some x) => (worstCause (wordCauses idx w x)).map fun c => ⟨c.code, c.detail, idx⟩
  | (idx, w, none) => if (parseWord w 0).isSome then none else some ⟨0x08, classOp w, idx⟩

/-- Step 3 of R43: 0x04, 0x06 and 0x07 in that order, each at its lowest word index; `last` is the index of the clause's last word. A
control-ending word that ends the clause may stand in any class (R26). -/
def placementFault (eng last : Nat) (ps : List (Nat × Word × Option Word)) : Option ClauseFault :=
  match ps.find? (fun p => !(engAllows eng p.2.1) && !(controlEnding p.2.1 && p.1 == last)) with
  | some p => some ⟨0x04, wordClass p.2.1, p.1⟩
  | none =>
    match ps.find? (fun p => controlEnding p.2.1 && p.1 != last) with
    | some p => some ⟨0x06, wordOp p.2.1, p.1⟩
    | none => (ps.find? (fun p => p.2.2.isNone)).map fun p => ⟨0x07, p.1, p.1⟩

/-- Step 4 of R43: an RBEGIN that is not word 0 (R183, cause 0x50 with DETAIL 1). -/
def rbeginFault (ps : List (Nat × Word × Option Word)) : Option ClauseFault :=
  (ps.find? (fun p => wordClass p.2.1 == 5 && wordOp p.2.1 == 0x21 && p.1 != 0)).map fun p => ⟨0x50, 1, p.1⟩

/-- The first of two faults. -/
def firstOf (p q : Option ClauseFault) : Option ClauseFault := match p with | some c => some c | none => q

/-- The fault a whole clause is refused with, in the order of R43; none for a clause that is well formed. `ws` are the words
that follow the header, `hdrCount h` of them. -/
noncomputable def clauseFault (h : Word) (ws : List Word) : Option ClauseFault :=
  match headerFault h with
  | some c => some c
  | none =>
    let ps := starts 15 0 ws
    firstOf (ps.findSome? wordFault) (firstOf (placementFault (hdrEng h) (hdrCount h - 1) ps) (rbeginFault ps))

/-- The instruction that starts at word `idx` of a clause. -/
noncomputable def instrAt (ws : List Word) (idx : Nat) : Option Instr :=
  match ws.drop idx with
  | [] => none
  | w :: rest => parseWord w (rest.headD 0)

/-- Words that an instruction word takes: 1 or 2 (R28). -/
def wordsOf (w : Word) : Nat := if takesTwo w then 2 else 1

/-! ### The host's reading of one instruction -/

/-- The 32-bit words of a number of `nbits` bits, bit 0 the least significant bit of the first word, and a second word of the
bits above, zero where `nbits` is 32 (R24: words are 32 bits). -/
def wordsOfBits (nbits w : Nat) : Word × Word :=
  (BitVec.ofNat 32 w, if nbits ≤ 32 then 0 else BitVec.ofNat 32 (w / 2 ^ 32))

/-- The bytes of a word as memory holds them: little-endian (01, Clauses). -/
def wordBytes (w : Word) : List Byte := [fld 8 w 0, fld 8 w 8, fld 8 w 16, fld 8 w 24]

/-- The word that four bytes of memory hold: little-endian (01, Clauses). -/
def wordOfBytes (b0 b1 b2 b3 : Byte) : Word :=
  BitVec.ofNat 32 (b0.toNat + b1.toNat * 2 ^ 8 + b2.toNat * 2 ^ 16 + b3.toNat * 2 ^ 24)

/-- A word read from a list of bytes. -/
def readWord (bs : List Byte) (k : Nat) : Word :=
  wordOfBytes (bs.getD k 0) (bs.getD (k + 1) 0) (bs.getD (k + 2) 0) (bs.getD (k + 3) 0)

/-- The instruction that the decoder reads from an instruction whose bits are `w`, laid out as memory holds it and read back. -/
noncomputable def decodeTableWord (nbits w : Nat) : Option Instr :=
  let p := wordsOfBits nbits w
  let bs := wordBytes p.1 ++ wordBytes p.2
  match decodeWord 0 (readWord bs 0) (readWord bs 4) with
  | .ok i => some i
  | .error _ => none

/-- Fields put in their places: each value times the weight of its lowest bit. -/
def packFields : List (Nat × Nat) → Nat
  | [] => 0
  | (v, lo) :: fs => v * 2 ^ lo + packFields fs

/-- A first word: class in [31:29], the opcode at bit `sh` (23, in class VI 24), and fields in their places (R32 to R38). -/
def encWord (cls op sh : Nat) (fs : List (Nat × Nat)) : Word :=
  BitVec.ofNat 32 (cls * 2 ^ 29 + op * 2 ^ sh + packFields fs)

/-- The second word of an X instruction (R38). -/
def encSecond (fs : List (Nat × Nat)) : Word := BitVec.ofNat 32 (packFields fs)

/-- The words of an instruction, from the encoding tables (R32 to R38): the opcode and each field in its place, every field the
instruction does not use zero (R31), B of a unary VR word 0x70 (R32), pg 31 where a word takes no predicate (R38), B of the
scalar LREAD 0x70 (R132). A step that is no word has none. -/
def encode : Instr → List Word
  | .viadd d a b ea eb => [encWord 0 0x00 23 [(d.toNat, 16), (a.toNat, 9), (b.toNat, 2), (ea.toNat, 1), (eb.toNat, 0)]]
  | .visub d a b ea eb => [encWord 0 0x01 23 [(d.toNat, 16), (a.toNat, 9), (b.toNat, 2), (ea.toNat, 1), (eb.toNat, 0)]]
  | .viadds d a b ea eb => [encWord 0 0x02 23 [(d.toNat, 16), (a.toNat, 9), (b.toNat, 2), (ea.toNat, 1), (eb.toNat, 0)]]
  | .visubs d a b ea eb => [encWord 0 0x03 23 [(d.toNat, 16), (a.toNat, 9), (b.toNat, 2), (ea.toNat, 1), (eb.toNat, 0)]]
  | .vimul d a b ea eb => [encWord 0 0x04 23 [(d.toNat, 16), (a.toNat, 9), (b.toNat, 2), (ea.toNat, 1), (eb.toNat, 0)]]
  | .vimulh d a b ea eb => [encWord 0 0x05 23 [(d.toNat, 16), (a.toNat, 9), (b.toNat, 2), (ea.toNat, 1), (eb.toNat, 0)]]
  | .vumulh d a b ea eb => [encWord 0 0x06 23 [(d.toNat, 16), (a.toNat, 9), (b.toNat, 2), (ea.toNat, 1), (eb.toNat, 0)]]
  | .vimac d a b ea eb => [encWord 0 0x07 23 [(d.toNat, 16), (a.toNat, 9), (b.toNat, 2), (ea.toNat, 1), (eb.toNat, 0)]]
  | .vimin d a b ea eb => [encWord 0 0x08 23 [(d.toNat, 16), (a.toNat, 9), (b.toNat, 2), (ea.toNat, 1), (eb.toNat, 0)]]
  | .vimax d a b ea eb => [encWord 0 0x09 23 [(d.toNat, 16), (a.toNat, 9), (b.toNat, 2), (ea.toNat, 1), (eb.toNat, 0)]]
  | .vumin d a b ea eb => [encWord 0 0x0A 23 [(d.toNat, 16), (a.toNat, 9), (b.toNat, 2), (ea.toNat, 1), (eb.toNat, 0)]]
  | .vumax d a b ea eb => [encWord 0 0x0B 23 [(d.toNat, 16), (a.toNat, 9), (b.toNat, 2), (ea.toNat, 1), (eb.toNat, 0)]]
  | .vand d a b ea eb => [encWord 0 0x0C 23 [(d.toNat, 16), (a.toNat, 9), (b.toNat, 2), (ea.toNat, 1), (eb.toNat, 0)]]
  | .vor d a b ea eb => [encWord 0 0x0D 23 [(d.toNat, 16), (a.toNat, 9), (b.toNat, 2), (ea.toNat, 1), (eb.toNat, 0)]]
  | .vxor d a b ea eb => [encWord 0 0x0E 23 [(d.toNat, 16), (a.toNat, 9), (b.toNat, 2), (ea.toNat, 1), (eb.toNat, 0)]]
  | .vandn d a b ea eb => [encWord 0 0x0F 23 [(d.toNat, 16), (a.toNat, 9), (b.toNat, 2), (ea.toNat, 1), (eb.toNat, 0)]]
  | .vshl d a b ea eb => [encWord 0 0x10 23 [(d.toNat, 16), (a.toNat, 9), (b.toNat, 2), (ea.toNat, 1), (eb.toNat, 0)]]
  | .vshr d a b ea eb => [encWord 0 0x11 23 [(d.toNat, 16), (a.toNat, 9), (b.toNat, 2), (ea.toNat, 1), (eb.toNat, 0)]]
  | .vsar d a b ea eb => [encWord 0 0x12 23 [(d.toNat, 16), (a.toNat, 9), (b.toNat, 2), (ea.toNat, 1), (eb.toNat, 0)]]
  | .vrol d a b ea eb => [encWord 0 0x13 23 [(d.toNat, 16), (a.toNat, 9), (b.toNat, 2), (ea.toNat, 1), (eb.toNat, 0)]]
  | .vclz d a ea eb => [encWord 0 0x14 23 [(d.toNat, 16), (a.toNat, 9), (ea.toNat, 1), (eb.toNat, 0), (0x70, 2)]]
  | .vpopc d a ea eb => [encWord 0 0x15 23 [(d.toNat, 16), (a.toNat, 9), (ea.toNat, 1), (eb.toNat, 0), (0x70, 2)]]
  | .vbrev d a ea eb => [encWord 0 0x16 23 [(d.toNat, 16), (a.toNat, 9), (ea.toNat, 1), (eb.toNat, 0), (0x70, 2)]]
  | .viabs d a ea eb => [encWord 0 0x17 23 [(d.toNat, 16), (a.toNat, 9), (ea.toNat, 1), (eb.toNat, 0), (0x70, 2)]]
  | .vfadd d a b ea eb => [encWord 0 0x18 23 [(d.toNat, 16), (a.toNat, 9), (b.toNat, 2), (ea.toNat, 1), (eb.toNat, 0)]]
  | .vfsub d a b ea eb => [encWord 0 0x19 23 [(d.toNat, 16), (a.toNat, 9), (b.toNat, 2), (ea.toNat, 1), (eb.toNat, 0)]]
  | .vfmul d a b ea eb => [encWord 0 0x1A 23 [(d.toNat, 16), (a.toNat, 9), (b.toNat, 2), (ea.toNat, 1), (eb.toNat, 0)]]
  | .vfma d a b ea eb => [encWord 0 0x1B 23 [(d.toNat, 16), (a.toNat, 9), (b.toNat, 2), (ea.toNat, 1), (eb.toNat, 0)]]
  | .vfnma d a b ea eb => [encWord 0 0x1C 23 [(d.toNat, 16), (a.toNat, 9), (b.toNat, 2), (ea.toNat, 1), (eb.toNat, 0)]]
  | .vfmin d a b ea eb => [encWord 0 0x1D 23 [(d.toNat, 16), (a.toNat, 9), (b.toNat, 2), (ea.toNat, 1), (eb.toNat, 0)]]
  | .vfmax d a b ea eb => [encWord 0 0x1E 23 [(d.toNat, 16), (a.toNat, 9), (b.toNat, 2), (ea.toNat, 1), (eb.toNat, 0)]]
  | .vfcopysign d a b ea eb => [encWord 0 0x1F 23 [(d.toNat, 16), (a.toNat, 9), (b.toNat, 2), (ea.toNat, 1), (eb.toNat, 0)]]
  | .vhaddBf d a b ea eb => [encWord 0 0x20 23 [(d.toNat, 16), (a.toNat, 9), (b.toNat, 2), (ea.toNat, 1), (eb.toNat, 0)]]
  | .vhmulBf d a b ea eb => [encWord 0 0x21 23 [(d.toNat, 16), (a.toNat, 9), (b.toNat, 2), (ea.toNat, 1), (eb.toNat, 0)]]
  | .vhfmaBf d a b ea eb => [encWord 0 0x22 23 [(d.toNat, 16), (a.toNat, 9), (b.toNat, 2), (ea.toNat, 1), (eb.toNat, 0)]]
  | .vhaddH d a b ea eb => [encWord 0 0x23 23 [(d.toNat, 16), (a.toNat, 9), (b.toNat, 2), (ea.toNat, 1), (eb.toNat, 0)]]
  | .vhmulH d a b ea eb => [encWord 0 0x24 23 [(d.toNat, 16), (a.toNat, 9), (b.toNat, 2), (ea.toNat, 1), (eb.toNat, 0)]]
  | .vhfmaH d a b ea eb => [encWord 0 0x25 23 [(d.toNat, 16), (a.toNat, 9), (b.toNat, 2), (ea.toNat, 1), (eb.toNat, 0)]]
  | .vdot2Bf d a b ea eb => [encWord 0 0x26 23 [(d.toNat, 16), (a.toNat, 9), (b.toNat, 2), (ea.toNat, 1), (eb.toNat, 0)]]
  | .vdot4I8 d a b ea eb => [encWord 0 0x27 23 [(d.toNat, 16), (a.toNat, 9), (b.toNat, 2), (ea.toNat, 1), (eb.toNat, 0)]]
  | .vmov d a ea eb => [encWord 0 0x28 23 [(d.toNat, 16), (a.toNat, 9), (ea.toNat, 1), (eb.toNat, 0), (0x70, 2)]]
  | .vfabs d a ea eb => [encWord 0 0x29 23 [(d.toNat, 16), (a.toNat, 9), (ea.toNat, 1), (eb.toNat, 0), (0x70, 2)]]
  | .vfneg d a ea eb => [encWord 0 0x2A 23 [(d.toNat, 16), (a.toNat, 9), (ea.toNat, 1), (eb.toNat, 0), (0x70, 2)]]
  | .viaddi d e imm => [encWord 1 0x00 24 [(d.toNat, 17), (e.toNat, 16), (imm.toNat, 0)]]
  | .vandi d e imm => [encWord 1 0x01 24 [(d.toNat, 17), (e.toNat, 16), (imm.toNat, 0)]]
  | .vori d e imm => [encWord 1 0x02 24 [(d.toNat, 17), (e.toNat, 16), (imm.toNat, 0)]]
  | .vxori d e imm => [encWord 1 0x03 24 [(d.toNat, 17), (e.toNat, 16), (imm.toNat, 0)]]
  | .vmovi d imm => [encWord 1 0x04 24 [(d.toNat, 17), (imm.toNat, 0)]]
  | .vmovhi d e imm => [encWord 1 0x05 24 [(d.toNat, 17), (e.toNat, 16), (imm.toNat, 0)]]
  | .vshli d e imm => [encWord 1 0x06 24 [(d.toNat, 17), (e.toNat, 16), (imm.toNat, 0)]]
  | .vshri d e imm => [encWord 1 0x07 24 [(d.toNat, 17), (e.toNat, 16), (imm.toNat, 0)]]
  | .vsari d e imm => [encWord 1 0x08 24 [(d.toNat, 17), (e.toNat, 16), (imm.toNat, 0)]]
  | .vimuli d e imm => [encWord 1 0x09 24 [(d.toNat, 17), (e.toNat, 16), (imm.toNat, 0)]]
  | .vfaddi d e imm => [encWord 1 0x0A 24 [(d.toNat, 17), (e.toNat, 16), (imm.toNat, 0)]]
  | .vfmuli d e imm => [encWord 1 0x0B 24 [(d.toNat, 17), (e.toNat, 16), (imm.toNat, 0)]]
  | .vmovfi d imm => [encWord 1 0x0C 24 [(d.toNat, 17), (imm.toNat, 0)]]
  | .vlanei d imm => [encWord 1 0x0D 24 [(d.toNat, 17), (imm.toNat, 0)]]
  | .vcmpEq pd a b c ea eb => [encWord 2 0x00 23 [(pd.toNat, 18), (a.toNat, 11), (b.toNat, 4), (c.toNat, 2), (ea.toNat, 1), (eb.toNat, 0)]]
  | .vcmpNe pd a b c ea eb => [encWord 2 0x01 23 [(pd.toNat, 18), (a.toNat, 11), (b.toNat, 4), (c.toNat, 2), (ea.toNat, 1), (eb.toNat, 0)]]
  | .vcmpLt pd a b c ea eb => [encWord 2 0x02 23 [(pd.toNat, 18), (a.toNat, 11), (b.toNat, 4), (c.toNat, 2), (ea.toNat, 1), (eb.toNat, 0)]]
  | .vcmpLe pd a b c ea eb => [encWord 2 0x03 23 [(pd.toNat, 18), (a.toNat, 11), (b.toNat, 4), (c.toNat, 2), (ea.toNat, 1), (eb.toNat, 0)]]
  | .vcmpGt pd a b c ea eb => [encWord 2 0x04 23 [(pd.toNat, 18), (a.toNat, 11), (b.toNat, 4), (c.toNat, 2), (ea.toNat, 1), (eb.toNat, 0)]]
  | .vcmpGe pd a b c ea eb => [encWord 2 0x05 23 [(pd.toNat, 18), (a.toNat, 11), (b.toNat, 4), (c.toNat, 2), (ea.toNat, 1), (eb.toNat, 0)]]
  | .vcmpLtu pd a b c ea eb => [encWord 2 0x06 23 [(pd.toNat, 18), (a.toNat, 11), (b.toNat, 4), (c.toNat, 2), (ea.toNat, 1), (eb.toNat, 0)]]
  | .vcmpLeu pd a b c ea eb => [encWord 2 0x07 23 [(pd.toNat, 18), (a.toNat, 11), (b.toNat, 4), (c.toNat, 2), (ea.toNat, 1), (eb.toNat, 0)]]
  | .vcmpGtu pd a b c ea eb => [encWord 2 0x08 23 [(pd.toNat, 18), (a.toNat, 11), (b.toNat, 4), (c.toNat, 2), (ea.toNat, 1), (eb.toNat, 0)]]
  | .vcmpGeu pd a b c ea eb => [encWord 2 0x09 23 [(pd.toNat, 18), (a.toNat, 11), (b.toNat, 4), (c.toNat, 2), (ea.toNat, 1), (eb.toNat, 0)]]
  | .vfcmpEq pd a b c ea eb => [encWord 2 0x0A 23 [(pd.toNat, 18), (a.toNat, 11), (b.toNat, 4), (c.toNat, 2), (ea.toNat, 1), (eb.toNat, 0)]]
  | .vfcmpNe pd a b c ea eb => [encWord 2 0x0B 23 [(pd.toNat, 18), (a.toNat, 11), (b.toNat, 4), (c.toNat, 2), (ea.toNat, 1), (eb.toNat, 0)]]
  | .vfcmpLt pd a b c ea eb => [encWord 2 0x0C 23 [(pd.toNat, 18), (a.toNat, 11), (b.toNat, 4), (c.toNat, 2), (ea.toNat, 1), (eb.toNat, 0)]]
  | .vfcmpLe pd a b c ea eb => [encWord 2 0x0D 23 [(pd.toNat, 18), (a.toNat, 11), (b.toNat, 4), (c.toNat, 2), (ea.toNat, 1), (eb.toNat, 0)]]
  | .vfcmpUn pd a b c ea eb => [encWord 2 0x0E 23 [(pd.toNat, 18), (a.toNat, 11), (b.toNat, 4), (c.toNat, 2), (ea.toNat, 1), (eb.toNat, 0)]]
  | .vfclass pd a b c ea eb => [encWord 2 0x0F 23 [(pd.toNat, 18), (a.toNat, 11), (b.toNat, 4), (c.toNat, 2), (ea.toNat, 1), (eb.toNat, 0)]]
  | .vtest pd a b c ea eb => [encWord 2 0x10 23 [(pd.toNat, 18), (a.toNat, 11), (b.toNat, 4), (c.toNat, 2), (ea.toNat, 1), (eb.toNat, 0)]]
  | .pand pd pa pb c => [encWord 2 0x11 23 [(pd.toNat, 18), (pa.toNat, 11), (pb.toNat, 4), (c.toNat, 2)]]
  | .por pd pa pb c => [encWord 2 0x12 23 [(pd.toNat, 18), (pa.toNat, 11), (pb.toNat, 4), (c.toNat, 2)]]
  | .pxor pd pa pb c => [encWord 2 0x13 23 [(pd.toNat, 18), (pa.toNat, 11), (pb.toNat, 4), (c.toNat, 2)]]
  | .pandn pd pa pb c => [encWord 2 0x14 23 [(pd.toNat, 18), (pa.toNat, 11), (pb.toNat, 4), (c.toNat, 2)]]
  | .pnot pd pa c => [encWord 2 0x15 23 [(pd.toNat, 18), (pa.toNat, 11), (c.toNat, 2)]]
  | .pmov pd pa c => [encWord 2 0x16 23 [(pd.toNat, 18), (pa.toNat, 11), (c.toNat, 2)]]
  | .pset pd c => [encWord 2 0x17 23 [(pd.toNat, 18), (c.toNat, 2)]]
  | .pclr pd c => [encWord 2 0x18 23 [(pd.toNat, 18), (c.toNat, 2)]]
  | .ldB d a reuse order scope => [encWord 3 0x00 23 [(d.toNat, 16), (a.toNat, 9), (reuse.toNat, 6), (order.toNat, 4), (scope.toNat, 1)]]
  | .ldBExt d a reuse order scope off => [encWord 3 0x00 23 [(d.toNat, 16), (a.toNat, 9), (reuse.toNat, 6), (order.toNat, 4), (scope.toNat, 1), (1, 0)], off]
  | .ldSb d a reuse order scope => [encWord 3 0x01 23 [(d.toNat, 16), (a.toNat, 9), (reuse.toNat, 6), (order.toNat, 4), (scope.toNat, 1)]]
  | .ldSbExt d a reuse order scope off => [encWord 3 0x01 23 [(d.toNat, 16), (a.toNat, 9), (reuse.toNat, 6), (order.toNat, 4), (scope.toNat, 1), (1, 0)], off]
  | .ldH d a reuse order scope => [encWord 3 0x02 23 [(d.toNat, 16), (a.toNat, 9), (reuse.toNat, 6), (order.toNat, 4), (scope.toNat, 1)]]
  | .ldHExt d a reuse order scope off => [encWord 3 0x02 23 [(d.toNat, 16), (a.toNat, 9), (reuse.toNat, 6), (order.toNat, 4), (scope.toNat, 1), (1, 0)], off]
  | .ldSh d a reuse order scope => [encWord 3 0x03 23 [(d.toNat, 16), (a.toNat, 9), (reuse.toNat, 6), (order.toNat, 4), (scope.toNat, 1)]]
  | .ldShExt d a reuse order scope off => [encWord 3 0x03 23 [(d.toNat, 16), (a.toNat, 9), (reuse.toNat, 6), (order.toNat, 4), (scope.toNat, 1), (1, 0)], off]
  | .ldW d a reuse order scope => [encWord 3 0x04 23 [(d.toNat, 16), (a.toNat, 9), (reuse.toNat, 6), (order.toNat, 4), (scope.toNat, 1)]]
  | .ldWExt d a reuse order scope off => [encWord 3 0x04 23 [(d.toNat, 16), (a.toNat, 9), (reuse.toNat, 6), (order.toNat, 4), (scope.toNat, 1), (1, 0)], off]
  | .ldD d a reuse order scope => [encWord 3 0x05 23 [(d.toNat, 16), (a.toNat, 9), (reuse.toNat, 6), (order.toNat, 4), (scope.toNat, 1)]]
  | .ldDExt d a reuse order scope off => [encWord 3 0x05 23 [(d.toNat, 16), (a.toNat, 9), (reuse.toNat, 6), (order.toNat, 4), (scope.toNat, 1), (1, 0)], off]
  | .ldQ d a reuse order scope => [encWord 3 0x06 23 [(d.toNat, 16), (a.toNat, 9), (reuse.toNat, 6), (order.toNat, 4), (scope.toNat, 1)]]
  | .ldQExt d a reuse order scope off => [encWord 3 0x06 23 [(d.toNat, 16), (a.toNat, 9), (reuse.toNat, 6), (order.toNat, 4), (scope.toNat, 1), (1, 0)], off]
  | .ldpk6 d a reuse order scope => [encWord 3 0x07 23 [(d.toNat, 16), (a.toNat, 9), (reuse.toNat, 6), (order.toNat, 4), (scope.toNat, 1)]]
  | .ldpk6Ext d a reuse order scope off => [encWord 3 0x07 23 [(d.toNat, 16), (a.toNat, 9), (reuse.toNat, 6), (order.toNat, 4), (scope.toNat, 1), (1, 0)], off]
  | .ldpk4 d a reuse order scope => [encWord 3 0x08 23 [(d.toNat, 16), (a.toNat, 9), (reuse.toNat, 6), (order.toNat, 4), (scope.toNat, 1)]]
  | .ldpk4Ext d a reuse order scope off => [encWord 3 0x08 23 [(d.toNat, 16), (a.toNat, 9), (reuse.toNat, 6), (order.toNat, 4), (scope.toNat, 1), (1, 0)], off]
  | .stB d a reuse order scope => [encWord 3 0x09 23 [(d.toNat, 16), (a.toNat, 9), (reuse.toNat, 6), (order.toNat, 4), (scope.toNat, 1)]]
  | .stBExt d a reuse order scope off => [encWord 3 0x09 23 [(d.toNat, 16), (a.toNat, 9), (reuse.toNat, 6), (order.toNat, 4), (scope.toNat, 1), (1, 0)], off]
  | .stH d a reuse order scope => [encWord 3 0x0A 23 [(d.toNat, 16), (a.toNat, 9), (reuse.toNat, 6), (order.toNat, 4), (scope.toNat, 1)]]
  | .stHExt d a reuse order scope off => [encWord 3 0x0A 23 [(d.toNat, 16), (a.toNat, 9), (reuse.toNat, 6), (order.toNat, 4), (scope.toNat, 1), (1, 0)], off]
  | .stW d a reuse order scope => [encWord 3 0x0B 23 [(d.toNat, 16), (a.toNat, 9), (reuse.toNat, 6), (order.toNat, 4), (scope.toNat, 1)]]
  | .stWExt d a reuse order scope off => [encWord 3 0x0B 23 [(d.toNat, 16), (a.toNat, 9), (reuse.toNat, 6), (order.toNat, 4), (scope.toNat, 1), (1, 0)], off]
  | .stD d a reuse order scope => [encWord 3 0x0C 23 [(d.toNat, 16), (a.toNat, 9), (reuse.toNat, 6), (order.toNat, 4), (scope.toNat, 1)]]
  | .stDExt d a reuse order scope off => [encWord 3 0x0C 23 [(d.toNat, 16), (a.toNat, 9), (reuse.toNat, 6), (order.toNat, 4), (scope.toNat, 1), (1, 0)], off]
  | .stQ d a reuse order scope => [encWord 3 0x0D 23 [(d.toNat, 16), (a.toNat, 9), (reuse.toNat, 6), (order.toNat, 4), (scope.toNat, 1)]]
  | .stQExt d a reuse order scope off => [encWord 3 0x0D 23 [(d.toNat, 16), (a.toNat, 9), (reuse.toNat, 6), (order.toNat, 4), (scope.toNat, 1), (1, 0)], off]
  | .ldsW d a order scope => [encWord 3 0x0E 23 [(d.toNat, 16), (a.toNat, 9), (order.toNat, 4), (scope.toNat, 1)]]
  | .ldsWExt d a order scope off => [encWord 3 0x0E 23 [(d.toNat, 16), (a.toNat, 9), (order.toNat, 4), (scope.toNat, 1), (1, 0)], off]
  | .ldsD d a order scope => [encWord 3 0x0F 23 [(d.toNat, 16), (a.toNat, 9), (order.toNat, 4), (scope.toNat, 1)]]
  | .ldsDExt d a order scope off => [encWord 3 0x0F 23 [(d.toNat, 16), (a.toNat, 9), (order.toNat, 4), (scope.toNat, 1), (1, 0)], off]
  | .ldsQ d a order scope => [encWord 3 0x10 23 [(d.toNat, 16), (a.toNat, 9), (order.toNat, 4), (scope.toNat, 1)]]
  | .ldsQExt d a order scope off => [encWord 3 0x10 23 [(d.toNat, 16), (a.toNat, 9), (order.toNat, 4), (scope.toNat, 1), (1, 0)], off]
  | .stsB d a order scope => [encWord 3 0x11 23 [(d.toNat, 16), (a.toNat, 9), (order.toNat, 4), (scope.toNat, 1)]]
  | .stsBExt d a order scope off => [encWord 3 0x11 23 [(d.toNat, 16), (a.toNat, 9), (order.toNat, 4), (scope.toNat, 1), (1, 0)], off]
  | .stsH d a order scope => [encWord 3 0x12 23 [(d.toNat, 16), (a.toNat, 9), (order.toNat, 4), (scope.toNat, 1)]]
  | .stsHExt d a order scope off => [encWord 3 0x12 23 [(d.toNat, 16), (a.toNat, 9), (order.toNat, 4), (scope.toNat, 1), (1, 0)], off]
  | .stsW d a order scope => [encWord 3 0x13 23 [(d.toNat, 16), (a.toNat, 9), (order.toNat, 4), (scope.toNat, 1)]]
  | .stsWExt d a order scope off => [encWord 3 0x13 23 [(d.toNat, 16), (a.toNat, 9), (order.toNat, 4), (scope.toNat, 1), (1, 0)], off]
  | .stsD d a order scope => [encWord 3 0x14 23 [(d.toNat, 16), (a.toNat, 9), (order.toNat, 4), (scope.toNat, 1)]]
  | .stsDExt d a order scope off => [encWord 3 0x14 23 [(d.toNat, 16), (a.toNat, 9), (order.toNat, 4), (scope.toNat, 1), (1, 0)], off]
  | .stsQ d a order scope => [encWord 3 0x15 23 [(d.toNat, 16), (a.toNat, 9), (order.toNat, 4), (scope.toNat, 1)]]
  | .stsQExt d a order scope off => [encWord 3 0x15 23 [(d.toNat, 16), (a.toNat, 9), (order.toNat, 4), (scope.toNat, 1), (1, 0)], off]
  | .atomAdd d a reuse order scope => [encWord 3 0x16 23 [(d.toNat, 16), (a.toNat, 9), (reuse.toNat, 6), (order.toNat, 4), (scope.toNat, 1)]]
  | .atomAddExt d a reuse order scope off => [encWord 3 0x16 23 [(d.toNat, 16), (a.toNat, 9), (reuse.toNat, 6), (order.toNat, 4), (scope.toNat, 1), (1, 0)], off]
  | .atomFadd d a reuse order scope => [encWord 3 0x17 23 [(d.toNat, 16), (a.toNat, 9), (reuse.toNat, 6), (order.toNat, 4), (scope.toNat, 1)]]
  | .atomFaddExt d a reuse order scope off => [encWord 3 0x17 23 [(d.toNat, 16), (a.toNat, 9), (reuse.toNat, 6), (order.toNat, 4), (scope.toNat, 1), (1, 0)], off]
  | .atomHfaddBf d a reuse order scope => [encWord 3 0x18 23 [(d.toNat, 16), (a.toNat, 9), (reuse.toNat, 6), (order.toNat, 4), (scope.toNat, 1)]]
  | .atomHfaddBfExt d a reuse order scope off => [encWord 3 0x18 23 [(d.toNat, 16), (a.toNat, 9), (reuse.toNat, 6), (order.toNat, 4), (scope.toNat, 1), (1, 0)], off]
  | .atomMin d a reuse order scope => [encWord 3 0x19 23 [(d.toNat, 16), (a.toNat, 9), (reuse.toNat, 6), (order.toNat, 4), (scope.toNat, 1)]]
  | .atomMinExt d a reuse order scope off => [encWord 3 0x19 23 [(d.toNat, 16), (a.toNat, 9), (reuse.toNat, 6), (order.toNat, 4), (scope.toNat, 1), (1, 0)], off]
  | .atomMax d a reuse order scope => [encWord 3 0x1A 23 [(d.toNat, 16), (a.toNat, 9), (reuse.toNat, 6), (order.toNat, 4), (scope.toNat, 1)]]
  | .atomMaxExt d a reuse order scope off => [encWord 3 0x1A 23 [(d.toNat, 16), (a.toNat, 9), (reuse.toNat, 6), (order.toNat, 4), (scope.toNat, 1), (1, 0)], off]
  | .atomMinu d a reuse order scope => [encWord 3 0x1B 23 [(d.toNat, 16), (a.toNat, 9), (reuse.toNat, 6), (order.toNat, 4), (scope.toNat, 1)]]
  | .atomMinuExt d a reuse order scope off => [encWord 3 0x1B 23 [(d.toNat, 16), (a.toNat, 9), (reuse.toNat, 6), (order.toNat, 4), (scope.toNat, 1), (1, 0)], off]
  | .atomMaxu d a reuse order scope => [encWord 3 0x1C 23 [(d.toNat, 16), (a.toNat, 9), (reuse.toNat, 6), (order.toNat, 4), (scope.toNat, 1)]]
  | .atomMaxuExt d a reuse order scope off => [encWord 3 0x1C 23 [(d.toNat, 16), (a.toNat, 9), (reuse.toNat, 6), (order.toNat, 4), (scope.toNat, 1), (1, 0)], off]
  | .atomAnd d a reuse order scope => [encWord 3 0x1D 23 [(d.toNat, 16), (a.toNat, 9), (reuse.toNat, 6), (order.toNat, 4), (scope.toNat, 1)]]
  | .atomAndExt d a reuse order scope off => [encWord 3 0x1D 23 [(d.toNat, 16), (a.toNat, 9), (reuse.toNat, 6), (order.toNat, 4), (scope.toNat, 1), (1, 0)], off]
  | .atomOr d a reuse order scope => [encWord 3 0x1E 23 [(d.toNat, 16), (a.toNat, 9), (reuse.toNat, 6), (order.toNat, 4), (scope.toNat, 1)]]
  | .atomOrExt d a reuse order scope off => [encWord 3 0x1E 23 [(d.toNat, 16), (a.toNat, 9), (reuse.toNat, 6), (order.toNat, 4), (scope.toNat, 1), (1, 0)], off]
  | .atomXor d a reuse order scope => [encWord 3 0x1F 23 [(d.toNat, 16), (a.toNat, 9), (reuse.toNat, 6), (order.toNat, 4), (scope.toNat, 1)]]
  | .atomXorExt d a reuse order scope off => [encWord 3 0x1F 23 [(d.toNat, 16), (a.toNat, 9), (reuse.toNat, 6), (order.toNat, 4), (scope.toNat, 1), (1, 0)], off]
  | .atomXchg d a reuse order scope => [encWord 3 0x20 23 [(d.toNat, 16), (a.toNat, 9), (reuse.toNat, 6), (order.toNat, 4), (scope.toNat, 1)]]
  | .atomXchgExt d a reuse order scope off => [encWord 3 0x20 23 [(d.toNat, 16), (a.toNat, 9), (reuse.toNat, 6), (order.toNat, 4), (scope.toNat, 1), (1, 0)], off]
  | .atomCas d a reuse order scope => [encWord 3 0x21 23 [(d.toNat, 16), (a.toNat, 9), (reuse.toNat, 6), (order.toNat, 4), (scope.toNat, 1)]]
  | .atomCasExt d a reuse order scope off => [encWord 3 0x21 23 [(d.toNat, 16), (a.toNat, 9), (reuse.toNat, 6), (order.toNat, 4), (scope.toNat, 1), (1, 0)], off]
  | .atomCasD d a reuse order scope => [encWord 3 0x22 23 [(d.toNat, 16), (a.toNat, 9), (reuse.toNat, 6), (order.toNat, 4), (scope.toNat, 1)]]
  | .atomCasDExt d a reuse order scope off => [encWord 3 0x22 23 [(d.toNat, 16), (a.toNat, 9), (reuse.toNat, 6), (order.toNat, 4), (scope.toNat, 1), (1, 0)], off]
  | .atomsAdd d a order scope => [encWord 3 0x23 23 [(d.toNat, 16), (a.toNat, 9), (order.toNat, 4), (scope.toNat, 1)]]
  | .atomsAddExt d a order scope off => [encWord 3 0x23 23 [(d.toNat, 16), (a.toNat, 9), (order.toNat, 4), (scope.toNat, 1), (1, 0)], off]
  | .atomsFadd d a order scope => [encWord 3 0x24 23 [(d.toNat, 16), (a.toNat, 9), (order.toNat, 4), (scope.toNat, 1)]]
  | .atomsFaddExt d a order scope off => [encWord 3 0x24 23 [(d.toNat, 16), (a.toNat, 9), (order.toNat, 4), (scope.toNat, 1), (1, 0)], off]
  | .atomsMin d a order scope => [encWord 3 0x25 23 [(d.toNat, 16), (a.toNat, 9), (order.toNat, 4), (scope.toNat, 1)]]
  | .atomsMinExt d a order scope off => [encWord 3 0x25 23 [(d.toNat, 16), (a.toNat, 9), (order.toNat, 4), (scope.toNat, 1), (1, 0)], off]
  | .atomsMax d a order scope => [encWord 3 0x26 23 [(d.toNat, 16), (a.toNat, 9), (order.toNat, 4), (scope.toNat, 1)]]
  | .atomsMaxExt d a order scope off => [encWord 3 0x26 23 [(d.toNat, 16), (a.toNat, 9), (order.toNat, 4), (scope.toNat, 1), (1, 0)], off]
  | .atomsXchg d a order scope => [encWord 3 0x27 23 [(d.toNat, 16), (a.toNat, 9), (order.toNat, 4), (scope.toNat, 1)]]
  | .atomsXchgExt d a order scope off => [encWord 3 0x27 23 [(d.toNat, 16), (a.toNat, 9), (order.toNat, 4), (scope.toNat, 1), (1, 0)], off]
  | .atomsCas d a order scope => [encWord 3 0x28 23 [(d.toNat, 16), (a.toNat, 9), (order.toNat, 4), (scope.toNat, 1)]]
  | .atomsCasExt d a order scope off => [encWord 3 0x28 23 [(d.toNat, 16), (a.toNat, 9), (order.toNat, 4), (scope.toNat, 1), (1, 0)], off]
  | .fence order scope => [encWord 3 0x29 23 [(order.toNat, 4), (scope.toNat, 1)]]
  | .pref a reuse => [encWord 3 0x2A 23 [(a.toNat, 9), (reuse.toNat, 6)]]
  | .prefExt a reuse off => [encWord 3 0x2A 23 [(a.toNat, 9), (reuse.toNat, 6), (1, 0)], off]
  | .sadd sd sa sb => [encWord 4 0x00 23 [(sd.toNat, 18), (sa.toNat, 13), (sb.toNat, 8)]]
  | .ssub sd sa sb => [encWord 4 0x01 23 [(sd.toNat, 18), (sa.toNat, 13), (sb.toNat, 8)]]
  | .smul sd sa sb => [encWord 4 0x02 23 [(sd.toNat, 18), (sa.toNat, 13), (sb.toNat, 8)]]
  | .smulhu sd sa sb => [encWord 4 0x03 23 [(sd.toNat, 18), (sa.toNat, 13), (sb.toNat, 8)]]
  | .sand sd sa sb => [encWord 4 0x04 23 [(sd.toNat, 18), (sa.toNat, 13), (sb.toNat, 8)]]
  | .sor sd sa sb => [encWord 4 0x05 23 [(sd.toNat, 18), (sa.toNat, 13), (sb.toNat, 8)]]
  | .sxor sd sa sb => [encWord 4 0x06 23 [(sd.toNat, 18), (sa.toNat, 13), (sb.toNat, 8)]]
  | .sshl sd sa sb => [encWord 4 0x07 23 [(sd.toNat, 18), (sa.toNat, 13), (sb.toNat, 8)]]
  | .sshr sd sa sb => [encWord 4 0x08 23 [(sd.toNat, 18), (sa.toNat, 13), (sb.toNat, 8)]]
  | .ssar sd sa sb => [encWord 4 0x09 23 [(sd.toNat, 18), (sa.toNat, 13), (sb.toNat, 8)]]
  | .smin sd sa sb => [encWord 4 0x0A 23 [(sd.toNat, 18), (sa.toNat, 13), (sb.toNat, 8)]]
  | .smax sd sa sb => [encWord 4 0x0B 23 [(sd.toNat, 18), (sa.toNat, 13), (sb.toNat, 8)]]
  | .sminu sd sa sb => [encWord 4 0x0C 23 [(sd.toNat, 18), (sa.toNat, 13), (sb.toNat, 8)]]
  | .smaxu sd sa sb => [encWord 4 0x0D 23 [(sd.toNat, 18), (sa.toNat, 13), (sb.toNat, 8)]]
  | .sseq sd sa sb => [encWord 4 0x0E 23 [(sd.toNat, 18), (sa.toNat, 13), (sb.toNat, 8)]]
  | .sslt sd sa sb => [encWord 4 0x0F 23 [(sd.toNat, 18), (sa.toNat, 13), (sb.toNat, 8)]]
  | .ssltu sd sa sb => [encWord 4 0x10 23 [(sd.toNat, 18), (sa.toNat, 13), (sb.toNat, 8)]]
  | .saddi sd sa imm => [encWord 4 0x11 23 [(sd.toNat, 18), (sa.toNat, 13), (imm.toNat, 0)]]
  | .sandi sd sa imm => [encWord 4 0x12 23 [(sd.toNat, 18), (sa.toNat, 13), (imm.toNat, 0)]]
  | .sori sd sa imm => [encWord 4 0x13 23 [(sd.toNat, 18), (sa.toNat, 13), (imm.toNat, 0)]]
  | .sxori sd sa imm => [encWord 4 0x14 23 [(sd.toNat, 18), (sa.toNat, 13), (imm.toNat, 0)]]
  | .smovi sd imm => [encWord 4 0x15 23 [(sd.toNat, 18), (imm.toNat, 0)]]
  | .smovhi sd imm => [encWord 4 0x16 23 [(sd.toNat, 18), (imm.toNat, 0)]]
  | .sshli sd sa imm => [encWord 4 0x17 23 [(sd.toNat, 18), (sa.toNat, 13), (imm.toNat, 0)]]
  | .sshri sd sa imm => [encWord 4 0x18 23 [(sd.toNat, 18), (sa.toNat, 13), (imm.toNat, 0)]]
  | .sldW sd sa imm => [encWord 4 0x19 23 [(sd.toNat, 18), (sa.toNat, 13), (imm.toNat, 0)]]
  | .sldD sd sa imm => [encWord 4 0x1A 23 [(sd.toNat, 18), (sa.toNat, 13), (imm.toNat, 0)]]
  | .sstW sd sa imm => [encWord 4 0x1B 23 [(sd.toNat, 18), (sa.toNat, 13), (imm.toNat, 0)]]
  | .movsr s n => [encWord 4 0x1C 23 [(s.toNat, 18), (n.toNat, 12)]]
  | .movsw s n => [encWord 4 0x1D 23 [(s.toNat, 18), (n.toNat, 12)]]
  | .bra p neg off => [encWord 4 0x20 23 [(p.toNat, 18), (neg.toNat, 17), (off.toNat, 0)]]
  | .brau p neg off => [encWord 4 0x21 23 [(p.toNat, 18), (neg.toNat, 17), (off.toNat, 0)]]
  | .braany p neg off => [encWord 4 0x22 23 [(p.toNat, 18), (neg.toNat, 17), (off.toNat, 0)]]
  | .braall p neg off => [encWord 4 0x23 23 [(p.toNat, 18), (neg.toNat, 17), (off.toNat, 0)]]
  | .call p neg off => [encWord 4 0x24 23 [(p.toNat, 18), (neg.toNat, 17), (off.toNat, 0)]]
  | .ret a ea => [encWord 4 0x25 23 [(a.toNat, 16), (ea.toNat, 15)]]
  | .jmpv a ea => [encWord 4 0x26 23 [(a.toNat, 16), (ea.toNat, 15)]]
  | .loop lc sa len => [encWord 4 0x27 23 [(lc.toNat, 21), (sa.toNat, 16), (len.toNat, 0)]]
  | .loopi lc n len => [encWord 4 0x28 23 [(lc.toNat, 21), (n.toNat, 11), (len.toNat, 0)]]
  | .exit => [encWord 4 0x29 23 []]
  | .nop => [encWord 4 0x2A 23 []]
  | .yield => [encWord 4 0x2B 23 []]
  | .suspend ec t off => [encWord 4 0x2C 23 [(ec.toNat, 20), (t.toNat, 16), (off.toNat, 0)]]
  | .elect pd => [encWord 4 0x2D 23 [(pd.toNat, 18)]]
  | .trap code => [encWord 4 0x2E 23 [(code.toNat, 0)]]
  | .tret => [encWord 4 0x2F 23 []]
  | .tstamp sd => [encWord 4 0x30 23 [(sd.toNat, 18)]]
  | .cycle sd => [encWord 4 0x31 23 [(sd.toNat, 18)]]
  | .mma s ec => [encWord 5 0x00 23 [(s.toNat, 18), (ec.toNat, 15)]]
  | .acczero s ec eng => [encWord 5 0x01 23 [(s.toNat, 18), (ec.toNat, 15), (eng.toNat, 0)]]
  | .accrd s ec eng d => [encWord 5 0x02 23 [(s.toNat, 18), (ec.toNat, 15), (eng.toNat, 7), (d.toNat, 0)]]
  | .accwr s ec eng d => [encWord 5 0x03 23 [(s.toNat, 18), (ec.toNat, 15), (eng.toNat, 7), (d.toNat, 0)]]
  | .accdrain s ec => [encWord 5 0x04 23 [(s.toNat, 18), (ec.toNat, 15)]]
  | .copy s ec => [encWord 5 0x05 23 [(s.toNat, 18), (ec.toNat, 15)]]
  | .gather s ec => [encWord 5 0x06 23 [(s.toNat, 18), (ec.toNat, 15)]]
  | .scatter s ec => [encWord 5 0x07 23 [(s.toNat, 18), (ec.toNat, 15)]]
  | .coll s ec => [encWord 5 0x08 23 [(s.toNat, 18), (ec.toNat, 15)]]
  | .cbload s ec eng => [encWord 5 0x09 23 [(s.toNat, 18), (ec.toNat, 15), (eng.toNat, 0)]]
  | .actload s ec => [encWord 5 0x0A 23 [(s.toNat, 18), (ec.toNat, 15)]]
  | .objdecl s sd => [encWord 5 0x0B 23 [(s.toNat, 18), (sd.toNat, 0)]]
  | .objfree s ec => [encWord 5 0x0C 23 [(s.toNat, 18), (ec.toNat, 15)]]
  | .tokreq s ec => [encWord 5 0x0D 23 [(s.toNat, 18), (ec.toNat, 15)]]
  | .tokrel s ec => [encWord 5 0x0E 23 [(s.toNat, 18), (ec.toNat, 15)]]
  | .launch s sd => [encWord 5 0x0F 23 [(s.toNat, 18), (sd.toNat, 0)]]
  | .waitchild => [encWord 5 0x10 23 []]
  | .succok => [encWord 5 0x11 23 []]
  | .waitpred => [encWord 5 0x12 23 []]
  | .tbar b => [encWord 5 0x13 23 [(b.toNat, 0)]]
  | .tarrive b => [encWord 5 0x14 23 [(b.toNat, 0)]]
  | .gbar => [encWord 5 0x15 23 []]
  | .evinc ec n => [encWord 5 0x16 23 [(ec.toNat, 15), (n.toNat, 0)]]
  | .evdec ec n => [encWord 5 0x17 23 [(ec.toNat, 15), (n.toNat, 0)]]
  | .phaseend s ec => [encWord 5 0x19 23 [(s.toNat, 18), (ec.toNat, 15)]]
  | .ensure s => [encWord 5 0x1A 23 [(s.toNat, 18)]]
  | .elseby => [encWord 5 0x1B 23 []]
  | .elseerr code => [encWord 5 0x1C 23 [(code.toNat, 0)]]
  | .accept p => [encWord 5 0x1D 23 [(p.toNat, 18)]]
  | .reject => [encWord 5 0x1E 23 []]
  | .convjoin s => [encWord 5 0x1F 23 [(s.toNat, 18)]]
  | .convleave s => [encWord 5 0x20 23 [(s.toNat, 18)]]
  | .rbegin => [encWord 5 0x21 23 []]
  | .rend => [encWord 5 0x22 23 []]
  | .rstat sd sel => [encWord 5 0x23 23 [(sd.toNat, 18), (sel.toNat, 0)]]
  | .telect pd => [encWord 5 0x24 23 [(pd.toNat, 18)]]
  | .meter sd => [encWord 5 0x25 23 [(sd.toNat, 18)]]
  | .vfma3 d a b c ea eb pg neg rm st dt => [encWord 6 0x00 23 [(d.toNat, 16), (a.toNat, 9), (b.toNat, 2), (ea.toNat, 1), (eb.toNat, 0)], encSecond [(c.toNat, 25), (pg.toNat, 20), (neg.toNat, 19), (rm.toNat, 16), (st.toNat, 12), (dt.toNat, 8)]]
  | .vsel d a b ea eb pg neg => [encWord 6 0x01 23 [(d.toNat, 16), (a.toNat, 9), (b.toNat, 2), (ea.toNat, 1), (eb.toNat, 0)], encSecond [(pg.toNat, 20), (neg.toNat, 19)]]
  | .vcvt d a ea pg neg rm st dt js jd => [encWord 6 0x02 23 [(d.toNat, 16), (a.toNat, 9), (ea.toNat, 1)], encSecond [(pg.toNat, 20), (neg.toNat, 19), (rm.toNat, 16), (st.toNat, 12), (dt.toNat, 8), (js.toNat, 0), (jd.toNat, 4)]]
  | .vcvti d a ea pg neg rm st dt js jd => [encWord 6 0x03 23 [(d.toNat, 16), (a.toNat, 9), (ea.toNat, 1)], encSecond [(pg.toNat, 20), (neg.toNat, 19), (rm.toNat, 16), (st.toNat, 12), (dt.toNat, 8), (js.toNat, 0), (jd.toNat, 4)]]
  | .vcvtf d a ea pg neg rm st dt js jd => [encWord 6 0x04 23 [(d.toNat, 16), (a.toNat, 9), (ea.toNat, 1)], encSecond [(pg.toNat, 20), (neg.toNat, 19), (rm.toNat, 16), (st.toNat, 12), (dt.toNat, 8), (js.toNat, 0), (jd.toNat, 4)]]
  | .vpack d a b ea eb pg neg rm st dt h => [encWord 6 0x05 23 [(d.toNat, 16), (a.toNat, 9), (b.toNat, 2), (ea.toNat, 1), (eb.toNat, 0)], encSecond [(pg.toNat, 20), (neg.toNat, 19), (rm.toNat, 16), (st.toNat, 12), (dt.toNat, 8), (h.toNat, 0)]]
  | .vunpack d a ea pg neg st dt j => [encWord 6 0x06 23 [(d.toNat, 16), (a.toNat, 9), (ea.toNat, 1)], encSecond [(pg.toNat, 20), (neg.toNat, 19), (st.toNat, 12), (dt.toNat, 8), (j.toNat, 0)]]
  | .vdeq d a b c ea eb pg neg rm st dt j set => [encWord 6 0x07 23 [(d.toNat, 16), (a.toNat, 9), (b.toNat, 2), (ea.toNat, 1), (eb.toNat, 0)], encSecond [(c.toNat, 25), (pg.toNat, 20), (neg.toNat, 19), (rm.toNat, 16), (st.toNat, 12), (dt.toNat, 8), (j.toNat, 0), (set.toNat, 7)]]
  | .vperm d a b c ea eb pg => [encWord 6 0x08 23 [(d.toNat, 16), (a.toNat, 9), (b.toNat, 2), (ea.toNat, 1), (eb.toNat, 0)], encSecond [(c.toNat, 25), (pg.toNat, 20)]]
  | .vshuf d a c ea pg off => [encWord 6 0x09 23 [(d.toNat, 16), (a.toNat, 9), (ea.toNat, 1)], encSecond [(c.toNat, 25), (pg.toNat, 20), (off.toNat, 0)]]
  | .vlogred d a c ea pg rm op => [encWord 6 0x0A 23 [(d.toNat, 16), (a.toNat, 9), (ea.toNat, 1)], encSecond [(c.toNat, 25), (pg.toNat, 20), (rm.toNat, 16), (op.toNat, 0)]]
  | .vscan d a c ea pg rm op excl => [encWord 6 0x0B 23 [(d.toNat, 16), (a.toNat, 9), (ea.toNat, 1)], encSecond [(c.toNat, 25), (pg.toNat, 20), (rm.toNat, 16), (op.toNat, 0), (excl.toNat, 4)]]
  | .vbcast d a c ea pg lane => [encWord 6 0x0C 23 [(d.toNat, 16), (a.toNat, 9), (ea.toNat, 1)], encSecond [(c.toNat, 25), (pg.toNat, 20), (lane.toNat, 0)]]
  | .vvote d pa c pg mode => [encWord 6 0x0D 23 [(d.toNat, 16), (pa.toNat, 9)], encSecond [(c.toNat, 25), (pg.toNat, 20), (mode.toNat, 0)]]
  | .vbfe d a b ea eb pg neg sx => [encWord 6 0x0E 23 [(d.toNat, 16), (a.toNat, 9), (b.toNat, 2), (ea.toNat, 1), (eb.toNat, 0)], encSecond [(pg.toNat, 20), (neg.toNat, 19), (sx.toNat, 0)]]
  | .vbfi d a b c ea eb pg neg => [encWord 6 0x0F 23 [(d.toNat, 16), (a.toNat, 9), (b.toNat, 2), (ea.toNat, 1), (eb.toNat, 0)], encSecond [(c.toNat, 25), (pg.toNat, 20), (neg.toNat, 19)]]
  | .vfrcp d a ea pg neg => [encWord 6 0x10 23 [(d.toNat, 16), (a.toNat, 9), (ea.toNat, 1)], encSecond [(pg.toNat, 20), (neg.toNat, 19)]]
  | .vfrsq d a ea pg neg => [encWord 6 0x11 23 [(d.toNat, 16), (a.toNat, 9), (ea.toNat, 1)], encSecond [(pg.toNat, 20), (neg.toNat, 19)]]
  | .vfsqrt d a ea pg neg rm => [encWord 6 0x12 23 [(d.toNat, 16), (a.toNat, 9), (ea.toNat, 1)], encSecond [(pg.toNat, 20), (neg.toNat, 19), (rm.toNat, 16)]]
  | .vfexp2 d a ea pg neg => [encWord 6 0x13 23 [(d.toNat, 16), (a.toNat, 9), (ea.toNat, 1)], encSecond [(pg.toNat, 20), (neg.toNat, 19)]]
  | .vflog2 d a ea pg neg => [encWord 6 0x14 23 [(d.toNat, 16), (a.toNat, 9), (ea.toNat, 1)], encSecond [(pg.toNat, 20), (neg.toNat, 19)]]
  | .vfsin d a ea pg neg => [encWord 6 0x15 23 [(d.toNat, 16), (a.toNat, 9), (ea.toNat, 1)], encSecond [(pg.toNat, 20), (neg.toNat, 19)]]
  | .vfcos d a ea pg neg => [encWord 6 0x16 23 [(d.toNat, 16), (a.toNat, 9), (ea.toNat, 1)], encSecond [(pg.toNat, 20), (neg.toNat, 19)]]
  | .vfdiv d a b ea eb pg neg rm => [encWord 6 0x17 23 [(d.toNat, 16), (a.toNat, 9), (b.toNat, 2), (ea.toNat, 1), (eb.toNat, 0)], encSecond [(pg.toNat, 20), (neg.toNat, 19), (rm.toNat, 16)]]
  | .vact d a ea pg neg => [encWord 6 0x18 23 [(d.toNat, 16), (a.toNat, 9), (ea.toNat, 1)], encSecond [(pg.toNat, 20), (neg.toNat, 19)]]
  | .dropm a b c ea eb pg => [encWord 6 0x19 23 [(a.toNat, 9), (b.toNat, 2), (ea.toNat, 1), (eb.toNat, 0)], encSecond [(c.toNat, 25), (pg.toNat, 20)]]
  | .vrand d a b ea eb pg neg => [encWord 6 0x1A 23 [(d.toNat, 16), (a.toNat, 9), (b.toNat, 2), (ea.toNat, 1), (eb.toNat, 0)], encSecond [(pg.toNat, 20), (neg.toNat, 19)]]
  | .ldIdx d a b ea eb pg neg st order scope reuse => [encWord 6 0x1B 23 [(d.toNat, 16), (a.toNat, 9), (b.toNat, 2), (ea.toNat, 1), (eb.toNat, 0)], encSecond [(pg.toNat, 20), (neg.toNat, 19), (st.toNat, 12), (order.toNat, 0), (scope.toNat, 2), (reuse.toNat, 5)]]
  | .stIdx d a b ea eb pg neg st order scope reuse => [encWord 6 0x1C 23 [(d.toNat, 16), (a.toNat, 9), (b.toNat, 2), (ea.toNat, 1), (eb.toNat, 0)], encSecond [(pg.toNat, 20), (neg.toNat, 19), (st.toNat, 12), (order.toNat, 0), (scope.toNat, 2), (reuse.toNat, 5)]]
  | .lread d a b ea eb pg neg => [encWord 6 0x1D 23 [(d.toNat, 16), (a.toNat, 9), (b.toNat, 2), (ea.toNat, 1), (eb.toNat, 0)], encSecond [(pg.toNat, 20), (neg.toNat, 19)]]
  | .lreadScalar d a ea lane => [encWord 6 0x1D 23 [(d.toNat, 16), (a.toNat, 9), (ea.toNat, 1), (0x70, 2)], encSecond [(31, 20), (lane.toNat, 0)]]
  | .lwrite d a ea lane => [encWord 6 0x1E 23 [(d.toNat, 16), (a.toNat, 9), (ea.toNat, 1)], encSecond [(31, 20), (lane.toNat, 0)]]
  | .vpcrd d field lane => [encWord 6 0x1F 23 [(d.toNat, 16)], encSecond [(31, 20), (field.toNat, 12), (lane.toNat, 0)]]
  | .vpcwr a ea field lane => [encWord 6 0x20 23 [(a.toNat, 9), (ea.toNat, 1)], encSecond [(31, 20), (field.toNat, 12), (lane.toNat, 0)]]
  | .vidiv d a b ea eb pg neg st dt => [encWord 6 0x21 23 [(d.toNat, 16), (a.toNat, 9), (b.toNat, 2), (ea.toNat, 1), (eb.toNat, 0)], encSecond [(pg.toNat, 20), (neg.toNat, 19), (st.toNat, 12), (dt.toNat, 8)]]
  | .virem d a b ea eb pg neg st dt => [encWord 6 0x22 23 [(d.toNat, 16), (a.toNat, 9), (b.toNat, 2), (ea.toNat, 1), (eb.toNat, 0)], encSecond [(pg.toNat, 20), (neg.toNat, 19), (st.toNat, 12), (dt.toNat, 8)]]
  | .runStart _ _ => []
  | .deferredTrapTaken _ => []
  | .loadResult _ => []
  | .sfuResult _ => []
  | .lreadResult _ => []
  | .atomicCompletion _ => []
  | .storePerformed _ => []
  | .objdeclResult _ => []
  | .launchResult _ => []
  | .meterResult _ => []
  | .engineCommandStart _ => []
  | .engineCommandCompletion _ => []
  | .translationWalkEnd _ _ _ => []
  | .pfansWrite _ _ => []
  | .tlbInvalidationStart _ _ => []
  | .tlbInvalidationComplete _ => []
  | .tokenRequestArrival _ _ _ => []
  | .tokenGrant _ _ => []
  | .lineMigrationComplete _ _ => []
  | .wayPairGating _ => []
  | .wayPairEnable _ => []
  | .gbarClusterRelease _ _ => []
  | .regionCommit _ _ => []
  | .regionReservationLapse _ _ => []
  | .recoveryTickLimitExpiry _ => []
  | .rollback _ => []
  | .undoAreaLost _ => []
  | .lqptrTailWrite _ _ => []
  | .launchRecordRead _ => []
  | .childRingTransfer _ => []
  | .teamAdmission => []
  | .scratchpadClearDone _ => []
  | .admissionReservation _ _ => []
  | .heldOutPreemption _ => []
  | .groupRetirement _ => []
  | .prctlGo _ _ => []
  | .prctlResume _ _ => []
  | .drainAllowanceExpiry _ => []
  | .teamSave _ => []
  | .flushToEnsure _ => []
  | .flushAndRestart _ => []
  | .teamRestore _ => []
  | .exitStatusWrite _ => []
  | .hangWatchdogExpiry _ => []
  | .registerFileError _ _ _ => []
  | .moduleShutdown => []
  | .dbgHalt _ _ => []
  | .dbgResume _ _ => []
  | .dbgStep _ _ => []
  | .haltLimitExpiry _ => []
  | .dumpAttach _ => []
  | .dumpRelease _ => []
  | .dumpHoldExpiry _ => []
  | .ginghamSample => []
  | .controlInterval => []
  | .droopAlarm _ _ => []
  | .droopStretchEnd _ _ => []
  | .halvedWindowEnd _ _ => []
  | .timingReplay _ _ _ => []
  | .signPartitionCounters _ => []
  | .signJobRecord _ => []
  | .signedReadingWritten => []
  | .scrubLine _ _ _ _ _ => []
  | .scrubWindowExpiry _ => []
  | .bankReencode _ => []
  | .errctlClr _ => []
  | .classignWrite _ _ => []
  | .hostWindowRead _ _ _ _ => []
  | .hostWindowWrite _ _ _ _ => []
  | .fabricAccess _ _ => []
  | .keyRevocation _ => []
  | .coldReset => []
  | .warmReset => []
  | .registerWrite _ _ => []
  | .ringHeadWrite _ _ => []
  | .fabricLinkFailure _ => []
  | .flitLinkCheckFailure _ => []
  | .killRequest _ => []
  | .partitionTeardown _ => []

end Sys2Proof
end

