-- ==== Sys2Proof/Config.lean ====
section
/-! DEFINITION. What an implementation fixes (fuses) and the free values: constants without a body where the spec leaves a value
open, so that nothing can be proved about which value they have. -/
namespace Sys2Proof.Config

/-- LANEMAP of every slice (R13: "fuses"). DESIGN CHOICE, log entry 3: every physical lane good. -/
def laneMapFuses : Word := 0xFFFFFFFF

/-- IDLEFLOOR in watts (R378: fuses). DESIGN CHOICE, log entry 3. -/
def idleFloorFuses : Nat := 0

/-- SERIAL of the module (R391: fuses). DESIGN CHOICE, log entry 3. -/
def serialFuses : DWord := 0

/-- The distance, in units of the last place, of an approximate SFU result from the value rounded to nearest: free within the
accuracy the spec states (R136, log entry 11). -/
opaque sfuOffset (op : Nat) (a : Word) : Int

/-- How far back the code word that a clause fetch returns lies among the values the word has had since the grid was launched: free for each fetch and
word (R402, log entry 13). -/
opaque codeAge (n pa : Nat) : Nat

/-- Whether a cached translation is still held: free (R225, log entry 12). -/
opaque tlbEvicted (n : Nat) : Bool

/-- Which entry of a full translation cache gives way to a new one: free (R225, log entry 12). -/
opaque tlbVictim (n : Nat) : Nat

/-- The length of the identity certificate chain; its bytes past 4,092 are not shown (R393): free (log entry 14). -/
opaque certificateLength : Nat

/-- The bytes of the identity certificate chain, whose leaf names SERIAL and certifies the key of the signatures (R393): free (log entry 14). -/
opaque certificateByte (serial : DWord) (k : Nat) : Byte

/-- The bytes of a signature (R384): free (log entry 14). -/
opaque signatureByte (n k : Nat) : Byte

/-- The counters another module's member reports in a sweep (R267): free (log entry 15). -/
opaque memberCount (n k : Nat) : DWord

/-- KEY of a barrier release in the record log: the spec names its two parts and not their places (R368): free (log entry 16). -/
opaque barrierKey (b phase : Nat) : DWord

/-- DETAIL of a translation cause met by a clause fetch, which names no word: free (R163, R224, log entry 17). -/
opaque fetchDetail (code : Nat) : BitVec 12

/-- Whether a load meets the bytes that stood before a relaxed atomic of another cluster: free (R271, log entry 70). -/
opaque readsOld (n place : Nat) : Bool

/-- The bank of a line of device memory: the spec gives no map (R386): free (log entry 77). -/
opaque bankOf (line : Nat) : Nat

/-- The memory stack of a bank: free (R365, log entry 18). -/
opaque stackOf (bank : Nat) : Nat

/-- The failure code of a bring-up step, 0 for none: free (R398, log entry 86). -/
opaque bootFailure (n step : Nat) : BitVec 16

/-- Counters of a sampler record that depend on caches, links and DRAM timing (R365): free (log entry 18). -/
opaque counter (n k : Nat) : Word

end Sys2Proof.Config
end

