-- ==== Sys2Proof/Machine/FMap.lean ====
section
/-! DEFINITION. Finite maps from natural numbers, as lists of pairs: register files, lanes, memories, tables. Keys that a map does
not list read as a default that the reader names. -/
namespace Sys2Proof.Machine

/-- A finite map: pairs of key and value, keys rising. -/
abbrev FMap (α : Type) := List (Nat × α)

/-- The value listed for a key. -/
def FMap.look {α : Type} : FMap α → Nat → Option α
  | [], _ => none
  | (k', v) :: m, k => if k' = k then some v else FMap.look m k

/-- The value of a key, a default where none is listed. -/
def FMap.at {α : Type} (d : α) (m : FMap α) (k : Nat) : α := (FMap.look m k).getD d

/-- A key is listed. -/
def FMap.has {α : Type} (m : FMap α) (k : Nat) : Bool := (FMap.look m k).isSome

/-- The map with a value at a key: replaced where listed, else put in before the first larger key. -/
def FMap.put {α : Type} : FMap α → Nat → α → FMap α
  | [], k, v => [(k, v)]
  | (k', v') :: m, k, v =>
    if k' = k then (k, v) :: m
    else if k < k' then (k, v) :: (k', v') :: m
    else (k', v') :: FMap.put m k v

/-- The map without a key. -/
def FMap.del {α : Type} : FMap α → Nat → FMap α
  | [], _ => []
  | (k', v') :: m, k => if k' = k then FMap.del m k else (k', v') :: FMap.del m k

/-- The keys that a map lists. -/
def FMap.keys {α : Type} (m : FMap α) : List Nat := m.map (·.1)

/-- The values that a map lists. -/
def FMap.vals {α : Type} (m : FMap α) : List α := m.map (·.2)

/-- Every listed value changed in place. -/
def FMap.mapVals {α β : Type} (f : Nat → α → β) (m : FMap α) : FMap β := m.map (fun p => (p.1, f p.1 p.2))

/-- Keys strictly rising. -/
def FMap.rising {α : Type} : FMap α → Bool
  | [] => true
  | [_] => true
  | (k, _) :: (k', v') :: m => decide (k < k') && FMap.rising ((k', v') :: m)

/-! ### Byte memories -/

/-- A byte memory in its one canonical form: keys strictly rising, and no byte listed that equals what an unlisted address reads
as, which is zero (R398 step 3 for device memory, R210 for scratchpad; log entry 8 for host memory). -/
abbrev Mem := FMap (BitVec 8)

/-- The byte an unlisted address reads as. -/
def Mem.blank : BitVec 8 := 0

/-- The byte at an address. -/
def Mem.read (m : Mem) (a : Nat) : BitVec 8 := FMap.at Mem.blank m a

/-- The memory with one byte written; writing the blank byte takes the entry out. -/
def Mem.write (m : Mem) (a : Nat) (b : BitVec 8) : Mem :=
  if b = Mem.blank then FMap.del m a else FMap.put m a b

/-- The canonical form. -/
def Mem.wf (m : Mem) : Bool := FMap.rising m && m.all (fun p => decide (p.2 ≠ Mem.blank))

/-- `n` bytes from an address up. -/
def Mem.readBytes (m : Mem) (a : Nat) : Nat → List (BitVec 8)
  | 0 => []
  | n + 1 => Mem.read m a :: Mem.readBytes m (a + 1) n

/-- Bytes written from an address up. -/
def Mem.writeBytes (m : Mem) (a : Nat) : List (BitVec 8) → Mem
  | [] => m
  | b :: bs => Mem.writeBytes (Mem.write m a b) (a + 1) bs

end Sys2Proof.Machine
end

