-- ==== Sys2Proof/Machine/Flags.lean ====
section
/-! DEFINITION. Number formats, exact values, rounding and every flag computation (02, R44 to R60). Values are exact: a sign, a
natural number and a power of two; one function rounds an exact ratio to a format under a mode (R49) and says which flags
that sets (R50). -/
namespace Sys2Proof.Machine

/-- The five sticky flags, in the places of FPFLAGS (R9): bit 4 invalid, 3 divide-by-zero, 2 overflow, 1 underflow, 0 inexact. -/
abbrev FpFlags := BitVec 5

/-- The invalid flag. -/
def flagNV : FpFlags := 0b10000
/-- The divide-by-zero flag. -/
def flagDZ : FpFlags := 0b01000
/-- The overflow flag. -/
def flagOF : FpFlags := 0b00100
/-- The underflow flag. -/
def flagUF : FpFlags := 0b00010
/-- The inexact flag. -/
def flagNX : FpFlags := 0b00001

/-- A flag when a condition holds, else none. -/
def flagIf (p : Bool) (f : FpFlags) : FpFlags := if p then f else 0

/-- The rounding modes of R49, coded as in FPCTL.MODE and the rounding field. -/
inductive RMode where
  | rne | rz | ru | rd | stochastic | odd
  deriving DecidableEq, Repr

/-- The mode of a code (R14, R38); codes 6 and 7 are refused before a word issues. -/
def RMode.ofCode (n : Nat) : RMode :=
  match n with
  | 1 => .rz
  | 2 => .ru
  | 3 => .rd
  | 4 => .stochastic
  | 5 => .odd
  | _ => .rne

/-- How a format spends its patterns with the exponent field all ones (R44). -/
inductive NanKind where
  | ieee      -- infinity and NaN, signalling NaN told apart (F32, BF16, F16)
  | quiet     -- infinity and NaN, every NaN quiet (E5M2)
  | lone      -- no infinity, the one NaN pattern S.1111.111 (E4M3)
  | finite    -- neither (E3M2, E2M3, E2M1)
  deriving DecidableEq, Repr

/-- A floating-point element format (R44): exponent width, fraction width, bias, and its special patterns. -/
structure FFmt where
  ebits : Nat
  mbits : Nat
  bias  : Nat
  kind  : NanKind
  deriving DecidableEq, Repr

/-- F32 (R44). -/
def f32 : FFmt := ⟨8, 23, 127, .ieee⟩
/-- BF16 (R44). -/
def bf16 : FFmt := ⟨8, 7, 127, .ieee⟩
/-- F16 (R44). -/
def f16 : FFmt := ⟨5, 10, 15, .ieee⟩
/-- E4M3 (R44). -/
def e4m3 : FFmt := ⟨4, 3, 7, .lone⟩
/-- E5M2 (R44). -/
def e5m2 : FFmt := ⟨5, 2, 15, .quiet⟩
/-- E3M2 (R44). -/
def e3m2 : FFmt := ⟨3, 2, 3, .finite⟩
/-- E2M3 (R44). -/
def e2m3 : FFmt := ⟨2, 3, 1, .finite⟩
/-- E2M1 (R44). -/
def e2m1 : FFmt := ⟨2, 1, 1, .finite⟩

/-- The format of a type code 0 to 7 (R39). -/
def fmtOf (code : Nat) : FFmt :=
  match code with
  | 1 => bf16
  | 2 => f16
  | 3 => e4m3
  | 4 => e5m2
  | 5 => e3m2
  | 6 => e2m3
  | 7 => e2m1
  | _ => f32

/-- Width of a format in bits. -/
def FFmt.width (f : FFmt) : Nat := 1 + f.ebits + f.mbits

/-- The magnitude pattern of the largest finite value (R44). -/
def FFmt.maxPat (f : FFmt) : Nat :=
  match f.kind with
  | .ieee | .quiet => (2 ^ f.ebits - 1) * 2 ^ f.mbits - 1
  | .lone => 2 ^ (f.ebits + f.mbits) - 2
  | .finite => 2 ^ (f.ebits + f.mbits) - 1

/-- The magnitude pattern of infinity, in the formats that have it. -/
def FFmt.infPat (f : FFmt) : Nat := (2 ^ f.ebits - 1) * 2 ^ f.mbits

/-- The canonical NaN pattern (R46); +0 in a format without NaN (R53). -/
def FFmt.nanPat (f : FFmt) : Nat :=
  match f.kind with
  | .ieee | .quiet => f.infPat + 2 ^ (f.mbits - 1)
  | .lone => 2 ^ (f.ebits + f.mbits) - 1
  | .finite => 0

/-- An exact value: a NaN, an infinity, or ±n × 2^e. A zero keeps its sign. -/
inductive FVal where
  | nan (signalling : Bool)
  | inf (neg : Bool)
  | fin (neg : Bool) (n : Nat) (e : Int)
  deriving DecidableEq, Repr

/-- The value of a pattern of a format (R44, R46). -/
def FFmt.value (f : FFmt) (bits : Nat) : FVal :=
  let neg := bits / 2 ^ (f.ebits + f.mbits) % 2 == 1
  let mag := bits % 2 ^ (f.ebits + f.mbits)
  let ex := mag / 2 ^ f.mbits
  let fr := mag % 2 ^ f.mbits
  let finite : FVal :=
    if ex = 0 then .fin neg fr (1 - (f.bias : Int) - f.mbits)
    else .fin neg (2 ^ f.mbits + fr) ((ex : Int) - f.bias - f.mbits)
  match f.kind with
  | .finite => finite
  | .lone => if mag = 2 ^ (f.ebits + f.mbits) - 1 then .nan false else finite
  | .ieee =>
    if ex = 2 ^ f.ebits - 1 then
      (if fr = 0 then .inf neg else .nan (decide (fr < 2 ^ (f.mbits - 1))))
    else finite
  | .quiet =>
    if ex = 2 ^ f.ebits - 1 then (if fr = 0 then .inf neg else .nan false) else finite

/-- A signalling NaN (R46). -/
def FVal.isSnan : FVal → Bool
  | .nan s => s
  | _ => false

/-- A NaN. -/
def FVal.isNan : FVal → Bool
  | .nan _ => true
  | _ => false

/-- A zero of either sign. -/
def FVal.isZero : FVal → Bool
  | .fin _ n _ => n == 0
  | _ => false

/-- An infinity. -/
def FVal.isInf : FVal → Bool
  | .inf _ => true
  | _ => false

/-- The same value with the other sign. -/
def FVal.neg : FVal → FVal
  | .nan s => .nan s
  | .inf b => .inf (!b)
  | .fin b n e => .fin (!b) n e

/-! ### Rounding -/

/-- Quotient, remainder and divisor of (n / d) × 2^sh, with sh of either sign. -/
def scaled (n d : Nat) (sh : Int) : Nat × Nat × Nat :=
  let a := n * 2 ^ sh.toNat
  let b := d * 2 ^ (-sh).toNat
  (a / b, a % b, b)

/-- The larger or the smaller neighbour, as the mode says: q is the lower multiple of the spacing, rem / den the part above it
(R49); r16 are the random bits of R51. -/
def roundUp (mode : RMode) (neg : Bool) (r16 q rem den : Nat) : Nat :=
  match mode with
  | .rne => if den < 2 * rem ∨ (2 * rem = den ∧ q % 2 = 1) then q + 1 else q
  | .rz => q
  | .ru => if rem ≠ 0 ∧ !neg then q + 1 else q
  | .rd => if rem ≠ 0 ∧ neg then q + 1 else q
  | .stochastic => if rem ≠ 0 ∧ 2 ^ 16 ≤ rem * 2 ^ 16 / den + r16 then q + 1 else q
  | .odd => if rem ≠ 0 ∧ q % 2 = 0 then q + 1 else q

/-- floor(log2 (n / d)) for n and d not zero. -/
def ratioLog2 (n d : Nat) : Int :=
  let k : Int := (Nat.log2 n : Int) - Nat.log2 d
  let s := scaled n d (-k)
  if s.1 = 0 then k - 1 else k

/-- A rounded result: its pattern, sign bit included, and the flags it sets. -/
structure Rounded where
  bits  : Nat
  flags : FpFlags
  deriving DecidableEq, Repr

/-- The sign bit of a pattern. -/
def FFmt.signed (f : FFmt) (neg : Bool) (mag : Nat) : Nat :=
  if neg then 2 ^ (f.ebits + f.mbits) + mag else mag

/-- What overflow gives (R49, R53): by the mode, and always the largest finite value in a format without infinity. -/
def FFmt.overflowPat (f : FFmt) (mode : RMode) (neg : Bool) : Nat :=
  match f.kind with
  | .lone | .finite => f.maxPat
  | .ieee | .quiet =>
    match mode with
    | .rne | .stochastic => f.infPat
    | .rz | .odd => f.maxPat
    | .ru => if neg then f.maxPat else f.infPat
    | .rd => if neg then f.infPat else f.maxPat

/-- The spacing exponent, the rounded multiple of the spacing and the remainder of (n / d) × 2^e, when the spacing is 2^u. -/
def roundAt (mode : RMode) (neg : Bool) (r16 n d : Nat) (e u : Int) : Nat × Bool :=
  let s := scaled n d (e - u)
  (roundUp mode neg r16 s.1 s.2.1 s.2.2, decide (s.2.1 ≠ 0))

/-- Rounding the exact value ±(n / d) × 2^e, n and d not zero, to a format (R49), with the flags of R50. -/
def FFmt.roundRat (f : FFmt) (mode : RMode) (r16 : Nat) (neg : Bool) (n d : Nat) (e : Int) : Rounded :=
  let top : Int := ratioLog2 n d + e
  let emin : Int := 1 - (f.bias : Int)
  let u : Int := (if top < emin then emin else top) - f.mbits
  let q := roundAt mode neg r16 n d e u
  let pat : Nat := q.1 + (u - (emin - f.mbits)).toNat * 2 ^ f.mbits
  -- rounded as if the exponent had no lower limit, is it still below the smallest normal?
  let q' := roundAt mode neg r16 n d e (top - f.mbits)
  let tiny := decide (top < emin) && !(decide (top = emin - 1) && decide (q'.1 = 2 ^ (f.mbits + 1)))
  if f.maxPat < pat then ⟨f.signed neg (f.overflowPat mode neg), flagOF ||| flagNX⟩
  else ⟨f.signed neg pat, flagIf q.2 flagNX ||| flagIf (q.2 && tiny) flagUF⟩

/-- Rounding an exact value to a format (R49, R50, R52, R53). A NaN gives the canonical NaN, in a format without NaN +0 and
invalid; an infinity gives infinity, in a format without it the largest finite value and overflow. The invalid flag of a signalling
source is the caller's. -/
def FFmt.round (f : FFmt) (mode : RMode) (r16 : Nat) (v : FVal) : Rounded :=
  match v with
  | .nan _ => ⟨f.nanPat, flagIf (f.kind = .finite) flagNV⟩
  | .inf neg =>
    match f.kind with
    | .ieee | .quiet => ⟨f.signed neg f.infPat, 0⟩
    | .lone | .finite => ⟨f.signed neg f.maxPat, flagOF⟩
  | .fin neg n e => if n = 0 then ⟨f.signed neg 0, 0⟩ else f.roundRat mode r16 neg n 1 e

/-! ### Exact arithmetic -/

/-- The exact sum of two finite values as an integer at the smaller exponent. -/
def finSum (n1 : Int) (e1 : Int) (n2 : Int) (e2 : Int) : Int × Int :=
  let e := min e1 e2
  (n1 * 2 ^ (e1 - e).toNat + n2 * 2 ^ (e2 - e).toNat, e)

/-- A finite value as a signed integer at its exponent. -/
def signedInt (neg : Bool) (n : Nat) : Int := if neg then -(n : Int) else n

/-- The exact sum (R108). A signalling NaN and ∞ − ∞ set invalid. An exact zero sum of opposite values is −0 under RD and +0
otherwise (R49); two zeros of one sign keep it. -/
def FVal.add (mode : RMode) (x y : FVal) : FVal × FpFlags :=
  match x, y with
  | .nan s, y => (.nan false, flagIf (s || y.isSnan) flagNV)
  | .inf _, .nan s => (.nan false, flagIf s flagNV)
  | .fin _ _ _, .nan s => (.nan false, flagIf s flagNV)
  | .inf a, .inf b => if a = b then (.inf a, 0) else (.nan false, flagNV)
  | .inf a, .fin _ _ _ => (.inf a, 0)
  | .fin _ _ _, .inf b => (.inf b, 0)
  | .fin a n e, .fin b m e' =>
    let s := finSum (signedInt a n) e (signedInt b m) e'
    if s.1 = 0 then
      (.fin (if n = 0 ∧ m = 0 ∧ a = b then a else decide (mode = .rd)) 0 s.2, 0)
    else (.fin (decide (s.1 < 0)) s.1.natAbs s.2, 0)

/-- The exact product (R108). A signalling NaN and 0 × ∞ set invalid. -/
def FVal.mul (x y : FVal) : FVal × FpFlags :=
  match x, y with
  | .nan s, y => (.nan false, flagIf (s || y.isSnan) flagNV)
  | .inf _, .nan s => (.nan false, flagIf s flagNV)
  | .fin _ _ _, .nan s => (.nan false, flagIf s flagNV)
  | .inf a, .inf b => (.inf (a != b), 0)
  | .inf a, .fin b n _ => if n = 0 then (.nan false, flagNV) else (.inf (a != b), 0)
  | .fin a n _, .inf b => if n = 0 then (.nan false, flagNV) else (.inf (a != b), 0)
  | .fin a n e, .fin b m e' => (.fin (a != b) (n * m) (e + e'), 0)

/-- x × y + z with the product exact (R108): 0 × ∞ sets invalid even when z is a quiet NaN. -/
def FVal.fma (mode : RMode) (x y z : FVal) : FVal × FpFlags :=
  let p := x.mul y
  let s := p.1.add mode z
  (s.1, p.2 ||| s.2)

/-- Rounding a result of exact arithmetic, its flags joined. -/
def FFmt.finish (f : FFmt) (mode : RMode) (r16 : Nat) (p : FVal × FpFlags) : Rounded :=
  let r := f.round mode r16 p.1
  ⟨r.bits, r.flags ||| p.2⟩

/-! ### Order of values -/

/-- x < y for two values neither of which is a NaN; +0 = −0. -/
def FVal.lt (x y : FVal) : Bool :=
  match x, y with
  | .nan _, _ => false
  | .inf _, .nan _ => false
  | .fin _ _ _, .nan _ => false
  | .inf a, .inf b => a && !b
  | .inf a, .fin _ _ _ => a
  | .fin _ _ _, .inf b => !b
  | .fin a n e, .fin b m e' => decide ((finSum (signedInt a n) e (-(signedInt b m)) e').1 < 0)

/-- Ordered equality: false if either is a NaN; +0 = −0 (R114). -/
def FVal.eq (x y : FVal) : Bool := !x.isNan && !y.isNan && !x.lt y && !y.lt x

/-! ### Integers -/

/-- Rounding an exact value to an integer (R54): the integer and whether it differs from the value. -/
def roundToInt (mode : RMode) (r16 : Nat) (neg : Bool) (n : Nat) (e : Int) : Int × Bool :=
  let q := roundAt mode neg r16 n 1 e 0
  (signedInt neg q.1, q.2)

/-- The range of an integer type by its code (R45). -/
def intRange (code : Nat) : Int × Int :=
  match code with
  | 9 => (0, 2 ^ 32 - 1)
  | 10 => (-(2 ^ 15), 2 ^ 15 - 1)
  | 11 => (0, 2 ^ 16 - 1)
  | 12 => (-(2 ^ 7), 2 ^ 7 - 1)
  | 13 => (0, 2 ^ 8 - 1)
  | 14 => (-8, 7)
  | _ => (-(2 ^ 31), 2 ^ 31 - 1)

/-- Width of an element of a type code (R44, R45, R59). -/
def typeWidth (code : Nat) : Nat :=
  match code with
  | 0 | 8 | 9 => 32
  | 1 | 2 | 10 | 11 | 15 => 16
  | 7 | 14 => 4
  | 5 | 6 => 6
  | _ => 8

/-- A signed type (R45). -/
def intSigned (code : Nat) : Bool := code == 8 || code == 10 || code == 12 || code == 14

/-- The integer a pattern of an integer type holds (R45). -/
def intOfBits (code bits : Nat) : Int :=
  let w := typeWidth code
  let v : Nat := bits % 2 ^ w
  if intSigned code && decide (2 ^ (w - 1) ≤ v) then (v : Int) - ((2 ^ w : Nat) : Int) else (v : Int)

/-- The pattern of an integer in `w` bits, two's complement. -/
def bitsOfInt (w : Nat) (i : Int) : Nat := (i % ((2 ^ w : Nat) : Int)).toNat

/-- Saturation to a range (R54). -/
def clampInt (r : Int × Int) (i : Int) : Int := if i < r.1 then r.1 else if r.2 < i then r.2 else i

/-- Floating point to integer (R54): out of range saturates and sets invalid; a NaN gives 0 and invalid. -/
def toIntType (code : Nat) (mode : RMode) (r16 : Nat) (v : FVal) : Rounded :=
  let w := typeWidth code
  let r := intRange code
  match v with
  | .nan _ => ⟨0, flagNV⟩
  | .inf neg => ⟨bitsOfInt w (if neg then r.1 else r.2), flagNV⟩
  | .fin neg n e =>
    let q := roundToInt mode r16 neg n e
    if q.1 < r.1 then ⟨bitsOfInt w r.1, flagNV⟩
    else if r.2 < q.1 then ⟨bitsOfInt w r.2, flagNV⟩
    else ⟨bitsOfInt w q.1, flagIf q.2 flagNX⟩

/-- An integer as an exact value. -/
def FVal.ofInt (i : Int) : FVal := .fin (decide (i < 0)) i.natAbs 0

/-! ### Random bits -/

/-- One round of NQMIX (R51). -/
def nqRound (x : Word) : Word :=
  let x := x ^^^ (x >>> 16)
  let x := x * 0x6C8E9CF5#32
  let x := x ^^^ (x >>> 15)
  x * 0xB5297A4D#32

/-- NQMIX(key, counter) (R51). -/
def nqmix (key counter : Word) : Word :=
  let x := nqRound (nqRound (nqRound (counter ^^^ key)))
  x ^^^ (x >>> 16)

/-- The random bits of stochastic rounding of element j in lane l (R51). -/
def r16Of (key abits : Word) (l j : Nat) : Nat :=
  (nqmix key (abits + BitVec.ofNat 32 (l * 0x9E3779B9 + j))).toNat % 2 ^ 16

/-! ### Block scales and codebook weights -/

/-- The value of a BS20 scale, bits [19:0] of a word (R55); a NaN scale has none. -/
def bs20 (w : Nat) : Option FVal :=
  let e : Nat := w / 2 ^ 12 % 2 ^ 8
  let f : Nat := w % 2 ^ 12
  if e = 255 then none
  else if e = 0 then some (.fin false f (-126 - 12))
  else some (.fin false (4096 + f) ((e : Int) - 127 - 12))

/-- The exact value of element k (0 to 7) of a VQ2 index with its codebook entry (R59, R60), a multiple of 1/8. -/
def vq2 (entry index k : Nat) : FVal :=
  let sign (i : Nat) : Nat := index / 2 ^ (i + 1) % 2
  let s := if k < 7 then sign k else (sign 0 + sign 1 + sign 2 + sign 3 + sign 4 + sign 5 + sign 6) % 2
  let m := entry / 2 ^ (4 * k) % 16
  .fin (s == 1) (2 * m + index % 2) (-3)

/-- Element j of a word of elements of a type (R47, R119): an FP6 element takes a whole byte. -/
def elemOf (code : Nat) (w : Word) (j : Nat) : Nat :=
  match code with
  | 5 | 6 => w.toNat / 2 ^ (8 * j) % 2 ^ 6
  | _ => w.toNat / 2 ^ (typeWidth code * j) % 2 ^ typeWidth code

/-- A word with element j of a type replaced; an FP6 element is written with the two bits above it zero (R119). -/
def setElem (code : Nat) (w : Word) (j v : Nat) : Word :=
  let wd := match code with | 5 | 6 => 8 | _ => typeWidth code
  let old := w.toNat / 2 ^ (wd * j) % 2 ^ wd
  BitVec.ofNat 32 (w.toNat - old * 2 ^ (wd * j) + v % 2 ^ wd * 2 ^ (wd * j))

/-- A value scaled by a block scale: a NaN scale gives a NaN; an infinity times a zero scale is a NaN and sets invalid (R55). -/
def scaleBy (s : Option FVal) (v : FVal) : FVal × FpFlags :=
  match s with
  | none => (.nan false, 0)
  | some σ =>
    match v with
    | .nan _ => (.nan false, 0)
    | v => v.mul σ

end Sys2Proof.Machine
end

