-- ==== Sys2Proof/Machine/State.lean ====
section
/-! DEFINITION. The state of the machine as plain data: everything the spec gives the module (INVENTORY.md, State), the reasons
a step can stop, and the state after reset. Maps that list nothing read as the default record, whose fields carry the
reset or launch values. -/
namespace Sys2Proof.Machine

/-- Reasons the machine stops with a fault. No instruction of this part ends the machine: a cause of R335 is taken as a trap,
a fault of a level or a containment, all of them next states. -/
inductive Fault where
  /-- Raised by no meaning. Safe: nothing claims it. -/
  | none
  deriving DecidableEq, Repr

/-- Reasons an instruction has no meaning in the model. -/
inductive Refusal where
  /-- An arm of `exec` without a meaning yet, named by its mnemonic. Safe: the run stops there. -/
  | notModelled (mnemonic : String)
  /-- A step outside a run: a word issued while no clause is latched. Raised by `step` only. Safe: the run stops there. -/
  | noClause
  deriving DecidableEq, Repr

/-! ### Lanes -/

/-- Why a lane is parked (R135, REASON 1 to 6). -/
inductive ParkReason where
  | deferred | convergence | handler | regionWait | refused | split
  deriving DecidableEq, Repr

/-- The condition of a lane (R10). -/
inductive LaneCond where
  | live
  | parked (reason : ParkReason)
  | exited
  | never
  deriving DecidableEq, Repr

/-- What a parked lane is parked at (R127, R178, R179, R180, R181, R184, R278). -/
inductive Place where
  | none
  | gathering (hdr word : Nat)
  | barrier (b : Nat)
  | gridBarrier
  | recovery (op : Nat)
  | slotWait
  | regionEnd
  | refusal (acc : Nat)
  deriving DecidableEq, Repr

/-- What RBEGIN checkpoints of a lane (R180). -/
structure Checkpoint where
  regs    : FMap Word := []
  empty   : BitVec 72 := 0
  preds   : BitVec 24 := 0
  fpflags : FpFlags := 0
  deriving DecidableEq, Repr

/-- One logical lane (R9, R10). Registers 0 to 63 are v0 to v63 and 64 to 71 are o0 to o7 (R40); a bit of `empty` set means the
register is empty (R19). -/
structure Lane where
  regs    : FMap Word := []
  empty   : BitVec 72 := 0
  lr      : Word := 0
  lrValid : Bool := false
  preds   : BitVec 24 := 0
  vpc     : Word := 0
  fpflags : FpFlags := 0
  cond    : LaneCond := .never
  place   : Place := .none
  /-- the region slot the lane holds, by its identifier die × 4096 + slot (R272) -/
  region  : Option Nat := Option.none
  /-- the lane's region aborts at the end of the current clause (R281) -/
  aborting : Bool := false
  /-- aborts since the last commit, and the slot reserved for the retry (R281, R284) -/
  reserved : Option Nat := Option.none
  deriving DecidableEq, Repr

/-! ### Groups -/

/-- What kind of access a word makes (R35, R154). -/
inductive AccKind where
  | load | store | atomic (op : Nat)
  deriving DecidableEq, Repr

/-- What a group, a resume point or a handler waits on (R195). -/
inductive Wait where
  | ready
  /-- until these registers (operand numbers of R40), each in a set of lanes, are full -/
  | regs (need : List (LaneSet × Nat))
  /-- until these scratchpad lines (of the team's allocation) are present -/
  | lines (ls : List Nat)
  /-- until the fences that hold a word of this kind in these lanes are met -/
  | fence (lanes : LaneSet) (kind : AccKind)
  /-- until every masked event counter is at most the threshold -/
  | header (mask : BitVec 8) (t : Nat)
  /-- until a unit queue of the cluster has room -/
  | queue (unit : Nat)
  /-- until the page-fault service has answered for a page: the address of the scalar word's access, its class and opcode, and the
  answer, true where granted (R166) -/
  | page (page : Nat) (addr : DWord) (classOp : Nat) (answer : Option Bool)
  /-- SUSPEND: until the counter is at most the threshold -/
  | counter (ec t : Nat)
  /-- WAITCHILD: until these grids have retired -/
  | children (grids : List Nat)
  /-- WAITPRED: until the predecessor grid has retired -/
  | pred
  /-- a block read synchronously meets bytes that R161 holds, by physical address and length -/
  | block (addr len : Nat)
  /-- an atomic of a recorded grid waits for room in the record ring (R369) -/
  | ring
  deriving DecidableEq, Repr

/-- A word at which a group resumes, with its active set and what it waits on (R20, R165, R195, R278). -/
structure ResumePt where
  hdr  : Word
  idx  : Nat
  act  : LaneSet
  wait : Wait
  /-- the clause has not started: its header's conditions are judged when it resumes (R22, R25) -/
  start : Bool := false
  /-- the clause was the first of a rotation run that has not started (R197) -/
  rot  : Option Word := Option.none
  deriving DecidableEq, Repr

/-- An entry of the loop stack (R11, R94). -/
structure LoopEntry where
  start : Word
  stop  : Word
  lc    : Nat
  deriving DecidableEq, Repr

/-- A gathering (R127): where it is open, its member mask, the lanes that have arrived. -/
structure Gathering where
  hdr     : Word
  word    : Nat
  members : LaneSet
  arrived : LaneSet
  deriving DecidableEq, Repr

/-- A pending deferred fault of a group (R164, R171, R338). -/
structure Deferred where
  code   : Nat
  detail : Nat
  hdr    : Word
  word   : Nat
  lanes  : LaneSet
  addr   : DWord
  /-- the pages a fault of cause 0x31 or 0x35 waits on, by lane -/
  pages  : List (Nat × Nat)
  /-- order of the issuing word -/
  age    : Nat
  /-- answers of the page-fault service received, true where granted -/
  answers : List (Nat × Bool)
  /-- registers that the fault left empty, by lane (R23) -/
  regs    : List (Nat × Nat)
  /-- DETAIL and address that each of its lanes met: those of the lowest one are the fault's (R163, R344) -/
  own     : List (Nat × Nat × DWord) := []
  /-- every page it waits on was already requested: it is merged and raises no trap of its own (R164, R339) -/
  quiet   : Bool := false
  deriving DecidableEq, Repr

/-- A fence that a lane has passed and that still holds later memory words (R158). -/
structure FenceHold where
  order : Nat
  scope : Nat
  lanes : LaneSet
  /-- accesses with a smaller number came before the fence -/
  upto  : Nat
  deriving DecidableEq, Repr

/-- The run a group is issuing (R29, R197) and the clause it has latched (R30). -/
structure Run where
  active  : Bool := false
  /-- no clause of the run has started yet: the group may still be found waiting, and then loses nothing (R22, R25) -/
  first   : Bool := false
  /-- the address of the clause header -/
  hdr     : Word := 0
  /-- the header word -/
  head    : Word := 0
  /-- the latched words of the clause; empty while the next clause has not been fetched -/
  words   : List Word := []
  idx     : Nat := 0
  act     : LaneSet := 0
  /-- instruction words of the run so far (R29) -/
  used    : Nat := 0
  /-- a rotation run and its lowest program counter (R197) -/
  rot     : Option Word := Option.none
  /-- the run belongs to the handler (R341) -/
  handler : Bool := false
  /-- the clause has not started: its header's conditions are still to be judged (R22, R25, R128) -/
  start   : Bool := true
  /-- the control-ending word has set the program counters (R84) -/
  moved   : Bool := false
  /-- the word ends the run (R93) -/
  ends    : Bool := false
  /-- no active lane is left in the clause: it ends without completing and the run continues (R127) -/
  quit    : Bool := false
  /-- the word blocked or trapped: the run ends there, the clause does not complete (R20, R337) -/
  stopped : Bool := false
  /-- the pass layout in force (R16) -/
  passDiv : Nat := 4
  ratio   : Nat := 2
  /-- registers, lr (72) and predicates (100 + p) that short-latency words of the run have written, and the CYCLE from which a word may read each (R106) -/
  ready   : FMap Nat := []
  /-- the tick at which the step of the word that issues began: ticks from then on are still to be charged (R301) -/
  began   : Nat := 0
  deriving DecidableEq, Repr

/-- A containment waiting for its exit status word (R345, R347). -/
structure Exit where
  cause  : Nat
  detail : Nat
  lanes  : Nat
  defer  : Bool
  ord    : Word
  pc     : Word
  /-- the group's cluster freezes for a dump before the word is written (R362) -/
  dump   : Bool := false
  deriving DecidableEq, Repr

/-- A debug stop (R359, R360): none, asked for, a step, stopped: its cause, and whether a frozen cluster made it (R362). -/
inductive Halt where
  | no | asked (since : Nat) (expired : Bool) | step | stopped (cause : Nat) (frozen : Bool)
  deriving DecidableEq, Repr

/-- The trap registers, as a debug stop saves them (R359). -/
structure TrapRegs where
  cause : Word := 0
  pc    : Word := 0
  addr  : DWord := 0
  lanes : DWord := 0
  deriving DecidableEq, Repr

/-- One group (R11, R13, R190, R195). A bit of `sEmpty` set means the scalar register is empty. -/
structure Group where
  team    : Nat := 0
  gid     : Nat := 0
  cluster : Nat := 0
  slice   : Nat := 0
  slot    : Nat := 0
  resident : Bool := false
  retired : Bool := false
  lanes   : FMap Lane := []
  sregs   : FMap Word := []
  sEmpty  : BitVec 32 := 0
  ec      : FMap (BitVec 16) := []
  lc      : FMap Word := []
  loops   : List LoopEntry := []
  fpctl   : Word := 0
  progress : Word := 0
  /-- PROGRESS as the scheduler sees it: its value at the last run boundary (R89) -/
  progressSeen : Word := 0
  trap    : TrapRegs := {}
  safeord : Word := 0xFFFFFFFF
  issue   : Wait := .ready
  resumes : List ResumePt := []
  run     : Run := {}
  runCount : Nat := 0
  /-- the group has issued a run (R328) -/
  ran     : Bool := false
  cursor  : Word := 0
  gatherings : List Gathering := []
  rstat   : FMap Word := []
  handler : Bool := false
  trapPending : Bool := false
  /-- handler PC, the word index at which it resumes, whether that clause has still to start, and what it waits on (R341) -/
  hpc     : Word := 0
  hidx    : Nat := 0
  hstart  : Bool := true
  hwait   : Wait := .ready
  /-- the stopped word of the trap just taken (R102) -/
  trapAt  : Option ResumePt := Option.none
  /-- registers that the fault being handled left empty, by lane (R23) -/
  faultRegs : List (Nat × Nat) := []
  deferred : List Deferred := []
  fences  : List FenceHold := []
  yielded : Bool := false
  halt    : Halt := .no
  /-- resumed from a precise stop: its header, at which a step does not stop again, and the breakpoints that do not hit again, before that clause issues
  (R358, R360) -/
  passed  : Option (Word × List Nat) := Option.none
  /-- the header of the clause at which the group last stopped issuing (R347) -/
  lastHdr : Word := 0
  savedTrap : Option TrapRegs := Option.none
  contained : Option Exit := Option.none
  /-- exit status words that wait behind that one: engine faults of a team of which no group remains (R171) -/
  exitQueue : List Exit := []
  deriving DecidableEq, Repr

/-! ### Recovery levels -/

/-- What a level logs of a lane (R297). -/
structure LaneLog where
  regs    : FMap (Word × Bool) := []
  preds   : Option (BitVec 24) := Option.none
  fpflags : Option FpFlags := Option.none
  deriving DecidableEq, Repr

/-- One open recovery level (R294, R296, R297). -/
structure Level where
  test    : Word := 0
  cont    : Word := 0
  primary : Word := 0
  alts    : List Word := []
  nalt    : Nat := 0
  ticks   : Nat := 0
  noreg   : Bool := false
  conv    : Nat := 0
  routine : Nat := 0
  /-- STATE of RSTATUS: 1 routine, 2 test, 3 rolling back -/
  phase   : Nat := 1
  last    : Nat := 0
  fcode   : Nat := 0
  /-- DETAIL of the cause that brought the level down: of 0x62 0 for scratchpad words, 1 for lines (R298) -/
  fdetail : Nat := 0
  /-- the code ELSEERR recorded, where the routine reached one (R184, R290) -/
  errCode : Option Nat := Option.none
  /-- barrier arrivals and phases when the level opened (R186) -/
  arrivals : FMap LaneSet := []
  phases  : FMap Nat := []
  /-- charged ticks of the routine and its test (R304) -/
  used    : Nat := 0
  /-- the header of the clause holding the ENSURE, the word's index there, and the address of the descriptor (R304) -/
  ensure  : Word := 0
  ensWord : Nat := 0
  ensAddr : DWord := 0
  lanes   : FMap LaneLog := []
  scratch : FMap (Word × Bool) := []
  /-- global lines by line number: the 128 bytes and the poisoned words before the first write -/
  lines   : FMap (List (BitVec 8) × List Nat) := []
  deriving DecidableEq, Repr

/-- A rollback that has begun (R302): the level, and whether it ends in a flush (R304) or in termination with a cause. -/
structure Rollback where
  level : Nat
  last  : Nat
  flush : Bool := false
  terminate : Option Nat := Option.none
  deriving DecidableEq, Repr

/-- Lanes that have arrived at a recovery word (R184): the word, its operands, and the lanes by group number. -/
structure RecArrival where
  op    : Nat
  addr  : DWord := 0
  code  : Nat := 0
  hdr   : Word := 0
  word  : Nat := 0
  lanes : FMap LaneSet := []
  /-- the predicate of ACCEPT held in every arrived lane -/
  pass  : Bool := true
  deriving DecidableEq, Repr

/-! ### Teams and grids -/

/-- Where a team is (R193, R322, R329). -/
inductive Where where
  | undispatched
  | resident (cl : Nat)
  | saved (part slot : Nat)
  | record
  | gone
  deriving DecidableEq, Repr

/-- A pre-emption in progress (R328, R329): what is to be done with the team. -/
inductive Preempt where
  | no | drain (until_ : Nat) | save | flush | restart | heldOut
  deriving DecidableEq, Repr

/-- One team (R190 to R193, R210, R295). -/
structure Team where
  grid    : Nat := 0
  linear  : Nat := 0
  idX     : Nat := 0
  idY     : Nat := 0
  idZ     : Nat := 0
  lanes   : Nat := 0
  groups  : List Nat := []
  place   : Where := .undispatched
  scrBase : Nat := 0
  scrSize : Nat := 0
  clearing : Bool := false
  /-- barrier phases and, by barrier × 16 + group number, the lanes arrived (R178) -/
  phases  : FMap Nat := []
  arrivals : FMap LaneSet := []
  /-- releases that the arrivals of a phase still owe: the access number below which they count (R178) -/
  arrUpto : FMap Nat := []
  gridArr : FMap LaneSet := []
  gridUpto : Nat := 0
  gphase  : Nat := 0
  succok  : Bool := false
  children : List Nat := []
  /-- the child the team launched last; a restart keeps it (R321, R329) -/
  lastChild : Option Nat := Option.none
  levels  : List Level := []
  /-- arrivals at recovery words, one entry for each word (R184) -/
  recArrivals : List RecArrival := []
  rollback : Option Rollback := Option.none
  convs   : List Nat := []
  /-- the cluster from which the team was saved since the last update of the meters (R382) -/
  savedOn : Option Nat := Option.none
  /-- what the meters have given the team since its JOBENERGY was written to its slot (R352, R382) -/
  saveGain : Nat := 0
  wdcount : Nat := 0
  energy  : Nat := 0
  energyCarry : Nat := 0
  /-- tick at which the team became dispatchable or was saved (R322) -/
  since   : Nat := 0
  preempt : Preempt := .no
  /-- the team holds the activation banks, or an accumulator store (R140, R213) -/
  act     : Bool := false
  acc0    : Bool := false
  acc1    : Bool := false
  /-- an admission reservation: passed over since (R323) -/
  passedOver : Option Nat := Option.none
  deriving DecidableEq, Repr

/-- Where a part of an access goes (R142, R162, R395). -/
inductive Space where
  | global | host | fabric | scratch
  deriving DecidableEq, Repr

/-- Where an address of a partition leads, or the cause it meets with its DETAIL if it has one of its own, judged in the order of
R224. -/
inductive Target where
  | ok (space : Space) (pa : Nat)
  | bad (code : Nat) (detail : Option Nat)
  deriving DecidableEq, Repr

/-- A launch record (R313), read from its 128 bytes, which are kept. -/
structure LaunchRec where
  bytes   : List (BitVec 8) := []
  code    : Nat := 0
  words   : Nat := 0
  entry   : Word := 0
  handler : Word := 0xFFFFFFFF
  flags   : Word := 0
  gridX   : Nat := 1
  gridY   : Nat := 1
  gridZ   : Nat := 1
  teamX   : Nat := 1
  teamY   : Nat := 1
  teamZ   : Nat := 1
  shared  : Nat := 0
  param   : DWord := 0
  exitArea : Nat := 0
  exitCap : Nat := 0
  ringCap : Nat := 0
  ring    : Nat := 0
  safetab : Nat := 0
  drainest : Nat := 0
  done    : Nat := 0
  deriving DecidableEq, Repr

/-- One grid (R193, R313 to R325). -/
structure Grid where
  part    : Nat := 0
  depth   : Nat := 0
  parent  : Option Nat := Option.none
  queue   : Option Nat := Option.none
  pred    : Option Nat := Option.none
  record  : LaunchRec := {}
  /-- the die in whose child queues a child grid waits (R320) -/
  die     : Nat := 0
  /-- launch order -/
  order   : Nat := 0
  /-- the tick at which the grid became ready (R322) -/
  readyAt : Option Nat := Option.none
  /-- the next team has been passed over, first in its effective priority, since (R323) -/
  passed  : Option Nat := Option.none
  next    : Nat := 0
  again   : List Nat := []
  saved   : List Nat := []
  live    : List Nat := []
  retiredTeams : Nat := 0
  signalled : Nat := 0
  exits   : Nat := 0
  /-- overflow ring head and tail (R320) -/
  ringHead : Nat := 0
  ringTail : Nat := 0
  /-- the child grids whose records lie in the overflow ring, in ring order (R320) -/
  ringIds : List Nat := []
  /-- child grids of teams that were flushed and restarted: they delay the grid's retirement (R329) -/
  orphans : List Nat := []
  gphase  : Nat := 0
  /-- the tick and the cluster of the last arrival at the grid barrier (R325) -/
  gbarTick : Nat := 0
  gbarCl  : Nat := 0
  /-- clusters still to be released from a completed phase, with their ticks (R325) -/
  releases : List (Nat × Nat) := []
  energy  : Nat := 0
  retired : Bool := false
  /-- a child grid has entered its child queue: its place in queue order (R320, R322) -/
  qorder  : Option Nat := Option.none
  deriving DecidableEq, Repr

/-! ### Memory accesses under way -/

/-- One lane's piece of an access: an LDPK6 block across a line has two (R149). -/
structure Part where
  lane  : Nat
  space : Space
  addr  : Nat
  len   : Nat
  /-- the virtual address, or the offset in the team's scratchpad -/
  va    : Nat := 0
  /-- first byte of the lane's data that this piece carries -/
  base  : Nat := 0
  data  : List (BitVec 8) := []
  val   : Option (List (BitVec 8)) := Option.none
  /-- a word of the value was poisoned -/
  pois  : List Nat := []
  done  : Bool := false
  /-- a store that stands in the L1 of its cluster, where the whole cluster sees it, and is still to be performed at the line's slice: the place it
  took in the L1's order of stores (R214) -/
  entered : Option Nat := Option.none
  /-- it arrived at a line that was tentative at a level its team is not party to (R242) -/
  waited : Bool := false
  /-- a region access of this slot (R274) -/
  region : Option Nat := Option.none
  /-- the access was refused and waits for this region, by its slot and the number under which it opened (R278) -/
  refusedBy : Option (Nat × Nat) := Option.none
  /-- the lane had gone on with later words when the access was refused, and the point in a clause at which it was parked then (R161, R278) -/
  late   : Bool := false
  back   : Option ResumePt := Option.none
  deriving DecidableEq, Repr

/-- A memory access of a word, from issue until it has been performed (R144, R157, R230). -/
structure Access where
  kind   : AccKind
  group  : Nat
  cluster : Nat
  team   : Nat
  order  : Nat
  scope  : Nat
  reuse  : Nat := 0
  /-- destination register in the numbering of R40, the number of registers, and the load format: 0 zero-extended, 1 sign-extended -/
  dest   : Option Nat := Option.none
  nregs  : Nat := 0
  width  : Nat := 4
  sext   : Bool := false
  parts  : List Part := []
  hdr    : Word := 0
  word   : Nat := 0
  /-- index of the word after this one (R278) -/
  after  : Nat := 0
  classOp : Nat := 0
  deriving DecidableEq, Repr

/-- A result that is on its way to registers (R19, R203). -/
inductive ProdKind where
  | sfu | lread | objdecl | launch | meter
  deriving DecidableEq, Repr

/-- A long-latency producer other than a memory access. -/
structure Producer where
  kind  : ProdKind
  group : Nat
  /-- lane, register, value -/
  dests : List (Nat × Nat × Word) := []
  /-- scalar register, value -/
  sdests : List (Nat × Word) := []
  /-- the activation bank a VACT in flight has latched (R139) -/
  bank  : Option Nat := Option.none
  /-- the words the producer still needs: record bytes and address of OBJDECL and LAUNCH -/
  block : List (BitVec 8) := []
  deriving DecidableEq, Repr

/-! ### Engines -/

/-- An engine command (R168 to R173). Units: 0 and 1 the matrix engines, 2 copy engine, 3 collective unit, 4 object agent,
5 activation loader. -/
structure Command where
  unit    : Nat
  op      : Nat
  cluster : Nat
  part    : Nat
  team    : Nat
  group   : Nat
  gid     : Nat := 0
  hdr     : Word
  word    : Nat := 0
  ec      : Nat
  /-- address of the block, and the bytes read at issue: the block, then the records it names -/
  addr    : DWord := 0
  block   : List (BitVec 8) := []
  src     : List (BitVec 8) := []
  dst     : List (BitVec 8) := []
  table   : List (BitVec 8) := []
  /-- scalar operand: position or rectangle word, object identifier -/
  operand : Word := 0
  eng     : Nat := 0
  reg     : Nat := 0
  act     : LaneSet := 0
  vals    : FMap Word := []
  started : Bool := false
  /-- accesses issued before the command with a smaller number (R169 step 3) -/
  upto    : Nat := 0
  /-- global lines owned and scratchpad lines whose presence it cleared (R169 step 5, R171) -/
  owned   : List Nat := []
  cleared : List Nat := []
  /-- lines that were tentative at a level of another team when the command was queued (R242) -/
  waited  : List Nat := []
  /-- which of its communicator's collectives this one is (R266) -/
  seq     : Nat := 0
  /-- the place it took among the commands that have started (R172, R254) -/
  begun   : Nat := 0
  /-- the lines of its global destinations, by VA / 128, as they translated when it started (R226) -/
  xlat    : FMap Target := []
  objs    : List Nat := []
  bank    : Nat := 0
  /-- the phase of a collective, and what a PHASEEND has seen (R266, R267) -/
  sweep   : Option (Nat × Nat) := Option.none
  failed  : Option Nat := Option.none
  startTick : Nat := 0
  deriving DecidableEq, Repr

/-- A declared object (R175, R237, R238). -/
structure Obj where
  part    : Nat
  first   : Nat
  lines   : List Nat
  /-- the physical addresses of the first and the last byte of its footprint, in its first and its last line -/
  head    : Nat := 0
  tail    : Nat := 0
  holder  : Option Nat
  /-- requests in the order of arrival: a cluster, or 160 for the home slice, to which a region's write recalls the token (R239, R244) -/
  requests : List Nat := []
  /-- the word whose request brought the token to the holder (R239) -/
  brought : Option Nat := Option.none
  deriving DecidableEq, Repr

/-- A region slot (R273). -/
structure Slot where
  /-- 0 free, 1 open, 2 ending, 3 committing, 4 aborting, 5 reserved for retry -/
  phase   : Nat := 0
  preds   : List (Nat × Bool) := []
  anc     : List Nat := []
  depth   : Nat := 1
  reads   : List Nat := []
  writes  : List Nat := []
  aborts  : Nat := 0
  serial  : Bool := false
  overflow : Bool := false
  inval   : Bool := false
  ldepth  : Nat := 0
  group   : Nat := 0
  lane    : Nat := 0
  restart : Word := 0
  /-- bytes written, the uncommitted versions (R275) -/
  bytes   : FMap (BitVec 8) := []
  /-- the words that a store has written whole, which are no longer poisoned in the version (R161, R212, R348) -/
  whole   : FMap Unit := []
  check   : Checkpoint := {}
  level   : Nat := 0
  /-- when the reservation or the region began -/
  since   : Nat := 0
  /-- the number under which the region opened, which tells it from an earlier one of the slot -/
  born    : Nat := 0
  deriving DecidableEq, Repr

/-- A lane waiting for a region slot or the serial token (R180, R285). -/
structure SlotWaiter where
  group : Nat
  lane  : Nat
  serial : Bool
  slot  : Option Nat
  hdr   : Word
  deriving DecidableEq, Repr

/-! ### Places of the package -/

/-- A slice of a cluster (R13, R196, R377). -/
structure Slice where
  laneMap : Word := Config.laneMapFuses
  passDiv : Nat := 4
  ratio   : Nat := 2
  /-- the divisor and ratio the controller asks for, taken up at a run boundary (R16) -/
  passDivNext : Nat := 4
  ratioNext : Nat := 2
  /-- CYCLE at `cycleTime`, the remainder of a cycle in units of `time` × ratio, and that time -/
  cycle   : Nat := 0
  cycleFrac : Nat := 0
  cycleTime : Nat := 0
  /-- the last cycle was a stretched one (R371) -/
  slow    : Bool := false
  /-- numbers of cycles to come in whose sample the droop detector will find an alarm, ascending: an input (R370) -/
  due     : List Nat := []
  droopThr : Nat := 0
  stretchN : Nat := 6
  halveN  : Nat := 64
  sliceMax : Nat := 8
  penalty : Nat := 0
  alarms  : Nat := 0
  replays : Nat := 0
  alarmsNow : Nat := 0
  /-- stretched cycles and halved-window cycles still to come (R370) -/
  stretch : Nat := 0
  halved  : Nat := 0
  /-- the length of the halved window under way: its first, third, ... cycle issues nothing (R370) -/
  window  : Nat := 0
  lastSlot : Nat := 15
  lastGroup : Option Nat := Option.none
  lastEnd : Nat := 0
  /-- CYCLE when the last run ended (R196) -/
  endCycle : Nat := 0
  /-- CYCLE when the last word began (R26, R202) -/
  wordAt  : Nat := 0
  busy    : Nat := 0
  stalls  : FMap Nat := []
  /-- cycles since cluster reset that BUSY or a stall count already holds (R366) -/
  counted : Nat := 0
  deriving DecidableEq, Repr

/-- A cluster (R2, R209, R213, R214, R389). -/
structure Cluster where
  /-- CLASSIGN: the partition, enabled; and a write that is held -/
  part    : Nat := 0
  enabled : Bool := false
  held    : Option DWord := Option.none
  step    : Nat := 28
  budget  : Nat := 32
  slices  : FMap Slice := []
  scratch : Mem := []
  scrPoison : FMap Unit := []
  absent  : FMap Unit := []
  acc0    : FMap Word := []
  acc1    : FMap Word := []
  accPoison : FMap Unit := []
  /-- codebook banks: engine × 2 + bank, 256 entries each (key × 256 + entry), and the current bank of each engine -/
  books   : FMap Word := []
  book0   : Nat := 0
  book1   : Nat := 0
  /-- activation banks as bytes: bank × 4096 + offset -/
  actBytes : Mem := []
  actBank : Nat := 0
  actGen  : Word := 0
  /-- the L1: by set × 16 + way the line and its prediction value; the bytes of copy lines that others have since overwritten; the held lines that
  are dirty (R209, R214, R219, R240) -/
  l1      : FMap (Nat × Nat) := []
  /-- lines that its accesses found there, and that they did not (R365) -/
  l1Hits  : Nat := 0
  l1Misses : Nat := 0
  stale   : FMap (BitVec 8) := []
  dirty   : FMap Unit := []
  /-- scratchpad words with flipped bits that nothing has read yet, an input: how many bits (R212) -/
  scrErr  : FMap Nat := []
  /-- cached translations: partition × 2^40 + VA[55:16] to the leaf entry and its level (R225) -/
  tlb     : FMap (DWord × Nat) := []
  frozen  : Option Nat := Option.none
  frozenGroup : Nat := 0
  attached : Bool := false
  engBusy : FMap Nat := []
  deriving DecidableEq, Repr

/-- A die (R216, R225, R272, R285, R320). -/
structure Die where
  slots   : FMap Slot := []
  waiters : List SlotWaiter := []
  tokenHolder : Option Nat := Option.none
  tokenWaiters : List SlotWaiter := []
  /-- child queues by priority: the child grids whose teams have not all been dispatched, in queue order (R320) -/
  childQueues : FMap (List Nat) := []
  tlb     : FMap (DWord × Nat) := []
  gates   : Nat := 0
  deriving DecidableEq, Repr

/-- An LLC slice (R216 to R221). -/
structure LlcSlice where
  ways    : Nat := 16
  /-- the lines it holds: by set × 16 + way the line and its prediction value (R219) -/
  lines   : FMap (Nat × Nat) := []
  /-- requests so far, and which of the last 65,536 missed (R220) -/
  reqs    : Nat := 0
  /-- requests that missed (R365) -/
  misses  : Nat := 0
  missed  : List Nat := []
  /-- lines that have migrated away, with the slice that holds them, the oldest entry first (R217) -/
  forwards : List (Nat × Nat) := []
  /-- by line: the cluster that used it last and how many times in a row (R217) -/
  lastUse : FMap (Nat × Nat) := []
  moves   : Nat := 0
  /-- bytes that requests of each partition moved here (R380) -/
  moved   : FMap Nat := []
  deriving DecidableEq, Repr

/-- A page request at the page-fault service (R164, R225, R394). -/
structure PageReq where
  part : Nat
  page : Nat
  sent : Bool
  /-- 0x31 or 0x35, as byte 8 of the request carries it -/
  cause : Nat := 0x31
  deriving DecidableEq, Repr

/-- A ring in device memory as GSBASE and GSPTR lay one out (R364): base, HEAD, TAIL, SIZE. -/
structure Ring where
  base : DWord := 0
  head : Nat := 0
  tail : Nat := 0
  size : Nat := 0
  deriving DecidableEq, Repr

/-- The registers and tables of a partition (R389, R391). -/
structure Partition where
  partcfg  : DWord := 0
  savebase : DWord := 0
  slotsUsed : List Nat := []
  root     : Nat := 0
  wdlimit  : Word := 0x00040000
  pfloor   : DWord := 0
  prallow  : DWord := 0
  stopped  : List Nat := []
  /-- a PRCTL write with GO that waits for grid barrier releases under way (R331) -/
  goWait   : Option DWord := Option.none
  haltlim  : Word := 0x00100000
  dumpEn   : Bool := false
  dumpHold : Nat := 30000
  bpaddr   : FMap DWord := []
  bpctl    : FMap Word := []
  /-- the record log (R368, R369), the job ring (R383) and the page-fault ring (R394) -/
  rl       : Ring := {}
  noreplay : Bool := false
  fromord  : Nat := 0
  dropped  : Nat := 0
  jr       : Ring := {}
  jseq     : Nat := 0
  jlost    : Nat := 0
  jobs     : List (List (BitVec 8)) := []
  pfq      : Ring := {}
  tlbinva  : DWord := 0
  tlbinvn  : DWord := 0
  tlbUpto  : Nat := 0
  hwin     : FMap DWord := []
  fwin     : FMap DWord := []
  errcnt   : FMap Nat := []
  pmeter   : Nat := 0
  pmeterCarry : Nat := 0
  sent     : DWord := 0
  received : DWord := 0
  fenced   : Bool := false
  reservation : Option (Nat × Nat × Nat) := Option.none
  /-- the tick of the GO that waits (R329) -/
  goTick   : Nat := 0
  /-- the place in the object table that the next OBJDECL tries first (R175), the model's own -/
  objNext  : Nat := 0
  deriving DecidableEq, Repr

/-- A host launch queue (R318). -/
structure HostQueue where
  base : DWord := 0
  ctl  : DWord := 0
  head : Nat := 0
  tail : Nat := 0
  /-- the grid read last, and whether the host asked for a dependence on it -/
  lastGrid : Option Nat := Option.none
  deriving DecidableEq, Repr

/-- The registers of the module (R391). -/
structure Module where
  /-- the host queue that was served last (R322) -/
  lastQueue : Nat := 31
  bootstat : Nat := 6
  modcap   : Nat := 3200
  idleFloor : Nat := Config.idleFloorFuses
  /-- the tick of the last control interval, and what its decision left in PWRSTAT (R375, R378) -/
  ctlLast  : Nat := 0
  unmet    : Bool := false
  scaled   : Bool := false
  power    : Nat := 0
  droopMax : Nat := 16
  gsctl    : DWord := 32
  gs       : Ring := {}
  gsseq    : Nat := 0
  gslost   : Nat := 0
  /-- the tick of the last sample (R364) -/
  gsLast   : Nat := 0
  /-- a reading is being made: bytes 0 to 95 of it, latched (R384) -/
  sigData  : Option (List (BitVec 8)) := Option.none
  sigjob   : DWord := 0
  signonce : DWord := 0
  sigbuf   : DWord := 0
  sigMiss  : Bool := false
  sigseq   : Nat := 0
  gen      : Nat := 1
  house    : Nat := 0
  inpute   : Nat := 0
  inputCarry : Nat := 0
  mettick  : Nat := 0
  scrubEn  : Bool := true
  scrubPass : Nat := 24
  scrubThresh : Nat := 64
  /-- by bank: corrected errors in the window, and the tick at which the window began (R386) -/
  corrected : FMap Nat := []
  window   : FMap Nat := []
  strong   : FMap Unit := []
  bankQueue : List Nat := []
  portstat : FMap Nat := []
  /-- flits received and retries by port, and corrected errors of device memory by bank, since cold reset (R365) -/
  flitsIn  : FMap Nat := []
  retries  : FMap Nat := []
  corrBank : FMap Nat := []
  /-- flits carrying each partition's key (R380), and the bytes and flits that the last update of the meters has divided -/
  flits    : FMap Nat := []
  movedLast : FMap Nat := []
  flitsLast : FMap Nat := []
  /-- a warm reset fell in the interval: its energy goes to house (R384) -/
  houseAll : Bool := false
  /-- the MSI-X vectors signalled, the last one last (R390, R394) -/
  signals  : List Nat := []
  serial   : DWord := Config.serialFuses
  modnum   : Nat := 0
  deriving DecidableEq, Repr

/-- A member of a conversation table entry (R305): the object's physical address, its partition, its TEAMS, its member teams. -/
structure Conversation where
  part    : Nat
  teams   : Nat
  members : List Nat
  deriving DecidableEq, Repr

/-- A packet of a fabric collective that has reached the module (R266, R267): the partition whose key it carries, the communicator's identity, and what it
brings from the member of a relabelled rank. -/
structure Packet where
  part    : Nat
  members : Nat
  key     : Nat
  /-- 0 a vector towards this member, 1 the result that comes down from its parent, 2 the rank has issued PHASEEND -/
  kind    : Nat
  rank    : Nat
  /-- which of the communicator's collectives it belongs to -/
  seq     : Nat := 0
  data    : List (BitVec 8) := []
  deriving DecidableEq, Repr

/-- How many collectives a communicator of a partition has been given here: the next one's number (R266). -/
structure CommCount where
  part    : Nat
  members : Nat
  key     : Nat
  next    : Nat
  deriving DecidableEq, Repr

/-- An access from outside that waits, at a device physical address: of the host through a window, or of another module over a fabric port (R227, R395,
R396). -/
structure Outside where
  /-- the number under which it arrived -/
  num   : Nat
  port  : Option Nat
  part  : Nat
  /-- 0 a read, 1 a write, 2 an atomic -/
  kind  : Nat
  /-- the atomic's opcode -/
  op    : Nat := 0
  /-- a control-space write of the host, which waits behind the host writes that arrived before it (R391) -/
  reg   : Option Instr := Option.none
  addr  : Nat
  len   : Nat
  data  : List (BitVec 8) := []
  /-- it arrived at a line that was tentative (R242) -/
  waited : Bool := false
  deriving DecidableEq, Repr

/-- An error of an on-die array (R385, R387, R388): corrected, in data of a partition; or uncorrectable, in a codebook entry, keyed as `Cluster.books`, a
word of the activation banks, an element of an accumulator store, keyed as `Cluster.accPoison`, a region slot, an object's entry, or eight bytes of device memory, by their
number, that a dirty L1 line or the LLC holds. The entry of an activation bank is a segment of 12 bytes. -/
inductive ArrayError where
  | corrected (part : Nat)
  | codebook (cl key : Nat)
  | activation (cl entry : Nat)
  | accumulator (cl key : Nat)
  | slot (id : Nat)
  | object (k : Nat)
  | cached (eight : Nat)
  deriving DecidableEq, Repr

/-- The machine. -/
structure State where
  /-- the reference counter in 840ths of a tick (R6, R103: a slice cycle lasts 8/SLICERATIO ticks) -/
  time     : Nat
  /-- device memory, its poisoned 4-byte words, and host memory -/
  mem      : Mem
  poison   : FMap Unit
  hostMem  : Mem
  /-- 4-byte words of host memory whose read completes with an error or poisoned (R336, cause 0x3A), an input -/
  hostErr  : FMap Unit
  /-- wrong symbols in half-lines of device memory, by half-line number, that nothing has read yet, an input (R385) -/
  dramErr  : FMap Nat
  /-- memory of other modules behind the windows that answer this module, as it is seen here, by key × 2^56 + fabric address, an input; and the size in units of
  2^16 bytes of the windows, by key × 2^20 + (fabric address without bit 55) / 2^35 (R395, R396) -/
  remote   : Mem
  remoteWin : FMap Nat
  clusters : FMap Cluster
  dies     : FMap Die
  llc      : FMap LlcSlice
  parts    : FMap Partition
  queues   : FMap HostQueue
  module   : Module
  grids    : FMap Grid
  teams    : FMap Team
  groups   : FMap Group
  accesses : FMap Access
  producers : FMap Producer
  commands : FMap Command
  objects  : FMap Obj
  /-- bytes whose latest write, by a relaxed atomic of the cluster named, need not have reached other clusters yet, with the byte before it (R271) -/
  unsettled : FMap (Nat × BitVec 8)
  convs    : FMap Conversation
  /-- access order of sectors touched by uncommitted regions: slot identifier and whether it wrote (R276) -/
  sectors  : FMap (List (Nat × Bool))
  pages    : List PageReq
  /-- packets of collectives that have arrived and that no command has used, in order of arrival (R266, R267) -/
  fabric   : List Packet
  colls    : List CommCount
  /-- accesses of the host and of other modules that wait, and those behind them, in order of arrival (R227, R246, R396) -/
  outside  : List Outside
  /-- earlier values of code words, by word of device memory (word of host memory + 2^72, of another module with the key): when each was overwritten, and the word that stood there (R402) -/
  codeOld  : FMap (List (Nat × Word))
  /-- errors of on-die arrays, with the tick at which each comes to light, ascending: an input (R387) -/
  errors   : List (Nat × ArrayError)
  /-- member modules whose link has failed or whose key has been revoked (R267, R397) -/
  down     : FMap Unit
  /-- readings of the control interval (R380), an input: 0 to 159 the clusters' rails, 160 the input energy, 161 LLC and DRAM dynamic, 162
  static, 163 fabric ports, 164 idle and uncore, all in nJ; 220 + p the allocated capacity of partition p, 228 the whole capacity, which no register
  of the spec holds -/
  rails    : FMap Nat
  /-- bytes that the last host read through a window returned, and whether any was poisoned (R227) -/
  hostRead : List (BitVec 8) × Bool
  /-- bytes that the last fabric access answered, and whether they were poisoned (R396) -/
  fabricRead : List (BitVec 8) × Bool
  /-- the model's own: what runs next, the group whose word issues, the numbers given out -/
  agenda   : List Instr
  cur      : Nat
  fresh    : Nat
  deriving DecidableEq, Repr

/-- The machine right after reset: the module at bring-up step 6 (R398), no team resident, memory with nothing listed. -/
def State.reset : State where
  time := 0
  mem := []
  poison := []
  hostMem := []
  hostErr := []
  dramErr := []
  remote := []
  remoteWin := []
  clusters := []
  dies := []
  llc := []
  parts := []
  queues := []
  module := {}
  grids := []
  teams := []
  groups := []
  accesses := []
  producers := []
  commands := []
  objects := []
  unsettled := []
  convs := []
  sectors := []
  pages := []
  fabric := []
  colls := []
  outside := []
  codeOld := []
  errors := []
  down := []
  rails := []
  hostRead := ([], false)
  fabricRead := ([], false)
  agenda := []
  cur := 0
  fresh := 1

end Sys2Proof.Machine
end

