-- ==== Sys2Proof/Machine/Ops.lean ====
section
/-! DEFINITION. Named operations over the state: reading and changing the agents, sets of lanes, time, the flow of a run,
regions and barriers as far as an exception needs them, and taking an exception (23) with the return from one (R102). -/
namespace Sys2Proof.Machine

/-! ### Reading and changing the agents -/

/-- The group of a number. -/
def State.group (s : State) (k : Nat) : Group := FMap.at {} s.groups k
/-- The state with a group replaced. -/
def State.setGroup (s : State) (k : Nat) (g : Group) : State := { s with groups := FMap.put s.groups k g }
/-- The state with a group changed. -/
def State.onGroup (s : State) (k : Nat) (f : Group → Group) : State := s.setGroup k (f (s.group k))
/-- The group whose word issues. -/
def State.me (s : State) : Group := s.group s.cur
/-- The state with the issuing group changed. -/
def State.onMe (s : State) (f : Group → Group) : State := s.onGroup s.cur f
/-- The team of a number. -/
def State.team (s : State) (k : Nat) : Team := FMap.at {} s.teams k
/-- The state with a team replaced. -/
def State.setTeam (s : State) (k : Nat) (t : Team) : State := { s with teams := FMap.put s.teams k t }
/-- The state with a team changed. -/
def State.onTeam (s : State) (k : Nat) (f : Team → Team) : State := s.setTeam k (f (s.team k))
/-- The grid of a number. -/
def State.grid (s : State) (k : Nat) : Grid := FMap.at {} s.grids k
/-- The state with a grid changed. -/
def State.onGrid (s : State) (k : Nat) (f : Grid → Grid) : State := { s with grids := FMap.put s.grids k (f (s.grid k)) }
/-- The cluster of a number (R13 CLUSTERID). -/
def State.cluster (s : State) (k : Nat) : Cluster := FMap.at {} s.clusters k
/-- The state with a cluster replaced. -/
def State.setCluster (s : State) (k : Nat) (c : Cluster) : State := { s with clusters := FMap.put s.clusters k c }
/-- The state with a cluster changed. -/
def State.onCluster (s : State) (k : Nat) (f : Cluster → Cluster) : State := s.setCluster k (f (s.cluster k))
/-- A slice of a cluster. -/
def Cluster.slice (c : Cluster) (k : Nat) : Slice := FMap.at {} c.slices k
/-- A cluster with a slice changed. -/
def Cluster.onSlice (c : Cluster) (k : Nat) (f : Slice → Slice) : Cluster :=
  { c with slices := FMap.put c.slices k (f (c.slice k)) }
/-- A die. -/
def State.die (s : State) (k : Nat) : Die := FMap.at {} s.dies k
/-- The state with a die changed. -/
def State.onDie (s : State) (k : Nat) (f : Die → Die) : State := { s with dies := FMap.put s.dies k (f (s.die k)) }
/-- A partition. -/
def State.part (s : State) (k : Nat) : Partition := FMap.at {} s.parts k
/-- The state with a partition changed. -/
def State.onPart (s : State) (k : Nat) (f : Partition → Partition) : State :=
  { s with parts := FMap.put s.parts k (f (s.part k)) }
/-- The state with the module's registers changed. -/
def State.onModule (s : State) (f : Module → Module) : State := { s with module := f s.module }
/-- An MSI-X vector signalled to the host (R390, R394). -/
def State.signal (s : State) (v : Nat) : State := s.onModule (fun m => { m with signals := m.signals ++ [v] })
/-- The die of a cluster: 0 to 79 on die 0, 80 to 159 on die 1 (R13). -/
def dieOf (cl : Nat) : Nat := cl / 80
/-- The team of the issuing group. -/
def State.myTeam (s : State) : Team := s.team s.me.team
/-- The grid of a group. -/
def State.gridOf (s : State) (g : Group) : Grid := s.grid (s.team g.team).grid
/-- The partition number of a group. -/
def State.partOf (s : State) (g : Group) : Nat := (s.gridOf g).part
/-- A number not given out before, and the state in which it has been. -/
def State.take (s : State) : Nat × State := (s.fresh, { s with fresh := s.fresh + 1 })

/-! ### Sets of lanes -/

/-- The number whose bit l is set when p l holds, for l below n. -/
def setNat (p : Nat → Bool) : Nat → Nat
  | 0 => 0
  | n + 1 => (if p n then 2 ^ n else 0) + setNat p n

/-- The set of lanes for which p holds. -/
def setOf (p : Nat → Bool) : LaneSet := BitVec.ofNat 64 (setNat p 64)

/-- A lane is in a set. -/
def inSet (m : LaneSet) (l : Nat) : Bool := m.getLsbD l

/-- The lanes of a set, ascending. -/
def lanesIn (m : LaneSet) : List Nat := (List.range 64).filter (fun l => inSet m l)

/-- The lowest-numbered lane of a set (R88, R91, R100). -/
def lowest (m : LaneSet) : Nat := (lanesIn m).headD 0

/-- The set of one lane. -/
def oneLane (l : Nat) : LaneSet := setOf (fun k => k == l)

/-- A lane of a group. -/
def Group.lane (g : Group) (l : Nat) : Lane := FMap.at {} g.lanes l

/-- The group with each lane of a set changed. -/
def Group.mapLanes (g : Group) (m : LaneSet) (f : Nat → Lane → Lane) : Group :=
  { g with lanes := (List.range 64).map (fun l => (l, if inSet m l then f l (g.lane l) else g.lane l)) }

/-- The group with one lane changed. -/
def Group.onLane (g : Group) (l : Nat) (f : Lane → Lane) : Group :=
  { g with lanes := FMap.put g.lanes l (f (g.lane l)) }

/-- A live lane (R10). -/
def Lane.isLive (n : Lane) : Bool := n.cond == .live
/-- A parked lane (R10). -/
def Lane.isParked (n : Lane) : Bool := match n.cond with | .parked _ => true | _ => false
/-- A lane of the expected set: live or parked (R178). -/
def Lane.counts (n : Lane) : Bool := n.isLive || n.isParked

/-- The live lanes of a group. -/
def Group.liveSet (g : Group) : LaneSet := setOf (fun l => (g.lane l).isLive)
/-- The live and parked lanes of a group. -/
def Group.countSet (g : Group) : LaneSet := setOf (fun l => (g.lane l).counts)
/-- The lanes of a set that are in a region. -/
def Group.regionSet (g : Group) (m : LaneSet) : LaneSet := setOf (fun l => inSet m l && (g.lane l).region.isSome)

/-- A scalar register (R11). -/
def Group.s (g : Group) (n : Nat) : Word := FMap.at 0 g.sregs n
/-- A scalar register written and marked full. -/
def Group.setS (g : Group) (n : Nat) (v : Word) : Group :=
  { g with sregs := FMap.put g.sregs n v, sEmpty := g.sEmpty &&& ~~~(1#32 <<< n) }
/-- A scalar register marked empty (R19); its value stays. -/
def Group.emptyS (g : Group) (n : Nat) : Group := { g with sEmpty := g.sEmpty ||| (1#32 <<< n) }
/-- A scalar register is empty. -/
def Group.sIsEmpty (g : Group) (n : Nat) : Bool := g.sEmpty.getLsbD n
/-- A 64-bit value of an even pair of scalar registers, the low word in the even one (R11). -/
def Group.sPair (g : Group) (n : Nat) : DWord := g.s (n + 1) ++ g.s n
/-- An event counter (R11). -/
def Group.counter (g : Group) (n : Nat) : Nat := (FMap.at 0 g.ec n).toNat
/-- An event counter set. -/
def Group.setCounter (g : Group) (n v : Nat) : Group := { g with ec := FMap.put g.ec n (BitVec.ofNat 16 v) }

/-- A register of the v or o file of a lane (0 to 71 in the numbering of R40). -/
def Lane.reg (n : Lane) (r : Nat) : Word := FMap.at 0 n.regs r
/-- A register is empty (R19). -/
def Lane.isEmpty (n : Lane) (r : Nat) : Bool := n.empty.getLsbD r
/-- A register written and marked full. -/
def Lane.setReg (n : Lane) (r : Nat) (v : Word) : Lane :=
  { n with regs := FMap.put n.regs r v, empty := n.empty &&& ~~~(1#72 <<< r) }
/-- A register marked empty; its value stays (R19). -/
def Lane.emptyReg (n : Lane) (r : Nat) : Lane := { n with empty := n.empty ||| (1#72 <<< r) }
/-- The last-result latch written (R17). -/
def Lane.setLr (n : Lane) (v : Word) : Lane := { n with lr := v, lrValid := true }
/-- A predicate of a lane; number 31 is pt, which reads as true (R9). -/
def Lane.pred (n : Lane) (p : Nat) : Bool := if p = 31 then true else n.preds.getLsbD p
/-- A predicate written; numbers above 23 name none. -/
def Lane.setPred (n : Lane) (p : Nat) (v : Bool) : Lane :=
  { n with preds := if v then n.preds ||| (1#24 <<< p) else n.preds &&& ~~~(1#24 <<< p) }
/-- Flags joined into FPFLAGS. -/
def Lane.orFlags (n : Lane) (f : FpFlags) : Lane := { n with fpflags := n.fpflags ||| f }

/-! ### Pass layout, time and cost -/

/-- Number of good lanes in the window of a divisor (R199, R200). -/
def goodLanes (map : Word) (div : Nat) : Nat :=
  ((List.range (32 / div)).filter (fun i => map.getLsbD i)).length

/-- PASSCNT: the passes a group needs (R200). -/
def passCount (map : Word) (div : Nat) : Nat :=
  let e := goodLanes map div
  if e = 0 then 64 else (64 + e - 1) / e

/-- The pass of a logical lane (R200). -/
def passOf (map : Word) (div l : Nat) : Nat :=
  let e := goodLanes map div
  if e = 0 then l else l / e

/-- The slice a group is on. -/
def State.sliceOf (s : State) (g : Group) : Slice := (s.cluster g.cluster).slice g.slice

/-- The pass layout of the issuing group's run. -/
def State.passOf (s : State) (g : Group) (l : Nat) : Nat := Machine.passOf (s.sliceOf g).laneMap g.run.passDiv l

/-- The passes that hold a lane of a set, ascending (R106, R202). -/
def State.passesOf (s : State) (g : Group) (m : LaneSet) : List Nat :=
  (List.range (passCount (s.sliceOf g).laneMap g.run.passDiv)).filter
    (fun p => (lanesIn m).any (fun l => s.passOf g l == p))

/-- Pa: the number of passes that hold at least one lane of the active set (R106). -/
def State.pa (s : State) (g : Group) : Nat := (s.passesOf g g.run.act).length

/-- Ticks of the reference counter (R6). -/
def State.tick (s : State) : Nat := s.time / 840

/-- The next cycle of the halved window is one that issues nothing (R370). -/
def Slice.skips (c : Slice) : Bool := (c.window - c.halved) % 2 == 0

/-- The cycles that issue nothing among the next `n` of the halved window (R370). -/
def Slice.skipped (c : Slice) (n : Nat) : Nat := if c.skips then (n + 1) / 2 else n / 2

/-- Cycles counted under a stall reason (R366). -/
def Slice.stall (c : Slice) (reason n : Nat) : Slice :=
  { c with stalls := if n = 0 then c.stalls else FMap.put c.stalls reason (FMap.at 0 c.stalls reason + n), counted := c.counted + n }

/-- The cycles of the halved window among the next `m` cycles: it follows the stretch (R370). -/
def Slice.windowIn (c : Slice) (m : Nat) : Nat := min c.halved (m - min c.stretch m)

/-- The cycles that issue nothing among the next `m` (R370). -/
def Slice.idleIn (c : Slice) (m : Nat) : Nat := c.skipped (c.windowIn m)

/-- The length of the next `m` cycles in ordinary ones: a stretched cycle lasts twice its length (R370). -/
def Slice.length (c : Slice) (m : Nat) : Nat := m + min c.stretch m

/-- The cycles that `n` issue cycles take: in the window each of them follows a skipped one (R370). -/
def Slice.span (c : Slice) (n : Nat) : Nat :=
  let rest := n - min c.stretch n
  n + c.skipped (min c.halved (if c.skips then 2 * rest else 2 * rest - 1))

/-- A slice after `m` cycles without an alarm: each counts once in CYCLE (R103). -/
def Slice.wait (c : Slice) (m : Nat) : Slice :=
  { c with
    cycle := c.cycle + m, stretch := c.stretch - m, halved := c.halved - c.windowIn m
    slow := if m = 0 then c.slow else decide (m ≤ c.stretch) }

/-- An alarm in the cycle that has just ended (R370, R371): counted; in a stretched cycle nothing else; else a stretch begins with the next cycle, followed by a
fresh window. -/
def Slice.alarmed (c : Slice) : Slice :=
  if c.slow then { c with alarms := (c.alarms + 1) % 2 ^ 16, alarmsNow := c.alarmsNow + 1 }
  else { c with alarms := (c.alarms + 1) % 2 ^ 16, alarmsNow := c.alarmsNow + 1, stretch := c.stretchN, halved := c.halveN, window := c.halveN }

/-- A slice after `n` issue cycles, their length in ordinary cycles, and the skipped cycles among them; alarms fall due in the cycles of the list (R370, R371). -/
def Slice.issueOver : List Nat → Slice → Nat → Slice × Nat × Nat
  | [], c, n => ({ c.wait (c.span n) with due := [] }, c.length (c.span n), c.span n - n)
  | k :: ks, c, n =>
    let m := k + 1 - c.cycle
    if c.span n < m then ({ c.wait (c.span n) with due := k :: ks }, c.length (c.span n), c.span n - n)
    else
      let r := (c.wait m).alarmed.issueOver ks (n - (m - c.idleIn m))
      (r.1, c.length m + r.2.1, c.idleIn m + r.2.2)

/-- A slice after `n` cycles of any kind, and their length in ordinary cycles (R370, R371). -/
def Slice.idleOver : List Nat → Slice → Nat → Slice × Nat
  | [], c, n => ({ c.wait n with due := [] }, c.length n)
  | k :: ks, c, n =>
    let m := k + 1 - c.cycle
    if n < m then ({ c.wait n with due := k :: ks }, c.length n)
    else
      let r := (c.wait m).alarmed.idleOver ks (n - m)
      (r.1, c.length m + r.2)

/-- A slice after `e` units of time without issue or alarm, 6720 to an ordinary cycle: a stretched cycle counts under reason 4 of R366, a skipped one under reason
3. What is left of a cycle stays in `cycleFrac`. -/
def Slice.passQuiet (c : Slice) (e : Nat) : Slice :=
  let st := min c.stretch (e / 13440)
  let m := if st < c.stretch then st else st + (e - 13440 * st) / 6720
  { ((c.wait m).stall 4 st).stall 3 (c.idleIn m) with cycleFrac := e - 6720 * c.length m }

/-- `Slice.passQuiet` where alarms fall due in the cycles of the list. -/
def Slice.passOver : List Nat → Slice → Nat → Slice
  | [], c, e => { c.passQuiet e with due := [] }
  | k :: ks, c, e =>
    let m := k + 1 - c.cycle
    if e < 6720 * c.length m then { c.passQuiet e with due := k :: ks }
    else ((((c.wait m).alarmed).stall 4 (min c.stretch m)).stall 3 (c.idleIn m)).passOver ks (e - 6720 * c.length m)

/-- A slice after `dt` of `State.time` without issue (R103, R366, R370). -/
def Slice.pass (c : Slice) (dt : Nat) : Slice := c.passOver c.due (c.cycleFrac + dt * c.ratio)

/-- A slice whose cycle counter has been brought up to a time. -/
def Slice.catchUp (c : Slice) (time : Nat) : Slice := { c.pass (time - c.cycleTime) with cycleTime := time }

/-- CYCLE of a slice at a time (R103). -/
def Slice.cycleAt (c : Slice) (time : Nat) : Nat := (c.catchUp time).cycle

/-- `State.time` of one ordinary cycle: 8/SLICERATIO ticks (R103). -/
def Slice.unit (c : Slice) : Nat := if c.ratio = 0 then 6720 else 6720 / c.ratio

/-- The cycles that pass before the next issue cycle: one where the next cycle of the halved window issues nothing (R370). -/
def Slice.lead (c : Slice) : Nat := if c.stretch = 0 ∧ 0 < c.halved ∧ c.skips then 1 else 0

/-- The state after a slice has issued for `n` slice cycles: the reference counter advances by 8/SLICERATIO ticks a cycle, twice that
for a stretched cycle, which counts once in CYCLE (R103, R202). Charged ticks go to every team that holds a cluster
(R349); see `chargeTicks`. -/
def State.spend (s : State) (cl sl n : Nat) : State :=
  let c := ((s.cluster cl).slice sl).catchUp s.time
  let r := Slice.issueOver c.due c n
  let dt := r.2.1 * c.unit
  let c' := { r.1 with cycleTime := s.time + dt, busy := c.busy + n, counted := r.1.counted + n }.stall 3 r.2.2
  { s.onCluster cl (fun k => k.onSlice sl (fun _ => c')) with time := s.time + dt }

/-- The time at which the next word of a slice issues, and CYCLE then: after the cycle that the halved window skips, if one comes first (R103, R370). -/
def State.issueTime (s : State) (cl sl : Nat) : Nat × Nat :=
  let c := ((s.cluster cl).slice sl).catchUp s.time
  (s.time + c.lead * c.unit, c.cycle + c.lead)

/-! ### The flow of a run -/

/-- A slice lets `n` slice cycles pass in which it issues nothing: the switch between groups, reason 0 of R366, and the spacing
of a mix clause, reason 2 (R196, R202). -/
def State.pause (s : State) (cl sl n reason : Nat) : State :=
  let c := ((s.cluster cl).slice sl).catchUp s.time
  let r := Slice.idleOver c.due c n
  let dt := r.2 * c.unit
  let c' := { r.1 with cycleTime := s.time + dt }.stall reason n
  { s.onCluster cl (fun k => k.onSlice sl (fun _ => c')) with time := s.time + dt }

/-- The slice lets the rest of a cycle pass that is under way: words issue in whole cycles (R202). -/
def State.align (s : State) (cl sl : Nat) : State :=
  let c := ((s.cluster cl).slice sl).catchUp s.time
  let whole := if c.stretch = 0 then 6720 else 13440
  if c.cycleFrac = 0 then s else { s with time := s.time + (whole - c.cycleFrac + max 1 c.ratio - 1) / max 1 c.ratio }

/-- The run goes on with the word after this one: `n` words have issued, at a cost in slice cycles (R29, R202). -/
def State.advance (s : State) (n cost : Nat) : State :=
  let g := s.me
  (s.spend g.cluster g.slice cost).onMe fun g =>
    { g with run := { g.run with idx := g.run.idx + n, used := g.run.used + n } }

/-- A resume point at a word of a clause that has started. -/
def resumeAt (hdr : Word) (idx : Nat) (act : LaneSet) (wait : Wait) : ResumePt := { hdr := hdr, idx := idx, act := act, wait := wait }

/-- The issuing group blocks at its word: the run ends there, and issue resumes at that word with the same active set once the wait
is over (R20, R195). In a handler the word waits in the handler (R341). -/
def Group.blockAt (g : Group) (w : Wait) : Group :=
  if g.run.handler then
    { g with hidx := g.run.idx, hstart := g.run.start, hwait := w, run := { g.run with stopped := true } }
  else
    { g with
      resumes := { resumeAt g.run.hdr g.run.idx g.run.act w with start := g.run.start } :: g.resumes
      run := { g.run with stopped := true } }

/-- `Group.blockAt` for the issuing group. -/
def State.block (s : State) (w : Wait) : State := s.onMe (·.blockAt w)

/-- The address of the header that follows the current clause: header + 1 + count (R84). -/
def Run.next (r : Run) : Word := r.hdr + 1 + BitVec.ofNat 32 (hdrCount r.head)

/-- The address of the word that issues. -/
def Run.wordAddr (r : Run) : Word := r.hdr + 1 + BitVec.ofNat 32 r.idx

/-- The active lanes' program counters set by a control-ending word (R93). -/
def Group.moveTo (g : Group) (f : Nat → Word) : Group :=
  { g.mapLanes g.run.act (fun l n => { n with vpc := f l }) with run := { g.run with moved := true } }

/-- The word ends the run (R93). -/
def Group.endRun (g : Group) : Group := { g with run := { g.run with ends := true } }

/-! ### Expected sets -/

/-- Groups of a team, by number. -/
def State.teamGroups (s : State) (t : Nat) : List (Nat × Group) :=
  (s.team t).groups.map (fun k => (k, s.group k))

/-- The open recovery level of a team: RLEVEL (R13, R295). -/
def Team.rlevel (t : Team) : Nat := t.levels.length

/-- A pending access touches a lane of a set. -/
def Access.touches (a : Access) (m : LaneSet) : Bool := a.parts.any (fun p => !p.done && inSet m p.lane)

/-- An earlier load or atomic of a lane has not yet taken its value (R232). -/
def State.readPending (s : State) (grp lane below : Nat) : Bool :=
  s.accesses.any fun (n, a) => decide (n < below) && a.group == grp && a.kind != .store &&
    a.parts.any (fun p => !p.done && p.val.isNone && p.lane == lane)

/-- The teams whose levels stand or fall together: the members of the conversation that the innermost level names, else the team alone (R306). -/
def State.parties (s : State) (t : Nat) : List Nat :=
  match (s.team t).levels.getLast? with
  | some lv => if lv.conv = 0 then [t] else
      match FMap.look s.convs lv.conv with
      | some c => c.members
      | none => [t]
  | none => [t]

/-- A 128-byte line is owned by an engine command in flight (R169, R241). -/
def State.ownedLine (s : State) (line : Nat) : Bool := s.commands.any (fun p => p.2.owned.contains line)

/-- A line is tentative in a recovery level that a team is not party to (R242): a level has logged it, or a store of a team with an open level stands
on it in an L1. -/
def State.foreignLine (s : State) (t line : Nat) : Bool :=
  s.teams.any (fun p => p.2.levels.any (fun lv => FMap.has lv.lines line) && !(s.parties p.1).contains t) ||
  s.accesses.any (fun (_, a) => a.parts.any (fun p => !p.done && p.entered.isSome && p.addr / 128 == line) &&
    (s.team a.team).rlevel != 0 && !(s.parties a.team).contains t)

/-- The declared object that holds a line (R237): its identifier. -/
def State.objectOf (s : State) (line : Nat) : Option Nat :=
  (s.objects.find? (fun p => p.2.lines.contains line)).map (·.1)

/-- The 32-byte sectors of a range of bytes (R274). -/
def sectorsOf (a len : Nat) : List Nat := (List.range ((a + len - 1) / 32 - a / 32 + 1)).map (a / 32 + ·)

/-- The 128-byte lines of a range of bytes. -/
def linesOf (a len : Nat) : List Nat := (List.range ((a + len - 1) / 128 - a / 128 + 1)).map (a / 128 + ·)

/-- An uncommitted region has written a sector, or a serial region has touched it (R161, R285). -/
def State.regionSector (s : State) (x : Nat) : Bool :=
  (FMap.at [] s.sectors x).any (fun p => p.2 || (FMap.at ({} : Slot) (FMap.at ({} : Die) s.dies (p.1 / 4096)).slots (p.1 % 4096)).serial)

/-- An access from outside a region waits at these bytes (R161): an engine owns the line, it is tentative elsewhere, an uncommitted region
has written it, or a store needs a write token that its cluster does not hold. -/
def State.waitsAt (s : State) (t cl : Nat) (store : Bool) (a len : Nat) : Bool :=
  (linesOf a len).any (fun ln => s.ownedLine ln || s.foreignLine t ln ||
    (store && match s.objectOf ln with
      | some o => (FMap.look s.objects o).any (fun ob => ob.holder != some cl)
      | none => false)) ||
  (sectorsOf a len).any s.regionSector

/-- Bytes that lie in a declared object. -/
def State.inObject (s : State) (a len : Nat) : Bool := (linesOf a len).any (fun ln => (s.objectOf ln).isSome)

/-- A part of a pending access has been performed at team and cluster scope: it is done, or a store that stands in the L1 (R214). -/
def Part.near (p : Part) : Bool := p.done || p.entered.isSome

/-- Every access of the lanes of a group issued before `upto` has been performed at team scope (R178, R157). -/
def State.nearDone (s : State) (grp : Nat) (m : LaneSet) (upto : Nat) : Bool :=
  s.accesses.all fun (n, a) => !(decide (n < upto) && a.group == grp) || a.parts.all (fun p => !inSet m p.lane || p.near)

/-- No store stands in the L1 of a cluster still to be performed at its slice (R214). -/
def State.l1Drained (s : State) (cl : Nat) : Bool :=
  s.accesses.all fun (_, a) => a.cluster != cl || a.parts.all (fun p => p.done || p.entered.isNone)

/-- Every access of the lanes of a group issued before `upto` has been performed everywhere. -/
def State.farDone (s : State) (grp : Nat) (m : LaneSet) (upto : Nat) : Bool :=
  s.accesses.all fun (n, a) => !(decide (n < upto) && a.group == grp && a.touches m)

/-- WDCOUNT reset (R350). -/
def State.kick (s : State) (t : Nat) : State := s.onTeam t (fun t => { t with wdcount := 0 })

/-- Lanes of a set made live at a program counter they already hold. -/
def Group.wake (g : Group) (m : LaneSet) : Group :=
  g.mapLanes m (fun _ n => { n with cond := .live, place := .none })

/-! ### Regions: what an exception needs (17) -/

/-- A region slot by its identifier die × 4096 + number (R272). -/
def State.slot (s : State) (id : Nat) : Slot := FMap.at {} (s.die (id / 4096)).slots (id % 4096)
/-- A slot changed. -/
def State.onSlot (s : State) (id : Nat) (f : Slot → Slot) : State :=
  s.onDie (id / 4096) (fun d => { d with slots := FMap.put d.slots (id % 4096) (f (FMap.at {} d.slots (id % 4096))) })
/-- The identifiers of the slots that hold an uncommitted region. -/
def State.openSlots (s : State) : List Nat :=
  ((s.die 0).slots.filter (fun p => decide (1 ≤ p.2.phase ∧ p.2.phase ≤ 4))).map (·.1) ++
  ((s.die 1).slots.filter (fun p => decide (1 ≤ p.2.phase ∧ p.2.phase ≤ 4))).map (fun p => 4096 + p.1)

/-- Ancestors of a region: every uncommitted region from which it is reachable by edges, within `fuel` edges (R273). -/
def State.ancestors (s : State) : Nat → Nat → List Nat
  | 0, _ => []
  | fuel + 1, id =>
    (s.slot id).preds.foldl (fun acc p =>
      let more := p.1 :: s.ancestors fuel p.1
      acc ++ more.filter (fun x => !acc.contains x)) []

/-- DEPTH of a region within `fuel` edges (R273). -/
def State.slotDepth (s : State) : Nat → Nat → Nat
  | 0, _ => 1
  | fuel + 1, id => 1 + (s.slot id).preds.foldl (fun m p => max m (s.slotDepth fuel p.1)) 0

/-- ANC and DEPTH of every open region brought up to date. -/
def State.refreshSlots (s : State) : State :=
  s.openSlots.foldl (fun s' id => s'.onSlot id (fun sl => { sl with anc := s.ancestors 8 id, depth := s.slotDepth 8 id })) s

/-- Adds one to a count of RSTAT of a group, saturating (R182). -/
def Group.count (g : Group) (sel : Nat) : Group :=
  let v := FMap.at (0 : Word) g.rstat sel
  { g with rstat := FMap.put g.rstat sel (if v = 0xFFFFFFFF then v else v + 1) }

/-- A lane taken out of every pending deferred fault, with its page and its address; a fault left with no lanes is dropped whole (R164, R281, R344). -/
def Group.dropFaultLane (g : Group) (l : Nat) : Group :=
  let ds := g.deferred.map (fun d =>
    let own := d.own.filter (fun p => p.1 != l)
    { d with
      lanes := d.lanes &&& ~~~(oneLane l), regs := d.regs.filter (fun p => p.1 != l), pages := d.pages.filter (fun p => p.1 != l), own := own
      detail := (own.head?.map (·.2.1)).getD d.detail, addr := (own.head?.map (·.2.2)).getD d.addr })
  { g with deferred := ds.filter (fun d => d.lanes != 0 || d.code == 0x83 || d.code == 0x80) }

/-- The registers that pending deferred faults left empty in a lane (R23). -/
def Group.faultRegsOf (g : Group) (l : Nat) : List (Nat × Nat) :=
  (g.deferred.flatMap (·.regs)).filter (fun p => p.1 == l)

/-- The pending region accesses of a lane discarded (R281). -/
def State.dropRegionParts (s : State) (grp l : Nat) : State :=
  let drop (a : Access) : Access :=
    if a.group = grp then { a with parts := a.parts.filter (fun p => !(p.lane == l && p.region.isSome && !p.done)) } else a
  let accs : FMap Access := s.accesses.map (fun p => (p.1, drop p.2))
  { s with accesses := accs.filter (fun p => !p.2.parts.isEmpty) }

/-- A lane that leaves the gatherings at which it has arrived: one left with no lane is no longer open (R127). -/
def Group.leaveGatherings (g : Group) (l : Nat) : Group :=
  { g with gatherings := (g.gatherings.map (fun w => { w with arrived := w.arrived &&& ~~~(oneLane l) })).filter (fun w => w.arrived != 0) }

/-- The apply step of an abort: the lane gets back its checkpoint and restarts at the RBEGIN clause; the slot is kept for the retry, or
freed (R281, R287, R288). -/
def State.applyAbort (s : State) (id : Nat) (keep : Bool) : State :=
  let sl := s.slot id
  let s := s.dropRegionParts sl.group sl.lane
  let sect : FMap (List (Nat × Bool)) := s.sectors.map (fun p => (p.1, p.2.filter (fun a => a.1 != id)))
  let s := { s with sectors := sect.filter (fun p => !p.2.isEmpty) }
  let kept (p : Producer) : Producer :=
    if p.group = sl.group then { p with dests := p.dests.filter (fun d => d.1 != sl.lane || sl.check.empty.getLsbD d.2.1) } else p
  let s := { s with producers := FMap.mapVals (fun _ p => kept p) s.producers }
  let s := s.onGroup sl.group fun g =>
    (g.dropFaultLane sl.lane).leaveGatherings sl.lane |>.onLane sl.lane fun n =>
      { n with
        regs := sl.check.regs, empty := sl.check.empty, preds := sl.check.preds, fpflags := sl.check.fpflags
        vpc := sl.restart, cond := .live, place := .none, region := none, aborting := false
        reserved := if keep then some id else none }
  let s := s.onGroup sl.group (fun g => { g with resumes := (g.resumes.map (fun r => { r with act := r.act &&& ~~~(oneLane sl.lane) })).filter (fun r => r.act != 0) })
  s.onSlot id fun sl =>
    if keep then
      { sl with
        phase := 5, preds := [], anc := [], depth := 1, reads := [], writes := [], bytes := [], whole := []
        inval := false, aborts := min 15 (sl.aborts + 1), since := s.tick }
    else {}

/-- The forward successors of regions, and theirs in turn (R280). -/
def State.cascade (s : State) : Nat → List Nat → List Nat
  | 0, ids => ids
  | fuel + 1, ids =>
    let more := s.openSlots.filter (fun k => !ids.contains k && (s.slot k).preds.any (fun p => p.2 && ids.contains p.1))
    if more.isEmpty then ids else s.cascade fuel (ids ++ more)

/-- A serial region's token returned and given to the first waiter: the grant itself is `State.grantSlots`. -/
def State.returnToken (s : State) (id : Nat) : State :=
  s.onDie (id / 4096) (fun d => if d.tokenHolder = some id then { d with tokenHolder := none } else d)

/-- Regions abort (R280, R281): their versions are discarded, their edges withdrawn, their forward successors abort too under selector 3,
and each counts under selector 1, once. A parked lane gets its checkpoint at once, another at the end of the current clause, and so does a lane
parked at a gathering, whose registers stay as they are until the word executes (R129). `keep` says whether the slots of the regions named are kept
for the retry; where they are not, the lanes of these regions stop here. -/
def State.abortRegions (s : State) (ids : List Nat) (sel : Nat) (keep : Bool) : State :=
  let all_ := s.cascade 16 ids
  let sect : FMap (List (Nat × Bool)) := s.sectors.map (fun p => (p.1, p.2.filter (fun a => !all_.contains a.1)))
  let s := { s with sectors := sect.filter (fun p => !p.2.isEmpty) }
  let s := s.openSlots.foldl (fun s k => s.onSlot k (fun sl => { sl with preds := sl.preds.filter (fun p => !all_.contains p.1) })) s
  let s := all_.foldl (fun s id =>
    let sl := s.slot id
    let s := if sl.phase = 4 then s else s.onGroup sl.group (fun g =>
      let g := g.count 1
      if ids.contains id then (if sel = 1 then g else g.count sel) else g.count 3)
    let s := s.returnToken id
    let s := s.onSlot id (fun sl => { sl with bytes := [], whole := [], preds := [], phase := 4 })
    let n := (s.group sl.group).lane sl.lane
    let parked := n.isParked && (match n.place with | .gathering _ _ => false | _ => true)
    if parked || (!keep && ids.contains id) then s.applyAbort id (keep || !ids.contains id)
    else s.onGroup sl.group (fun g => g.onLane sl.lane (fun n => { n with aborting := true }))) s
  s.refreshSlots

/-- The slots of the lanes of a group. -/
def State.groupSlots (s : State) (k : Nat) : List Nat := s.openSlots.filter (fun id => (s.slot id).group == k)

/-- The slots kept for the retry of lanes of a set are given back (R281). -/
def State.freeReserved (s : State) (k : Nat) (m : LaneSet) : State :=
  (lanesIn m).foldl (fun s l => match ((s.group k).lane l).reserved with
    | some id => (s.onSlot id (fun _ => {})).onGroup k (fun g => g.onLane l (fun n => { n with reserved := none }))
    | none => s) s

/-! ### Taking an exception (23) -/

/-- A cause and what the trap registers hold for it (R15, R30, R163). -/
structure Trap where
  code   : Nat
  detail : Nat
  hdr    : Word
  word   : Nat
  lanes  : LaneSet
  addr   : DWord := 0
  defer  : Bool := false
  deriving DecidableEq, Repr

/-- TRAPCAUSE (R15): CODE, DEFER, IMPRECISE, WORD and DETAIL in their places. -/
def trapCause (t : Trap) (imprecise : Bool) : Word :=
  BitVec.ofNat 32 (t.code % 256 + (if t.defer then 2 ^ 8 else 0) + (if imprecise then 2 ^ 9 else 0)
    + t.word % 16 * 2 ^ 16 + t.detail % 4096 * 2 ^ 20)

/-- The trap registers of a cause. -/
def Trap.regs (t : Trap) : TrapRegs := { cause := trapCause t false, pc := t.hdr, addr := t.addr, lanes := t.lanes }

/-- A containment freezes its cluster when dumps are enabled for the partition, except for causes 0xA3, 0xA4 and those of the system range (R362). -/
def State.dumps (s : State) (k code : Nat) : Bool :=
  code != 0xA3 && code != 0xA4 && decide (code < 0xB0) && (s.part (s.partOf (s.group k))).dumpEn

/-- The requests of some groups for region slots and serial tokens withdrawn. -/
def State.dropWaiters (s : State) (gs : List Nat) : State :=
  let drop (d : Die) : Die := { d with
    waiters := d.waiters.filter (fun w => !gs.contains w.group), tokenWaiters := d.tokenWaiters.filter (fun w => !gs.contains w.group) }
  { s with dies := FMap.mapVals (fun _ d => drop d) s.dies }

/-- Containment of a group (R345): issue stops, its regions abort with their cascade, every live or parked lane becomes exited and leaves the
gatherings and expected sets, slots kept for their retries are given back (R281), pending deferred faults are discarded, and the exit status waits to be
written. A trap that was pending and a handler that ran go no further (R339); what the group status says of them, and of its waits, stands where it stood for
a dump (R362). Its lanes have not exited in the sense of R350: the watchdog count goes on (DESIGN CHOICE, log entry 81). -/
def State.contain (s : State) (k code detail : Nat) (defer : Bool) (pc : Word) : State :=
  let s := s.abortRegions (s.groupSlots k) 1 false
  let s := s.freeReserved k (s.group k).countSet
  let g := s.group k
  let n := (lanesIn g.countSet).length
  let dump := s.dumps k code
  let s := s.onGroup k fun g =>
    { g.mapLanes g.countSet (fun _ n => { n with cond := .exited, place := .none, region := none, aborting := false }) with
      gatherings := [], deferred := []
      run := { g.run with stopped := true }, halt := .no
      contained := match g.contained with
        | some e => some e
        | none => some { cause := code, detail := detail, lanes := n, defer := defer, ord := g.safeord, pc := pc, dump := dump } }
  let s := s.dropWaiters [k]
  let gone (a : RecArrival) : RecArrival := { a with lanes := FMap.put a.lanes g.gid 0 }
  s.onTeam g.team (fun t => { t with recArrivals := t.recArrivals.map gone })

/-- A rollback of a level begins in the team and in every member team, for a reason (R301, R302); once one has begun, a later event of the
same or an inner level is ignored. -/
def State.beginRollback (s : State) (t level last : Nat) (detail : Nat := 0) : State :=
  (s.parties t).foldl (fun s m => s.onTeam m (fun tm =>
    match tm.rollback with
    | some r => if level < r.level then { tm with rollback := some { r with level := level, last := last } } else tm
    | none => { tm with
        rollback := some { level := level, last := last }
        recArrivals := []
        levels := match tm.levels.getLast? with
          | some lv => tm.levels.dropLast ++ [{ lv with phase := 3, fdetail := detail }]
          | none => tm.levels })) s

/-- A fault of the level (R300): no handler runs and no group is contained; the innermost open level rolls back. -/
def State.levelFault (s : State) (t code : Nat) (detail : Nat := 0) : State := s.beginRollback t (s.team t).rlevel code detail

/-- Causes that a level does not turn into its own fault (R300): the user trap, pages the service answers, debug stops. -/
def passesLevel (code : Nat) : Bool :=
  code == 0x0E || code == 0x31 || code == 0x35 || code == 0xA0 || code == 0xA1 || code == 0xA2

/-- TAKING AN EXCEPTION, the one operation for it (R337, R340, R343, R300): a cause raised by a group. In an open level it is a fault of the
level, unless R300 excepts it; inside a handler it contains the group with cause 0x19; else the trap registers are
set, and with no handler the group is contained, with one it begins at the group's next run. `resume` is the stopped word, kept for
TRET (R102). The word has no effect and the run ends there. -/
def State.raise (s : State) (k : Nat) (t : Trap) (resume : Option ResumePt) : State :=
  let g := s.group k
  let tm := s.team g.team
  let s := s.onGroup k (fun g => { g with run := { g.run with stopped := true } })
  if tm.rlevel ≠ 0 ∧ (g.handler ∨ !passesLevel t.code) then s.levelFault g.team t.code
  else if g.handler then s.contain k 0x19 t.code false g.trap.pc
  else if (s.grid tm.grid).record.handler = 0xFFFFFFFF then
    (s.onGroup k (fun g => { g with trap := t.regs })).contain k t.code t.detail t.defer t.hdr
  else s.onGroup k fun g => { g with trap := t.regs, trapPending := true, trapAt := resume, faultRegs := [] }

/-- A precise trap at the word that issues: TRAPPC names the clause header, WORD the word, TRAPLANES the active set (R30). -/
def State.trapHere (s : State) (code detail : Nat) : State :=
  let r := s.me.run
  s.raise s.cur { code := code, detail := detail, hdr := r.hdr, word := r.idx, lanes := r.act }
    (some (resumeAt r.hdr r.idx r.act .ready))

/-- A precise trap at the word that issues with lanes and an address of its own (R163). -/
def State.trapAddr (s : State) (code detail : Nat) (lanes : LaneSet) (addr : DWord) : State :=
  let r := s.me.run
  s.raise s.cur { code := code, detail := detail, hdr := r.hdr, word := r.idx, lanes := lanes, addr := addr }
    (some (resumeAt r.hdr r.idx r.act .ready))

/-- A fault of a clause found at decode, before any word of it issues (R30). -/
def State.trapClause (s : State) (f : ClauseFault) : State :=
  let r := s.me.run
  s.raise s.cur { code := f.code, detail := f.detail, hdr := r.hdr, word := f.word, lanes := r.act } none

/-- Class in [8:6] and opcode in [5:0] of the word that issues (R67, R163). -/
def Run.classOp (r : Run) : Nat := match r.words.drop r.idx with | w :: _ => Sys2Proof.classOp w | [] => 0

/-- The handler begins (R341): its program counter is HANDLER, word 0. -/
def Group.enterHandler (g : Group) (entry : Word) : Group :=
  { g with handler := true, trapPending := false, hpc := entry, hidx := 0, hstart := true, hwait := .ready }

/-- The lowest live program counter: the issue address of R194; none without a live lane. -/
def Group.issueAddr (g : Group) : Option Word :=
  (lanesIn g.liveSet).foldl (fun m l =>
    let v := (g.lane l).vpc
    match m with
    | none => some v
    | some u => if v.toNat < u.toNat then some v else some u) none

/-- The live lanes at an address (R194). -/
def Group.lanesAt (g : Group) (a : Word) : LaneSet := setOf (fun l => (g.lane l).isLive && (g.lane l).vpc == a)

/-- RETURN FROM AN EXCEPTION, what TRET does in a handler (R102, R23, R165): registers the handled fault left empty are marked full with their
old values; the handler ends; the issue address and the active set are taken from the lanes as the handler left them; a trap
raised at a word resumes there if they are still those of the trap, lanes of a deferred fault that are still parked for it at
TRAPPC become live and resume at the faulting word. The handler's run ends with it: kernel code goes on in a run of its own (DESIGN CHOICE, log entry 95). -/
def Group.trapReturn (g : Group) : Group :=
  let tr := g.trap
  let g := g.faultRegs.foldl (fun g (l, r) => g.onLane l (fun n => { n with empty := n.empty &&& ~~~(1#72 <<< r) })) g
  let g := { g with handler := false, faultRegs := [], hwait := .ready, hidx := 0, hstart := true, run := { g.run with ends := true, moved := true } }
  if tr.cause.getLsbD 8 then
    -- a deferred fault: its lanes
    let back := setOf (fun l => inSet tr.lanes l && (g.lane l).vpc == tr.pc &&
      ((g.lane l).cond == .parked .deferred || (g.lane l).cond == .parked .split))
    let g := g.wake back
    if back = 0 then { g with trapAt := none }
    else { g with trapAt := none, resumes := resumeAt tr.pc (tr.cause.toNat / 2 ^ 16 % 16) back .ready :: g.resumes }
  else
    match g.trapAt, g.issueAddr with
    | some r, some a =>
      if r.hdr = a ∧ g.lanesAt a = r.act ∧ r.idx ≠ 0 then { g with trapAt := none, resumes := r :: g.resumes }
      else { g with trapAt := none }
    | _, _ => { g with trapAt := none }

end Sys2Proof.Machine
end

