-- ==== Sys2Proof/Machine/Operands.lean ====
section
/-! DEFINITION. Operand forms: the 7-bit operand of R40, the inline constants of R41 by the column of R42, the full/empty gates of R20
and R21 with the causes 0x10 and 0x12, and the shapes in which words read sources and write results (R17, R105). -/
namespace Sys2Proof.Machine

/-- The columns of the inline constants (R41). -/
inductive Col where
  | int | f32 | bf16 | f16
  deriving DecidableEq, Repr

/-- The inline constant of code 0x70 + k (R41): integer, F32 bits, BF16 pair, F16 pair. -/
def constRow (k : Nat) : Word × Word × Word × Word :=
  match k with
  | 0 => (0x00000000, 0x00000000, 0x00000000, 0x00000000)
  | 1 => (0x00000001, 0x3F800000, 0x3F803F80, 0x3C003C00)
  | 2 => (0x00000002, 0x40000000, 0x40004000, 0x40004000)
  | 3 => (0x00000003, 0x40800000, 0x40804080, 0x44004400)
  | 4 => (0x00000004, 0x3F000000, 0x3F003F00, 0x38003800)
  | 5 => (0x00000008, 0x3E800000, 0x3E803E80, 0x34003400)
  | 6 => (0x00000010, 0x3E000000, 0x3E003E00, 0x30003000)
  | 7 => (0x00000020, 0x41000000, 0x41004100, 0x48004800)
  | 8 => (0xFFFFFFFF, 0xBF800000, 0xBF80BF80, 0xBC00BC00)
  | 9 => (0xFFFFFFFE, 0xC0000000, 0xC000C000, 0xC000C000)
  | 10 => (0xFFFFFFFC, 0xBF000000, 0xBF00BF00, 0xB800B800)
  | 11 => (0xFFFFFFF8, 0x7F800000, 0x7F807F80, 0x7C007C00)
  | 12 => (0x000000FF, 0xFF800000, 0xFF80FF80, 0xFC00FC00)
  | 13 => (0x0000FFFF, 0x7FC00000, 0x7FC07FC0, 0x7E007E00)
  | 14 => (0x7FFFFFFF, 0x3FB8AA3B, 0x3FB93FB9, 0x3DC53DC5)
  | _ => (0x80000000, 0x3F317218, 0x3F313F31, 0x398C398C)

/-- The inline constant of an operand value 112 to 127 in a column (R41). -/
def inlineConst (c : Col) (o : Nat) : Word :=
  let r := constRow (o - 112)
  match c with
  | .int => r.1
  | .f32 => r.2.1
  | .bf16 => r.2.2.1
  | .f16 => r.2.2.2

/-- The value of a 32-bit source operand in a lane (R40). -/
def Group.src (g : Group) (c : Col) (l o : Nat) : Word :=
  if o < 72 then (g.lane l).reg o
  else if o = 72 then (g.lane l).lr
  else if o < 112 then g.s (o - 80)
  else inlineConst c o

/-- The value of a 64-bit source operand: a pair of the v, o or s file, the low word in the even register, or an integer constant
sign-extended (R18, R42). -/
def Group.src64 (g : Group) (l o : Nat) : DWord :=
  if o < 112 then g.src .int l (o + 1) ++ g.src .int l o
  else (inlineConst .int o).signExtend 64

/-- A source or destination register is empty in some lane of a set (R20, R21); a scalar register in the group; lr and constants have no
full/empty bit. -/
def Group.emptyIn (g : Group) (m : LaneSet) (o : Nat) : Bool :=
  if o < 72 then (lanesIn m).any (fun l => (g.lane l).isEmpty o)
  else if 80 ≤ o ∧ o < 112 then g.sIsEmpty (o - 80)
  else false

/-- What the sources and destinations of a word say about its issue. -/
inductive Gate where
  | go
  | block (w : Wait)
  | trap (code detail : Nat)
  deriving DecidableEq, Repr

/-- The gate of a word (R20, R21, R30): sources, each in the lanes that read it, with their empty action (true raises cause 0x10), in the
order A, B, C, D, and the destinations. An empty blocking source or destination blocks first; then cause 0x10, then cause
0x12 for an lr that is not valid in a lane that reads it, DETAIL the operand value. -/
def Group.gateOn (g : Group) (srcs : List (LaneSet × Nat × Bool)) (dsts : List (LaneSet × Nat)) : Gate :=
  let need := ((srcs.filter (fun p => !p.2.2)).map (fun p => (p.1, p.2.1)) ++ dsts).filter (fun p => g.emptyIn p.1 p.2)
  if need.isEmpty then
    match srcs.find? (fun p => p.2.2 && g.emptyIn p.1 p.2.1) with
    | some p => .trap 0x10 p.2.1
    | none =>
      if srcs.any (fun p => p.2.1 == 72 && (lanesIn p.1).any (fun l => !(g.lane l).lrValid)) then .trap 0x12 72
      else .go
  else .block (.regs need)

/-- The gate of a word whose operands are read and written in the active lanes. -/
def Group.gate (g : Group) (srcs : List (Nat × Bool)) (dsts : List Nat) : Gate :=
  g.gateOn (srcs.map (fun p => (g.run.act, p))) (dsts.map (fun d => (g.run.act, d)))

/-- A word behind its gate: it blocks, traps, or has its effect. -/
def State.gated (s : State) (gt : Gate) (k : State) : State :=
  match gt with
  | .go => k
  | .block w => s.block w
  | .trap c d => s.trapHere c d

/-- A register pair or longer run of registers as operands of a gate: a constant counts once. -/
def regRun (o n : Nat) : List Nat := if o < 112 then (List.range n).map (o + ·) else [o]

/-- What a word writes of a lane, whether or not the value changes: registers of the v and o files, the predicates, FPFLAGS (R297). -/
structure Writes where
  regs  : List Nat := []
  preds : Bool := false
  flags : Bool := false
  deriving DecidableEq, Repr

/-- The writes of the lanes of a set. -/
def Writes.on (w : Writes) (m : LaneSet) (l : Nat) : Writes := if inSet m l then w else {}

/-- What a level logs of a lane that a word writes (R297): each register, the predicates and FPFLAGS at their first write in the level, whatever value it
leaves. -/
def logLane (old new : Lane) (w : Writes) (lg : LaneLog) : LaneLog :=
  let changed := (List.range 72).filter (fun r =>
    !FMap.has lg.regs r && (w.regs.contains r || old.reg r != new.reg r || old.isEmpty r != new.isEmpty r))
  { regs := changed.foldl (fun m r => FMap.put m r (old.reg r, old.isEmpty r)) lg.regs
    preds := match lg.preds with
      | some p => some p
      | none => if !w.preds && old.preds = new.preds then none else some old.preds
    fpflags := match lg.fpflags with
      | some p => some p
      | none => if !w.flags && old.fpflags = new.fpflags then none else some old.fpflags }

/-- The innermost level of a team changed. -/
def Team.onLevel (t : Team) (f : Level → Level) : Team :=
  match t.levels.getLast? with
  | some lv => { t with levels := t.levels.dropLast ++ [f lv] }
  | none => t

/-- The group `k` replaced by a later version of it; inside an open level that logs registers the old values of what its lanes write, as `w` says and as it shows,
go into the recovery cache first (R297). -/
def State.commit (s : State) (k : Nat) (new : Group) (w : Nat → Writes) : State :=
  let old := s.group k
  match (s.team old.team).levels.getLast? with
  | none => s.setGroup k new
  | some lv =>
    if lv.noreg then s.setGroup k new
    else
      let logs := (lanesIn old.countSet).foldl (fun m l =>
        let key := old.gid * 64 + l
        FMap.put m key (logLane (old.lane l) (new.lane l) (w l) (FMap.at {} m key))) lv.lanes
      (s.onTeam old.team (fun t => t.onLevel (fun lv => { lv with lanes := logs }))).setGroup k new

/-- A destination of R40 written in a lane: a register, or lr alone. -/
def Lane.writeDest (n : Lane) (d : Nat) (v : Word) : Lane :=
  if d < 72 then n.setReg d v else if d = 72 then n.setLr v else n

/-- A short-latency result: the destination and lr (R17). -/
def Lane.writeShort (n : Lane) (d : Nat) (v : Word) : Lane := (n.writeDest d v).setLr v

/-- A guard of an X word: the predicate, inverted by negate (R105). -/
def Lane.guard (n : Lane) (pg : BitVec 5) (neg : Bool) : Bool := n.pred pg.toNat != neg

/-- A lane on which a word's writes show: every register is empty and no flag is set before it. -/
def Lane.probe (n : Lane) : Lane := { n with fpflags := 0, empty := BitVec.allOnes 72 }

/-- What a word has written of such a lane: those of its destinations that are full, the predicates where it names one, FPFLAGS where it has raised a flag. -/
def Lane.written (n : Lane) (regs : List Nat) (preds : Bool) : Writes :=
  { regs := regs.filter (fun r => !n.isEmpty r), preds := preds, flags := n.fpflags != 0 }

/-- A vector word behind a gate (R105): each active lane for which `on` holds is changed by `f`, which reads the group as it stood before
the word; the word takes `n` words and `cost` slice cycles. `regs` and `preds` are what it writes there. -/
def State.vecGated (s : State) (gt : Gate) (n cost : Nat) (on : Group → Nat → Bool) (f : Group → Nat → Lane → Lane) (regs : List Nat)
    (preds : Bool) : Host.Outcome State Fault Refusal :=
  let g := s.me
  .next (s.gated gt
    ((s.commit s.cur (g.mapLanes g.run.act (fun l x => if on g l then f g l x else x))
      (fun l => if inSet g.run.act l && on g l then (f g l (g.lane l).probe).written regs preds else {})).advance n cost))

/-- The general vector word: its gate is that of its operands in the active lanes. -/
def State.vecWord (s : State) (srcs : List (Nat × Bool)) (dsts : List Nat) (n cost : Nat)
    (on : Group → Nat → Bool) (f : Group → Nat → Lane → Lane) (preds : Bool := false) : Host.Outcome State Fault Refusal :=
  s.vecGated (s.me.gate srcs dsts) n cost on f dsts preds

/-- The destinations of R40 that have a full/empty bit. -/
def destRegs (d : BitVec 7) : List Nat := if d.toNat < 72 then [d.toNat] else []

/-- Every active lane. -/
def always (_ : Group) (_ : Nat) : Bool := true

/-- The lanes whose guard holds. -/
def guarded (pg : BitVec 5) (neg : Bool) (g : Group) (l : Nat) : Bool := (g.lane l).guard pg neg

/-- A short-latency result with its flags. -/
def Lane.result (n : Lane) (d : BitVec 7) (r : Word × FpFlags) : Lane := (n.writeShort d.toNat r.1).orFlags r.2

/-- A VR word with two sources (R105). -/
def vrBinary (c : Col) (d a b : BitVec 7) (ea eb : Bool) (f : Group → Nat → Word → Word → Word × FpFlags) (s : State) :
    Host.Outcome State Fault Refusal :=
  s.vecWord [(a.toNat, ea), (b.toNat, eb)] (destRegs d) 1 (s.pa s.me) always
    (fun g l n => n.result d (f g l (g.src c l a.toNat) (g.src c l b.toNat)))

/-- A VR word with two sources and D as accumulator (R68). -/
def vrTernary (c : Col) (d a b : BitVec 7) (ea eb : Bool) (f : Group → Nat → Word → Word → Word → Word × FpFlags) (s : State) :
    Host.Outcome State Fault Refusal :=
  s.vecWord [(a.toNat, ea), (b.toNat, eb), (d.toNat, false)] (destRegs d) 1 (s.pa s.me) always
    (fun g l n => n.result d (f g l (g.src c l a.toNat) (g.src c l b.toNat) (g.src c l d.toNat)))

/-- A unary VR word (R32). -/
def vrUnary (c : Col) (d a : BitVec 7) (ea : Bool) (f : Word → Word) (s : State) : Host.Outcome State Fault Refusal :=
  s.vecWord [(a.toNat, ea)] (destRegs d) 1 (s.pa s.me) always
    (fun g l n => n.result d (f (g.src c l a.toNat), 0))

/-- A VI word that reads and writes D (R33). -/
def viWord (d : BitVec 7) (e : Bool) (f : Group → Nat → Word → Word × FpFlags) (s : State) : Host.Outcome State Fault Refusal :=
  s.vecWord [(d.toNat, e)] (destRegs d) 1 (s.pa s.me) always (fun g l n => n.result d (f g l (g.src .int l d.toNat)))

/-- A VI word that does not read D (R33). -/
def viConst (d : BitVec 7) (f : Nat → Word) (s : State) : Host.Outcome State Fault Refusal :=
  s.vecWord [] (destRegs d) 1 (s.pa s.me) always (fun _ l n => n.result d (f l, 0))

/-- The merge of a computed bit into a predicate (R113). -/
def combine (c : BitVec 2) (old new : Bool) : Bool :=
  match c.toNat with
  | 0 => new
  | 1 => old && new
  | 2 => old || new
  | _ => !new

/-- A compare word (R114): one bit and the invalid flag per active lane; lr is not written. -/
def vpCompare (col : Col) (pd : BitVec 5) (a b : BitVec 7) (c : BitVec 2) (ea eb : Bool)
    (f : Word → Word → Bool × FpFlags) (s : State) : Host.Outcome State Fault Refusal :=
  s.vecWord [(a.toNat, ea), (b.toNat, eb)] [] 1 (s.pa s.me) always (fun g l n =>
    let r := f (g.src col l a.toNat) (g.src col l b.toNat)
    (n.setPred pd.toNat (combine c (n.pred pd.toNat) r.1)).orFlags r.2) true

/-- A predicate-logic word (R115). -/
def vpLogic (pd : BitVec 5) (c : BitVec 2) (f : Lane → Bool) (s : State) : Host.Outcome State Fault Refusal :=
  s.vecWord [] [] 1 (s.pa s.me) always (fun _ _ n => n.setPred pd.toNat (combine c (n.pred pd.toNat) (f n))) true

/-- FPCTL.MODE (R14). -/
def Group.fpMode (g : Group) : RMode := RMode.ofCode (g.fpctl.toNat % 8)
/-- FPCTL.KEY, zero-extended (R14). -/
def Group.fpKey (g : Group) : Word := g.fpctl >>> 8

/-- A scalar word (R83): it executes once; its scalar sources block while empty, its scalar destinations too; `n` words at one slice
cycle. Registers are given in the numbering of R40 as 80 + n. -/
def State.scalarWord (s : State) (srcs dsts : List Nat) (n : Nat) (f : State → State) : Host.Outcome State Fault Refusal :=
  .next (s.gated (s.me.gate (srcs.map (fun r => (r, false))) dsts) ((f s).advance n 1))

/-- The operand number of a scalar register (R40). -/
def sreg (r : BitVec 5) : Nat := 80 + r.toNat

end Sys2Proof.Machine
end

