-- ==== Sys2Proof/Machine/VecFloat.lean ====
section
/-! DEFINITION. Vector floating-point words of class VR (05, R108 to R111) and the floating-point words of class VI (R112). Arithmetic is
exact and rounded once (R65); the flags of each lane are joined into its FPFLAGS. -/
namespace Sys2Proof.Machine

/-- The F32 value of a word. -/
def asF32 (w : Word) : FVal := f32.value w.toNat

/-- A rounded result as a word and its flags. -/
def Rounded.word (r : Rounded) : Word × FpFlags := (BitVec.ofNat 32 r.bits, r.flags)

/-- One F32 operation of lane l: rounded under FPCTL.MODE, the random bits taken from the word `abits` with j = 0 (R51, R108). -/
def Group.roundF32 (g : Group) (l : Nat) (abits : Word) (x : FVal × FpFlags) : Word × FpFlags :=
  (f32.finish g.fpMode (r16Of g.fpKey abits l 0) x).word

/-- One operation on both halves of packed words (R110): the flags of the halves are joined. -/
def packed2 (fmt : FFmt) (mode : RMode) (key abits : Word) (l : Nat) (x : Nat → FVal × FpFlags) : Word × FpFlags :=
  let r0 := fmt.finish mode (r16Of key abits l 0) (x 0)
  let r1 := fmt.finish mode (r16Of key abits l 1) (x 1)
  (BitVec.ofNat 32 (r0.bits + r1.bits * 2 ^ 16), r0.flags ||| r1.flags)

/-- Half j of a packed word as a value of a 16-bit format (R47). -/
def half (fmt : FFmt) (w : Word) (j : Nat) : FVal := fmt.value (w.toNat / 2 ^ (16 * j) % 2 ^ 16)

/-- VFMIN or VFMAX (R109): one of the inputs bit for bit, −0 below +0; a NaN gives way to the other source. -/
def fpPick (larger : Bool) (a b : Word) : Word × FpFlags :=
  let x := asF32 a
  let y := asF32 b
  let fl := flagIf (x.isSnan || y.isSnan) flagNV
  if x.isNan && y.isNan then (BitVec.ofNat 32 f32.nanPat, fl)
  else if x.isNan then (b, fl)
  else if y.isNan then (a, fl)
  else
    -- zeros of different sign: the negative one is the smaller
    let aBelow := x.lt y || (x.isZero && y.isZero && a.msb && !b.msb)
    let bBelow := y.lt x || (x.isZero && y.isZero && b.msb && !a.msb)
    if larger then (if aBelow then b else a, fl) else (if bBelow then b else a, fl)

/-- The exact three-term sum of VDOT2.BF with the special values of R62 and the invalid rules of R111: ∞ × 0, a signalling NaN, and +∞
and −∞ together, whatever the third term is. -/
def dot2 (mode : RMode) (a b d : Word) : FVal × FpFlags :=
  let p0 := (half bf16 a 0).mul (half bf16 b 0)
  let p1 := (half bf16 a 1).mul (half bf16 b 1)
  let x := asF32 d
  let terms := [x, p0.1, p1.1]
  let clash := terms.contains (.inf false) && terms.contains (.inf true)
  ((x.add mode (p0.1.add mode p1.1).1).1, p0.2 ||| p1.2 ||| flagIf (x.isSnan || clash) flagNV)

/-- VFADD (R108): D := round(A + B). -/
def execVfadd (d a b : BitVec 7) (ea eb : Bool) (s : State) : Host.Outcome State Fault Refusal :=
  vrBinary .f32 d a b ea eb (fun g l a b => g.roundF32 l a ((asF32 a).add g.fpMode (asF32 b))) s
/-- VFSUB (R108): D := round(A − B). -/
def execVfsub (d a b : BitVec 7) (ea eb : Bool) (s : State) : Host.Outcome State Fault Refusal :=
  vrBinary .f32 d a b ea eb (fun g l a b => g.roundF32 l a ((asF32 a).add g.fpMode (asF32 b).neg)) s
/-- VFMUL (R108): D := round(A × B). -/
def execVfmul (d a b : BitVec 7) (ea eb : Bool) (s : State) : Host.Outcome State Fault Refusal :=
  vrBinary .f32 d a b ea eb (fun g l a b => g.roundF32 l a ((asF32 a).mul (asF32 b))) s
/-- VFMA (R108): D := round(A × B + D). -/
def execVfma (d a b : BitVec 7) (ea eb : Bool) (s : State) : Host.Outcome State Fault Refusal :=
  vrTernary .f32 d a b ea eb (fun g l a b c => g.roundF32 l a ((asF32 a).fma g.fpMode (asF32 b) (asF32 c))) s
/-- VFNMA (R108): D := round(D − A × B). -/
def execVfnma (d a b : BitVec 7) (ea eb : Bool) (s : State) : Host.Outcome State Fault Refusal :=
  vrTernary .f32 d a b ea eb (fun g l a b c => g.roundF32 l a ((asF32 a).neg.fma g.fpMode (asF32 b) (asF32 c))) s
/-- VFMIN (R109). -/
def execVfmin (d a b : BitVec 7) (ea eb : Bool) (s : State) : Host.Outcome State Fault Refusal :=
  vrBinary .f32 d a b ea eb (fun _ _ a b => fpPick false a b) s
/-- VFMAX (R109). -/
def execVfmax (d a b : BitVec 7) (ea eb : Bool) (s : State) : Host.Outcome State Fault Refusal :=
  vrBinary .f32 d a b ea eb (fun _ _ a b => fpPick true a b) s
/-- VFCOPYSIGN (R109): the magnitude of A with the sign of B. -/
def execVfcopysign (d a b : BitVec 7) (ea eb : Bool) (s : State) : Host.Outcome State Fault Refusal :=
  vrBinary .f32 d a b ea eb (fun _ _ a b => ((a &&& 0x7FFFFFFF) ||| (b &&& 0x80000000), 0)) s
/-- VFABS (R109). EB has no source to act on. -/
def execVfabs (d a : BitVec 7) (ea _eb : Bool) (s : State) : Host.Outcome State Fault Refusal :=
  vrUnary .f32 d a ea (fun a => a &&& 0x7FFFFFFF) s
/-- VFNEG (R109). EB has no source to act on. -/
def execVfneg (d a : BitVec 7) (ea _eb : Bool) (s : State) : Host.Outcome State Fault Refusal :=
  vrUnary .f32 d a ea (fun a => a ^^^ 0x80000000) s

/-- VHADD.BF (R110). -/
def execVhaddBf (d a b : BitVec 7) (ea eb : Bool) (s : State) : Host.Outcome State Fault Refusal :=
  vrBinary .bf16 d a b ea eb (fun g l a b =>
    packed2 bf16 g.fpMode g.fpKey a l (fun j => (half bf16 a j).add g.fpMode (half bf16 b j))) s
/-- VHMUL.BF (R110). -/
def execVhmulBf (d a b : BitVec 7) (ea eb : Bool) (s : State) : Host.Outcome State Fault Refusal :=
  vrBinary .bf16 d a b ea eb (fun g l a b =>
    packed2 bf16 g.fpMode g.fpKey a l (fun j => (half bf16 a j).mul (half bf16 b j))) s
/-- VHFMA.BF (R110). -/
def execVhfmaBf (d a b : BitVec 7) (ea eb : Bool) (s : State) : Host.Outcome State Fault Refusal :=
  vrTernary .bf16 d a b ea eb (fun g l a b c =>
    packed2 bf16 g.fpMode g.fpKey a l (fun j => (half bf16 a j).fma g.fpMode (half bf16 b j) (half bf16 c j))) s
/-- VHADD.H (R110). -/
def execVhaddH (d a b : BitVec 7) (ea eb : Bool) (s : State) : Host.Outcome State Fault Refusal :=
  vrBinary .f16 d a b ea eb (fun g l a b =>
    packed2 f16 g.fpMode g.fpKey a l (fun j => (half f16 a j).add g.fpMode (half f16 b j))) s
/-- VHMUL.H (R110). -/
def execVhmulH (d a b : BitVec 7) (ea eb : Bool) (s : State) : Host.Outcome State Fault Refusal :=
  vrBinary .f16 d a b ea eb (fun g l a b =>
    packed2 f16 g.fpMode g.fpKey a l (fun j => (half f16 a j).mul (half f16 b j))) s
/-- VHFMA.H (R110). -/
def execVhfmaH (d a b : BitVec 7) (ea eb : Bool) (s : State) : Host.Outcome State Fault Refusal :=
  vrTernary .f16 d a b ea eb (fun g l a b c =>
    packed2 f16 g.fpMode g.fpKey a l (fun j => (half f16 a j).fma g.fpMode (half f16 b j) (half f16 c j))) s
/-- VDOT2.BF (R111): D := round_F32(D + A.0 × B.0 + A.1 × B.1), the three terms summed exactly. The inline constants of A and B are the
BF16 column (R42). -/
def execVdot2Bf (d a b : BitVec 7) (ea eb : Bool) (s : State) : Host.Outcome State Fault Refusal :=
  vrTernary .bf16 d a b ea eb (fun g l a b c => g.roundF32 l a (dot2 g.fpMode a b c)) s

/-- VFADDI (R112): D := round_F32(D + imm), the immediate a BF16 value; the random bits come from the old D. -/
def execVfaddi (d : BitVec 7) (e : Bool) (imm : BitVec 16) (s : State) : Host.Outcome State Fault Refusal :=
  viWord d e (fun g l x => g.roundF32 l x ((asF32 x).add g.fpMode (bf16.value imm.toNat))) s
/-- VFMULI (R112): D := round_F32(D × imm). -/
def execVfmuli (d : BitVec 7) (e : Bool) (imm : BitVec 16) (s : State) : Host.Outcome State Fault Refusal :=
  viWord d e (fun g l x => g.roundF32 l x ((asF32 x).mul (bf16.value imm.toNat))) s

end Sys2Proof.Machine
end

