-- ==== Sys2Proof/Machine/VecInt.lean ====
section
/-! DEFINITION. Vector integer, bitwise and shift words of class VR (05, R107, R111 VDOT4.I8) and the integer words of class VI (R112).
Each meaning is one shape of Operands.lean over one function of words. -/
namespace Sys2Proof.Machine

/-- A signed value held to the range of 32-bit integers (VIADDS, VISUBS, VIABS). -/
def satWord (i : Int) : Word := BitVec.ofInt 32 (clampInt (-(2 ^ 31), 2 ^ 31 - 1) i)
/-- The high word of the signed product. -/
def mulHighS (a b : Word) : Word := BitVec.ofInt 32 (a.toInt * b.toInt / 2 ^ 32)
/-- The high word of the unsigned product. -/
def mulHighU (a b : Word) : Word := BitVec.ofNat 32 (a.toNat * b.toNat / 2 ^ 32)
/-- The smaller as signed values. -/
def minS (a b : Word) : Word := if b.slt a then b else a
/-- The larger as signed values. -/
def maxS (a b : Word) : Word := if a.slt b then b else a
/-- The smaller as unsigned values. -/
def minU (a b : Word) : Word := if b.ult a then b else a
/-- The larger as unsigned values. -/
def maxU (a b : Word) : Word := if a.ult b then b else a
/-- A shift amount: bits [4:0] of a word (R85, R107). -/
def shamt (b : Word) : Nat := b.toNat % 32
/-- Number of leading zero bits among the low `n` bits of a word. -/
def leadingZeros (a : Word) : Nat → Nat
  | 0 => 0
  | n + 1 => if a.getLsbD n then 0 else leadingZeros a n + 1
/-- Number of one bits among the low `n` bits of a word. -/
def oneBits (a : Word) : Nat → Nat
  | 0 => 0
  | n + 1 => (if a.getLsbD n then 1 else 0) + oneBits a n
/-- The sum over the four I8 elements of the products (R111). -/
def dot4 (a b : Word) : Word :=
  [0, 1, 2, 3].foldl (fun acc j => acc + BitVec.ofInt 32 (intOfBits 12 (elemOf 12 a j) * intOfBits 12 (elemOf 12 b j))) 0

/-- VIADD (R107): D := A + B. -/
def execViadd (d a b : BitVec 7) (ea eb : Bool) (s : State) : Host.Outcome State Fault Refusal :=
  vrBinary .int d a b ea eb (fun _ _ a b => (a + b, 0)) s
/-- VISUB (R107): D := A − B. -/
def execVisub (d a b : BitVec 7) (ea eb : Bool) (s : State) : Host.Outcome State Fault Refusal :=
  vrBinary .int d a b ea eb (fun _ _ a b => (a - b, 0)) s
/-- VIADDS (R107): D := A + B signed, saturated. -/
def execViadds (d a b : BitVec 7) (ea eb : Bool) (s : State) : Host.Outcome State Fault Refusal :=
  vrBinary .int d a b ea eb (fun _ _ a b => (satWord (a.toInt + b.toInt), 0)) s
/-- VISUBS (R107): D := A − B signed, saturated. -/
def execVisubs (d a b : BitVec 7) (ea eb : Bool) (s : State) : Host.Outcome State Fault Refusal :=
  vrBinary .int d a b ea eb (fun _ _ a b => (satWord (a.toInt - b.toInt), 0)) s
/-- VIMUL (R107): D := low word of A × B. -/
def execVimul (d a b : BitVec 7) (ea eb : Bool) (s : State) : Host.Outcome State Fault Refusal :=
  vrBinary .int d a b ea eb (fun _ _ a b => (a * b, 0)) s
/-- VIMULH (R107): D := high word of the signed product. -/
def execVimulh (d a b : BitVec 7) (ea eb : Bool) (s : State) : Host.Outcome State Fault Refusal :=
  vrBinary .int d a b ea eb (fun _ _ a b => (mulHighS a b, 0)) s
/-- VUMULH (R107): D := high word of the unsigned product. -/
def execVumulh (d a b : BitVec 7) (ea eb : Bool) (s : State) : Host.Outcome State Fault Refusal :=
  vrBinary .int d a b ea eb (fun _ _ a b => (mulHighU a b, 0)) s
/-- VIMAC (R107): D := D + low word of A × B. -/
def execVimac (d a b : BitVec 7) (ea eb : Bool) (s : State) : Host.Outcome State Fault Refusal :=
  vrTernary .int d a b ea eb (fun _ _ a b c => (c + a * b, 0)) s
/-- VIMIN (R107): D := smaller, signed. -/
def execVimin (d a b : BitVec 7) (ea eb : Bool) (s : State) : Host.Outcome State Fault Refusal :=
  vrBinary .int d a b ea eb (fun _ _ a b => (minS a b, 0)) s
/-- VIMAX (R107): D := larger, signed. -/
def execVimax (d a b : BitVec 7) (ea eb : Bool) (s : State) : Host.Outcome State Fault Refusal :=
  vrBinary .int d a b ea eb (fun _ _ a b => (maxS a b, 0)) s
/-- VUMIN (R107): D := smaller, unsigned. -/
def execVumin (d a b : BitVec 7) (ea eb : Bool) (s : State) : Host.Outcome State Fault Refusal :=
  vrBinary .int d a b ea eb (fun _ _ a b => (minU a b, 0)) s
/-- VUMAX (R107): D := larger, unsigned. -/
def execVumax (d a b : BitVec 7) (ea eb : Bool) (s : State) : Host.Outcome State Fault Refusal :=
  vrBinary .int d a b ea eb (fun _ _ a b => (maxU a b, 0)) s
/-- VAND (R107): D := A AND B. -/
def execVand (d a b : BitVec 7) (ea eb : Bool) (s : State) : Host.Outcome State Fault Refusal :=
  vrBinary .int d a b ea eb (fun _ _ a b => (a &&& b, 0)) s
/-- VOR (R107): D := A OR B. -/
def execVor (d a b : BitVec 7) (ea eb : Bool) (s : State) : Host.Outcome State Fault Refusal :=
  vrBinary .int d a b ea eb (fun _ _ a b => (a ||| b, 0)) s
/-- VXOR (R107): D := A XOR B. -/
def execVxor (d a b : BitVec 7) (ea eb : Bool) (s : State) : Host.Outcome State Fault Refusal :=
  vrBinary .int d a b ea eb (fun _ _ a b => (a ^^^ b, 0)) s
/-- VANDN (R107): D := A AND NOT B. -/
def execVandn (d a b : BitVec 7) (ea eb : Bool) (s : State) : Host.Outcome State Fault Refusal :=
  vrBinary .int d a b ea eb (fun _ _ a b => (a &&& ~~~b, 0)) s
/-- VSHL (R107): D := A << B[4:0]. -/
def execVshl (d a b : BitVec 7) (ea eb : Bool) (s : State) : Host.Outcome State Fault Refusal :=
  vrBinary .int d a b ea eb (fun _ _ a b => (a <<< shamt b, 0)) s
/-- VSHR (R107): D := A >> B[4:0], zeros. -/
def execVshr (d a b : BitVec 7) (ea eb : Bool) (s : State) : Host.Outcome State Fault Refusal :=
  vrBinary .int d a b ea eb (fun _ _ a b => (a >>> shamt b, 0)) s
/-- VSAR (R107): D := A >> B[4:0], sign. -/
def execVsar (d a b : BitVec 7) (ea eb : Bool) (s : State) : Host.Outcome State Fault Refusal :=
  vrBinary .int d a b ea eb (fun _ _ a b => (a.sshiftRight (shamt b), 0)) s
/-- VROL (R107): D := A rotated left by B[4:0]. -/
def execVrol (d a b : BitVec 7) (ea eb : Bool) (s : State) : Host.Outcome State Fault Refusal :=
  vrBinary .int d a b ea eb (fun _ _ a b => (a.rotateLeft (shamt b), 0)) s
/-- VCLZ (R107): D := leading zero bits of A. EB has no source to act on. -/
def execVclz (d a : BitVec 7) (ea _eb : Bool) (s : State) : Host.Outcome State Fault Refusal :=
  vrUnary .int d a ea (fun a => BitVec.ofNat 32 (leadingZeros a 32)) s
/-- VPOPC (R107): D := one bits of A. EB has no source to act on. -/
def execVpopc (d a : BitVec 7) (ea _eb : Bool) (s : State) : Host.Outcome State Fault Refusal :=
  vrUnary .int d a ea (fun a => BitVec.ofNat 32 (oneBits a 32)) s
/-- VBREV (R107): D := A with bit i moved to bit 31 − i. EB has no source to act on. -/
def execVbrev (d a : BitVec 7) (ea _eb : Bool) (s : State) : Host.Outcome State Fault Refusal :=
  vrUnary .int d a ea (fun a => a.reverse) s
/-- VIABS (R107): D := |A| signed, saturated. EB has no source to act on. -/
def execViabs (d a : BitVec 7) (ea _eb : Bool) (s : State) : Host.Outcome State Fault Refusal :=
  vrUnary .int d a ea (fun a => satWord a.toInt.natAbs) s
/-- VMOV (R107): D := A. EB has no source to act on. -/
def execVmov (d a : BitVec 7) (ea _eb : Bool) (s : State) : Host.Outcome State Fault Refusal :=
  vrUnary .int d a ea (fun a => a) s
/-- VDOT4.I8 (R111): D := D plus the four products of I8 elements, modulo 2^32. -/
def execVdot4I8 (d a b : BitVec 7) (ea eb : Bool) (s : State) : Host.Outcome State Fault Refusal :=
  vrTernary .int d a b ea eb (fun _ _ a b c => (c + dot4 a b, 0)) s
/-- VIADDI (R112): D := D + sext(imm). -/
def execViaddi (d : BitVec 7) (e : Bool) (imm : BitVec 16) (s : State) : Host.Outcome State Fault Refusal :=
  viWord d e (fun _ _ x => (x + imm.signExtend 32, 0)) s
/-- VANDI (R112): D := D AND imm. -/
def execVandi (d : BitVec 7) (e : Bool) (imm : BitVec 16) (s : State) : Host.Outcome State Fault Refusal :=
  viWord d e (fun _ _ x => (x &&& imm.zeroExtend 32, 0)) s
/-- VORI (R112): D := D OR imm. -/
def execVori (d : BitVec 7) (e : Bool) (imm : BitVec 16) (s : State) : Host.Outcome State Fault Refusal :=
  viWord d e (fun _ _ x => (x ||| imm.zeroExtend 32, 0)) s
/-- VXORI (R112): D := D XOR imm. -/
def execVxori (d : BitVec 7) (e : Bool) (imm : BitVec 16) (s : State) : Host.Outcome State Fault Refusal :=
  viWord d e (fun _ _ x => (x ^^^ imm.zeroExtend 32, 0)) s
/-- VMOVHI (R112): D := (imm << 16) OR D[15:0]. -/
def execVmovhi (d : BitVec 7) (e : Bool) (imm : BitVec 16) (s : State) : Host.Outcome State Fault Refusal :=
  viWord d e (fun _ _ x => ((imm ++ x.truncate 16 : BitVec 32), 0)) s
/-- VSHLI (R112): D := D << imm. -/
def execVshli (d : BitVec 7) (e : Bool) (imm : BitVec 5) (s : State) : Host.Outcome State Fault Refusal :=
  viWord d e (fun _ _ x => (x <<< imm.toNat, 0)) s
/-- VSHRI (R112): D := D >> imm, zeros. -/
def execVshri (d : BitVec 7) (e : Bool) (imm : BitVec 5) (s : State) : Host.Outcome State Fault Refusal :=
  viWord d e (fun _ _ x => (x >>> imm.toNat, 0)) s
/-- VSARI (R112): D := D >> imm, sign. -/
def execVsari (d : BitVec 7) (e : Bool) (imm : BitVec 5) (s : State) : Host.Outcome State Fault Refusal :=
  viWord d e (fun _ _ x => (x.sshiftRight imm.toNat, 0)) s
/-- VIMULI (R112): D := low word of D × sext(imm). -/
def execVimuli (d : BitVec 7) (e : Bool) (imm : BitVec 16) (s : State) : Host.Outcome State Fault Refusal :=
  viWord d e (fun _ _ x => (x * imm.signExtend 32, 0)) s
/-- VMOVI (R112): D := sext(imm). -/
def execVmovi (d : BitVec 7) (imm : BitVec 16) (s : State) : Host.Outcome State Fault Refusal :=
  viConst d (fun _ => imm.signExtend 32) s
/-- VMOVFI (R112): D := imm << 16. -/
def execVmovfi (d : BitVec 7) (imm : BitVec 16) (s : State) : Host.Outcome State Fault Refusal :=
  viConst d (fun _ => imm ++ 0#16) s
/-- VLANEI (R112): D := sext(imm) + the logical lane number. -/
def execVlanei (d : BitVec 7) (imm : BitVec 16) (s : State) : Host.Outcome State Fault Refusal :=
  viConst d (fun l => imm.signExtend 32 + BitVec.ofNat 32 l) s

end Sys2Proof.Machine
end

