-- ==== Sys2Proof/Machine/CrossLane.lean ====
section
/-! DEFINITION. Cross-lane words and their gatherings (06, R126 to R131), words that reach into another lane (R132 to R135, R344) and the
random words (R141). -/
namespace Sys2Proof.Machine

/-! ### Gatherings -/

/-- A predicate written if the field names one: 31 names none (R126). -/
def Lane.setValid (n : Lane) (pg : BitVec 5) (v : Bool) : Lane := if pg.toNat < 24 then n.setPred pg.toNat v else n

/-- A cross-lane result written to the destination, which is never lr: a result whose destination names lr is written nowhere (R17, R126). -/
def Lane.crossDest (n : Lane) (d : Nat) (v : Word) : Lane := if d < 72 then n.setReg d v else n

/-- The gathering open at the issuing word (R127). -/
def Group.gatheringHere (g : Group) : Option Gathering :=
  g.gatherings.find? (fun w => w.hdr == g.run.hdr && w.word == g.run.idx)

/-- The member lanes still awaited (R127). -/
def Group.pend (g : Group) (members arrived : LaneSet) : LaneSet := members &&& g.countSet &&& ~~~arrived

/-- The ordered pairs of distinct destination and source passes that carry an element (R131). -/
def State.crossings (s : State) (g : Group) (pairs : List (Nat × Nat)) : Nat :=
  ((pairs.map (fun p => (s.passOf g p.1, s.passOf g p.2))).filter (fun p => p.1 != p.2)).dedup.length

/-- PASSCNT of the issuing group's run. -/
def State.passCnt (s : State) (g : Group) : Nat := passCount (s.sliceOf g).laneMap g.run.passDiv

/-- A cross-lane word (R127): the lanes of the active set that are members arrive; when no member is awaited the word executes for all that
have arrived, else they park and the rest of the clause belongs to the others. `body` gives the group after execution for the
members and the arrived lanes, and the cost of it. Sources are judged for the lanes that issue the word: a ready gathering whose lanes read lr
raises cause 0x12, its valid bits being those of its own run (DESIGN CHOICE, log entry 66). -/
def State.gatherWord (s : State) (srcs : List (Nat × Bool)) (dsts : List Nat) (c : BitVec 7) (pg : BitVec 5)
    (body : Group → LaneSet → LaneSet → Group × Nat) : Host.Outcome State Fault Refusal :=
  let g := s.me
  let r := g.run
  let held := g.gatheringHere
  let mask := if held.isSome then [] else [(c.toNat, false), (c.toNat + 1, false)]
  .next (s.gated (g.gate (srcs ++ mask) dsts) (
    let members : LaneSet := match held with | some w => w.members | none => g.sPair (c.toNat - 80)
    let arrived : LaneSet := (match held with | some w => w.arrived | none => 0) ||| (r.act &&& members)
    let rest := r.act &&& ~~~members
    let others := g.gatherings.filter (fun w => !(w.hdr == r.hdr && w.word == r.idx))
    let g1 := g.mapLanes rest (fun _ n => n.setValid pg false)
    if g.pend members arrived = 0 then
      let g2 := { g1.wake arrived with gatherings := others, run := { r with act := arrived ||| rest } }
      let done := body g2 members arrived
      let shown := (body (g2.mapLanes arrived (fun _ n => n.probe)) members arrived).1
      let wrote (l : Nat) : Writes :=
        if inSet arrived l then (shown.lane l).written dsts (decide (pg.toNat < 24)) else { preds := inSet rest l && decide (pg.toNat < 24) }
      ((s.commit s.cur done.1 wrote).kick g.team).advance 2 done.2
    else
      let g2 := g1.mapLanes (r.act &&& members)
        (fun _ n => { n with cond := .parked .convergence, place := .gathering r.hdr.toNat r.idx })
      let g3 := { g2 with
        gatherings := others ++ [⟨r.hdr, r.idx, members, arrived⟩]
        run := { r with act := rest, quit := decide (rest = 0) } }
      (s.commit s.cur g3 (Writes.on { preds := decide (pg.toNat < 24) } rest)).advance 2 (s.pa g)))

/-- What a reader gets of a source lane (R129): the value and valid, or nothing. lr as the source of a lane that arrived in an earlier run is read as
it stands, though its valid bit is clear: the spec does not say what such a word does (DESIGN CHOICE, log entry 66). -/
def Group.fetchLane (g : Group) (c : Col) (members arrived : LaneSet) (a : Nat) (src : Option Nat) : Option Word × Bool :=
  match src with
  | none => (none, false)
  | some m => if inSet arrived m then (some (g.src c m a), true) else if inSet members m then (some 0, false) else (none, false)

/-- A word that moves one value to each arrived lane from the lane `from_` names (R129, R130). -/
def State.routeWord (s : State) (d a : BitVec 7) (pg : BitVec 5) (from_ : Group → Nat → Option Nat)
    (g : Group) (members arrived : LaneSet) : Group × Nat :=
  (g.mapLanes arrived (fun l n =>
      let r := g.fetchLane .int members arrived a.toNat (from_ g l)
      (match r.1 with | some v => n.crossDest d.toNat v | none => n).setValid pg r.2),
    s.passCnt g + s.crossings g ((lanesIn arrived).filterMap (fun l =>
      match from_ g l with
      | some m => if inSet arrived m then some (l, m) else none
      | none => none)))

/-- VPERM (R130): each lane reads the lane its B names. -/
def execVperm (d a b c : BitVec 7) (ea eb : Bool) (pg : BitVec 5) (s : State) : Host.Outcome State Fault Refusal :=
  s.gatherWord [(a.toNat, ea), (b.toNat, eb)] (destRegs d) c pg
    (s.routeWord d a pg (fun g l => some ((g.src .int l b.toNat).toNat % 64)))

/-- The lane a VSHUF offset reaches (R130): GRPWIDTH is 64 here, so the factor is 1. -/
def shufLane (off : BitVec 8) (l : Nat) : Option Nat :=
  let m : Int := (l : Int) + off.toInt
  if 0 ≤ m ∧ m < 64 then some m.toNat else none

/-- VSHUF (R130). -/
def execVshuf (d a c : BitVec 7) (ea : Bool) (pg : BitVec 5) (off : BitVec 8) (s : State) : Host.Outcome State Fault Refusal :=
  s.gatherWord [(a.toNat, ea)] (destRegs d) c pg (s.routeWord d a pg (fun _ l => shufLane off l))

/-- VBCAST (R130). -/
def execVbcast (d a c : BitVec 7) (ea : Bool) (pg : BitVec 5) (lane : BitVec 8) (s : State) : Host.Outcome State Fault Refusal :=
  s.gatherWord [(a.toNat, ea)] (destRegs d) c pg (s.routeWord d a pg (fun _ _ => some (lane.toNat % 64)))

/-- The operation of a reduction (R130). -/
def redOp (op : Nat) (mode : RMode) (x y : Word) : Word × FpFlags :=
  match op with
  | 0 => (x + y, 0)
  | 1 => (minS x y, 0)
  | 2 => (maxS x y, 0)
  | 3 => (minU x y, 0)
  | 4 => (maxU x y, 0)
  | 5 => (x &&& y, 0)
  | 6 => (x ||| y, 0)
  | 7 => (x ^^^ y, 0)
  | 8 => (f32.finish mode 0 ((asF32 x).add mode (asF32 y))).word
  | 9 => fpPick false x y
  | _ => fpPick true x y

/-- The identity of a reduction (R130). -/
def redIdentity (op : Nat) : Word :=
  match op with
  | 1 => 0x7FFFFFFF
  | 2 => 0x80000000
  | 3 => 0xFFFFFFFF
  | 5 => 0xFFFFFFFF
  | 8 => 0x80000000
  | 9 => 0x7F800000
  | 10 => 0xFF800000
  | _ => 0

/-- The column of a reduction's operand (R42). -/
def redCol (op : Nat) : Col := if 8 ≤ op then .f32 else .int

/-- One step at distance d of the butterfly or the prefix over all lanes: values with the flags gathered so far (R130). -/
def redStep (scan : Bool) (op : Nat) (mode : RMode) (x : List (Word × FpFlags)) (d : Nat) : List (Word × FpFlags) :=
  let at_ (l : Nat) : Word × FpFlags := x.getD l (0, 0)
  (List.range 64).map (fun l =>
    let me := at_ l
    if scan then
      (if l < d then me else let r := redOp op mode (at_ (l - d)).1 me.1; (r.1, me.2 ||| r.2))
    else let r := redOp op mode me.1 (at_ (l ^^^ d)).1; (r.1, me.2 ||| r.2))

/-- The six distances (R130). -/
def redDistances : List Nat := [1, 2, 4, 8, 16, 32]

/-- The values of a reduction in every position, with the flags of the steps of that position (R130). -/
def Group.reduce (g : Group) (scan : Bool) (op : Nat) (mode : RMode) (a : Nat) (members arrived : LaneSet) : List (Word × FpFlags) :=
  let x := (List.range 64).map (fun l =>
    ((if inSet arrived l then g.src (redCol op) l a else if inSet members l then 0 else redIdentity op), (0 : FpFlags)))
  redDistances.foldl (redStep scan op mode) x

/-- The cost of a reduction: P + X over its six steps (R131). -/
def State.redCost (s : State) (g : Group) (scan : Bool) (arrived : LaneSet) : Nat :=
  (redDistances.map (fun d => s.passCnt g + s.crossings g ((lanesIn arrived).filterMap (fun l =>
    let m := if scan then l - d else l ^^^ d
    if (!scan || decide (d ≤ l)) && inSet arrived m then some (l, m) else none)))).sum

/-- VLOGRED (R130). -/
def execVlogred (d a c : BitVec 7) (ea : Bool) (pg : BitVec 5) (rm : BitVec 3) (op : BitVec 4) (s : State) :
    Host.Outcome State Fault Refusal :=
  s.gatherWord [(a.toNat, ea)] (destRegs d) c pg (fun g members arrived =>
    let x := g.reduce false op.toNat (RMode.ofCode rm.toNat) a.toNat members arrived
    let valid := decide (members &&& ~~~arrived = 0)
    (g.mapLanes arrived (fun l n =>
        let v := x.getD l (0, 0)
        ((n.crossDest d.toNat v.1).setValid pg valid).orFlags v.2),
      s.redCost g false arrived))

/-- VSCAN (R130): the lanes that D(l) covers are those below l, and l itself unless excl. -/
def execVscan (d a c : BitVec 7) (ea : Bool) (pg : BitVec 5) (rm : BitVec 3) (op : BitVec 4) (excl : Bool) (s : State) :
    Host.Outcome State Fault Refusal :=
  s.gatherWord [(a.toNat, ea)] (destRegs d) c pg (fun g members arrived =>
    let x := g.reduce true op.toNat (RMode.ofCode rm.toNat) a.toNat members arrived
    (g.mapLanes arrived (fun l n =>
        let own := x.getD l (0, 0)
        let v := if excl then (if l = 0 then redIdentity op.toNat else (x.getD (l - 1) (0, 0)).1) else own.1
        let covers (m : Nat) : Bool := if excl then decide (m < l) else decide (m ≤ l)
        let valid := (lanesIn (members &&& ~~~arrived)).all (fun m => !covers m)
        ((n.crossDest d.toNat v).setValid pg valid).orFlags own.2),
      s.redCost g true arrived))

/-- VVOTE (R130). -/
def execVvote (d : BitVec 7) (pa : BitVec 5) (c : BitVec 7) (pg : BitVec 5) (mode : BitVec 2) (s : State) :
    Host.Outcome State Fault Refusal :=
  s.gatherWord [] (if mode.toNat = 0 then [d.toNat, d.toNat + 1] else destRegs d) c pg (fun g members arrived =>
    let ballot : LaneSet := setOf (fun l => inSet arrived l && (g.lane l).pred pa.toNat)
    let valid := decide (members &&& ~~~arrived = 0)
    let one (n : Lane) : Lane :=
      match mode.toNat with
      | 0 => (n.crossDest d.toNat (ballot.truncate 32)).crossDest (d.toNat + 1) ((ballot >>> 32).truncate 32)
      | 1 => n.crossDest d.toNat (if ballot = members then 1 else 0)
      | 2 => n.crossDest d.toNat (if ballot = 0 then 0 else 1)
      | _ => n.crossDest d.toNat (BitVec.ofNat 32 (lanesIn ballot).length)
    let k := (s.passesOf g arrived).length
    (g.mapLanes arrived (fun _ n => (one n).setValid pg valid), s.passCnt g + k * (k - 1)))

/-! ### Reaching into another lane -/

/-- A lane that was launched (R10). -/
def Lane.launched (n : Lane) : Bool := n.cond != .never

/-- Vector LREAD (R132): a result from the same pass comes at ALU latency, one from another pass as a long-latency result (R19). -/
def execLread (d a b : BitVec 7) (ea eb : Bool) (pg : BitVec 5) (neg : Bool) (s : State) : Host.Outcome State Fault Refusal :=
  let g := s.me
  let m := g.run.act
  let on (l : Nat) : Bool := guarded pg neg g l
  let src (l : Nat) : Nat := (g.src .int l b.toNat).toNat % 64
  let from_ : LaneSet := setOf (fun k => (lanesIn m).any (fun l => on l && src l == k) && (g.lane k).launched)
  let val (l : Nat) : Word := if (g.lane (src l)).launched then (g.lane (src l)).reg a.toNat else 0
  let near (l : Nat) : Bool := s.passOf g l == s.passOf g (src l)
  let gate :=
    match g.gateOn [(m, b.toNat, eb)] [(m, d.toNat)] with
    | .block w => Gate.block w
    | _ => g.gateOn [(from_, a.toNat, ea), (m, b.toNat, eb)] [(m, d.toNat)]
  let g1 := g.mapLanes m (fun l n => if on l then (if near l then n.crossDest d.toNat (val l) else n.emptyReg d.toNat) else n)
  let far := (lanesIn m).filter (fun l => on l && !near l)
  let s1 := s.commit s.cur g1 (Writes.on { regs := destRegs d } (setOf (fun l => inSet m l && on l)))
  let s2 := if far.isEmpty then s1 else
    { s1 with
      producers := FMap.put s1.producers s1.fresh
        { kind := .lread, group := s.cur, dests := far.map (fun l => (l, d.toNat, val l)) }
      fresh := s1.fresh + 1 }
  .next (s.gated gate (s2.advance 2 (s.pa g)))

/-- Scalar LREAD (R132): once for the group, at ALU latency. -/
def execLreadScalar (d a : BitVec 7) (ea : Bool) (lane : BitVec 8) (s : State) : Host.Outcome State Fault Refusal :=
  let g := s.me
  let k := lane.toNat % 64
  let n := g.lane k
  .next (s.gated (g.gateOn (if n.launched then [(oneLane k, a.toNat, ea)] else []) [(g.run.act, d.toNat)])
    ((s.onMe (fun g => g.setS (d.toNat - 80) (if n.launched then n.reg a.toNat else 0))).advance 2 1))

/-- A producer is in flight to a register of a lane (R19): an access or another producer that will still write it. -/
def State.inFlight (s : State) (k l r : Nat) : Bool :=
  s.producers.any (fun p => p.2.group == k && p.2.dests.any (fun d => d.1 == l && d.2.1 == r)) ||
  s.accesses.any (fun p => p.2.group == k && p.2.parts.any (fun q => q.lane == l && !q.done) &&
    match p.2.dest with | some d => decide (d ≤ r ∧ r < d + p.2.nregs) | none => false) ||
  s.commands.any (fun p => p.2.group == k && p.2.op == 2 && inSet p.2.act l && p.2.reg == r)

/-- LWRITE (R133): a register of a named lane; exited and never-launched lanes are not written. -/
def execLwrite (d a : BitVec 7) (ea : Bool) (lane : BitVec 8) (s : State) : Host.Outcome State Fault Refusal :=
  let g := s.me
  let k := lane.toNat % 64
  let n := g.lane k
  let blocked := n.counts && n.isEmpty d.toNat && s.inFlight s.cur k d.toNat
  let gate :=
    if blocked then Gate.block (.regs [(oneLane k, d.toNat)]) else g.gateOn [(g.run.act, a.toNat, ea)] []
  .next (s.gated gate
    ((if n.counts then s.commit s.cur (g.onLane k (fun n => n.setReg d.toNat (g.src .int 0 a.toNat))) (Writes.on { regs := [d.toNat] } (oneLane k)) else s).advance 2 1))

/-- COND and REASON of a lane (R135). -/
def Lane.condWord (n : Lane) : Word :=
  match n.cond with
  | .live => 0
  | .parked .deferred => 0x101
  | .parked .convergence => 0x201
  | .parked .handler => 0x301
  | .parked .regionWait => 0x401
  | .parked .refused => 0x501
  | .parked .split => 0x601
  | .exited => 2
  | .never => 3

/-- The condition that bits of COND and REASON give (R135). -/
def condOf (w : Nat) : LaneCond :=
  match w % 4 with
  | 0 => .live
  | 1 => .parked (match w / 256 % 8 with | 1 => .deferred | 2 => .convergence | 3 => .handler | 4 => .regionWait | 5 => .refused | _ => .split)
  | 2 => .exited
  | _ => .never

/-- VPCRD (R134). -/
def execVpcrd (d : BitVec 7) (field : BitVec 4) (lane : BitVec 8) (s : State) : Host.Outcome State Fault Refusal :=
  let n := s.me.lane (lane.toNat % 64)
  let v : Word := match field.toNat with
    | 0 => n.vpc
    | 1 => n.fpflags.zeroExtend 32
    | _ => n.condWord
  .next (s.gated (s.me.gate [] [d.toNat]) ((s.onMe (fun g => g.setS (d.toNat - 80) v)).advance 2 1))

/-- A lane's arrival or request taken back (R134, R344): at a gathering, at a barrier, or for a region slot or the serial token. -/
def State.withdraw (s : State) (k l : Nat) : State :=
  let g := s.group k
  let off : LaneSet := ~~~(oneLane l)
  match (g.lane l).place with
  | .gathering h w =>
    s.onGroup k (fun g => { g with
      gatherings := g.gatherings.map (fun x => if x.hdr.toNat = h ∧ x.word = w then { x with arrived := x.arrived &&& off } else x) })
  | .barrier b =>
    s.onTeam g.team (fun t =>
      { t with arrivals := FMap.put t.arrivals (b * 16 + g.gid) (FMap.at 0 t.arrivals (b * 16 + g.gid) &&& off) })
  | .gridBarrier =>
    s.onTeam g.team (fun t => { t with gridArr := FMap.put t.gridArr g.gid (FMap.at 0 t.gridArr g.gid &&& off) })
  | .slotWait =>
    let keep (w : SlotWaiter) : Bool := !(w.group == k && w.lane == l)
    s.onDie (dieOf g.cluster) (fun d => { d with waiters := d.waiters.filter keep, tokenWaiters := d.tokenWaiters.filter keep })
  | _ => s

/-- A lane whose arrival or request a handler can take back (R344). -/
def Lane.waits (n : Lane) : Bool :=
  match n.place with
  | .gathering _ _ | .barrier _ | .gridBarrier | .slotWait => n.isParked
  | _ => false

/-- VPCWR changes nothing here: an exited or never-launched lane, a lane in a region, a lane at a recovery word (R134, R344). -/
def Lane.fixed (n : Lane) : Bool :=
  !n.counts || n.region.isSome || (match n.place with | .recovery _ => n.isParked | _ => false)

/-- VPCWR of field 0 (R344): the VPC is set; a lane that waits loses its arrival or request and stays parked with REASON 3. -/
def State.writeVpc (s : State) (k l : Nat) (v : Word) : State :=
  let n := (s.group k).lane l
  let s := if n.waits then s.withdraw k l else s
  s.onGroup k (fun g => g.onLane l (fun m =>
    if n.waits then { m with vpc := v, cond := .parked .handler, place := .none } else { m with vpc := v }))

/-- VPCWR of field 2 with A = 0 (R344): a parked lane becomes live at its VPC; a deferred fault is dropped for it, and the registers the
fault left empty wait for TRET (R23). -/
def State.unpark (s : State) (k l : Nat) : State :=
  let n := (s.group k).lane l
  if !n.isParked then s
  else
    let s := s.withdraw k l
    s.onGroup k (fun g =>
      let g := { g with faultRegs := g.faultRegs ++ g.faultRegsOf l }
      (g.dropFaultLane l).onLane l (fun m => { m with cond := .live, place := .none }))

/-- VPCWR (R134, R344): fields 0 and 2 in a handler only. -/
def execVpcwr (a : BitVec 7) (ea : Bool) (field : BitVec 4) (lane : BitVec 8) (s : State) : Host.Outcome State Fault Refusal :=
  let g := s.me
  let k := lane.toNat % 64
  let n := g.lane k
  let v := g.src .int 0 a.toNat
  let base := g.gateOn [(g.run.act, a.toNat, ea)] []
  -- the lowest of the causes 0x09, 0x0F and 0x10 (R30, R339)
  let gate :=
    match base with
    | .block w => Gate.block w
    | _ =>
      if base = .go ∧ field.toNat = 2 ∧ 2 ≤ v.toNat then Gate.trap 0x09 9
      else if field.toNat ≠ 1 ∧ !g.run.handler then Gate.trap 0x0F g.run.classOp
      else base
  let done :=
    match field.toNat with
    | 0 => if n.fixed then s else s.writeVpc s.cur k v
    | 1 => if n.counts then s.commit s.cur (g.onLane k (fun m => { m with fpflags := v.truncate 5 })) (Writes.on { flags := true } (oneLane k)) else s
    | _ =>
      if n.fixed then s
      else if v = 0 then s.unpark s.cur k
      else if n.isLive then s.onMe (fun g => g.onLane k (fun m => { m with cond := .parked .handler, place := .none }))
      else s
  .next (s.gated gate (done.advance 2 1))

/-! ### Random bits -/

/-- DROPM (R141): the predicate pg of each active lane. -/
def execDropm (a b c : BitVec 7) (ea eb : Bool) (pg : BitVec 5) (s : State) : Host.Outcome State Fault Refusal :=
  s.vecWord [(a.toNat, ea), (b.toNat, eb), (c.toNat, false)] [] 2 (s.pa s.me) always (fun g l n =>
    let x := nqmix (g.src .int l a.toNat) (g.src .int l b.toNat + BitVec.ofNat 32 l)
    n.setPred pg.toNat (decide (x.toNat / 2 ^ 16 < min ((g.src .int l c.toNat).toNat % 2 ^ 17) 65536))) true

/-- VRAND (R141); it writes lr (R17). -/
def execVrand (d a b : BitVec 7) (ea eb : Bool) (pg : BitVec 5) (neg : Bool) (s : State) : Host.Outcome State Fault Refusal :=
  s.vecWord [(a.toNat, ea), (b.toNat, eb)] (destRegs d) 2 (s.pa s.me) (guarded pg neg) (fun g l n =>
    n.result d (nqmix (g.src .int l a.toNat) (g.src .int l b.toNat + BitVec.ofNat 32 l), 0))

end Sys2Proof.Machine
end

