-- ==== Sys2Proof/Machine/Caches.lean ====
section
/-! DEFINITION. The L1 of a cluster and the slices of the LLC (12, R214 to R219): which lines they hold, their prediction values, hits, fills and victims.
A cache changes no value but through the copies that an L1 keeps after others have written them. The spec names no set of a line: the low bits of
its number choose it (DESIGN CHOICE, log entry 12). -/
namespace Sys2Proof.Machine

/-! ### Sets and ways (R209, R219) -/

/-- The ways of a set that hold a line: way, line and prediction value. -/
def setWays (m : FMap (Nat × Nat)) (set : Nat) : List (Nat × Nat × Nat) :=
  (List.range 16).filterMap (fun w => (FMap.look m (16 * set + w)).map (fun e => (w, e)))

/-- The way of a set that holds a line. -/
def wayOf (m : FMap (Nat × Nat)) (set line : Nat) : Option Nat := ((setWays m set).find? (fun x => x.2.1 == line)).map (·.1)

/-- A hit makes the prediction value 0. -/
def lineHit (m : FMap (Nat × Nat)) (set line : Nat) : FMap (Nat × Nat) :=
  match wayOf m set line with
  | some w => FMap.put m (16 * set + w) (line, 0)
  | none => m

/-- The victim among the ways that may be chosen, and by how much every value of the set grows until one of them is 7: the lowest way of the
greatest value. -/
def victimOf (ws : List (Nat × Nat × Nat)) : Option (Nat × Nat × Nat) :=
  let top := ws.foldl (fun m x => max m x.2.2) 0
  (ws.find? (fun x => x.2.2 == top)).map (fun x => (x.1, x.2.1, 7 - top))

/-- A line put in a set of some enabled ways: in the lowest free way, else in place of the victim, which is named; none where no line of the set may
be chosen. -/
def placeLine (m : FMap (Nat × Nat)) (set ways : Nat) (free : Nat → Bool) (line v : Nat) : Option (FMap (Nat × Nat) × Option Nat) :=
  let ws := setWays m set
  match (List.range ways).find? (fun w => !FMap.has m (16 * set + w)) with
  | some w => some (FMap.put m (16 * set + w) (line, v), none)
  | none =>
    match victimOf (ws.filter (fun x => decide (x.1 < ways) && free x.2.1)) with
    | some (w, old, up) =>
      let m := ws.foldl (fun m x => FMap.put m (16 * set + x.1) (x.2.1, min 7 (x.2.2 + up))) m
      some (FMap.put m (16 * set + w) (line, v), some old)
    | none => none

/-- A line taken out of a cache. -/
def takeOut (m : FMap (Nat × Nat)) (line : Nat) : FMap (Nat × Nat) := m.filter (fun p => p.2.1 != line)

/-- The set of a line in an L1 of 128 sets. -/
def l1Set (line : Nat) : Nat := line % 128
/-- The set of a line in an LLC slice of 4,096 sets. -/
def llcSet (line : Nat) : Nat := line % 4096

/-! ### Lines that stay, and who holds a line -/

/-- A line that is never a victim (R219): an engine owns it, it is tentative, or an uncommitted region has written it. -/
def State.pinned (s : State) (line : Nat) : Bool :=
  s.ownedLine line || s.teams.any (fun p => p.2.levels.any (fun lv => FMap.has lv.lines line)) ||
  (List.range 4).any (fun i => (FMap.at [] s.sectors (4 * line + i)).any (·.2))

/-- The cluster that holds the write token of the object in which a line lies (R214). -/
def State.holderOf (s : State) (line : Nat) : Option Nat :=
  match s.objectOf line with
  | some k => (FMap.look s.objects k).bind (·.holder)
  | none => none

/-- The home slice of a line (R216): the 16-bit fields of the line number joined by exclusive or, modulo 48. -/
def homeOf (line : Nat) : Nat := ((line % 2 ^ 16) ^^^ (line / 2 ^ 16 % 2 ^ 16) ^^^ (line / 2 ^ 32 % 2 ^ 16) ^^^ (line / 2 ^ 48 % 2)) % 48

/-- An LLC slice. -/
def State.slice (s : State) (k : Nat) : LlcSlice := FMap.at {} s.llc k
/-- An LLC slice changed. -/
def State.onLlc (s : State) (k : Nat) (f : LlcSlice → LlcSlice) : State := { s with llc := FMap.put s.llc k (f (s.slice k)) }

/-- The slice that holds a line (R217): the one its home slice's forwarding entry names, else its home slice. -/
def State.holdOf (s : State) (line : Nat) : Nat :=
  match (s.slice (homeOf line)).forwards.find? (fun p => p.1 == line) with
  | some p => p.2
  | none => homeOf line

/-! ### The LLC -/

/-- A cluster's access to a line at its slice counted: how many in a row came from it (R217). -/
def State.useLine (s : State) (cl line : Nat) : State :=
  s.onLlc (homeOf line) (fun x =>
    let u := FMap.at (0, 0) x.lastUse line
    { x with lastUse := FMap.put x.lastUse line (cl, if u.1 = cl then u.2 + 1 else 1) })

/-- A request for a line at the slice that holds it: a hit, or a miss that fills the line with a prediction value (R219, R220). -/
def State.llcFill (s : State) (line v : Nat) : State :=
  s.onLlc (s.holdOf line) (fun x =>
    let n := x.reqs + 1
    let recent := x.missed.filter (fun k => decide (n < k + 65536))
    if (wayOf x.lines (llcSet line) line).isSome then { x with lines := lineHit x.lines (llcSet line) line, reqs := n, missed := recent }
    else { x with
      lines := match placeLine x.lines (llcSet line) x.ways (fun ln => !s.pinned ln) line v with | some r => r.1 | none => x.lines
      reqs := n, misses := x.misses + 1, missed := recent ++ [n] })

/-- A request of a partition for a line counted at the slice that holds it: 128 bytes moved (R380; DESIGN CHOICE, log entry 87). -/
def State.moveBytes (s : State) (part line : Nat) : State :=
  s.onLlc (s.holdOf line) (fun x => { x with moved := FMap.put x.moved part (FMap.at 0 x.moved part + 128) })

/-- A request for a line by a cluster, or by another party. -/
def State.llcAccess (s : State) (who : Option Nat) (line v : Nat) : State :=
  (match who with | some cl => (s.useLine cl line).moveBytes (s.cluster cl).part line | none => s).llcFill line v

/-- A line moved from one slice to another (R217, R220): it keeps its prediction value; where its set has no room there it stays in memory alone. -/
def State.moveLine (s : State) (line src dest : Nat) : State :=
  let v := match wayOf (s.slice src).lines (llcSet line) line with
    | some w => (FMap.at (0, 0) (s.slice src).lines (16 * llcSet line + w)).2
    | none => 6
  (s.onLlc src (fun x => { x with lines := takeOut x.lines line })).onLlc dest (fun x => { x with
    lines := match placeLine x.lines (llcSet line) x.ways (fun ln => !s.pinned ln) line v with | some r => r.1 | none => x.lines })

/-! ### The L1 -/

/-- An L1 holds a line. -/
def Cluster.hasLine (c : Cluster) (line : Nat) : Bool := (wayOf c.l1 (l1Set line) line).isSome

/-- A line dropped from a cluster's L1. -/
def Cluster.dropLine (c : Cluster) (line : Nat) : Cluster :=
  let st : FMap (BitVec 8) := c.stale.filter (fun p => p.1 / 128 != line)
  { c with l1 := takeOut c.l1 line, stale := st, dirty := FMap.del c.dirty line }

/-- A line taken from an L1 to make room: a held dirty one is written to its slice, at prediction value 6, and is nobody's copy (R219). -/
def State.evictLine (s : State) (cl line : Nat) : State :=
  (if FMap.has (s.cluster cl).dirty line then s.llcFill line 6 else s).onCluster cl (·.dropLine line)

/-- A line filled in an L1 with a prediction value; a line that an engine owns is not placed there (R215, R219). -/
def State.l1Fill (s : State) (cl line v : Nat) : State :=
  if s.ownedLine line then s
  else
    match placeLine (s.cluster cl).l1 (l1Set line) 16 (fun ln => !s.pinned ln) line v with
    | none => s
    | some (m, old) =>
      let s := match old with | some ln => s.evictLine cl ln | none => s
      s.onCluster cl (fun c => { c with l1 := m })

/-- A line used at an L1: a hit, or a fill; each is counted (R365), once for each line of a lane's piece of an access (DESIGN CHOICE, log entry 18). -/
def State.l1Use (s : State) (cl line v : Nat) : State :=
  if (s.cluster cl).hasLine line then
    s.onCluster cl (fun c => { c with l1 := lineHit c.l1 (l1Set line) line, l1Hits := c.l1Hits + 1 })
  else (s.l1Fill cl line v).onCluster cl (fun c => { c with l1Misses := c.l1Misses + 1 })

/-- The L1 of a cluster after a read of a line (R214, R219): a hit keeps the copy as it is, also one that has become stale; a miss is served by the
holder of its object's token or by the LLC, and fills the line. -/
def State.fetchLine (s : State) (cl line v : Nat) : State :=
  if (s.cluster cl).hasLine line then s.l1Use cl line v
  else
    match s.holderOf line with
    | some h => (if h = cl then s.llcAccess (some cl) line v else s.l1Use h line v).l1Use cl line v
    | none => (s.llcAccess (some cl) line v).l1Use cl line v

/-- The slice that holds a line has it, or has room to fill it (R219): the fill waits where no line of its set may be chosen. Lines that the party itself keeps
there, `own`, do not make it wait: where its set holds no other, the line is not kept in the slice (DESIGN CHOICE, log entry 88). -/
def State.llcRoomBut (s : State) (own : Nat → Bool) (line : Nat) : Bool :=
  let x := s.slice (s.holdOf line)
  (wayOf x.lines (llcSet line) line).isSome || (placeLine x.lines (llcSet line) x.ways (fun ln => own ln || !s.pinned ln) line 0).isSome

/-- Room for a line in the slice that holds it (R219). -/
def State.llcRoom (s : State) (line : Nat) : Bool := s.llcRoomBut (fun _ => false) line

/-- Room for a line in an L1 (R219). -/
def State.l1Room (s : State) (cl line : Nat) : Bool :=
  (s.cluster cl).hasLine line || (placeLine (s.cluster cl).l1 (l1Set line) 16 (fun ln => !s.pinned ln) line 0).isSome

/-- A fill of a line can be made now in an L1 and in the slice that holds it (R219). -/
def State.roomFor (s : State) (cl line : Nat) : Bool := (s.cluster cl).hasLine line || (s.l1Room cl line && s.llcRoom line)

/-- The lines that share a set with a line, in an L1 or in the slice that holds it. -/
def State.setLines (s : State) (cl : Option Nat) (line : Nat) : List Nat :=
  ((setWays (s.slice (s.holdOf line)).lines (llcSet line)).map (·.2.1)) ++
  (match cl with | some k => (setWays (s.cluster k).l1 (l1Set line)).map (·.2.1) | none => [])

/-- What a write of a line does to the caches (R214, R219, R227): a held line is written in the holder's L1 and is dirty there; any other at the slice
that holds it, and a copy in the writer's L1 is hit. -/
def State.cacheWrite (s : State) (cl : Option Nat) (v line : Nat) : State :=
  match if s.ownedLine line then none else s.holderOf line with
  | some h => (s.l1Use h line v).onCluster h (fun c => if c.hasLine line then { c with dirty := FMap.put c.dirty line () } else c)
  | none =>
    let s := match cl with
      | some c => if (s.cluster c).hasLine line then s.l1Use c line v else s
      | none => s
    s.llcAccess cl line v

/-- The copy lines of a cluster's L1 dropped by an acquire at cluster scope or wider; held lines stay (R214). -/
def State.dropCopies (s : State) (cl : Nat) : State :=
  s.onCluster cl (fun c =>
    let l1 : FMap (Nat × Nat) := c.l1.filter (fun p => s.holderOf p.2.1 == some cl)
    { c with l1 := l1, stale := [] })

end Sys2Proof.Machine
end

