-- ==== Sys2Proof/Machine/Memory.lean ====
section
/-! DEFINITION. Memory as accesses meet it (12, 13): little-endian bytes, translation (R222 to R226), what a read returns at a cluster
(R214, R240), and the effect of a write on copies, poison, recovery logs and the read sets of regions. -/
namespace Sys2Proof.Machine

/-! ### Bytes -/

/-- The number whose little-endian bytes these are. -/
def leNat : List (BitVec 8) → Nat
  | [] => 0
  | b :: bs => b.toNat + 256 * leNat bs

/-- The low `n` bytes of a number, little-endian. -/
def leBytes : Nat → Nat → List (BitVec 8)
  | 0, _ => []
  | n + 1, v => BitVec.ofNat 8 v :: leBytes n (v / 256)

/-- A little-endian number of `n` bytes at an address of a memory. -/
def Mem.num (m : Mem) (a n : Nat) : Nat := leNat (Mem.readBytes m a n)

/-- The little-endian number of `n` bytes at an offset of a block of bytes. -/
def fieldAt (bs : List (BitVec 8)) (off n : Nat) : Nat := leNat ((bs.drop off).take n)

/-- The 4-byte words of a range of bytes. -/
def wordsIn (a len : Nat) : List Nat := if len = 0 then [] else (List.range ((a + len - 1) / 4 - a / 4 + 1)).map (a / 4 + ·)

/-- The 4-byte words that lie wholly in a range. -/
def wholeWords (a len : Nat) : List Nat := (wordsIn a len).filter (fun w => decide (a ≤ 4 * w ∧ 4 * w + 4 ≤ a + len))

/-! ### Translation -/

/-- The end of a table walk (R224): a leaf with its level, or a cause with the level of the entry and whether the driver's table is in error. -/
inductive WalkEnd where
  | leaf (entry : DWord) (level : Nat)
  | bad (code level : Nat) (table : Bool)
  deriving DecidableEq, Repr

/-- The physical address that an entry holds (R223). -/
def entryAddr (e : DWord) : Nat := e.toNat / 2 ^ 8 % 2 ^ 48 * 2 ^ 8

/-- The levels of a table (R222): number, lowest index bit, index width, alignment of the next table as a power of two. -/
def walkLevels : List (Nat × Nat × Nat × Nat) := [(0, 39, 17, 12), (1, 30, 9, 12), (2, 21, 9, 8), (3, 16, 5, 8)]

/-- The walk of a virtual address from a table (R222 to R224). -/
def walkFrom (m : Mem) (poison : FMap Unit) (va : Nat) : List (Nat × Nat × Nat × Nat) → Nat → WalkEnd
  | [], _ => .bad 0x32 3 true
  | (lv, sh, w, al) :: rest, base =>
    let ea := base + 8 * (va / 2 ^ sh % 2 ^ w)
    let e := Mem.num m ea 8
    let isLeaf := decide (e / 2 % 2 = 1)
    let addr := e / 2 ^ 8 % 2 ^ 48 * 2 ^ 8
    if FMap.has poison (ea / 4) || FMap.has poison (ea / 4 + 1) then .bad 0x39 lv false
    else if e % 2 = 0 then (if e = 0 then .bad 0x32 lv false else .bad 0x31 lv false)
    else if e / 2 ^ 56 ≠ 0 ∨ (lv = 0 ∧ isLeaf) ∨ (lv = 3 ∧ !isLeaf) then .bad 0x32 lv true
    else if isLeaf then (if addr % 2 ^ sh ≠ 0 then .bad 0x32 lv true else .leaf (BitVec.ofNat 64 e) lv)
    else if e / 4 % 64 ≠ 0 ∨ addr % 2 ^ al ≠ 0 then .bad 0x32 lv true
    else walkFrom m poison va rest addr

/-- The walk of a partition's tables as they stand. -/
def State.walk (s : State) (part va : Nat) : WalkEnd := walkFrom s.mem s.poison va walkLevels (s.part part).root

/-- The key of a cached translation (R225). -/
def tlbKey (part va : Nat) : Nat := part * 2 ^ 40 + va / 2 ^ 16 % 2 ^ 40

/-- The translation an access uses (R225, R226): one still held in the cluster's or the die's cache, else that of a walk. A cached entry that
differs from the tables may have been evicted. -/
def State.translate (s : State) (cl part va : Nat) : WalkEnd :=
  let now := s.walk part va
  let old := match FMap.look (s.cluster cl).tlb (tlbKey part va) with
    | some e => some e
    | none => FMap.look (s.die (dieOf cl)).tlb (tlbKey part va)
  match old with
  | some (e, lv) => if now = .leaf e lv then now else if Config.tlbEvicted s.fresh then now else .leaf e lv
  | none => now

/-- What an access asks of its page. -/
inductive Access1 where
  | read | write | fetch
  deriving DecidableEq, Repr

/-- The bits of VA below a leaf of a level (R222). -/
def pageBits (lv : Nat) : Nat := match lv with | 1 => 30 | 2 => 21 | _ => 16

/-- The target of a virtual address (R142, R224, R395). -/
def State.target (s : State) (cl part : Nat) (use : Access1) (va : Nat) : Target :=
  if 2 ^ 56 ≤ va then .bad 0x32 none
  else
    match s.translate cl part va with
    | .bad c lv _ => .bad c (if c = 0x39 then some lv else none)
    | .leaf e lv =>
      if e.toNat / 2 ^ 5 % 8 ≠ part then .bad 0x37 none
      else if use = .write ∧ !e.getLsbD 2 then .bad 0x33 none
      else if use = .fetch ∧ !e.getLsbD 3 then .bad 0x32 none
      else
        let pa := entryAddr e + va % 2 ^ pageBits lv
        .ok (if e.getLsbD 4 then .host else if 2 ^ 55 ≤ pa then .fabric else .global) pa

/-- A walk counts a table error for the partition (R224, R388). -/
def State.tableError (s : State) (cl part va : Nat) : Bool :=
  decide (va < 2 ^ 56) && match s.translate cl part va with | .bad _ _ t => t | .leaf .. => false

/-- An error counter of a partition raised, saturating at 32 bits (R388). -/
def State.countErr (s : State) (part k n : Nat) : State :=
  if n = 0 then s else s.onPart part (fun p => { p with errcnt := FMap.put p.errcnt k (min (2 ^ 32 - 1) (FMap.at 0 p.errcnt k + n)) })

/-- An entry put in a translation cache of `cap` entries: a full one loses an entry, which one is free (R225). -/
def tlbPut (m : FMap (DWord × Nat)) (cap n k : Nat) (v : DWord × Nat) : FMap (DWord × Nat) :=
  if FMap.has m k || decide (m.length < cap) then FMap.put m k v
  else FMap.put (m.eraseIdx (Config.tlbVictim n % cap)) k v

/-- What an access finds to cache for an address (R225): the key of its page, the leaf entry and its level; nothing where the translation ends in a fault. -/
def State.leafFor (s : State) (cl part : Nat) (use : Access1) (va : Nat) : Option (Nat × DWord × Nat) :=
  match s.target cl part use va, s.translate cl part va with
  | .ok .., .leaf e lv => some (tlbKey part va, e, lv)
  | _, _ => none

/-- A translation put in the caches of a cluster, of 256 entries, and of its die, of 32,768 (R225). -/
def State.putTlb (s : State) (cl : Nat) (x : Nat × DWord × Nat) : State :=
  (s.onCluster cl (fun c => { c with tlb := tlbPut c.tlb 256 s.fresh x.1 x.2 })).onDie (dieOf cl)
    (fun d => { d with tlb := tlbPut d.tlb 32768 s.fresh x.1 x.2 })

/-- What an access leaves behind of the translations of its pages: errors of the tables are counted, other translations are cached (R224, R225, R388). -/
def State.cachePages (s : State) (cl part : Nat) (use : Access1) (pages : List Nat) : State :=
  let found := pages.filterMap (fun pg => s.leafFor cl part use (pg * 2 ^ 16))
  found.foldl (fun s x => s.putTlb cl x) (s.countErr part 2 (pages.filter (fun pg => s.tableError cl part (pg * 2 ^ 16))).length)

/-- The same for the page of one address. -/
def State.noteWalk (s : State) (cl part : Nat) (use : Access1) (va : Nat) : State := s.cachePages cl part use [va / 2 ^ 16]

/-- The pages of a range of addresses, which wraps at 64 bits. -/
def pagesOf (va n : Nat) : List Nat :=
  (List.range ((va % 2 ^ 16 + n - 1) / 2 ^ 16 + 1)).map (fun i => (va / 2 ^ 16 + i) % 2 ^ 48)

/-- A page request at the page-fault service, merged with one pending (R164, R225). -/
def State.requestPage (s : State) (part page : Nat) (cause : Nat := 0x31) : State :=
  if s.pages.any (fun r => r.part == part && r.page == page) then s
  else { s with pages := s.pages ++ [{ part := part, page := page, sent := false, cause := cause }] }

/-! ### Reading -/

/-- The stores that stand in a cluster's L1 over a byte: the place of each in the L1's order, and its byte. -/
def State.pendingAt (s : State) (cl a : Nat) : List (Nat × BitVec 8) :=
  s.accesses.flatMap (fun (_, x) => if x.cluster = cl then
      x.parts.filterMap (fun p => match p.entered with
        | some e => if !p.done && decide (p.addr ≤ a ∧ a < p.addr + p.len) then some (e, p.data.getD (a - p.addr) 0) else none
        | none => none)
    else [])

/-- The byte that the latest store standing in a cluster's L1 leaves at an address (R214). -/
def State.pendingByte (s : State) (cl a : Nat) : Option (BitVec 8) :=
  ((s.pendingAt cl a).foldl (fun (m : Option (Nat × BitVec 8)) x => match m with
    | some y => if y.1 < x.1 then some x else m
    | none => some x) none).map (·.2)

/-- The byte a cluster reads of global memory: a store standing in its L1, its copy where others have since overwritten it, else the value at the
performing point (R214, R240). -/
def State.viewByte (s : State) (cl a : Nat) : BitVec 8 :=
  match s.pendingByte cl a with
  | some b => b
  | none =>
    match FMap.look (s.cluster cl).stale a with
    | some b => b
    | none => Mem.read s.mem a

/-- `n` bytes as a cluster reads them. -/
def State.viewBytes (s : State) (cl a n : Nat) : List (BitVec 8) := (List.range n).map (fun i => s.viewByte cl (a + i))

/-! ### Writing -/

/-- The other clusters' copies keep the bytes that a write at the performing point overwrites, until they are dropped (R214, R240); the
writer's own copy takes them, and so does the line in the L1 of the cluster that holds the token of its object. -/
def State.markStale (s : State) (cl : Option Nat) (a : Nat) (n : Nat) : State :=
  let one (k : Nat) (c : Cluster) : Cluster :=
    if some k = cl then
      { c with stale := c.stale.filter (fun p => !(decide (a ≤ p.1 ∧ p.1 < a + n))) }
    else
      { c with stale := (List.range n).foldl (fun m i =>
          if c.hasLine ((a + i) / 128) && s.holderOf ((a + i) / 128) != some k && !FMap.has m (a + i) then
            FMap.put m (a + i) (Mem.read s.mem (a + i)) else m) c.stale }
  { s with clusters := FMap.mapVals one s.clusters }

/-- Regions whose read sets a non-region write meets get INVAL (R282). `but` are the regions that the write belongs to or follows. -/
def State.markInval (s : State) (a n : Nat) (but : List Nat) : State :=
  let xs := sectorsOf a n
  (s.openSlots.filter (fun id => !but.contains id && (s.slot id).reads.any (fun x => xs.contains x))).foldl
    (fun s id => s.onSlot id (fun sl => { sl with inval := true })) s

/-- Whole words that a write covers are no longer poisoned (R161, R348). -/
def clearPoison (p : FMap Unit) (a n : Nat) : FMap Unit := (wholeWords a n).foldl FMap.del p

/-- Bytes written at the performing point of global memory; `v` is the prediction value of a line that the write fills (R219). -/
def State.writePhys (s : State) (cl : Option Nat) (a : Nat) (bs : List (BitVec 8)) (but : List Nat) (v : Nat := 6) : State :=
  let s := (linesOf a bs.length).foldl (fun (s : State) ln => s.cacheWrite cl v ln) s
  let s := (s.markStale cl a bs.length).markInval a bs.length but
  let old : FMap (Nat × BitVec 8) := s.unsettled.filter (fun p => !decide (a ≤ p.1 ∧ p.1 < a + bs.length))
  { s with mem := Mem.writeBytes s.mem a bs, poison := clearPoison s.poison a bs.length, unsettled := old }

/-! ### Errors of device memory, and atomics under way -/

/-- Lines about to be read by a party (R385, R388): wrong symbols in a half-line that comes from DRAM, as many as the bank's code corrects, are corrected and
counted for the partition; more poison the half-line. Code fetches, table walks and reads of rings meet none (DESIGN CHOICE, log entry 77). -/
def State.checkDram (s : State) (part : Nat) (lines : List Nat) : State :=
  let met := lines.filter (fun ln => (wayOf (s.slice (s.holdOf ln)).lines (llcSet ln) ln).isNone)
  let bad := (met.flatMap (fun ln => [2 * ln, 2 * ln + 1])).filter (fun h => FMap.has s.dramErr h)
  if bad.isEmpty then s
  else
    let fixed (h : Nat) : Bool := decide (FMap.at 0 s.dramErr h ≤ if FMap.has s.module.strong (Config.bankOf (h / 2)) then 2 else 1)
    let s' := (bad.filter fixed).foldl (fun (s : State) h => (s.countErr part 0 1).onModule (fun m => { m with
      corrBank := FMap.put m.corrBank (Config.bankOf (h / 2)) (FMap.at 0 m.corrBank (Config.bankOf (h / 2)) + 1) })) s
    { s' with
      dramErr := bad.foldl FMap.del s'.dramErr
      poison := (bad.filter (fun h => !fixed h)).foldl (fun p h => (List.range 16).foldl (fun p i => FMap.put p (16 * h + i) ()) p) s'.poison }

/-- The byte that a cluster's load meets (R271): the one before a relaxed atomic of another cluster may still be read, as long as nothing has ordered the two. -/
def State.loadByte (s : State) (n cl a : Nat) : BitVec 8 :=
  match FMap.look s.unsettled a with
  | some (w, old) => if w ≠ cl ∧ (s.pendingByte cl a).isNone ∧ Config.readsOld n (a / 16) then old else s.viewByte cl a
  | none => s.viewByte cl a

/-- `n` bytes as a load meets them. -/
def State.loadBytes (s : State) (k cl a n : Nat) : List (BitVec 8) := (List.range n).map (fun i => s.loadByte k cl (a + i))

/-- Bytes whose latest value a party of another cluster than their writer's has met: no later read meets an older one (R231, R271). -/
def State.settleBytes (s : State) (cl : Option Nat) (a n : Nat) : State :=
  let left : FMap (Nat × BitVec 8) := s.unsettled.filter (fun p => !(decide (a ≤ p.1 ∧ p.1 < a + n) && cl != some p.2.1))
  { s with unsettled := left }

/-- Bytes that a relaxed atomic of a cluster has just written outside a level, with what stood there (R271). -/
def State.unsettle (s : State) (cl a : Nat) (old : List (BitVec 8)) : State :=
  { s with unsettled := (List.range old.length).foldl (fun m i => FMap.put m (a + i) (cl, old.getD i 0)) s.unsettled }

/-! ### Recovery logs -/

/-- The lines that a team's levels hold (R297). -/
def Team.loggedLines (t : Team) : Nat := (t.levels.map (fun lv => lv.lines.length)).sum
/-- The scratchpad words that a team's levels hold (R297). -/
def Team.loggedWords (t : Team) : Nat := (t.levels.map (fun lv => lv.scratch.length)).sum

/-- A line is logged by a party of the team at its innermost level (R244, R297). -/
def State.lineLogged (s : State) (t line : Nat) : Bool :=
  (s.parties t).any (fun m => match (s.team m).levels.getLast? with | some lv => FMap.has lv.lines line | none => false)

/-- The lines of a write that the innermost level has still to log (R297). -/
def State.newLines (s : State) (t : Nat) (lines : List Nat) : List Nat :=
  if (s.team t).rlevel = 0 then [] else lines.filter (fun ln => !s.lineLogged t ln)

/-- Lines logged before a write in the innermost level takes effect; none where that would go past the capacity (R297, R298). -/
def State.logLines (s : State) (t : Nat) (lines : List Nat) : Option State :=
  let new := s.newLines t lines
  if new.isEmpty then some s
  else if 2048 < (s.team t).loggedLines + new.length then none
  else some (s.onTeam t (fun tm => tm.onLevel (fun lv => { lv with
    lines := new.foldl (fun m ln =>
      FMap.put m ln (Mem.readBytes s.mem (128 * ln) 128, (wordsIn (128 * ln) 128).filter (fun w => FMap.has s.poison w))) lv.lines })))

/-- The scratchpad words (of the cluster) that the innermost level has still to log. -/
def State.newWords (s : State) (t : Nat) (ws : List Nat) : List Nat :=
  match (s.team t).levels.getLast? with
  | some lv => ws.filter (fun w => !FMap.has lv.scratch w)
  | none => []

/-- Scratchpad words logged before a write (R297, R298). Word numbers are relative to the allocation. -/
def State.logWords (s : State) (t cl : Nat) (ws : List Nat) : Option State :=
  let new := s.newWords t ws
  let base := (s.team t).scrBase / 4
  if new.isEmpty then some s
  else if 4096 < (s.team t).loggedWords + new.length then none
  else some (s.onTeam t (fun tm => tm.onLevel (fun lv => { lv with
    scratch := new.foldl (fun m w =>
      FMap.put m w (BitVec.ofNat 32 (Mem.num (s.cluster cl).scratch (4 * (base + w)) 4), FMap.has (s.cluster cl).scrPoison (base + w)))
      lv.scratch })))

/-- Bytes of global memory written by a party of a team: logged first, then performed; past the capacity nothing is written and the level faults
(R297, R298). -/
def State.writeGlobal (s : State) (t : Nat) (cl : Option Nat) (a : Nat) (bs : List (BitVec 8)) (but : List Nat) (v : Nat := 6) : State :=
  match s.logLines t (linesOf a bs.length) with
  | some s => s.writePhys cl a bs but v
  | none => s.levelFault t 0x62 1

/-- Scratchpad words about to be read or merged (R212): one flipped bit is corrected and counted for the partition, two make the word poisoned. -/
def State.checkScratch (s : State) (part cl a n : Nat) : State :=
  let bad := (wordsIn a n).filter (fun w => FMap.has (s.cluster cl).scrErr w)
  if bad.isEmpty then s
  else
    let one := (bad.filter (fun w => FMap.at 0 (s.cluster cl).scrErr w == 1)).length
    let two := bad.filter (fun w => FMap.at 0 (s.cluster cl).scrErr w != 1)
    (s.countErr part 0 one).onCluster cl (fun c => { c with
      scrErr := bad.foldl FMap.del c.scrErr, scrPoison := two.foldl (fun m w => FMap.put m w ()) c.scrPoison })

/-- Bytes written to a team's scratchpad at an offset of its allocation: logged, merged into the words they cover in part, and whole words lose their
errors and their poison (R210, R212, R297). -/
def State.writeScratch (s : State) (t cl off : Nat) (bs : List (BitVec 8)) : State :=
  let base := (s.team t).scrBase
  let whole := wholeWords (base + off) bs.length
  let s := s.onCluster cl (fun c => { c with scrErr := whole.foldl FMap.del c.scrErr })
  let s := s.checkScratch (s.grid (s.team t).grid).part cl (base + off) bs.length
  match s.logWords t cl (wordsIn off bs.length) with
  | some s => s.onCluster cl (fun c => { c with
      scratch := Mem.writeBytes c.scratch (base + off) bs, scrPoison := clearPoison c.scrPoison (base + off) bs.length })
  | none => s.levelFault t 0x62 0

/-- KEY of a partition. -/
def Partition.netKey (p : Partition) : Nat := p.partcfg.toNat / 2 % 2 ^ 16
/-- EN of a partition. -/
def Partition.en (p : Partition) : Bool := p.partcfg.getLsbD 0

/-- The partitions in service that bear a key (R389). -/
def State.keyHolders (s : State) (key : Nat) : List Nat := (List.range 8).filter (fun p => (s.part p).en && (s.part p).netKey == key)

/-- The fabric traffic of a partition is closed (R389, R397): its key is revoked, or another partition in service bears it too. -/
def State.closed (s : State) (part : Nat) : Bool :=
  (s.part part).fenced || ((s.part part).en && (s.keyHolders (s.part part).netKey).any (fun p => p != part))

/-- A fabric address as the flits of a partition name it: with its key (R395). -/
def State.keyed (s : State) (part pa : Nat) : Nat := (s.part part).netKey * 2 ^ 56 + pa

/-- A window of another module answers a partition's key at a range of fabric addresses (R395 to R397): it is as long as that, and neither the partition's key
nor the other module is cut off. -/
def State.remoteOpen (s : State) (part pa n : Nat) : Bool :=
  decide (pa % 2 ^ 35 + n ≤ FMap.at 0 s.remoteWin ((s.part part).netKey * 2 ^ 20 + pa % 2 ^ 55 / 2 ^ 35) * 2 ^ 16) && !s.closed part &&
  !FMap.has s.down (pa / 2 ^ 38 % 2 ^ 17)

/-- Bytes of another module as a partition's flits reach them. -/
def State.remoteRead (s : State) (part pa n : Nat) : List (BitVec 8) := Mem.readBytes s.remote (s.keyed part pa) n

/-- Bytes of another module written. -/
def State.remoteWrite (s : State) (part pa : Nat) (bs : List (BitVec 8)) : State := { s with remote := Mem.writeBytes s.remote (s.keyed part pa) bs }

/-- Flits carrying a partition's key counted (R380): one for each access and packet that leaves or arrives (DESIGN CHOICE, log entry 87). -/
def State.flit (s : State) (part n : Nat) : State :=
  s.onModule (fun m => { m with flits := FMap.put m.flits part (FMap.at 0 m.flits part + n) })

/-- A store of a partition sent to another module (R267, R395, R396): counted when it leaves; dropped and counted where no window takes it. -/
def State.fabricStore (s : State) (part pa : Nat) (bs : List (BitVec 8)) : State :=
  let s := (s.onPart part (fun q => { q with sent := q.sent + 1 })).flit part 1
  if s.remoteOpen part pa bs.length then s.remoteWrite part pa bs else s.countErr part 3 1

/-! ### Rings and the record log -/

/-- Free slots of a ring (R369). -/
def Ring.free (r : Ring) : Nat := if r.size = 0 then 0 else (r.head % r.size + 2 * r.size - r.tail % r.size - 1) % r.size

/-- The ring is full (R364). -/
def Ring.full (r : Ring) : Bool := r.free == 0

/-- Where the next entry of a ring goes, entries of `n` bytes. -/
def Ring.slot (r : Ring) (n : Nat) : Nat := r.base.toNat + n * r.tail

/-- A ring after an entry was added. -/
def Ring.push (r : Ring) : Ring := { r with tail := if r.size = 0 then r.tail else (r.tail + 1) % r.size }

/-- RECORD of a grid: FLAGS[9:8] (R313, R367). -/
def Grid.recordMode (g : Grid) : Nat := g.record.flags.toNat / 2 ^ 8 % 4

/-- SAFEORD[15:0] in an exit status word: 0xFFFF before any safe point, and from there up (R347). -/
def ordField (w : Word) : Nat := if w.toNat < 0xFFFF then w.toNat else 0xFFFF

/-- SAFEORD[15:0] in a record: 0xFFFF before any safe point (R368). -/
def logOrd (w : Word) : Nat := if w = 0xFFFFFFFF then 0xFFFF else w.toNat % 2 ^ 16

/-- An entry of the record log (R368). -/
def logEntry (tick type : Nat) (g : Group) (key value : Nat) : List (BitVec 8) :=
  leBytes 8 tick ++ leBytes 1 type ++ leBytes 1 g.slot ++ leBytes 1 g.cluster ++ leBytes 1 g.slice ++
  leBytes 2 (logOrd g.safeord) ++ leBytes 2 0 ++ leBytes 8 key ++ leBytes 8 value

/-- An order point of a recorded grid reported to its partition's log (R367 to R369): a normal entry while two slots are free, a gap entry for
the first that finds one, else dropped and counted; the host is told that the log wants space (DESIGN CHOICE, log entry 78). -/
def State.logPoint (s : State) (grid : Nat) (g : Group) (type key value : Nat) : State :=
  let gr := s.grid grid
  if gr.recordMode = 0 then s
  else
    let p := s.part gr.part
    let put (s : State) (bs : List (BitVec 8)) : State :=
      (s.writePhys none (p.rl.slot 32) bs []).onPart gr.part (fun p => { p with rl := p.rl.push })
    let drop (s : State) : State := (s.onPart gr.part (fun p => { p with
      noreplay := true
      fromord := if p.noreplay then p.fromord else logOrd g.safeord
      dropped := min (2 ^ 32 - 1) (p.dropped + 1) })).signal (8 + 8 * gr.part + 2)
    if 2 ≤ p.rl.free then put s (logEntry s.tick type g key value)
    else if p.rl.free = 1 then drop (put s (logEntry s.tick 7 g s.tick 0))
    else drop s

/-- A recorded grid in stall mode must wait with `n` order points of one moment while there are not two slots free for each in turn, as far as the ring can
have so many free (R369). -/
def State.logStalls (s : State) (grid : Nat) (n : Nat := 1) : Bool :=
  let r := (s.part (s.grid grid).part).rl
  (s.grid grid).recordMode == 2 && decide (r.free < max 2 (min (n + 1) (r.size - 1)))

end Sys2Proof.Machine
end

