-- ==== Sys2Proof/Machine/Access.lean ====
section
/-! DEFINITION. Memory accesses: the resolution of region accesses (17), when a part of an access may be performed (13), performing it, and
delivering what it returns (R19, R144 to R157, R161, R162, R348). -/
namespace Sys2Proof.Machine

/-! ### Atomic operations (R154 to R156) -/

/-- Sum of two floats of a format under RNE, as bits, with its flags (R156). -/
def atomFadd (f : FFmt) (m d : Nat) : Nat × FpFlags :=
  let r := f.finish .rne 0 ((f.value m).add .rne (f.value d))
  (r.bits, r.flags)

/-- The new value that an atomic writes, with its flags, from the old value and the data; none where a compare fails (R154, R155). The operation
is the word's opcode. -/
def atomNew (op m d new : Nat) : Option Nat × FpFlags :=
  let mw : Word := BitVec.ofNat 32 m
  let dw : Word := BitVec.ofNat 32 d
  match op with
  | 0x16 | 0x23 => (some (mw + dw).toNat, 0)
  | 0x17 | 0x24 => let r := atomFadd f32 m d; (some r.1, r.2)
  | 0x18 =>
    let lo := atomFadd bf16 (m % 2 ^ 16) (d % 2 ^ 16)
    let hi := atomFadd bf16 (m / 2 ^ 16) (d / 2 ^ 16)
    (some (hi.1 * 2 ^ 16 + lo.1), lo.2 ||| hi.2)
  | 0x19 | 0x25 => (some (minS mw dw).toNat, 0)
  | 0x1A | 0x26 => (some (maxS mw dw).toNat, 0)
  | 0x1B => (some (minU mw dw).toNat, 0)
  | 0x1C => (some (maxU mw dw).toNat, 0)
  | 0x1D => (some (mw &&& dw).toNat, 0)
  | 0x1E => (some (mw ||| dw).toNat, 0)
  | 0x1F => (some (mw ^^^ dw).toNat, 0)
  | 0x20 | 0x27 => (some d, 0)
  | _ => (if m = d then some new else none, 0)

/-- Compare-and-swap operations. -/
def isCas (op : Nat) : Bool := op == 0x21 || op == 0x22 || op == 0x28

/-- The new bytes of an atomic on old bytes; the data holds the operand, or the compare value and then the new one. -/
def atomBytes (op : Nat) (old data : List (BitVec 8)) : Option (List (BitVec 8)) × FpFlags :=
  let n := old.length
  let r := atomNew op (leNat old) (leNat (data.take n)) (leNat (data.drop n))
  (r.1.map (leBytes n), r.2)

/-! ### Region accesses (R274 to R279, R285) -/

/-- What the resolution of a region access says. -/
inductive Touch where
  | ok | wait | refused (by_ : Nat) | aborted
  deriving DecidableEq, Repr

/-- An access entered in a sector's access order and the slot's sets (R274, R276). A serial region's sectors stand in the order alone, as the LLC's line
tags have them (R285). -/
def State.enterSector (s : State) (id x : Nat) (write : Bool) : State :=
  let order := FMap.at [] s.sectors x
  let s := { s with sectors := if order.getLast? = some (id, write) then s.sectors else FMap.put s.sectors x (order ++ [(id, write)]) }
  if (s.slot id).serial then s
  else s.onSlot id (fun sl =>
    if write then { sl with writes := if sl.writes.contains x then sl.writes else sl.writes ++ [x] }
    else { sl with reads := if sl.reads.contains x then sl.reads else sl.reads ++ [x] })

/-- The bounds of R278 hold with the edges as they stand, for a region and every region reachable from it. -/
def State.withinBounds (s : State) (id : Nat) : Bool :=
  decide ((s.slot id).preds.length ≤ 4) &&
  s.openSlots.all (fun k => !(k == id || (s.ancestors 8 k).contains id) ||
    decide ((s.ancestors 9 k).length ≤ 16 ∧ s.slotDepth 9 k ≤ 8))

/-- The edges from regions of earlier conflicting accesses, in access order (R277): the first that the bounds refuse is named (R278). -/
def State.addEdges (s : State) (id : Nat) : List (Nat × Bool) → Touch × State
  | [] => (.ok, s.refreshSlots)
  | (p, fwd) :: rest =>
    let old := (s.slot id).preds
    if old.any (fun q => q.1 == p) then
      (s.onSlot id (fun sl => { sl with preds := old.map (fun q => if q.1 = p then (p, q.2 || fwd) else q) })).addEdges id rest
    else
      let s' := s.onSlot id (fun sl => { sl with preds := old ++ [(p, fwd)] })
      if s'.withinBounds id then s'.addEdges id rest else (.refused p, s.refreshSlots)

/-- The readers of a region's version of a sector, which a further write of it aborts (R280 selector 4): they read after it wrote, and before any write
of their own, whose version they would read instead (R275), or hold a forward from it, `fwd`. `wrote` are the regions that have written so far, looking through
the access order. -/
def revisedReaders (id : Nat) (fwd : Nat → Bool) (wrote : List Nat) : List (Nat × Bool) → List Nat
  | [] => []
  | (k, true) :: rest => revisedReaders id fwd (k :: wrote) rest
  | (k, false) :: rest =>
    let more := revisedReaders id fwd wrote rest
    if k != id && wrote.contains id && (!wrote.contains k || fwd k) && !more.contains k then k :: more else more

/-- The regions whose versions make up what a region reads of the sector of an address, in access order: its own last (R275). -/
def State.versionsSeen (s : State) (id a : Nat) : List Nat :=
  let writers := (((FMap.at [] s.sectors (a / 32)).filter (·.2)).map (·.1)).reverse.dedup.reverse
  if writers.contains id then writers.takeWhile (fun k => k != id) ++ [id] else writers

/-- The byte a region reads: its own version, else the version of the latest uncommitted writer, else the committed value (R275). No store stands on it
in the L1 of the region's cluster then (`State.partReady`). -/
def State.versionByte (s : State) (id a : Nat) : BitVec 8 :=
  (s.versionsSeen id a).foldl (fun b k => match FMap.look (s.slot k).bytes a with | some v => v | none => b) (Mem.read s.mem a)

/-- The region whose version gives a byte that a region reads, if one does (R275). -/
def State.supplier (s : State) (id a : Nat) : Option Nat := (s.versionsSeen id a).foldl (fun m k => if FMap.has (s.slot k).bytes a then some k else m) none

/-- A region's bytes over a range. -/
def State.versionBytes (s : State) (id a n : Nat) : List (BitVec 8) := (List.range n).map (fun i => s.versionByte id (a + i))

/-- A region's version after a store (R275). -/
def State.writeVersion (s : State) (id a : Nat) (bs : List (BitVec 8)) : State :=
  s.onSlot id (fun sl => { sl with
    bytes := (List.range bs.length).foldl (fun m i => FMap.put m (a + i) (bs.getD i 0)) sl.bytes
    whole := (wholeWords a bs.length).foldl (fun m w => FMap.put m w ()) sl.whole })

/-- The words of a range that are poisoned as a region reads them: no version it sees has written them whole (R275, R348). -/
def State.versionPoison (s : State) (id a n : Nat) : FMap Unit :=
  ((wordsIn a n).filter (fun w => FMap.has s.poison w && !(s.versionsSeen id (4 * w)).any (fun k => FMap.has (s.slot k).whole w))).foldl
    (fun m w => FMap.put m w ()) []

/-! ### Parts of an access -/

/-- A part of an access changed. -/
def State.onPartOf (s : State) (n i : Nat) (f : Part → Part) : State :=
  match FMap.look s.accesses n with
  | some a => { s with accesses := FMap.put s.accesses n { a with parts := a.parts.mapIdx (fun j p => if j = i then f p else p) } }
  | none => s

/-- Two parts touch a common byte of one space. -/
def Part.meets (p q : Part) : Bool :=
  p.space == q.space && decide (p.addr < q.addr + q.len ∧ q.addr < p.addr + p.len)

/-- Orders that acquire, and that release (R157): 1 acquire, 2 release, 3 both. -/
def acquires (order : Nat) : Bool := order == 1 || order == 3
/-- Orders that release. -/
def releases (order : Nat) : Bool := order == 2 || order == 3

/-- Every access of the lanes of a group issued before a number has been performed at a scope (R157). At die scope and wider the stores of the cluster
that its lanes may have observed are performed too (R214, R235 edge c): the L1 is drained. -/
def State.scopeDone (s : State) (grp cl scope : Nat) (m : LaneSet) (upto : Nat) : Bool :=
  if scope ≤ 2 then s.nearDone grp m upto else s.farDone grp m upto && s.l1Drained cl

/-- Two parts of global memory touch a common sector. -/
def Part.shares (p q : Part) : Bool :=
  p.space == .global && q.space == .global && (sectorsOf q.addr q.len).any (fun x => (sectorsOf p.addr p.len).contains x)

/-- A region access whose sectors are still to be resolved for the first time (R276). -/
def Part.unresolved (q : Part) : Bool := q.region.isSome && !q.done && q.val.isNone && q.refusedBy.isNone

/-- A part `q` of an earlier access of the group holds back a part `p` of a later one (R146, R157, R232, R246, R276): an acquire of the lane; an access to
the same bytes that has not taken its value, but for a store that stands in the L1, where another store follows it and a load reads it; for a store or
atomic the lane's loads and atomics; for an acquire the lane's loads of host memory; for a region access those of its sectors, its own lane's from
before the region among them. -/
def Access.behind (a : Access) (p : Part) (x : Access) (q : Part) : Bool :=
  let atomic := match a.kind with | .atomic _ => true | _ => false
  !q.done && (
    (q.lane == p.lane && acquires x.order) ||
    (q.val.isNone && p.meets q && !(p.region.isNone && q.entered.isSome && !atomic)) ||
    (a.kind != .load && x.kind != .store && q.val.isNone && q.lane == p.lane) ||
    (acquires a.order && q.lane == p.lane && q.space == .host && x.kind != .store) ||
    (p.region.isSome && p.shares q && (q.unresolved || (q.region.isNone && q.lane == p.lane))))

/-- No earlier access of the group holds a part back, nor, for a region access, an earlier lane of its word (R276). -/
def State.orderMet (s : State) (n : Nat) (a : Access) (p : Part) : Bool :=
  s.accesses.all (fun (k, x) => !(decide (k < n) && x.group == a.group) || x.parts.all (fun q => !a.behind p x q)) &&
  (p.region.isNone || a.parts.all (fun q => !(q.unresolved && decide (q.lane < p.lane) && p.shares q)))

/-- A store of another access that stands in the L1 of a cluster over bytes of a part, before a place in the L1's order (R214, R231). -/
def State.standsBefore (s : State) (n cl : Nat) (p : Part) (place : Option Nat) : Bool :=
  s.accesses.any (fun (k, x) => k != n && x.cluster == cl && x.parts.any (fun q => !q.done && p.meets q &&
    match q.entered, place with
    | some e, some f => decide (e < f)
    | some _, none => true
    | none, _ => false))

/-- A line is tentative in a level: no access from outside is a party to one (R242). -/
def State.tentative (s : State) (line : Nat) : Bool := s.foreignLine 0 line || s.teams.any (fun t => t.2.levels.any (fun lv => FMap.has lv.lines line))

/-- An access that arrived earlier than `n` waits at a line that was tentative when it arrived (R242): of a lane, of a command, or from outside. -/
def State.arrivedAt (s : State) (n line : Nat) : Bool :=
  s.outside.any (fun o => decide (o.num < n) && o.waited && (linesOf o.addr o.len).contains line) ||
  s.commands.any (fun (k, c) => decide (k < n) && c.waited.contains line && !c.owned.contains line) ||
  s.accesses.any (fun (k, x) => decide (k < n) && x.parts.any (fun q => q.waited && !q.done && q.val.isNone && q.addr / 128 == line))

/-- A line is tentative no more, and an access that arrived earlier waited there while it was: it goes first (R242). The parties of a level go on at its lines
meanwhile. -/
def State.arrivedBefore (s : State) (n line : Nat) : Bool := !s.tentative line && s.arrivedAt n line

/-- A store of a team that is not party to the levels of team `t` stands in an L1 on a line: it is performed before a level makes the line tentative
(R214, R242). -/
def State.plainStore (s : State) (t line : Nat) : Bool :=
  (s.team t).rlevel != 0 && s.accesses.any (fun (_, x) => !(s.parties t).contains x.team &&
    x.parts.any (fun q => !q.done && q.entered.isSome && q.addr / 128 == line))

/-- The lines of a part, and their caches, let it go on (R161, R219, R242). -/
def State.lineReady (s : State) (n : Nat) (a : Access) (p : Part) : Bool :=
  !s.waitsAt a.team a.cluster (a.kind == .store) p.addr p.len && !s.arrivedBefore n (p.addr / 128) &&
  (a.kind == .load || (linesOf p.addr p.len).all (fun ln => !s.plainStore a.team ln)) &&
  (linesOf p.addr p.len).all (fun ln => if a.kind == .load then s.roomFor a.cluster ln else s.llcRoom ln)

/-- An uncommitted region has written a line. -/
def State.wroteLine (s : State) (id line : Nat) : Bool := (List.range 4).any (fun i => (FMap.at [] s.sectors (4 * line + i)).contains (id, true))

/-- A line has room for a region's access (R219). -/
def State.regionRoom (s : State) (id line : Nat) : Bool := (s.holderOf line).isSome || s.llcRoomBut (s.wroteLine id) line

/-- A store may stand in the L1 of its cluster: its lane's order, its lines and its release allow it (R157, R161, R214, R232). A line of an object is
written where its token is held, and nowhere before. -/
def State.mayEnter (s : State) (n : Nat) (a : Access) (p : Part) : Bool :=
  p.space == .global && p.region.isNone && p.entered.isNone && a.kind == .store && !s.inObject p.addr p.len &&
  s.orderMet n a p && s.lineReady n a p && (!releases a.order || s.scopeDone a.group a.cluster a.scope (oneLane p.lane) n)

/-- A part may be performed now as far as its own lane's order and the state of its lines go (R146, R157, R161, R162, R231, R232, R396). Stores that
stand in one L1 over the same bytes are performed in their order there, before any store, atomic or region access of the cluster that comes later. -/
def State.partReady (s : State) (n : Nat) (a : Access) (p : Part) : Bool :=
  let mine := s.accesses.filter (fun x => decide (x.1 < n) && x.2.group == a.group)
  let store := a.kind == .store
  let ordered := releases a.order || (a.kind == .load && a.order == 3)
  s.orderMet n a p &&
  (p.region.isSome || p.entered.isSome || !ordered || s.scopeDone a.group a.cluster a.scope (oneLane p.lane) n) &&
  (match p.space with
   | .global =>
     (match p.region with
      | none => s.lineReady n a p
      | some id => !s.arrivedBefore n (p.addr / 128) && (linesOf p.addr p.len).all (s.regionRoom id)) &&
     ((a.kind == .load && p.region.isNone) || !s.standsBefore n a.cluster p p.entered)
   | .host | .fabric =>
     !store || mine.all (fun (_, x) => x.kind != .store || x.parts.all (fun q => q.done || q.lane != p.lane || q.space != p.space))
   | .scratch => true)

/-- The parts of an access that are still to be performed and meet some of its parts, directly or through others, within `fuel` steps, by index. -/
def Access.joined (a : Access) : Nat → List Nat → List Nat
  | 0, is => is
  | fuel + 1, is =>
    let at_ (i : Nat) : Part := a.parts.getD i { lane := 0, space := .global, addr := 0, len := 0 }
    let more := (List.range a.parts.length).filter (fun j => !is.contains j && !(at_ j).done && is.any (fun i => (at_ i).meets (at_ j)))
    if more.isEmpty then is else a.joined fuel (is ++ more)

/-- The parts that take effect together with a part, because they touch the same bytes (R145): all of them may. -/
def State.partsReady (s : State) (n : Nat) (a : Access) (ready : State → Nat → Access → Part → Bool) (i : Nat) : Bool :=
  (a.joined a.parts.length [i]).all (fun j => match a.parts[j]? with
    | some q => q.region.isSome || ready s n a q
    | none => true)

/-- A part of one of the lanes named, or one that takes effect together with such a part (R145); with no lane named every part. -/
def Access.chosen (a : Access) (only : Option Nat) (i : Nat) : Bool :=
  match only with
  | none => true
  | some l => (a.joined a.parts.length [i]).any (fun j => match a.parts[j]? with | some q => q.lane == l | none => false)

/-! ### The resolution of a region access -/

/-- The word whose request brought an object's token to its holder has stores still to perform there (R239 step 3). -/
def State.storesDue (s : State) (o : Obj) : Bool :=
  match o.brought with
  | some n => (FMap.look s.accesses n).any (fun a => a.parts.any (fun p => !p.done && p.space == .global && o.lines.contains (p.addr / 128)))
  | none => false

/-- Commands other than `n` of a cluster that own lines of an object (R239). -/
def State.ownersOf (s : State) (n cl : Nat) (o : Obj) : Bool :=
  s.commands.any (fun p => p.1 != n && p.2.cluster == cl && p.2.owned.any (fun ln => o.lines.contains ln))

/-- The number under which a request of an object's home slice stands among the requests of clusters (R244). -/
def homeRequest : Nat := 160

/-- The object whose token a region's write must first have at its home slice (R244). -/
def State.tokenAway (s : State) (line : Nat) : Option Nat :=
  (s.objectOf line).filter (fun k => ((FMap.look s.objects k).bind (·.holder)).isSome)

/-- The home slice asks for the write token of an object, behind the requests that have arrived (R239, R244). -/
def State.recall (s : State) (k : Nat) : State :=
  match FMap.look s.objects k with
  | some o => if o.requests.contains homeRequest then s else { s with objects := FMap.put s.objects k { o with requests := o.requests ++ [homeRequest] } }
  | none => s

/-- A region's write has entered a line of an object: the request of the home slice is served (R244). -/
def State.recalled (s : State) (line : Nat) : State :=
  match s.objectOf line with
  | none => s
  | some k =>
    match FMap.look s.objects k with
    | some o => if o.requests.contains homeRequest then
        { s with objects := FMap.put s.objects k { o with requests := o.requests.filter (· != homeRequest) } } else s
    | none => s

/-- The object holds lines tentative in a level of which no party is on a cluster (R244). -/
def State.tokenBarred (s : State) (cl : Nat) (o : Obj) : Bool :=
  s.teams.any (fun (t, tm) => tm.levels.any (fun lv => o.lines.any (fun ln => FMap.has lv.lines ln)) &&
    (s.parties t).all (fun m => (s.team m).place != .resident cl))

/-- An uncommitted region has written a sector of the object (R239, R244). -/
def State.regionWrote (s : State) (o : Obj) : Bool :=
  o.lines.any (fun ln => [0, 1, 2, 3].any (fun i => (FMap.at [] s.sectors (4 * ln + i)).any (·.2)))

/-- The holder has nothing left to do before it returns the token: its commands that own lines of the object are complete, and the word that brought the
token has performed its stores (R239 step 3). -/
def State.returnable (s : State) (o : Obj) : Bool :=
  match o.holder with
  | some h => !s.ownersOf 0 h o && !s.storesDue o
  | none => true

/-- The token of an object may pass to a cluster whose request is the first (R239, R244). -/
def State.passable (s : State) (cl : Nat) (o : Obj) : Bool :=
  o.requests.head? == some cl && !s.tokenBarred cl o && !s.regionWrote o && (o.holder == some cl || s.returnable o)

/-- A region waits to write a line of an object (R244). -/
def State.recallDue (s : State) (o : Obj) : Bool :=
  s.accesses.any (fun (_, a) => a.kind != .load && a.parts.any (fun p =>
    p.region.isSome && !p.done && p.val.isNone && o.lines.contains (p.addr / 128)))

/-- The dirty lines of an object's holder written to their slices; its held lines are copies from then on (R214, R239 step 3). -/
def State.drainHolder (s : State) (o : Obj) : State :=
  match o.holder with
  | some h => o.lines.foldl (fun s ln => if FMap.has (s.cluster h).dirty ln then
      (s.llcFill ln 6).onCluster h (fun c => { c with dirty := FMap.del c.dirty ln }) else s) s
  | none => s

/-- The first access of a cluster with a store to perform on an object (R239). -/
def State.bringer (s : State) (cl : Nat) (o : Obj) : Option Nat :=
  (s.accesses.find? (fun (_, a) => a.cluster == cl && a.kind == .store &&
    a.parts.any (fun p => !p.done && p.space == .global && p.region.isNone && o.lines.contains (p.addr / 128)))).map (·.1)

/-- The token of an object passes to a cluster, or goes home, and its request is served: the holder drains, and the lines of the new holder's L1 are
fetched afresh (R239). -/
def State.passToken (s : State) (k : Nat) (dest : Option Nat) (requests : List Nat) : State :=
  match FMap.look s.objects k with
  | none => s
  | some o =>
    let brought := match dest with | some cl => s.bringer cl o | none => none
    let t := if o.holder = dest then s else s.drainHolder o
    let t := { t with objects := FMap.put t.objects k { o with holder := dest, requests := requests, brought := brought } }
    match dest with
    | some cl => if o.holder = dest then t else t.onCluster cl (fun c => o.lines.foldl (fun c ln => c.dropLine ln) c)
    | none => t

/-- A region of a level that a team is not party to: its versions are not forwarded to regions of the team (R287). -/
def State.hiddenRegion (s : State) (t id : Nat) : Bool :=
  (s.slot id).level != 0 && !(s.parties (s.group (s.slot id).group).team).contains t

/-- A store stands in an L1 on a sector: a region writes it afterwards (R214, R276). -/
def State.storeStands (s : State) (x : Nat) : Bool :=
  s.accesses.any (fun (_, a) => a.parts.any (fun q => !q.done && q.entered.isSome && (sectorsOf q.addr q.len).contains x))

/-- A region access to one sector, of the bytes from `a` up, resolved against the earlier ones (R276 to R280, R285, R287). In a sector that the region has itself
written a read is a forward only of a version that gives one of its bytes (R275, R277; DEDUCED, log entry 42). -/
def State.touch (s : State) (id x : Nat) (write : Bool) (a n : Nat) : Touch × State :=
  let sl := s.slot id
  let team := (s.group sl.group).team
  let order := FMap.at [] s.sectors x
  let others := order.filter (fun p => p.1 != id)
  let clash := others.filter (fun p => p.2 || write)
  let line := x / 4
  let done (s : State) : State := (if write then s.recalled line else s).enterSector id x write
  if s.ownedLine line || s.foreignLine team line || (!write && clash.any (fun p => s.hiddenRegion team p.1)) || (write && s.storeStands x) then (.wait, s)
  else if write && (s.tokenAway line).isSome then (.wait, match s.tokenAway line with | some k => s.recall k | none => s)
  else if sl.serial then
    if others.any (fun p => p.2 || (s.slot p.1).serial) then (.wait, s) else (.ok, done s)
  else if others.any (fun p => (s.slot p.1).serial) then
    if clash.any (fun p => (s.slot p.1).serial) then (.aborted, s.abortRegions [id] 2 true) else (.wait, s)
  else if (!write && !sl.reads.contains x && decide (128 ≤ sl.reads.length)) ||
      (write && !sl.writes.contains x && decide (32 ≤ sl.writes.length)) then
    (.aborted, (s.onSlot id (fun sl => { sl with overflow := true })).abortRegions [id] 1 true)
  else
    let revised := if write && order.contains (id, true) then
      revisedReaders id (fun k => (s.slot k).preds.any (fun q => q.1 == id && q.2)) [] order else []
    let gives (k : Nat) : Bool := (List.range n).any (fun i => decide ((a + i) / 32 = x) && s.supplier id (a + i) == some k)
    let after := if revised.isEmpty then s else s.abortRegions revised 4 true
    let clash := (FMap.at [] after.sectors x).filter (fun p => p.1 != id && (p.2 || write))
    if clash.any (fun p => (after.ancestors 9 p.1).contains id) then (.aborted, s.abortRegions [id] 2 true)
    else
      match after.addEdges id (clash.map (fun p => (p.1, p.2 && !write && (!order.contains (id, true) || gives p.1)))) with
      | (.ok, s) => (.ok, done s)
      | other => other

/-- The sectors of a region access resolved in turn. -/
def State.touchAll (s : State) (id : Nat) (write : Bool) (a n : Nat) : List Nat → Touch × State
  | [] => (.ok, s)
  | x :: xs =>
    match s.touch id x write a n with
    | (.ok, s) => s.touchAll id write a n xs
    | other => other

/-! ### Performing a part -/

/-- Offsets in the lane's data of the poisoned bytes of a part. -/
def poisonedAt (poison : FMap Unit) (addr len base : Nat) : List Nat :=
  (List.range len).filterMap (fun i => if FMap.has poison ((addr + i) / 4) then some (base + i) else none)

/-- A poisoned word read by a party: counted (R348, R388), or a fault of the innermost level. -/
def State.poisonRead (s : State) (team code words : Nat) : State :=
  if words = 0 then s
  else if (s.team team).rlevel = 0 then s.countErr (s.grid (s.team team).grid).part 1 words
  else s.levelFault team code

/-- The value of a load part taken, and the part performed. Global bytes are those that stood in `v`, before the word filled any line: all its lanes read from one
state (R145). -/
def State.takeLoad (s v : State) (n i : Nat) (a : Access) (p : Part) : State :=
  let part := (s.grid (s.team a.team).grid).part
  let fin (s : State) (bs : List (BitVec 8)) (bad : List Nat) : State :=
    s.onPartOf n i (fun p => { p with val := some bs, pois := bad, done := true })
  match p.space with
  | .global =>
    let s := (linesOf p.addr p.len).foldl (fun s ln => s.fetchLine a.cluster ln a.reuse) s
    let bs := v.loadBytes n a.cluster p.addr p.len
    let s := if bs = v.viewBytes a.cluster p.addr p.len then s.settleBytes (some a.cluster) p.addr p.len else s
    let bad := poisonedAt v.poison p.addr p.len p.base
    let s := s.poisonRead a.team 0x90 ((wordsIn p.addr p.len).filter (fun w => FMap.has v.poison w)).length
    fin s bs bad
  | .host => fin s (Mem.readBytes s.hostMem p.addr p.len) []
  | .fabric =>
    let s := s.flit part 1
    if s.remoteOpen part p.addr p.len then fin s (s.remoteRead part p.addr p.len) []
    else fin ((s.countErr part 3 1).poisonRead a.team 0x90 (wordsIn p.addr p.len).length) (List.replicate p.len 0) ((List.range p.len).map (p.base + ·))
  | .scratch =>
    let s := s.checkScratch part a.cluster p.addr p.len
    let c := s.cluster a.cluster
    let bad := poisonedAt c.scrPoison p.addr p.len p.base
    let s := s.poisonRead a.team 0x91 ((wordsIn p.addr p.len).filter (fun w => FMap.has c.scrPoison w)).length
    fin s (Mem.readBytes c.scratch p.addr p.len) bad

/-- A store part performed. -/
def State.doStore (s : State) (n i : Nat) (a : Access) (p : Part) : State :=
  let part := (s.grid (s.team a.team).grid).part
  let s := match p.space with
    | .global => s.writeGlobal a.team (some a.cluster) p.addr p.data [] a.reuse
    | .host => { s with hostMem := Mem.writeBytes s.hostMem p.addr p.data }
    | .fabric => s.fabricStore part p.addr p.data
    | .scratch => s.writeScratch a.team a.cluster (p.addr - (s.team a.team).scrBase) p.data
  s.onPartOf n i (fun p => { p with done := true })

/-- Flags of an atomic joined into the lane's FPFLAGS (R156), through the recovery log (R297). -/
def State.joinFlags (s : State) (grp lane : Nat) (f : FpFlags) : State :=
  if f = 0 then s else s.commit grp ((s.group grp).onLane lane (·.orFlags f)) (Writes.on { flags := true } (oneLane lane))

/-- An atomic part performed: old value kept for the return, memory updated unless it was poisoned or a compare failed (R145, R152, R155,
R348). A relaxed one outside a level need not have reached the other clusters yet (R271; DEDUCED, log entry 70). -/
def State.doAtomic (s : State) (n i : Nat) (a : Access) (p : Part) (op : Nat) : State :=
  let part := (s.grid (s.team a.team).grid).part
  let fin (s : State) (old : List (BitVec 8)) (bad : List Nat) : State :=
    s.onPartOf n i (fun p => { p with val := some old, pois := bad, done := true })
  let zeros := List.replicate p.len (0 : BitVec 8)
  match p.space with
  | .scratch =>
    let s := s.checkScratch part a.cluster p.addr p.len
    let c := s.cluster a.cluster
    let bad := (wordsIn p.addr p.len).filter (fun w => FMap.has c.scrPoison w)
    if bad.isEmpty then
      let old := Mem.readBytes c.scratch p.addr p.len
      let r := atomBytes op old p.data
      let s := match r.1 with | some new => s.writeScratch a.team a.cluster (p.addr - (s.team a.team).scrBase) new | none => s
      (fin s old []).joinFlags a.group p.lane r.2
    else fin (s.poisonRead a.team 0x91 bad.length) zeros [0]
  | .fabric =>
    let s := s.flit part 1
    if s.remoteOpen part p.addr p.len then
      let old := s.remoteRead part p.addr p.len
      let r := atomBytes op old p.data
      let s := match r.1 with | some new => s.remoteWrite part p.addr new | none => s
      (fin s old []).joinFlags a.group p.lane r.2
    else fin ((s.countErr part 3 1).poisonRead a.team 0x90 (wordsIn p.addr p.len).length) zeros [0]
  | _ =>
    let bad := (wordsIn p.addr p.len).filter (fun w => FMap.has s.poison w)
    if bad.isEmpty then
      let old := Mem.readBytes s.mem p.addr p.len
      let r := atomBytes op old p.data
      let ln := p.addr / 128
      let s := (if s.holderOf ln = some a.cluster then s else s.onCluster a.cluster (·.dropLine ln)).settleBytes (some a.cluster) p.addr p.len
      let s := match r.1 with
        | some new =>
          let t := s.writeGlobal a.team (some a.cluster) p.addr new [] a.reuse
          if releases a.order || (s.team a.team).rlevel != 0 || (s.objectOf ln).isSome then t else t.unsettle a.cluster p.addr old
        | none => (match s.holderOf ln with | some h => s.l1Use h ln a.reuse | none => s.llcAccess (some a.cluster) ln a.reuse)
      (fin s old []).joinFlags a.group p.lane r.2
    else fin (s.poisonRead a.team 0x90 bad.length) zeros [0]

/-! ### Delivering -/

/-- The value of register `i` of a lane's bytes (R143, R149). -/
def Access.regValue (a : Access) (bs : List (BitVec 8)) (i : Nat) : Word :=
  if 4 ≤ a.width then BitVec.ofNat 32 (fieldAt bs (4 * i) 4)
  else if a.sext then (BitVec.ofNat (8 * a.width) (leNat bs)).signExtend 32
  else BitVec.ofNat 32 (leNat bs)

/-- A poisoned byte would fill register `i`. -/
def Access.regPoisoned (bad : List Nat) (i : Nat) : Bool := bad.any (fun b => b / 4 == i)

/-- A register of a lane written by a result, also in the checkpoint of a region opened after the word issued (R19, R180). -/
def State.writeResult (s : State) (grp l r : Nat) (v : Word) (inRegion : Bool) : State :=
  let n := (s.group grp).lane l
  let s := s.onGroup grp (fun g => g.onLane l (fun n => n.setReg r v))
  match n.region with
  | some id =>
    if inRegion || !(s.slot id).check.empty.getLsbD r then s
    else s.onSlot id (fun sl => { sl with check := { sl.check with
      regs := FMap.put sl.check.regs r v, empty := sl.check.empty &&& ~~~(1#72 <<< r) } })
  | none => s

/-- A register of a lane marked full with the value it holds. -/
def State.markFull (s : State) (grp l r : Nat) : State := s.writeResult grp l r (((s.group grp).lane l).reg r) false

/-- The results of a lane whose parts are all performed written to its registers: substituted zeros for poison, nothing in a level (R348). -/
def State.deliver (s : State) (a : Access) (l : Nat) : State :=
  match a.dest with
  | none => s
  | some d =>
    let ps := a.parts.filter (fun p => p.lane == l)
    let bs := ps.flatMap (fun p => p.val.getD [])
    let bad := ps.flatMap (·.pois)
    let inR := ps.any (fun p => p.region.isSome)
    let held := !bad.isEmpty && (s.team a.team).rlevel != 0
    (List.range a.nregs).foldl (fun s i =>
      let v := if Access.regPoisoned bad i then 0 else a.regValue bs i
      if 80 ≤ d then s.onGroup a.group (fun g => g.setS (d - 80 + i) (if held then g.s (d - 80 + i) else v))
      else if held then s.markFull a.group l (d + i)
      else s.writeResult a.group l (d + i) v inR) s

/-- Lanes all of whose parts are performed, that had one that was not. -/
def Access.finished (old new : Access) : List Nat :=
  ((old.parts.filter (fun p => !p.done)).map (·.lane)).dedup.filter (fun l => new.parts.all (fun p => p.lane != l || p.done))

/-! ### Region parts -/

/-- A resume point of some lanes joined with one of the same place, or put first. -/
def Group.addResume (g : Group) (x : ResumePt) : Group :=
  let same (r : ResumePt) : Bool := r.hdr == x.hdr && r.idx == x.idx && r.wait == x.wait && r.start == x.start
  if g.resumes.any same then { g with resumes := g.resumes.map (fun r => if same r then { r with act := r.act ||| x.act } else r) }
  else { g with resumes := x :: g.resumes }

/-- A lane whose refused access has been performed, in every part, goes on with the next word of its clause (R278), or where it was when the refusal came. -/
def State.resumeRefused (s : State) (n l : Nat) : State :=
  match FMap.look s.accesses n with
  | none => s
  | some a =>
  let m := (s.group a.group).lane l
  if m.cond = .parked .refused && m.place = .refusal n && a.parts.all (fun q => q.lane != l || q.done || q.val.isSome) then
    let back := match a.parts.find? (fun q => q.lane == l && q.late) with
      | some q => q.back
      | none => some (resumeAt a.hdr a.after (oneLane l) .ready)
    s.onGroup a.group (fun g => match back with
      | some r => (g.wake (oneLane l)).addResume r
      | none => g.wake (oneLane l))
  else s

/-- A region access is refused (R278): it stays at the slice, and its lane parks with REASON 5. One whose word is issuing leaves the active set. One that had gone
on while the access waited (R161) parks where it is then, in the run or at a resume point, and is to go on there; one that is parked already stays so
(DESIGN CHOICE, log entry 89). -/
def State.refuse (s : State) (n i : Nat) (a : Access) (p : Part) (by_ : Nat) (now : Bool) : State :=
  let g := s.group a.group
  let l := p.lane
  let m := g.lane l
  let again := m.cond = .parked .refused ∧ m.place = .refusal n
  let inRun := g.run.active && !g.run.handler && inSet g.run.act l
  let at_ := g.resumes.find? (fun r => inSet r.act l)
  let back := if inRun then (if g.run.start then none else some (resumeAt g.run.hdr g.run.idx (oneLane l) .ready))
    else at_.map (fun r => { r with act := oneLane l })
  let s := s.onPartOf n i (fun q => { q with
    refusedBy := some (by_, (s.slot by_).born), late := q.late || !now, back := if now || again then q.back else if m.isLive then back else none })
  s.onGroup a.group (fun g =>
    let g := g.count 7
    if !m.isLive then g
    else
      let g := g.onLane l (fun m => { m with cond := .parked .refused, place := .refusal n })
      let out : LaneSet := ~~~(oneLane l)
      if now then { g with run := { g.run with act := g.run.act &&& out } }
      else
        let act := if inRun then g.run.act &&& out else g.run.act
        { g with
          run := { g.run with act := act, quit := g.run.quit || (inRun && decide (act = 0)) }
          resumes := (g.resumes.map (fun r => { r with act := r.act &&& out })).filter (fun r => r.act != 0) })

/-- A lane's region access is not performed because its region aborts: a load returns 0 and its destinations are full (R281). -/
def State.zeroResult (s : State) (a : Access) (l : Nat) : State :=
  match a.dest with
  | none => s
  | some d => (List.range a.nregs).foldl (fun s i => s.writeResult a.group l (d + i) 0 true) s

/-- The region accesses of a lane in one word are not performed: its region aborts, and a load returns 0 (R281). -/
def State.dropParts (s : State) (n l : Nat) : State :=
  match FMap.look s.accesses n with
  | none => s
  | some a =>
    let gone : FMap Access := FMap.mapVals (fun k (x : Access) => if k = n then
      { x with parts := x.parts.filter (fun q => !(q.lane == l && q.region.isSome && !q.done)) } else x) s.accesses
    let s := { s with accesses := gone.filter (fun x => !x.2.parts.isEmpty) }
    if ((s.group a.group).lane l).aborting then s.zeroResult a l else s

/-- A region waits no more for one that its access was refused for: that one has committed or aborted (R278). -/
def State.refusalOver (s : State) (b : Nat × Nat) : Bool :=
  let sl := s.slot b.1
  !(decide (1 ≤ sl.phase ∧ sl.phase ≤ 3) && sl.born == b.2)

/-- The first part of an access that a region has still to resolve, tried (R276, R278), while its word issues or later. A load's value is taken, a store becomes a
version. An access that waits or is refused has entered no access order. -/
def State.resolvePart (s : State) (now : Bool) (n i : Nat) : State :=
  match FMap.look s.accesses n with
  | none => s
  | some a =>
    match a.parts[i]? with
    | none => s
    | some p =>
      match p.region with
      | none => s
      | some id =>
        if p.done || p.val.isSome then s
        else if (s.slot id).phase = 4 then s.dropParts n p.lane
        else if !s.partReady n a p then s
        else if match p.refusedBy with | some b => !s.refusalOver b | none => false then s
        else
          let s := if a.kind = .store then s else s.checkDram (s.grid (s.team a.team).grid).part (linesOf p.addr p.len)
          let old := s.versionBytes id p.addr p.len
          let bad := s.versionPoison id p.addr p.len
          let r : Option (List (BitVec 8)) × FpFlags := match a.kind with
            | .atomic op => if bad.isEmpty then atomBytes op old p.data else (none, 0)
            | .store => (some p.data, 0)
            | .load => (none, 0)
          let xs := sectorsOf p.addr p.len
          let first := if a.kind = .store then (Touch.ok, s) else s.touchAll id false p.addr p.len xs
          let second := match first with
            | (.ok, s) => if r.1.isSome then s.touchAll id true p.addr p.len xs else (.ok, s)
            | other => other
          match second with
          | (.wait, t) => { s with objects := t.objects }
          | (.refused b, _) => s.refuse n i a p b now
          -- the access is not performed; a lane that was parked on it is back at its RBEGIN already
          | (.aborted, s) => s.dropParts n p.lane
          | (.ok, s) =>
            -- a poisoned word is read as zero, and an atomic that meets one leaves it as it is (R348)
            let bad := if a.kind = .store then [] else s.versionPoison id p.addr p.len
            let old := if a.kind != .load && !bad.isEmpty then List.replicate p.len 0 else s.versionBytes id p.addr p.len
            let s := match r.1 with | some new => s.writeVersion id p.addr new | none => s
            let s := s.settleBytes none p.addr p.len
            let s := s.poisonRead a.team 0x90 bad.length
            let s := s.onPartOf n i (fun p => { p with
              val := some old, refusedBy := none, done := decide (a.kind = .store), pois := poisonedAt bad p.addr p.len p.base })
            let s := (linesOf p.addr p.len).foldl (fun (s : State) ln => match s.holderOf ln with
              | some h => s.l1Use h ln a.reuse
              | none => s.llcAccess (some a.cluster) ln a.reuse) s
            (s.joinFlags a.group p.lane r.2).resumeRefused n p.lane

/-- Every region part of an access tried in ascending lane order. -/
def State.resolveAll (s : State) (now : Bool) (n : Nat) : State :=
  match FMap.look s.accesses n with
  | none => s
  | some a => (List.range a.parts.length).foldl (fun s i => s.resolvePart now n i) s

/-- The accesses that regions have still to resolve tried again, in issue order (R278). -/
def State.resolveRefused (s : State) : State :=
  (s.accesses.filter (fun x => x.2.parts.any (fun p => p.region.isSome && !p.done && p.val.isNone))).foldl (fun s x => s.resolveAll false x.1) s

/-! ### One event of an access -/

/-- A part is of the lowest lane of its word on a line: the entry of the record log is about it (R368). -/
def Access.leads (a : Access) (p : Part) : Bool := a.parts.all (fun q => q.addr / 128 != p.addr / 128 || decide (p.lane ≤ q.lane))

/-- A line that an atomic word has updated reported to the record log, once, when its lowest lane there is performed (R367, R368; DESIGN CHOICE, log entry 90). -/
def State.logAtomic (s : State) (n i : Nat) (a : Access) (p : Part) : State :=
  if a.leads p then
    let old := match FMap.look s.accesses n with | some x => ((x.parts[i]?).bind (·.val)).getD [] | none => []
    s.logPoint (s.team a.team).grid (s.group a.group) 1 p.va (leNat old)
  else s

/-- A part of an access performed if it may be; its global bytes are read from `v`. An atomic of a recorded grid in stall mode waits for room in the log
(R369). -/
def State.performPart (s v : State) (n i : Nat) : State :=
  match FMap.look s.accesses n with
  | none => s
  | some a =>
    match a.parts[i]? with
    | none => s
    | some p =>
      if p.done then s
      else if p.region.isSome then
        let s := s.resolvePart false n i
        s.onPartOf n i (fun p => if p.val.isSome then { p with done := true } else p)
      else
        match a.kind with
        | .load => s.takeLoad v n i a p
        | .store => s.doStore n i a p
        | .atomic op =>
          if a.leads p && s.logStalls (s.team a.team).grid then s
          else (s.doAtomic n i a p op).logAtomic n i a p

/-- Stores of an access put in the L1 of its cluster, where every lane of the cluster sees them, before they are performed at their slices (R214): those
of one lane, or all that may. -/
def State.enterStores (s : State) (n : Nat) (only : Option Nat) : State :=
  match FMap.look s.accesses n with
  | none => s
  | some a =>
    let go := (List.range a.parts.length).filter (fun i =>
      match a.parts[i]? with | some p => !p.done && a.chosen only i && s.partsReady n a State.mayEnter i | none => false)
    go.foldl (fun s i => { s with fresh := s.fresh + 1 }.onPartOf n i (fun p => { p with entered := some s.fresh })) s

/-- An access taken as far as it can go, in one lane or in all: every part that may be performed is, in ascending lane order, results are delivered,
and an access with no part left is gone (R145, R19). An acquire drops the cluster's copies before any lane reads (R214). -/
def State.runAccess (s : State) (n : Nat) (only : Option Nat) : State :=
  match FMap.look s.accesses n with
  | none => s
  | some a =>
    let go := (List.range a.parts.length).filter (fun i =>
      match a.parts[i]? with
      | some p => !p.done && a.chosen only i && (p.region.isSome || s.partsReady n a State.partReady i)
      | none => false)
    let plain := (go.filterMap (fun i => a.parts[i]?)).filter (fun p => p.region.isNone && p.space != .scratch && a.kind != .store)
    let s := s.checkDram (s.grid (s.team a.team).grid).part ((plain.filter (fun p => p.space == .global)).flatMap (fun p => linesOf p.addr p.len))
    let v := if !plain.isEmpty && acquires a.order && decide (2 ≤ a.scope) then s.dropCopies a.cluster else s
    let s := go.foldl (fun s i => s.performPart v n i) v
    match FMap.look s.accesses n with
    | none => s
    | some a' =>
      let s := (Access.finished a a').foldl (fun s l => s.deliver a' l) s
      if a'.parts.all (·.done) then { s with accesses := FMap.del s.accesses n } else s

/-! ### Fences (R158) -/

/-- The condition of a fence for one lane: an acquire fence waits for earlier loads and atomics, a release fence for every earlier access at its
scope. -/
def State.fenceMet (s : State) (k : Nat) (f : FenceHold) (l : Nat) : Bool :=
  let cl := (s.group k).cluster
  let reads := s.accesses.all (fun (n, a) => !(decide (n < f.upto) && a.group == k && a.kind != .store) ||
    a.parts.all (fun p => p.done || p.lane != l))
  (!acquires f.order || reads) && (!releases f.order || s.scopeDone k cl f.scope (oneLane l) f.upto)

/-- A fence holds a word back: an acquire fence any access, a release fence a store or atomic. -/
def FenceHold.holds (f : FenceHold) (kind : AccKind) : Bool := acquires f.order || (releases f.order && kind != .load)

/-- Some fence of a lane of the set holds the word back and is not met. -/
def State.fenced (s : State) (k : Nat) (kind : AccKind) (m : LaneSet) : Bool :=
  (s.group k).fences.any (fun f => f.holds kind && (lanesIn (f.lanes &&& m)).any (fun l => !s.fenceMet k f l))

/-- Fences of the lanes of a word that goes on are spent for them; an acquire fence at cluster scope or wider drops the copies (R214). -/
def State.passFences (s : State) (k : Nat) (kind : AccKind) (m : LaneSet) : State :=
  let g := s.group k
  let met := g.fences.filter (fun f => f.holds kind && f.lanes &&& m != 0)
  if met.isEmpty then s
  else
    let s := if met.any (fun f => acquires f.order && decide (2 ≤ f.scope)) then s.dropCopies g.cluster else s
    s.onGroup k (fun g => { g with
      fences := (g.fences.map (fun f => if f.holds kind then { f with lanes := f.lanes &&& ~~~m } else f)).filter (fun f => f.lanes != 0) })

end Sys2Proof.Machine
end

