-- ==== Sys2Proof/Machine/EngineBlocks.lean ====
section
/-! DEFINITION. The blocks, commands and records that E words read (15, R249 to R265): their fields, the rules that R400 and R401 judge, and the
locations that an engine command reads and writes. -/
namespace Sys2Proof.Machine

/-- A cause with its DETAIL and TRAPADDR. -/
abbrev Fail := Nat × Nat × Nat

/-- The field at the lowest offset among those that break a rule (R401). -/
def badField (l : List (Bool × Nat)) : Option Nat :=
  l.foldl (fun m p => if p.1 then (match m with | some o => some (min o p.2) | none => some p.2) else m) none

/-- Cause 0x82 for the lowest offending field of a block at an address. -/
def fieldFail (addr : Nat) (l : List (Bool × Nat)) : Option Fail := (badField l).map (fun o => (0x82, o, addr))

/-- A bit field of a number. -/
def bitsAt (v lo n : Nat) : Nat := v / 2 ^ lo % 2 ^ n

/-- Bytes of a range are zero. -/
def zeroAt (b : List (BitVec 8)) (off n : Nat) : Bool := fieldAt b off n == 0

/-- A place that an engine command reads or writes. -/
inductive Loc where
  | glob (va len : Nat)
  | scr (off len : Nat)
  | acc (e row col : Nat)
  deriving DecidableEq, Repr

/-! ### The matrix parameter block (R249 to R251) -/

/-- A parameter block taken apart (R249). -/
structure MmaBlk where
  eng : Nat
  zero : Bool
  asrc : Nat
  afmt : Nat
  bfmt : Nat
  stoch : Bool
  ascaled : Bool
  bscaled : Bool
  drain : Nat
  strict : Bool
  m : Nat
  n : Nat
  k : Nat
  row0 : Nat
  col0 : Nat
  arow : Nat
  acol : Nat
  aoff : Nat
  astr : Nat
  boff : Nat
  bstr : Nat
  ascl : Nat
  bscl : Nat
  key : Word
  dest : Nat
  dstr : Nat
  status : Nat
  deriving DecidableEq, Repr

/-- The fields of a parameter block. -/
def mmaBlk (b : List (BitVec 8)) : MmaBlk :=
  let ctl := fieldAt b 0 4
  { eng := bitsAt ctl 0 1, zero := bitsAt ctl 1 1 == 1, asrc := bitsAt ctl 2 2, afmt := bitsAt ctl 4 4, bfmt := bitsAt ctl 8 4
    stoch := bitsAt ctl 12 1 == 1, ascaled := bitsAt ctl 13 1 == 1, bscaled := bitsAt ctl 14 1 == 1, drain := bitsAt ctl 15 3
    strict := bitsAt ctl 18 1 == 1
    m := fieldAt b 4 1, n := fieldAt b 5 1, k := bitsAt (fieldAt b 6 2) 0 13
    row0 := fieldAt b 8 1, col0 := fieldAt b 9 1, arow := fieldAt b 10 1, acol := fieldAt b 11 1
    aoff := fieldAt b 12 4, astr := fieldAt b 16 4, boff := fieldAt b 20 4, bstr := fieldAt b 24 4
    ascl := fieldAt b 28 4, bscl := fieldAt b 32 4, key := BitVec.ofNat 32 (fieldAt b 36 4)
    dest := fieldAt b 40 8, dstr := fieldAt b 48 4, status := fieldAt b 56 8 }

/-- B is dequantised to BF16 first (R64). -/
def MmaBlk.weightOnly (p : MmaBlk) : Bool := p.afmt == 1 && (p.bfmt == 7 || p.bfmt == 14 || p.bfmt == 15)

/-- The chunk length of a format pairing; none for a pairing outside R250. -/
def MmaBlk.chunk (p : MmaBlk) : Option Nat :=
  if p.afmt = 1 ∧ p.bfmt = 1 then some 8
  else if (p.afmt = 3 ∨ p.afmt = 4) ∧ (p.bfmt = 3 ∨ p.bfmt = 4) then some 16
  else if p.afmt = 12 ∧ p.bfmt = 12 then some 16
  else if p.afmt = 7 ∧ p.bfmt = 7 then some 32
  else if p.weightOnly then some 8
  else none

/-- Bytes of `k` elements of a format along K (R47, R251): a VQ2 index codes eight. -/
def rowBytes (fmt k : Nat) : Nat := if fmt = 15 then k / 8 * 2 else (k * typeWidth fmt + 7) / 8

/-- Blocks of 32 along K (R252). -/
def MmaBlk.blocks (p : MmaBlk) : Nat := (p.k + 31) / 32

/-- The field rules of a parameter block (R249 to R251, R258, R247). -/
def mmaFields (b : List (BitVec 8)) (scr : Nat) : List (Bool × Nat) :=
  let p := mmaBlk b
  let ctl := fieldAt b 0 4
  let c := p.chunk.getD 1
  let fromScr := p.asrc == 0
  let inside (base len : Nat) : Bool := decide (base + len ≤ scr)
  let overlap := p.asrc == p.eng + 1 &&
    decide (p.arow < p.row0 + p.m ∧ p.row0 < p.arow + p.m ∧ p.acol < p.col0 + p.n ∧ p.col0 < p.acol + p.k)
  let tile (base n : Nat) : Bool := decide (base % 128 ≠ 0) || !inside base (256 * (p.blocks - 1) + 4 * n)
  [ (decide (ctl / 2 ^ 19 ≠ 0 ∨ p.asrc = 3 ∨ p.chunk = none ∨ 5 ≤ p.drain) || (p.weightOnly && p.ascaled) ||
      (!fromScr && p.afmt != 1 && p.afmt != 3 && p.afmt != 4), 0)
  , (decide (p.m = 0 ∨ 64 < p.m ∨ p.n = 0 ∨ 64 < p.n ∨ p.k = 0 ∨ 4096 < p.k ∨ p.k % c ≠ 0 ∨ fieldAt b 6 2 / 2 ^ 13 ≠ 0), 4)
  , (overlap, 8)
  , (fromScr && (decide (p.aoff % 16 ≠ 0) || !inside p.aoff ((p.m - 1) * p.astr + rowBytes p.afmt p.k)), 12)
  , (fromScr && decide (p.astr % 16 ≠ 0), 16)
  , (decide (p.boff % 16 ≠ 0) || !inside p.boff ((p.n - 1) * p.bstr + rowBytes p.bfmt p.k), 20)
  , (decide (p.bstr % 16 ≠ 0), 24)
  , (p.ascaled && tile p.ascl p.m, 28)
  , (p.bscaled && tile p.bscl p.n, 32)
  , (p.drain != 0 && (decide (p.dest % 4 ≠ 0) ||
      ((p.drain == 1 || p.drain == 2) && !inside p.dest ((p.m - 1) * p.dstr + 4 * p.n))), 40)
  , (p.drain != 0 && decide (p.dstr % 4 ≠ 0 ∨ p.dstr < 4 * p.n), 48)
  , (!zeroAt b 52 4, 52) ]

/-- Cause 0x84 for a rectangle past row or column 255 (R189): `a` marks the A rectangle. -/
def rectFail (row0 rows col0 cols : Nat) (a : Bool) : Option Fail :=
  let mark := if a then 2 ^ 10 else 0
  if 255 < row0 + rows - 1 then some (0x84, row0 + rows - 1 + mark, 0)
  else if 255 < col0 + cols - 1 then some (0x84, col0 + cols - 1 + 2 ^ 9 + mark, 0)
  else none

/-- The accumulator rectangles of an MMA (R247, R250). -/
def MmaBlk.rects (p : MmaBlk) : Option Fail :=
  (rectFail p.row0 p.m p.col0 p.n false).or (if p.asrc = 0 then none else rectFail p.arow p.m p.acol p.k true)

/-- The destination of a drain: element (i, j) of a rectangle (R258). -/
def drainLoc (mode dest dstr i j : Nat) : Loc :=
  if mode = 1 ∨ mode = 2 then .scr (dest + i * dstr + 4 * j) 4 else .glob ((dest + i * dstr + 4 * j) % 2 ^ 64) 4

/-- The destinations of a drain, row by row. -/
def drainLocs (mode dest dstr rows cols : Nat) : List Loc :=
  if mode = 0 then [] else (List.range rows).flatMap (fun i => (List.range cols).map (fun j => drainLoc mode dest dstr i j))

/-- What an MMA reads of the scratchpad and of accumulator stores. -/
def MmaBlk.reads (p : MmaBlk) : List Loc :=
  (if p.asrc = 0 then (List.range p.m).map (fun i => .scr (p.aoff + i * p.astr) (rowBytes p.afmt p.k)) else []) ++
  (List.range p.n).map (fun j => .scr (p.boff + j * p.bstr) (rowBytes p.bfmt p.k)) ++
  (if p.ascaled then (List.range p.blocks).map (fun q => .scr (p.ascl + 256 * q) (4 * p.m)) else []) ++
  (if p.bscaled then (List.range p.blocks).map (fun q => .scr (p.bscl + 256 * q) (4 * p.n)) else [])

/-! ### The drain block (R257) -/

/-- A drain: engine, mode, rectangle, destination, status. -/
structure DrainBlk where
  eng : Nat
  mode : Nat
  row0 : Nat
  col0 : Nat
  rows : Nat
  cols : Nat
  dest : Nat
  dstr : Nat
  status : Nat
  deriving DecidableEq, Repr

/-- The fields of a drain block. -/
def drainBlk (b : List (BitVec 8)) : DrainBlk :=
  { eng := bitsAt (fieldAt b 0 4) 0 1, mode := bitsAt (fieldAt b 0 4) 15 3, row0 := fieldAt b 4 1, col0 := fieldAt b 5 1
    rows := fieldAt b 6 1 + 1, cols := fieldAt b 7 1 + 1, dest := fieldAt b 40 8, dstr := fieldAt b 48 4, status := fieldAt b 56 8 }

/-- The field rules of a drain block (R257, R258). -/
def drainFields (b : List (BitVec 8)) (scr : Nat) : List (Bool × Nat) :=
  let p := drainBlk b
  let ctl := fieldAt b 0 4
  [ (decide (bitsAt ctl 1 14 ≠ 0 ∨ ctl / 2 ^ 18 ≠ 0 ∨ p.mode = 0 ∨ 5 ≤ p.mode), 0)
  , (decide ((p.mode = 2 ∨ p.mode = 3) ∧ (64 < p.rows ∨ 64 < p.cols)), 4)
  , (!zeroAt b 8 32, 8)
  , (decide (p.dest % 4 ≠ 0) ||
      (decide (p.mode = 1 ∨ p.mode = 2) && decide (scr < p.dest + (p.rows - 1) * p.dstr + 4 * p.cols)), 40)
  , (decide (p.dstr % 4 ≠ 0 ∨ p.dstr < 4 * p.cols), 48)
  , (!zeroAt b 52 4, 52) ]

/-! ### Shape records (R261, R262) -/

/-- A shape record taken apart; the lists have one entry for each of the five dimensions. -/
structure Shape where
  base   : Nat
  type   : Nat
  space  : Nat
  rank   : Nat
  swz    : Nat
  fill   : Nat
  ext    : List Nat
  stride : List Nat
  box    : List Nat
  orig   : List Int
  obj    : Nat
  deriving DecidableEq, Repr

/-- A 32-bit number read as signed. -/
def signed32 (n : Nat) : Int := (BitVec.ofNat 32 n).toInt

/-- The fields of a shape record. -/
def shapeOf (b : List (BitVec 8)) : Shape :=
  let flags := fieldAt b 8 4
  { base := fieldAt b 0 8, type := bitsAt flags 0 4, space := bitsAt flags 4 2, rank := bitsAt flags 6 3, swz := bitsAt flags 9 3
    fill := fieldAt b 12 4
    ext := (List.range 5).map (fun i => fieldAt b (16 + 4 * i) 4)
    stride := 0 :: (List.range 4).map (fun i => fieldAt b (40 + 8 * i) 8)
    box := (List.range 5).map (fun i => fieldAt b (72 + 4 * i) 4)
    orig := (List.range 5).map (fun i => signed32 (fieldAt b (92 + 4 * i) 4))
    obj := fieldAt b 112 4 }

/-- Elements in the box. -/
def Shape.count (h : Shape) : Nat := h.box.foldl (· * ·) 1

/-- The space is an accumulator store: its engine. -/
def Shape.accEngine (h : Shape) : Option Nat := if h.space = 2 then some 0 else if h.space = 3 then some 1 else none

/-- The field rules of a shape record (R261). -/
def shapeFields (b : List (BitVec 8)) : List (Bool × Nat) :=
  let h := shapeOf b
  let flags := fieldAt b 8 4
  let w := (typeWidth h.type + 7) / 8
  let isAcc := h.accEngine.isSome
  [ (isAcc && decide (2 ^ 16 ≤ h.base), 0)
  , (decide (h.rank = 0 ∨ 5 < h.rank ∨ 3 < h.swz ∨ flags / 2 ^ 12 ≠ 0) || (h.swz != 0 && h.space != 1) ||
      (isAcc && decide (2 < h.rank ∨ h.type ≠ 0)), 8)
  , (!zeroAt b 36 4, 36)
  , (decide (2 ^ 24 < h.count), 72)
  , (!zeroAt b 116 12, 116) ] ++
  (List.range 5).map (fun i => (decide (h.ext.getD i 1 = 0 ∨ (h.rank ≤ i ∧ h.ext.getD i 1 ≠ 1)), 16 + 4 * i)) ++
  (List.range 4).map (fun i => (decide (h.stride.getD (i + 1) 0 % w ≠ 0 ∨ (h.rank ≤ i + 1 ∧ h.stride.getD (i + 1) 0 ≠ 0)), 40 + 8 * i)) ++
  (List.range 5).map (fun i => (decide (h.box.getD i 1 = 0 ∨ (h.rank ≤ i ∧ h.box.getD i 1 ≠ 1)), 72 + 4 * i)) ++
  (List.range 5).map (fun i => (decide (h.rank ≤ i ∧ h.orig.getD i 0 ≠ 0), 92 + 4 * i))

/-- The coordinates of element `i` of the box, dimension 0 fastest (R262). -/
def Shape.coord (h : Shape) (i : Nat) : List Int :=
  let step (acc : Nat × List Int) (p : Nat × Int) : Nat × List Int :=
    (acc.1 / p.1, acc.2 ++ [p.2 + ((acc.1 % p.1 : Nat) : Int)])
  ((h.box.zip h.orig).foldl step (i, [])).2

/-- A coordinate lies inside the extents. -/
def Shape.inside (h : Shape) (c : List Int) : Bool := (c.zip h.ext).all (fun p => decide (0 ≤ p.1 ∧ p.1 < (p.2 : Int)))

/-- The byte address and the bit in it of an element inside the extents (R262). -/
def Shape.addr (h : Shape) (c : List Int) : Nat × Nat :=
  let n := c.map Int.toNat
  let bit := n.getD 0 0 * typeWidth h.type
  let a := (h.base + bit / 8 + ((n.zip h.stride).map (fun p => p.1 * p.2)).sum) % 2 ^ 64
  let a := if h.swz = 0 then a else
    let mid := a / 2 ^ 4 % 8
    a - mid * 16 + (mid ^^^ (a / 2 ^ 7 % 8 &&& (2 ^ h.swz - 1))) * 16
  (a, bit % 8)

/-- The place of an element; none outside the extents. -/
def Shape.loc (h : Shape) (c : List Int) : Option Loc :=
  if !h.inside c then none
  else
    match h.accEngine with
    | some e => some (.acc e (h.base % 256 + (c.getD 1 0).toNat) (h.base / 256 % 256 + (c.getD 0 0).toNat))
    | none =>
      let a := h.addr c
      let n := (a.2 + typeWidth h.type + 7) / 8
      some (if h.space = 1 then .scr a.1 n else .glob a.1 n)

/-- The lowest and highest byte of the elements with coordinates between bounds (R261, R263): strides are signed 64-bit numbers. -/
def Shape.span (h : Shape) (lo hi : List Nat) : Int × Int :=
  let w := typeWidth h.type
  let part (d : Nat) : Int × Int :=
    let st : Int := (BitVec.ofNat 64 (h.stride.getD d 0)).toInt
    let x := st * ((lo.getD d 0 : Nat) : Int)
    let y := st * ((hi.getD d 0 : Nat) : Int)
    (min x y, max x y)
  let base : Int := h.base
  (base + ((lo.getD 0 0 * w / 8 : Nat) : Int) + (part 1).1 + (part 2).1 + (part 3).1 + (part 4).1,
   base + (((hi.getD 0 0 * w + w - 1) / 8 : Nat) : Int) + (part 1).2 + (part 2).2 + (part 3).2 + (part 4).2)

/-- The bytes of the full extents: the address of the lowest, which wraps at 64 bits, and the length (R175, R261). -/
def Shape.footprint (h : Shape) : Nat × Nat :=
  let r := h.span (h.ext.map (fun _ => 0)) (h.ext.map (· - 1))
  ((r.1 % 2 ^ 64).toNat, (r.2 - r.1 + 1).toNat)

/-- The byte range of a swizzled box, from each of its elements (R262, R263). -/
def Shape.swizzledRange (h : Shape) : Option (Int × Int) :=
  (List.range h.count).foldl (fun m i => match h.loc (h.coord i) with
    | some (.scr a n) => some (match m with
      | some r => (min r.1 (a : Int), max r.2 ((a + n - 1 : Nat) : Int))
      | none => ((a : Int), ((a + n - 1 : Nat) : Int)))
    | _ => m) none

/-- The byte range of the part of the box inside the extents; none where it has no element (R263). -/
def Shape.boxRange (h : Shape) : Option (Int × Int) :=
  if h.swz ≠ 0 then h.swizzledRange else
  let dims := (h.orig.zip h.box).zip h.ext
  let lo := dims.map (fun d => (max d.1.1 0).toNat)
  let top := dims.map (fun d => min (d.1.1 + (d.1.2 : Int) - 1) ((d.2 : Int) - 1))
  if (dims.zip top).any (fun d => decide (d.2 < max d.1.1.1 0)) then none
  else some (h.span lo (top.map Int.toNat))

/-- Accumulator elements of the box past row or column 255 (R261). -/
def Shape.accFail (h : Shape) : Option Fail :=
  match h.accEngine with
  | none => none
  | some _ =>
    let last (d : Nat) : Nat := (min (h.orig.getD d 0 + (h.box.getD d 1 : Int) - 1) ((h.ext.getD d 1 : Int) - 1)).toNat
    rectFail (h.base % 256) (last 1 + 1) (h.base / 256 % 256) (last 0 + 1) false

/-- Two boxes in one space overlap (R263). -/
def Shape.overlaps (h k : Shape) : Bool :=
  h.space == k.space &&
  match h.accEngine, h.boxRange, k.boxRange with
  | none, some r, some q => decide (r.1 ≤ q.2 ∧ q.1 ≤ r.2)
  | some _, _, _ =>
    let rect (x : Shape) (d : Nat) (off : Nat) : Int × Int :=
      (off + max (x.orig.getD d 0) 0, off + min (x.orig.getD d 0 + (x.box.getD d 1 : Int) - 1) ((x.ext.getD d 1 : Int) - 1))
    let meet (p q : Int × Int) : Bool := decide (p.1 ≤ q.2 ∧ q.1 ≤ p.2)
    meet (rect h 1 (h.base % 256)) (rect k 1 (k.base % 256)) && meet (rect h 0 (h.base / 256 % 256)) (rect k 0 (k.base / 256 % 256))
  | _, _, _ => false

/-- The floating-point types among which COPY converts (R263). -/
def convertible (t : Nat) : Bool := t ≤ 4

/-- The rules that relate the two records of COPY (R263). -/
def copyRelations (h k : Shape) : List (Bool × Nat) :=
  [ (!(h.type == k.type || (convertible h.type && convertible k.type)) || h.overlaps k, 8)
  , (decide (h.rank ≠ k.rank ∨ h.box ≠ k.box), 72) ]

/-- The rules of GATHER and SCATTER (R264). A breach that concerns the source record alone is reported for the destination record too, at 72
(DESIGN CHOICE, log entry 97). -/
def rowRelations (gather : Bool) (count : Nat) (h k : Shape) : List (Bool × Nat) :=
  let one := if gather then h.box.getD 1 1 else k.box.getD 1 1
  let many := if gather then k.box.getD 1 1 else h.box.getD 1 1
  [ (decide (h.rank ≠ 2 ∨ k.rank ≠ 2 ∨ h.type ≠ k.type ∨ h.box.getD 0 1 ≠ k.box.getD 0 1 ∨ one ≠ 1 ∨ many ≠ count), 72) ]

/-! ### Collectives (R265) -/

/-- A communicator record. -/
structure CommRec where
  size : Nat
  rank : Nat
  members : Nat
  key : Nat
  fan : Nat
  deriving DecidableEq, Repr

/-- The fields of a communicator record. -/
def commOf (b : List (BitVec 8)) : CommRec :=
  { size := fieldAt b 0 4, rank := fieldAt b 4 4, members := fieldAt b 8 8, key := fieldAt b 16 2, fan := fieldAt b 18 1 }

/-- The field rules of a communicator record. -/
def commFields (b : List (BitVec 8)) : List (Bool × Nat) :=
  let c := commOf b
  [ (decide (c.size = 0 ∨ 131072 < c.size), 0), (decide (c.size ≤ c.rank), 4), (decide (c.fan < 2 ∨ 16 < c.fan), 18), (!zeroAt b 19 13, 19) ]

/-- A collective block. -/
structure CollBlk where
  comm : Nat
  src : Nat
  dst : Nat
  count : Nat
  kind : Nat
  op : Nat
  type : Nat
  root : Nat
  status : Nat
  deriving DecidableEq, Repr

/-- The fields of a collective block. -/
def collBlk (b : List (BitVec 8)) : CollBlk :=
  let k := fieldAt b 28 4
  { comm := fieldAt b 0 8, src := fieldAt b 8 8, dst := fieldAt b 16 8, count := fieldAt b 24 4
    kind := bitsAt k 0 4, op := bitsAt k 4 4, type := bitsAt k 8 4, root := fieldAt b 32 4, status := fieldAt b 56 8 }

/-- Element bytes of a collective. -/
def CollBlk.width (c : CollBlk) : Nat := if c.type = 1 then 2 else 4

/-- The field rules of a collective block; a rule on ROOT needs the communicator's size. -/
def collFields (b : List (BitVec 8)) (size : Nat) : List (Bool × Nat) :=
  let c := collBlk b
  let float := decide (8 ≤ c.op)
  [ (decide (c.count = 0 ∨ 2 ^ 28 < c.count), 24)
  , (decide (4 < c.kind ∨ 10 < c.op ∨ fieldAt b 28 4 / 2 ^ 12 ≠ 0) || !(c.type == 0 || c.type == 1 || c.type == 8 || c.type == 9) ||
      (float && decide (8 ≤ c.type)) || (!float && c.type == 1 && decide (c.op < 5)), 28)
  , (decide ((c.kind = 1 ∨ c.kind = 2) ∧ size ≤ c.root), 32)
  , (!zeroAt b 36 20, 36) ]

/-- Elements that this module reads from SRC. -/
def CollBlk.inCount (c : CollBlk) (m : CommRec) : Nat := if c.kind = 4 then c.count * m.size else c.count

/-- Elements that this module writes to DST. -/
def CollBlk.outCount (c : CollBlk) (m : CommRec) : Nat :=
  match c.kind with
  | 1 => if m.rank = c.root then c.count else 0
  | 3 => c.count * m.size
  | _ => c.count

/-- An address range cut at line boundaries: address, length and offset. -/
def lineSplit (va n : Nat) : List (Nat × Nat × Nat) :=
  (linesOf va n).map (fun ln =>
    let lo := max va (128 * ln)
    (lo % 2 ^ 64, min (va + n) (128 * ln + 128) - lo, lo - va))

/-! ### What a command touches -/

/-- The row numbers of a GATHER or SCATTER, read when it started (R264). -/
def Command.rowIndex (c : Command) (i : Nat) : Int := signed32 (fieldAt c.table (4 * i) 4)

/-- The element pairs of a copy-engine command in order: source and destination places, none where the element lies outside (R263, R264). -/
def Command.pairs (c : Command) : List (Option Loc × Option Loc) :=
  let h := shapeOf c.src
  let k := shapeOf c.dst
  match c.op with
  | 0x05 => (List.range k.count).map (fun i => (h.loc (h.coord i), k.loc (k.coord i)))
  | _ =>
    let w := k.box.getD 0 1
    (List.range (fieldAt c.block 28 4)).flatMap (fun i => (List.range w).map (fun (j : Nat) =>
      let at_ (x : Shape) (row : Int) : List Int := [x.orig.getD 0 0 + (j : Int), row, 0, 0, 0]
      if c.op = 0x06 then (h.loc (at_ h (c.rowIndex i)), k.loc (at_ k (k.orig.getD 1 0 + (i : Int))))
      else (h.loc (at_ h (h.orig.getD 1 0 + (i : Int))), k.loc (at_ k (c.rowIndex i)))))

/-- The index list of a GATHER or SCATTER (R264). -/
def Command.listLoc (c : Command) : List Loc :=
  if c.op = 0x06 ∨ c.op = 0x07 then [.scr (fieldAt c.block 24 4) (4 * fieldAt c.block 28 4)] else []

/-- The places a command reads; the source rows of a GATHER once its list has been read. -/
def Command.reads (c : Command) : List Loc :=
  match c.op with
  | 0x00 =>
    let p := mmaBlk c.block
    p.reads ++ (if p.drain = 2 ∨ p.drain = 3 then drainLocs p.drain p.dest p.dstr p.m p.n else [])
  | 0x04 =>
    let p := drainBlk c.block
    if p.mode = 2 ∨ p.mode = 3 then drainLocs p.mode p.dest p.dstr p.rows p.cols else []
  | 0x05 | 0x07 => c.pairs.filterMap (·.1)
  | 0x06 => if c.table.isEmpty then [] else c.pairs.filterMap (·.1)
  | 0x08 =>
    let p := collBlk c.block
    let m := commOf c.src
    if p.kind = 2 ∧ m.rank ≠ p.root then [] else [.glob p.src (p.width * p.inCount m)]
  | _ => []

/-- The places a command writes; the destination rows of a SCATTER once its list has been read. -/
def Command.writes (c : Command) : List Loc :=
  match c.op with
  | 0x00 => let p := mmaBlk c.block; drainLocs p.drain p.dest p.dstr p.m p.n
  | 0x04 => let p := drainBlk c.block; drainLocs p.mode p.dest p.dstr p.rows p.cols
  | 0x05 | 0x06 => c.pairs.filterMap (·.2)
  | 0x07 => if c.table.isEmpty then [] else c.pairs.filterMap (·.2)
  | 0x08 =>
    let p := collBlk c.block
    [.glob p.dst (p.width * p.outCount (commOf c.src))]
  | _ => []

/-- The status word's address; 0 for none (R260). -/
def Command.status (c : Command) : Nat :=
  match c.op with
  | 0x00 | 0x04 | 0x08 => fieldAt c.block 56 8
  | 0x05 | 0x06 | 0x07 => fieldAt c.block 16 8
  | _ => 0

/-- The global lines of places, as far as they translate to device memory. -/
def State.globLines (s : State) (c : Command) (use : Access1) (ls : List Loc) : List Nat :=
  (ls.flatMap (fun l => match l with
    | .glob va n => (linesOf va n).filterMap (fun ln =>
        match s.target c.cluster c.part use (ln * 128) with | .ok .global pa => some (pa / 128) | _ => none)
    | _ => [])).dedup

/-- The scratchpad lines of places, as lines of the cluster. -/
def State.scrLines (s : State) (c : Command) (ls : List Loc) : List Nat :=
  let t := s.team c.team
  (ls.flatMap (fun l => match l with
    | .scr off n => if off + n ≤ t.scrSize then linesOf (t.scrBase + off) n else []
    | _ => [])).dedup

/-- The device lines that a command reads, writes, or writes its status word to. -/
def State.commandLines (s : State) (c : Command) : List Nat :=
  s.globLines c .read c.reads ++ s.globLines c .write c.writes ++ (if c.status = 0 then [] else s.globLines c .write [.glob c.status 8])

end Sys2Proof.Machine
end

