-- ==== Sys2Proof/Machine/EngineIssue.lean ====
section
/-! DEFINITION. Issuing the words that command engines (08, R167 to R175, R183, R186, R400, R401): the synchronous read of a block, the order of the
checks, the unit queues, and one definition for each command word. -/
namespace Sys2Proof.Machine

/-! ### The frame of an E word -/

/-- The E opcode of the issuing word. -/
def Run.eop (r : Run) : Nat := r.classOp % 64

/-- The gate of an E word: its scalar sources and destinations, which block; while the team rolls back an engine command or LAUNCH is dropped whole
(R302); region misuse (R183) and words not allowed in a level (R186). -/
def State.eGate (s : State) (srcs dsts : List Nat) (inRegion inLevel dropped : Bool) (k : State) : State :=
  let g := s.me
  s.gated (g.gate (srcs.map (fun r => (r, false))) dsts)
    (if dropped && s.myTeam.rollback.isSome then s.advance 1 1
     else if !inRegion && g.regionSet g.run.act != 0 then s.trapHere 0x50 4
     else if !inLevel && s.myTeam.rlevel != 0 then s.trapHere 0x60 6
     else k)

/-- Bytes that a synchronous read must wait for (R161, R219), or that a store of the group has still to bring into the L1. -/
def State.blockBusy (s : State) (k pa len : Nat) : Bool :=
  let g := s.group k
  s.waitsAt g.team g.cluster false pa len || (linesOf pa len).any (fun ln => !s.roomFor g.cluster ln) ||
  s.accesses.any (fun (_, a) => a.group == k && a.kind != .load && a.parts.any (fun p =>
    !p.done && p.space == .global && decide (p.addr < pa + len ∧ pa < p.addr + p.len) && p.entered.isNone))

/-- The outcome of a synchronous read (R169 step 2). -/
inductive SyncRead where
  | bytes (bs : List (BitVec 8)) (poisoned : Nat)
  | wait (w : Wait)
  | page (page addr : Nat)
  | bad (code detail addr : Nat)
  deriving DecidableEq, Repr

/-- A piece of a block within one page. -/
def State.readPiece (s : State) (va n : Nat) : SyncRead :=
  let g := s.me
  let part := s.partOf g
  match s.target g.cluster part .read va with
  | .bad c d => if c = 0x31 then .page (va / 2 ^ 16) va else .bad c (d.getD g.run.classOp) va
  | .ok sp pa =>
    match sp with
    | .host =>
      if (wordsIn pa n).any (fun w => FMap.has s.hostErr w) then .bad 0x3A g.run.classOp va
      else .bytes (Mem.readBytes s.hostMem pa n) 0
    | .fabric =>
      if s.remoteOpen part pa n then .bytes (s.remoteRead part pa n) 0 else .bytes (List.replicate n 0) (wordsIn pa n).length
    | _ =>
      if s.blockBusy s.cur pa n then .wait (.block pa n)
      else
        let bad := (wordsIn pa n).filter (fun w => FMap.has s.poison w)
        .bytes ((s.viewBytes g.cluster pa n).mapIdx (fun i b => if bad.contains ((pa + i) / 4) then 0 else b)) bad.length

/-- A block read synchronously: its pages in address order (R400 step 4). -/
def State.readBlock (s : State) (va n : Nat) : SyncRead :=
  let first := min n (2 ^ 16 - va % 2 ^ 16)
  match s.readPiece va first with
  | .bytes bs p =>
    if first = n then .bytes bs p
    else
      match s.readPiece (va + first) (n - first) with
      | .bytes bs' p' => .bytes (bs ++ bs') (p + p')
      | other => other
  | other => other

/-- The device lines of a range that the issuing group reads. -/
def State.blockLines (s : State) (va n : Nat) : List Nat :=
  (linesOf va n).filterMap (fun ln => match s.target s.me.cluster (s.partOf s.me) .read (ln * 128 % 2 ^ 64) with
    | .ok .global pa => some (pa / 128)
    | _ => none)

/-- The lines of a block about to be read: wrong symbols that they hold in device memory come to light (R385). -/
def State.checkBlock (s : State) (va n : Nat) : State := s.checkDram (s.partOf s.me) (s.blockLines va n)

/-- The pieces of a block that lie in other modules: each is a flit, and one that no window answers is a dropped access (R380, R388, R396). -/
def State.noteFabric (s : State) (va n : Nat) : State :=
  let part := s.partOf s.me
  let pieces := (linesOf va n).filterMap (fun ln =>
    let lo := max va (128 * ln)
    match s.target s.me.cluster part .read (lo % 2 ^ 64) with
    | .ok .fabric pa => some (pa, min (va + n) (128 * ln + 128) - lo)
    | _ => none)
  pieces.foldl (fun s p => (s.flit part 1).countErr part 3 (if s.remoteOpen part p.1 p.2 then 0 else 1)) s

/-- What a block read leaves behind: its pages' translations, and its lines in the caches (R219, R224, R225). -/
def State.noteBlock (s : State) (va n : Nat) : State :=
  let g := s.me
  let s := s.cachePages g.cluster (s.partOf g) .read (pagesOf va n)
  ((s.blockLines va n).foldl (fun s ln => s.fetchLine g.cluster ln 0) s).noteFabric va n

/-- The word goes on with the bytes of a block and how many of their words are poisoned, or stops as its read says: a page not present waits for
the page-fault service (R166). An acquire fence of its lanes comes before the read (R158, R233). -/
def State.withBytes (s : State) (va n align : Nat) (k : List (BitVec 8) → Nat → State → State) : State :=
  let g := s.me
  let r := g.run
  if va % align ≠ 0 then s.trapAddr 0x81 r.eop r.act (BitVec.ofNat 64 va)
  else if s.fenced s.cur .load r.act then s.block (.fence r.act .load)
  else
    let s := s.passFences s.cur .load r.act
    let s := match s.readBlock va n with | .bytes .. => s.checkBlock va n | _ => s
    match s.readBlock va n with
    | .bytes bs p => k bs p (s.noteBlock va n)
    | .wait w => s.block w
    | .page pg a => (s.requestPage (s.partOf g) pg).block (.page pg (BitVec.ofNat 64 a) r.classOp none)
    | .bad c d a => (s.noteWalk g.cluster (s.partOf g) .read a).trapAddr c d r.act (BitVec.ofNat 64 a)

/-- The word goes on with the bytes of a block: poisoned words read as zero and are counted, or are a fault of the level (R348). -/
def State.withBlock (s : State) (va n align : Nat) (k : List (BitVec 8) → State → State) : State :=
  s.withBytes va n align (fun bs p s =>
    if p ≠ 0 ∧ s.myTeam.rlevel ≠ 0 then (s.onMe (fun g => { g with run := { g.run with stopped := true } })).levelFault s.me.team 0x90
    else k bs (s.countErr (s.partOf s.me) 1 p))

/-- The cause that a command with a poisoned table ends with: the table is its source (R171, R348). -/
def poisonedTable (words : Nat) : Option Nat := if words = 0 then none else some 0x92

/-- The first failure of a list is raised at the word, else the word goes on (R400). -/
def State.checked (s : State) (fails : List (Option Fail)) (k : State) : State :=
  match (fails.filterMap id).head? with
  | some (c, d, a) => s.trapAddr c d s.me.run.act (BitVec.ofNat 64 a)
  | none => k

/-- A failure when a condition holds. -/
def failIf (p : Bool) (c d a : Nat) : Option Fail := if p then some (c, d, a) else none

/-! ### Queues -/

/-- Depth of a unit's queue (R168). -/
def unitDepth (u : Nat) : Nat :=
  match u with | 0 | 1 => 16 | 2 => 32 | 3 => 8 | 4 => 16 | _ => 2

/-- A unit's queue of a cluster is full: commands that have not started (R168). -/
def State.queueFull (s : State) (cl u : Nat) : Bool :=
  decide (unitDepth u ≤ (s.commands.filter (fun c => c.2.cluster == cl && c.2.unit == u && !c.2.started)).length)

/-- The event counter of a command has no room (R169 step 1). -/
def Group.counterFull (g : Group) (ec : Nat) : Bool := decide (0xFFFF ≤ g.counter ec + 1)

/-- A command of the issuing group, to be filled in. -/
def State.command (s : State) (unit : Nat) (ec : BitVec 3) : Command :=
  let g := s.me
  { unit := unit, op := g.run.eop, cluster := g.cluster, part := s.partOf g, team := g.team, group := s.cur, gid := g.gid
    hdr := g.run.hdr, word := g.run.idx, ec := ec.toNat, act := g.run.act, upto := s.fresh }

/-- How many collectives a communicator of a partition has been given here (R266). -/
def State.collsOf (s : State) (part : Nat) (m : CommRec) : Nat :=
  match s.colls.find? (fun x => x.part == part && x.members == m.members && x.key == m.key) with | some x => x.next | none => 0

/-- One more collective of a communicator. -/
def State.countColl (s : State) (part : Nat) (m : CommRec) : State :=
  { s with colls := { part := part, members := m.members, key := m.key, next := s.collsOf part m + 1 } ::
      s.colls.filter (fun x => !(x.part == part && x.members == m.members && x.key == m.key)) }

/-- A command as it stands in its queue: it has arrived at those of its lines that are tentative at a level of another team, and a collective has its number
among those of its communicator (R242, R266). A command arrives when it is queued; at rows that an index list names it does so when it starts (DESIGN CHOICE,
log entry 92). -/
def State.queued (s : State) (c : Command) : Command :=
  { c with waited := (s.commandLines c).filter (s.foreignLine c.team), seq := if c.op = 0x08 then s.collsOf c.part (commOf c.src) else 0 }

/-- A command put into its unit's queue, or a wait on the queue (R168, R169 step 4). -/
def State.enqueue (s : State) (c : Command) (cost : Nat) : State :=
  if s.queueFull c.cluster c.unit then s.block (.queue c.unit)
  else
    let t := { s with commands := FMap.put s.commands s.fresh (s.queued c), fresh := s.fresh + 1 }
    ((if c.op = 0x08 then t.countColl c.part (commOf c.src) else t).onMe (fun g => g.setCounter c.ec (g.counter c.ec + 1))).advance 1 cost

/-- A team has claimed an accumulator store (R213). -/
def Team.claims (t : Team) (e : Nat) : Bool := if e = 0 then t.acc0 else t.acc1

/-- Cause 0x86 for the first store among some that the team has not claimed. -/
def claimFail (t : Team) (es : List Nat) : Option Fail := (es.find? (fun e => !t.claims e)).map (fun e => (0x86, e, 0))

/-- Cause 0x81 for a misaligned status word address (R260). -/
def statusFail (s : State) (status block : Nat) : Option Fail := failIf (status % 8 != 0) 0x81 s.me.run.eop block

/-- An engine command word that reads a table at the pair s. -/
def State.tableWord (s : State) (p : BitVec 5) (ec : BitVec 3) (n : Nat)
    (k : Nat → List (BitVec 8) → Nat → State → State) : Host.Outcome State Fault Refusal :=
  let va := (s.me.sPair p.toNat).toNat
  .next (s.eGate [sreg p, sreg p + 1] [] false true true
    (if s.me.counterFull ec.toNat then s.trapHere 0x80 ec.toNat else s.withBytes va n 128 (k va)))

/-- An engine command word that reads a block at the pair s. -/
def State.engineWord (s : State) (p : BitVec 5) (ec : BitVec 3) (n align : Nat) (inLevel : Bool)
    (k : Nat → List (BitVec 8) → State → State) : Host.Outcome State Fault Refusal :=
  let va := (s.me.sPair p.toNat).toNat
  .next (s.eGate [sreg p, sreg p + 1] [] false inLevel true
    (if s.me.counterFull ec.toNat then s.trapHere 0x80 ec.toNat else s.withBlock va n align (k va)))

/-! ### The matrix engines -/

/-- MMA (R169, R249 to R251, R400). -/
def execMma (p : BitVec 5) (ec : BitVec 3) (s : State) : Host.Outcome State Fault Refusal :=
  s.engineWord p ec 64 64 true (fun va b s =>
    let m := mmaBlk b
    let t := s.myTeam
    s.checked [fieldFail va (mmaFields b t.scrSize), m.rects, statusFail s m.status va,
        claimFail t ([m.eng] ++ if m.asrc = 0 then [] else [m.asrc - 1])]
      (s.enqueue { s.command m.eng ec with addr := BitVec.ofNat 64 va, block := b, eng := m.eng } 1))

/-- ACCDRAIN (R257, R258). -/
def execAccdrain (p : BitVec 5) (ec : BitVec 3) (s : State) : Host.Outcome State Fault Refusal :=
  s.engineWord p ec 64 64 true (fun va b s =>
    let d := drainBlk b
    let t := s.myTeam
    s.checked [fieldFail va (drainFields b t.scrSize), rectFail d.row0 d.rows d.col0 d.cols false, statusFail s d.status va,
        claimFail t [d.eng]]
      (s.enqueue { s.command d.eng ec with addr := BitVec.ofNat 64 va, block := b, eng := d.eng } 1))

/-- An engine word whose operand is a scalar register. -/
def State.engineReg (s : State) (p : BitVec 5) (ec : BitVec 3) (srcs : List (Nat × Bool)) (dsts : List Nat) (k : Word → State → State) :
    Host.Outcome State Fault Refusal :=
  let g := s.me
  .next (s.gated (g.gate ((sreg p, false) :: srcs) dsts)
    (if s.myTeam.rollback.isSome then s.advance 1 1
     else if g.regionSet g.run.act != 0 then s.trapHere 0x50 4
     else if g.counterFull ec.toNat then s.trapHere 0x80 ec.toNat
     else k (g.s p.toNat) s))

/-- The engine number of a bit. -/
def engNo (e : Bool) : Nat := if e then 1 else 0

/-- ACCZERO (R173). -/
def execAcczero (p : BitVec 5) (ec : BitVec 3) (eng : Bool) (s : State) : Host.Outcome State Fault Refusal :=
  s.engineReg p ec [] [] (fun w s =>
    let v := w.toNat
    s.checked [rectFail (bitsAt v 0 8) (bitsAt v 16 8 + 1) (bitsAt v 8 8) (bitsAt v 24 8 + 1) false, claimFail s.myTeam [engNo eng]]
      (s.enqueue { s.command (engNo eng) ec with operand := w, eng := engNo eng } 1))

/-- The checks of a position word (R173, R189): the highest-numbered active lane reaches the last column. -/
def posFails (g : Group) (w : Word) : List (Option Fail) :=
  let v := w.toNat
  let top := (lanesIn g.run.act).getLastD 0
  [ fieldFail 0 [(bitsAt v 16 8 != 0, 2), (bitsAt v 24 8 != 0, 3)]
  , failIf (decide (255 < bitsAt v 8 8 + top)) 0x84 (bitsAt v 8 8 + top + 2 ^ 9) 0 ]

/-- ACCRD (R173): the destination is empty in the active lanes until the unit writes it. -/
def execAccrd (p : BitVec 5) (ec : BitVec 3) (eng : Bool) (d : BitVec 7) (s : State) : Host.Outcome State Fault Refusal :=
  s.engineReg p ec [] [d.toNat] (fun w s =>
    let g := s.me
    s.checked (posFails g w ++ [claimFail s.myTeam [engNo eng]])
      (if s.queueFull g.cluster (engNo eng) then s.block (.queue (engNo eng))
       else
        let cost := s.pa g
        let s := s.commit s.cur (g.mapLanes g.run.act (fun _ n => n.emptyReg d.toNat)) (Writes.on { regs := [d.toNat] } g.run.act)
        s.enqueue { s.command (engNo eng) ec with operand := w, eng := engNo eng, reg := d.toNat } cost))

/-- ACCWR (R173): the values are read at issue. -/
def execAccwr (p : BitVec 5) (ec : BitVec 3) (eng : Bool) (a : BitVec 7) (s : State) : Host.Outcome State Fault Refusal :=
  s.engineReg p ec [(a.toNat, false)] [] (fun w s =>
    let g := s.me
    s.checked (posFails g w ++ [claimFail s.myTeam [engNo eng]])
      (s.enqueue { s.command (engNo eng) ec with
          operand := w, eng := engNo eng, vals := (lanesIn g.run.act).map (fun l => (l, (g.lane l).reg a.toNat)) } (s.pa g)))

/-- CBLOAD (R173, R255): 1 KiB read at issue. -/
def execCbload (p : BitVec 5) (ec : BitVec 3) (eng : Bool) (s : State) : Host.Outcome State Fault Refusal :=
  s.tableWord p ec 1024 (fun va b bad s =>
    s.checked [claimFail s.myTeam [engNo eng]]
      (s.enqueue { s.command (engNo eng) ec with addr := BitVec.ofNat 64 va, table := b, eng := engNo eng, failed := poisonedTable bad } 1))

/-- ACTLOAD (R139, R140): 3,088 bytes read at issue. -/
def execActload (p : BitVec 5) (ec : BitVec 3) (s : State) : Host.Outcome State Fault Refusal :=
  s.tableWord p ec 3088 (fun va b bad s =>
    s.checked [failIf (!s.myTeam.act) 0x86 2 0]
      (s.enqueue { s.command 5 ec with addr := BitVec.ofNat 64 va, table := b, failed := poisonedTable bad } 1))

/-! ### The copy engine -/

/-- The two shape records of a command: both alignments are judged before either record is read (R400). -/
def State.withShapes (s : State) (b : List (BitVec 8)) (k : List (BitVec 8) → List (BitVec 8) → State → State) : State :=
  let src := fieldAt b 0 8
  let dst := fieldAt b 8 8
  if src % 128 = 0 ∧ dst % 128 ≠ 0 then s.trapAddr 0x81 s.me.run.eop s.me.run.act (BitVec.ofNat 64 dst)
  else s.withBlock src 128 128 (fun x s => s.withBlock dst 128 128 (fun y s => k x y s))

/-- The claims that two shapes need (R213): source, then destination. -/
def shapeClaims (t : Team) (h k : Shape) : Option Fail :=
  claimFail t ((match h.accEngine with | some e => [e] | none => []) ++ (match k.accEngine with | some e => [e] | none => []))

/-- OBJ names an object of the partition (R263, cause 0x85). -/
def State.objFail (s : State) (id : Nat) : Option Fail :=
  failIf (id != 0 && !((FMap.look s.objects id).any (fun o => o.part == s.partOf s.me))) 0x85 0 0

/-- A byte of device memory lies in the footprint of an object. -/
def Obj.holds (o : Obj) (pa : Nat) : Bool :=
  o.lines.contains (pa / 128) && decide ((pa / 128 = o.head / 128 → o.head ≤ pa) ∧ (pa / 128 = o.tail / 128 → pa ≤ o.tail))

/-- OBJ names an object whose footprint does not hold the whole box (R263): in every line that the box's range touches, its first and its last byte
there must lie in the footprint. -/
def State.objBox (s : State) (h : Shape) : Bool :=
  match FMap.look s.objects h.obj, h.boxRange with
  | some o, some r =>
    let lo := (r.1 % 2 ^ 64).toNat
    let n := (r.2 - r.1 + 1).toNat
    let out (va : Nat) : Bool := match s.target s.me.cluster (s.partOf s.me) .read (va % 2 ^ 64) with
      | .ok .global pa => !o.holds pa
      | _ => true
    h.space != 0 || (linesOf lo n).any (fun ln => out (max lo (128 * ln)) || out (min (lo + n - 1) (128 * ln + 127)))
  | some _, none => h.space != 0
  | none, _ => false

/-- The rules of a shape record with those of its object (R261, R263). -/
def State.shapeFail (s : State) (va : Nat) (b : List (BitVec 8)) (more : List (Bool × Nat)) : Option Fail :=
  fieldFail va (shapeFields b ++ (if (shapeOf b).obj = 0 then [] else [(s.objBox (shapeOf b), 112)]) ++ more)

/-- A copy-engine word: the command's own rules, the records', then the checks that follow them (R400, R401). -/
def State.copyWord (s : State) (p : BitVec 5) (ec : BitVec 3) (own : List (BitVec 8) → List (Bool × Nat))
    (rel : List (BitVec 8) → Shape → Shape → List (Bool × Nat)) : Host.Outcome State Fault Refusal :=
  s.engineWord p ec 32 32 true (fun va b s =>
    s.withShapes b (fun x y s =>
      let h := shapeOf x
      let k := shapeOf y
      s.checked [fieldFail va (own b), s.shapeFail (fieldAt b 0 8) x [], s.shapeFail (fieldAt b 8 8) y (rel b h k),
          h.accFail, k.accFail, statusFail s (fieldAt b 16 8) va, shapeClaims s.myTeam h k, s.objFail h.obj, s.objFail k.obj]
        (s.enqueue { s.command 2 ec with addr := BitVec.ofNat 64 va, block := b, src := x, dst := y } 1)))

/-- COPY (R263). -/
def execCopy (p : BitVec 5) (ec : BitVec 3) (s : State) : Host.Outcome State Fault Refusal :=
  s.copyWord p ec
    (fun b => [(decide (fieldAt b 24 4 / 2 ^ 3 ≠ 0 ∨ bitsAt (fieldAt b 24 4) 0 3 = 4 ∨ 6 ≤ bitsAt (fieldAt b 24 4) 0 3), 24), (!zeroAt b 28 4, 28)])
    (fun _ h k => copyRelations h k)

/-- The own rules of GATHER and SCATTER (R264). -/
def listFields (b : List (BitVec 8)) : List (Bool × Nat) :=
  [(decide (fieldAt b 24 4 % 4 ≠ 0), 24), (decide (fieldAt b 28 4 = 0 ∨ 4096 < fieldAt b 28 4), 28)]

/-- GATHER (R264). -/
def execGather (p : BitVec 5) (ec : BitVec 3) (s : State) : Host.Outcome State Fault Refusal :=
  s.copyWord p ec listFields (fun b h k => rowRelations true (fieldAt b 28 4) h k)

/-- SCATTER (R264). -/
def execScatter (p : BitVec 5) (ec : BitVec 3) (s : State) : Host.Outcome State Fault Refusal :=
  s.copyWord p ec listFields (fun b h k => rowRelations false (fieldAt b 28 4) h k)

/-! ### The collective unit -/

/-- COLL (R265): the block, then the communicator record it names. -/
def execColl (p : BitVec 5) (ec : BitVec 3) (s : State) : Host.Outcome State Fault Refusal :=
  s.engineWord p ec 64 64 false (fun va b s =>
    s.withBlock (collBlk b).comm 32 8 (fun m s =>
      s.checked [fieldFail va (collFields b (fieldAt m 0 4)), fieldFail (collBlk b).comm (commFields m), statusFail s (collBlk b).status va]
        (s.enqueue { s.command 3 ec with addr := BitVec.ofNat 64 va, block := b, src := m } 1)))

/-- PHASEEND (R265, R267). -/
def execPhaseend (p : BitVec 5) (ec : BitVec 3) (s : State) : Host.Outcome State Fault Refusal :=
  s.engineWord p ec 32 8 false (fun va m s =>
    s.checked [fieldFail va (commFields m)] (s.enqueue { s.command 3 ec with addr := BitVec.ofNat 64 va, src := m } 1))

/-! ### The object agent -/

/-- A word of the object agent: its identifier must name an object of the partition (R175). -/
def State.objectWord (s : State) (p : BitVec 5) (ec : BitVec 3) : Host.Outcome State Fault Refusal :=
  s.engineReg p ec [] [] (fun w s =>
    s.checked [failIf (!((FMap.look s.objects w.toNat).any (fun o => o.part == s.partOf s.me))) 0x85 0 0]
      (s.enqueue { s.command 4 ec with operand := w, objs := [w.toNat] } 1))

/-- OBJFREE (R175). -/
def execObjfree (p : BitVec 5) (ec : BitVec 3) (s : State) : Host.Outcome State Fault Refusal := s.objectWord p ec
/-- TOKREQ (R175). -/
def execTokreq (p : BitVec 5) (ec : BitVec 3) (s : State) : Host.Outcome State Fault Refusal := s.objectWord p ec
/-- TOKREL (R175). -/
def execTokrel (p : BitVec 5) (ec : BitVec 3) (s : State) : Host.Outcome State Fault Refusal := s.objectWord p ec

/-- OBJDECL (R175): the record is read and checked at issue, the result follows. -/
def execObjdecl (p sd : BitVec 5) (s : State) : Host.Outcome State Fault Refusal :=
  let va := (s.me.sPair p.toNat).toNat
  .next (s.eGate [sreg p, sreg p + 1] [sreg sd] false true false
    (s.withBlock va 128 128 (fun b s =>
      s.checked [fieldFail va (shapeFields b ++ [((shapeOf b).space != 0, 8)])]
        (({ s with
            producers := FMap.put s.producers s.fresh { kind := .objdecl, group := s.cur, sdests := [(sd.toNat, 0)], block := b }
            fresh := s.fresh + 1 }.onMe (fun g => g.emptyS sd.toNat)).advance 1 1))))

end Sys2Proof.Machine
end

