-- ==== Sys2Proof/Machine/VecX.lean ====
section
/-! DEFINITION. Extended vector words, class X (05, R116 to R125): fused multiply-add, select, conversions, packing, dequantisation, bit
fields and division. Each takes two words of its clause. -/
namespace Sys2Proof.Machine

/-- The column of an X word whose sources are of a type (R42). -/
def colOfType (t : BitVec 4) : Col :=
  match t.toNat with
  | 0 => .f32
  | 1 => .bf16
  | 2 => .f16
  | _ => .int

/-- VFMA3 (R117): D := round(A × B + C), one rounding; packed halves for BF16 and F16. -/
def fma3Word (fmt : Nat) (mode : RMode) (key : Word) (l : Nat) (a b c : Word) : Word × FpFlags :=
  match fmt with
  | 0 => (f32.finish mode (r16Of key a l 0) ((asF32 a).fma mode (asF32 b) (asF32 c))).word
  | t => packed2 (fmtOf t) mode key a l
      (fun j => (half (fmtOf t) a j).fma mode (half (fmtOf t) b j) (half (fmtOf t) c j))

/-- VFMA3 (R117). -/
def execVfma3 (d a b c : BitVec 7) (ea eb : Bool) (pg : BitVec 5) (neg : Bool) (rm : BitVec 3) (st _dt : BitVec 4) (s : State) :
    Host.Outcome State Fault Refusal :=
  s.vecWord [(a.toNat, ea), (b.toNat, eb), (c.toNat, false)] (destRegs d) 2 (s.pa s.me) (guarded pg neg) (fun g l n =>
    let col := colOfType st
    n.result d (fma3Word st.toNat (RMode.ofCode rm.toNat) g.fpKey l (g.src col l a.toNat) (g.src col l b.toNat) (g.src col l c.toNat)))

/-- VSEL (R118): every active lane writes; pg selects. -/
def execVsel (d a b : BitVec 7) (ea eb : Bool) (pg : BitVec 5) (neg : Bool) (s : State) : Host.Outcome State Fault Refusal :=
  s.vecWord [(a.toNat, ea), (b.toNat, eb)] (destRegs d) 2 (s.pa s.me) always (fun g l n =>
    n.result d (if n.guard pg neg then g.src .int l a.toNat else g.src .int l b.toNat, 0))

/-- An integer in another integer type (R54): widening sign-extends a signed source and zero-extends an unsigned one; narrowing saturates. Types
of one width differ only in sign, and the spec names them under neither: they saturate (DESIGN CHOICE, log entry 63). -/
def intToInt (st dt : Nat) (i : Int) : Nat :=
  bitsOfInt (typeWidth dt) (if typeWidth st < typeWidth dt then i else clampInt (intRange dt) i)

/-- The conversion of one element (R52, R53, R54): type codes of the source and the destination, and the element's pattern. -/
def convElem (st dt : Nat) (mode : RMode) (r16 bits : Nat) : Rounded :=
  if st < 8 then
    let v := (fmtOf st).value bits
    if dt < 8 then
      let r := (fmtOf dt).round mode r16 v
      ⟨r.bits, r.flags ||| flagIf v.isSnan flagNV⟩
    else toIntType dt mode r16 v
  else
    let i := intOfBits st bits
    if dt < 8 then (fmtOf dt).round mode r16 (FVal.ofInt i)
    else ⟨intToInt st dt i, 0⟩

/-- One element converted from A into D (R120): a 32-bit destination replaces D, a narrower one is merged into it. -/
def cvtWord (st dt js jd : Nat) (mode : RMode) (key : Word) (l : Nat) (a d : Word) : Word × FpFlags :=
  let r := convElem st dt mode (r16Of key a l jd) (elemOf st a js)
  (if typeWidth dt = 32 then BitVec.ofNat 32 r.bits else setElem dt d jd r.bits, r.flags)

/-- A conversion word (R120); D is read when part of it is kept. -/
def cvtOp (d a : BitVec 7) (ea : Bool) (pg : BitVec 5) (neg : Bool) (rm : BitVec 3) (st dt : BitVec 4) (js jd : BitVec 3) (s : State) :
    Host.Outcome State Fault Refusal :=
  s.vecWord ((a.toNat, ea) :: (if typeWidth dt.toNat = 32 then [] else [(d.toNat, false)])) (destRegs d) 2 (s.pa s.me) (guarded pg neg)
    (fun g l n => n.result d (cvtWord st.toNat dt.toNat js.toNat jd.toNat (RMode.ofCode rm.toNat) g.fpKey l
      (g.src (colOfType st) l a.toNat) (g.src .int l d.toNat)))

/-- VCVT (R120): float to float. -/
def execVcvt (d a : BitVec 7) (ea : Bool) (pg : BitVec 5) (neg : Bool) (rm : BitVec 3) (st dt : BitVec 4) (js jd : BitVec 3)
    (s : State) : Host.Outcome State Fault Refusal := cvtOp d a ea pg neg rm st dt js jd s
/-- VCVTI (R120): to an integer type. -/
def execVcvti (d a : BitVec 7) (ea : Bool) (pg : BitVec 5) (neg : Bool) (rm : BitVec 3) (st dt : BitVec 4) (js jd : BitVec 3)
    (s : State) : Host.Outcome State Fault Refusal := cvtOp d a ea pg neg rm st dt js jd s
/-- VCVTF (R120): integer to float. -/
def execVcvtf (d a : BitVec 7) (ea : Bool) (pg : BitVec 5) (neg : Bool) (rm : BitVec 3) (st dt : BitVec 4) (js jd : BitVec 3)
    (s : State) : Host.Outcome State Fault Refusal := cvtOp d a ea pg neg rm st dt js jd s

/-- The word VPACK makes (R121): the two elements side by side at half h for the 8-bit types, else filling the word. -/
def packWord (st dt h : Nat) (mode : RMode) (key : Word) (l : Nat) (a b d : Word) : Word × FpFlags :=
  let x := convElem st dt mode (r16Of key a l 0) a.toNat
  let y := convElem st dt mode (r16Of key a l 1) b.toNat
  let w := typeWidth dt
  let low := if w = 16 then 0 else 2 * h
  (setElem dt (setElem dt (if w = 16 then 0 else d) low x.bits) (low + 1) y.bits, x.flags ||| y.flags)

/-- VPACK (R121); the 8-bit forms read D. -/
def execVpack (d a b : BitVec 7) (ea eb : Bool) (pg : BitVec 5) (neg : Bool) (rm : BitVec 3) (st dt : BitVec 4) (h : Bool) (s : State) :
    Host.Outcome State Fault Refusal :=
  s.vecWord ((a.toNat, ea) :: (b.toNat, eb) :: (if typeWidth dt.toNat = 16 then [] else [(d.toNat, false)])) (destRegs d) 2 (s.pa s.me)
    (guarded pg neg) (fun g l n => n.result d (packWord st.toNat dt.toNat h.toNat (RMode.ofCode rm.toNat) g.fpKey l
      (g.src (colOfType st) l a.toNat) (g.src (colOfType st) l b.toNat) (g.src .int l d.toNat)))

/-- VUNPACK (R122): two adjacent elements widened into a pair; lr gets the low word. -/
def execVunpack (d a : BitVec 7) (ea : Bool) (pg : BitVec 5) (neg : Bool) (st dt : BitVec 4) (j : BitVec 3) (s : State) :
    Host.Outcome State Fault Refusal :=
  s.vecWord [(a.toNat, ea)] [d.toNat, d.toNat + 1] 2 (s.pa s.me) (guarded pg neg) (fun g l n =>
    let w := g.src (colOfType st) l a.toNat
    let x := convElem st.toNat dt.toNat .rne 0 (elemOf st.toNat w j.toNat)
    let y := convElem st.toNat dt.toNat .rne 0 (elemOf st.toNat w (j.toNat + 1))
    (((n.setReg (d.toNat + 1) (BitVec.ofNat 32 y.bits)).result d x.word)).orFlags y.flags)

/-! ### Dequantisation -/

/-- Elements of the operand that one lane holds (R123). -/
def deqK (st : Nat) (set : Bool) : Nat :=
  if set then 32 else
  match st with
  | 3 | 4 | 12 => 4
  | 7 | 14 => 8
  | _ => 16

/-- Registers of the set form: six for FP6, four for E2M1 (R123). -/
def setRegs (st : Nat) : Nat := if st = 7 then 4 else 6

/-- The lane that holds the scale of the block of lane l's elements (R57). -/
def scaleLane (k l : Nat) : Nat := 32 * (k * l / 32) / k

/-- The bit string of a register set, the lowest-numbered register lowest (R47). -/
def bitString : List Word → Nat
  | [] => 0
  | w :: ws => w.toNat + 2 ^ 32 * bitString ws

/-- The scale that a lane's element is read against (R57, R58): a never-launched scale lane supplies a zero scale. -/
def Group.scaleOf (g : Group) (k l c : Nat) : Option FVal :=
  let m := scaleLane k l
  if (g.lane m).cond = .never ∧ c ≤ 72 then some (.fin false 0 0)
  else bs20 ((g.src .int m c).toNat % 2 ^ 20)

/-- Element j of a lane as an exact value (R44, R45, R60). -/
def Group.deqElem (g : Group) (l a b st j : Nat) (set : Bool) : FVal :=
  if set then
    let str := bitString ((List.range (setRegs st)).map (fun i => (g.lane l).reg (a + i)))
    (fmtOf st).value (str / 2 ^ (typeWidth st * j) % 2 ^ typeWidth st)
  else if st = 15 then vq2 (g.src .int l b).toNat ((g.src .int l a).toNat / 2 ^ (16 * (j / 8)) % 2 ^ 16) (j % 8)
  else if st < 8 then (fmtOf st).value (elemOf st (g.src .int l a) j)
  else FVal.ofInt (intOfBits st (elemOf st (g.src .int l a) j))

/-- The sources of VDEQ: A (each register of a set), B for VQ2, and C in the scale lanes of the active lanes (R58, R123). A register of a set that
is empty under action 1 is named by its own number in DETAIL, which the spec does not say (DESIGN CHOICE, log entry 62). -/
def Group.deqSrcs (g : Group) (a b c st : Nat) (ea eb set : Bool) : List (LaneSet × Nat × Bool) :=
  let m := g.run.act
  let k := deqK st set
  (if set then (List.range (setRegs st)).map (fun i => (m, a + i, ea)) else [(m, a, ea)])
    ++ (if st = 15 then [(m, b, eb)] else [])
    ++ [(setOf (fun x => (lanesIn m).any (fun l => scaleLane k l == x) && (g.lane x).cond != .never), c, false)]

/-- VDEQ (R123): one element times its block scale, rounded once; a BF16 result fills the low half. The random bits of a stochastic rounding take
the source index j and, in the set form, the first register A as abits: the spec names neither (DESIGN CHOICE, log entry 64). -/
def execVdeq (d a b c : BitVec 7) (ea eb : Bool) (pg : BitVec 5) (neg : Bool) (rm : BitVec 3) (st dt : BitVec 4) (j : BitVec 5)
    (set : Bool) (s : State) : Host.Outcome State Fault Refusal :=
  let srcs := s.me.deqSrcs a.toNat b.toNat c.toNat st.toNat ea eb set
  s.vecGated (s.me.gateOn srcs ((destRegs d).map (fun r => (s.me.run.act, r)))) 2 (s.pa s.me) (guarded pg neg) (fun g l n =>
    let x := scaleBy (g.scaleOf (deqK st.toNat set) l c.toNat) (g.deqElem l a.toNat b.toNat st.toNat j.toNat set)
    n.result d ((fmtOf dt.toNat).finish (RMode.ofCode rm.toNat) (r16Of g.fpKey (g.src .int l a.toNat) l j.toNat) x).word) (destRegs d) false

/-! ### Bit fields and division -/

/-- A field position and the bits in range (R124): B[4:0], and B[13:8] held to what lies below bit 32. -/
def fieldOf (b : Word) : Nat × Nat :=
  let pos := b.toNat % 32
  (pos, min (min (b.toNat / 2 ^ 8 % 64) 32) (32 - pos))

/-- VBFE's result (R124). -/
def extractField (sx : Bool) (a b : Word) : Word :=
  let p := fieldOf b
  let f := a.toNat / 2 ^ p.1 % 2 ^ p.2
  if sx && decide (0 < p.2) && decide (2 ^ (p.2 - 1) ≤ f) then BitVec.ofInt 32 ((f : Int) - 2 ^ p.2) else BitVec.ofNat 32 f

/-- VBFI's result (R124). -/
def insertField (a b c : Word) : Word :=
  let p := fieldOf b
  let m : Word := BitVec.ofNat 32 ((2 ^ p.2 - 1) * 2 ^ p.1)
  (c &&& ~~~m) ||| ((a <<< p.1) &&& m)

/-- VBFE (R124). -/
def execVbfe (d a b : BitVec 7) (ea eb : Bool) (pg : BitVec 5) (neg sx : Bool) (s : State) : Host.Outcome State Fault Refusal :=
  s.vecWord [(a.toNat, ea), (b.toNat, eb)] (destRegs d) 2 (s.pa s.me) (guarded pg neg) (fun g l n =>
    n.result d (extractField sx (g.src .int l a.toNat) (g.src .int l b.toNat), 0))
/-- VBFI (R124). -/
def execVbfi (d a b c : BitVec 7) (ea eb : Bool) (pg : BitVec 5) (neg : Bool) (s : State) : Host.Outcome State Fault Refusal :=
  s.vecWord [(a.toNat, ea), (b.toNat, eb), (c.toNat, false)] (destRegs d) 2 (s.pa s.me) (guarded pg neg) (fun g l n =>
    n.result d (insertField (g.src .int l a.toNat) (g.src .int l b.toNat) (g.src .int l c.toNat), 0))

/-- The quotient of R125, truncated toward zero; the corner cases are the table's. -/
def divWord (st : Nat) (a b : Word) : Word :=
  if b = 0 then 0xFFFFFFFF
  else if st = 8 then BitVec.ofInt 32 (a.toInt.tdiv b.toInt) else a / b

/-- The remainder of R125, with the sign of A. -/
def remWord (st : Nat) (a b : Word) : Word :=
  if b = 0 then a
  else if st = 8 then BitVec.ofInt 32 (a.toInt.tmod b.toInt) else a % b

/-- VIDIV (R125), 8 slice cycles a pass (R106). -/
def execVidiv (d a b : BitVec 7) (ea eb : Bool) (pg : BitVec 5) (neg : Bool) (st _dt : BitVec 4) (s : State) :
    Host.Outcome State Fault Refusal :=
  s.vecWord [(a.toNat, ea), (b.toNat, eb)] (destRegs d) 2 (8 * s.pa s.me) (guarded pg neg) (fun g l n =>
    n.result d (divWord st.toNat (g.src .int l a.toNat) (g.src .int l b.toNat), 0))
/-- VIREM (R125), 8 slice cycles a pass (R106). -/
def execVirem (d a b : BitVec 7) (ea eb : Bool) (pg : BitVec 5) (neg : Bool) (st _dt : BitVec 4) (s : State) :
    Host.Outcome State Fault Refusal :=
  s.vecWord [(a.toNat, ea), (b.toNat, eb)] (destRegs d) 2 (8 * s.pa s.me) (guarded pg neg) (fun g l n =>
    n.result d (remWord st.toNat (g.src .int l a.toNat) (g.src .int l b.toNat), 0))

end Sys2Proof.Machine
end

