-- ==== Sys2Proof/Machine/EngineRun.lean ====
section
/-! DEFINITION. What the engines do with a command (15, R168 to R173, R241, R247, R252 to R267, R403): when it starts, what it owns, its effect at
completion, its status word and the decrement of its counter. -/
namespace Sys2Proof.Machine

/-! ### Reads and writes of a unit -/

/-- Global bytes read by a command where their address leads: the bytes, or the underlying cause (R171, R172). A read of another module is a flit, and one
that no window answers is counted (R380, R388). -/
def State.engReadAt (s : State) (c : Command) (at_ : Target) (n : Nat) : State × Except Nat (List (BitVec 8)) :=
  match at_ with
  | .bad k _ => (s, .error k)
  | .ok .host pa =>
    if (wordsIn pa n).any (fun w => FMap.has s.hostErr w) then (s, .error 0x3A) else (s, .ok (Mem.readBytes s.hostMem pa n))
  | .ok .fabric pa =>
    let s := s.flit c.part 1
    if s.remoteOpen c.part pa n then (s, .ok (s.remoteRead c.part pa n)) else (s.countErr c.part 3 1, .error 0x92)
  | .ok _ pa =>
    if (wordsIn pa n).any (fun w => FMap.has s.poison w) then (s, .error 0x92)
    else (s, .ok (s.viewBytes c.cluster pa n))

/-- The element of an accumulator store. -/
def Cluster.accAt (c : Cluster) (e row col : Nat) : Word := FMap.at 0 (if e = 0 then c.acc0 else c.acc1) (row % 256 * 256 + col % 256)

/-- The cluster with an element of an accumulator store written; its poison is cleared. -/
def Cluster.setAcc (c : Cluster) (e row col : Nat) (v : Word) : Cluster :=
  let k := row % 256 * 256 + col % 256
  let c := { c with accPoison := FMap.del c.accPoison (e * 65536 + k) }
  if e = 0 then { c with acc0 := FMap.put c.acc0 k v } else { c with acc1 := FMap.put c.acc1 k v }

/-- A place read by a command, its global bytes line by line (R225); a row or column past 255, which only an index list gives, is cause 0x84 (R261; DEDUCED, log entry 71). -/
def State.engRead (s : State) (c : Command) (l : Loc) : State × Except Nat (List (BitVec 8)) :=
  match l with
  | .glob va n =>
    (lineSplit va n).foldl (fun acc p =>
      match acc.2 with
      | .error k => (acc.1, .error k)
      | .ok bs =>
        match acc.1.engReadAt c (acc.1.target c.cluster c.part .read p.1) p.2.1 with
        | (s, .ok more) => (s, .ok (bs ++ more))
        | (s, .error k) => (s, .error k)) (s, .ok [])
  | .scr off n =>
    let t := s.team c.team
    let cl := s.cluster c.cluster
    if t.scrSize < off + n then (s, .error 0x34)
    else if (wordsIn (t.scrBase + off) n).any (fun w => FMap.has cl.scrPoison w) then (s, .error 0x92)
    else (s, .ok (Mem.readBytes cl.scratch (t.scrBase + off) n))
  | .acc e row col =>
    let cl := s.cluster c.cluster
    if 255 < row ∨ 255 < col then (s, .error 0x84)
    else if FMap.has cl.accPoison (e * 65536 + row % 256 * 256 + col % 256) then (s, .error 0x92)
    else (s, .ok (leBytes 4 (cl.accAt e row col).toNat))

/-- Where a global byte that a command writes lies: as its line translated when the command started (R226), or as it translates for a status word. -/
def State.engTarget (s : State) (c : Command) (va : Nat) : Target :=
  match FMap.look c.xlat (va / 128) with
  | some (.ok sp pa) => .ok sp (pa + va % 128)
  | some t => t
  | none => s.target c.cluster c.part .write va

/-- Global bytes written by a command, or the underlying cause: host and fabric memory take the write outside a level (R267, R297); past a log's
capacity nothing is written (R298). A store that leaves for another module is counted as sent, dropped there or not (R267). -/
def State.engWritePiece (s : State) (c : Command) (va : Nat) (bs : List (BitVec 8)) : State × Option Nat :=
  match s.engTarget c va with
  | .bad k _ => (s, some k)
  | .ok .global pa =>
    match s.logLines c.team (linesOf pa bs.length) with
    | none => (s, some 0x62)
    | some s => (s.writePhys (some c.cluster) pa bs [], none)
  | .ok sp pa =>
    if (s.team c.team).rlevel ≠ 0 then (s, some 0x66)
    else if sp = .host then ({ s with hostMem := Mem.writeBytes s.hostMem pa bs }, none)
    else (s.fabricStore c.part pa bs, none)

/-- A place written by a command. -/
def State.engWrite (s : State) (c : Command) (l : Loc) (bs : List (BitVec 8)) : State × Option Nat :=
  match l with
  | .glob va n =>
    (lineSplit va n).foldl (fun acc p =>
      match acc.2 with
      | some k => (acc.1, some k)
      | none => acc.1.engWritePiece c p.1 ((bs.drop p.2.2).take p.2.1)) (s, none)
  | .scr off n =>
    let t := s.team c.team
    if t.scrSize < off + n then (s, some 0x34)
    else
      match s.logWords c.team c.cluster (wordsIn off n) with
      | none => (s, some 0x62)
      | some s =>
        let base := t.scrBase
        (s.onCluster c.cluster (fun k => { k with
          scratch := Mem.writeBytes k.scratch (base + off) bs
          scrErr := (wordsIn (base + off) n).foldl FMap.del k.scrErr
          scrPoison := (wordsIn (base + off) n).foldl FMap.del k.scrPoison }), none)
  | .acc e row col =>
    if 255 < row ∨ 255 < col then (s, some 0x84) else
    (s.onCluster c.cluster (fun k => k.setAcc e row col (BitVec.ofNat 32 (leNat bs))), none)

/-! ### Lines and tokens -/

/-- A line is not free for a command (R172, R241, R242): it is tentative elsewhere, a region has written it, or accesses that arrived earlier waited there. -/
def State.lineShut (s : State) (n : Nat) (c : Command) (ln : Nat) : Bool :=
  s.foreignLine c.team ln || s.arrivedBefore n ln || (List.range 4).any (fun i => s.regionSector (4 * ln + i))

/-- A line is not free as a source (R172): it is shut, or a command that took its lines earlier owns it. -/
def State.lineTaken (s : State) (n : Nat) (c : Command) (ln : Nat) : Bool :=
  s.lineShut n c ln || s.commands.any (fun p => decide (p.2.begun < c.begun) && p.2.owned.contains ln)

/-- A line cannot be taken as a destination (R169, R241): it is shut, another command owns it, or a store that stands in an L1 is still to be
performed there. -/
def State.lineHeld (s : State) (n : Nat) (c : Command) (ln : Nat) : Bool :=
  s.lineShut n c ln || s.commands.any (fun p => p.1 != n && p.2.owned.contains ln) ||
  s.accesses.any (fun (_, a) => a.parts.any (fun p => p.entered.isSome && !p.done && p.addr / 128 == ln))

/-- A scratchpad line that a command reads is absent, by a command that took its lines earlier (R254). What a later command clears it meets as it stood: that
command writes at its own completion. -/
def State.awaited (s : State) (c : Command) (ln : Nat) : Bool :=
  FMap.has (s.cluster c.cluster).absent ln && !c.cleared.contains ln &&
  !s.commands.any (fun p => p.2.cluster == c.cluster && decide (c.begun < p.2.begun) && p.2.cleared.contains ln)

/-- Room for a line in the caches that a command's access of it uses; lines that the command owns itself do not bar it (R219). -/
def State.engRoom (s : State) (c : Command) (own : List Nat) (ln : Nat) : Bool :=
  (s.cluster c.cluster).hasLine ln || (s.holderOf ln).isSome || s.llcRoomBut (fun x => own.contains x) ln

/-- The objects among some lines whose token the command's cluster does not hold. -/
def State.tokensMissing (s : State) (c : Command) (lines : List Nat) : List Nat :=
  ((lines.filterMap s.objectOf).dedup).filter (fun o => (FMap.look s.objects o).any (fun ob => ob.holder != some c.cluster))


/-! ### Starting (R168, R169 step 5, R241, R255) -/

/-- Commands of the same unit of the cluster that came before. -/
def State.earlier (s : State) (n : Nat) (c : Command) : List Command :=
  (s.commands.filter (fun p => decide (p.1 < n) && p.2.cluster == c.cluster && p.2.unit == c.unit)).map (·.2)

/-- Commands that begin only when every earlier command of their engine has finished, and hold the next one back (R256). -/
def aloneOp (op : Nat) : Bool := op == 0x01 || op == 0x02 || op == 0x03

/-- A command's destinations: global lines and scratchpad lines. -/
def State.destLines (s : State) (c : Command) : List Nat × List Nat := (s.globLines c .write c.writes, s.scrLines c c.writes)

/-- The command as it stands when it looks at its index list: the list is read then (R264). -/
def State.withList (s : State) (c : Command) : Command :=
  match c.listLoc with
  | l :: _ => match s.engRead c l with
    | (_, .ok bs) => { c with table := bs }
    | (_, .error k) => { c with failed := some k }
  | [] => c

/-- An earlier command of the cluster, of another unit, has still to start and to take a scratchpad line that a command reads (R254); between two
add-on-stores whose tiles share the line the one that takes it first goes first (R259). -/
def State.laterCopy (s : State) (n : Nat) (c : Command) (dest : List Nat) (ln : Nat) : Bool :=
  s.commands.any (fun p => decide (p.1 < n) && p.2.cluster == c.cluster && p.2.unit != c.unit && !p.2.started &&
    !(decide (p.2.unit < 2) && dest.contains ln) && (s.scrLines p.2 (s.withList p.2).writes).contains ln)

/-- The lines of a command's global destinations by VA / 128, each as it translates now (R226). -/
def State.destXlat (s : State) (c : Command) : FMap Target :=
  ((c.writes.flatMap (fun l => match l with
    | .glob va n => (linesOf va n).map (fun ln => ln % 2 ^ 57)
    | _ => [])).dedup).foldl (fun m ln => FMap.put m ln (s.target c.cluster c.part .write (ln * 128))) []

/-- The codebook bank that a CBLOAD would fill: the inactive one once the loads queued before it have completed (R173, R255). -/
def State.bankToFill (s : State) (n : Nat) (c : Command) : Nat :=
  let cl := s.cluster c.cluster
  ((if c.eng = 0 then cl.book0 else cl.book1) + 1 + ((s.earlier n c).filter (fun b => b.op == 0x09)).length) % 2

/-- The errors of the index list's scratchpad words come to light before it is read (R212). -/
def State.checkList (s : State) (c : Command) : State :=
  (s.scrLines c c.listLoc).foldl (fun s ln => s.checkScratch c.part c.cluster (128 * ln) 128) s

/-- A command may start (R168, R169, R173, R219, R241, R254, R255, R362). Its lines and its tokens are taken together: every line is free, and every token that its
cluster does not hold may pass to it now. -/
def State.canStart (s : State) (n : Nat) (c0 : Command) : Bool :=
  let c := s.withList c0
  let before := s.earlier n c
  let d := s.destLines c
  let cl := s.cluster c.cluster
  !c.started && cl.frozen.isNone &&
  s.nearDone c.group (setOf (fun _ => true)) c.upto &&
  (if c.unit = 4 then before.all (fun b => b.objs != c.objs) else before.all (·.started)) &&
  (!(aloneOp c.op) || before.isEmpty) && (decide (2 ≤ c.unit) || before.all (fun b => !aloneOp b.op)) &&
  (c.op != 0x00 || before.all (fun b => b.op != 0x09)) &&
  (c.op != 0x09 || before.all (fun b => b.op != 0x00 || b.bank != s.bankToFill n c)) &&
  (s.scrLines c c.listLoc).all (fun ln => !FMap.has cl.absent ln) &&
  d.2.all (fun ln => !FMap.has cl.absent ln) &&
  (s.scrLines c (c.listLoc ++ c.reads)).all (fun ln => !s.laterCopy n c d.2 ln) &&
  d.1.all (fun ln => !s.lineHeld n c ln && s.engRoom c d.1 ln) &&
  (s.tokensMissing c d.1).all (fun k => (FMap.look s.objects k).any (fun o => s.passable c.cluster o))

/-- The children of a member in the tree, ascending (R266). -/
def treeChildren (fan size r : Nat) : List Nat := ((List.range fan).map (fun i => fan * r + i + 1)).filter (fun k => decide (k < size))

/-- The relabelled rank (R266). -/
def CollBlk.place (p : CollBlk) (m : CommRec) : Nat :=
  let root := if p.kind = 1 ∨ p.kind = 2 then p.root else 0
  (m.rank + m.size - root % m.size) % m.size

/-- The packets that a collective sends: its own vector or partial result to its parent, what it has from its parent to its children; in an all-gather its
vector to every other member (R266). -/
def CollBlk.sends (p : CollBlk) (m : CommRec) : Nat :=
  let r := p.place m
  let up := if r = 0 then 0 else 1
  let down := (treeChildren m.fan m.size r).length
  match p.kind with
  | 1 => up
  | 2 => down
  | 3 => m.size - 1
  | _ => up + down

/-- The members of a communicator that are down, as far as their numbers can be read, or all of the others where the partition's own traffic is closed
(R267, R389, R397). -/
def State.membersDown (s : State) (c : Command) : Bool :=
  let m := commOf c.src
  (decide (1 < m.size) && s.closed c.part) ||
  (List.range m.size).any (fun i =>
    match (s.engRead c (.glob (m.members + 4 * i) 4)).2 with
    | .ok bs => decide (i ≠ m.rank) && FMap.has s.down (leNat bs)
    | .error _ => false)

/-- A collective's packets are counted as sent when it starts (R267, R380; DESIGN CHOICE, log entry 15). -/
def State.countPackets (s : State) (c : Command) : State :=
  if c.op = 0x08 ∧ !s.membersDown c then
    let k := (collBlk c.block).sends (commOf c.src)
    (s.onPart c.part (fun q => { q with sent := q.sent + BitVec.ofNat 64 k })).flit c.part k
  else s

/-- The pages of a command's global destinations. -/
def Command.destPages (c : Command) : List Nat := (c.writes.flatMap (fun l => match l with | .glob va n => pagesOf va n | _ => [])).dedup

/-- ENGINE_COMMAND_START (R169 step 5): lines and tokens are taken, presence bits cleared, an MMA latches the current codebook bank (R255), the translations
of its destinations are cached (R225). -/
def State.startCommand (s : State) (n : Nat) : State :=
  match FMap.look s.commands n with
  | none => s
  | some c0 =>
    if !s.canStart n c0 then s
    else
      let s := s.checkList c0
      let c := s.withList c0
      let d := s.destLines c
      let cl := s.cluster c.cluster
      let c := { c with
        started := true, owned := d.1, cleared := d.2, xlat := s.destXlat c, bank := if c.eng = 0 then cl.book0 else cl.book1, startTick := s.tick
        begun := s.fresh }
      let s := { (s.countPackets c).cachePages c.cluster c.part .write c.destPages with fresh := s.fresh + 1 }
      let s := (s.tokensMissing c d.1).foldl (fun s k => s.passToken k (some c.cluster)
        (match FMap.look s.objects k with | some o => o.requests.drop 1 | none => [])) s
      -- an owned line stands in no L1 (R215): a thread fetches it as a miss afterwards
      let s := d.1.foldl (fun s ln => ((s.clusters.filter (fun k => k.2.hasLine ln)).map (·.1)).foldl (fun s k => s.evictLine k ln) s) s
      { s with commands := FMap.put s.commands n c }.onCluster c.cluster (fun k => { k with
        absent := d.2.foldl (fun m ln => FMap.put m ln ()) k.absent })

/-- ENGINE_COMMAND_START (R169). -/
def execEngineCommandStart (cmd : Nat) (s : State) : Host.Outcome State Fault Refusal := .next (s.startCommand cmd)

/-! ### The matrix product (R61 to R64, R251 to R255) -/

/-- What a command has done so far: the machine, the underlying cause that stopped it, rows, units done, flags. -/
structure Progress where
  s     : State
  fault : Option Nat := none
  rows  : Nat := 0
  done  : Nat := 0
  flags : FpFlags := 0

/-- Element k of a packed row of bytes (R47). -/
def packedElem (fmt : Nat) (bs : List (BitVec 8)) (k : Nat) : Nat := leNat bs / 2 ^ (typeWidth fmt * k) % 2 ^ typeWidth fmt

/-- The value of an element of a matrix format. -/
def elemValue (fmt bits : Nat) : FVal := if fmt < 8 then (fmtOf fmt).value bits else FVal.ofInt (intOfBits fmt bits)

/-- The down-converter (R63, R253): a conversion, so a signalling source sets invalid (R46, R52; DEDUCED for INV of R260, log entry 74). -/
def downConvert (p : MmaBlk) (row col : Nat) (v : Word) : Rounded :=
  let f := fmtOf p.afmt
  let x := f32.value v.toNat
  let r := if p.stoch then f.round .stochastic ((nqmix p.key (BitVec.ofNat 32 (row * 256 + col))).toNat % 2 ^ 16) x else f.round .rne 0 x
  ⟨r.bits, r.flags ||| flagIf x.isSnan flagNV⟩

/-- A value of A or B with the flags of getting it; none for a NaN scale under strict scales, or the cause of a read that failed. -/
abbrev Operand := FVal × FpFlags

/-- Element (m, k) of A (R251, R253). -/
def State.mmaA (s : State) (c : Command) (p : MmaBlk) (m k : Nat) : Except Nat Operand :=
  if p.asrc = 0 then
    match (s.engRead c (.scr (p.aoff + m * p.astr) (rowBytes p.afmt p.k))).2 with
    | .ok bs => .ok (elemValue p.afmt (packedElem p.afmt bs k), 0)
    | .error e => .error e
  else
    match (s.engRead c (.acc (p.asrc - 1) (p.arow + m) (p.acol + k))).2 with
    | .ok bs => let r := downConvert p (p.arow + m) (p.acol + k) (BitVec.ofNat 32 (leNat bs)); .ok (elemValue p.afmt r.bits, r.flags)
    | .error e => .error e

/-- The scale of a block of a row or column; exactly one where unscaled (R252). -/
def State.mmaScale (s : State) (c : Command) (scaled : Bool) (base block i : Nat) : Except Nat (Option FVal) :=
  if scaled then
    match (s.engRead c (.scr (base + 256 * block + 4 * i) 4)).2 with
    | .ok bs => .ok (bs20 (leNat bs % 2 ^ 20))
    | .error e => .error e
  else .ok (some (.fin false 1 0))

/-- Element (k, n) of B before any dequantisation (R59, R251). -/
def State.mmaB (s : State) (c : Command) (p : MmaBlk) (n k : Nat) : Except Nat FVal :=
  match (s.engRead c (.scr (p.boff + n * p.bstr) (rowBytes p.bfmt p.k))).2 with
  | .ok bs =>
    if p.bfmt = 15 then
      let idx := fieldAt bs (k / 8 * 2) 2
      let books := (s.cluster c.cluster).books
      .ok (vq2 (FMap.at (0 : Word) books ((p.eng * 2 + c.bank) * 256 + idx / 256)).toNat idx (k % 8))
    else .ok (elemValue p.bfmt (packedElem p.bfmt bs k))
  | .error e => .error e

/-- An exact sum of integers: its zero has no sign (R61, INT8). -/
def FVal.asInteger : FVal → FVal
  | .fin neg n e => .fin (neg && n != 0) n e
  | v => v

/-- The contribution of a chunk to an output element: the exact sum of exact products under the chunk's scales, rounded once into the
accumulator (R61, R62, R64). A sum that holds both infinities sets INV whatever else it holds, in whatever order (DESIGN CHOICE, log entry 85). -/
def State.mmaChunk (s : State) (c : Command) (p : MmaBlk) (chunk m n : Nat) (acc : Word) : Except Nat (Word × FpFlags) := do
  let len := p.chunk.getD 1
  let block := chunk * len / 32
  let sa ← s.mmaScale c p.ascaled p.ascl block m
  let sb ← s.mmaScale c p.bscaled p.bscl block n
  if p.strict ∧ (sa = none ∨ sb = none) then throw 0x88
  let nanScale : FpFlags := if sa = none ∨ sb = none then flagNV else 0
  let terms ← (List.range len).mapM (fun i => do
    let a ← s.mmaA c p m (chunk * len + i)
    let b ← s.mmaB c p n (chunk * len + i)
    let w : Operand :=
      if p.weightOnly then
        let r := bf16.finish .rne 0 (scaleBy sb b)
        (bf16.value r.bits, r.flags)
      else (b, 0)
    let x := a.1.mul w.1
    pure (x.1, x.2 ||| a.2 ||| w.2))
  let sum : Operand := match terms with
    | t :: ts => ts.foldl (fun x y => let z := x.1.add .rne y.1; (z.1, x.2 ||| y.2 ||| z.2)) t
    | [] => (.fin false 0 0, 0)
  let clash : FpFlags := flagIf (terms.any (fun t => t.1 == .inf false) && terms.any (fun t => t.1 == .inf true)) flagNV
  let sum : Operand := if p.afmt = 12 then (sum.1.asInteger, sum.2) else (sum.1, sum.2 ||| clash)
  let z : Operand :=
    if p.weightOnly then sum
    else
      let u := scaleBy sb sum.1
      let v := scaleBy sa u.1
      (v.1, sum.2 ||| u.2 ||| v.2)
  let q := (f32.value acc.toNat).add .rne z.1
  let r := f32.finish .rne 0 q
  pure (BitVec.ofNat 32 r.bits, r.flags ||| z.2 ||| nanScale)

/-- One chunk applied to every output element (R61). -/
def Progress.mmaStep (g : Progress) (c : Command) (p : MmaBlk) (chunk : Nat) : Progress :=
  match g.fault with
  | some _ => g
  | none =>
    let cells := (List.range p.m).flatMap (fun i => (List.range p.n).map (fun j => (i, j)))
    let new := cells.mapM (fun (i, j) => do
      let old : Word ←
        if chunk = 0 ∧ p.zero then pure 0
        else match (g.s.engRead c (.acc p.eng (p.row0 + i) (p.col0 + j))).2 with
          | .ok bs => pure (BitVec.ofNat 32 (leNat bs))
          | .error e => throw e
      let r ← g.s.mmaChunk c p chunk i j old
      pure (i, j, r))
    match new with
    | .error e => { g with fault := some e }
    | .ok rs =>
      { g with
        s := g.s.onCluster c.cluster (fun k => rs.foldl (fun k x => k.setAcc p.eng (p.row0 + x.1) (p.col0 + x.2.1) x.2.2.1) k)
        done := chunk + 1
        flags := rs.foldl (fun f x => f ||| x.2.2.2) g.flags }

/-! ### Drains (R257 to R259) -/

/-- A plain drain of one row (R258): a global destination in host memory faults with cause 0x36. -/
def Progress.drainRow (g : Progress) (c : Command) (d : DrainBlk) (i : Nat) : Progress :=
  match g.fault with
  | some _ => g
  | none =>
    let r := (List.range d.cols).foldl (fun (acc : State × Option Nat) j =>
      match acc.2 with
      | some _ => acc
      | none =>
        match (acc.1.engRead c (.acc d.eng (d.row0 + i) (d.col0 + j))).2 with
        | .error e => (acc.1, some e)
        | .ok bs =>
          let loc := drainLoc d.mode d.dest d.dstr i j
          let host := match loc with
            | .glob va _ => (match acc.1.engTarget c va with | .ok .host _ => true | _ => false)
            | _ => false
          if host then (acc.1, some 0x36) else acc.1.engWrite c loc bs) (g.s, none)
    { g with s := r.1, fault := r.2, rows := if r.2 = none then g.rows + 1 else g.rows }

/-- An add-on-store of the whole tile at one point (R259): every destination word is read, through the mapping by which it is written (R226), and added before
any is written. -/
def Progress.addOn (g : Progress) (c : Command) (d : DrainBlk) : Progress :=
  match g.fault with
  | some _ => g
  | none =>
    let cells := (List.range d.rows).flatMap (fun i => (List.range d.cols).map (fun j => (i, j)))
    let host := cells.any (fun (i, j) => match drainLoc d.mode d.dest d.dstr i j with
      | .glob va _ => (match g.s.engTarget c va with | .ok .host _ => true | _ => false)
      | _ => false)
    let bad := cells.findSome? (fun (i, j) => match drainLoc d.mode d.dest d.dstr i j with
      | .glob va _ => (match g.s.engTarget c va with | .bad k _ => some k | _ => none)
      | _ => none)
    let step (acc : State × Except Nat (List (Loc × Rounded))) (x : Nat × Nat) : State × Except Nat (List (Loc × Rounded)) :=
      match acc.2 with
      | .error _ => acc
      | .ok rs =>
        let loc := drainLoc d.mode d.dest d.dstr x.1 x.2
        let old := match loc with
          | .glob va n => acc.1.engReadAt c (acc.1.engTarget c va) n
          | _ => acc.1.engRead c loc
        match old.2, (acc.1.engRead c (.acc d.eng (d.row0 + x.1) (d.col0 + x.2))).2 with
        | .error e, _ => (old.1, .error e)
        | .ok _, .error e => (old.1, .error e)
        | .ok o, .ok a => (old.1, .ok (rs ++ [(loc, f32.finish .rne 0 ((f32.value (leNat o)).add .rne (f32.value (leNat a))))]))
    match bad.or (if host then some 0x36 else none) with
    | some e => { g with fault := some e }
    | none =>
    match cells.foldl step (g.s, .ok []) with
    | (s, .error e) => { g with s := s, fault := some e }
    | (s, .ok rs) =>
      let r := rs.foldl (fun (acc : State × Option Nat) x =>
        match acc.2 with | some _ => acc | none => acc.1.engWrite c x.1 (leBytes 4 x.2.bits)) (s, none)
      { g with
        s := r.1, fault := r.2, rows := if r.2 = none then d.rows else 0
        flags := rs.foldl (fun f x => f ||| x.2.flags) g.flags }

/-- A drain (R257). -/
def Progress.drain (g : Progress) (c : Command) (d : DrainBlk) : Progress :=
  if d.mode = 0 then g
  else if d.mode = 2 ∨ d.mode = 3 then g.addOn c d
  else (List.range d.rows).foldl (fun g i => g.drainRow c d i) g

/-! ### Copies (R262 to R264) -/

/-- The bits of an element at a place; FILL outside (R262). -/
def State.readElem (s : State) (c : Command) (h : Shape) (bit : Nat) (l : Option Loc) : State × Except Nat Nat :=
  match l with
  | none => (s, .ok (h.fill % 2 ^ typeWidth h.type))
  | some l => match s.engRead c l with
    | (s, .ok bs) => (s, .ok (leNat bs / 2 ^ bit % 2 ^ typeWidth h.type))
    | (s, .error e) => (s, .error e)

/-- Bytes of a destination as they stand, poisoned or not, line by line; zeros where no write can be made. -/
def State.rawBytes (s : State) (c : Command) (l : Loc) : List (BitVec 8) :=
  match l with
  | .glob va n => (lineSplit va n).flatMap (fun p => match s.engTarget c p.1 with
    | .ok .global pa => Mem.readBytes s.mem pa p.2.1
    | .ok .host pa => Mem.readBytes s.hostMem pa p.2.1
    | .ok .fabric pa => s.remoteRead c.part pa p.2.1
    | _ => List.replicate p.2.1 0)
  | .scr off n => Mem.readBytes (s.cluster c.cluster).scratch ((s.team c.team).scrBase + off) n
  | .acc .. => []

/-- An element's bits written at a place, the other bits of its bytes kept. -/
def State.writeElem (s : State) (c : Command) (h : Shape) (bit v : Nat) (l : Loc) : State × Option Nat :=
  let w := typeWidth h.type
  match l with
  | .acc .. => s.engWrite c l (leBytes 4 v)
  | .glob _ n | .scr _ n =>
    if bit = 0 ∧ w = 8 * n then s.engWrite c l (leBytes n v)
    else
      let old := leNat (s.rawBytes c l)
      s.engWrite c l (leBytes n (old - old / 2 ^ bit % 2 ^ w * 2 ^ bit + v % 2 ^ w * 2 ^ bit))

/-- The bit of an element in its byte. -/
def Shape.bitOf (h : Shape) (c0 : Int) : Nat := if h.accEngine.isSome then 0 else c0.toNat * typeWidth h.type % 8

/-- Column 0 coordinates of a pair: source and destination. -/
def Command.columns (c : Command) (i : Nat) : Int × Int :=
  let h := shapeOf c.src
  let k := shapeOf c.dst
  let w := k.box.getD 0 1
  (h.orig.getD 0 0 + ((i % w : Nat) : Int), k.orig.getD 0 0 + ((i % w : Nat) : Int))

/-- One element moved, converted where the types differ (R263). -/
def Progress.move (g : Progress) (c : Command) (i : Nat) (p : Option Loc × Option Loc) : Progress :=
  match g.fault with
  | some _ => g
  | none =>
    let h := shapeOf c.src
    let k := shapeOf c.dst
    let col := c.columns i
    match p.2 with
    | none => { g with done := g.done + 1 }
    | some dst =>
      match g.s.readElem c h (h.bitOf col.1) p.1 with
      | (s, .error e) => { g with s := s, fault := some e }
      | (s, .ok v) =>
        let r : Rounded := if h.type = k.type then ⟨v, 0⟩
          else convElem h.type k.type (RMode.ofCode (bitsAt (fieldAt c.block 24 4) 0 3)) 0 v
        let w := s.writeElem c k (k.bitOf col.2) r.bits dst
        { g with s := w.1, fault := w.2, done := if w.2 = none then g.done + 1 else g.done, flags := g.flags ||| r.flags }

/-! ### Collectives (R266, R267) -/

/-- The step of a reduction on an element type (R266): F32 and integer words as R130, BF16 rounded to BF16. -/
def collStep (type op : Nat) (x y : Nat) : Nat × FpFlags :=
  if type = 1 ∧ 8 ≤ op then
    if op = 8 then let r := bf16.finish .rne 0 ((bf16.value x).add .rne (bf16.value y)); (r.bits, r.flags)
    else
      let wide (v : Nat) : Word := BitVec.ofNat 32 (v * 2 ^ 16)
      let r := redOp op .rne (wide x) (wide y)
      (r.1.toNat / 2 ^ 16, r.2)
  else
    let r := redOp op .rne (BitVec.ofNat 32 x) (BitVec.ofNat 32 y)
    (r.1.toNat, r.2)

/-- A vector of elements as numbers. -/
def elemsOf (w : Nat) (bs : List (BitVec 8)) : List Nat := (List.range (bs.length / w)).map (fun i => fieldAt bs (w * i) w)

/-- What must have arrived from the peers before a collective can complete: kind of packet and relabelled rank. -/
def CollBlk.needs (p : CollBlk) (m : CommRec) : List (Nat × Nat) :=
  let r := p.place m
  let up := (treeChildren m.fan m.size r).map (fun k => (0, k))
  let down := if r = 0 then [] else [(1, (r - 1) / m.fan)]
  match p.kind with
  | 1 => up
  | 2 => down
  | 3 => ((List.range m.size).filter (fun k => k != r)).map (fun k => (0, k))
  | _ => up ++ down

/-- A packet of a communicator of a partition (R267: the identity is MEMBERS and KEY) that one of its collectives needs, by its number (R266); a PHASEEND
asks for no number. -/
def Packet.of (x : Packet) (part : Nat) (m : CommRec) (seq : Nat) (need : Nat × Nat) : Bool :=
  x.part == part && x.members == m.members && x.key == m.key && x.kind == need.1 && x.rank == need.2 && (x.kind == 2 || x.seq == seq % 2 ^ 32)

/-- The data of the packet of a kind from a rank. -/
def State.packet (s : State) (part : Nat) (m : CommRec) (seq : Nat) (need : Nat × Nat) : List (BitVec 8) :=
  match s.fabric.find? (fun x => x.of part m seq need) with | some x => x.data | none => []

/-- The first packet of each need is used up. -/
def usePackets (part : Nat) (m : CommRec) (fabric : List Packet) (needs : List (Nat × Nat)) : List Packet :=
  needs.foldl (fun l need => l.eraseP (fun x => x.of part m 0 need)) fabric

/-- The vector a collective delivers to this module, with the flags of the steps it made (R265, R266). -/
def State.collResult (s : State) (part : Nat) (p : CollBlk) (m : CommRec) (seq : Nat) (own : List Nat) : List Nat × FpFlags :=
  let r := p.place m
  let peer (k : Nat) : List Nat := elemsOf p.width (s.packet part m seq (0, k))
  let parent : List Nat := elemsOf p.width (s.packet part m seq (1, (r - 1) / m.fan))
  let up := treeChildren m.fan m.size r
  let combined := up.foldl (fun (x : List Nat × FpFlags) k =>
    let steps := (x.1.zip (peer k)).map (fun q => collStep p.type p.op q.1 q.2)
    (steps.map (·.1), steps.foldl (fun f q => f ||| q.2) x.2)) (own, 0)
  let total := if r = 0 then combined.1 else parent
  match p.kind with
  | 0 => (total, combined.2)
  | 1 => (if r = 0 then combined.1 else [], combined.2)
  | 2 => (if r = 0 then own else parent, 0)
  | 3 => ((List.range m.size).flatMap (fun k => if k = r then own else peer k), 0)
  | _ => ((total.drop (p.count * m.rank)).take p.count, combined.2)

/-- The PHASEENDs of the other members that a PHASEEND waits for (R267). -/
def phaseNeeds (m : CommRec) : List (Nat × Nat) := ((List.range m.size).filter (fun i => i != m.rank)).map (fun i => (2, i))

/-- The sums of sent and received counters over the members in one sweep (R267). -/
def State.sweep (s : State) (c : Command) (n : Nat) : DWord × DWord :=
  let m := commOf c.src
  let q := s.part c.part
  (List.range m.size).foldl (fun acc i =>
    if i = m.rank then (acc.1 + q.sent, acc.2 + q.received)
    else (acc.1 + Config.memberCount n (2 * i), acc.2 + Config.memberCount n (2 * i + 1))) (0, 0)

/-- A collective carried out (R266). -/
def Progress.collective (g : Progress) (c : Command) : Progress :=
  let p := collBlk c.block
  let m := commOf c.src
  if g.s.membersDown c then { g with fault := some 0x87 }
  else
    let own : State × Except Nat (List (BitVec 8)) :=
      if p.kind = 2 ∧ m.rank ≠ p.root then (g.s, .ok []) else g.s.engRead c (.glob p.src (p.width * p.inCount m))
    match own with
    | (s, .error e) => { g with s := s, fault := some e }
    | (s, .ok own) =>
      let r := s.collResult c.part p m c.seq (elemsOf p.width own)
      let out := r.1.take (p.outCount m)
      let w := (List.range out.length).foldl (fun (acc : State × Option Nat × Nat) i =>
        match acc.2.1 with
        | some _ => acc
        | none =>
          let x := acc.1.engWrite c (.glob ((p.dst + p.width * i) % 2 ^ 64) p.width) (leBytes p.width (out.getD i 0))
          (x.1, x.2, if x.2 = none then i + 1 else i))
        (s, none, 0)
      { g with s := w.1, fault := w.2.1, done := w.2.2, flags := r.2 }

/-! ### Completion (R170, R171, R403) -/

/-- The effect of a command at its unit (R173). -/
def Command.perform (c : Command) (s : State) : Progress :=
  let g : Progress := { s := s, fault := c.failed }
  if c.failed.isSome then g else
  match c.op with
  | 0x00 =>
    let p := mmaBlk c.block
    let g := (List.range (p.k / p.chunk.getD 1)).foldl (fun g i => g.mmaStep c p i) g
    g.drain c { eng := p.eng, mode := p.drain, row0 := p.row0, col0 := p.col0, rows := p.m, cols := p.n, dest := p.dest
                dstr := p.dstr, status := p.status }
  | 0x01 =>
    let v := c.operand.toNat
    let cells := (List.range (bitsAt v 16 8 + 1)).flatMap (fun i => (List.range (bitsAt v 24 8 + 1)).map (fun j => (bitsAt v 0 8 + i, bitsAt v 8 8 + j)))
    { g with s := s.onCluster c.cluster (fun k => cells.foldl (fun k x => k.setAcc c.eng x.1 x.2 0) k) }
  | 0x02 =>
    let v := c.operand.toNat
    { g with s := (lanesIn c.act).foldl (fun s l =>
        match (s.engRead c (.acc c.eng (bitsAt v 0 8) (bitsAt v 8 8 + l))).2 with
        | .ok bs => s.writeResult c.group l c.reg (BitVec.ofNat 32 (leNat bs)) false
        | .error _ =>
          let s := s.poisonRead c.team 0x92 1
          if (s.team c.team).rlevel = 0 then s.writeResult c.group l c.reg 0 false else s.markFull c.group l c.reg) s }
  | 0x03 =>
    let v := c.operand.toNat
    { g with s := s.onCluster c.cluster (fun k => c.vals.foldl (fun k x => k.setAcc c.eng (bitsAt v 0 8) (bitsAt v 8 8 + x.1) x.2) k) }
  | 0x04 => g.drain c (drainBlk c.block)
  | 0x05 | 0x06 | 0x07 =>
    let w := (shapeOf c.dst).box.getD 0 1
    let g := (c.pairs.mapIdx (fun i p => (i, p))).foldl (fun g x => g.move c x.1 x.2) g
    if c.op = 0x05 then g else { g with done := g.done / w }
  | 0x08 => g.collective c
  | 0x09 =>
    let inactive := 1 - (if c.eng = 0 then (s.cluster c.cluster).book0 else (s.cluster c.cluster).book1)
    { g with s := s.onCluster c.cluster (fun k =>
        let books := (List.range 256).foldl (fun m i =>
          FMap.put m ((c.eng * 2 + inactive) * 256 + i) (BitVec.ofNat 32 (fieldAt c.table (4 * i) 4))) k.books
        if c.eng = 0 then { k with books := books, book0 := inactive } else { k with books := books, book1 := inactive }) }
  | 0x0A =>
    { g with s := s.onCluster c.cluster (fun k =>
        { k with actBytes := Mem.writeBytes k.actBytes ((1 - k.actBank) * 4096) c.table, actBank := 1 - k.actBank, actGen := k.actGen + 1 }) }
  | 0x0C =>
    let t := c.objs.foldl (fun s k => match FMap.look s.objects k with | some o => s.drainHolder o | none => s) s
    { g with s := { t with objects := c.objs.foldl FMap.del t.objects } }
  | 0x0E =>
    { g with s := c.objs.foldl (fun s k => match FMap.look s.objects k with
      | some o => if o.holder = some c.cluster then s.passToken k none o.requests else s
      | none => s) s }
  | 0x19 =>
    if s.membersDown c then { g with fault := some 0x87 }
    else { g with
      s := { s with fabric := usePackets c.part (commOf c.src) s.fabric (phaseNeeds (commOf c.src)) }, done := (c.sweep.getD (0, 0)).1 }
  | _ => g

/-- A line lies in no object, or the token of its object rests at home or with a cluster. -/
def State.tokenAt (s : State) (cl line : Nat) (home : Bool) : Bool :=
  match s.objectOf line with
  | some o => (FMap.look s.objects o).any (fun ob => ob.holder == some cl || (home && ob.holder == none))
  | none => true

/-- The device line of a command's status word. -/
def State.statusLines (s : State) (c : Command) : List Nat := if c.status = 0 then [] else s.globLines c .write [.glob c.status 8]

/-- A started command may complete: earlier commands of its unit have, but for the object agent (R168), its sources are present and free (R172, R247,
R254), its status word's line is free and no object's whose token another has (R238), and an object command's condition holds (R175); a TOKREQ whose object another cluster has freed meanwhile has nothing
left to wait for (DESIGN CHOICE, log entry 93). -/
def State.canComplete (s : State) (n : Nat) (c : Command) : Bool :=
  let cl := s.cluster c.cluster
  c.started &&
  (decide (c.unit = 4) || (s.earlier n c).isEmpty) &&
  (s.scrLines c c.reads).all (fun ln => !s.awaited c ln) &&
  (s.globLines c .read c.reads).all (fun ln => !s.lineTaken n c ln && s.tokenAt c.cluster ln true && s.engRoom c c.owned ln) &&
  (s.statusLines c).all (fun ln => (c.owned.contains ln || (!s.lineHeld n c ln && s.engRoom c c.owned ln)) && s.tokenAt c.cluster ln false) &&
  (match c.op with
   | 0x0A => s.producers.all (fun p => !(p.2.bank == some (1 - cl.actBank) && (s.group p.2.group).cluster == c.cluster))
   | 0x0D => c.objs.all (fun k => (FMap.look s.objects k).all (fun o => o.holder == some c.cluster))
   | 0x0C => c.objs.all (fun k => (FMap.look s.objects k).all (fun o =>
        (List.range 160).all (fun i => !s.ownersOf n i o) && !s.storesDue o))
   | 0x0E => c.objs.all (fun k => (FMap.look s.objects k).all (fun o =>
        o.holder != some c.cluster || (!s.ownersOf n c.cluster o && !s.storesDue o)))
   | 0x08 => s.membersDown c || ((collBlk c.block).needs (commOf c.src)).all (fun k => s.fabric.any (fun x => x.of c.part (commOf c.src) c.seq k))
   | 0x19 => s.membersDown c || (phaseNeeds (commOf c.src)).all (fun k => s.fabric.any (fun x => x.of c.part (commOf c.src) 0 k))
   | _ => true)

/-- The status word (R260). -/
def Command.statusWord (c : Command) (g : Progress) : Nat :=
  g.fault.getD 0 + c.op * 2 ^ 8 + (if g.flags &&& flagNV != 0 then 2 ^ 16 else 0) + (if g.flags &&& flagOF != 0 then 2 ^ 17 else 0) +
  (if g.flags &&& flagUF != 0 then 2 ^ 18 else 0) + (if g.flags &&& flagNX != 0 then 2 ^ 19 else 0) + g.rows % 2 ^ 9 * 2 ^ 20 +
  g.done % 2 ^ 32 * 2 ^ 32

/-- The status word written with one store; the cause where it cannot be (R403). -/
def State.writeStatus (s : State) (c : Command) (w : Nat) : State × Option Nat :=
  if c.status = 0 then (s, none)
  else
    let s := s.noteWalk c.cluster c.part .write c.status
    match s.target c.cluster c.part .write c.status with
    | .bad k _ => (s, some k)
    | .ok .global _ => s.engWrite c (.glob c.status 8) (leBytes 8 w)
    | .ok _ _ => if (s.team c.team).rlevel ≠ 0 then (s, some 0x66) else (s, some 0x36)

/-- A deferred trap of an engine (R171, R174): to the issuing group, or the lowest group of the team that has not retired, or, where none remains,
an exit status entry in the name of the issuing group; in a level it is a fault of the level, where an overflow of the level's lines has DETAIL 1 and one
of its scratchpad words 0 (R298). -/
def State.engineTrap (s : State) (c : Command) (lines : Bool) (age code detail addr : Nat) : State :=
  let t := s.team c.team
  if t.rlevel ≠ 0 then
    if detail = 0x62 then s.levelFault c.team 0x62 (if lines then 1 else 0)
    else s.levelFault c.team (if detail = 0x66 then 0x66 else code)
  else
    let d : Deferred := { code := code, detail := detail, hdr := c.hdr, word := c.word, lanes := 0, addr := BitVec.ofNat 64 addr
                          pages := [], age := age, answers := [], regs := [] }
    let alive := (t.groups.filter (fun k => !(s.group k).retired && (s.group k).contained.isNone))
    let dest_ := if alive.contains c.group then some c.group else alive.head?
    match dest_ with
    | some k => s.onGroup k (fun g => { g with deferred := g.deferred ++ [d] })
    | none =>
      let e : Exit := { cause := code, detail := detail, lanes := 0, defer := true, ord := (s.group c.group).safeord, pc := c.hdr }
      s.onGroup c.group (fun g => if g.contained.isSome then { g with exitQueue := g.exitQueue ++ [e] } else { g with contained := some e })

/-- A command writes global lines. -/
def Command.toLines (c : Command) : Bool := c.writes.any (fun l => match l with | .glob .. => true | _ => false)

/-- The bits of its global destinations that a command writes, by their number in device memory: the first and how many. -/
def State.bitSpans (s : State) (c : Command) : List (Nat × Nat) :=
  let k := shapeOf c.dst
  let bits (i : Nat) (n : Nat) : Nat × Nat :=
    if c.op = 0x05 ∨ c.op = 0x06 ∨ c.op = 0x07 then (k.bitOf (c.columns i).2, typeWidth k.type) else (0, 8 * n)
  let places : List (Nat × Option Loc) :=
    if c.op = 0x05 ∨ c.op = 0x06 ∨ c.op = 0x07 then c.pairs.mapIdx (fun i p => (i, p.2)) else c.writes.map (fun l => (0, some l))
  places.flatMap (fun x => match x.2 with
    | some (.glob va n) => (lineSplit va n).filterMap (fun p => match s.engTarget c p.1 with
      | .ok .global pa =>
        let lo := max (bits x.1 n).1 (8 * p.2.2)
        some (8 * pa + (lo - 8 * p.2.2), min ((bits x.1 n).1 + (bits x.1 n).2) (8 * (p.2.2 + p.2.1)) - lo)
      | _ => none)
    | _ => [])

/-- A command that has written every bit of a word, in however many elements, has written it whole: it is poisoned no more (R161, R348). -/
def State.clearCovered (s : State) (c : Command) : State :=
  if s.poison.isEmpty then s
  else
    let spans := s.bitSpans c
    let whole (w : Nat) : Bool := (List.range 32).all (fun i => spans.any (fun r => decide (r.1 ≤ 32 * w + i ∧ 32 * w + i < r.1 + r.2)))
    let left : FMap Unit := s.poison.filter (fun p => !whole p.1)
    { s with poison := left }

/-- What the reads of a command do to the caches, the translations and the codes of the scratchpad and of device memory (R212, R217, R219, R225, R385). -/
def State.noteReads (s : State) (c : Command) : State :=
  let pages := (c.reads.flatMap (fun l => match l with | .glob va n => pagesOf va n | _ => [])).dedup
  let s := (s.cachePages c.cluster c.part .read pages).checkDram c.part (s.globLines c .read c.reads)
  let s := (s.globLines c .read c.reads).foldl (fun s ln =>
    if (s.cluster c.cluster).hasLine ln then s.l1Use c.cluster ln 0 else
      match s.holderOf ln with | some h => s.l1Use h ln 0 | none => s.llcAccess (some c.cluster) ln 6) s
  (s.scrLines c c.reads).foldl (fun s ln => s.checkScratch c.part c.cluster (128 * ln) 128) s

/-- ENGINE_COMMAND_COMPLETION (R170, R171, R174): the effect, ownership and presence, the status word, the counter, and a fault's trap. What has arrived for
a collective is gone with it, whether it used it or not. PHASEEND
repeats its sweeps until they agree (R267). -/
def State.completeCommand (s : State) (n : Nat) : State :=
  match FMap.look s.commands n with
  | none => s
  | some c =>
    if !s.canComplete n c then s
    else
      let pairs := (c.sweep.getD (0, 0)).1
      let s1 := s.sweep c s.fresh
      let s2 := s.sweep c (s.fresh + 1)
      let again := c.op = 0x19 ∧ !s.membersDown c ∧ ¬(s1 = s2 ∧ s2.1 = s2.2)
      let s := if c.op = 0x19 then { s with fresh := s.fresh + 2 } else s
      let c := if c.op = 0x19 then { c with sweep := some (pairs + 1, 0) } else c
      if again then { s with commands := FMap.put s.commands n c }
      else
        let g := c.perform (s.noteReads c)
        let s := g.s
        let s := if g.fault.isNone then s.clearCovered c else s
        let used : List Packet := if c.op = 0x08 then
          s.fabric.filter (fun x => !(x.part == c.part && x.members == (commOf c.src).members && x.key == (commOf c.src).key && x.kind != 2 &&
            x.seq == c.seq % 2 ^ 32)) else s.fabric
        let s := { s with commands := FMap.del s.commands n, fabric := used }.onCluster c.cluster (fun k => { k with
          absent := c.cleared.foldl FMap.del k.absent
          engBusy := FMap.put k.engBusy c.unit (FMap.at 0 k.engBusy c.unit + (s.tick - c.startTick)) })
        let st := s.writeStatus c (c.statusWord g)
        let s := st.1
        let s := match g.fault with
          | some k => s.engineTrap c c.toLines n 0x83 k c.addr.toNat
          | none => s
        let s := match st.2 with
          | some k => s.engineTrap c true n 0x83 k c.status
          | none => s
        let gr := s.group c.group
        let s := if gr.counter c.ec = 0 then s.engineTrap c false n 0x80 c.ec c.addr.toNat
          else s.onGroup c.group (fun g => g.setCounter c.ec (g.counter c.ec - 1))
        s.kick c.team

end Sys2Proof.Machine
end

