-- ==== Sys2Proof/Machine/MemIssue.lean ====
section
/-! DEFINITION. Issuing a memory word: gates, fences, presence, precise causes, translation and deferred faults, the access itself (07, R142 to
R151, R157, R158, R160 to R166), the cost of a word (R148), and scalar loads and stores (R87, R88, R166). -/
namespace Sys2Proof.Machine

/-- One lane's request: lane, effective address, data. -/
structure Req where
  lane : Nat
  ea   : Nat
  data : List (BitVec 8) := []
  deriving DecidableEq, Repr

/-- A memory word as it issues: what it does, its size and destinations, its order fields, its length in words, and the requests of its active
lanes. -/
structure MemWord where
  kind    : AccKind
  scratch : Bool := false
  bytes   : Nat
  align   : Nat
  dest    : Option Nat := none
  nregs   : Nat := 0
  width   : Nat := 4
  sext    : Bool := false
  packed  : Bool := false
  order   : Nat := 0
  scope   : Nat := 0
  reuse   : Nat := 0
  words   : Nat := 1
  /-- scratchpad words that count twice, or once a lane (R148) -/
  twice   : Bool := false
  reqs    : List Req
  deriving DecidableEq, Repr

/-- An atomic access. -/
def AccKind.isAtomic : AccKind → Bool
  | .atomic _ => true
  | _ => false

/-- The lanes of the requests. -/
def MemWord.lanes (m : MemWord) : LaneSet := setOf (fun l => m.reqs.any (fun q => q.lane == l))

/-! ### Cost (R148) -/

/-- Slice cycles of one pass of a global word: a quarter of its lines, at least one. -/
def globalPass (rs : List Req) (bytes : Nat) : Nat :=
  let n := (rs.flatMap (fun q => linesOf q.ea bytes)).dedup.length
  max 1 ((n + 3) / 4)

/-- Slice cycles of one pass of a scratchpad word. -/
def scratchPass (rs : List Req) (bytes : Nat) (atomic twice : Bool) : Nat :=
  let ws := rs.flatMap (fun q => wordsIn q.ea bytes)
  let ws := if atomic then ws else ws.dedup
  let worst := (List.range 32).foldl (fun m b => max m (ws.filter (fun w => w % 32 == b)).length) 0
  max 1 (if atomic || twice then 2 * worst else worst)

/-- Slice cycles of a memory word, over the passes that hold an active lane. -/
def State.memCost (s : State) (g : Group) (m : MemWord) : Nat :=
  let atomic := m.kind.isAtomic
  ((s.passesOf g g.run.act).map (fun p =>
    let rs := m.reqs.filter (fun q => s.passOf g q.lane == p)
    if m.scratch then scratchPass rs m.bytes atomic m.twice else globalPass rs m.bytes)).sum

/-! ### Translation of the lanes -/

/-- What a lane's request leads to: its parts, or a cause with its DETAIL, address and page. -/
inductive LaneRes where
  | parts (ps : List Part)
  | bad (code detail addr : Nat)
  deriving DecidableEq, Repr

/-- The pieces of a request: one, or two where a packed block crosses a line (R149): offset and length. -/
def pieces (m : MemWord) (ea : Nat) : List (Nat × Nat) :=
  let room := 128 - ea % 128
  if m.packed && decide (room < m.bytes) then [(0, room), (room, m.bytes - room)] else [(0, m.bytes)]

/-- One piece of a lane's request (R162 to R164, R274, R336). -/
def State.pieceOf (s : State) (m : MemWord) (g : Group) (q : Req) (second : Bool) (off len : Nat) : LaneRes :=
  let va := q.ea + off
  let inR := (g.lane q.lane).region
  let use := if m.kind = .load then Access1.read else Access1.write
  match s.target g.cluster (s.partOf g) use va with
  | .bad c d => .bad (if c = 0x31 && second then 0x35 else c) (d.getD g.run.classOp) va
  | .ok sp pa =>
    let atomic := m.kind.isAtomic
    if sp = .host && atomic && inR.isNone && (s.team g.team).rlevel != 0 then .bad 0x66 g.run.classOp va
    else if (sp = .host && (atomic || m.packed)) || (sp != .global && inR.isSome) then .bad 0x36 g.run.classOp va
    else if sp = .host && m.kind = .load && (wordsIn pa len).any (fun w => FMap.has s.hostErr w) then .bad 0x3A g.run.classOp va
    else .parts [{ lane := q.lane, space := sp, addr := pa, len := len, va := va, base := off, data := q.data, region := inR,
                    waited := sp == .global && s.foreignLine g.team (pa / 128) }]

/-- A lane's request (R149, R163). -/
def State.laneRes (s : State) (m : MemWord) (g : Group) (q : Req) : LaneRes :=
  if m.scratch then
    .parts [{ lane := q.lane, space := .scratch, addr := (s.team g.team).scrBase + q.ea, len := m.bytes, va := q.ea, data := q.data }]
  else
    match pieces m q.ea with
    | [(o, n), (o', n')] =>
      match s.pieceOf m g q false o n, s.pieceOf m g q true o' n' with
      | .bad c d a, _ => .bad c d a
      | .parts _, .bad c d a => .bad c d a
      | .parts ps, .parts ps' => .parts (ps ++ ps')
    | _ => s.pieceOf m g q false 0 m.bytes

/-! ### Deferred faults at issue (R164) -/

/-- The deferred faults of a word, one for each cause: lanes with code, detail and address. -/
def State.deferFaults (s : State) (bad : List (Nat × Nat × Nat × Nat)) (regs : List Nat) : State :=
  let g := s.me
  let part := s.partOf g
  let codes := (bad.map (fun b => b.2.1)).dedup
  let ds := codes.map (fun c =>
    let mine := bad.filter (fun b => b.2.1 == c)
    let first := mine.headD (0, 0, 0, 0)
    let pages := if c = 0x31 || c = 0x35 then mine.map (fun b => (b.1, b.2.2.2 / 2 ^ 16)) else []
    ({ code := c, detail := first.2.2.1, hdr := g.run.hdr, word := g.run.idx
       lanes := setOf (fun l => mine.any (fun b => b.1 == l)), addr := BitVec.ofNat 64 first.2.2.2, pages := pages, age := s.fresh
       answers := [], regs := mine.flatMap (fun b => regs.map (fun r => (b.1, r))), own := mine.map (fun b => (b.1, b.2.2.1, BitVec.ofNat 64 b.2.2.2))
       quiet := !pages.isEmpty && pages.all (fun p => s.pages.any (fun r => r.part == part && r.page == p.2)) } : Deferred))
  let s := bad.foldl (fun s b => if b.2.1 = 0x31 || b.2.1 = 0x35 then s.requestPage part (b.2.2.2 / 2 ^ 16) b.2.1 else s) s
  let all_ : LaneSet := setOf (fun l => bad.any (fun b => b.1 == l))
  let why (l : Nat) : ParkReason := if bad.any (fun b => b.1 == l && b.2.1 == 0x35) then .split else .deferred
  s.onMe (fun g =>
    let g := g.mapLanes all_ (fun l n => { n with cond := .parked (why l), place := .none })
    { g with deferred := g.deferred ++ ds, run := { g.run with act := g.run.act &&& ~~~all_ } })

/-! ### The word -/

/-- Absent scratchpad lines that the lanes touch, as lines of the cluster (R151). -/
def State.absentLines (s : State) (g : Group) (m : MemWord) : List Nat :=
  if m.scratch then
    let t := s.team g.team
    ((m.reqs.filter (fun q => decide (q.ea < t.scrSize))).flatMap (fun q => linesOf (t.scrBase + q.ea) m.bytes)).dedup.filter
      (fun ln => FMap.has (s.cluster g.cluster).absent ln)
  else []

/-- The parts that a lane's request leads to. -/
def LaneRes.found : LaneRes → List Part
  | .parts ps => ps
  | .bad .. => []

/-- The cause that a lane's request meets: lane, code, detail, address. -/
def LaneRes.fault (l : Nat) : LaneRes → Option (Nat × Nat × Nat × Nat)
  | .parts _ => none
  | .bad c d a => some (l, c, d, a)

/-- An access put in the table under the next number, if it has a part. -/
def State.addAccess (s : State) (a : Access) : State :=
  { s with accesses := if a.parts.isEmpty then s.accesses else FMap.put s.accesses s.fresh a, fresh := s.fresh + 1 }

/-- The run quits its clause when no active lane is left (R127, R164). -/
def Group.quitIfNone (g : Group) : Group := { g with run := { g.run with quit := g.run.quit || decide (g.run.act = 0) } }

/-- A word that faults its team's innermost level ends the run there. -/
def State.stopInLevel (s : State) (code : Nat) : State :=
  (s.onMe (fun g => { g with run := { g.run with stopped := true } })).levelFault s.me.team code

/-- The access begins: translations are cached, destinations emptied, faulting lanes parked, and a lane whose region is aborting gets 0 (R19,
R144, R164, R281). -/
def State.startAccess (s : State) (m : MemWord) : State :=
  let g := s.me
  let part := s.partOf g
  let regs := match m.dest with | some d => (List.range m.nregs).map (d + ·) | none => []
  let gone := m.reqs.filter (fun q => (g.lane q.lane).aborting)
  let reqs := m.reqs.filter (fun q => !(g.lane q.lane).aborting)
  let res := reqs.map (fun q => (q.lane, s.laneRes m g q))
  let bad := res.filterMap (fun x => x.2.fault x.1)
  let parts := res.flatMap (fun x => x.2.found)
  let stuck := bad.filter (fun b => b.2.1 != 0x31 && b.2.1 != 0x35)
  let outside := m.kind != .load && parts.any (fun p => p.space == .host || p.space == .fabric)
  let pages := if m.scratch then [] else (reqs.flatMap (fun q => (pieces m q.ea).map (fun p => (q.ea + p.1) / 2 ^ 16))).dedup
  let s := s.cachePages g.cluster part (if m.kind = .load then .read else .write) pages
  if (s.team g.team).rlevel ≠ 0 ∧ (outside ∨ !stuck.isEmpty) then
    s.stopInLevel (stuck.foldl (fun c b => min c b.2.1) (if outside then 0x66 else 0xFF))
  else
    let live := setOf (fun l => reqs.any (fun q => q.lane == l))
    let zero := setOf (fun l => gone.any (fun q => q.lane == l))
    let s := s.commit s.cur (g.mapLanes (live ||| zero) (fun l n =>
      regs.foldl (fun n r => if inSet zero l then n.setReg r 0 else n.emptyReg r) n)) (Writes.on { regs := regs } (live ||| zero))
    let s := if bad.isEmpty then s else s.deferFaults bad regs
    let s' := s.addAccess
      { kind := m.kind, group := s.cur, cluster := g.cluster, team := g.team, order := m.order, scope := m.scope
        reuse := m.reuse, dest := m.dest, nregs := m.nregs, width := m.width, sext := m.sext, parts := parts
        hdr := g.run.hdr, word := g.run.idx, after := g.run.idx + m.words, classOp := g.run.classOp }
    let s := s'.resolveAll true s.fresh
    (s.onMe (·.quitIfNone)).advance m.words (s.memCost g m)

/-- A memory word after its gate: while the team rolls back a store or atomic is dropped whole (R302); else fences hold it back, an absent line blocks it, the
precise causes come next, then a stalled record log, and then the access (R163 stage 1, R151, R158, R369). -/
def State.memBody (s : State) (m : MemWord) : State :=
  let g := s.me
  let t := s.team g.team
  let atomic := m.kind.isAtomic
  let absent := s.absentLines g m
  let odd := m.reqs.filter (fun q => q.ea % m.align != 0)
  let beyond := if m.scratch then m.reqs.filter (fun q => decide (t.scrSize ≤ q.ea)) else []
  let inR := if m.scratch then m.reqs.filter (fun q => (g.lane q.lane).region.isSome) else []
  let set_ (rs : List Req) : LaneSet := setOf (fun l => rs.any (fun q => q.lane == l))
  let first (rs : List Req) : DWord := match rs with | q :: _ => BitVec.ofNat 64 q.ea | [] => 0
  if t.rollback.isSome && m.kind != .load then s.advance m.words (s.memCost g m)
  else if s.fenced s.cur m.kind m.lanes then s.block (.fence m.lanes m.kind)
  else if !absent.isEmpty then s.block (.lines absent)
  else if !odd.isEmpty then s.trapAddr 0x30 g.run.classOp (set_ odd) (first odd)
  else if !beyond.isEmpty then s.trapAddr 0x34 g.run.classOp (set_ beyond) (first beyond)
  else if !inR.isEmpty then s.trapAddr 0x50 3 (set_ inR) (first inR)
  else if atomic && s.logStalls t.grid then s.block .ring
  else (s.passFences s.cur m.kind m.lanes).startAccess m

/-- A memory word. -/
def State.memWord (s : State) (srcs : List (LaneSet × Nat × Bool)) (dsts : List (LaneSet × Nat)) (m : MemWord) :
    Host.Outcome State Fault Refusal :=
  .next (s.gated (s.me.gateOn srcs dsts) (s.memBody m))

/-! ### The forms -/

/-- The base of a vector memory word in a lane, an even v or s pair (R142). -/
def Group.addrOf (g : Group) (l a : Nat) : Nat := (g.src64 l a).toNat

/-- The effective address with an extension word (R142). -/
def eaOf (base : Nat) (off : BitVec 32) : Nat := (BitVec.ofNat 64 base + off.signExtend 64).toNat

/-- The operands of an address in the active lanes: both words of the pair, which block. -/
def addrSrcs (m : LaneSet) (a : Nat) : List (LaneSet × Nat × Bool) := [(m, a, false), (m, a + 1, false)]

/-- A vector load (R143, R144, R149). -/
def State.loadWord (s : State) (d a : BitVec 7) (off : BitVec 32) (words : Nat) (order : BitVec 2) (scope reuse : BitVec 3)
    (m : MemWord) : Host.Outcome State Fault Refusal :=
  let g := s.me
  s.memWord (addrSrcs g.run.act a.toNat) ((regRun d.toNat m.nregs).map (fun r => (g.run.act, r)))
    { m with
      dest := some d.toNat, order := order.toNat, scope := scope.toNat, reuse := reuse.toNat, words := words
      reqs := (lanesIn g.run.act).map (fun l => { lane := l, ea := eaOf (g.addrOf l a.toNat) off }) }

/-- The bytes that a store or atomic takes from its data operand: a pair for eight bytes, a quad for sixteen (R143). -/
def Group.dataOf (g : Group) (l d bytes : Nat) : List (BitVec 8) :=
  if bytes ≤ 4 then leBytes bytes (g.src .int l d).toNat
  else if bytes = 8 then leBytes 8 (g.src64 l d).toNat
  else (List.range (bytes / 4)).flatMap (fun i => leBytes 4 (g.src .int l (d + i)).toNat)

/-- A vector store (R143). -/
def State.storeWord (s : State) (d a : BitVec 7) (off : BitVec 32) (words : Nat) (order : BitVec 2) (scope reuse : BitVec 3)
    (m : MemWord) : Host.Outcome State Fault Refusal :=
  let g := s.me
  let act := g.run.act
  s.memWord (addrSrcs act a.toNat ++ (regRun d.toNat ((m.bytes + 3) / 4)).map (fun r => (act, r, false))) []
    { m with
      order := order.toNat, scope := scope.toNat, reuse := reuse.toNat, words := words
      reqs := (lanesIn act).map (fun l => { lane := l, ea := eaOf (g.addrOf l a.toNat) off, data := g.dataOf l d.toNat m.bytes }) }

/-- A vector atomic (R152 to R156): with return D names a register of the v or o file, else the data comes from an s register or a constant. -/
def State.atomWord (s : State) (op : Nat) (scratch : Bool) (bytes : Nat) (d a : BitVec 7) (off : BitVec 32) (words : Nat)
    (order : BitVec 2) (scope reuse : BitVec 3) : Host.Outcome State Fault Refusal :=
  let g := s.me
  let act := g.run.act
  let ret := decide (d.toNat < 72)
  let n := bytes / 4
  let dataBytes := if isCas op then 2 * bytes else bytes
  s.memWord (addrSrcs act a.toNat ++ (regRun d.toNat (dataBytes / 4)).map (fun r => (act, r, false)))
    (if ret then (regRun d.toNat n).map (fun r => (act, r)) else [])
    { kind := .atomic op, scratch := scratch, bytes := bytes, align := bytes, dest := if ret then some d.toNat else none, nregs := n
      order := order.toNat, scope := scope.toNat, reuse := reuse.toNat, words := words
      reqs := (lanesIn act).map (fun l => { lane := l, ea := eaOf (g.addrOf l a.toNat) off, data := g.dataOf l d.toNat dataBytes }) }

/-! ### Scalar accesses -/

/-- The lane in whose name a scalar access is made: the lowest of the active set; in a handler the run's set is the reference lane
(R88, R342). -/
def Group.scalarLane (g : Group) : Nat := lowest g.run.act

/-- A scalar load or store (R87, R88, R166): misalignment, translation causes and region lanes (R286) are precise, in the order of their codes (R339); a page not
present waits for the page-fault service. A lower code than 0x50 that the page's service would answer is no cause yet (DEDUCED, log entry 91). -/
def State.scalarAccess (s : State) (kind : AccKind) (srcs dsts : List Nat) (sa : BitVec 5) (imm : BitVec 13) (bytes : Nat)
    (data : List (BitVec 8)) : Host.Outcome State Fault Refusal :=
  let g := s.me
  let r := g.run
  let l := g.scalarLane
  let ea := (g.sPair sa.toNat + imm.signExtend 64).toNat
  let body :=
    let misuse := !r.handler && g.regionSet r.act != 0
    if s.myTeam.rollback.isSome && kind != .load then s.advance 1 1
    else if s.fenced s.cur kind (oneLane l) then s.block (.fence (oneLane l) kind)
    else if ea % bytes ≠ 0 then s.trapAddr 0x30 r.classOp (oneLane l) (BitVec.ofNat 64 ea)
    else
      let part := s.partOf g
      let s := s.noteWalk g.cluster part (if kind = .load then .read else .write) ea
      match s.target g.cluster part (if kind = .load then .read else .write) ea with
      | .bad c d =>
        if c = 0x31 ∧ misuse then s.trapHere 0x50 7
        else if c = 0x31 then
          (s.requestPage part (ea / 2 ^ 16)).block (.page (ea / 2 ^ 16) (BitVec.ofNat 64 ea) r.classOp none)
        else s.trapAddr c (d.getD r.classOp) (oneLane l) (BitVec.ofNat 64 ea)
      | .ok sp pa =>
        if sp = .host && kind = .load && (wordsIn pa bytes).any (fun w => FMap.has s.hostErr w) then
          s.trapAddr 0x3A r.classOp (oneLane l) (BitVec.ofNat 64 ea)
        else if misuse then s.trapHere 0x50 7
        else if kind = .store ∧ sp ≠ .global ∧ s.myTeam.rlevel ≠ 0 then
          s.stopInLevel 0x66
        else
          let s := (s.passFences s.cur kind (oneLane l)).onMe (fun g => dsts.foldl (fun g o => g.emptyS (o - 80)) g)
          let acc : Access :=
            { kind := kind, group := s.cur, cluster := g.cluster, team := g.team, order := 0, scope := 0
              dest := dsts.head?, nregs := dsts.length
              parts := [{ lane := l, space := sp, addr := pa, len := bytes, va := ea, data := data
                          waited := sp == .global && s.foreignLine g.team (pa / 128) }]
              hdr := r.hdr, word := r.idx, after := r.idx + 1, classOp := r.classOp }
          { s with accesses := FMap.put s.accesses s.fresh acc, fresh := s.fresh + 1 }.advance 1 1
  .next (s.gated (g.gate (srcs.map (fun o => (o, false))) dsts) body)

end Sys2Proof.Machine
end

