-- ==== Sys2Proof/Machine/Records.lean ====
section
/-! DEFINITION. Launch records (21, R313, R314), admission weights (R204), and 8-byte writes of the scheduler to a partition's memory (R315, R316). -/
namespace Sys2Proof.Machine

/-- A launch record read from its 128 bytes (R313). -/
def parseRecord (b : List (BitVec 8)) : LaunchRec :=
  let w (o : Nat) : Word := BitVec.ofNat 32 (fieldAt b o 4)
  { bytes := b, code := fieldAt b 0 8, words := fieldAt b 8 4, entry := w 12, handler := w 16, flags := w 20
    gridX := fieldAt b 24 4, gridY := fieldAt b 28 4, gridZ := fieldAt b 32 4
    teamX := fieldAt b 36 2, teamY := fieldAt b 38 2, teamZ := fieldAt b 40 2
    shared := fieldAt b 44 4, param := BitVec.ofNat 64 (fieldAt b 48 8), exitArea := fieldAt b 56 8, exitCap := fieldAt b 64 4
    ringCap := fieldAt b 68 4, ring := fieldAt b 72 8, safetab := fieldAt b 80 8, drainest := fieldAt b 88 4, done := fieldAt b 96 8 }

/-- PRIO (R313). -/
def LaunchRec.prio (r : LaunchRec) : Nat := r.flags.toNat % 8
/-- ENERGY (R313). -/
def LaunchRec.energyClass (r : LaunchRec) : Nat := r.flags.toNat / 2 ^ 3 % 8
/-- IDEM (R313). -/
def LaunchRec.idem (r : LaunchRec) : Bool := r.flags.getLsbD 6
/-- CORES: the grid is co-resident (R313). -/
def LaunchRec.cores (r : LaunchRec) : Bool := r.flags.getLsbD 7
/-- Lanes of a team (R190). -/
def LaunchRec.lanes (r : LaunchRec) : Nat := r.teamX * r.teamY * r.teamZ
/-- Groups of a team (R191). -/
def LaunchRec.groups (r : LaunchRec) : Nat := (r.lanes + 63) / 64
/-- Teams of the grid. -/
def LaunchRec.teams (r : LaunchRec) : Nat := r.gridX * r.gridY * r.gridZ
/-- The weight of an energy class (R204). -/
def classWeight (c : Nat) : Nat := [1, 1, 2, 2, 3, 4, 6, 8].getD c 8
/-- The admission weight of a team (R204). -/
def LaunchRec.weight (r : LaunchRec) : Nat := classWeight r.energyClass * r.groups

/-- The clusters of a partition (R389). -/
def State.partClusters (s : State) (p : Nat) : List Nat :=
  (List.range 160).filter (fun c => (s.cluster c).enabled && (s.cluster c).part == p)

/-- Teams of a grid that an empty cluster holds at CLBUDGET 192 (R314). -/
def LaunchRec.perCluster (r : LaunchRec) : Nat :=
  let m := min (192 / r.weight) (96 / r.groups)
  if r.shared = 0 then m else min m (2 ^ 20 / r.shared)

/-- The rules of a launch record, with the offset reported where one is broken, in byte order (R314); `clusters` is how many the partition has. -/
def recordRules (r : LaunchRec) (clusters : Nat) : List (Bool × Nat) :=
  let ext (n : Nat) : Bool := n == 0 || decide (2 ^ 31 - 1 < n)
  let zeros (o n : Nat) : Bool := fieldAt r.bytes o n != 0
  let pow2 := (List.range 17).any (fun i => r.ringCap == 2 ^ i)
  [ (r.code % 256 != 0, 0)
  , (r.words == 0 || decide (2 ^ 30 < r.words), 8)
  , (decide (r.words ≤ r.entry.toNat), 12)
  , (r.handler != 0xFFFFFFFF && decide (r.words ≤ r.handler.toNat), 16)
  , (decide (2 ^ 14 ≤ r.flags.toNat) || r.flags.toNat / 2 ^ 8 % 4 == 3, 20)
  , (ext r.gridX || (r.cores && decide (0 < r.lanes ∧ clusters * r.perCluster < r.teams)), 24)
  , (ext r.gridY, 28), (ext r.gridZ, 32)
  , (r.teamX == 0 || (r.teamY != 0 && r.teamZ != 0 && decide (1024 < r.lanes)), 36)
  , (r.teamY == 0, 38), (r.teamZ == 0, 40)
  , (zeros 42 2, 42)
  , (r.shared % 128 != 0 || decide (2 ^ 20 < r.shared), 44)
  , (r.param.toNat % 8 != 0, 48)
  , (r.exitArea % 64 != 0, 56)
  , (r.ringCap != 0 && !pow2, 68)
  , (r.ring % 128 != 0, 72)
  , (r.safetab % 64 != 0, 80)
  , (zeros 92 4, 92)
  , (r.done % 8 != 0, 96)
  , (zeros 104 24, 104) ]

/-- The offset of the first field of a record that breaks a rule (R314). -/
def recordFault (r : LaunchRec) (clusters : Nat) : Option Nat := ((recordRules r clusters).find? (·.1)).map (·.2)

/-- A table in error that the scheduler's access to an address meets is counted for the partition (R224, R388). -/
def State.noteTable (s : State) (part va : Nat) : State := if s.tableError 0 part va then s.countErr part 2 1 else s

/-- A write of the scheduler through a partition's translation (R315, R316): false where the page is not mapped, not present, not writable or of another
partition; fabric stores reach the window that answers, or are dropped (R395). A table in error is counted (R224). -/
def State.hostStyleWrite (s : State) (part va : Nat) (bs : List (BitVec 8)) : State × Bool :=
  match s.target 0 part .write va with
  | .bad .. => (s.noteTable part va, false)
  | .ok .host pa => ({ s with hostMem := Mem.writeBytes s.hostMem pa bs }, true)
  | .ok .fabric pa => (s.fabricStore part pa bs, true)
  | .ok _ pa => (s.writePhys none pa bs [], true)

/-- A read of the scheduler through a partition's translation; none where it cannot be made. Its reader counts a table in error (`State.noteTable`). -/
def State.hostStyleRead (s : State) (part va n : Nat) : Option (List (BitVec 8)) :=
  match s.target 0 part .read va with
  | .bad .. => none
  | .ok .host pa => some (Mem.readBytes s.hostMem pa n)
  | .ok .fabric pa => if s.remoteOpen part pa n then some (s.remoteRead part pa n) else none
  | .ok _ pa => some (Mem.readBytes s.mem pa n)

/-- The completion word of a grid written at DONE; one that cannot be written is discarded and counted (R315, R316). -/
def State.writeDone (s : State) (part done status offset exits : Nat) : State :=
  if done = 0 then s
  else
    let r := s.hostStyleWrite part done (leBytes 8 (status + offset * 2 ^ 8 + min exits (2 ^ 32 - 1) * 2 ^ 32))
    if r.2 then r.1 else r.1.countErr part 3 1

end Sys2Proof.Machine
end

