-- ==== Sys2Proof/Machine/Fetch.lean ====
section
/-! DEFINITION. Fetching a clause (R24, R36, R224, R336, R402), the conditions under which it starts (R22, R25), safe points (R356, R357) and what a
group waits for (R195). -/
namespace Sys2Proof.Machine

/-! ### Fetching -/

/-- A fetched word, or the cause that its fetch meets with DETAIL and address. -/
inductive FetchEnd where
  | word (w : Word)
  | bad (code detail addr : Nat)
  deriving DecidableEq, Repr

/-- A word of four bytes of a memory. -/
def Mem.word (m : Mem) (a : Nat) : Word := BitVec.ofNat 32 (Mem.num m a 4)

/-- The code word that a fetch of a grid returns: the word as it stands, or one that has stood there since the grid was launched; which one is free
(R402). -/
def State.codeWord (s : State) (gr : Grid) (key : Nat) (now : Word) : Word :=
  match (FMap.at [] s.codeOld key).filter (fun e => decide (gr.order < e.1)) with
  | [] => now
  | old => (now :: old.map (·.2)).getD (Config.codeAge s.fresh key % (old.length + 1)) now

/-- The word at a word address of a group's code image; `idx` is its index for cause 0x3B (R36, R224, R313, R336). -/
def State.fetchWord (s : State) (k : Nat) (a : Word) (idx : Nat) : FetchEnd :=
  let g := s.group k
  let gr := s.gridOf g
  let va := (gr.record.code + 4 * a.toNat) % 2 ^ 64
  if gr.record.words ≤ a.toNat then .bad 0x38 0 va
  else
    match s.target g.cluster gr.part .fetch va with
    | .bad c d => .bad c (d.getD (Config.fetchDetail c).toNat) va
    | .ok sp pa =>
      match sp with
      | .host => if FMap.has s.hostErr (pa / 4) then .bad 0x3B idx va else .word (s.codeWord gr (pa / 4 + 2 ^ 72) (Mem.word s.hostMem pa))
      | .fabric => if s.remoteOpen gr.part pa 4 then .word (s.codeWord gr (s.keyed gr.part pa / 4) (Mem.word s.remote (s.keyed gr.part pa))) else .bad 0x3B idx va
      | _ => if FMap.has s.poison (pa / 4) then .bad 0x3B idx va else .word (s.codeWord gr (pa / 4) (Mem.word s.mem pa))

/-- The instruction words of a clause after its header, or the first fetch that fails with its word index. -/
def State.fetchWords (s : State) (k : Nat) (hdr : Word) : Nat → Nat → Except (Nat × Nat × Nat × Nat) (List Word)
  | 0, _ => .ok []
  | n + 1, i =>
    match s.fetchWord k (hdr + 1 + BitVec.ofNat 32 i) i with
    | .bad c d a => .error (c, d, a, i)
    | .word w =>
      match s.fetchWords k hdr n (i + 1) with
      | .ok ws => .ok (w :: ws)
      | .error e => .error e

/-! ### Conditions of a clause (R22, R25) -/

/-- Every masked event counter is at most the threshold (R25). -/
def Group.countersMet (g : Group) (mask : BitVec 8) (t : Nat) : Bool :=
  (List.range 8).all (fun k => !mask.getLsbD k || decide (g.counter k ≤ t))

/-- Registers that a VR word reads (R22): A, B, and D where it accumulates (R68). -/
def srcVR (w : Word) : List Nat :=
  let acc := [0x07, 0x1B, 0x1C, 0x22, 0x25, 0x26, 0x27].contains (wordOp w)
  [(fld 7 w 9).toNat, (fld 7 w 2).toNat] ++ (if acc then [(fld 7 w 16).toNat] else [])

/-- Registers that a VI word reads: D, but for the words that only write it. -/
def srcVI (w : Word) : List Nat :=
  if [0x04, 0x0C, 0x0D].contains (wordOp w) then [] else [(fld 7 w 17).toNat]

/-- A pair of registers. -/
def pairOf (o : Nat) : List Nat := regRun o 2

/-- Registers that an M word reads: the address pair and the data of stores and atomics (R143, R154). -/
def srcM (w : Word) : List Nat :=
  let d := (fld 7 w 16).toNat
  let a := (fld 7 w 9).toNat
  match wordOp w with
  | 0x29 => []
  | 0x09 | 0x0A | 0x0B | 0x11 | 0x12 | 0x13 => pairOf a ++ [d]
  | 0x0C | 0x14 => pairOf a ++ regRun d 2
  | 0x0D | 0x15 => pairOf a ++ regRun d 4
  | 0x21 | 0x28 => pairOf a ++ regRun d 2
  | 0x22 => pairOf a ++ regRun d 4
  | 0x16 | 0x17 | 0x18 | 0x19 | 0x1A | 0x1B | 0x1C | 0x1D | 0x1E | 0x1F | 0x20 | 0x23 | 0x24 | 0x25 | 0x26 | 0x27 => pairOf a ++ [d]
  | _ => pairOf a

/-- Registers that an S word reads. -/
def srcS (w : Word) : List Nat :=
  let r (lo : Nat) : Nat := 80 + (fld 5 w lo).toNat
  let op := wordOp w
  if op ≤ 0x10 then [r 13, r 8]
  else match op with
    | 0x11 | 0x12 | 0x13 | 0x14 | 0x17 | 0x18 => [r 13]
    | 0x16 => [r 18]
    | 0x19 | 0x1A => [r 13, r 13 + 1]
    | 0x1B => [r 13, r 13 + 1, r 18]
    | 0x1D => [r 18]
    | 0x25 | 0x26 => [(fld 7 w 16).toNat]
    | 0x27 => [80 + (fld 5 w 16).toNat]
    | _ => []

/-- Registers that an E word reads. -/
def srcE (w : Word) : List Nat :=
  let p := 80 + (fld 5 w 18).toNat
  match wordOp w with
  | 0x00 | 0x04 | 0x05 | 0x06 | 0x07 | 0x08 | 0x09 | 0x0A | 0x0B | 0x0F | 0x19 | 0x1A | 0x1F | 0x20 => [p, p + 1]
  | 0x01 | 0x02 | 0x0C | 0x0D | 0x0E => [p]
  | 0x03 => [p, (fld 7 w 0).toNat]
  | _ => []

/-- Registers that an X word reads: its fields A, B and C, D where part of it is kept (R120, R121); the member mask of a cross-lane word is a
pair, the base of an indexed word too. B of VDEQ is read for VQ2 alone (R123). -/
def srcX (w x : Word) : List Nat :=
  let d := (fld 7 w 16).toNat
  let a := (fld 7 w 9).toNat
  let b := (fld 7 w 2).toNat
  let c := (fld 7 x 25).toNat
  match wordOp w with
  | 0x00 | 0x0F | 0x19 => [a, b, c]
  | 0x07 => (if bit x 7 then regRun a (if (fld 4 x 12).toNat = 7 then 4 else 6) else [a]) ++ (if (fld 4 x 12).toNat = 15 then [b] else []) ++ [c]
  | 0x05 => [a, b] ++ (if packHalf (fld 4 x 8) then [d] else [])
  | 0x08 => [a, b] ++ pairOf c
  | 0x09 | 0x0A | 0x0B | 0x0C => a :: pairOf c
  | 0x0D => pairOf c
  | 0x1B => pairOf a ++ [b]
  | 0x1C => pairOf a ++ [b, d]
  | 0x02 | 0x03 | 0x04 => a :: (if typeWidth (fld 4 x 8).toNat = 32 then [] else [d])
  | 0x06 | 0x10 | 0x11 | 0x12 | 0x13 | 0x14 | 0x15 | 0x16 | 0x18 | 0x1E | 0x20 => [a]
  | 0x01 | 0x0E | 0x17 | 0x1A | 0x1D | 0x21 | 0x22 => [a, b]
  | _ => []

/-- The register sources of a word, in the numbering of R40; values that are no register have no full/empty bit (R22). -/
def srcRegs (w x : Word) : List Nat :=
  match wordClass w with
  | 0 => srcVR w
  | 1 => srcVI w
  | 2 => if wordOp w ≤ 0x10 then [(fld 7 w 11).toNat, (fld 7 w 4).toNat] else []
  | 3 => srcM w
  | 4 => srcS w
  | 5 => srcE w
  | 6 => srcX w x
  | _ => []

/-- The predicates that a word reads (R34, R92, R105, R113, R115, R130, R182): guards and selectors, sources, and a destination that is combined. -/
def srcPreds (w x : Word) : List Nat :=
  let p : Nat := (fld 5 w 18).toNat
  let op := wordOp w
  match wordClass w with
  | 2 =>
    (if 0x11 ≤ op ∧ op ≤ 0x16 then (fld 5 w 11).toNat :: (if op ≤ 0x14 then [(fld 5 w 4).toNat] else []) else []) ++
    (if (fld 2 w 2).toNat = 1 ∨ (fld 2 w 2).toNat = 2 then [p] else [])
  | 4 => if 0x20 ≤ op ∧ op ≤ 0x24 then [p] else []
  | 5 => if op = 0x1D then [p] else []
  | 6 =>
    if op = 0x0D then [(fld 5 w 9).toNat]
    else if (0x08 ≤ op ∧ op ≤ 0x0C) ∨ op = 0x19 ∨ op = 0x1F ∨ op = 0x20 then []
    else [(fld 5 x 20).toNat]
  | _ => []

/-- What a word reads that the interlock of R106 watches: registers, lr, and predicates as 100 + p. -/
def readKeys (w x : Word) : List Nat :=
  (srcRegs w x).filter (fun r => decide (r ≤ 72)) ++ ((srcPreds w x).filter (fun p => decide (p < 24))).map (100 + ·)

/-- What a short-latency word writes (R17, R105, R106, R131, R132, R141): its registers, lr and its predicate, numbered as `readKeys` numbers them. The words that
03_opcode_map.md calls short latency are meant, the cross-lane words, and a vector LREAD (R132). -/
def shortKeys (w x : Word) : List Nat :=
  let d := (fld 7 w 16).toNat
  let pred (p : Nat) : List Nat := if p < 24 then [100 + p] else []
  let op := wordOp w
  match wordClass w with
  | 0 => [d, 72]
  | 1 => [(fld 7 w 17).toNat, 72]
  | 2 => pred (fld 5 w 18).toNat
  | 6 =>
    if op ≤ 0x07 ∨ op = 0x0E ∨ op = 0x0F ∨ op = 0x1A ∨ op = 0x21 ∨ op = 0x22 then regRun d (if op = 0x06 then 2 else 1) ++ [72]
    else if 0x08 ≤ op ∧ op ≤ 0x0D then regRun d (if op = 0x0D ∧ (fld 2 x 0) = 0 then 2 else 1) ++ pred (fld 5 x 20).toNat
    else if op = 0x19 then pred (fld 5 x 20).toNat
    else if op = 0x1D ∧ d < 72 then [d]
    else []
  | _ => []

/-- The registers that F = 1 waits for in an active set (R22): the sources of every word that are empty. -/
def Group.fullNeed (g : Group) (act : LaneSet) (ws : List Word) : List (LaneSet × Nat) :=
  let regs := ((starts 15 0 ws).flatMap (fun p => srcRegs p.2.1 (p.2.2.getD 0))).dedup
  (regs.filter (fun r => g.emptyIn act r)).map (fun r => (act, r))

/-! ### Waits (R195) -/

/-- What a group waits for has come about (R195). A page is answered by the page-fault service, which changes the wait itself. -/
def State.waitOver (s : State) (k : Nat) (w : Wait) : Bool :=
  let g := s.group k
  match w with
  | .ready => true
  | .regs need => need.all (fun p => !g.emptyIn p.1 p.2)
  | .lines ls => ls.all (fun ln => !FMap.has (s.cluster g.cluster).absent ln)
  | .fence m kind => !s.fenced k kind m
  | .header mask t => g.countersMet mask t
  | .queue u => !s.queueFull g.cluster u
  | .page _ _ _ _ => false
  | .counter ec t => decide (g.counter ec ≤ t)
  | .children ks => ks.all (fun n => (s.grid n).retired)
  | .pred => match (s.gridOf g).pred with | some p => (s.grid p).retired | none => true
  | .block a n => !s.blockBusy k a n
  | .ring => !s.logStalls (s.team g.team).grid

/-! ### Safe points (R356, R357) -/

/-- The ordinal of a safe clause among `n` entries of a safe-point table from entry `i` on; none where no entry holds its address. -/
def State.findOrd (s : State) (part tab : Nat) (a : Word) : Nat → Nat → Option Nat
  | 0, _ => none
  | n + 1, i =>
    match s.hostStyleRead part (tab + 16 + 32 * i) 4 with
    | some bs => if leNat bs = a.toNat then some i else s.findOrd part tab a n (i + 1)
    | none => none

/-- The value SAFEORD takes at a safe clause of a group (R357). -/
def State.safeOrd (s : State) (k : Nat) (a : Word) : Word :=
  let gr := s.gridOf (s.group k)
  if gr.record.safetab = 0 then 0xFFFFFFFE
  else
    match s.hostStyleRead gr.part gr.record.safetab 4 with
    | some bs =>
      (match s.findOrd gr.part gr.record.safetab a (min (leNat bs) 65534) 0 with
       | some i => BitVec.ofNat 32 i
       | none => 0xFFFFFFFE)
    | none => 0xFFFFFFFE

end Sys2Proof.Machine
end

