-- ==== Sys2Proof/Machine/Outside.lean ====
section
/-! DEFINITION. Accesses from outside the module (27, R227, R246, R394 to R396): host windows and the fabric as other modules reach this one, the order in
which such accesses are performed, and what makes them wait. -/
namespace Sys2Proof.Machine

/-! ### Where they lead -/

/-- The physical address that a window gives for an access (R394); none beyond SIZE or through a closed window. -/
def windowAddr (w : FMap DWord) (i off len : Nat) : Option Nat :=
  if off + len ≤ (FMap.at (0 : DWord) w (2 * i + 1)).toNat % 2 ^ 20 * 2 ^ 16 then some ((FMap.at (0 : DWord) w (2 * i)).toNat / 2 ^ 16 % 2 ^ 40 * 2 ^ 16 + off)
  else none

/-- The partition that serves flits of a key (R389, R395): in service, not fenced, and the only one with the key. -/
def State.keyHolder (s : State) (key : Nat) : Option Nat :=
  match s.keyHolders key with
  | [p] => if (s.part p).fenced then none else some p
  | _ => none

/-! ### When they are performed -/

/-- An access from outside meets bytes that are owned, tentative or written by an uncommitted region, and waits (R161, R227). -/
def State.outsideWaits (s : State) (a len : Nat) : Bool :=
  (linesOf a len).any (fun ln => s.ownedLine ln || s.tentative ln) || (sectorsOf a len).any s.regionSector

/-- An access that arrived earlier holds a later one back: of the host's, writes hold writes and reads, reads hold reads (R227, R246); of one port,
stores hold stores (R396). -/
def Outside.before (x o : Outside) : Bool :=
  decide (x.num < o.num) && x.port == o.port &&
  (match x.port with
   | none => x.kind == 1 || o.kind == 0
   | some _ => x.kind == 1 && o.kind == 1)

/-- Accesses that waited at a line, commands among them, are performed there in their order of arrival once it is free (R242). -/
def State.outsideTurn (s : State) (o : Outside) : Bool :=
  let meets (a n : Nat) : Bool := (linesOf a n).any (fun ln => (linesOf o.addr o.len).contains ln)
  s.outside.all (fun x => !(decide (x.num < o.num) && x.waited && meets x.addr x.len)) &&
  s.commands.all (fun (k, c) => !(decide (k < o.num) && (linesOf o.addr o.len).any (fun ln => c.waited.contains ln && !c.owned.contains ln))) &&
  s.accesses.all (fun (k, a) => !(decide (k < o.num)) || a.parts.all (fun q => !(q.waited && !q.done && q.val.isNone && meets q.addr q.len)))

/-- An access from outside may be performed: its lines have room at their slices too (R219). A write of the control space waits for the host writes before it and is then a step of its own (R391). -/
def State.outsideReady (s : State) (o : Outside) : Bool :=
  o.reg.isNone && s.outside.all (fun x => !x.before o) && !s.outsideWaits o.addr o.len && s.outsideTurn o &&
  (linesOf o.addr o.len).all (fun ln => (s.holderOf ln).isSome || s.llcRoom ln)

/-! ### Performing them -/

/-- A line read from outside: at the L1 of the holder of its object's token, else at its slice (R214, R227). -/
def State.outsideRead (s : State) (a len : Nat) : State :=
  (linesOf a len).foldl (fun s ln => match s.holderOf ln with
    | some h => s.l1Use h ln 6
    | none => s.llcAccess none ln 6) s

/-- An access from outside performed at the performing point, and taken out of those that wait: a poisoned read is answered as poisoned, and an atomic
that meets poison changes nothing (R227, R348, R396). -/
def State.performOutside (s : State) (o : Outside) : State :=
  let s := { s with outside := s.outside.filter (fun x => x.num != o.num) }
  let s := (linesOf o.addr o.len).foldl (fun (s : State) ln => s.moveBytes o.part ln) s
  let s := if o.kind = 1 then s else (s.checkDram o.part (linesOf o.addr o.len)).settleBytes none o.addr o.len
  let bad := (wordsIn o.addr o.len).any (fun w => FMap.has s.poison w)
  let old := Mem.readBytes s.mem o.addr o.len
  let answer (s : State) (bs : List (BitVec 8)) : State :=
    match o.port with
    | none => { s with hostRead := (bs, bad) }
    | some _ => { s with fabricRead := (bs, bad) }
  if o.kind = 0 then answer (s.outsideRead o.addr o.len) old
  else if o.kind = 1 then
    let s := s.writePhys none o.addr o.data []
    match o.port with
    | none => s
    | some _ => s.onPart o.part (fun q => { q with received := q.received + 1 })
  else if bad then answer (s.outsideRead o.addr o.len) (List.replicate o.len 0)
  else
    let s := match (atomBytes o.op old o.data).1 with
      | some bs => s.writePhys none o.addr bs []
      | none => s.outsideRead o.addr o.len
    answer s old

/-- The waiting accesses that may be performed are, in order of arrival; of writes and atomics one in a step, so that every value that stands in memory is
seen (R402). -/
def State.drainOutside (s : State) : State :=
  (s.outside.foldl (fun (acc : State × Bool) o =>
    if !(acc.2 && o.kind != 0) && acc.1.outsideReady o then (acc.1.performOutside o, acc.2 || o.kind != 0) else acc) (s, false)).1

/-- A write of the control space must wait: a host write, or another such write, arrived before it and has not been performed (R391). -/
def State.regWaits (s : State) (below : Nat) : Bool :=
  s.outside.any (fun x => decide (x.num < below) && x.port.isNone && (x.kind == 1 || x.reg.isSome))

/-- The control-space write that is first among the host's writes (R391). -/
def State.nextReg (s : State) : Option (Outside × Instr) :=
  s.outside.findSome? (fun o => match o.reg with
    | some i => if s.regWaits o.num then none else some (o, i)
    | none => none)

/-- A control-space write put behind the host writes that wait (R391). -/
def State.queueReg (s : State) (i : Instr) : State :=
  { s with outside := s.outside ++ [{ num := s.fresh, port := none, part := 0, kind := 3, reg := some i, addr := 0, len := 0 }], fresh := s.fresh + 1 }

/-- The host's writes of the control space among the events (R391). -/
def isRegWrite : Instr → Bool
  | .registerWrite .. => true
  | .ringHeadWrite .. => true
  | .lqptrTailWrite .. => true
  | .classignWrite .. => true
  | .prctlGo .. => true
  | .prctlResume .. => true
  | .dbgHalt .. => true
  | .dbgResume .. => true
  | .dbgStep .. => true
  | .dumpAttach .. => true
  | .dumpRelease .. => true
  | .pfansWrite .. => true
  | .tlbInvalidationStart .. => true
  | .errctlClr .. => true
  | .signPartitionCounters .. => true
  | .signJobRecord .. => true
  | _ => false

/-- An access from outside arrives under the next number; it is performed when what follows the event is settled, or later. -/
def State.arriveOutside (s : State) (o : Outside) : State :=
  { s with
    outside := s.outside ++ [{ o with num := s.fresh, waited := (linesOf o.addr o.len).any s.tentative }]
    fresh := s.fresh + 1 }

end Sys2Proof.Machine
end

