-- ==== Sys2Proof/Machine/Waits.lean ====
section
/-! DEFINITION. What waits for what (R245): the accesses of lanes and from outside, commands, regions, write tokens and recovery levels that hold one another
back, and the regions on a cycle of such waits. -/
namespace Sys2Proof.Machine

/-- Something that can hold others back, and be held back. -/
inductive WaitNode where
  | access (n : Nat)
  | command (n : Nat)
  | outside (n : Nat)
  | region (id : Nat)
  | token (obj : Nat)
  | level (team : Nat)
  deriving DecidableEq, Repr

/-- The accesses with a part for which something holds. -/
def State.accessNodes (s : State) (f : Nat → Access → Part → Bool) : List WaitNode :=
  (s.accesses.filter (fun (n, a) => a.parts.any (f n a))).map (fun x => .access x.1)

/-- The commands for which something holds. -/
def State.commandNodes (s : State) (f : Nat → Command → Bool) : List WaitNode :=
  (s.commands.filter (fun (n, c) => f n c)).map (fun x => .command x.1)

/-- The accesses from outside for which something holds. -/
def State.outsideNodes (s : State) (f : Outside → Bool) : List WaitNode := (s.outside.filter f).map (fun o => .outside o.num)

/-- The uncommitted regions that have touched a sector in a way that something asks for. -/
def State.sectorNodes (s : State) (x : Nat) (f : Nat × Bool → Bool) : List WaitNode :=
  ((FMap.at [] s.sectors x).filter f).map (fun p => .region p.1)

/-- A serial region. -/
def State.isSerial (s : State) (id : Nat) : Bool := (s.slot id).serial

/-- The levels a team is not party to in which a line is tentative (R242). -/
def State.levelNodes (s : State) (t line : Nat) : List WaitNode :=
  (s.teams.filter (fun (k, tm) => tm.levels.any (fun lv => FMap.has lv.lines line) && !(s.parties k).contains t)).map (fun p => .level p.1) ++
  (s.accesses.filter (fun (_, a) => (s.team a.team).rlevel != 0 && !(s.parties a.team).contains t &&
    a.parts.any (fun p => !p.done && p.entered.isSome && p.addr / 128 == line))).map (fun x => .level x.2.team)

/-- What holds an access or a command of a team at a line: owners, levels, and regions that have written it or run in serial mode (R161, R172, R241). -/
def State.lineNodes (s : State) (t line : Nat) : List WaitNode :=
  s.commandNodes (fun _ c => c.owned.contains line) ++ s.levelNodes t line ++
  (List.range 4).flatMap (fun i => s.sectorNodes (4 * line + i) (fun p => p.2 || s.isSerial p.1))

/-- What keeps a line in its cache set (R219): its owners, the levels in which it is tentative, the regions that have written it. -/
def State.pinNodes (s : State) (line : Nat) : List WaitNode :=
  s.commandNodes (fun _ c => c.owned.contains line) ++ (s.teams.filter (fun p => p.2.levels.any (fun lv => FMap.has lv.lines line))).map (fun p => .level p.1) ++
  (List.range 4).flatMap (fun i => s.sectorNodes (4 * line + i) (·.2))

/-- What a fill of a line waits for where its sets have no room (R219). -/
def State.roomNodes (s : State) (cl : Option Nat) (room : Bool) (line : Nat) : List WaitNode :=
  if room then [] else (s.setLines cl line).flatMap s.pinNodes

/-- What arrived earlier than `n` and waited at a line that was tentative: it goes first there (R242). -/
def State.arrivedNodes (s : State) (n line : Nat) : List WaitNode :=
  if s.tentative line then [] else
    s.accessNodes (fun k _ q => decide (k < n) && q.waited && !q.done && q.val.isNone && q.addr / 128 == line) ++
    s.commandNodes (fun k c => decide (k < n) && c.waited.contains line && !c.owned.contains line) ++
    s.outsideNodes (fun o => decide (o.num < n) && o.waited && (linesOf o.addr o.len).contains line)

/-- What shuts a line for a command (R172, R241, R242). -/
def State.shutNodes (s : State) (n t line : Nat) : List WaitNode :=
  s.levelNodes t line ++ s.arrivedNodes n line ++ (List.range 4).flatMap (fun i => s.sectorNodes (4 * line + i) (fun p => p.2 || s.isSerial p.1))

/-- What holds a part of an access back besides its lane's order. -/
def State.placeNodes (s : State) (n : Nat) (a : Access) (p : Part) : List WaitNode :=
  if p.space != .global then [] else
  let tokens (ln : Nat) : List WaitNode := ((s.objectOf ln).filter (fun k => (FMap.look s.objects k).any (fun o => o.holder != some a.cluster))).toList.map .token
  let rooms := (linesOf p.addr p.len).flatMap (fun ln => match p.region with
    | some id => s.roomNodes none (s.regionRoom id ln) ln
    | none => if a.kind = .load then s.roomNodes (some a.cluster) (s.roomFor a.cluster ln) ln else s.roomNodes none (s.llcRoom ln) ln)
  let plain := if a.kind = .load ∨ p.region.isSome ∨ (s.team a.team).rlevel = 0 then [] else
    s.accessNodes (fun _ x q => !(s.parties a.team).contains x.team && !q.done && q.entered.isSome && (linesOf p.addr p.len).contains (q.addr / 128))
  let standing := s.accessNodes (fun k x q => k != n && x.cluster == a.cluster && !q.done && p.meets q &&
    (match q.entered, p.entered with | some e, some f => decide (e < f) | some _, none => true | none, _ => false))
  s.arrivedNodes n (p.addr / 128) ++ standing ++ rooms ++ plain ++
  match p.region with
  | none =>
    (linesOf p.addr p.len).flatMap (fun ln => s.commandNodes (fun _ c => c.owned.contains ln) ++ s.levelNodes a.team ln ++
      (if a.kind == .store then tokens ln else [])) ++
    (sectorsOf p.addr p.len).flatMap (fun x => s.sectorNodes x (fun q => q.2 || s.isSerial q.1))
  | some id =>
    match p.refusedBy with
    | some b => if s.refusalOver b then [] else [.region b.1]
    | none =>
      (linesOf p.addr p.len).flatMap (fun ln => s.commandNodes (fun _ c => c.owned.contains ln) ++ s.levelNodes a.team ln ++
        (if a.kind == .load then [] else (s.tokenAway ln).toList.map .token)) ++
      (sectorsOf p.addr p.len).flatMap (fun x => s.sectorNodes x (fun q => q.1 != id &&
        (s.isSerial q.1 || (s.isSerial id && q.2) || (q.2 && s.hiddenRegion (s.group a.group).team q.1)))) ++
      s.accessNodes (fun _ _ q => q.region.isNone && q.entered.isSome && !q.done && a.kind != .load && q.shares p)

/-- What has to be performed at a scope before a release of some lanes of a group (R157, R235). -/
def State.scopeNodes (s : State) (k cl scope : Nat) (m : LaneSet) (upto : Nat) : List WaitNode :=
  s.accessNodes (fun n a p => decide (n < upto) && a.group == k && inSet m p.lane && !p.done && (decide (2 < scope) || p.entered.isNone)) ++
  (if scope ≤ 2 then [] else s.accessNodes (fun _ a p => a.cluster == cl && p.entered.isSome && !p.done))

/-- What an access waits for (R146, R157, R161, R232, R276, R278). -/
def State.accessWaits (s : State) (n : Nat) (a : Access) : List WaitNode :=
  (a.parts.filter (fun p => !p.done && p.val.isNone)).flatMap (fun p =>
    let behind := s.accessNodes (fun k x q => decide (k < n) && x.group == a.group && a.behind p x q)
    let released := if p.region.isSome || p.entered.isSome || !(releases a.order || (a.kind == .load && a.order == 3)) then []
      else s.scopeNodes a.group a.cluster a.scope (oneLane p.lane) n
    behind ++ released ++ s.placeNodes n a p)

/-- What a command waits for (R168, R169, R172, R219, R241, R254). -/
def State.commandWaits (s : State) (n : Nat) (c0 : Command) : List WaitNode :=
  let queue (f : Command → Bool) : List WaitNode := s.commandNodes (fun k b => decide (k < n) && b.cluster == c0.cluster && b.unit == c0.unit && f b)
  if c0.started then
    let source := s.globLines c0 .read c0.reads
    let status := (s.statusLines c0).filter (fun ln => !c0.owned.contains ln)
    queue (fun _ => c0.unit != 4) ++
    (source ++ status).flatMap (fun ln => s.shutNodes n c0.team ln ++ s.roomNodes none (s.engRoom c0 c0.owned ln) ln) ++
    s.commandNodes (fun _ b => decide (b.begun < c0.begun) && source.any (fun ln => b.owned.contains ln)) ++
    s.commandNodes (fun k b => k != n && status.any (fun ln => b.owned.contains ln)) ++
    s.accessNodes (fun _ _ q => q.entered.isSome && !q.done && status.contains (q.addr / 128)) ++
    (s.tokensMissing c0 (source ++ s.statusLines c0)).map .token ++
    s.commandNodes (fun _ b => b.cluster == c0.cluster && decide (b.begun < c0.begun) &&
      (s.scrLines c0 c0.reads).any (fun ln => b.cleared.contains ln && !c0.cleared.contains ln)) ++
    c0.objs.flatMap (fun k => if c0.op = 0x0D ∨ c0.op = 0x0C ∨ c0.op = 0x0E then [.token k] else [])
  else
    let c := s.withList c0
    let d := s.destLines c
    queue (fun b => !b.started || aloneOp b.op || aloneOp c.op || (b.op == 0x09 && c.op == 0x00) || (c.op == 0x09 && b.bank == s.bankToFill n c)) ++
    s.accessNodes (fun k x q => decide (k < c.upto) && x.group == c.group && !q.near) ++
    d.1.flatMap (fun ln => s.shutNodes n c.team ln ++ s.roomNodes none (s.engRoom c d.1 ln) ln) ++
    s.commandNodes (fun k b => k != n && d.1.any (fun ln => b.owned.contains ln)) ++
    s.commandNodes (fun k b => decide (k < n) && b.cluster == c.cluster && b.unit != c.unit && !b.started &&
      (s.scrLines c (c.listLoc ++ c.reads)).any (fun ln => !(decide (b.unit < 2) && d.2.contains ln) && (s.scrLines b (s.withList b).writes).contains ln)) ++
    s.accessNodes (fun _ _ q => q.entered.isSome && !q.done && d.1.contains (q.addr / 128)) ++
    s.commandNodes (fun k b => k != n && b.cluster == c.cluster && (d.2 ++ s.scrLines c c.listLoc).any (fun ln => b.cleared.contains ln)) ++
    (s.tokensMissing c d.1).map .token

/-- What an access from outside waits for (R219, R227, R242, R246). -/
def State.outsideWaitsFor (s : State) (o : Outside) : List WaitNode :=
  s.outsideNodes (fun x => x.before o) ++
  (linesOf o.addr o.len).flatMap (fun ln => s.pinNodes ln ++ s.levelNodes 0 ln ++ s.arrivedNodes o.num ln ++
    s.roomNodes none ((s.holderOf ln).isSome || s.llcRoom ln) ln) ++
  (sectorsOf o.addr o.len).flatMap (fun x => s.sectorNodes x (fun p => p.2 || s.isSerial p.1))

/-- What holds the token of an object: its holder's commands and the word that brought it there, the requesters before the last, levels and regions
(R239, R244). -/
def State.tokenWaits (s : State) (k : Nat) : List WaitNode :=
  match FMap.look s.objects k with
  | none => []
  | some o =>
    (match o.holder with | some h => s.commandNodes (fun _ c => c.cluster == h && c.owned.any (fun ln => o.lines.contains ln)) | none => []) ++
    (match o.brought with | some b => [.access b] | none => []) ++
    o.requests.filterMap (fun cl => (s.bringer cl o).map .access) ++
    o.lines.flatMap (fun ln => (List.range 4).flatMap (fun i => s.sectorNodes (4 * ln + i) (·.2))) ++
    (s.teams.filter (fun (_, tm) => tm.levels.any (fun lv => o.lines.any (fun ln => FMap.has lv.lines ln)))).map (fun p => .level p.1)

/-- What a wait of a group waits for (R195). -/
def State.groupWaits (s : State) (k : Nat) : Wait → List WaitNode
  | .regs need =>
    let filled (d n : Nat) : Bool := need.any (fun p => decide (d ≤ p.2 ∧ p.2 < d + n))
    s.accessNodes (fun _ a p => a.group == k && !p.done && a.dest.any (fun d => filled d a.nregs)) ++
    s.commandNodes (fun _ c => c.group == k && c.op == 0x02 && filled c.reg 1)
  | .lines ls => s.commandNodes (fun _ c => c.cluster == (s.group k).cluster && ls.any (fun ln => c.cleared.contains ln))
  | .fence m _ => s.scopeNodes k (s.group k).cluster 4 m s.fresh
  | .header mask t => s.commandNodes (fun _ c => c.group == k && decide (c.ec < 8 ∧ t < (s.group k).counter c.ec) && mask.getLsbD c.ec)
  | .counter ec t => s.commandNodes (fun _ c => c.group == k && c.ec == ec && decide (t < (s.group k).counter ec))
  | .queue u => s.commandNodes (fun _ c => c.cluster == (s.group k).cluster && c.unit == u)
  | .block a n => (linesOf a n).flatMap (fun ln => s.lineNodes (s.group k).team ln) ++
      (linesOf a n).flatMap (fun ln => s.roomNodes (some (s.group k).cluster) (s.roomFor (s.group k).cluster ln) ln) ++
      s.accessNodes (fun _ x p => x.group == k && x.kind != .load && !p.done && p.entered.isNone && p.space == .global &&
        decide (p.addr < a + n ∧ a < p.addr + p.len))
  | _ => []

/-- The waits that keep a group from issuing, none where it may go on. -/
def State.heldWaits (s : State) (k : Nat) : List Wait :=
  let g := s.group k
  let ws := if g.handler then [g.hwait] else
    g.issue :: (if g.resumes.any (fun r => s.waitOver k r.wait) then [] else g.resumes.map (·.wait))
  ws.filter (fun w => !s.waitOver k w)

/-- What a region waits for: at REND its predecessors, its lane's accesses, the stores of its cluster's L1 and the levels in which its lines are tentative (R242,
R243, R283); before, the access that its
lane was refused, or what its group waits for. -/
def State.regionWaits (s : State) (id : Nat) : List WaitNode :=
  let sl := s.slot id
  let lane := (s.group sl.group).lane sl.lane
  if sl.phase = 2 then
    sl.preds.map (fun p => .region p.1) ++ s.accessNodes (fun _ a p => a.group == sl.group && p.lane == sl.lane && !p.done) ++
    s.accessNodes (fun _ a p => a.cluster == (s.group sl.group).cluster && p.entered.isSome && !p.done) ++
    ((sl.bytes.map (fun p => p.1 / 128)).dedup).flatMap (fun ln => s.levelNodes (s.group sl.group).team ln)
  else
    match lane.place with
    | .refusal n => [.access n]
    | _ => (s.heldWaits sl.group).flatMap (s.groupWaits sl.group)

/-- What a recovery level waits for: the accesses, commands and regions of its parties (R242). -/
def State.levelWaits (s : State) (t : Nat) : List WaitNode :=
  let ps := s.parties t
  s.accessNodes (fun _ a p => ps.contains a.team && !p.done) ++ s.commandNodes (fun _ c => ps.contains c.team) ++
  (s.openSlots.filter (fun id => ps.contains (s.group (s.slot id).group).team)).map .region

/-- What something waits for. -/
def State.waitsOf (s : State) : WaitNode → List WaitNode
  | .access n => match FMap.look s.accesses n with | some a => s.accessWaits n a | none => []
  | .command n => match FMap.look s.commands n with | some c => s.commandWaits n c | none => []
  | .outside n => match s.outside.find? (fun o => o.num == n) with | some o => s.outsideWaitsFor o | none => []
  | .region id => s.regionWaits id
  | .token k => s.tokenWaits k
  | .level t => s.levelWaits t

/-- Everything reached by waits from some, within `fuel` waits. -/
def State.waitReach (s : State) : Nat → List WaitNode → List WaitNode → List WaitNode
  | 0, seen, _ => seen
  | _, seen, [] => seen
  | fuel + 1, seen, last =>
    let more := ((last.flatMap s.waitsOf).dedup).filter (fun x => !seen.contains x)
    s.waitReach fuel (seen ++ more) more

/-- Something waits for itself through others. -/
def State.inWaitCycle (s : State) (x : WaitNode) : Bool :=
  (s.waitReach (s.accesses.length + s.commands.length + s.outside.length + s.openSlots.length + s.objects.length + s.teams.length) [] [x]).contains x

/-- The open regions on a cycle of waits, or with an access on one. -/
def State.cyclicRegions (s : State) : List Nat :=
  s.openSlots.filter (fun id => s.inWaitCycle (.region id) ||
    s.accesses.any (fun (n, a) => a.parts.any (fun p => p.region == some id && !p.done && p.val.isNone) && s.inWaitCycle (.access n)))

end Sys2Proof.Machine
end

