-- ==== Sys2Proof/Machine/Regions.lean ====
section
/-! DEFINITION. Forwarding regions (08, R180 to R183; 17, R272 to R287): RBEGIN, REND and RSTAT, the grants of slots and serial tokens, commits, the end
of a reservation, and the breaking of waits that close a cycle (R245). -/
namespace Sys2Proof.Machine

/-! ### Opening a region -/

/-- The first free slot of a die, looking from a number up over `fuel` slots (R272). -/
def freeSlot (d : Die) : Nat → Nat → Option Nat
  | 0, _ => none
  | fuel + 1, k => if (FMap.at ({} : Slot) d.slots k).phase = 0 then some k else freeSlot d fuel (k + 1)

/-- A lane's region opens in a slot (R180, R273): what the lane holds is checkpointed, the restart address is the clause's header. -/
def State.openRegion (s : State) (k l id : Nat) (hdr : Word) (serial : Bool) : State :=
  let g := s.group k
  let n := g.lane l
  let check : Checkpoint := { regs := n.regs, empty := n.empty, preds := n.preds, fpflags := n.fpflags }
  let s := { s with fresh := s.fresh + 1 }.onSlot id (fun sl =>
    { phase := 1, born := s.fresh, aborts := sl.aborts, serial := serial, ldepth := g.loops.length, group := k, lane := l, restart := hdr
      check := check, level := (s.team g.team).rlevel, since := s.tick })
  let s := if serial then s.onDie (id / 4096) (fun d => { d with tokenHolder := some id }) else s
  s.onGroup k (fun g => (if serial then g.count 6 else g).onLane l (fun n => { n with region := some id, reserved := none, aborting := false }))

/-- A lane waits for a slot or for the serial token, parked with REASON 4 (R180, R285). -/
def State.waitSlot (s : State) (k l : Nat) (hdr : Word) (serial : Bool) (slot : Option Nat) : State :=
  let w : SlotWaiter := { group := k, lane := l, serial := serial, slot := slot, hdr := hdr }
  let s := s.onGroup k (fun g => g.onLane l (fun n => { n with cond := .parked .regionWait, place := .slotWait }))
  s.onDie (dieOf (s.group k).cluster) (fun d =>
    if serial then { d with tokenWaiters := d.tokenWaiters ++ [w] } else { d with waiters := d.waiters ++ [w] })

/-- RBEGIN in one lane (R180, R272, R281, R284, R285): the slot reserved for its retry, or a free one; in serial mode after the eighth abort or a
capacity overflow. -/
def State.beginLane (s : State) (k l : Nat) (hdr : Word) : State :=
  let die := dieOf (s.group k).cluster
  match ((s.group k).lane l).reserved with
  | some id =>
    let sl := s.slot id
    if 8 ≤ sl.aborts ∨ sl.overflow then
      if (s.die die).tokenHolder.isNone ∧ (s.die die).tokenWaiters.isEmpty then s.openRegion k l id hdr true
      else s.waitSlot k l hdr true (some id)
    else s.openRegion k l id hdr false
  | none =>
    if (s.die die).waiters.isEmpty then
      match freeSlot (s.die die) 4096 0 with
      | some n => s.openRegion k l (die * 4096 + n) hdr false
      | none => s.waitSlot k l hdr false none
    else s.waitSlot k l hdr false none

/-- A lane parked at its RBEGIN whose slot or token is granted (R180): the region opens, the lane is live and resumes at the word after RBEGIN. -/
def State.grantLane (s : State) (w : SlotWaiter) (id : Nat) : State :=
  (s.openRegion w.group w.lane id w.hdr w.serial).onGroup w.group (fun g =>
    let g := g.wake (oneLane w.lane)
    let same (r : ResumePt) : Bool := r.hdr == w.hdr && r.idx == 1 && r.wait == .ready
    if g.resumes.any same then
      { g with resumes := g.resumes.map (fun r => if same r then { r with act := r.act ||| oneLane w.lane } else r) }
    else { g with resumes := resumeAt w.hdr 1 (oneLane w.lane) .ready :: g.resumes })

/-- A lane is still parked where it asked for a slot or for the token. -/
def State.stillWaits (s : State) (w : SlotWaiter) : Bool :=
  let n := (s.group w.group).lane w.lane
  n.isParked && n.place == .slotWait

/-- Slots and the serial token of a die granted to the lanes that wait, in the order they asked (R180, R272, R285). -/
def State.grantDie (s : State) (d : Nat) : Nat → State
  | 0 => s
  | fuel + 1 =>
    let die := s.die d
    match die.waiters, freeSlot die 4096 0 with
    | w :: rest, some n =>
      let s := s.onDie d (fun x => { x with waiters := rest })
      (if s.stillWaits w then s.grantLane w (d * 4096 + n) else s).grantDie d fuel
    | _, _ =>
      match die.tokenHolder, die.tokenWaiters with
      | none, w :: rest =>
        let s := s.onDie d (fun x => { x with tokenWaiters := rest })
        (match w.slot with | some id => if s.stillWaits w then s.grantLane w id else s | none => s).grantDie d fuel
      | _, _ => s

/-- Both dies' grants. -/
def State.grantSlots (s : State) : State :=
  [0, 1].foldl (fun s d => s.grantDie d ((s.die d).waiters.length + (s.die d).tokenWaiters.length)) s

/-! ### Cycles of waits (R245) -/

/-- The region that took its slot last, then of the higher die, then of the higher slot (R245). -/
def State.youngest (s : State) (ids : List Nat) : Option Nat :=
  ids.foldl (fun m id => match m with
    | none => some id
    | some b => if (s.slot b).since < (s.slot id).since ∨ ((s.slot b).since = (s.slot id).since ∧ b < id) then some id else m) none

/-- Cycles of waits with a region access in them break: the youngest region of one aborts, counted as closing a dependence cycle, and what it held goes
on. A serial region is never chosen (R285), nor one that aborts already. -/
def State.breakCycles (s : State) : Nat → State
  | 0 => s
  | fuel + 1 =>
    if s.openSlots.isEmpty then s
    else
      match s.youngest (s.cyclicRegions.filter (fun id => !(s.slot id).serial && (s.slot id).phase != 4)) with
      | some id => (s.abortRegions [id] 2 true).resolveRefused.breakCycles fuel
      | none => s

/-- Regions brought up to date: waiting and refused accesses resolved again, cycles of waits broken, slots and tokens granted. -/
def State.settleRegions (s : State) : State := (s.resolveRefused.breakCycles s.openSlots.length).grantSlots

/-! ### The words -/

/-- RBEGIN (R180, R183). -/
def execRbegin (s : State) : Host.Outcome State Fault Refusal :=
  let g := s.me
  .next (
    if g.regionSet g.run.act != 0 then s.trapHere 0x50 0
    else
      let s := (lanesIn g.run.act).foldl (fun s l => s.beginLane s.cur l g.run.hdr) s
      let s := s.onMe (fun g =>
        let act := setOf (fun l => inSet g.run.act l && (g.lane l).isLive)
        { g with run := { g.run with act := act, quit := g.run.quit || decide (act = 0) } })
      s.advance 1 1)

/-- REND (R181): each lane parks with REASON 4 until its region commits; the run ends (R29). A lane whose region has aborted goes on to the end of its
clause, where the abort is applied (R281). -/
def execRend (s : State) : Host.Outcome State Fault Refusal :=
  let g := s.me
  .next (
    if g.run.act &&& ~~~(g.regionSet g.run.act) != 0 then s.trapHere 0x50 2
    else
      let ending := setOf (fun l => inSet g.run.act l && !(g.lane l).aborting)
      let s := (lanesIn ending).foldl (fun s l => match (g.lane l).region with
        | some id => s.onSlot id (fun sl => { sl with phase := 2 })
        | none => s) s
      (s.onMe (fun g => (g.mapLanes ending (fun _ n => { n with cond := .parked .regionWait, place := .regionEnd })).endRun)).advance 1 1)

/-- RSTAT (R182): one of the eight counts of the group. -/
def execRstat (sd : BitVec 5) (sel : BitVec 3) (s : State) : Host.Outcome State Fault Refusal :=
  s.scalarWord [] [sreg sd] 1 (fun s => s.onMe (fun g => g.setS sd.toNat (FMap.at 0 g.rstat sel.toNat)))

/-! ### Commit (R282, R283, R287) -/

/-- The runs of bytes that a region's versions write: words that a store has written whole, else single bytes. -/
def versionRuns (m : FMap (BitVec 8)) (whole : FMap Unit) : List (Nat × List (BitVec 8)) :=
  ((m.map (fun p => p.1 / 4)).dedup).flatMap (fun w =>
    let bs := (List.range 4).filterMap (fun i => (FMap.look m (4 * w + i)).map (fun b => (4 * w + i, b)))
    if bs.length = 4 ∧ FMap.has whole w then [(4 * w, bs.map (·.2))] else bs.map (fun p => (p.1, [p.2])))

/-- A region may commit: its lane is at REND, its predecessors have committed, and a recorded grid in stall mode finds room in its log (R283, R369). The
commit is a release at device scope: the lane's accesses are performed, and the L1 of its cluster is drained (R234, R235, R243). A line of its versions that
has meanwhile become tentative at a level of another team makes it wait (R242). -/
def State.canCommit (s : State) (id : Nat) : Bool :=
  let sl := s.slot id
  decide (sl.phase = 2) && sl.preds.isEmpty && s.farDone sl.group (oneLane sl.lane) s.fresh && s.l1Drained (s.group sl.group).cluster && !s.logStalls (s.team (s.group sl.group).team).grid &&
  ((sl.bytes.map (fun p => p.1 / 128)).dedup).all (fun ln => !s.foreignLine (s.group sl.group).team ln)

/-- The bookkeeping of a region that has committed. -/
def State.closeRegion (s : State) (id : Nat) : State :=
  let sl := s.slot id
  let sect : FMap (List (Nat × Bool)) := s.sectors.map (fun p => (p.1, p.2.filter (fun a => a.1 != id)))
  let s := { s with sectors := sect.filter (fun p => !p.2.isEmpty) }
  let s := s.openSlots.foldl (fun s k => s.onSlot k (fun x => { x with preds := x.preds.filter (fun p => p.1 != id) })) s
  let s := (s.returnToken id).onSlot id (fun _ => {})
  let s := s.onGroup sl.group (fun g =>
    (g.count 0).onLane sl.lane (fun n => { n with cond := .live, place := .none, region := none, aborting := false, reserved := none }))
  (s.kick (s.group sl.group).team).refreshSlots

/-- A region's commit: its versions are performed at one point; with INVAL set it aborts instead (R282, R283). In a level the lines are logged
first, and past the capacity the level faults (R287, R297). -/
def State.commitRegion (s : State) (id : Nat) : State :=
  let sl := s.slot id
  let g := s.group sl.group
  if sl.inval then s.abortRegions [id] 5 true
  else
    match s.logLines g.team ((sl.bytes.map (fun p => p.1 / 128)).dedup) with
    | none => s.levelFault g.team 0x62 1
    | some s =>
      let sectors := (s.sectors.filter (fun p => p.2.contains (id, true))).length
      let later := s.openSlots.filter (fun k => (s.ancestors 9 k).contains id)
      let s := (versionRuns sl.bytes sl.whole).foldl (fun s r => s.writePhys none r.1 r.2 (id :: later)) s
      let s := s.logPoint (s.team g.team).grid g 2 id sectors
      (s.dropCopies g.cluster).closeRegion id

/-- REGION_COMMIT (R283): the region of a slot of a die. -/
def execRegionCommit (die slot : Nat) (s : State) : Host.Outcome State Fault Refusal :=
  let id := die * 4096 + slot
  .next (if s.canCommit id then (s.commitRegion id).settleRegions else s)

/-- REGION_RESERVATION_LAPSE (R281): the slot kept for a retry is freed once its lane has exited or 2^20 ticks have passed. -/
def execRegionReservationLapse (die slot : Nat) (s : State) : Host.Outcome State Fault Refusal :=
  let id := die * 4096 + slot
  let sl := s.slot id
  let n := (s.group sl.group).lane sl.lane
  .next (
    if sl.phase = 5 ∧ n.reserved = some id ∧ ¬ (n.place = .slotWait ∧ n.isParked) ∧ (!n.counts ∨ sl.since + 2 ^ 20 ≤ s.tick) then
      ((s.onSlot id (fun _ => {})).onGroup sl.group (fun g => g.onLane sl.lane (fun n => { n with reserved := none }))).settleRegions
    else s)

end Sys2Proof.Machine
end

