-- ==== Sys2Proof/Machine/Sync.lean ====
section
/-! DEFINITION. Barriers (R178, R179, R325), event counters (R174), TELECT (R187), METER (R188), LAUNCH (R176, R320, R321) and the waits on other grids
(R177). -/
namespace Sys2Proof.Machine

/-! ### Team barriers -/

/-- The group that a release is reported for: the issuing group where it belongs to the team, else the team's first. -/
def State.reporter (s : State) (t : Nat) : Group :=
  if (s.team t).groups.contains s.cur then s.me else s.group ((s.team t).groups.headD 0)

/-- Barrier b of a team: when every lane of the expected set has arrived and the releases of the arrivals are done, the lanes parked
there become live, the arrival set empties and the phase number advances (R178). A recorded grid in stall mode waits for room in its
log (R369). -/
def State.settleBarrier (s : State) (t b : Nat) : State :=
  let tm := s.team t
  let arr (gid : Nat) : LaneSet := FMap.at 0 tm.arrivals (b * 16 + gid)
  let gs := s.teamGroups t
  let arrived := gs.any (fun (_, g) => arr g.gid != 0)
  let complete := gs.all (fun (_, g) => g.countSet &&& ~~~(arr g.gid) == 0)
  let released := gs.all (fun (k, g) => s.nearDone k (arr g.gid) (FMap.at 0 tm.arrUpto (b * 16 + g.gid)))
  if arrived && complete && released && !s.logStalls tm.grid then
    let phase := FMap.at 0 tm.phases b
    let s := gs.foldl (fun s (k, _) => s.onGroup k (fun g =>
      g.wake (setOf (fun l => (g.lane l).isParked && (g.lane l).place == .barrier b)))) s
    let s := (s.onTeam t (fun tm => { tm with
      arrivals := gs.foldl (fun m (_, g) => FMap.put m (b * 16 + g.gid) 0) tm.arrivals
      phases := FMap.put tm.phases b (phase + 1) })).kick t
    s.logPoint tm.grid (s.reporter t) 4 (Config.barrierKey b phase).toNat 0
  else s

/-- The four barriers of a team. -/
def State.settleBarriers (s : State) (t : Nat) : State :=
  [0, 1, 2, 3].foldl (fun s b => s.settleBarrier t b) s

/-- The active set arrives at barrier b (R178). -/
def State.arrive (s : State) (b : Nat) : State :=
  let g := s.me
  let key := b * 16 + g.gid
  s.onTeam g.team (fun t => { t with
    arrivals := FMap.put t.arrivals key (FMap.at 0 t.arrivals key ||| g.run.act)
    arrUpto := FMap.put t.arrUpto key s.fresh })

/-- The active lanes parked with REASON 2 at *next*, and the run ends (R178). -/
def Group.parkNext (g : Group) (p : Place) : Group :=
  ((g.moveTo (fun _ => g.run.next)).mapLanes g.run.act (fun _ n => { n with cond := .parked .convergence, place := p })).endRun

/-- TBAR (R178, R183). -/
def execTbar (b : BitVec 2) (s : State) : Host.Outcome State Fault Refusal :=
  .next (s.eGate [] [] false true false
    ((((s.arrive b.toNat).onMe (·.parkNext (.barrier b.toNat))).advance 1 1).settleBarriers s.me.team))

/-- TARRIVE (R178, R183). -/
def execTarrive (b : BitVec 2) (s : State) : Host.Outcome State Fault Refusal :=
  .next (s.eGate [] [] false true false (((s.arrive b.toNat).advance 1 1).settleBarriers s.me.team))

/-! ### The grid barrier -/

/-- The teams of a grid that have been dispatched and have not retired. -/
def State.gridTeams (s : State) (k : Nat) : List Nat := (s.grid k).live

/-- The clusters that hold lanes parked at a grid's barrier. -/
def State.gbarClusters (s : State) (k : Nat) : List Nat :=
  ((s.gridTeams k).flatMap (fun t => (s.teamGroups t).filterMap (fun (_, g) =>
    if (lanesIn g.countSet).any (fun l => (g.lane l).isParked && (g.lane l).place == .gridBarrier) then some g.cluster else none))).dedup

/-- Numbers put in rising order of a key. -/
def insertBy (f : Nat → Nat) (x : Nat) : List Nat → List Nat
  | [] => [x]
  | y :: ys => if f x ≤ f y then x :: y :: ys else y :: insertBy f x ys

/-- Numbers sorted by a key. -/
def sortBy (f : Nat → Nat) (xs : List Nat) : List Nat := xs.foldr (insertBy f) []

/-- The release ticks of the clusters of a completed phase (R325): o is the cluster of the last arrival, t0 its tick. -/
def releaseTicks (o t0 : Nat) (cls : List Nat) : List (Nat × Nat) :=
  let order := sortBy (fun c => (c + 160 - o) % 160) cls
  let near := order.filter (fun c => dieOf c == dieOf o)
  let far := order.filter (fun c => dieOf c != dieOf o)
  near.mapIdx (fun i c => (c, t0 + 2 * i)) ++ far.mapIdx (fun i c => (c, t0 + 2 * i + 1))

/-- A grid's barrier (R179, R325): when every live or parked lane of every team has arrived and the releases are done, the phase completes and the
release of its clusters is set out. -/
def State.settleGrid (s : State) (k : Nat) : State :=
  let ts := s.gridTeams k
  let arr (t : Nat) (gid : Nat) : LaneSet := FMap.at 0 (s.team t).gridArr gid
  let arrived := ts.any (fun t => (s.teamGroups t).any (fun (_, g) => arr t g.gid != 0))
  let complete := ts.all (fun t => (s.teamGroups t).all (fun (_, g) => g.countSet &&& ~~~(arr t g.gid) == 0))
  let released := ts.all (fun t => (s.teamGroups t).all (fun (n, g) => s.scopeDone n g.cluster 4 (arr t g.gid) (s.team t).gridUpto))
  if arrived && complete && released then
    let rel := releaseTicks (s.grid k).gbarCl (s.grid k).gbarTick (s.gbarClusters k)
    let s := ts.foldl (fun s t => (s.onTeam t (fun tm => { tm with gridArr := [], gphase := tm.gphase + 1 })).kick t) s
    s.onGrid k (fun g => { g with gphase := g.gphase + 1, releases := g.releases ++ rel })
  else s

/-- GBAR (R179, R186): cause 0x70 in a grid that is not co-resident. -/
def execGbar (s : State) : Host.Outcome State Fault Refusal :=
  .next (s.eGate [] [] false false false (
    let g := s.me
    if !(s.gridOf g).record.cores then s.trapHere 0x70 0
    else
      let n := s.fresh
      let s := { s with fresh := n + 1 }.onTeam g.team (fun t => { t with
        gridArr := FMap.put t.gridArr g.gid (FMap.at 0 t.gridArr g.gid ||| g.run.act), gridUpto := n })
      let s := s.onGrid (s.team g.team).grid (fun x => { x with gbarTick := s.tick, gbarCl := g.cluster })
      ((s.onMe (·.parkNext .gridBarrier)).advance 1 1).settleGrid (s.team g.team).grid))

/-- GBAR_CLUSTER_RELEASE (R179, R325): a cluster's turn has come; its lanes parked at the phase acquire at device scope and resume. -/
def execGbarClusterRelease (grid cl : Nat) (s : State) : Host.Outcome State Fault Refusal :=
  let g := s.grid grid
  .next (
    if g.releases.any (fun r => r.1 == cl && decide (r.2 ≤ s.tick)) && !s.logStalls grid then
      let gs := (s.gridTeams grid).flatMap (fun t => (s.teamGroups t).filter (fun (_, x) => x.cluster == cl))
      let s := gs.foldl (fun s (k, _) => s.onGroup k (fun g =>
        g.wake (setOf (fun l => (g.lane l).isParked && (g.lane l).place == .gridBarrier)))) s
      let s := (s.onGrid grid (fun g => { g with releases := g.releases.filter (fun r => r.1 != cl) })).dropCopies cl
      match gs.head? with
      | some (_, x) => s.logPoint grid x 5 (Config.barrierKey 4 g.gphase).toNat 0
      | none => s
    else s)

/-! ### Event counters, TELECT, METER -/

/-- EVINC (R174): at 0xFFFF or more cause 0x80. -/
def execEvinc (ec : BitVec 3) (n : BitVec 8) (s : State) : Host.Outcome State Fault Refusal :=
  let v := s.me.counter ec.toNat + n.toNat
  .next (if 0xFFFF ≤ v then s.trapHere 0x80 ec.toNat else (s.onMe (fun g => g.setCounter ec.toNat v)).advance 1 1)

/-- EVDEC (R174): below 0 cause 0x80. -/
def execEvdec (ec : BitVec 3) (n : BitVec 8) (s : State) : Host.Outcome State Fault Refusal :=
  let v := s.me.counter ec.toNat
  .next (if v < n.toNat then s.trapHere 0x80 ec.toNat else (s.onMe (fun g => g.setCounter ec.toNat (v - n.toNat))).advance 1 1)

/-- The group of a team that TELECT elects (R187): the lowest GROUPID that still holds a live or parked lane. -/
def State.elected (s : State) (t : Nat) : Option Nat :=
  (s.teamGroups t).foldl (fun m (_, g) =>
    if g.countSet = 0 then m else match m with | none => some g.gid | some x => some (min x g.gid)) none

/-- TELECT (R187). -/
def execTelect (pd : BitVec 5) (s : State) : Host.Outcome State Fault Refusal :=
  let g := s.me
  let chosen := s.elected g.team == some g.gid
  .next ((s.commit s.cur (g.mapLanes g.run.act (fun l n => n.setPred pd.toNat (chosen && l == lowest g.run.act)))
    (Writes.on { preds := true } g.run.act)).advance 1 1)

/-- METER (R188): the destinations are empty until METER_RESULT. -/
def execMeter (sd : BitVec 5) (s : State) : Host.Outcome State Fault Refusal :=
  .next (s.gated (s.me.gate [] [sreg sd, sreg sd + 1]) (
    let p : Producer := { kind := .meter, group := s.cur, sdests := [(sd.toNat, 0), (sd.toNat + 1, 0)] }
    ({ s with producers := FMap.put s.producers s.fresh p, fresh := s.fresh + 1 }.onMe
      (fun g => (g.emptyS sd.toNat).emptyS (sd.toNat + 1))).advance 1 1))

/-! ### Grids -/

/-- The active lanes go to *next*, the run ends and the group waits (R177). -/
def State.waitGrid (s : State) (w : Wait) : State :=
  (s.onMe (fun g => { (g.moveTo (fun _ => g.run.next)).endRun with issue := w })).advance 1 1

/-- WAITCHILD (R177, R186). -/
def execWaitchild (s : State) : Host.Outcome State Fault Refusal :=
  .next (s.eGate [] [] false false false (s.waitGrid (.children s.myTeam.children)))

/-- WAITPRED (R177, R186). -/
def execWaitpred (s : State) : Host.Outcome State Fault Refusal :=
  .next (s.eGate [] [] false false false (s.waitGrid .pred))

/-- Every team of a grid has been dispatched (R308, R319). -/
def Grid.dispatched (g : Grid) : Bool := g.next == g.record.teams && g.again.isEmpty

/-- The condition of a grid on its predecessor (R177, R308): every team of it dispatched, and signalled or retired. -/
def State.predMet (s : State) (g : Grid) : Bool :=
  match g.pred with
  | none => true
  | some p =>
    let q := s.grid p
    q.retired || (q.dispatched && q.live.all (fun t => (s.team t).succok))

/-- A grid that has been read or queued becomes ready now (R322): its condition has come to hold. -/
def State.turnsReady (s : State) (g : Grid) : Bool :=
  g.readyAt.isNone && !g.retired && (g.parent.isNone || g.qorder.isSome) && s.predMet g

/-- Grids whose condition has come to hold become ready (R322). -/
def State.settleReady (s : State) : State :=
  if s.grids.any (fun p => s.turnsReady p.2) then
    { s with grids := FMap.mapVals (fun _ g => if s.turnsReady g then { g with readyAt := some s.tick } else g) s.grids }
  else s

/-- SUCCOK (R177, R308). -/
def execSuccok (s : State) : Host.Outcome State Fault Refusal :=
  .next (s.eGate [] [] false true false (
    let g := s.me
    let new := !(s.team g.team).succok
    let s := s.onTeam g.team (fun t => { t with succok := true })
    ((if new then s.onGrid (s.team g.team).grid (fun x => { x with signalled := x.signalled + 1 }) else s).advance 1 1).settleReady))

/-- The predecessor of a child record: the last child the team launched before it, while it has not retired (R321); a restart of the team
changes nothing about that (R329). -/
def State.childPred (s : State) (t : Nat) (r : LaunchRec) : Option Nat :=
  if r.flags.getLsbD 12 then
    match (s.team t).lastChild with
    | some k => if (s.grid k).retired then none else some k
    | none => none
  else none

/-- A child launch judged and queued (R176, R320): 3 an invalid record, 2 too deep, 1 no room, 0 queued in the child queue of its priority or in the
overflow ring. An overflow ring that cannot be written has no room. -/
def State.launchChild (s : State) (b : List (BitVec 8)) : State × Nat :=
  let g := s.me
  let t := s.team g.team
  let parent := s.grid t.grid
  let r := parseRecord b
  let die := dieOf g.cluster
  let queue := FMap.at [] (s.die die).childQueues r.prio
  let cap := parent.record.ringCap
  let k := s.fresh
  let child : Grid :=
    { part := parent.part, depth := parent.depth + 1, parent := some g.team, pred := s.childPred g.team r, record := r, die := die, order := k }
  let born (s : State) (at_ : Option Nat) : State :=
    { s with grids := FMap.put s.grids k { child with qorder := at_ }, fresh := k + 1 }.onTeam g.team
      (fun t => { t with children := t.children ++ [k], lastChild := some k })
  if (recordFault r (s.partClusters parent.part).length).isSome then (s, 3)
  else if 10 ≤ parent.depth then (s, 2)
  else if queue.length < 32 then
    ((born s (some k)).onDie die (fun d => { d with childQueues := FMap.put d.childQueues r.prio (queue ++ [k]) }), 0)
  else if parent.ringIds.length < cap then
    let w := s.hostStyleWrite parent.part (parent.record.ring + 128 * (parent.ringTail % cap)) b
    if w.2 then
      ((born w.1 none).onGrid t.grid (fun x => { x with ringTail := x.ringTail + 1, ringIds := x.ringIds ++ [k] }), 0)
    else (w.1, 1)
  else (s, 1)

/-- LAUNCH (R176): the record is read and the child queued; the status reaches sD at LAUNCH_RESULT. -/
def execLaunch (p sd : BitVec 5) (s : State) : Host.Outcome State Fault Refusal :=
  let va := (s.me.sPair p.toNat).toNat
  .next (s.eGate [sreg p, sreg p + 1] [sreg sd] false false true
    (s.withBlock va 128 128 (fun b s =>
      let r := s.launchChild b
      let s := r.1.settleReady
      let q : Producer := { kind := .launch, group := s.cur, sdests := [(sd.toNat, BitVec.ofNat 32 r.2)] }
      ({ s with producers := FMap.put s.producers s.fresh q, fresh := s.fresh + 1 }.onMe (fun g => g.emptyS sd.toNat)).advance 1 1)))

end Sys2Proof.Machine
end

