-- ==== Sys2Proof/Machine/Recovery.lean ====
section
/-! DEFINITION. Recovery levels (08, R184 to R186; 18, R289 to R291; 19, R294 to R307): the recovery words, when they take effect, the tick limit, the
rollback of a level and the flush to the outermost ENSURE, and conversations. -/
namespace Sys2Proof.Machine

/-! ### Arriving at a recovery word -/

/-- The active lanes arrive at the issuing recovery word and park with REASON 2, their program counters on its clause; the run ends (R184). -/
def State.arriveRec (s : State) (addr : DWord) (code : Nat) (pass : Bool) : State :=
  let g := s.me
  let r := g.run
  let here (a : RecArrival) : Bool := a.hdr == r.hdr && a.word == r.idx && a.op == r.eop
  let old := (s.team g.team).recArrivals
  let new : RecArrival := match old.find? here with
    | some a => { a with lanes := FMap.put a.lanes g.gid (FMap.at 0 a.lanes g.gid ||| r.act), pass := a.pass && pass }
    | none => { op := r.eop, addr := addr, code := code, hdr := r.hdr, word := r.idx, lanes := [(g.gid, r.act)], pass := pass }
  let s := s.onTeam g.team (fun t => { t with recArrivals := old.filter (fun a => !here a) ++ [new] })
  (s.advance 1 1).onMe (fun g =>
    { g.mapLanes r.act (fun _ n => { n with cond := .parked .convergence, place := .recovery r.eop }) with
      run := { g.run with stopped := true } })

/-- The arrival of a resident team at a recovery word that every lane of its expected set has reached, for one of some opcodes (R184, R289). -/
def State.recReady (s : State) (t : Nat) (ops : List Nat) : Option RecArrival :=
  let gs := s.teamGroups t
  if (s.team t).rollback.isSome || !(match (s.team t).place with | .resident _ => true | _ => false) then none
  else (s.team t).recArrivals.find? (fun a =>
    ops.contains a.op && gs.any (fun (_, g) => g.countSet != 0) &&
    gs.all (fun (_, g) => g.countSet &&& ~~~(FMap.at 0 a.lanes g.gid) == 0))

/-- Every access and long-latency producer of a team is complete. -/
def State.teamQuiet (s : State) (t : Nat) : Bool :=
  s.accesses.all (fun a => a.2.team != t) && s.producers.all (fun p => (s.group p.2.group).team != t)

/-- The accesses and long-latency producers of a team are complete, but for region accesses, which end with their regions (R287, R288, R302). -/
def State.teamDrained (s : State) (t : Nat) : Bool :=
  s.accesses.all (fun (_, a) => a.team != t || a.parts.all (fun p => p.done || p.region.isSome)) &&
  s.producers.all (fun p => (s.group p.2.group).team != t)

/-- The lanes of a team that are live or parked go to an address; waits, gatherings, resume points and slot requests of its groups are at an end. -/
def State.sendTeam (s : State) (t : Nat) (a : Word) : State :=
  (s.teamGroups t).foldl (fun s (k, g) => s.onGroup k (fun _ =>
    { g.mapLanes g.countSet (fun _ n => { n with cond := .live, place := .none, vpc := a }) with
      gatherings := [], resumes := [], issue := .ready })) (s.dropWaiters (s.team t).groups)

/-- The exit codes of RSTATUS and the record log: the outcome of a level of a team reported (R367, R368). -/
def State.logOutcome (s : State) (t level reason routine : Nat) : State :=
  s.logPoint (s.team t).grid (s.reporter t) 3 level (reason % 256 + routine * 2 ^ 8)

/-! ### ENSURE -/

/-- A descriptor (R294). -/
structure RecDesc where
  test    : Word
  cont    : Word
  primary : Word
  alts    : List Word
  nalt    : Nat
  ticks   : Nat
  noreg   : Bool
  conv    : Nat
  deriving DecidableEq, Repr

/-- A descriptor read from its 64 bytes. -/
def parseDesc (b : List (BitVec 8)) : RecDesc :=
  let w (o : Nat) : Word := BitVec.ofNat 32 (fieldAt b o 4)
  { test := w 0, cont := w 4, primary := w 8, alts := (List.range 6).map (fun i => w (12 + 4 * i)), nalt := fieldAt b 36 4 % 8
    ticks := fieldAt b 40 4, noreg := fieldAt b 44 4 % 2 == 1, conv := fieldAt b 48 8 }

/-- The field rules of a descriptor (R294). -/
def descFields (b : List (BitVec 8)) : List (Bool × Nat) :=
  let n := fieldAt b 36 4
  (List.range 6).map (fun i => (decide (n ≤ i) && fieldAt b (12 + 4 * i) 4 != 0, 12 + 4 * i)) ++
  [ (decide (6 < n), 36), (decide (1 < fieldAt b 44 4), 44), (fieldAt b 48 8 % 64 != 0, 48), (!zeroAt b 56 8, 56) ]

/-- What a team's ENSURE comes to when all its lanes have arrived (R184, R294, R295): the descriptor and the conversation's key, a cause, or a wait
for a page. -/
inductive EnsureEnd where
  | open_ (d : RecDesc) (key : Nat)
  | bad (code detail addr : Nat)
  | page (page : Nat)
  | wait
  deriving DecidableEq, Repr

/-- The key of a conversation object in the table: its physical address, one up, so that 0 names none, with its memory and its partition, since the
members of a conversation are teams of one partition (R305; DEDUCED, log entry 73). -/
def convKey (part : Nat) (sp : Space) (pa : Nat) : Nat := pa + 1 + (match sp with | .host => 2 ^ 57 | _ => 0) + part * 2 ^ 58

/-- The ENSURE of a team judged (R184): the alignment, the read, the fields, then DETAIL 5 and 8 of cause 0x60. -/
def State.judgeEnsure (s : State) (t : Nat) (a : RecArrival) : EnsureEnd :=
  let tm := s.team t
  let cl := match tm.place with | .resident c => c | _ => 0
  let part := (s.grid tm.grid).part
  let va := a.addr.toNat
  if va % 64 ≠ 0 then .bad 0x81 0x1A va
  else
    match s.target cl part .read va with
    | .bad 0x31 _ => .page (va / 2 ^ 16)
    | .bad c d => .bad c (d.getD (5 * 64 + 0x1A)) va
    | .ok sp pa =>
      if sp = .global ∧ s.waitsAt t cl false pa 64 then .wait
      else if sp = .host ∧ (wordsIn pa 64).any (fun w => FMap.has s.hostErr w) then .bad 0x3A (5 * 64 + 0x1A) va
      else
        let b := match sp with
          | .host => Mem.readBytes s.hostMem pa 64
          | .fabric => if s.remoteOpen part pa 64 then s.remoteRead part pa 64 else List.replicate 64 0
          | _ => (s.viewBytes cl pa 64).mapIdx (fun i x => if FMap.has s.poison ((pa + i) / 4) then 0 else x)
        let bad := match sp with
          | .host => false
          | .fabric => !s.remoteOpen part pa 64
          | _ => (wordsIn pa 64).any (fun w => FMap.has s.poison w)
        let d := parseDesc b
        if bad && tm.rlevel != 0 then .bad 0x90 (5 * 64 + 0x1A) va else
        match fieldFail va (descFields b) with
        | some (c, e, x) => .bad c e x
        | none =>
          let above := (tm.levels.getLast?).map (·.conv)
          if d.conv = 0 then (if (above.getD 0) ≠ 0 then .bad 0x60 8 0 else .open_ d 0)
          else
            match s.target cl part .read d.conv with
            | .bad 0x31 _ => .page (d.conv / 2 ^ 16)
            | .bad c e => .bad c (e.getD (5 * 64 + 0x1A)) d.conv
            | .ok sp q =>
              let key := convKey part sp q
              if !(match FMap.look s.convs key with | some c => c.members.contains t | none => false) then .bad 0x60 5 0
              else if above.isSome ∧ above ≠ some key then .bad 0x60 8 0
              else .open_ d key

/-- What the reads of an ENSURE that has been judged leave behind: translations, table errors, poisoned words read as zero (R224, R225, R348). -/
def State.noteEnsure (s : State) (t : Nat) (a : RecArrival) : State :=
  let tm := s.team t
  let cl := match tm.place with | .resident c => c | _ => 0
  let part := (s.grid tm.grid).part
  let s := s.noteWalk cl part .read a.addr.toNat
  match s.target cl part .read a.addr.toNat with
  | .ok .global pa => s.countErr part 1 (if tm.rlevel = 0 then ((wordsIn pa 64).filter (fun w => FMap.has s.poison w)).length else 0)
  | .ok .fabric pa => s.countErr part 1 (if tm.rlevel = 0 ∧ !s.remoteOpen part pa 64 then 16 else 0)
  | _ => s

/-- A cause of ENSURE at the moment it would take effect (R184): in a level a fault of it; else every arrival at that word is withdrawn and the cause
raised in each group that had arrived. -/
def State.failEnsure (s : State) (t : Nat) (a : RecArrival) (code detail addr : Nat) : State :=
  let tm := s.team t
  if tm.rlevel ≠ 0 then s.levelFault t code
  else
    let s := s.onTeam t (fun tm => { tm with recArrivals := tm.recArrivals.filter (fun x => x != a) })
    (s.teamGroups t).foldl (fun s (k, g) =>
      let m := FMap.at 0 a.lanes g.gid &&& g.countSet
      if m = 0 then s
      else
        (s.onGroup k (fun g => g.wake m)).raise k
          { code := code, detail := detail, hdr := a.hdr, word := a.word, lanes := m, addr := BitVec.ofNat 64 addr }
          (some (resumeAt a.hdr a.word m .ready))) s

/-- A level opens for a team (R184, R294). -/
def State.openLevel (s : State) (t : Nat) (a : RecArrival) (d : RecDesc) (key : Nat) : State :=
  let tm := s.team t
  let lv : Level :=
    { test := d.test, cont := d.cont, primary := d.primary, alts := d.alts, nalt := d.nalt, ticks := d.ticks, noreg := d.noreg
      conv := key, ensure := a.hdr, ensWord := a.word, ensAddr := a.addr, arrivals := tm.arrivals, phases := tm.phases }
  (s.sendTeam t d.primary).onTeam t (fun tm => { tm with levels := tm.levels ++ [lv], recArrivals := [] })

/-- The teams that must arrive with a team at a recovery word that opens a level (R289): the members of the conversation once it has as many as its
count. -/
def State.ensureParties (s : State) (t key : Nat) : Option (List Nat) :=
  if key = 0 then some [t]
  else
    match FMap.look s.convs key with
    | some c => if c.members.length = c.teams then some c.members else none
    | none => none

/-- ENSURE takes effect where it may (R184, R289). -/
def State.settleEnsure (s : State) (t : Nat) : State :=
  match s.recReady t [0x1A] with
  | none => s
  | some a =>
    if !s.teamQuiet t then s
    else
      match s.judgeEnsure t a with
      | .wait => s
      | .page p => s.requestPage (s.grid (s.team t).grid).part p
      | .bad c d x => (s.noteEnsure t a).failEnsure t a c d x
      | .open_ _ key =>
        match s.ensureParties t key with
        | none => s
        | some ms =>
          let all_ := ms.map (fun m => (m, s.recReady m [0x1A]))
          let ready := all_.all (fun (m, x) => s.teamQuiet m && match x with
            | some b => (match s.judgeEnsure m b with | .open_ _ k => k == key | _ => false)
            | none => false)
          if ready then
            all_.foldl (fun s' (m, x) => match x with
              | some b => (match s.judgeEnsure m b with | .open_ d k => (s'.noteEnsure m b).openLevel m b d k | _ => s')
              | none => s') s
          else s

/-! ### ELSEBY, ELSEERR, ACCEPT -/

/-- Every party of a team's innermost level has arrived at a word of some opcodes, with its accesses and producers complete (R306). -/
def State.partiesReady (s : State) (t : Nat) (ops : List Nat) : Bool :=
  (s.parties t).all (fun m => (s.recReady m ops).isSome && s.teamQuiet m)

/-- ELSEBY and ELSEERR take effect (R184, R306): the test runs. -/
def State.settleElse (s : State) (t : Nat) : State :=
  if (s.recReady t [0x1B, 0x1C]).isSome && s.partiesReady t [0x1B, 0x1C] then
    (s.parties t).foldl (fun s' m =>
      match s.recReady m [0x1B, 0x1C], (s.team m).levels.getLast? with
      | some a, some lv =>
        let lv := { lv with phase := 2, errCode := if a.op = 0x1C then some a.code else lv.errCode }
        (s'.sendTeam m lv.test).onTeam m (fun tm => { tm with levels := tm.levels.dropLast ++ [lv], recArrivals := [] })
      | _, _ => s') s
  else s

/-- The caches of a level merged into the one below it (R299): an entry that the lower level holds is discarded. -/
def Level.mergeInto (up low : Level) : Level :=
  let lane (k : Nat) (x : LaneLog) : LaneLog :=
    let y := FMap.at ({} : LaneLog) low.lanes k
    { regs := x.regs.foldl (fun m p => if FMap.has m p.1 then m else FMap.put m p.1 p.2) y.regs
      preds := match y.preds with | some p => some p | none => x.preds
      fpflags := match y.fpflags with | some p => some p | none => x.fpflags }
  { low with
    lanes := up.lanes.foldl (fun m p => FMap.put m p.1 (lane p.1 p.2)) low.lanes
    scratch := up.scratch.foldl (fun m p => if FMap.has m p.1 then m else FMap.put m p.1 p.2) low.scratch
    lines := up.lines.foldl (fun m p => if FMap.has m p.1 then m else FMap.put m p.1 p.2) low.lines }

/-- The innermost level of a team with those of its lines that no party's next level has logged: where one has, it holds the older value (R242, R306). -/
def State.ownLines (s : State) (t : Nat) (lv : Level) : Level :=
  let older (ln : Nat) : Bool := (s.parties t).any (fun m => m != t &&
    match (s.team m).levels[(s.team t).rlevel - 2]? with | some x => FMap.has x.lines ln | none => false)
  { lv with lines := lv.lines.filter (fun p => !older p.1) }

/-- A level passes its test in a team (R184, R299): the caches are merged or discarded, and every lane goes to the continuation. -/
def State.passLevel (s : State) (t : Nat) : State :=
  match (s.team t).levels.reverse with
  | [] => s
  | lv :: below =>
    let rest := match below with
      | [] => []
      | low :: more => ((s.ownLines t lv).mergeInto low :: more).reverse
    let level := (s.team t).rlevel
    let s := (s.sendTeam t lv.cont).onTeam t (fun tm => { tm with levels := rest, recArrivals := [], wdcount := 0 })
    s.logOutcome t level 0 lv.routine

/-- The limit of a level of a team: the smallest TICKS that is not zero among the parties (R304). -/
def State.tickLimit (s : State) (t i : Nat) : Option Nat :=
  (s.parties t).foldl (fun m p =>
    match (s.team p).levels[i]? with
    | some lv => if lv.ticks = 0 then m else match m with | none => some lv.ticks | some x => some (min x lv.ticks)
    | none => m) none

/-- The outermost level of a team whose limit has expired, with `extra` ticks that have passed and are still to be charged (R304). -/
def State.expiredLevel (s : State) (t : Nat) (extra : Nat := 0) : Option Nat :=
  (List.range (s.team t).rlevel).find? (fun i =>
    match s.tickLimit t i, (s.team t).levels[i]? with
    | some n, some lv => decide (n ≤ lv.used + extra)
    | _, _ => false)

/-- ACCEPT takes effect (R184, R306): every member passes, or the level rolls back. The outermost one is a release at device scope (R242). Where a tick
limit has expired the rollback wins (R301). -/
def State.settleAccept (s : State) (t : Nat) (extra : Nat := 0) : State :=
  let ps := s.parties t
  let cl (m : Nat) : Nat := match (s.team m).place with | .resident c => c | _ => 0
  let drained := ps.all (fun m => (s.team m).rlevel != 1 || s.l1Drained (cl m))
  let room := ps.all (fun m => !s.logStalls (s.team m).grid ps.length)
  if (s.recReady t [0x1D]).isSome && s.partiesReady t [0x1D] && drained && room then
    match s.expiredLevel t extra with
    | some i => s.beginRollback t (i + 1) 0x63
    | none =>
    if ps.all (fun m => match s.recReady m [0x1D] with | some a => a.pass | none => false) then
      ps.foldl (fun s m => s.passLevel m) s
    else s.beginRollback t (s.team t).rlevel 0x68
  else s

/-- Recovery words of a team take effect where they may. -/
def State.settleRecovery (s : State) (t : Nat) (extra : Nat := 0) : State := ((s.settleEnsure t).settleElse t).settleAccept t extra

/-- Barriers, grid barriers and recovery words of a team completed where they can be. -/
def State.settleTeam (s : State) (t : Nat) : State := ((s.settleBarriers t).settleGrid (s.team t).grid).settleRecovery t

/-! ### The words -/

/-- The gate of ELSEBY, ELSEERR, ACCEPT and REJECT: region misuse, then no level open (R183, R184). -/
def State.levelGate (s : State) (k : State) : State :=
  s.eGate [] [] false true false (if s.myTeam.rlevel = 0 then s.trapHere 0x60 1 else k)

/-- ENSURE (R184): nesting beyond six is judged at arrival. -/
def execEnsure (p : BitVec 5) (s : State) : Host.Outcome State Fault Refusal :=
  .next (s.eGate [sreg p, sreg p + 1] [] false true false
    (if 6 ≤ s.myTeam.rlevel then s.trapHere 0x60 0 else (s.arriveRec (s.me.sPair p.toNat) 0 true).settleRecovery s.me.team))

/-- ELSEBY (R184). -/
def execElseby (s : State) : Host.Outcome State Fault Refusal :=
  .next (s.levelGate ((s.arriveRec 0 0 true).settleRecovery s.me.team))

/-- ELSEERR (R184). -/
def execElseerr (code : BitVec 15) (s : State) : Host.Outcome State Fault Refusal :=
  .next (s.levelGate ((s.arriveRec 0 code.toNat true).settleRecovery s.me.team))

/-- ACCEPT (R184): the predicate in every arrived lane. The ticks of its step that are still to be charged count against the limit (R301). -/
def execAccept (p : BitVec 5) (s : State) : Host.Outcome State Fault Refusal :=
  let g := s.me
  let t := s.arriveRec 0 0 ((lanesIn g.run.act).all (fun l => (g.lane l).pred p.toNat))
  .next (s.levelGate (t.settleRecovery g.team (t.tick - g.run.began)))

/-- REJECT (R184): a rollback of the level begins; the run ends. -/
def execReject (s : State) : Host.Outcome State Fault Refusal :=
  .next (s.levelGate (((s.advance 1 1).onMe (fun g => { g with run := { g.run with stopped := true } })).beginRollback s.me.team
    s.myTeam.rlevel 0x67))

/-! ### Conversations -/

/-- The rules of a conversation object (R305). -/
def convFields (b : List (BitVec 8)) : List (Bool × Nat) :=
  [(decide (fieldAt b 0 4 = 0 ∨ 16 < fieldAt b 0 4), 0), ((b.drop 4).any (· != 0), 4)]

/-- The key of the conversation object at the address of the issuing word. -/
def State.convAt (s : State) (va : Nat) : Nat :=
  match s.target s.me.cluster (s.partOf s.me) .read va with | .ok sp pa => convKey (s.partOf s.me) sp pa | .bad .. => 0

/-- CONVJOIN (R185, R305). -/
def execConvjoin (p : BitVec 5) (s : State) : Host.Outcome State Fault Refusal :=
  let va := (s.me.sPair p.toNat).toNat
  .next (s.eGate [sreg p, sreg p + 1] [] false true false
    (s.withBlock va 64 64 (fun b s =>
      let t := s.me.team
      let part := s.partOf s.me
      let key := s.convAt va
      let old := FMap.look s.convs key
      let members := match old with | some c => c.members | none => []
      let teams := fieldAt b 0 4
      let share := (s.part part).partcfg.toNat / 2 ^ 31 % 2 ^ 10
      let used := (s.convs.filter (fun c => c.2.part == part)).length
      if members.contains t then (s.checked [fieldFail va (convFields b)] (s.advance 1 1))
      else
        s.checked [fieldFail va (convFields b), failIf (decide (teams ≤ members.length)) 0x60 3 0
            , failIf (old.isNone && decide (share ≤ used)) 0x60 7 0
            , failIf (s.myTeam.rlevel != 0 || members.any (fun m => (s.team m).rlevel != 0)) 0x60 9 0]
          ({ s with convs := FMap.put s.convs key { part := part, teams := teams, members := members ++ [t] } }.onTeam t
            (fun tm => { tm with convs := tm.convs ++ [key] }) |>.advance 1 1))))

/-- A team leaves a conversation; the entry is freed with its last member (R305). -/
def State.leaveConv (s : State) (t key : Nat) : State :=
  let s := s.onTeam t (fun tm => { tm with convs := tm.convs.filter (· != key) })
  match FMap.look s.convs key with
  | some c =>
    let ms := c.members.filter (· != t)
    { s with convs := if ms.isEmpty then FMap.del s.convs key else FMap.put s.convs key { c with members := ms } }
  | none => s

/-- A team leaves every conversation it belongs to (R305). -/
def State.leaveConvs (s : State) (t : Nat) : State := (s.team t).convs.foldl (fun s k => s.leaveConv t k) s

/-- CONVLEAVE (R185). -/
def execConvleave (p : BitVec 5) (s : State) : Host.Outcome State Fault Refusal :=
  let va := (s.me.sPair p.toNat).toNat
  .next (s.eGate [sreg p, sreg p + 1] [] false true false
    (s.withBlock va 64 64 (fun b s =>
      let key := s.convAt va
      s.checked [fieldFail va (convFields b), failIf (s.myTeam.levels.any (fun lv => lv.conv == key)) 0x60 4 0]
        ((s.leaveConv s.me.team key).advance 1 1))))

/-! ### Rollback (R302) -/

/-- A lane as its level's log restores it (R297, R302): lr is invalid in every lane. -/
def LaneLog.restore (lg : LaneLog) (n : Lane) : Lane :=
  let n := lg.regs.foldl (fun n p =>
    if p.2.2 then { n with regs := FMap.put n.regs p.1 p.2.1, empty := n.empty ||| (1#72 <<< p.1) } else n.setReg p.1 p.2.1) n
  { n with preds := lg.preds.getD n.preds, fpflags := lg.fpflags.getD n.fpflags, lrValid := false }

/-- A global line put back with its poison; clusters fetch it afresh (R242, R302). -/
def State.restoreLine (s : State) (ln : Nat) (bs : List (BitVec 8)) (bad : List Nat) : State :=
  let clean := (wordsIn (128 * ln) 128).foldl FMap.del s.poison
  { s with
    clusters := FMap.mapVals (fun _ c => c.dropLine ln) s.clusters
    mem := Mem.writeBytes s.mem (128 * ln) bs
    poison := bad.foldl (fun m w => FMap.put m w ()) clean }

/-- One level of a team restored (R302 step 3), its registers among it where `regs` says so. -/
def State.restoreLevel (s : State) (t : Nat) (lv : Level) (regs : Bool) : State :=
  let tm := s.team t
  let cl := match tm.place with | .resident c => c | _ => 0
  let log (g : Group) (l : Nat) : LaneLog := if regs then FMap.at {} lv.lanes (g.gid * 64 + l) else {}
  let s := (s.teamGroups t).foldl (fun s (k, g) => s.onGroup k (fun _ => g.mapLanes g.countSet (fun l n => (log g l).restore n))) s
  let base := tm.scrBase / 4
  let s := s.onCluster cl (fun c => lv.scratch.foldl (fun c p => { c with
    scratch := Mem.writeBytes c.scratch (4 * (base + p.1)) (leBytes 4 p.2.1.toNat)
    scrPoison := if p.2.2 then FMap.put c.scrPoison (base + p.1) () else FMap.del c.scrPoison (base + p.1) }) c)
  lv.lines.foldl (fun s p => s.restoreLine p.1 p.2.1 p.2.2) s

/-- Barrier arrivals made during a level withdrawn (R186): those that stood when it opened stay, while their phase has not completed. -/
def Team.withdrawArrivals (tm : Team) (lv : Level) : Team :=
  let kept : FMap LaneSet := tm.arrivals.map (fun p =>
    (p.1, if FMap.at 0 tm.phases (p.1 / 16) = FMap.at 0 lv.phases (p.1 / 16) then p.2 &&& FMap.at 0 lv.arrivals p.1 else 0))
  { tm with arrivals := kept }

/-- Pending faults of a group dropped: registers they left empty are full again with the values they held. -/
def Group.dropFaults (g : Group) : Group :=
  let regs := g.deferred.flatMap (·.regs) ++ g.faultRegs
  let g := regs.foldl (fun g p => g.onLane p.1 (fun n => { n with empty := n.empty &&& ~~~(1#72 <<< p.2) })) g
  { g with deferred := [], faultRegs := [], trapPending := false, handler := false, hwait := .ready, trapAt := none }

/-- The open regions of some teams. -/
def State.regionsOf (s : State) (ps : List Nat) : List Nat := ps.flatMap (fun t => (s.team t).groups.flatMap s.groupSlots)

/-- The open regions of teams that are to stop abort as soon as no run of them goes on: accesses of the teams that wait on their lines are performed then
(R287, R288). -/
def State.abortStopped (s : State) (ps : List Nat) : State :=
  if (s.regionsOf ps).isEmpty || ps.any (fun t => (s.teamGroups t).any (fun p => p.2.run.active)) then s
  else (s.abortRegions (s.regionsOf ps) 1 false).settleRegions

/-- Steps 1 to 3 of R302 for some teams down to a level: their regions abort and their slots are free (R287), levels are restored innermost first, each in
every team, and their caches emptied. A level with NOREG leaves the registers as they stand when it is the one rolled back to; what an inner level
merged into it stays for the levels below (R294, R299; DEDUCED, log entry 72). -/
def State.unwind (s : State) (ps : List Nat) (level : Nat) : State :=
  let depth := (ps.map (fun t => (s.team t).rlevel)).foldl max 0
  let s := s.abortRegions (s.regionsOf ps) 1 false
  let s := ps.foldl (fun s t => (s.teamGroups t).foldl (fun s (k, _) => s.onGroup k Group.dropFaults) s) s
  let s := (List.range (depth + 1 - level)).foldl (fun s i => ps.foldl (fun s t =>
    match (s.team t).levels[depth - i - 1]? with
    | some lv => s.restoreLevel t lv (!lv.noreg || depth - i != level)
    | none => s) s) s
  ps.foldl (fun s t => s.onTeam t (fun tm =>
    let tm := ((tm.levels.drop (level - 1)).reverse).foldl (fun tm lv => tm.withdrawArrivals lv) tm
    { tm with
      recArrivals := []
      levels := (tm.levels.take level).mapIdx (fun i lv =>
        if i + 1 = level then { lv with lanes := if lv.noreg then lv.lanes else [], scratch := [], lines := [] } else lv) })) s

/-- The header of the clause at which a group has stopped (R347): of the run that issues, of its first resume point, of its lowest live lanes; with none live, of
the clause it last issued. -/
def Group.stopAt (g : Group) : Word :=
  if g.run.active && !g.run.handler then g.run.hdr
  else match g.resumes with
    | r :: _ => r.hdr
    | [] => g.issueAddr.getD g.lastHdr

/-- A team terminated: every group that has not retired is contained with a cause (R291, R336). -/
def State.terminate (s : State) (t code detail : Nat) (pc : Option Word) : State :=
  let s := s.onTeam t (fun tm => { tm with levels := [], rollback := none, recArrivals := [] })
  let s := s.leaveConvs t
  (s.teamGroups t).foldl (fun s (k, g) =>
    if g.retired || g.contained.isSome then s
    else s.contain k code detail false (pc.getD g.stopAt)) s

/-- The failure code of a level that closes (R290). -/
def Level.failCode (lv : Level) (last : Nat) : Nat :=
  match lv.errCode with
  | some c => c
  | none => if last = 0x69 then lv.fcode else 0

/-- The state of a level that a party rolls back to, after its caches are restored: the next alternate (R302 step 4). -/
def State.nextAlternate (s : State) (t last : Nat) : State :=
  match (s.team t).levels.getLast? with
  | none => s
  | some lv =>
    let a := lv.alts.getD lv.routine 0
    let lv' := { lv with routine := lv.routine + 1, phase := 1, last := last, used := 0, errCode := none }
    let level := (s.team t).rlevel
    let s := (s.sendTeam t a).onTeam t (fun tm =>
      { tm with levels := tm.levels.dropLast ++ [lv'], rollback := none, wdcount := 0 })
    s.logOutcome t level last lv.routine

/-- A level with no alternate left closes with failure in a party (R290, R302): the level below it rolls back next. -/
def State.closeLevel (s : State) (t last : Nat) : State :=
  match (s.team t).levels.reverse with
  | lv :: low :: more =>
    let level := (s.team t).rlevel
    let code := lv.failCode last
    let s := s.onTeam t (fun tm => { tm with
      levels := ({ low with fcode := code, phase := 3 } :: more).reverse
      rollback := some { level := level - 1, last := 0x69 } })
    s.logOutcome t level last lv.routine
  | [lv] => (s.logOutcome t 1 last lv.routine).terminate t 0x61 (lv.failCode last) (some lv.ensure)
  | [] => s

/-- A team is to be saved: at once, or for room (R309, R326, R329). -/
def Preempt.saves : Preempt → Bool
  | .save => true | .heldOut => true | _ => false

/-- A team is to leave its cluster, saved, flushed or restarted; a team that drains goes on (R329). -/
def Preempt.leaves (p : Preempt) : Bool := p.saves || p == .flush || p == .restart

/-- A team after a flush (R304), with no level open: a team that is pre-empted will execute its outermost ENSURE again, every lane at its clause; a member
team that is not stays parked at the word, arrived there. -/
def State.flushTeam (s : State) (t : Nat) : State :=
  match (s.team t).levels.head? with
  | some lv =>
    let again := (s.team t).preempt.leaves
    let s := s.sendTeam t lv.ensure
    let arrived : RecArrival := { op := 0x1A, addr := lv.ensAddr, hdr := lv.ensure, word := lv.ensWord
                                  lanes := (s.teamGroups t).map (fun p => (p.2.gid, p.2.countSet)) }
    let s := if again then s else (s.teamGroups t).foldl (fun s (k, g) => s.onGroup k (fun _ =>
      g.mapLanes g.countSet (fun _ n => { n with cond := .parked .convergence, place := .recovery 0x1A }))) s
    s.onTeam t (fun tm => { tm with levels := [], rollback := none, recArrivals := if again then [] else [arrived] })
  | none => s.onTeam t (fun tm => { tm with rollback := none })

/-- A rollback to the outermost level, for a flush or before a termination, reported (R367): a flush has no reason in R301 and is reported with 0 (DESIGN CHOICE,
log entry 90). -/
def State.logFlush (s : State) (t last : Nat) : State :=
  match (s.team t).levels.head? with | some lv => s.logOutcome t 1 last lv.routine | none => s

/-- A team's rollback may be carried out: no run of a party goes on, and its producers, accesses and engine commands are complete (R302 steps 1 and 2); in stall
mode the record log has room for its outcomes (R369). -/
def State.canRollback (s : State) (t : Nat) : Bool :=
  (s.team t).rollback.isSome &&
  (s.parties t).all (fun m => !s.logStalls (s.team m).grid (s.parties t).length &&
    s.teamDrained m && s.commands.all (fun c => c.2.team != m) && (s.teamGroups m).all (fun (_, g) => !g.run.active))

/-- A rollback carried out for every party (R184, R290, R302, R304, R306). -/
def State.performRollback (s : State) (t : Nat) : State :=
  match (s.team t).rollback with
  | none => s
  | some r =>
    let ps := s.parties t
    let own (m : Nat) : Rollback := ((s.team m).rollback).getD r
    if ps.any (fun m => (own m).flush || (own m).terminate.isSome) then
      let s := ps.foldl (fun s m => s.logFlush m (own m).last) (s.unwind ps 1)
      ps.foldl (fun s m => match (own m).terminate with
        | some c => s.terminate m c 0 none
        | none => s.flushTeam m) s
    else
      let s := s.unwind ps r.level
      let more := ps.all (fun m => match (s.team m).levels.getLast? with | some lv => decide (lv.routine < lv.nalt) | none => false)
      if more then ps.foldl (fun s m => s.nextAlternate m r.last) s
      else ps.foldl (fun s m => s.closeLevel m r.last) s

/-- ROLLBACK (R302): the parties' regions abort first (R287), then the rollback is carried out once all else is complete. -/
def execRollback (team : Nat) (s : State) : Host.Outcome State Fault Refusal :=
  let t := if (s.team team).rollback.isSome then s.abortStopped (s.parties team) else s
  .next (if t.canRollback team then (t.performRollback team).settleRegions else t)

/-- RECOVERY_TICK_LIMIT_EXPIRY (R301, R304). -/
def execRecoveryTickLimitExpiry (team : Nat) (s : State) : Host.Outcome State Fault Refusal :=
  .next (match s.expiredLevel team with
    | some i => s.beginRollback team (i + 1) 0x63
    | none => s)

/-- UNDO_AREA_LOST (R303): every open level of the team and of its member teams closes and the teams are terminated with cause 0x64; what the lost
entries covered keeps its tentative values; each level reports its outcome (R367; DESIGN CHOICE, log entry 90). -/
def execUndoAreaLost (team : Nat) (s : State) : Host.Outcome State Fault Refusal :=
  .next (if (s.team team).rlevel = 0 then s
    else ((s.parties team).foldl (fun s m =>
      let pc := ((s.team m).levels.head?).map (·.ensure)
      let s := ((s.team m).levels.mapIdx (fun i lv => (i + 1, lv.routine))).reverse.foldl (fun s x => s.logOutcome m x.1 0x64 x.2) s
      s.terminate m 0x64 0 pc) s).settleRegions)

end Sys2Proof.Machine
end

