-- ==== Sys2Proof/Machine/Control.lean ====
section
/-! DEFINITION. Control words of the S class (04, R90 to R102): branches, calls, hardware loops, EXIT, YIELD, SUSPEND, TRAP and TRET. -/
namespace Sys2Proof.Machine

/-! ### Branches -/

/-- The active lanes, or in a handler the handler's program counter, moved by a control-ending word (R91, R341, R342). In a handler the active set
is the reference lane. -/
def Group.branchTo (g : Group) (f : Nat → Word) : Group :=
  if g.run.handler then { g with hpc := f (lowest g.run.act), run := { g.run with moved := true } } else g.moveTo f

/-- The target of an S-B word: the word's address and its signed offset (R90). -/
def Run.target (r : Run) (off : BitVec 17) : Word := r.wordAddr + off.signExtend 32

/-- g(l) of R91. -/
def Group.taken (g : Group) (p : BitVec 5) (neg : Bool) (l : Nat) : Bool := (g.lane l).guard p neg

/-- A branch that sends a lane to the target where `t` holds, else to *next*. -/
def State.branch (s : State) (off : BitVec 17) (t : Nat → Bool) : Host.Outcome State Fault Refusal :=
  let r := s.me.run
  .next ((s.onMe (·.branchTo (fun l => if t l then r.target off else r.next))).advance 1 1)

/-- BRA (R91). -/
def execBra (p : BitVec 5) (neg : Bool) (off : BitVec 17) (s : State) : Host.Outcome State Fault Refusal :=
  s.branch off (s.me.taken p neg)

/-- BRAU (R91). -/
def execBrau (p : BitVec 5) (neg : Bool) (off : BitVec 17) (s : State) : Host.Outcome State Fault Refusal :=
  s.branch off (fun _ => s.me.taken p neg (lowest s.me.run.act))

/-- BRAANY (R91). -/
def execBraany (p : BitVec 5) (neg : Bool) (off : BitVec 17) (s : State) : Host.Outcome State Fault Refusal :=
  s.branch off (fun _ => (lanesIn s.me.run.act).any (s.me.taken p neg))

/-- BRAALL (R91). -/
def execBraall (p : BitVec 5) (neg : Bool) (off : BitVec 17) (s : State) : Host.Outcome State Fault Refusal :=
  s.branch off (fun _ => (lanesIn s.me.run.act).all (s.me.taken p neg))

/-- CALL (R91, R96): an empty o7 in a lane that takes the call blocks; a loop open is cause 0x0D with DETAIL 2. -/
def execCall (p : BitVec 5) (neg : Bool) (off : BitVec 17) (s : State) : Host.Outcome State Fault Refusal :=
  let g := s.me
  let r := g.run
  let go := setOf (fun l => inSet r.act l && g.taken p neg l)
  .next (s.gated (g.gateOn [] [(go, 71)])
    (if !g.loops.isEmpty then s.trapHere 0x0D 2
     else
      let g1 := g.mapLanes go (fun _ n => n.setReg 71 r.next)
      (s.commit s.cur (g1.moveTo (fun l => if inSet go l then r.target off else r.next)) (Writes.on { regs := [71] } go)).advance 1 1))

/-- JMPV and RET (R92, R96): an empty target register blocks; a loop open is cause 0x0D with DETAIL 2; then cause 0x10. -/
def State.jumpV (s : State) (a : BitVec 7) (ea : Bool) : Host.Outcome State Fault Refusal :=
  let g := s.me
  let gate := match g.gate [(a.toNat, ea)] [] with
    | .block w => Gate.block w
    | other => if !g.loops.isEmpty then Gate.trap 0x0D 2 else other
  .next (s.gated gate ((s.onMe (·.moveTo (fun l => (g.lane l).reg a.toNat))).advance 1 1))

/-- RET (R92). -/
def execRet (a : BitVec 7) (ea : Bool) (s : State) : Host.Outcome State Fault Refusal := s.jumpV a ea
/-- JMPV (R92). -/
def execJmpv (a : BitVec 7) (ea : Bool) (s : State) : Host.Outcome State Fault Refusal := s.jumpV a ea

/-! ### Hardware loops -/

/-- A LOOP word with its trip count (R94, R286). -/
def State.loopWord (s : State) (lc n len : Nat) : State :=
  let g := s.me
  let r := g.run
  let stop : Word := r.next + BitVec.ofNat 32 len
  if n = 0 then (s.onMe (·.moveTo (fun _ => stop))).advance 1 1
  else if g.regionSet r.act != 0 then s.trapHere 0x50 6
  else if 3 ≤ g.loops.length then s.trapHere 0x0B lc
  else if g.loops.any (fun e => e.lc == lc) then s.trapHere 0x0C lc
  else if g.loops.head?.any (fun e => !(decide (e.start.toNat ≤ r.next.toNat ∧ stop.toNat ≤ e.stop.toNat))) then s.trapHere 0x0D 3
  else
    (s.onMe (fun g => { g.moveTo (fun _ => r.next) with
      loops := ⟨r.next, stop, lc⟩ :: g.loops, lc := FMap.put g.lc lc (BitVec.ofNat 32 n) })).advance 1 1

/-- LOOP (R94): the trip count of a scalar register. -/
def execLoop (lc : BitVec 2) (sa : BitVec 5) (len : BitVec 11) (s : State) : Host.Outcome State Fault Refusal :=
  .next (s.gated (s.me.gate [(sreg sa, false)] []) (s.loopWord lc.toNat (s.me.s sa.toNat).toNat len.toNat))

/-- LOOPI (R94): the trip count of the word. -/
def execLoopi (lc : BitVec 2) (n : BitVec 10) (len : BitVec 11) (s : State) : Host.Outcome State Fault Refusal :=
  .next (s.loopWord lc.toNat n.toNat len.toNat)

/-! ### Ending, yielding, waiting -/

/-- EXIT (R98): refused in a region and in a level; the lanes leave the expected sets, which may complete barriers and recovery words. -/
def execExit (s : State) : Host.Outcome State Fault Refusal :=
  let g := s.me
  .next (
    if g.regionSet g.run.act != 0 then s.trapHere 0x50 5
    else if s.myTeam.rlevel ≠ 0 then s.trapHere 0x60 2
    else
      let s := (s.freeReserved s.cur g.run.act).kick g.team
      let s := s.onMe (fun g =>
        { g.mapLanes g.run.act (fun _ n => { n with cond := .exited, place := .none }) with run := { g.run with moved := true } })
      ((((s.advance 1 1).settleBarriers g.team).settleGrid (s.team g.team).grid).settleRecovery g.team).grantSlots)

/-- YIELD (R98). -/
def execYield (s : State) : Host.Outcome State Fault Refusal :=
  let r := s.me.run
  .next ((s.onMe (fun g => { (g.moveTo (fun _ => r.next)).endRun with yielded := true })).advance 1 1)

/-- SUSPEND (R99). -/
def execSuspend (ec : BitVec 3) (t : BitVec 4) (off : BitVec 16) (s : State) : Host.Outcome State Fault Refusal :=
  let r := s.me.run
  .next ((s.onMe (fun g =>
    { (g.moveTo (fun _ => r.wordAddr + off.signExtend 32)).endRun with issue := .counter ec.toNat t.toNat })).advance 1 1)

/-! ### Traps from code -/

/-- TRAP (R101): the active lanes go to *next*, and cause 0x0E is taken with the code in TRAPADDR and its low twelve bits in DETAIL. -/
def execTrap (code : BitVec 16) (s : State) : Host.Outcome State Fault Refusal :=
  let r := s.me.run
  .next (((s.onMe (·.moveTo (fun _ => r.next))).advance 1 1).raise s.cur
    { code := 0x0E, detail := code.toNat % 2 ^ 12, hdr := r.hdr, word := r.idx, lanes := r.act, addr := code.zeroExtend 64 } none)

/-- TRET (R102, R23): outside a handler cause 0x0F. Registers that the handled fault left empty and that have a producer in flight stay empty. -/
def execTret (s : State) : Host.Outcome State Fault Refusal :=
  let g := s.me
  .next (
    if !g.run.handler then s.trapHere 0x0F g.run.classOp
    else
      let regs := g.faultRegs.filter (fun p => !s.inFlight s.cur p.1 p.2)
      (s.advance 1 1).onMe (fun g => { g with faultRegs := regs }.trapReturn))

end Sys2Proof.Machine
end

