-- ==== Sys2Proof/Machine/Issue.lean ====
section
/-! DEFINITION. The flow of a run (R29, R84, R95, R96, R128, R194 to R197, R337, R341, R342, R357 to R360): which group runs next, where its run starts, what
follows a word and a clause, and debug stops. -/
namespace Sys2Proof.Machine

/-! ### Debug stops (R359, R360, R362) -/

/-- A group stops for the debugger: the trap registers take the stop, the old ones are kept for the resume (R359). -/
def State.stopGroup (s : State) (k code detail : Nat) (pc : Word) (lanes : LaneSet) : State :=
  s.onGroup k (fun g =>
    let t : Trap := { code := code, detail := detail, hdr := pc, word := 0, lanes := lanes }
    let icy := (s.cluster g.cluster).frozen.isSome && code != 0xA0 && (match g.halt with | .asked _ _ => false | _ => true)
    { g with savedTrap := some g.trap, halt := .stopped code icy, run := { g.run with stopped := true }
             trap := { cause := trapCause t (code == 0xA2), pc := pc, addr := g.trap.addr, lanes := lanes } })

/-- A group is stopped for the debugger. -/
def Group.isHalted (g : Group) : Bool := match g.halt with | .stopped _ _ => true | _ => false

/-- A halt request to a group (R358, R359); one that stands, and a stop, are left alone. -/
def State.askHalt (s : State) (k : Nat) : State :=
  s.onGroup k (fun g => match g.halt with | .no | .step => { g with halt := .asked s.tick false } | _ => g)

/-- The groups that a scope takes in (R358, R360): the group, its team, its cluster, its partition. -/
def State.scopeGroups (s : State) (k scope : Nat) : List Nat :=
  let g := s.group k
  let mine (x : Group) : Bool := match scope with
    | 0 => false
    | 1 => x.team == g.team
    | 2 => x.cluster == g.cluster && s.partOf x == s.partOf g
    | _ => s.partOf x == s.partOf g
  (s.groups.filter (fun p => p.2.resident && !p.2.retired && (p.1 == k || mine p.2))).map (·.1)

/-- The lowest breakpoint of a group's partition that a safe clause meets (R360): an ordinal of the table, enabled, for this code, and none of `but`. -/
def State.breakpointAt (s : State) (k : Nat) (ord : Word) (but : List Nat) : Option Nat :=
  let g := s.group k
  let gr := s.gridOf g
  let p := s.part gr.part
  if 65534 ≤ ord.toNat then none
  else (List.range 16).find? (fun n =>
    let c := FMap.at 0 p.bpctl n
    !but.contains n && c.getLsbD 16 && (FMap.at 0 p.bpaddr n).toNat == gr.record.code && c.toNat % 2 ^ 16 == ord.toNat)

/-- A breakpoint is hit (R360): the group stops with cause 0xA0, the others of its scope are asked to halt, and a breakpoint that is to hit once is
disabled. -/
def State.hitBreakpoint (s : State) (k n : Nat) (pc : Word) (lanes : LaneSet) : State :=
  let part := s.partOf (s.group k)
  let c := FMap.at (0 : Word) (s.part part).bpctl n
  let s := (s.scopeGroups k (c.toNat / 2 ^ 17 % 4)).foldl (fun s x => if x = k then s else s.askHalt x) s
  let s := if c.getLsbD 19 then s.onPart part (fun p => { p with bpctl := FMap.put p.bpctl n (c &&& ~~~(1#32 <<< 16)) }) else s
  s.stopGroup k 0xA0 n pc lanes

/-- The breakpoints that a group has passed at a header since it was resumed there (R360). -/
def Group.passedAt (g : Group) (pc : Word) : List Nat := match g.passed with | some (h, ns) => if h = pc then ns else [] | none => []

/-- A stop before a safe clause issues, where one applies (R359, R360): a breakpoint first, then a halt request or a step. The group keeps the place at which it
would have issued. -/
def State.safeStop (s : State) (k : Nat) (p : ResumePt) : Option State :=
  let g := s.group k
  let ord := s.safeOrd k p.hdr
  let kept (s : State) : State := s.onGroup k (fun g => { g with resumes := p :: g.resumes })
  match s.breakpointAt k ord (g.passedAt p.hdr) with
  | some n => some (kept (s.hitBreakpoint k n p.hdr p.act))
  | none =>
    let asked : Bool := (match g.halt with | .asked _ _ => true | .step => g.passed.all (fun q => q.1 != p.hdr) | _ => false)
    if asked then some (kept (s.stopGroup k 0xA1 (ord.toNat % 2 ^ 12) p.hdr p.act)) else none

/-- The reference lane of a handler (R342): the lowest of TRAPLANES, else the lowest live or parked lane. -/
def Group.refLane (g : Group) : Nat :=
  if g.trap.lanes != 0 then lowest g.trap.lanes else lowest g.countSet

/-- Where a group would issue next: the address and the active set, and whether a clause starts there: its handler, its first resume point, or its issue
address. -/
def State.nextIssue (s : State) (k : Nat) : Word × LaneSet × Bool :=
  let g := s.group k
  if g.trapPending then ((s.gridOf g).record.handler, oneLane g.refLane, true)
  else if g.handler then (g.hpc, oneLane g.refLane, g.hstart)
  else match g.resumes with
    | r :: _ => (r.hdr, r.act, r.start)
    | [] => match g.issueAddr with
      | some a => (a, g.lanesAt a, true)
      | none => (g.lastHdr, 0, false)

/-- A group that has still to stop at a run boundary does so (R359, R362): its halt request has expired, or its cluster is frozen. For a halt request a running
handler goes on to its TRET first (R339); a trap whose handler has not begun waits with the group. -/
def State.boundaryStop (s : State) (k : Nat) : State :=
  let g := s.group k
  let asked := (match g.halt with | .asked _ true => true | _ => false) && !g.handler
  let frozen := (s.cluster g.cluster).frozen.isSome && (s.cluster g.cluster).frozenGroup != k
  if (asked || frozen) && !g.isHalted && g.resident && !g.retired && g.contained.isNone && !g.run.active then
    let p := s.nextIssue k
    let at_ := (p.1, p.2.1)
    let safe := match s.fetchWord k at_.1 0 with | .word w => wordClass w == 7 && hdrSafe w | .bad .. => false
    if safe && frozen && p.2.2 then
      s.stopGroup k 0xA1 ((s.safeOrd k at_.1).toNat % 2 ^ 12) at_.1 at_.2
    else s.stopGroup k 0xA2 0 at_.1 at_.2
  else s

/-- Every group of a frozen cluster, and every group whose halt request has expired, brought to its stop (R359, R362). -/
def State.boundaryStops (s : State) : State := (s.groups.map (·.1)).foldl (fun s k => s.boundaryStop k) s

/-! ### Runs -/

/-- The groups of a slice, by slot. -/
def State.sliceGroups (s : State) (cl sl : Nat) : List (Nat × Group) :=
  s.groups.filter (fun p => p.2.resident && !p.2.retired && p.2.cluster == cl && p.2.slice == sl)

/-- A run of a slice goes on. -/
def State.sliceBusy (s : State) (cl sl : Nat) : Bool := (s.sliceGroups cl sl).any (fun p => p.2.run.active)

/-- A gathering that is ready (R128). -/
def Group.readyGathering (g : Group) : Option Gathering :=
  g.gatherings.find? (fun w => w.arrived != 0 && g.pend w.members w.arrived == 0)

/-- A ready gathering at which no lane has arrived executes for nobody and is closed (R127, R128). -/
def Group.closeEmpty (g : Group) : Group :=
  { g with gatherings := g.gatherings.filter (fun w => w.arrived != 0 || g.pend w.members 0 != 0) }

/-- With a loop entry open and the issue address past its end, the group issues nothing (R96). -/
def Group.loopHeld (g : Group) (a : Word) : Bool := g.loops.head?.any (fun e => decide (e.stop.toNat ≤ a.toNat))

/-- The lowest program counter of live and parked lanes (R96). -/
def Group.minAll (g : Group) : Option Word :=
  (lanesIn g.countSet).foldl (fun m l =>
    let v := (g.lane l).vpc
    match m with
    | none => some v
    | some u => if v.toNat < u.toNat then some v else some u) none

/-- A loop entry may not be popped under a region opened inside it (R286). -/
def State.popBarred (s : State) (k left : Nat) : Bool :=
  let g := s.group k
  (lanesIn g.countSet).any (fun l => match (g.lane l).region with
    | some id => decide (left < (s.slot id).ldepth)
    | none => false)

/-- What R96 says of the open loops after the issue address is recomputed, within `fuel` pops: the state with entries popped, and a cause with its
DETAIL if one arises. -/
def State.popLoops (s : State) (k : Nat) : Nat → State × Option (Nat × Nat)
  | 0 => (s, none)
  | fuel + 1 =>
    let g := s.group k
    match g.loops, g.minAll with
    | e :: rest, some m =>
      if e.stop.toNat ≤ m.toNat then
        if s.popBarred k rest.length then (s, some (0x50, 6))
        else (s.onGroup k (fun g => { g with loops := rest })).popLoops k fuel
      else if m.toNat < e.start.toNat then (s, some (0x0D, 1))
      else (s, none)
    | _, _ => (s, none)

/-- A scalar word, a synchronous read or a clause of the group waits for the page-fault service: the group issues nothing (R166). -/
def Group.pageHeld (g : Group) : Bool := g.resumes.any (fun r => match r.wait with | .page _ _ _ _ => true | _ => false)

/-- A group may be given its slice (R195, R196): resident, with a live or parked lane, not contained or halted, its team not rolling back, and something to issue whose wait is
over. -/
def State.eligible (s : State) (k : Nat) : Bool :=
  let g := s.group k
  let t := s.team g.team
  g.resident && !g.retired && g.countSet != 0 && g.contained.isNone && !g.isHalted && !g.run.active && t.rollback.isNone && !t.clearing &&
  (match t.preempt with | .no | .drain _ => true | _ => false) &&
  (g.trapPending ||
   (if g.handler then s.waitOver k g.hwait
    else
      s.waitOver k g.issue && !g.pageHeld &&
      (if g.resumes.isEmpty then
        g.readyGathering.isSome || (match g.issueAddr with | some a => !g.loopHeld a || g.loops.head?.any (fun e =>
          g.minAll.any (fun m => decide (e.stop.toNat ≤ m.toNat ∨ m.toNat < e.start.toNat))) | none => false)
       else g.resumes.any (fun r => s.waitOver k r.wait))))

/-- The group that a slice runs next (R196): the first eligible in slot order after the slot of the last run, one that yielded only if there is no
other. -/
def State.nextGroup (s : State) (cl sl : Nat) : Option Nat :=
  let last := ((s.cluster cl).slice sl).lastSlot
  let ready := (s.sliceGroups cl sl).filter (fun p => s.eligible p.1)
  let order := sortBy (fun k => ((s.group k).slot + 15 - last) % 16) (ready.map (·.1))
  match order.find? (fun k => !(s.group k).yielded) with
  | some k => some k
  | none => order.head?

/-- A run at a place, at a clause or within one, nothing of it latched yet. -/
def freshRun (p : ResumePt) (handler first : Bool) (used div ratio : Nat) (ready : FMap Nat := []) : Run :=
  { active := true, first := first, hdr := p.hdr, idx := p.idx, act := p.act, start := p.start, used := used, rot := p.rot
    handler := handler, passDiv := div, ratio := ratio, ready := ready }

/-- The lowest of some addresses. -/
def lowestAddr (xs : List Word) : Option Word :=
  xs.foldl (fun m v => match m with | none => some v | some u => if v.toNat < u.toNat then some v else some u) none

/-- A group goes on at a resume point, which is taken out of its list. -/
def State.takeResume (s : State) (k : Nat) (r : ResumePt) (rot : Option Word) : State × ResumePt :=
  let g := s.group k
  let act := setOf (fun l => inSet r.act l && (g.lane l).isLive && (g.lane l).vpc == r.hdr)
  (s.onGroup k (fun g => { g with resumes := g.resumes.erase r }), { r with act := act, wait := .ready, rot := rot })

/-- Lanes of a group whose resume points satisfy a condition (R195). -/
def Group.resumeLanes (g : Group) (f : ResumePt → Bool) : LaneSet := (g.resumes.filter f).foldl (fun m r => m ||| r.act) 0

/-- Program counters of live lanes that may issue: lanes at a resume point whose wait is not over may not (R195). -/
def State.openAddrs (s : State) (k : Nat) : List Word :=
  let g := s.group k
  ((lanesIn (g.liveSet &&& ~~~(g.resumeLanes (fun r => !s.waitOver k r.wait)))).map (fun l => (g.lane l).vpc)).dedup

/-- Where a rotation run goes on (R197): a ready gathering, else the lowest program counter at or above its start, at a resume point of lanes that wait
within the clause there, or at the clause for the lanes that are at no resume point. -/
def State.rotatePlace (s : State) (k : Nat) (rot : Word) : Option (State × ResumePt) :=
  let g := s.group k
  match g.readyGathering with
  | some w => some (s.onGroup k (fun g => g.wake w.arrived), { resumeAt w.hdr w.word w.arrived .ready with rot := some rot })
  | none =>
    match lowestAddr ((s.openAddrs k).filter (fun v => decide (rot.toNat ≤ v.toNat))) with
    | none => none
    | some a =>
      match g.resumes.find? (fun r => r.hdr == a && s.waitOver k r.wait) with
      | some r => some (s.takeResume k r (some rot))
      | none =>
        if g.loopHeld a then none
        else some (s, { resumeAt a 0 (g.lanesAt a &&& ~~~(g.resumeLanes (fun _ => true))) .ready with start := true, rot := some rot })

/-- Where a run goes on (R128, R165, R194, R195): a rotation run where it may; else a ready resume point, a ready gathering, the lowest program counter. The
resume point is taken out of its list; a gathering's clause has started. -/
def State.nextPlace (s : State) (k : Nat) (rot : Option Word) : Option (State × ResumePt) :=
  let g := s.group k
  match rot with
  | some r => s.rotatePlace k r
  | none =>
    match if g.pageHeld then none else g.resumes.find? (fun r => s.waitOver k r.wait) with
    | some r => some (s.takeResume k r (if r.start then r.rot else none))
    | none =>
      if !g.resumes.isEmpty then none
      else
        match g.readyGathering with
        | some w => some (s.onGroup k (fun g => g.wake w.arrived), resumeAt w.hdr w.word w.arrived .ready)
        | none =>
          match g.issueAddr with
          | some a => if g.loopHeld a then none else some (s, { resumeAt a 0 (g.lanesAt a) .ready with start := true })
          | none => none

/-- The header of the clause that ends at the end of the innermost open loop, at which no rotation run starts (R97). -/
def State.endsLoop (s : State) (k : Nat) (v : Word) : Bool :=
  match (s.group k).loops.head?, s.fetchWord k v 0 with
  | some e, .word w => wordClass w == 7 && v + 1 + BitVec.ofNat 32 (hdrCount w) == e.stop
  | _, _ => false

/-- The program counter at which a rotation run starts (R97, R197): with 64 runs counted, the next candidate above the cursor. -/
def State.rotationOf (s : State) (k : Nat) : Option Word :=
  let g := s.group k
  if g.runCount < 64 then none
  else
    match g.issueAddr with
    | none => none
    | some m =>
      let inLoop (v : Word) : Bool := match g.loops.head? with
        | none => true
        | some e => decide (e.start.toNat ≤ v.toNat ∧ v.toNat < e.stop.toNat) && !s.endsLoop k v
      let cand := ((s.openAddrs k).filter (fun v => decide (m.toNat < v.toNat))).filter inLoop
      match lowestAddr (cand.filter (fun v => decide (g.cursor.toNat < v.toNat))) with
      | some v => some v
      | none => lowestAddr cand

/-- Lanes of a group that wait at a word within a clause (R20, R195). -/
def Group.midClause (g : Group) : LaneSet := g.resumeLanes (fun r => !r.start)

/-- Aborts of live lanes of a group applied, but for lanes whose clause has not come to its end (R281). -/
def State.applyAborts (s : State) (k : Nat) : State :=
  (lanesIn ((s.group k).liveSet &&& ~~~(s.group k).midClause)).foldl (fun s l =>
    let n := (s.group k).lane l
    if n.aborting then match n.region with | some id => s.applyAbort id true | none => s else s) s

/-- A cause that arises with no word of its own: after the issue address is recomputed, or at a clause's completion (R104). -/
def State.trapBare (s : State) (k code detail : Nat) (hdr : Word) (word : Nat) (lanes : LaneSet) : State :=
  s.raise k { code := code, detail := detail, hdr := hdr, word := word, lanes := lanes } none

/-- A run of a group opened (R16, R196, R197, R341): the slice takes up the divisor and ratio that the controller asks for; a pending trap enters the
handler; aborts are applied and loops that every lane has left are popped. A cause of the open loops found here, after TRET or a change of lanes
between runs, belongs to no clause: TRAPPC is the new issue address, WORD 0 and TRAPLANES the lanes there (DESIGN CHOICE, log entry 68). -/
def State.startRun (s : State) (k : Nat) : State :=
  let g := s.group k
  let s := s.onCluster g.cluster (fun c => c.onSlice g.slice (fun x =>
    let x := x.catchUp s.time
    { x with passDiv := x.passDivNext, ratio := x.ratioNext }))
  let sl := s.sliceOf g
  let s := { s with cur := k }
  if g.trapPending || g.handler then
    let entry := (s.gridOf g).record.handler
    s.onGroup k (fun g =>
      let g := if g.trapPending then g.enterHandler entry else g
      { g with hwait := .ready, run := freshRun { resumeAt g.hpc g.hidx (oneLane g.refLane) .ready with start := g.hstart } true true 0 sl.passDiv sl.ratio g.run.ready })
  else
    let pending := g.issue
    let s := s.applyAborts k
    let s := s.onGroup k (fun g => { g.closeEmpty with issue := .ready })
    let s := match pending with
      | .children _ => s.dropCopies g.cluster
      | .pred => s.dropCopies g.cluster
      | _ => s
    let p := s.popLoops k 3
    let s := p.1
    match p.2, (s.group k).issueAddr with
    | some (c, d), some a => (s.onGroup k (fun g => { g with run := { g.run with hdr := a } })).trapBare k c d a 0 ((s.group k).lanesAt a)
    | _, _ =>
      let gr := s.group k
      let rot := if gr.readyGathering.isNone then s.rotationOf k else none
      match s.nextPlace k rot with
      | some (s, p) =>
        if p.act = 0 then s
        else s.onGroup k (fun g => { g with run := freshRun p false true 0 sl.passDiv sl.ratio g.run.ready })
      | none => s

/-- RUN_START (R196): a slice that is free gives itself to its next group. -/
def execRunStart (cl sl : Nat) (s : State) : Host.Outcome State Fault Refusal :=
  .next (if s.sliceBusy cl sl then s
    else match s.nextGroup cl sl with
      | some k => s.startRun k
      | none => s)

/-! ### The end of a run -/

/-- A wait for the page-fault service that has been answered ends at a run boundary (R166, R340): the precise trap is taken, DETAIL[11] saying whether
the page was made present; with no handler, a page made present sets the trap registers and resumes at the word. In a handler the trap is a cause
raised inside it (R343). -/
def State.settlePage (s : State) (k : Nat) : State :=
  let g := s.group k
  if g.trapPending || g.run.active || g.contained.isSome || g.isHalted || g.countSet == 0 then s
  else if g.handler then
    match g.hwait with
    | .page _ addr co (some ok) =>
      (s.onGroup k (fun g => { g with hwait := .ready })).raise k { code := 0x31, detail := co + (if ok then 2 ^ 11 else 0), hdr := g.hpc
                                                                    word := g.hidx, lanes := oneLane g.refLane, addr := addr } none
    | _ => s
  else
    match g.resumes.find? (fun r => match r.wait with | .page _ _ _ (some _) => true | _ => false) with
    | some r =>
      (match r.wait with
       | .page _ addr co (some ok) =>
         let t : Trap := { code := 0x31, detail := co + (if ok then 2 ^ 11 else 0), hdr := r.hdr, word := r.idx
                           lanes := if co / 64 = 4 then oneLane (lowest r.act) else r.act, addr := addr }
         if ok && (s.gridOf g).record.handler == 0xFFFFFFFF then
           s.onGroup k (fun g => { g with trap := t.regs, resumes := g.resumes.map (fun x => if x = r then { x with wait := .ready } else x) })
         else (s.onGroup k (fun g => { g with resumes := g.resumes.erase r })).raise k t (some { r with wait := .ready })
       | _ => s)
    | none => s

/-- The issuing group's run ends (R17, R29, R89, R106, R196, R197, R345, R359): lr is invalid from here on, the run counts, the scheduler sees PROGRESS, and the
slice goes on after this group's slot; what the run has written stays due for the next one. A run of which no clause has started leaves no trace, and one that a
debug stop has broken off counts when it has gone on. The lanes of a group that has been contained have left the expected sets: what completes without them
completes. -/
def State.closeRun (s : State) : State :=
  let g := s.me
  let r := g.run
  let s := s.onMe (fun g =>
    { g.mapLanes (setOf (fun l => (g.lane l).lrValid)) (fun _ n => { n with lrValid := false }) with
      run := { ready := r.ready }
      lastHdr := if r.active && !r.handler then r.hdr else g.lastHdr
      progressSeen := g.progress
      runCount := if r.first || r.handler || r.rot.isSome || g.isHalted then g.runCount else min (g.runCount + 1) 64 })
  let s := if r.first then s else
    s.onCluster g.cluster (fun c => c.onSlice g.slice (fun x => { x with lastSlot := g.slot, lastGroup := some s.cur, lastEnd := s.time, endCycle := x.cycleAt s.time }))
  let s := if g.contained.isSome then (s.settleTeam g.team).settleRegions else s
  (s.settlePage s.cur).boundaryStop s.cur

/-- After a clause of an ordinary run the issue address is recomputed (R29, R96): loops that every lane has left are popped, which may raise a cause of
the clause just executed; then the run ends, or goes on with the next clause (R165). -/
def State.nextClause (s : State) (ends : Bool) : State :=
  let k := s.cur
  let r := s.me.run
  let p := s.popLoops k 3
  let s := p.1.onMe (·.closeEmpty)
  match p.2 with
  | some (c, d) => (s.trapBare k c d r.hdr (hdrCount r.head - 1) r.act).closeRun
  | none =>
    if ends then s.closeRun
    else
      match s.nextPlace k r.rot with
      | some (s, p) =>
        if p.act = 0 then s.closeRun
        else s.onGroup k (fun g => { g with run := freshRun p false r.first r.used r.passDiv r.ratio r.ready })
      | none => s.closeRun

/-- The hardware loops at the end of a clause (R95), within `fuel` entries: the active lanes at the end go back, or entries are popped; a cause where a
region bars the pop (R286). -/
def State.loopEnd (s : State) (k : Nat) (e : Word) (act : LaneSet) : Nat → State × Option (Nat × Nat)
  | 0 => (s, none)
  | fuel + 1 =>
    let g := s.group k
    match g.loops with
    | top :: rest =>
      if top.stop = e then
        let n : Word := FMap.at 0 g.lc top.lc - 1
        let s := s.onGroup k (fun g => { g with lc := FMap.put g.lc top.lc n })
        if n ≠ 0 then
          (s.onGroup k (fun g => g.mapLanes (setOf (fun l => inSet act l && (g.lane l).counts && (g.lane l).vpc == e))
            (fun _ x => { x with vpc := top.start })), none)
        else if s.popBarred k rest.length then (s, some (0x50, 6))
        else (s.onGroup k (fun g => { g with loops := rest })).loopEnd k e act fuel
      else (s, none)
    | [] => (s, none)

/-- The open loops after TRET, which recomputes the issue address from the lanes as the handler left them (R96, R102, R344): a cause is a new precise trap
of the kernel, at the issue address (DESIGN CHOICE, log entry 68). -/
def State.checkLoops (s : State) (k : Nat) : State :=
  match (s.group k).issueAddr with
  | none => s
  | some a =>
    let p := s.popLoops k 3
    match p.2 with
    | some (c, d) => p.1.trapBare k c d a 0 ((p.1.group k).lanesAt a)
    | none => p.1

/-- A clause completes (R84, R95, R281): the active lanes go to *next* unless a control word has moved them, the loop rules apply, aborts are applied, and
the run ends or goes on. -/
def State.completeClause (s : State) : State :=
  let k := s.cur
  let g := s.me
  let r := g.run
  if r.handler then
    let s := s.onMe (fun g => { g with hpc := if r.moved then g.hpc else r.next, hidx := 0, hstart := true })
    if !s.me.handler then (s.checkLoops k).closeRun
    else if r.ends || hdrEnd r.head then s.closeRun
    else s.onMe (fun g => { g with run := freshRun { resumeAt g.hpc 0 r.act .ready with start := true } true r.first r.used r.passDiv r.ratio r.ready })
  else
    let s := if r.moved then s else
      s.onMe (fun g => g.mapLanes (setOf (fun l => inSet r.act l && (g.lane l).counts)) (fun _ n => { n with vpc := r.next }))
    let straddles := g.loops.head?.any (fun t =>
      decide (t.start.toNat ≤ r.hdr.toNat ∧ r.hdr.toNat < t.stop.toNat ∧ t.stop.toNat < r.next.toNat))
    if straddles then (s.trapBare k 0x0D 0 r.hdr (hdrCount r.head - 1) r.act).closeRun
    else
      let p := s.loopEnd k r.next r.act 3
      let s := p.1.applyAborts k
      match p.2 with
      | some (c, d) => (s.trapBare k c d r.hdr (hdrCount r.head - 1) r.act).closeRun
      | none => s.nextClause (r.ends || hdrEnd r.head)

/-- What follows a word (R20, R29, R84, R127): a word that stopped the run ends it; a clause with no active lane left ends without completing; after its
last word a clause completes. R127 has the run go on when a gathering leaves no active lane, R29 ends a run with a clause that has run-end set: the
run ends there (DESIGN CHOICE, log entry 67). -/
def State.afterWord (s : State) : State :=
  let g := s.me
  let r := g.run
  if !r.active then s
  else if r.stopped || g.contained.isSome then s.closeRun
  else if r.quit || r.act = 0 then
    (s.applyAborts s.cur).nextClause (hdrEnd r.head)
  else if r.idx < r.words.length then s
  else s.completeClause

/-! ### Latching a clause -/

/-- The cause of a fetch (R36, R166, R336, R340, R343): a poisoned word ends the group, or is a fault of the level; a page that is not present is asked for
and waited on; another cause is precise. In a handler every one is a cause raised inside it. -/
def State.fetchFault (s : State) (code detail addr word : Nat) : State :=
  let k := s.cur
  let g := s.me
  let r := g.run
  let raised := s.raise k
    { code := code, detail := detail, hdr := r.hdr, word := word, lanes := r.act, addr := BitVec.ofNat 64 addr }
    (if r.start then none else some (resumeAt r.hdr r.idx r.act .ready))
  if r.handler then raised
  else if code = 0x3B then
    if (s.team g.team).rlevel ≠ 0 then (s.onMe (fun g => { g with run := { g.run with stopped := true } })).levelFault g.team 0x3B
    else s.contain k 0x3B detail false r.hdr
  else if code = 0x31 then
    (s.requestPage (s.partOf g) (addr / 2 ^ 16)).block (.page (addr / 2 ^ 16) (BitVec.ofNat 64 addr) detail none)
  else raised

/-- A clause waits before it starts (R22, R25, R195): the group resumes at its header with the same active set, and a run of which no clause has started
leaves no trace. -/
def State.waitClause (s : State) (w : Wait) : State :=
  let r := s.me.run
  (s.onMe (fun g =>
    if r.handler then { g with hpc := r.hdr, hidx := 0, hstart := true, hwait := w, run := { g.run with stopped := true } }
    else { g with
      resumes := { hdr := r.hdr, idx := 0, act := r.act, wait := w, start := true, rot := if r.first then r.rot else none } :: g.resumes
      run := { g.run with stopped := true } })).closeRun

/-- The group has won the slice for a run (R196 to R198): a rotation run sets the cursor and the counter, and the group has not yielded. A run whose
first clause faults at its fetch or decode is a run too. -/
def State.noteRun (s : State) : State :=
  let r := s.me.run
  if !r.first then s
  else s.onMe (fun g => { g with
    yielded := false
    ran := true
    cursor := match r.rot with | some a => a | none => g.cursor
    runCount := if r.rot.isSome then 0 else g.runCount
    run := { g.run with first := false } })

/-- The first clause of a run starts (R196): a switch from another group costs two slice cycles unless the slice has been idle for two. -/
def State.beginRun (s : State) : State :=
  let g := s.me
  if !g.run.first then s
  else
    let sl := s.sliceOf g
    let s := s.align g.cluster g.slice
    let idle := sl.cycleAt s.time - sl.endCycle
    (if sl.lastGroup.isSome && sl.lastGroup != some s.cur && decide (idle < 2) then s.pause g.cluster g.slice 2 0 else s).noteRun

/-- A clause that is well formed is latched, or its group waits, stops for the debugger, or meets cause 0x0A (R22, R25, R29, R359, R360). -/
def State.beginClause (s : State) (h : Word) (ws : List Word) : State :=
  let g := s.me
  let r := g.run
  let start := r.start
  let need := if start && hdrFull h then g.fullNeed r.act ws else []
  if start && !g.countersMet (hdrMask h) (hdrT h) then s.waitClause (.header (hdrMask h) (hdrT h))
  else if !need.isEmpty then s.waitClause (.regs need)
  else if 24 < r.used + (hdrCount h - r.idx) then
    (s.noteRun.raise s.cur { code := 0x0A, detail := r.used + (hdrCount h - r.idx), hdr := r.hdr, word := 0, lanes := r.act } none).closeRun
  else
    match if start && hdrSafe h && !r.handler then s.safeStop s.cur { resumeAt r.hdr 0 r.act .ready with start := true, rot := r.rot } else none with
    | some s => s.closeRun
    | none =>
      let s := s.beginRun
      s.onMe (fun g => { g with
        passed := if r.handler then g.passed else g.passed.filter (fun p => p.1 != r.hdr)
        run := { g.run with head := h, words := ws, start := false } })

/-- The first word of a clause with S set issues (R357). -/
def Run.opensSafe (r : Run) : Bool := r.idx == 0 && hdrSafe r.head

/-- SAFEORD set as the first word of a clause with S set issues (R357); it is readable at once (DESIGN CHOICE, log entry 76). -/
def State.markSafe (s : State) : State :=
  if s.me.run.opensSafe then s.onMe (fun g => { g with safeord := s.safeOrd s.cur g.run.hdr }) else s

/-- A word that only blocked has not issued (R20): where it is the first of its clause, SAFEORD stays what it was in `s`. -/
def State.keepSafe (s t : State) : State :=
  let blocked := if s.me.run.handler then t.me.hwait != .ready else decide (s.me.resumes.length < t.me.resumes.length)
  if s.me.run.opensSafe && blocked then t.onMe (fun g => { g with safeord := s.me.safeord }) else t

/-- The word that issues has begun its step at this tick. -/
def State.noteBegin (s : State) : State := s.onMe (fun g => { g with run := { g.run with began := s.tick } })

/-- The words a handler may execute (R342): S opcodes 0x00 to 0x1D, the four branches, NOP, TSTAMP, CYCLE, TRET, scalar LREAD, LWRITE, VPCRD, VPCWR. -/
def handlerAllows (w : Word) : Bool :=
  let op := wordOp w
  match wordClass w with
  | 4 => decide (op ≤ 0x1D ∨ (0x20 ≤ op ∧ op ≤ 0x23) ∨ op = 0x2A ∨ op = 0x2F ∨ op = 0x30 ∨ op = 0x31)
  | 6 => decide (op = 0x1E ∨ op = 0x1F ∨ op = 0x20) || (op == 0x1D && decide (80 ≤ (fld 7 w 16).toNat ∧ (fld 7 w 16).toNat < 112))
  | _ => false

end Sys2Proof.Machine
end

