-- ==== Sys2Proof/Machine/Retire.lean ====
section
/-! DEFINITION. The end of teams and grids (R177, R193, R308, R315, R316, R383, R389): what becomes of a team whose groups have all retired, of its grid,
and of what waited on them. -/
namespace Sys2Proof.Machine

/-! ### Retirement -/

/-- A team is done (R193, R316): its groups have retired with their exit status words written, its commands have completed and its children have
retired. -/
def State.teamDone (s : State) (t : Nat) : Bool :=
  let tm := s.team t
  (match tm.place with | .gone => false | .undispatched => false | _ => true) &&
  !tm.groups.isEmpty && tm.groups.all (fun k => (s.group k).retired && (s.group k).contained.isNone) &&
  s.commands.all (fun c => c.2.team != t) && tm.children.all (fun k => (s.grid k).retired)

/-- A team retires (R193, R305, R382): it leaves its conversations, its meter is added to its grid's, and a save slot it held is free. -/
def State.retireTeam (s : State) (t : Nat) : State :=
  let tm := s.team t
  let s := s.leaveConvs t
  let s := match tm.place with
    | .saved p n => s.onPart p (fun q => { q with slotsUsed := q.slotsUsed.filter (· != n) })
    | _ => s
  let s := s.onTeam t (fun tm => { tm with place := .gone, acc0 := false, acc1 := false, act := false })
  s.onGrid tm.grid (fun g => { g with
    live := g.live.filter (· != t), saved := g.saved.filter (· != t), retiredTeams := g.retiredTeams + 1, energy := g.energy + tm.energy })

/-- A grid is done (R193, R329): every team has retired, and so have the children of teams that were restarted. -/
def State.gridDone (s : State) (k : Nat) : Bool :=
  let g := s.grid k
  !g.retired && g.retiredTeams == g.record.teams && g.orphans.all (fun c => (s.grid c).retired)

/-- The job record of a grid appended to its partition's ring, or counted as lost, and kept among the last 64 (R383). -/
def State.jobRecord (s : State) (k : Nat) : State :=
  let g := s.grid k
  let p := s.part g.part
  let bs := leBytes 8 g.record.code ++ leBytes 8 g.record.done ++ leBytes 8 g.energy ++ leBytes 4 p.jseq ++ leBytes 4 p.jlost
  let s := if p.jr.full then s else (s.writePhys none (p.jr.slot 32) bs []).signal (8 + 8 * g.part + 1)
  s.onPart g.part (fun p => { p with
    jr := if p.jr.full then p.jr else p.jr.push
    jlost := if p.jr.full then p.jlost + 1 else 0
    jseq := p.jseq + 1
    jobs := ((p.jobs ++ [bs]).reverse.take 64).reverse })

/-- A grid retires (R315): its completion word, its job record. -/
def State.retireGrid (s : State) (k : Nat) : State :=
  let g := s.grid k
  let s := s.writeDone g.part g.record.done (if g.exits = 0 then 0 else 1) 0 g.exits
  (s.jobRecord k).onGrid k (fun g => { g with retired := true })

/-- Teams and grids that are done retire, within `fuel` of them. -/
def State.retireAll (s : State) : Nat → State
  | 0 => s
  | fuel + 1 =>
    match s.teams.find? (fun p => s.teamDone p.1) with
    | some (t, _) => (s.retireTeam t).retireAll fuel
    | none =>
      match s.grids.find? (fun p => s.gridDone p.1) with
      | some (k, _) => (s.retireGrid k).retireAll fuel
      | none => s

/-- A held assignment of a cluster applied once no team is resident there (R389). -/
def State.applyAssign (s : State) (cl : Nat) : State :=
  match (s.cluster cl).held with
  | some v =>
    if s.teams.any (fun t => t.2.place == .resident cl) then s
    else s.onCluster cl (fun c => { c with part := v.toNat % 8, enabled := v.getLsbD 3, held := none })
  | none => s

/-- What the end of teams brings: retirements, held assignments, grids that become ready. -/
def State.settleRetire (s : State) : State :=
  let s := s.retireAll (s.teams.length + s.grids.length)
  let s := (s.clusters.filter (fun c => c.2.held.isSome)).foldl (fun s c => s.applyAssign c.1) s
  s.settleReady

/-! ### Groups -/

/-- A group may retire (R98, R193): no lane live or parked, nothing of it in flight, no exit status word outstanding. The handler of a group that was contained
goes on no more (R345). -/
def State.canRetire (s : State) (k : Nat) : Bool :=
  let g := s.group k
  FMap.has s.groups k && !g.retired && g.countSet == 0 && g.contained.isNone && g.deferred.isEmpty && !g.run.active &&
  s.accesses.all (fun a => a.2.group != k) && s.producers.all (fun p => p.2.group != k) &&
  s.commands.all (fun c => c.2.group != k || c.2.op != 0x02) &&
  (match (s.team g.team).place with | .gone => false | .undispatched => false | _ => true)

/-- A group retires: its slot and its share of the budget are free; with the last group of the team the residency ends (R193). -/
def State.retireGroup (s : State) (k : Nat) : State :=
  let t := (s.group k).team
  let s := s.onGroup k (fun g => { g with retired := true, resident := false })
  if (s.team t).groups.all (fun n => (s.group n).retired) then
    s.onTeam t (fun tm => match tm.place with | .resident _ => { tm with place := .record, preempt := .no } | _ => tm)
  else s

/-! ### Exit status (R316, R345, R347) -/

/-- The exit status word (R347). -/
def exitWord (e : Exit) : Nat :=
  e.cause % 2 ^ 8 + e.detail % 2 ^ 12 * 2 ^ 8 + e.lanes % 2 ^ 7 * 2 ^ 20 + (if e.defer then 2 ^ 27 else 0) + ordField e.ord * 2 ^ 28 +
  e.pc.toNat % 2 ^ 20 * 2 ^ 44

/-- An exit status word written for a group of a team (R316): the count is raised and the entry written where there is room; writes that cannot be made
are discarded and counted. -/
def State.writeExit (s : State) (k : Nat) (e : Exit) : State :=
  let g := s.group k
  let tm := s.team g.team
  let gr := s.grid tm.grid
  let part := gr.part
  let s := s.onGrid tm.grid (fun x => { x with exits := x.exits + 1 })
  if gr.record.exitArea = 0 then s
  else
    match s.hostStyleRead part gr.record.exitArea 8 with
    | none => (s.noteTable part gr.record.exitArea).countErr part 3 1
    | some old =>
      let i := leNat old
      let w := s.hostStyleWrite part gr.record.exitArea (leBytes 8 (i + 1))
      if !w.2 then w.1.countErr part 3 1
      else if gr.record.exitCap ≤ i then w.1
      else
        let bs := leBytes 8 (exitWord e) ++ leBytes 4 tm.idX ++ leBytes 4 tm.idY ++ leBytes 4 tm.idZ ++ leBytes 4 g.gid ++ List.replicate 8 0
        let r := w.1.hostStyleWrite part (gr.record.exitArea + 64 + 32 * i) bs
        if r.2 then r.1 else r.1.countErr part 3 1

end Sys2Proof.Machine
end

