-- ==== Sys2Proof/Machine/Events.lean ====
section
/-! DEFINITION. Events of the memory system and the units: results that arrive (R19, R144, R203), walks and the page-fault service (R164 to R166, R224 to
R226, R394), deferred traps (R338), write tokens (R237 to R241), line migration and way gating (R217, R220). An event whose condition
does not hold leaves the machine as it is. -/
namespace Sys2Proof.Machine

/-! ### What follows an event -/

/-- The teams that are on a cluster. -/
def State.residents (s : State) : List Nat :=
  (s.teams.filter (fun p => match p.2.place with | .resident _ => true | _ => false)).map (·.1)

/-- What an error of an on-die array does (R385, R387, R388): a corrected one is counted; a codebook entry or a segment of an activation table reads as 0 and is counted, in
ERRCNT1 (DESIGN CHOICE, log entry 79); an element, or the two words of eight bytes, is poisoned; a slot's region aborts under selector 1; an object's entry is freed and
the lines that its holder has dirty are poisoned. -/
def State.arrayError (s : State) : ArrayError → State
  | .corrected p => s.countErr p 0 1
  | .codebook cl key => (s.onCluster cl (fun c => { c with books := FMap.put c.books key 0 })).countErr (s.cluster cl).part 1 1
  | .activation cl e => (s.onCluster cl (fun c => { c with
      actBytes := Mem.writeBytes c.actBytes (e / 256 * 4096 + 16 + 12 * (e % 256)) (leBytes 12 0) })).countErr (s.cluster cl).part 1 1
  | .accumulator cl key => s.onCluster cl (fun c => { c with accPoison := FMap.put c.accPoison key () })
  | .slot id => if s.openSlots.contains id && (s.slot id).phase != 4 then s.abortRegions [id] 1 true else s
  | .object k =>
    match FMap.look s.objects k with
    | some o =>
      let dirty := match o.holder with
        | some h => o.lines.filter (fun ln => FMap.has (s.cluster h).dirty ln)
        | none => []
      let s := match o.holder with
        | some h => s.onCluster h (fun c => { c with dirty := dirty.foldl FMap.del c.dirty })
        | none => s
      { s with
        poison := (dirty.flatMap (fun ln => (List.range 32).map (fun i => 32 * ln + i))).foldl (fun p w => FMap.put p w ()) s.poison
        objects := FMap.del s.objects k }
    | none => s
  | .cached k => { s with poison := FMap.put (FMap.put s.poison (2 * k) ()) (2 * k + 1) () }

/-- The errors that have come to light by now (R387). -/
def State.dueErrors (s : State) : List (Nat × ArrayError) := s.errors.filter (fun e => decide (e.1 ≤ s.tick))

/-- The errors that have come to light take effect (R387). -/
def State.settleErrors (s : State) : State :=
  s.dueErrors.foldl (fun s e => s.arrayError e.2) { s with errors := s.errors.filter (fun e => !decide (e.1 ≤ s.tick)) }

/-- Everything that comes about inside an event: errors of arrays, barrier phases, recovery words, region accesses and grants, retirements and stops. -/
def State.settleAll (s : State) : State :=
  let s := s.settleErrors
  (s.residents.foldl (fun s t => s.settleTeam t) s).settleRegions.settleRetire.boundaryStops.drainOutside

/-! ### Results -/

/-- An access of a kind taken as far as it can go. -/
def State.accessEvent (s : State) (n : Nat) (lane : Option Nat) (is : AccKind → Bool) : Host.Outcome State Fault Refusal :=
  .next (match FMap.look s.accesses n with
    | some a => if is a.kind then (s.runAccess n lane).settleAll else s
    | none => s)

/-- LOAD_RESULT (R19, R144, R348): of one lane, or of every lane that can have its value now; lanes that share no byte take theirs at different points
where the event names one (R145, R230). -/
def execLoadResult (acc : AccessAt) (s : State) : Host.Outcome State Fault Refusal := s.accessEvent acc.num acc.lane (fun k => k == .load)

/-- ATOMIC_COMPLETION (R145, R152, R155, R348). -/
def execAtomicCompletion (acc : AccessAt) (s : State) : Host.Outcome State Fault Refusal :=
  s.accessEvent acc.num acc.lane (fun k => match k with | .atomic _ => true | _ => false)

/-- STORE_PERFORMED (R146, R157, R158, R161, R214): at its slice, or, where `near`, at team and cluster scope: it stands in the L1 of its cluster. -/
def execStorePerformed (acc : StoreAt) (s : State) : Host.Outcome State Fault Refusal :=
  if acc.near then .next (match FMap.look s.accesses acc.num with
    | some a => if a.kind = .store then (s.enterStores acc.num acc.lane).settleAll else s
    | none => s)
  else s.accessEvent acc.num acc.lane (fun k => k == .store)

/-- The results of a producer of some kind written to its registers, which become full (R19); a result whose destination names lr is written nowhere
(R17). -/
def State.produce (s : State) (n : Nat) (kind : ProdKind) (value : Producer → State → Producer × State) : Host.Outcome State Fault Refusal :=
  .next (match FMap.look s.producers n with
    | some p0 =>
      if p0.kind = kind then
        let r := value p0 s
        let s := { r.2 with producers := FMap.del r.2.producers n }
        let s := r.1.dests.foldl (fun s d =>
          if d.2.1 = 72 then s else s.writeResult r.1.group d.1 d.2.1 d.2.2 false) s
        (s.onGroup r.1.group (fun g => r.1.sdests.foldl (fun g d => g.setS d.1 d.2) g)).settleAll
      else s
    | none => s)

/-- SFU_RESULT (R136, R203). -/
def execSfuResult (prod : Nat) (s : State) : Host.Outcome State Fault Refusal := s.produce prod .sfu (fun p s => (p, s))
/-- LREAD_RESULT (R133, R203). -/
def execLreadResult (prod : Nat) (s : State) : Host.Outcome State Fault Refusal := s.produce prod .lread (fun p s => (p, s))
/-- LAUNCH_RESULT (R176, R203). -/
def execLaunchResult (prod : Nat) (s : State) : Host.Outcome State Fault Refusal := s.produce prod .launch (fun p s => (p, s))

/-- METER_RESULT (R188, R381): the partition's energy counter as it stands. The METER words of a group are answered in the order in which they issued, so that
no later one returns less. -/
def execMeterResult (prod : Nat) (s : State) : Host.Outcome State Fault Refusal :=
  let first (p : Producer) : Bool := s.producers.all (fun q => !(decide (q.1 < prod) && q.2.kind == .meter && q.2.group == p.group))
  if (FMap.look s.producers prod).any (fun p => !first p) then .next s
  else s.produce prod .meter (fun p s =>
    let v := (s.part (s.partOf (s.group p.group))).pmeter
    ({ p with sdests := p.sdests.mapIdx (fun i d => (d.1, BitVec.ofNat 32 (v / 2 ^ (32 * i)))) }, s))

/-- The device lines that a footprint touches; none where a page of it cannot carry an object (R175, R237). -/
def State.footLines (s : State) (cl part base len : Nat) : Option (List Nat) :=
  ((linesOf base len).foldl (fun (acc : Option (List Nat)) ln =>
    match acc with
    | none => none
    | some ls =>
      match s.target cl part .read (ln * 128 % 2 ^ 64) with
      | .ok .global pa => some ((pa / 128) :: ls)
      | _ => none) (some [])).map List.reverse

/-- The identifier of a place in a partition's object table: partitions share no identifier, and none is above 0xFFFF_FFFD (R175). -/
def objId (part k : Nat) : Nat := 8 * (k % (2 ^ 29 - 1)) + part % 8 + 1

/-- The first free place of a partition's object table from the next one on, in rising order and then from the start: what identifies an object depends on the
partition's own declarations alone (R3, R7; DESIGN CHOICE, log entry 32). -/
def State.objPlace (s : State) (part : Nat) : Nat :=
  let next := (s.part part).objNext
  ((List.range (s.objects.length + 1)).find? (fun i => !FMap.has s.objects (objId part (next + i)))).getD 0 + next

/-- An object declared (R175, R237): the machine after it and the value of sD. The pages are judged first, then the partition's share, then the
overlap (DESIGN CHOICE, log entry 94). The declaring cluster holds the token, and fetches the lines afresh (R214). -/
def State.declare (s : State) (cl part : Nat) (b : List (BitVec 8)) : State × Word :=
  let h := shapeOf b
  let s := s.cachePages cl part .read (pagesOf h.footprint.1 h.footprint.2)
  match s.footLines cl part h.footprint.1 h.footprint.2 with
  | none => (s, 0xFFFFFFFE)
  | some lines =>
    let mine := s.objects.filter (fun o => o.2.part == part)
    let share := (s.part part).partcfg.toNat / 2 ^ 17 % 2 ^ 14
    if share ≤ mine.length then (s, 0)
    else if mine.any (fun o => o.2.lines.any (fun ln => lines.contains ln)) then (s, 0xFFFFFFFF)
    else
      let o : Obj := { part := part, first := lines.headD 0, lines := lines.dedup, holder := some cl
                       head := 128 * lines.headD 0 + h.footprint.1 % 128
                       tail := 128 * lines.getLastD 0 + (h.footprint.1 + h.footprint.2 - 1) % 128 }
      let k := s.objPlace part
      ((({ s with objects := FMap.put s.objects (objId part k) o }.onPart part (fun q => { q with objNext := (k + 1) % (2 ^ 29 - 1) })).onCluster cl
        (fun c => lines.foldl (fun c ln => c.dropLine ln) c)), BitVec.ofNat 32 (objId part k))

/-- A line may not yet become an object's that a cluster holds (R238, R244): a store stands on it in an L1, a command of another cluster owns it, a region has
written it, or it is tentative at a level of another team. -/
def State.lineBusy (s : State) (cl team ln : Nat) : Bool :=
  s.accesses.any (fun (_, a) => a.parts.any (fun q => q.entered.isSome && !q.done && q.addr / 128 == ln)) ||
  s.commands.any (fun (_, c) => c.cluster != cl && c.owned.contains ln) || s.foreignLine team ln || (List.range 4).any (fun i => s.regionSector (4 * ln + i))

/-- OBJDECL_RESULT (R175, R203): it comes once no line of the footprint is busy. -/
def execObjdeclResult (prod : Nat) (s : State) : Host.Outcome State Fault Refusal :=
  let busy (p : Producer) : Bool :=
    let g := s.group p.group
    let h := shapeOf p.block
    ((s.footLines g.cluster (s.partOf g) h.footprint.1 h.footprint.2).getD []).any (fun ln => s.lineBusy g.cluster g.team ln)
  if (FMap.look s.producers prod).any busy then .next s
  else s.produce prod .objdecl (fun p s =>
    let g := s.group p.group
    let r := s.declare g.cluster (s.partOf g) p.block
    ({ p with sdests := p.sdests.map (fun d => (d.1, r.2)) }, r.1))

/-- ENGINE_COMMAND_COMPLETION (R170). -/
def execEngineCommandCompletion (cmd : Nat) (s : State) : Host.Outcome State Fault Refusal :=
  .next (if (FMap.look s.commands cmd).any (fun c => s.canComplete cmd c) then (s.completeCommand cmd).settleAll else s)

/-! ### Walks and the page-fault service -/

/-- The pending requests written to the partition's ring while it has room: VA[55:16] in place and the cause in byte 8 (R225, R394). -/
def State.sendPages (s : State) (part : Nat) : State :=
  s.pages.foldl (fun s r =>
    if r.part = part ∧ r.sent = false ∧ (s.part part).pfq.full = false then
      let q := (s.part part).pfq
      let bs := leBytes 8 (r.page % 2 ^ 40 * 2 ^ 16) ++ leBytes 8 r.cause
      let s := ((s.writePhys none (q.slot 16) bs []).onPart part (fun p => { p with pfq := p.pfq.push })).signal (8 + 8 * part)
      { s with pages := s.pages.map (fun x => if x = r then { x with sent := true } else x) }
    else s) s

/-- TRANSLATION_WALK_END (R224, R225): a walk for a page of a partition ends. A translation is cached; a table in error is counted; requests for pages
that are not present go to the page-fault ring. -/
def execTranslationWalkEnd (cl part page : Nat) (s : State) : Host.Outcome State Fault Refusal :=
  let va := page % 2 ^ 40 * 2 ^ 16
  .next ((s.noteWalk cl part .read va).sendPages part)

/-- The lanes of a fault that was merged into a pending request go on with the word that met it (R164, R165, R225). -/
def State.resumeFault (s : State) (k : Nat) (d : Deferred) : State :=
  let regs := d.regs.filter (fun r => !s.inFlight k r.1 r.2)
  s.onGroup k (fun g =>
    let g := regs.foldl (fun g r => g.onLane r.1 (fun n => { n with empty := n.empty &&& ~~~(1#72 <<< r.2) })) g
    let back := setOf (fun l => inSet d.lanes l && (g.lane l).vpc == d.hdr &&
      ((g.lane l).cond == .parked .deferred || (g.lane l).cond == .parked .split))
    let g := { g.wake back with deferred := g.deferred.erase d }
    if back = 0 then g else { g with resumes := resumeAt d.hdr d.word back .ready :: g.resumes })

/-- Every page that a fault waits on has been answered (R338). -/
def Deferred.answered (d : Deferred) : Bool := d.pages.all (fun p => d.answers.any (fun a => a.1 == p.2))
/-- The service made every page of a fault present (R164). -/
def Deferred.granted (d : Deferred) : Bool := d.pages.all (fun p => d.answers.any (fun a => a.1 == p.2 && a.2))

/-- A group takes the answer of the page-fault service for a page. -/
def State.answerGroup (s : State) (k page : Nat) (ok : Bool) : State :=
  let s := s.onGroup k (fun g => { g with
    deferred := g.deferred.map (fun d => if d.pages.any (fun p => p.2 == page) then { d with answers := d.answers ++ [(page, ok)] } else d)
    resumes := g.resumes.map (fun r => match r.wait with
      | .page pg a c none => if pg = page then { r with wait := .page pg a c (some ok) } else r
      | _ => r)
    hwait := match g.hwait with
      | .page pg a c none => if pg = page then .page pg a c (some ok) else g.hwait
      | w => w })
  let quiet := (s.group k).deferred.filter (fun d => d.quiet && d.answered)
  (quiet.foldl (fun s d => s.resumeFault k d) s).settlePage k

/-- A team whose ENSURE waits for a page takes the answer: a refusal is a cause of the word (R166, R184). -/
def State.answerTeam (s : State) (t page : Nat) (ok : Bool) : State :=
  match s.recReady t [0x1A] with
  | some a =>
    if ok then s
    else if s.judgeEnsure t a = .page page then s.failEnsure t a 0x31 (5 * 64 + 0x1A) a.addr.toNat
    else s
  | none => s

/-- PFANS_WRITE (R164 to R166, R225, R394): every lane that waits on the page is released, and its walk is made again. -/
def execPfansWrite (part : Nat) (value : BitVec 64) (s : State) : Host.Outcome State Fault Refusal :=
  let ok := value.getLsbD 0
  let page := value.toNat / 2 ^ 16 % 2 ^ 40
  let s := { s with pages := s.pages.filter (fun r => !(r.part == part && r.page == page)) }
  let gs := (s.groups.filter (fun p => s.partOf p.2 == part && !p.2.retired)).map (·.1)
  let s := gs.foldl (fun s k => s.answerGroup k page ok) s
  let ts := s.residents.filter (fun t => (s.grid (s.team t).grid).part == part)
  .next ((ts.foldl (fun s t => s.answerTeam t page ok) s).sendPages part).settleAll

/-- A page of a partition lies in a range of an invalidation (R226, R394). -/
def inRange (first n page : Nat) : Bool := decide (first ≤ page ∧ page < first + n)

/-- Cached translations of a range of pages dropped. -/
def dropTlb (m : FMap (DWord × Nat)) (part first n : Nat) : FMap (DWord × Nat) :=
  m.filter (fun e => !(e.1 / 2 ^ 40 == part && inRange first n (e.1 % 2 ^ 40)))

/-- TLB_INVALIDATION_START (R226, R394): a write of TLBINVN. With GO the caches of the package lose the range; while one is in progress the write is
ignored. -/
def execTlbInvalidationStart (part : Nat) (value : BitVec 64) (s : State) : Host.Outcome State Fault Refusal :=
  let p := s.part part
  .next (
    if p.tlbinvn.getLsbD 25 then s
    else
      let n := value.toNat % 2 ^ 24
      if value.getLsbD 24 then
        let first := p.tlbinva.toNat / 2 ^ 16 % 2 ^ 40
        let clusters : FMap Cluster := FMap.mapVals (fun _ (c : Cluster) => { c with tlb := dropTlb c.tlb part first n }) s.clusters
        let dies : FMap Die := FMap.mapVals (fun _ (d : Die) => { d with tlb := dropTlb d.tlb part first n }) s.dies
        { s with clusters := clusters, dies := dies, fresh := s.fresh + 1 }.onPart part (fun q => { q with
          tlbinvn := BitVec.ofNat 64 (n + 2 ^ 25), tlbUpto := s.fresh })
      else s.onPart part (fun q => { q with tlbinvn := BitVec.ofNat 64 n }))

/-- Accesses and started commands from before an invalidation that translated a page of its range have been performed (R226). -/
def State.tlbQuiet (s : State) (part : Nat) : Bool :=
  let p := s.part part
  let first := p.tlbinva.toNat / 2 ^ 16 % 2 ^ 40
  let n := p.tlbinvn.toNat % 2 ^ 24
  s.accesses.all (fun (k, a) => decide (p.tlbUpto ≤ k) || s.partOf (s.group a.group) != part ||
    a.parts.all (fun q => q.done || q.space == .scratch || !inRange first n (q.va / 2 ^ 16 % 2 ^ 40))) &&
  s.commands.all (fun (k, c) => decide (p.tlbUpto ≤ k) || c.part != part || !c.started)

/-- TLB_INVALIDATION_COMPLETE (R226). -/
def execTlbInvalidationComplete (part : Nat) (s : State) : Host.Outcome State Fault Refusal :=
  .next (if (s.part part).tlbinvn.getLsbD 25 && s.tlbQuiet part then
    s.onPart part (fun q => { q with tlbinvn := BitVec.ofNat 64 (q.tlbinvn.toNat % 2 ^ 24) })
    else s)

/-! ### Deferred traps (R164, R165, R338 to R340) -/

/-- The other lanes of a faulting word have completed it: what the word loads in them has come (R164; DEDUCED, log entry 69). -/
def State.wordComplete (s : State) (k : Nat) (d : Deferred) : Bool :=
  match FMap.look s.accesses d.age with
  | some a => a.group != k || a.dest.isNone || a.parts.all (fun p => p.done || inSet d.lanes p.lane)
  | none => true

/-- A deferred fault that may be taken (R164, R195, R338): its pages are answered, the other lanes have completed its word, and every lane of the group outside
it is exited or blocked: every state but eligible counts as blocked. -/
def State.faultReady (s : State) (k : Nat) (d : Deferred) : Bool :=
  !d.quiet && d.answered && s.wordComplete k d &&
  (lanesIn (s.group k).liveSet).all (fun l => inSet d.lanes l || !s.eligible k)

/-- The deferred fault that a group takes next: the oldest word's, then the lowest cause. -/
def State.nextFault (s : State) (k : Nat) : Option Deferred :=
  ((s.group k).deferred.filter (fun d => s.faultReady k d)).foldl (fun m d => match m with
    | none => some d
    | some b => if d.age < b.age ∨ (d.age = b.age ∧ d.code < b.code) then some d else m) none

/-- A group is at a run boundary at which a deferred trap may be taken (R338, R339). -/
def State.trapBoundary (s : State) (k : Nat) : Bool :=
  let g := s.group k
  g.resident && !g.retired && g.contained.isNone && !g.handler && !g.trapPending && !g.run.active && !g.isHalted &&
  (s.team g.team).rollback.isNone && (match (s.team g.team).preempt with | .no | .drain _ => true | _ => false)

/-- A deferred fault taken: with no handler, one that the service resolved sets the trap registers and goes on as if a
handler had executed only TRET (R165, R340). -/
def State.takeFault (s : State) (k : Nat) (d : Deferred) : State :=
  let g := s.group k
  let paged := d.code == 0x31 || d.code == 0x35
  let t : Trap := { code := d.code, detail := d.detail + (if paged && d.granted then 2 ^ 11 else 0), hdr := d.hdr, word := d.word
                    lanes := d.lanes, addr := d.addr, defer := true }
  if paged && d.granted && (s.gridOf g).record.handler == 0xFFFFFFFF then (s.onGroup k (fun g => { g with trap := t.regs })).resumeFault k d
  else
    let s := s.onGroup k (fun g => { g with deferred := g.deferred.erase d })
    let s := s.raise k t none
    s.onGroup k (fun g => if g.trapPending then { g with faultRegs := d.regs } else g)

/-- DEFERRED_TRAP_TAKEN (R338). -/
def execDeferredTrapTaken (g : Nat) (s : State) : Host.Outcome State Fault Refusal :=
  .next (if s.trapBoundary g then
    match s.nextFault g with
    | some d => (s.takeFault g d).settleAll
    | none => s
    else s)

/-! ### Write tokens (R237 to R241, R244) -/

/-- The commands of a cluster that have not started and name an object as a destination (R172). -/
def State.tokenCommands (s : State) (cl obj : Nat) : List Command :=
  (s.commands.filter (fun (_, c) => c.cluster == cl && !c.started && (s.tokensMissing c (s.destLines (s.withList c)).1).contains obj)).map (·.2)

/-- A cluster needs the token of an object for something other than the start of a command: a store of it waits there, a started command reads a source
that another cluster holds or writes its status word there, or a TOKREQ (R172, R175, R238). -/
def State.tokenNeed (s : State) (cl obj : Nat) (o : Obj) : Bool :=
  (s.bringer cl o).isSome ||
  s.commands.any (fun (_, c) => c.cluster == cl && c.started &&
    ((o.holder.isSome && (s.tokensMissing c (s.globLines c .read c.reads)).contains obj) ||
     (s.tokensMissing c (s.statusLines c)).contains obj || (c.op == 0x0D && c.objs.contains obj)))

/-- A cluster needs the token of an object. -/
def State.needsToken (s : State) (cl part obj : Nat) : Bool :=
  match FMap.look s.objects obj with
  | none => false
  | some o => o.part == part && o.holder != some cl && (s.tokenNeed cl obj o || !(s.tokenCommands cl obj).isEmpty)

/-- A cluster's request put behind those of an object that have arrived; a second one is merged with its first (R239 step 1). -/
def State.queueRequest (s : State) (cl obj : Nat) : State :=
  match FMap.look s.objects obj with
  | some o => if o.requests.contains cl then s else { s with objects := FMap.put s.objects obj { o with requests := o.requests ++ [cl] } }
  | none => s

/-- TOKEN_REQUEST_ARRIVAL (R239 step 1). A command asks for all its destination tokens together (R241). -/
def execTokenRequestArrival (cl part obj : Nat) (s : State) : Host.Outcome State Fault Refusal :=
  .next (if s.needsToken cl part obj then
    (obj :: (s.tokenCommands cl obj).flatMap (fun c => s.tokensMissing c (s.destLines (s.withList c)).1)).foldl (fun s k => s.queueRequest cl k) s
    else s)

/-- The token of an object may pass to the first requester, or go home for a region's write (R239, R244). A request that only commands stand behind is
served when one of them starts, with its other tokens and its lines (R241). -/
def State.grantable (s : State) (obj : Nat) (o : Obj) : Bool :=
  match o.requests with
  | [] => false
  | c :: _ =>
    if c = homeRequest then (match o.holder with | some _ => s.returnable o | none => !s.recallDue o)
    else s.passable c o && (o.holder == some c || s.tokenNeed c obj o || (s.tokenCommands c obj).isEmpty)

/-- TOKEN_GRANT (R239): the token passes to the first requester. For a region's write it goes home, and the request stays first until the write has been
entered, or no region waits for it any more (R244). -/
def execTokenGrant (part obj : Nat) (s : State) : Host.Outcome State Fault Refusal :=
  .next (match FMap.look s.objects obj with
    | some o =>
      if o.part == part && s.grantable obj o then
        match o.requests with
        | c :: rest =>
          (if c = homeRequest then s.passToken obj none (if o.holder.isSome then c :: rest else rest) else s.passToken obj (some c) rest).settleAll
        | [] => s
      else s
    | none => s)

/-! ### The LLC (R216, R217, R220) -/

/-- LINE_MIGRATION_COMPLETE (R217): after eight accesses in a row from one cluster a line that is not owned, tentative or written by a region moves to a
slice; its home keeps a forwarding entry, of which there are 16,384, the oldest giving way. Which slice is nearest a cluster the spec does
not say: the event names it. -/
def execLineMigrationComplete (line dest : Nat) (s : State) : Host.Outcome State Fault Refusal :=
  let x := s.slice (homeOf line)
  let others := x.forwards.filter (fun p => p.1 != line)
  let full := decide (dest ≠ homeOf line) && decide (16384 ≤ others.length)
  let old : List (Nat × Nat) := if full then others.take 1 else []
  .next (if decide (dest < 48) && dest != s.holdOf line && !s.pinned line && old.all (fun p => !s.pinned p.1) &&
      decide (8 ≤ (FMap.at (0, 0) x.lastUse line).2) then
    let s := old.foldl (fun s p => s.moveLine p.1 p.2 (homeOf line)) s
    (s.moveLine line (s.holdOf line) dest).onLlc (homeOf line) (fun x => { x with
      forwards := (if full then others.drop 1 else others) ++ (if dest = homeOf line then [] else [(line, dest)])
      lastUse := FMap.del x.lastUse line, moves := x.moves + 1 })
    else s)

/-- The lines in the highest enabled pair of ways of a slice. -/
def LlcSlice.topPair (x : LlcSlice) : List Nat :=
  (x.lines.filter (fun p => decide (x.ways ≤ p.1 % 16 + 2 ∧ p.1 % 16 < x.ways))).map (·.2.1)

/-- WAY_PAIR_GATING (R220): never below four ways, and not while the pair holds a line that cannot be a victim. The lines of the pair leave the slice; one
that had migrated there returns home. -/
def execWayPairGating (slice : Nat) (s : State) : Host.Outcome State Fault Refusal :=
  let x := s.slice slice
  let top := x.topPair
  .next (if slice < 48 ∧ 6 ≤ x.ways ∧ top.all (fun ln => !s.pinned ln) then
    let s := top.foldl (fun s ln => if s.holdOf ln = slice ∧ homeOf ln ≠ slice then
        (s.moveLine ln slice (homeOf ln)).onLlc (homeOf ln) (fun y => { y with forwards := y.forwards.filter (fun p => p.1 != ln) })
      else s.onLlc slice (fun y => { y with lines := takeOut y.lines ln })) s
    (s.onLlc slice (fun x => { x with ways := x.ways - 2 })).onDie (slice / 24) (fun d => { d with gates := (d.gates + 1) % 2 ^ 32 })
    else s)

/-- WAY_PAIR_ENABLE (R220): more than an eighth of the slice's last 65,536 requests missed. -/
def execWayPairEnable (slice : Nat) (s : State) : Host.Outcome State Fault Refusal :=
  let x := s.slice slice
  .next (if slice < 48 ∧ x.ways ≤ 14 ∧ 65536 < 8 * x.missed.length then
    (s.onLlc slice (fun x => { x with ways := x.ways + 2 })).onDie (slice / 24) (fun d => { d with gates := (d.gates + 1) % 2 ^ 32 })
    else s)

end Sys2Proof.Machine
end

