-- ==== Sys2Proof/Machine/SaveArea.lean ====
section
/-! DEFINITION. The saved context (R351 to R355): the bytes that a save writes into a slot, and what a restore reads back from them. -/
namespace Sys2Proof.Machine

/-! ### Writing -/

/-- ISTATE of a wait (R353); a synchronous block that waits is a wait of no listed state and reads as 0. -/
def istate : Wait → Nat
  | .ready => 0 | .regs _ => 1 | .lines _ => 2 | .fence _ _ => 3 | .header _ _ => 4 | .queue _ => 5 | .counter _ _ => 6 | .children _ => 7
  | .pred => 8 | .page _ _ _ _ => 9 | .block _ _ => 0 | .ring => 5

/-- WAITON of a wait (R353): counter and threshold of a SUSPEND, unit of a full queue. -/
def waitOn : Wait → Nat
  | .counter ec t => ec + t * 2 ^ 4
  | .queue u => u * 2 ^ 8
  | _ => 0

/-- The issue state of a group: of its handler, else of its first resume point, else of the group. -/
def Group.issueWait (g : Group) : Wait :=
  if g.handler then g.hwait else match g.resumes with | r :: _ => r.wait | [] => g.issue

/-- RESUME (R353): the word at which the handler resumes within a clause, else that of the first resume point. -/
def Group.resumeByte (g : Group) : Nat :=
  if g.handler then (if g.hstart then 0 else g.hidx % 16 + 2 ^ 7) else match g.resumes with | r :: _ => r.idx % 16 + 2 ^ 7 | [] => 0

/-- The trap registers as bytes 224 to 247 of the group header. -/
def TrapRegs.bytes (t : TrapRegs) : List (BitVec 8) :=
  leBytes 4 t.cause.toNat ++ leBytes 4 t.pc.toNat ++ leBytes 8 t.addr.toNat ++ leBytes 8 t.lanes.toNat

/-- The group header (R353); `w` is what the group still waits for. -/
def groupHeader (g : Group) (w : Wait) : List (BitVec 8) :=
  let loops := g.loops.reverse
  let entry (i : Nat) : List (BitVec 8) := match loops[i]? with
    | some e => leBytes 4 e.start.toNat ++ leBytes 4 e.stop.toNat ++ leBytes 4 e.lc
    | none => List.replicate 12 0
  ((List.range 32).flatMap (fun i => leBytes 4 (g.s i).toNat)) ++ leBytes 4 ((~~~g.sEmpty).toNat) ++
  ((List.range 8).flatMap (fun i => leBytes 2 (g.counter i))) ++ ((List.range 3).flatMap (fun i => leBytes 4 (FMap.at (0 : Word) g.lc i).toNat)) ++
  ([0, 1, 2].flatMap entry) ++ leBytes 4 g.loops.length ++
  leBytes 1 (istate w) ++ leBytes 1 g.resumeByte ++ leBytes 1 0 ++ leBytes 1 g.runCount ++
  leBytes 4 g.cursor.toNat ++ leBytes 4 (waitOn w) ++ leBytes 4 g.fpctl.toNat ++ leBytes 4 g.progress.toNat ++ leBytes 4 g.safeord.toNat ++
  g.trap.bytes ++ leBytes 4 ((if g.handler then 1 else 0) + (if g.trapPending then 2 else 0)) ++ leBytes 4 g.hpc.toNat ++
  ((List.range 8).flatMap (fun i => leBytes 4 (FMap.at (0 : Word) g.rstat i).toNat)) ++ leBytes 4 g.gid ++ List.replicate 220 0

/-- The lane record (R354). -/
def laneRecord (g : Group) (l : Nat) : List (BitVec 8) :=
  let n := g.lane l
  if n.cond = .never then List.replicate 306 0 ++ leBytes 2 3 ++ List.replicate 12 0
  else
    let w : Option Gathering := match n.place with | .gathering h i => g.gatherings.find? (fun w => w.hdr == h && w.word == i && inSet w.arrived l) | _ => none
    let f := g.deferred.find? (fun d => inSet d.lanes l)
    ((List.range 64).flatMap (fun r => leBytes 4 (n.reg r).toNat)) ++ ((List.range 8).flatMap (fun r => leBytes 4 (n.reg (64 + r)).toNat)) ++
    leBytes 4 n.vpc.toNat ++ leBytes 4 (n.preds.toNat + n.fpflags.toNat * 2 ^ 24) ++
    leBytes 8 ((~~~n.empty).toNat % 2 ^ 64) ++ leBytes 1 ((~~~n.empty).toNat / 2 ^ 64) ++
    leBytes 1 (match w with | some w => w.word % 16 + 2 ^ 7 | none => 0) ++ leBytes 2 n.condWord.toNat ++
    leBytes 8 (match w with | some w => w.members.toNat | none => 0) ++
    leBytes 4 (match f with | some d => d.code % 256 + d.word % 16 * 2 ^ 8 + 2 ^ 12 | none => 0)

/-- The team header (R352). -/
def State.teamHeader (s : State) (t : Nat) : List (BitVec 8) :=
  let tm := s.team t
  let gr := s.grid tm.grid
  let sets (m : FMap LaneSet) (b : Nat) : List (BitVec 8) := (List.range 16).flatMap (fun k => leBytes 8 (FMap.at (0 : LaneSet) m (b * 16 + k)).toNat)
  (gr.record.bytes ++ List.replicate 128 0).take 128 ++ leBytes 4 tm.idX ++ leBytes 4 tm.idY ++ leBytes 4 tm.idZ ++ leBytes 4 tm.groups.length ++
  leBytes 8 tm.wdcount ++ leBytes 8 tm.energy ++ ((List.range 4).flatMap (fun b => leBytes 4 (FMap.at 0 tm.phases b))) ++
  leBytes 4 (if gr.record.cores then tm.gphase else 0) ++
  leBytes 4 ((if tm.acc0 then 1 else 0) + (if tm.acc1 then 2 else 0) + (if tm.succok then 4 else 0) + (if tm.act then 8 else 0)) ++
  leBytes 8 s.tick ++ List.replicate 64 0 ++ ((List.range 4).flatMap (sets tm.arrivals)) ++ sets tm.gridArr 0 ++ List.replicate 128 0

/-- Bits packed into bytes, bit i of the list at bit i mod 8 of byte i / 8; a last byte that is not filled ends in zeros. -/
def packBits (p : Nat → Bool) (n : Nat) : List (BitVec 8) :=
  (List.range ((n + 7) / 8)).map (fun k => BitVec.ofNat 8 ((List.range 8).foldl (fun v i => v + if 8 * k + i < n ∧ p (8 * k + i) then 2 ^ i else 0) 0))

/-- What a group waits for still, at a moment when it has stopped (R353). -/
def State.waitsFor (s : State) (k : Nat) : Wait :=
  let w := (s.group k).issueWait
  if s.waitOver k w then .ready else w

/-- A team has claimed an accumulator store or the activation banks, and so uses the current-bank word of its slot (R351). -/
def Team.usesBanks (tm : Team) : Bool := tm.acc0 || tm.acc1 || tm.act

/-- What a save writes: offsets in the slot and bytes (R351). -/
def State.saveImage (s : State) (t cl : Nat) : List (Nat × List (BitVec 8)) :=
  let tm := s.team t
  let c := s.cluster cl
  let acc (m : FMap Word) : List (BitVec 8) := (List.range 65536).flatMap (fun k => leBytes 4 (FMap.at (0 : Word) m k).toNat)
  let books (e : Nat) : List (BitVec 8) := (List.range 512).flatMap (fun k => leBytes 4 (FMap.at (0 : Word) c.books (e * 512 + k)).toNat)
  [(0, s.teamHeader t)] ++
  (s.teamGroups t).flatMap (fun (k, g) => (0x400 + 20992 * g.gid, groupHeader g (s.waitsFor k)) ::
    (List.range 64).map (fun l => (0x400 + 20992 * g.gid + 512 + 320 * l, laneRecord g l))) ++
  (if tm.scrSize = 0 then [] else
    [ (0x60000, Mem.readBytes c.scratch tm.scrBase tm.scrSize)
    , (0x160000, packBits (fun i => !FMap.has c.absent (tm.scrBase / 128 + i)) (tm.scrSize / 128))
    , (0x160400, packBits (fun i => FMap.has c.scrPoison (tm.scrBase / 4 + i)) (tm.scrSize / 4)) ]) ++
  (if tm.acc0 then [(0x170000, acc c.acc0), (0x1F0000, books 0)] else []) ++
  (if tm.acc1 then [(0x1B0000, acc c.acc1), (0x1F0800, books 1)] else []) ++
  (if tm.usesBanks then [(0x1F1000, leBytes 4 (c.book0 + c.book1 * 2 + c.actBank * 4))] else []) ++
  (if tm.act then [(0x1F2000, Mem.readBytes c.actBytes 0 3088), (0x1F3000, Mem.readBytes c.actBytes 4096 3088)] else [])

/-- The parts of a slot that a restore reads (R351, R355): offset and length. -/
def State.slotParts (s : State) (t : Nat) : List (Nat × Nat) :=
  let tm := s.team t
  [(0, 0x400)] ++ (if tm.usesBanks then [(0x1F1000, 4)] else []) ++ (s.teamGroups t).map (fun p => (0x400 + 20992 * p.2.gid, 20992)) ++
  (if tm.scrSize = 0 then [] else [(0x60000, tm.scrSize), (0x160000, (tm.scrSize + 1023) / 1024), (0x160400, tm.scrSize / 32)]) ++
  (if tm.acc0 then [(0x170000, 0x40000), (0x1F0000, 0x800)] else []) ++ (if tm.acc1 then [(0x1B0000, 0x40000), (0x1F0800, 0x800)] else []) ++
  (if tm.act then [(0x1F2000, 3088), (0x1F3000, 3088)] else [])

/-- The lowest free save slot of a partition. -/
def State.freeSave (s : State) (part : Nat) : Option Nat :=
  let p := s.part part
  (List.range (p.savebase.toNat / 2 ^ 56)).find? (fun n => !p.slotsUsed.contains n)

/-- The physical base of a save slot. -/
def State.slotBase (s : State) (part n : Nat) : Nat := (s.part part).savebase.toNat % 2 ^ 56 + n * 2 ^ 21

/-! ### Reading back -/

/-- A number of a slot. -/
def State.slotNum (s : State) (base off n : Nat) : Nat := Mem.num s.mem (base + off) n

/-- What a team saved of itself as its header gives it (R352, R355): watchdog count, job energy with the work of the save, phases, SUCCOK and arrivals. -/
def State.readTeam (s : State) (base : Nat) (cores : Bool) (tm : Team) : Team :=
  let num (off n : Nat) : Nat := s.slotNum base off n
  { tm with
    wdcount := num 144 8, energy := num 152 8 + tm.saveGain, saveGain := 0
    phases := (List.range 4).map (fun b => (b, num (160 + 4 * b) 4))
    gphase := if cores then num 176 4 else tm.gphase
    succok := num 180 4 / 4 % 2 == 1
    arrivals := (List.range 64).map (fun i => (i, BitVec.ofNat 64 (num (256 + 8 * i) 8)))
    gridArr := (List.range 16).map (fun i => (i, BitVec.ofNat 64 (num (768 + 8 * i) 8))) }

/-- The gatherings that the lane records of a group give (R354, R355): lanes arrived at one, by their program counter and its word, with its member mask. -/
def gatheringsOf (recs : List (Nat × Word × Nat × LaneSet)) : List Gathering :=
  recs.foldl (fun ws (l, pc, i, m) =>
    if ws.any (fun w => w.hdr == pc && w.word == i) then
      ws.map (fun w => if w.hdr = pc ∧ w.word = i then { w with arrived := w.arrived ||| oneLane l } else w)
    else ws ++ [{ hdr := pc, word := i, members := m, arrived := oneLane l }]) []

/-- The pending faults that the lane records of a group give (R354, R355): lanes with a cause and a word; the rest of a fault, and faults that have no lanes, are as
they were saved. -/
def faultsOf (old : List Deferred) (recs : List (Nat × Word × Nat)) : List Deferred :=
  let cause (p : Nat) : Nat × Nat := (p % 256, p / 2 ^ 8 % 16)
  old.filter (fun d => d.lanes == 0) ++ ((recs.map (fun r => cause r.2.2)).dedup).map (fun c =>
    let mine := recs.filter (fun r => cause r.2.2 == c)
    let m : LaneSet := setOf (fun l => mine.any (fun r => r.1 == l))
    match old.find? (fun d => d.code == c.1 && d.word == c.2 && d.lanes &&& m != 0) with
    | some d => { d with lanes := m }
    | none => { code := c.1, detail := 0, hdr := (mine.headD (0, 0, 0)).2.1, word := c.2, lanes := m, addr := 0, pages := [], age := 0, answers := [], regs := [] })

/-- A group as its header and lane records give it (R353 to R355); what the records do not hold of its waits, parked places and faults is as it was saved. -/
def State.readGroup (s : State) (base : Nat) (g : Group) : Group :=
  let o := 0x400 + 20992 * g.gid
  let num (off n : Nat) : Nat := s.slotNum base (o + off) n
  let lane (l : Nat) (n : Lane) : Lane :=
    if n.cond = .never then n
    else
      let p := 512 + 320 * l
      { n with
        regs := (List.range 72).map (fun r => (r, BitVec.ofNat 32 (num (p + 4 * r) 4)))
        vpc := BitVec.ofNat 32 (num (p + 288) 4)
        preds := BitVec.ofNat 24 (num (p + 292) 4), fpflags := BitVec.ofNat 5 (num (p + 292) 4 / 2 ^ 24)
        empty := ~~~(BitVec.ofNat 72 (num (p + 296) 9)), lrValid := false
        cond := condOf (num (p + 306) 2)
        place := if num (p + 305) 1 / 2 ^ 7 = 1 then .gathering (num (p + 288) 4) (num (p + 305) 1 % 16)
          else match n.place with | .gathering _ _ => .none | x => x }
  let recs (f : Nat → Bool) : List Nat := (List.range 64).filter (fun l => (g.lane l).cond != .never && f (512 + 320 * l))
  let pc (l : Nat) : Word := BitVec.ofNat 32 (num (512 + 320 * l + 288) 4)
  let loop (i : Nat) : LoopEntry :=
    { start := BitVec.ofNat 32 (num (160 + 12 * i) 4), stop := BitVec.ofNat 32 (num (164 + 12 * i) 4), lc := num (168 + 12 * i) 4 }
  let word := num 201 1 % 16
  { g with
    lanes := (List.range 64).map (fun l => (l, lane l (g.lane l)))
    gatherings := gatheringsOf ((recs (fun p => num (p + 305) 1 / 2 ^ 7 == 1)).map (fun l =>
      (l, pc l, num (512 + 320 * l + 305) 1 % 16, BitVec.ofNat 64 (num (512 + 320 * l + 308) 8))))
    deferred := faultsOf g.deferred ((recs (fun p => num (p + 316) 4 / 2 ^ 12 % 2 == 1)).map (fun l => (l, pc l, num (512 + 320 * l + 316) 4)))
    loops := ((List.range (min 3 (num 196 4 % 4))).map loop).reverse
    issue := match g.issue with | .counter _ _ => .counter (num 208 4 % 8) (num 208 4 / 2 ^ 4 % 2 ^ 4) | w => w
    resumes := if num 248 4 % 2 = 1 then g.resumes else match g.resumes with | r :: rest => { r with idx := word } :: rest | [] => []
    handler := num 248 4 % 2 == 1, trapPending := num 248 4 / 2 % 2 == 1
    hidx := if num 248 4 % 2 = 1 then word else g.hidx
    sregs := (List.range 32).map (fun i => (i, BitVec.ofNat 32 (num (4 * i) 4)))
    sEmpty := ~~~(BitVec.ofNat 32 (num 128 4))
    ec := (List.range 8).map (fun i => (i, BitVec.ofNat 16 (num (132 + 2 * i) 2)))
    lc := (List.range 3).map (fun i => (i, BitVec.ofNat 32 (num (148 + 4 * i) 4)))
    runCount := num 203 1, cursor := BitVec.ofNat 32 (num 204 4)
    fpctl := BitVec.ofNat 32 (num 212 4), progress := BitVec.ofNat 32 (num 216 4), progressSeen := BitVec.ofNat 32 (num 216 4), safeord := BitVec.ofNat 32 (num 220 4)
    trap := { cause := BitVec.ofNat 32 (num 224 4), pc := BitVec.ofNat 32 (num 228 4), addr := BitVec.ofNat 64 (num 232 8)
              lanes := BitVec.ofNat 64 (num 240 8) }
    hpc := BitVec.ofNat 32 (num 252 4)
    rstat := (List.range 8).map (fun i => (i, BitVec.ofNat 32 (num (256 + 4 * i) 4))) }

/-- The stores, banks and scratchpad of a cluster as a slot gives them for a team whose allocation begins at `at_` (R351, R355), with no error or poison of an
earlier use. -/
def State.readStores (s : State) (base cl at_ : Nat) (tm : Team) : State :=
  let acc (off : Nat) : FMap Word := (List.range 65536).map (fun k => (k, BitVec.ofNat 32 (s.slotNum base (off + 4 * k) 4)))
  let books (m : FMap Word) (e : Nat) : FMap Word :=
    (List.range 512).foldl (fun m k => FMap.put m (e * 512 + k) (BitVec.ofNat 32 (s.slotNum base (0x1F0000 + 0x800 * e + 4 * k) 4))) m
  let banks := s.slotNum base 0x1F1000 4
  let bitOf (off i : Nat) : Bool := s.slotNum base (off + i / 8) 1 / 2 ^ (i % 8) % 2 == 1
  s.onCluster cl (fun c =>
    let c := { c with
      scratch := Mem.writeBytes c.scratch at_ (Mem.readBytes s.mem (base + 0x60000) tm.scrSize)
      scrPoison := (List.range (tm.scrSize / 4)).foldl (fun m i =>
        if bitOf 0x160400 i then FMap.put m (at_ / 4 + i) () else FMap.del m (at_ / 4 + i)) c.scrPoison
      scrErr := c.scrErr.filter (fun p => !decide (at_ / 4 ≤ p.1 ∧ p.1 < (at_ + tm.scrSize) / 4))
      absent := (List.range (tm.scrSize / 128)).foldl (fun m i =>
        if bitOf 0x160000 i then FMap.del m (at_ / 128 + i) else FMap.put m (at_ / 128 + i) ()) c.absent }
    let c := if tm.acc0 then { c with acc0 := acc 0x170000, accPoison := c.accPoison.filter (fun p => decide (65536 ≤ p.1)), books := books c.books 0, book0 := banks % 2 } else c
    let c := if tm.acc1 then { c with acc1 := acc 0x1B0000, accPoison := c.accPoison.filter (fun p => decide (p.1 < 65536)), books := books c.books 1, book1 := banks / 2 % 2 } else c
    if tm.act then { c with
      actBytes := Mem.writeBytes (Mem.writeBytes c.actBytes 0 (Mem.readBytes s.mem (base + 0x1F2000) 3088)) 4096 (Mem.readBytes s.mem (base + 0x1F3000) 3088)
      actBank := banks / 4 % 2 } else c)

end Sys2Proof.Machine
end

