-- ==== Sys2Proof/Machine/Scheduler.lean ====
section
/-! DEFINITION. The scheduler (R192, R204, R205, R210, R213, R308, R309, R317 to R326): queues, candidates and their order, placement, admission and restore,
reservations, the pre-emption that makes room, retirement of groups and exit status. -/
namespace Sys2Proof.Machine

/-! ### Host queues (R318, R319) and child queues (R320) -/

/-- LOG2N of a queue. -/
def HostQueue.log2n (q : HostQueue) : Nat := q.ctl.toNat % 16
/-- The partition of a queue. -/
def HostQueue.part (q : HostQueue) : Nat := q.ctl.toNat / 2 ^ 4 % 8
/-- EN of a queue. -/
def HostQueue.en (q : HostQueue) : Bool := q.ctl.getLsbD 7

/-- A queue changed. -/
def State.onQueue (s : State) (q : Nat) (f : HostQueue → HostQueue) : State := { s with queues := FMap.put s.queues q (f (FMap.at {} s.queues q)) }

/-- LQPTR_TAIL_WRITE (R318): a write of LQPTR, TAIL in [31:16]. A tail more than the ring's records ahead is refused and sets ERR. -/
def execLqptrTailWrite (q : Nat) (tail : BitVec 32) (s : State) : Host.Outcome State Fault Refusal :=
  let t := tail.toNat / 2 ^ 16
  .next (if 32 ≤ q then s
    else s.onQueue q (fun x =>
      if 2 ^ x.log2n < (t + 2 ^ 16 - x.head) % 2 ^ 16 then { x with ctl := x.ctl ||| 0x100 } else { x with tail := t }))

/-- The address of the record that a queue reads next (R319): none while it is disabled or empty, or the previous grid has teams undispatched. -/
def State.recordAt (s : State) (q : Nat) : Option Nat :=
  let x := FMap.at ({} : HostQueue) s.queues q
  let ready := x.en && x.head != x.tail && (match x.lastGrid with | some k => (s.grid k).dispatched | none => true)
  if ready then some ((x.base.toNat / 128 * 128 + 128 * (x.head % 2 ^ x.log2n)) % 2 ^ 64) else none

/-- The record that a queue reads next (R319). -/
def State.nextRecord (s : State) (q : Nat) : Option (List (BitVec 8)) :=
  (s.recordAt q).bind (fun va => s.hostStyleRead (FMap.at ({} : HostQueue) s.queues q).part va 128)

/-- LAUNCH_RECORD_READ (R314, R315, R319, R321): the record is copied and HEAD advances; an invalid one reports status 2 and counts as dispatched. -/
def execLaunchRecordRead (q : Nat) (s : State) : Host.Outcome State Fault Refusal :=
  .next (match if q < 32 then s.nextRecord q else none with
    | none => (match if q < 32 then s.recordAt q else none with
      | some va => s.noteTable (FMap.at ({} : HostQueue) s.queues q).part va
      | none => s)
    | some b =>
      let x := FMap.at ({} : HostQueue) s.queues q
      let r := parseRecord b
      let k := s.fresh
      match recordFault r (s.partClusters x.part).length with
      | some off =>
        (s.onQueue q (fun x => { x with head := (x.head + 1) % 2 ^ 16, lastGrid := none })).writeDone x.part r.done 2 off 0
      | none =>
        let pred := if r.flags.getLsbD 12 then (match x.lastGrid with | some p => if (s.grid p).retired then none else some p | none => none) else none
        let g : Grid := { part := x.part, queue := some q, pred := pred, record := r, order := k }
        ({ s with grids := FMap.put s.grids k g, fresh := k + 1 }.onQueue q
          (fun x => { x with head := (x.head + 1) % 2 ^ 16, lastGrid := some k })).settleAll)

/-- CHILD_RING_TRANSFER (R320): the head record of a grid's overflow ring moves once the child queue of its PRIO has room. The record is taken
from the ring as it stands; where it cannot be read or is no valid record any more, as it was launched. -/
def execChildRingTransfer (grid : Nat) (s : State) : Host.Outcome State Fault Refusal :=
  let g := s.grid grid
  .next (match g.ringIds with
    | [] => s
    | k :: rest =>
      let c := s.grid k
      let va := g.record.ring + 128 * (g.ringHead % g.record.ringCap)
      let again := match s.hostStyleRead g.part va 128 with
        | some b => (let r := parseRecord b; if (recordFault r (s.partClusters g.part).length).isNone then r else c.record)
        | none => c.record
      let queue := FMap.at [] (s.die c.die).childQueues again.prio
      if queue.length < 32 then
        let s := { s.noteTable g.part va with fresh := s.fresh + 1 }.onGrid k (fun c => { c with record := again, qorder := some s.fresh })
        let s := s.onGrid grid (fun g => { g with ringIds := rest, ringHead := g.ringHead + 1 })
        (s.onDie c.die (fun d => { d with childQueues := FMap.put d.childQueues again.prio (queue ++ [k]) })).settleAll
      else s)

/-! ### Room on a cluster (R192, R204, R210, R213, R140) -/

/-- Teams that are on a cluster. -/
def State.clusterTeams (s : State) (cl : Nat) : List Nat := (s.teams.filter (fun p => p.2.place == .resident cl)).map (·.1)

/-- The admission weight that a resident team still has (R193, R204). -/
def State.teamWeight (s : State) (t : Nat) : Nat :=
  classWeight (s.grid (s.team t).grid).record.energyClass * ((s.team t).groups.filter (fun k => !(s.group k).retired)).length

/-- The sum of the resident weights of a cluster. -/
def State.clusterWeight (s : State) (cl : Nat) : Nat := ((s.clusterTeams cl).map s.teamWeight).sum

/-- Occupied slots of a slice. -/
def State.slotsOf (s : State) (cl sl : Nat) : List Nat := (s.sliceGroups cl sl).map (fun p => p.2.slot)

/-- The slice and slot that the next group of a team takes (R192): the slice with the fewest occupied slots, its lowest free slot. -/
def State.nextSlot (s : State) (cl : Nat) : Option (Nat × Nat) :=
  let best := [0, 1, 2, 3, 4, 5].foldl (fun m sl =>
    let n := (s.slotsOf cl sl).length
    match m with
    | none => if n < 16 then some (sl, n) else none
    | some (b, k) => if n < k then some (sl, n) else some (b, k)) (none : Option (Nat × Nat))
  match best with
  | some (sl, _) => ((List.range 16).find? (fun i => !(s.slotsOf cl sl).contains i)).map (fun i => (sl, i))
  | none => none

/-- A team's allocation meets a range. -/
def Team.overlaps (t : Team) (base size : Nat) : Bool := decide (t.scrBase < base + size ∧ base < t.scrBase + t.scrSize)

/-- The lowest base at which an allocation fits on a cluster (R204, R210). -/
def State.scrRoom (s : State) (cl size : Nat) : Option Nat :=
  let ts := (s.clusterTeams cl).map s.team
  if size = 0 then some 0
  else
    let bases := sortBy id (0 :: ts.map (fun t => t.scrBase + t.scrSize))
    bases.find? (fun b => decide (b + size ≤ 2 ^ 20) && ts.all (fun t => !t.overlaps b size))

/-- A team holds claims on a cluster (R140, R213): it is resident, or waits as a record while commands of it go on there (R193). -/
def State.claimsOn (s : State) (cl t : Nat) : Bool :=
  match (s.team t).place with
  | .resident c => c == cl
  | .record => s.commands.any (fun c => c.2.team == t && c.2.cluster == cl)
  | _ => false

/-- A claim of a store or of the activation banks is free on a cluster. -/
def State.claimFree (s : State) (cl : Nat) (claim : Team → Bool) : Bool := s.teams.all (fun p => !(claim p.2 && s.claimsOn cl p.1))

/-- What admission asks for: launch record, groups, allocation. -/
def State.admits (s : State) (cl part : Nat) (r : LaunchRec) (groups grid : Nat) (team : Nat) : Bool :=
  let c := s.cluster cl
  let p := s.part part
  c.enabled && c.part == part && c.held.isNone && c.frozen.isNone && !s.module.unmet && !p.fenced && !p.stopped.contains cl &&
  (match p.reservation with | some (x, g, t) => x != cl || (g == grid && t == team) | none => true) &&
  decide (s.clusterWeight cl + classWeight r.energyClass * groups ≤ c.budget) &&
  decide ((([0, 1, 2, 3, 4, 5].map (fun sl => (s.slotsOf cl sl).length)).sum) + groups ≤ 96) &&
  (s.scrRoom cl r.shared).isSome &&
  (!r.flags.getLsbD 10 || s.claimFree cl (·.acc0)) && (!r.flags.getLsbD 11 || s.claimFree cl (·.acc1)) &&
  (!r.flags.getLsbD 13 || s.claimFree cl (·.act))

/-- The cluster that a candidate goes to (R322): for a child its parent's die first, then the smallest sum of weights, then the lowest number. -/
def State.bestCluster (s : State) (part : Nat) (r : LaunchRec) (groups grid team : Nat) (die : Option Nat) : Option Nat :=
  let ok := (s.partClusters part).filter (fun cl => s.admits cl part r groups grid team)
  let near := ok.filter (fun cl => die == some (dieOf cl))
  let from_ := if near.isEmpty then ok else near
  from_.foldl (fun m cl => match m with
    | none => some cl
    | some b => if s.clusterWeight cl < s.clusterWeight b then some cl else some b) none

/-! ### A team's start (R191, R210, R213, R255, R317) -/

/-- A lane at launch. -/
def launchLane (r : LaunchRec) : Lane := { vpc := r.entry, cond := .live }

/-- A group at launch: its number in the team, and how many lanes it has. -/
def launchGroup (t gid cl sl slot n : Nat) (r : LaunchRec) : Group :=
  { team := t, gid := gid, cluster := cl, slice := sl, slot := slot, resident := true
    lanes := (List.range 64).map (fun l => (l, if l < n then launchLane r else {}))
    sregs := [(0, BitVec.ofNat 32 r.param.toNat), (1, BitVec.ofNat 32 (r.param.toNat / 2 ^ 32))] }

/-- Groups of a team placed one after another (R192); `make` gives the group for its number, slice and slot, and its key. -/
def State.placeGroups (s : State) (cl : Nat) (make : Nat → Nat → Nat → State → State) : Nat → Nat → Option State
  | 0, _ => some s
  | n + 1, gid =>
    match s.nextSlot cl with
    | some (sl, slot) => (make gid sl slot s).placeGroups cl make n (gid + 1)
    | none => none

/-- A scratchpad allocation cleared, its words written with their check bits (R210), and what the team claims set to zero (R140, R213, R255). -/
def Cluster.clearFor (c : Cluster) (base size : Nat) (acc0 acc1 act : Bool) : Cluster :=
  let c := { c with
    scratch := c.scratch.filter (fun p => !decide (base ≤ p.1 ∧ p.1 < base + size))
    scrPoison := c.scrPoison.filter (fun p => !decide (base / 4 ≤ p.1 ∧ p.1 < (base + size) / 4))
    scrErr := c.scrErr.filter (fun p => !decide (base / 4 ≤ p.1 ∧ p.1 < (base + size) / 4))
    absent := c.absent.filter (fun p => !decide (base / 128 ≤ p.1 ∧ p.1 < (base + size) / 128)) }
  let c := if acc0 then { c with acc0 := [], accPoison := c.accPoison.filter (fun p => decide (65536 ≤ p.1)), book0 := 0
                                 books := c.books.filter (fun p => decide (512 ≤ p.1)) } else c
  let c := if acc1 then { c with acc1 := [], accPoison := c.accPoison.filter (fun p => decide (p.1 < 65536)), book1 := 0
                                 books := c.books.filter (fun p => decide (p.1 < 512)) } else c
  if act then { c with actBytes := [], actBank := 0 } else c

/-- The team of a linear index of a grid as it is admitted: X fastest, then Y, then Z (R322). A team that was flushed and restarted keeps its SUCCOK and
its job meter (R329, R382). -/
def newTeam (g : Grid) (k linear cl base : Nat) (old : Team) (tick : Nat) : Team :=
  let r := g.record
  { grid := k, linear := linear, idX := linear % r.gridX, idY := linear / r.gridX % r.gridY, idZ := linear / r.gridX / r.gridY
    lanes := r.lanes, place := .resident cl, scrBase := base, scrSize := r.shared, clearing := r.shared != 0, succok := old.succok, lastChild := old.lastChild
    energy := old.energy, energyCarry := old.energyCarry, since := tick
    acc0 := r.flags.getLsbD 10, acc1 := r.flags.getLsbD 11, act := r.flags.getLsbD 13 }

/-- A reservation that a team held is released (R323). -/
def State.release (s : State) (part grid team : Nat) : State :=
  s.onPart part (fun p => match p.reservation with
    | some (_, g, t) => if g = grid ∧ t = team then { p with reservation := none } else p
    | none => p)

/-- A child grid whose teams have all been dispatched leaves its queue (R320). -/
def State.leaveQueue (s : State) (k : Nat) : State :=
  let g := s.grid k
  if g.parent.isSome && g.dispatched then
    s.onDie g.die (fun d => { d with childQueues := FMap.mapVals (fun _ (q : List Nat) => q.filter (· != k)) d.childQueues })
  else s

/-- The next team of a grid admitted on a cluster (R192, R317, R322): one that came back undispatched first, in linear order; none where it does not fit. -/
def State.admitOn (s : State) (k cl : Nat) : Option State :=
  let g := s.grid k
  match s.scrRoom cl g.record.shared with
  | none => none
  | some base =>
    let again := (sortBy (fun t => (s.team t).linear) g.again).head?
    let t := again.getD s.fresh
    let linear := match again with | some t => (s.team t).linear | none => g.next
    let tm := newTeam g k linear cl base (s.team t) s.tick
    let s := ({ s with fresh := if again.isSome then s.fresh else s.fresh + 1 }.setTeam t tm).onCluster cl
      (fun c => c.clearFor base tm.scrSize tm.acc0 tm.acc1 tm.act)
    let make (gid sl slot : Nat) (s : State) : State :=
      let n := s.fresh
      ({ s with fresh := n + 1 }.setGroup n (launchGroup t gid cl sl slot (min 64 (tm.lanes - 64 * gid)) g.record)).onTeam t
        (fun tm => { tm with groups := tm.groups ++ [n] })
    match s.placeGroups cl make g.record.groups 0 with
    | none => none
    | some s =>
      let s := s.onGrid k (fun g => { g with
        next := if again.isSome then g.next else g.next + 1, again := g.again.filter (· != t)
        live := g.live ++ [t], passed := none })
      let s := match g.queue with | some q => s.onModule (fun m => { m with lastQueue := q }) | none => s
      let s := (s.release g.part k 0).leaveQueue k
      some (s.logPoint k (s.group ((s.team t).groups.headD 0)) 6 (linear % 2 ^ 64) cl)

/-! ### Restoring a team (R192, R210, R330, R355) -/

/-- The parts of a save slot that a team uses can be read back without an uncorrectable error (R355). -/
def State.slotGood (s : State) (base t : Nat) : Bool :=
  s.poison.all (fun p => (s.slotParts t).all (fun x => !decide (base + x.1 < 4 * p.1 + 4 ∧ 4 * p.1 < base + x.1 + x.2)))

/-- Lanes of a group that wait for a region slot take their place in the queue of the die (R330). -/
def State.rejoin (s : State) (k : Nat) : State :=
  let g := s.group k
  (lanesIn g.countSet).foldl (fun s l =>
    let n := g.lane l
    if n.isParked && n.place == .slotWait then
      s.onDie (dieOf g.cluster) (fun d => { d with waiters := d.waiters ++ [{ group := k, lane := l, serial := false, slot := none, hdr := n.vpc }] })
    else s) s

/-- A saved team put back on a cluster (R330, R355), whose copies of lines go, so that its lanes read nothing older than their own accesses (R146, R231); a slot that
cannot be read ends the team with cause 0x1B. -/
def State.restoreOn (s : State) (t cl : Nat) : Option State :=
  let tm := s.team t
  match tm.place, s.scrRoom cl tm.scrSize with
  | .saved part slot, some at_ =>
    let base := s.slotBase part slot
    let s := s.onPart part (fun p => { p with slotsUsed := p.slotsUsed.filter (· != slot) })
    let s := s.onGrid tm.grid (fun g => { g with saved := g.saved.filter (· != t) })
    if !s.slotGood base t then
      some ((s.onTeam t (fun tm => { tm with place := .record })).terminate t 0x1B 0 none)
    else
      let alive := tm.groups.filter (fun k => !(s.group k).retired)
      let make (i sl slot : Nat) (s : State) : State :=
        let k := alive.getD i 0
        s.onGroup k (fun g => { s.readGroup base g with cluster := cl, slice := sl, slot := slot, resident := true, run := {} })
      let cores := (s.grid tm.grid).record.cores
      let s := (s.readStores base cl at_ tm).onTeam t (fun tm => { s.readTeam base cores tm with
        place := .resident cl, scrBase := at_, since := s.tick, clearing := false })
      match s.placeGroups cl make alive.length 0 with
      | none => none
      | some s =>
        let s := alive.foldl (fun s k => s.rejoin k) s
        let s := (s.release (s.grid tm.grid).part tm.grid t).dropCopies cl
        some (s.logPoint tm.grid (s.group (alive.headD 0)) 6 (tm.linear % 2 ^ 64) cl)
  | _, _ => none

/-! ### Candidates and their order (R322, R324) -/

/-- A candidate: a grid, the saved team or 0 for the grid's next team, its kind (0 saved, 1 child, 2 host), since when it waits, its effective priority
and its place among its kind. -/
structure Cand where
  grid : Nat
  team : Nat
  kind : Nat
  since : Nat
  prio : Nat
  key  : Nat
  deriving DecidableEq, Repr

/-- The effective priority of a team of a grid that has waited since a tick (R322). -/
def State.effPrio (s : State) (g : Grid) (since : Nat) : Nat := min 7 (g.record.prio + (s.tick - since) / 2 ^ 24)

/-- Every group of a team that has not retired is suspended in a wait (R326, R309). -/
def State.suspended (s : State) (t : Nat) (is : Wait → Bool) : Bool :=
  let gs := (s.teamGroups t).filter (fun p => !p.2.retired)
  !gs.isEmpty && gs.all (fun p => is p.2.issue && !p.2.handler && !p.2.trapPending && !p.2.run.active && p.2.resumes.isEmpty)

/-- The wait of WAITCHILD. -/
def Wait.isChildren : Wait → Bool | .children _ => true | _ => false
/-- The wait of WAITPRED. -/
def Wait.isPred : Wait → Bool | .pred => true | _ => false

/-- A saved team may be restored (R309, R326, R330): one suspended in WAITCHILD or WAITPRED once its condition holds (DEDUCED, log entry 35). -/
def State.mayRestore (s : State) (t : Nat) : Bool :=
  !(s.suspended t (fun w => w.isChildren || w.isPred)) ||
  ((s.teamGroups t).filter (fun p => !p.2.retired)).any (fun p => s.waitOver p.1 p.2.issue)

/-- Where a team stands towards admission: it holds a cluster, or a save slot. -/
def Where.held : Where → Bool | .resident _ => true | .saved _ _ => true | _ => false
/-- It holds a cluster. -/
def Where.onCluster : Where → Bool | .resident _ => true | _ => false

/-- The saved teams of a grid that are candidates (R322, R330): of a co-resident grid one, for all, once none of its teams is on a cluster (R324). -/
def State.savedCands (s : State) (k : Nat) : List Nat :=
  let g := s.grid k
  if g.record.cores then
    (if g.saved.all s.mayRestore && g.live.all (fun t => !(s.team t).place.onCluster) then (g.saved.head?).toList else [])
  else g.saved.filter s.mayRestore

/-- The candidates of a grid. A co-resident grid is one candidate, all of its teams together (R324). A child grid is one once it has entered its child
queue, and again where a team of it was restarted (R320, R329); its condition on its predecessor must hold still (R308). -/
def State.candsOf (s : State) (k : Nat) : List Cand :=
  let g := s.grid k
  if g.retired then []
  else
    let back := (sortBy (fun t => (s.team t).linear) g.again).head?
    let key := match g.queue with
      | some q => (q + 31 - s.module.lastQueue) % 32 * 2 ^ 64 + g.order
      | none => g.qorder.getD g.order
    let open_ := !g.dispatched && (g.parent.isNone || g.qorder.isSome) && s.predMet g &&
      (!g.record.cores || g.live.all (fun t => !(s.team t).place.held))
    (s.savedCands k).map (fun t =>
      { grid := k, team := t, kind := 0, since := (s.team t).since, prio := s.effPrio g (s.team t).since, key := (s.team t).since * 2 ^ 64 + t }) ++
    (match g.readyAt with
     | some ready =>
       let since := match back with | some t => (s.team t).since | none => ready
       if open_ then [{ grid := k, team := 0, kind := if g.parent.isSome then 1 else 2, since := since, prio := s.effPrio g since, key := key }] else []
     | none => [])

/-- Every candidate, in the order in which the scheduler tries them (R322). -/
def State.candidates (s : State) : List Cand :=
  let all_ := s.grids.flatMap (fun p => s.candsOf p.1)
  let rank (c : Cand) : Nat := (7 - c.prio) * 2 ^ 256 + c.kind * 2 ^ 250 + c.key
  let ordered := sortBy (fun i => match all_[i]? with | some c => rank c | none => 0) (List.range all_.length)
  ordered.filterMap (fun i => all_[i]?)

/-- One team of a candidate admitted or restored. -/
def State.tryOne (s : State) (c : Cand) : Option State :=
  let g := s.grid c.grid
  let groups := if c.kind = 0 then ((s.team c.team).groups.filter (fun k => !(s.group k).retired)).length else g.record.groups
  if s.logStalls c.grid then none
  else
    match s.bestCluster g.part g.record groups c.grid c.team (if g.parent.isSome then some g.die else none) with
    | none => none
    | some cl => if c.kind = 0 then s.restoreOn c.team cl else s.admitOn c.grid cl

/-- Teams of a co-resident grid admitted one after another, or restored, all or none (R324). -/
def State.tryAll (s : State) (k : Nat) (saved : List Nat) : Nat → Option State
  | 0 => some s
  | n + 1 =>
    match s.tryOne { grid := k, team := saved.headD 0, kind := if saved.isEmpty then 2 else 0, since := 0, prio := 0, key := 0 } with
    | some s => s.tryAll k (saved.drop 1) n
    | none => none

/-- A candidate admitted, where there is room. -/
def State.tryCand (s : State) (c : Cand) : Option State :=
  let g := s.grid c.grid
  if g.record.cores then
    if c.kind = 0 then s.tryAll c.grid g.saved g.saved.length else s.tryAll c.grid [] (g.record.teams - g.next + g.again.length)
  else s.tryOne c

/-- The first candidate that can be admitted, and the machine after it (R322). -/
def State.choose (s : State) : Option (Cand × State) := s.candidates.findSome? (fun c => (s.tryCand c).map (fun s' => (c, s')))

/-! ### Passing over, reservations and room made (R309, R323, R326) -/

/-- The machine with some teams taken off a cluster, to judge what would fit without them. -/
def State.without (s : State) (ts : List Nat) : State :=
  ts.foldl (fun s t =>
    let s := (s.team t).groups.foldl (fun s k => s.onGroup k (fun g => { g with resident := false })) s
    s.onTeam t (fun tm => { tm with place := .gone })) s

/-- Teams suspended in a wait on a cluster, in an order, and the first of them without which a need is met: which ones to save; none where even all
would not do. -/
def State.makeRoom (s : State) (fits : State → Bool) : List Nat → List Nat → Option (List Nat)
  | [], done => if fits (s.without done) then some done else none
  | t :: rest, done => if fits (s.without done) then some done else s.makeRoom fits rest (done ++ [t])

/-- A candidate would fit on a cluster. -/
def State.fitsOn (s : State) (c : Cand) (cl : Nat) : Bool :=
  let g := s.grid c.grid
  let groups := if c.kind = 0 then ((s.team c.team).groups.filter (fun k => !(s.group k).retired)).length else g.record.groups
  s.admits cl g.part g.record groups c.grid c.team

/-- The teams, of some suspended in a wait and in their order, that must be saved for a candidate that fits nowhere (R309, R326): those on one cluster, or,
for a co-resident grid, on any (R324). Teams whose save is under way count as absent already; none where nothing more is to be saved, or all
would not do. -/
def State.roomFor_ (s : State) (c : Cand) (order : List Nat) : Option (List Nat) :=
  let cls := s.partClusters (s.grid c.grid).part
  let t := s.without (s.residents.filter (fun t => (s.team t).preempt.saves))
  if (s.grid c.grid).record.cores then
    if (s.tryCand c).isSome || (t.tryCand c).isSome then none else t.makeRoom (fun s => (s.tryCand c).isSome) order []
  else if cls.any (fun cl => s.fitsOn c cl || t.fitsOn c cl) then none
  else cls.findSome? (fun cl => t.makeRoom (fun s => s.fitsOn c cl) (order.filter (fun k => (s.team k).place == .resident cl)) [])

/-- Teams marked to be saved for room; a co-resident grid is saved whole (R309, R324, R326). -/
def State.holdOut (s : State) (ts : List Nat) : State :=
  let whole (t : Nat) : List Nat :=
    let k := (s.team t).grid
    if (s.grid k).record.cores then (s.grid k).live.filter (fun t => (s.team t).place.onCluster) else [t]
  ((ts.flatMap whole).dedup).foldl (fun s t => s.onTeam t (fun tm => { tm with preempt := match tm.preempt with | .no => .heldOut | x => x })) s

/-- The teams suspended in a wait that no pre-emption has taken up, the longest admitted first. -/
def State.waiting (s : State) (is : Wait → Bool) : List Nat :=
  sortBy (fun t => (s.team t).since) (s.residents.filter (fun t => s.suspended t is && (s.team t).preempt == .no))

/-- Successor teams suspended in WAITPRED make room for the restore of a predecessor's team, the most recently admitted first (R309). -/
def State.predRoom (s : State) (c : Cand) : State :=
  if c.kind ≠ 0 then s
  else
    match s.roomFor_ c ((s.waiting Wait.isPred).filter (fun t => (s.grid (s.team t).grid).pred == some c.grid)).reverse with
    | some ts => s.holdOut ts
    | none => s

/-- Candidates that were tried and not admitted: the first of each effective priority is passed over from now on, and a saved predecessor asks for
room (R309, R323). -/
def State.markPassed (s : State) : State :=
  let cs := s.candidates
  let first (c : Cand) : Bool := (cs.find? (fun d => d.prio == c.prio)) == some c
  let s := cs.foldl (fun s c =>
    let now (old : Option Nat) : Option Nat := if first c then some (old.getD s.tick) else none
    if c.kind = 0 then s.onTeam c.team (fun tm => { tm with passedOver := now tm.passedOver })
    else s.onGrid c.grid (fun g => { g with passed := now g.passed })) s
  cs.foldl (fun s c => s.predRoom c) s

/-- TEAM_ADMISSION (R322, R324): the first candidate that fits is admitted, unless it is a saved team, whose restore is an event of its own. -/
def execTeamAdmission (s : State) : Host.Outcome State Fault Refusal :=
  .next (match s.choose with
    | some (c, s') => if c.kind = 0 then s else s'.markPassed.settleAll
    | none => s.markPassed)

/-- TEAM_RESTORE (R355): the saved team is the first candidate that fits. -/
def execTeamRestore (team : Nat) (s : State) : Host.Outcome State Fault Refusal :=
  .next (match s.choose with
    | some (c, s') => if c.kind = 0 ∧ c.team = team then s'.markPassed.settleAll else s
    | none => s)

/-- SCRATCHPAD_CLEAR_DONE (R210): 128 bytes a cluster cycle, which is one tick. -/
def execScratchpadClearDone (team : Nat) (s : State) : Host.Outcome State Fault Refusal :=
  let tm := s.team team
  .next (if tm.clearing && decide (tm.since + tm.scrSize / 128 ≤ s.tick) then s.onTeam team (fun tm => { tm with clearing := false }) else s)

/-- Since when a candidate has been passed over while first in its effective priority (R323). -/
def State.passedSince (s : State) (c : Cand) : Option Nat := if c.kind = 0 then (s.team c.team).passedOver else (s.grid c.grid).passed

/-- The cluster a reservation falls on (R323): of those whose CLBUDGET suffices the one with the greatest free weight, then the lowest. -/
def State.reserveOn (s : State) (c : Cand) : Option Nat :=
  let g := s.grid c.grid
  let weight := if c.kind = 0 then s.teamWeight c.team else g.record.weight
  let free (cl : Nat) : Nat := (s.cluster cl).budget - s.clusterWeight cl
  ((s.partClusters g.part).filter (fun cl => decide (weight ≤ (s.cluster cl).budget) && (s.cluster cl).held.isNone)).foldl (fun m cl => match m with
    | none => some cl
    | some b => if free b < free cl then some cl else some b) (none : Option Nat)

/-- The candidate of a partition that qualified first for its reservation (R323): passed over for 2^22 ticks, of no co-resident grid, and with a cluster
whose CLBUDGET suffices. -/
def State.qualified (s : State) (part : Nat) : Option Cand :=
  let ok (c : Cand) : Bool := (s.grid c.grid).part == part && !(s.grid c.grid).record.cores && (s.reserveOn c).isSome &&
    (s.passedSince c).any (fun t => decide (t + 2 ^ 22 ≤ s.tick))
  (s.candidates.filter ok).foldl (fun m c => match m with
    | none => some c
    | some b => if (s.passedSince c).getD 0 < (s.passedSince b).getD 0 then some c else some b) none

/-- ADMISSION_RESERVATION (R323): the earliest team to qualify takes the partition's reservation; `team` is 0 for a grid's next team. -/
def execAdmissionReservation (grid team : Nat) (s : State) : Host.Outcome State Fault Refusal :=
  let part := (s.grid grid).part
  .next (match s.qualified part with
    | some c =>
      if c.grid = grid ∧ c.team = team ∧ (s.part part).reservation = none then
        match s.reserveOn c with
        | some cl => s.onPart part (fun p => { p with reservation := some (cl, grid, team) })
        | none => s
      else s
    | none => s)

/-- A queued child team is held out (R326), and these teams in WAITCHILD are to be saved for it, the longest admitted first. -/
def State.heldOutFor (s : State) (c : Cand) : Option (List Nat) :=
  if c.kind = 1 ∧ c.since + 2 ^ 20 ≤ s.tick then s.roomFor_ c (s.waiting Wait.isChildren) else none

/-- HELD_OUT_PREEMPTION (R326): for the first held-out team in dispatch order. -/
def execHeldOutPreemption (grid : Nat) (s : State) : Host.Outcome State Fault Refusal :=
  .next (match s.candidates.findSome? (fun c => (s.heldOutFor c).map (fun ts => (c, ts))) with
    | some (c, ts) => if c.grid = grid then s.holdOut ts else s
    | none => s)

/-! ### Groups that end -/

/-- GROUP_RETIREMENT (R98, R193), with what it brings for the team, the grid and those that wait for them. -/
def execGroupRetirement (g : Nat) (s : State) : Host.Outcome State Fault Refusal :=
  .next (if s.canRetire g then (s.retireGroup g).settleAll else s)

/-- A containment freezes its cluster for a dump (R362): the hold timer starts, the host is told, and the exit status word waits for the end of
the freeze. -/
def State.freeze (s : State) (k : Nat) : State :=
  (s.onCluster (s.group k).cluster (fun c => { c with frozen := some s.tick, frozenGroup := k, attached := false })).onGroup k
    (fun g => { g with contained := g.contained.map (fun e => { e with dump := false }) }) |>.signal (8 + 8 * s.partOf (s.group k) + 3)

/-- EXIT_STATUS_WRITE (R291, R316, R345): once the group's accesses have been performed; a containment that is to freeze its cluster does so first, with its
producers complete, and writes its word when that freeze has ended (R362). On a cluster that is frozen already it only writes its word. -/
def execExitStatusWrite (g : Nat) (s : State) : Host.Outcome State Fault Refusal :=
  let c := s.cluster (s.group g).cluster
  .next (match (s.group g).contained with
    | some e =>
      if s.accesses.any (fun a => a.2.group == g) then s
      else if e.dump && c.frozen.isNone then (if s.producers.any (fun p => p.2.group == g) then s else (s.freeze g).settleAll)
      else if c.frozen.isSome && c.frozenGroup == g then s
      else ((s.writeExit g e).onGroup g (fun x => { x with contained := x.exitQueue.head?, exitQueue := x.exitQueue.drop 1 })).settleAll
    | none => s)

end Sys2Proof.Machine
end

