-- ==== Sys2Proof/Machine/Preempt.lean ====
section
/-! DEFINITION. Pre-emption (R288, R304, R309, R326 to R331, R351), and what ends teams from outside: the hang watchdog (R350), register file errors,
shutdown, kill requests and teardown (R336). -/
namespace Sys2Proof.Machine

/-! ### Charged ticks (R349) -/

/-- A group of the team is halted by a debugger, or its cluster is frozen (R349, R362). -/
def State.heldGroup (s : State) (g : Group) : Bool := g.isHalted || (s.cluster g.cluster).frozen.isSome

/-- A tick is charged to a team (R349). -/
def State.charged (s : State) (t : Nat) : Bool :=
  let tm := s.team t
  let gs := (s.teamGroups t).filter (fun p => !p.2.retired)
  let atGbar := gs.any (fun p => p.2.lanes.any (fun l => l.2.place == .gridBarrier))
  (match tm.place with | .resident _ => true | _ => false) && gs.all (fun p => !s.heldGroup p.2) &&
  (!atGbar || s.groups.all (fun p => p.2.retired || !p.2.resident || (s.team p.2.team).grid != tm.grid || !s.heldGroup p.2))

/-! ### The request (R327, R328, R331) -/

/-- A team is being pre-empted for a host request. -/
def Preempt.asked : Preempt → Bool
  | .drain _ => true | .save => true | .flush => true | .restart => true | _ => false

/-- Teams of a partition that a host request deals with at present (R327). -/
def State.remaining (s : State) (part : Nat) : List Nat :=
  s.residents.filter (fun t => (s.grid (s.team t).grid).part == part && (s.team t).preempt.asked)

/-- The clusters that a PRCTL write names. -/
def State.prTargets (s : State) (part : Nat) (value : BitVec 64) : List Nat :=
  if value.getLsbD 2 then [value.toNat / 2 ^ 3 % 2 ^ 8] else s.partClusters part

/-- The teams that a PRCTL write with GO is about. -/
def State.goTeams (s : State) (part : Nat) (value : BitVec 64) : List Nat :=
  s.residents.filter (fun t => (s.grid (s.team t).grid).part == part && (s.prTargets part value).any (fun cl => (s.team t).place == .resident cl))

/-- Teams that a host request has still to deal with, those of a GO that waits among them: PRSTAT.REMAIN (R327). -/
def State.pending (s : State) (part : Nat) : List Nat :=
  match (s.part part).goWait with
  | some v => (s.remaining part ++ s.goTeams part v).dedup
  | none => s.remaining part

/-- A group of a team is halted by a debugger: it is stopped, or its cluster is frozen (R329, R349, R362). -/
def State.teamHalted (s : State) (t : Nat) : Bool :=
  (s.teamGroups t).any (fun p => p.2.isHalted || ((s.cluster p.2.cluster).frozen.isSome && p.2.resident))

/-- PRSTAT (R327): BUSY, HALTWAIT, REMAIN. -/
def State.prstat (s : State) (part : Nat) : Nat :=
  let ts := s.pending part
  if ts.isEmpty && (s.part part).goWait.isNone then 0
  else 1 + (if ts.any (fun t => s.teamHalted t) then 2 else 0) + ts.length % 2 ^ 16 * 2 ^ 8

/-- PROGRESS of a team (R328): the least over its groups that hold a live or parked lane. -/
def State.teamProgress (s : State) (t : Nat) : Nat :=
  (((s.teamGroups t).filter (fun p => p.2.countSet != 0)).map (fun p => p.2.progressSeen.toNat)).foldl min (2 ^ 32)

/-- The tick to which teams of a partition may drain: ALLOW ticks after the GO (R329). -/
def Partition.drainEnd (q : Partition) : Nat := q.goTick + q.prallow.toNat

/-- The kind of pre-emption of a team (R328). -/
def State.decideKind (s : State) (t : Nat) : Preempt :=
  let tm := s.team t
  let r := (s.grid tm.grid).record
  let q := s.part (s.grid tm.grid).part
  let p := s.teamProgress t
  if 224 ≤ p ∧ r.drainest ≤ q.prallow.toNat then .drain q.drainEnd
  else if 0 < tm.rlevel then .flush
  else if r.idem ∧ p < 64 then .restart
  else .save

/-- How late a kind qualifies (R324): save before flush before drain. -/
def Preempt.rank : Preempt → Nat
  | .save => 0 | .flush => 1 | .restart => 1 | _ => 2

/-- The kind of a co-resident grid: of the team that qualifies last (R324). -/
def State.gridKind (s : State) (k : Nat) : Preempt :=
  ((s.grid k).live.map s.decideKind).foldl (fun m p => if p.rank < m.rank then p else m) (.drain (s.part (s.grid k).part).drainEnd)

/-- No group of a team has issued a run yet (R328). -/
def State.neverRan (s : State) (t : Nat) : Bool :=
  (s.teamGroups t).all (fun p => !p.2.ran && !p.2.retired)

/-- A team taken back undispatched (R328, R329): its groups are gone, its regions aborted, its children counted against the grid; SUCCOK and the job meter
stay. -/
def State.undispatch (s : State) (t : Nat) : State :=
  let tm := s.team t
  let s := s.abortRegions (tm.groups.flatMap s.groupSlots) 1 false
  let s := tm.groups.foldl (fun s k => s.freeReserved k (s.group k).countSet) s
  let s := tm.groups.foldl (fun s k => s.onGroup k (fun g => { g with resident := false, retired := true, deferred := [], run := {} })) s
  let s := (s.dropWaiters tm.groups).leaveConvs t
  let s := s.onTeam t (fun tm => { (({} : Team)) with
    grid := tm.grid, linear := tm.linear, succok := tm.succok, lastChild := tm.lastChild, energy := tm.energy, energyCarry := tm.energyCarry, since := s.tick })
  s.onGrid tm.grid (fun g => { g with
    live := g.live.filter (· != t), again := g.again ++ [t], orphans := g.orphans ++ tm.children
    gphase := if g.record.cores then 0 else g.gphase })

/-- A team marked with a kind, or returned to its grid where it has not run; one that is being saved already is left alone (R328, R331). -/
def State.markKind (s : State) (t : Nat) (kind : Preempt) : State :=
  if (s.team t).preempt ≠ .no then s
  else if s.neverRan t then s.undispatch t
  else s.onTeam t (fun tm => { tm with preempt := kind })

/-- The teams of a co-resident grid marked with one kind; none of them has run, they all return to their grid (R324, R328). -/
def State.markGrid (s : State) (k : Nat) (kind : Preempt) : State :=
  let ts := (s.grid k).live.filter (fun t => (s.team t).place.onCluster)
  if ts.all (fun t => s.neverRan t && (s.team t).preempt == .no) then ts.foldl (fun s t => s.undispatch t) s
  else ts.foldl (fun s t => s.onTeam t (fun tm => { tm with preempt := match tm.preempt with | .no => kind | x => x })) s

/-- PRCTL_GO (R324, R327, R328, R331): ignored while a pre-emption is in progress. From then on the clusters admit no team of the partition; the kinds are
decided once no release of a grid barrier of a target grid is in progress. -/
def execPrctlGo (part : Nat) (value : BitVec 64) (s : State) : Host.Outcome State Fault Refusal :=
  let cls := s.prTargets part value
  let busy := !(s.remaining part).isEmpty || (s.part part).goWait.any (fun v => v != value)
  .next (if !value.getLsbD 0 || busy then s
    else
      let s := if (s.part part).goWait.isSome then s else s.onPart part (fun p => { p with goTick := s.tick })
      let hit := s.goTeams part value
      let grids := (hit.map (fun t => (s.team t).grid)).dedup
      let wait := grids.any (fun k => !(s.grid k).releases.isEmpty)
      let stop (s : State) : State := s.onPart part (fun p => { p with
        goWait := if wait then some value else none
        stopped := if value.getLsbD 1 then p.stopped.filter (fun c => !cls.contains c)
                   else p.stopped ++ cls.filter (fun c => !p.stopped.contains c) })
      if wait then stop s
      else
        let s1 := hit.foldl (fun s' t => if (s.grid (s.team t).grid).record.cores then s' else s'.markKind t (s.decideKind t)) s
        let s2 := (grids.filter (fun k => (s.grid k).record.cores)).foldl (fun s' k => s'.markGrid k (s.gridKind k)) s1
        (stop s2).settleAll)

/-- PRCTL_RESUME (R327): the target clusters admit the partition's teams again. -/
def execPrctlResume (part : Nat) (value : BitVec 64) (s : State) : Host.Outcome State Fault Refusal :=
  let cls := s.prTargets part value
  .next (if value.getLsbD 1 then s.onPart part (fun p => { p with stopped := p.stopped.filter (fun c => !cls.contains c) }) else s)

/-! ### Carrying it out (R329) -/

/-- DRAIN_ALLOWANCE_EXPIRY (R329): a team that has not retired in time is decided again. -/
def execDrainAllowanceExpiry (team : Nat) (s : State) : Host.Outcome State Fault Refusal :=
  .next (match (s.team team).preempt with
    | .drain u => if u ≤ s.tick then s.onTeam team (fun tm => { tm with preempt := if 0 < tm.rlevel then .flush else .save }) else s
    | _ => s)

/-- No run of a team goes on, its accesses, producers and engine commands are complete, none of its groups is halted, and no release of its grid is in
progress (R172, R329, R331). -/
def State.canStop (s : State) (t : Nat) : Bool :=
  s.teamDrained t && s.commands.all (fun c => c.2.team != t) && (s.teamGroups t).all (fun p => !p.2.run.active) && !s.teamHalted t &&
  (s.grid (s.team t).grid).releases.isEmpty && (s.team t).rollback.isNone && !(s.team t).clearing &&
  (match (s.team t).place with | .resident _ => true | _ => false)

/-- TEAM_SAVE (R288, R329, R331, R351): open regions abort once no run goes on, phases that complete complete, the context goes to the lowest free slot, and the residency
ends. -/
def execTeamSave (team : Nat) (s : State) : Host.Outcome State Fault Refusal :=
  let tm := s.team team
  let part := (s.grid tm.grid).part
  let s := if tm.preempt.saves && tm.rlevel == 0 && !s.teamHalted team then s.abortStopped [team] else s
  .next (if tm.preempt.saves && s.canStop team && tm.rlevel == 0 then
    match tm.place, s.freeSave part with
    | .resident cl, some n =>
      let s := (s.settleTeam team).abortRegions (tm.groups.flatMap s.groupSlots) 1 false
      let s := tm.groups.foldl (fun s k => s.freeReserved k (s.group k).countSet) s
      let s := s.dropWaiters tm.groups
      let base := s.slotBase part n
      let s := if tm.scrSize = 0 then s else s.checkScratch part cl tm.scrBase tm.scrSize
      let s := (s.saveImage team cl).foldl (fun s w => s.writePhys none (base + w.1) w.2 []) s
      let s := tm.groups.foldl (fun s k => s.onGroup k (fun g => { g with resident := false })) s
      let s := s.onPart part (fun p => { p with slotsUsed := p.slotsUsed ++ [n] })
      let s := s.onTeam team (fun tm => { tm with place := .saved part n, preempt := .no, since := s.tick, passedOver := none, savedOn := some cl })
      (s.onGrid tm.grid (fun g => { g with saved := g.saved ++ [team] })).settleAll
    | _, _ => s
    else s)

/-- The levels of a team and of its member teams may be rolled back for a pre-emption: no run of them goes on, nothing of theirs is in flight, and a record log in
stall mode has room for the outcomes (R369). -/
def State.canFlush (s : State) (t : Nat) : Bool :=
  (s.parties t).all (fun m => !s.logStalls (s.team m).grid (s.parties t).length && s.teamDrained m && s.commands.all (fun c => c.2.team != m) && (s.teamGroups m).all (fun p => !p.2.run.active)) &&
  !s.teamHalted t

/-- The open levels of a team and of its member teams rolled back to the outermost ENSURE (R304). -/
def State.flushParties (s : State) (t : Nat) : State :=
  let ps := s.parties t
  ps.foldl (fun s m => s.flushTeam m) (ps.foldl (fun s m => s.logFlush m 0) (s.unwind ps 1))

/-- FLUSH_TO_ENSURE (R304, R329): the open levels of the team and of its member teams roll back, every lane goes to its outermost ENSURE; the team is then
saved. A level that has opened since a save was decided is rolled back too, since a save is of a team with none open. -/
def execFlushToEnsure (team : Nat) (s : State) : Host.Outcome State Fault Refusal :=
  let tm := s.team team
  let saved (s : State) : State := s.onTeam team (fun tm => { tm with preempt := if tm.preempt = .flush then .save else tm.preempt })
  let due := tm.preempt = .flush ∨ (tm.preempt.saves ∧ tm.rlevel ≠ 0)
  let s := if due ∧ !s.teamHalted team then s.abortStopped (s.parties team) else s
  .next (if tm.preempt = .flush ∧ tm.rlevel = 0 then saved s
    else if due ∧ s.canFlush team then (saved (s.flushParties team)).settleAll
    else s)

/-- FLUSH_AND_RESTART (R324, R329): the team, or every team of its co-resident grid, is discarded and will be admitted again from ENTRY. A level
that has opened since is rolled back first. -/
def execFlushAndRestart (team : Nat) (s : State) : Host.Outcome State Fault Refusal :=
  let k := (s.team team).grid
  let ts := if (s.grid k).record.cores then (s.grid k).live.filter (fun t => (s.team t).place.onCluster) else [team]
  let s := if (s.team team).preempt == .restart && ts.all (fun t => !s.teamHalted t) then s.abortStopped ts else s
  .next (if (s.team team).preempt == .restart && ts.all (fun t => s.canStop t && ((s.team t).rlevel == 0 || s.canFlush t)) then
    (ts.foldl (fun s t => (if (s.team t).rlevel = 0 then s else s.flushParties t).undispatch t) s).settleAll
    else s)

/-! ### Ends from outside (R336, R350) -/

/-- A team terminated with a cause that leaves no alternate (R336): after the rollback of its levels; the member teams of its conversation go back to their
outermost ENSURE. -/
def State.endTeam (s : State) (t code : Nat) : State :=
  if (s.team t).rlevel = 0 then s.terminate t code 0 none
  else
    let s := (s.parties t).foldl (fun s m => s.onTeam m (fun tm => { tm with
      rollback := match tm.rollback with
        | some r => some { r with level := 1, flush := r.terminate.isNone }
        | none => some { level := 1, last := code, flush := true }
      recArrivals := []
      levels := match tm.levels.getLast? with | some lv => tm.levels.dropLast ++ [{ lv with phase := 3 }] | none => tm.levels })) s
    s.onTeam t (fun tm => { tm with rollback := some { level := 1, last := code, terminate := some code } })

/-- Teams of a partition that hold groups: resident or saved. -/
def State.teamsOf (s : State) (is : Nat → Bool) : List Nat :=
  (s.teams.filter (fun p => is (s.grid p.2.grid).part && (match p.2.place with | .resident _ => true | .saved _ _ => true | _ => false))).map (·.1)

/-- Every team of some partitions terminated with a cause. -/
def State.endTeams (s : State) (is : Nat → Bool) (code : Nat) : State := ((s.teamsOf is).foldl (fun s t => s.endTeam t code) s).settleAll

/-- HANG_WATCHDOG_EXPIRY (R350), at a charged tick: with a level open a fault of the innermost level, else every group of the team is contained with cause 0xA3. -/
def execHangWatchdogExpiry (team : Nat) (s : State) : Host.Outcome State Fault Refusal :=
  let tm := s.team team
  let limit := (s.part (s.grid tm.grid).part).wdlimit.toNat
  .next (if limit ≠ 0 ∧ s.charged team ∧ limit * 2 ^ 16 ≤ tm.wdcount then
    (if 0 < tm.rlevel then (s.kick team).levelFault team 0xA3 else (s.kick team).terminate team 0xA3 0 none).settleAll
    else s)

/-- REGISTER_FILE_ERROR (R387): an uncorrectable error in a group's files or status raises cause 0x93, a fault of an open level, else the group is
contained; `lane` and `reg` say where it struck. -/
def execRegisterFileError (g lane reg : Nat) (s : State) : Host.Outcome State Fault Refusal :=
  let x := s.group g
  .next (if x.resident && x.contained.isNone && !x.retired && decide (lane < 64 ∧ reg < 128) then
    (if 0 < (s.team x.team).rlevel then s.levelFault x.team 0x93 else s.contain g 0x93 0 false x.stopAt).settleAll
    else s)

/-- MODULE_SHUTDOWN (R336): cause 0xB2 for every group. -/
def execModuleShutdown (s : State) : Host.Outcome State Fault Refusal := .next (s.endTeams (fun _ => true) 0xB2)

/-- KILL_REQUEST (R336): cause 0x71 for the groups of a team. The spec does not say how the host names what it ends: here by the team's number. -/
def execKillRequest (target : BitVec 64) (s : State) : Host.Outcome State Fault Refusal :=
  .next (if (s.teamsOf (fun _ => true)).contains target.toNat then (s.endTeam target.toNat 0x71).settleAll else s)

/-- PARTITION_TEARDOWN (R336): cause 0xB1 for the groups of a partition. -/
def execPartitionTeardown (part : Nat) (s : State) : Host.Outcome State Fault Refusal := .next (s.endTeams (fun p => p == part) 0xB1)

end Sys2Proof.Machine
end

