-- ==== Sys2Proof/Machine/Debug.lean ====
section
/-! DEFINITION. Debug control (24): halt, resume and step requests (R358 to R360), dumps (R361 to R363), the sampler (R364 to R366). -/
namespace Sys2Proof.Machine

/-! ### Halt, resume, step (R358 to R360) -/

/-- The groups that a DBGCTL write names (R358): one group, its team, one cluster, the partition. -/
def State.dbgTargets (s : State) (part : Nat) (value : BitVec 64) : List Nat :=
  let v := value.toNat
  let scope := v / 2 ^ 3 % 4
  let cl := v / 2 ^ 5 % 2 ^ 8
  let here (g : Group) : Bool := g.cluster == cl && g.slice == v / 2 ^ 13 % 8 && g.slot == v / 2 ^ 16 % 16
  let mine := s.groups.filter (fun p => p.2.resident && !p.2.retired && s.partOf p.2 == part)
  let near (g : Group) : Bool := match scope with
    | 0 => here g
    | 1 => mine.any (fun q => here q.2 && q.2.team == g.team)
    | 2 => g.cluster == cl
    | _ => true
  (mine.filter (fun p => near p.2)).map (·.1)

/-- A stopped group goes on as if it had never stopped (R359, R360): the trap registers it held are put back. After a precise stop a step does not stop at that
clause, nor does the breakpoint hit again that made the stop, before the clause has issued. -/
def Group.resumeStop (g : Group) (step : Bool) : Group :=
  match g.halt with
  | .stopped c _ => { g with
      halt := if step then .step else .no, trap := g.savedTrap.getD g.trap, savedTrap := none
      passed := if c = 0xA2 then g.passed
        else some (g.trap.pc, (if c = 0xA0 then [g.trap.cause.toNat / 2 ^ 20] else []) ++ g.passedAt g.trap.pc) }
  | _ => g

/-- A group resumed; an answer of the page-fault service that came meanwhile is taken now (R166). -/
def State.resumeGroup (s : State) (k : Nat) (step : Bool) : State := (s.onGroup k (·.resumeStop step)).settlePage k

/-- DBG_HALT (R358, R359). -/
def execDbgHalt (part : Nat) (value : BitVec 64) (s : State) : Host.Outcome State Fault Refusal :=
  .next (if value.getLsbD 0 then ((s.dbgTargets part value).foldl (fun s k => s.askHalt k) s).boundaryStops else s)

/-- DBG_RESUME (R358, R360). -/
def execDbgResume (part : Nat) (value : BitVec 64) (s : State) : Host.Outcome State Fault Refusal :=
  .next (if value.getLsbD 1 && !value.getLsbD 2 then (s.dbgTargets part value).foldl (fun s k => s.resumeGroup k false) s else s)

/-- DBG_STEP (R358): each resumed group runs until its next precise stop site. -/
def execDbgStep (part : Nat) (value : BitVec 64) (s : State) : Host.Outcome State Fault Refusal :=
  .next (if value.getLsbD 1 && value.getLsbD 2 then (s.dbgTargets part value).foldl (fun s k => s.resumeGroup k true) s else s)

/-- HALT_LIMIT_EXPIRY (R359): the group then stops at its next run boundary, or at once between runs. -/
def execHaltLimitExpiry (g : Nat) (s : State) : Host.Outcome State Fault Refusal :=
  let x := s.group g
  .next (match x.halt with
    | .asked since false =>
      if since + (s.part (s.partOf x)).haltlim.toNat ≤ s.tick then (s.onGroup g (fun x => { x with halt := .asked since true })).boundaryStop g else s
    | _ => s)

/-- DBGSTAT of a partition (R358). -/
def State.dbgstat (s : State) (part : Nat) : Nat :=
  let mine := s.groups.filter (fun p => p.2.resident && !p.2.retired && s.partOf p.2 == part)
  (if mine.any (fun p => match p.2.halt with | .asked _ _ => true | _ => false) then 1 else 0) +
  (if s.clusters.any (fun c => c.2.attached && c.2.part == part) then 2 else 0) +
  (mine.filter (fun p => p.2.isHalted)).length % 2 ^ 14 * 2 ^ 2

/-! ### Dumps (R361 to R363) -/

/-- The frozen clusters of a partition. -/
def State.frozenOf (s : State) (part : Nat) : List Nat :=
  (s.clusters.filter (fun c => c.2.frozen.isSome && c.2.part == part)).map (·.1)

/-- A freeze ends: the groups that it stopped go on; the contained group's exit status word may be written (R363). -/
def State.thaw (s : State) (cl : Nat) : State :=
  let s := s.onCluster cl (fun c => { c with frozen := none, attached := false })
  let icy (g : Group) : Bool := match g.halt with | .stopped _ true => g.cluster == cl | _ => false
  ((s.groups.filter (fun p => icy p.2)).map (·.1)).foldl (fun s k => s.resumeGroup k false) s

/-- DUMP_ATTACH (R361): the hold timer stops. -/
def execDumpAttach (part : Nat) (s : State) : Host.Outcome State Fault Refusal :=
  .next ((s.frozenOf part).foldl (fun s cl => s.onCluster cl (fun c => { c with attached := true })) s)

/-- DUMP_RELEASE (R363). -/
def execDumpRelease (part : Nat) (s : State) : Host.Outcome State Fault Refusal :=
  .next (let cls := s.frozenOf part
         if cls.isEmpty then s else (cls.foldl (fun s cl => s.thaw cl) s).settleAll)

/-- DUMP_HOLD_EXPIRY (R363): without ATTACH; every other group of the contained group's team is contained with cause 0xA4. A millisecond is 1,500,000
ticks (R6). -/
def execDumpHoldExpiry (cl : Nat) (s : State) : Host.Outcome State Fault Refusal :=
  let c := s.cluster cl
  let hold := (s.part c.part).dumpHold
  .next (match c.frozen with
    | some t =>
      if !c.attached ∧ hold ≠ 0 ∧ t + hold * 1500000 ≤ s.tick then ((s.thaw cl).endTeam (s.group c.frozenGroup).team 0xA4).settleAll else s
    | none => s)

/-! ### The sampler (R364 to R366) -/

/-- K of GSCTL, kept from 10 to 24 (R364). -/
def Module.sampleK (m : Module) : Nat := m.gsctl.toNat / 2 % 2 ^ 5

/-- The stall reason of cycles in which a slice did not issue, from the states of its groups (R366): a run switch, interlocks, spacing,
stretched and skipped cycles are counted where they happen. A group that could issue, while the model runs another slice, is counted under reason 10: the table has
no reason for it (DESIGN CHOICE, log entry 18). -/
def State.stallReason (s : State) (cl sl : Nat) : Nat :=
  let gs := s.sliceGroups cl sl
  let of (g : Group) : Nat :=
    if g.isHalted || g.liveSet == 0 then 10
    else match g.issueWait with
      | .regs _ => 5 | .lines _ => 6 | .fence _ _ => 7 | .header _ _ => 8 | .queue _ => 9 | .ring => 9 | .ready => 10
      | _ => 10
  if gs.isEmpty then 11 else (gs.map (fun p => of p.2)).foldl min 10

/-- A slice with every cycle counted once (R366): those not in BUSY nor in a stall yet go to a reason. -/
def Slice.countStalls (c : Slice) (reason : Nat) : Slice :=
  c.stall reason (c.cycle - c.counted)

/-- A slice of a cluster as it stands at present, every cycle of it counted. -/
def State.sliceNow (s : State) (cl sl : Nat) : Slice := (((s.cluster cl).slice sl).catchUp s.time).countStalls (s.stallReason cl sl)

/-- A slice as it stood at a time within the step from one state to another: the cycles of the step that had passed by then lie in its word, as far as the word lasts,
else they are cycles without issue (R364, R366). -/
def sliceWithin (old new : State) (time cl sl : Nat) : Slice :=
  let y := (new.cluster cl).slice sl
  if y.cycleTime ≤ time then (y.catchUp time).countStalls (old.stallReason cl sl)
  else
    let x := ((old.cluster cl).slice sl).catchUp time
    let d := min (x.cycle - x.counted) (y.busy - x.busy)
    { x with busy := x.busy + d, counted := x.counted + d }.countStalls (old.stallReason cl sl)

/-- The group whose run a slice is issuing. -/
def State.issuing (s : State) (cl sl : Nat) : Option Group := ((s.sliceGroups cl sl).find? (fun p => p.2.run.active)).map (·.2)

/-- A slice record (R365): the slice with its counts, and the group that issues. -/
def State.sliceRecord (s : State) (x : Slice) (cl sl : Nat) : List (BitVec 8) :=
  let g := s.issuing cl sl
  leBytes 4 x.busy ++ ((List.range 12).flatMap (fun i => leBytes 4 (FMap.at 0 x.stalls i))) ++
  leBytes 2 (match g with | some g => g.safeord.toNat | none => 0) ++ leBytes 1 (match g with | some g => g.slot % 16 + 2 ^ 7 | none => 0) ++
  leBytes 1 (x.ratio % 16 + x.passDiv % 8 * 2 ^ 4) ++ List.replicate 8 0

/-- The cycles that a unit of a cluster has been busy: commands that are complete, and those that run (R365). -/
def State.unitBusy (s : State) (cl u : Nat) : Nat :=
  FMap.at 0 (s.cluster cl).engBusy u +
  ((s.commands.filter (fun c => c.2.cluster == cl && c.2.unit == u && c.2.started)).map (fun c => s.tick - c.2.startTick)).sum

/-- Cluster counters of a record (R365); port conflicts depend on timing and are free. -/
def State.clusterRecord (s : State) (slice : Nat → Nat → Slice) (cl : Nat) : List (BitVec 8) :=
  let c := s.cluster cl
  ([0, 1, 2, 3, 4, 5].flatMap (fun sl => s.sliceRecord (slice cl sl) cl sl)) ++ ([0, 1, 2, 3].flatMap (fun u => leBytes 4 (s.unitBusy cl u))) ++
  leBytes 4 c.l1Hits ++ leBytes 4 c.l1Misses ++ leBytes 4 (Config.counter s.fresh cl).toNat ++ leBytes 2 c.budget ++ leBytes 1 c.part ++ List.replicate 97 0

/-- Corrected errors of a memory stack (R365). -/
def Module.stackErrors (m : Module) (i : Nat) : Nat := ((m.corrBank.filter (fun p => Config.stackOf p.1 == i)).map (·.2)).sum

/-- A record (R365) of the counters of a state, its slices as given, and the sampler's own registers. -/
def State.sampleRecord (s : State) (slice : Nat → Nat → Slice) (m : Module) (tick : Nat) : List (BitVec 8) :=
  let free (k : Nat) : List (BitVec 8) := leBytes 4 (Config.counter s.fresh (2000 + k)).toNat
  leBytes 8 tick ++ leBytes 4 m.gsseq ++ leBytes 4 m.gslost ++ leBytes 1 m.sampleK ++ List.replicate 47 0 ++
  ((List.range 160).flatMap (s.clusterRecord slice)) ++
  ((List.range 48).flatMap (fun i =>
    let x := FMap.at ({} : LlcSlice) s.llc i
    leBytes 4 (x.reqs - x.misses) ++ leBytes 4 x.misses ++ leBytes 4 x.moves ++ leBytes 4 x.ways)) ++
  ((List.range 12).flatMap (fun i => free (100 + 4 * i) ++ free (101 + 4 * i) ++ leBytes 4 (s.module.stackErrors i) ++ free (103 + 4 * i))) ++
  ((List.range 18).flatMap (fun i =>
    free (200 + 4 * i) ++ leBytes 4 (FMap.at 0 s.module.flitsIn i) ++ leBytes 4 (FMap.at 0 s.module.retries i) ++ free (203 + 4 * i))) ++
  List.replicate 96 0

/-- A sample for a tick (R364), with the counters of a state and its slices as given; a full ring drops it and counts it. -/
def State.takeSample (s v : State) (slice : Nat → Nat → Slice) (t : Nat) : State :=
  let m := s.module
  let s := s.onModule (fun m => { m with gsLast := t })
  if m.gs.full then s.onModule (fun m => { m with gslost := m.gslost + 1 })
  else
    let s := { s.writePhys none (m.gs.slot 83328) (v.sampleRecord slice m t) [] with fresh := s.fresh + 1 }
    (s.onModule (fun m => { m with gs := m.gs.push, gsseq := m.gsseq + 1, gslost := 0 })).signal 0

/-- GINGHAM_SAMPLE (R364): at or after a tick that is a multiple of 2^K and has not been sampled. -/
def execGinghamSample (s : State) : Host.Outcome State Fault Refusal :=
  let m := s.module
  let t := s.tick / 2 ^ m.sampleK * 2 ^ m.sampleK
  .next (if !m.gsctl.getLsbD 0 || decide (t ≤ m.gsLast) then s
    else
      s.takeSample s s.sliceNow t)

/-- The samples that the machine takes by itself (R364): one for each multiple of 2^K that a step reaches or passes, with the counters of the state that stands
exactly there, else of the one before. -/
def State.takeSamples (old new : State) : State :=
  let p := 2 ^ new.module.sampleK
  let last := max new.module.gsLast old.tick / p
  if !(old.module.gsctl.getLsbD 0 && new.module.gsctl.getLsbD 0) then new
  else (List.range (new.tick / p - last)).foldl (fun s i =>
    let t := (last + 1 + i) * p
    s.takeSample (if new.time = 840 * t then new else old) (sliceWithin old new (840 * t)) t) new

end Sys2Proof.Machine
end

