-- ==== Sys2Proof/Machine/MemWords.lean ====
section
/-! DEFINITION. The memory words of the M class (R35, R143, R149, R154, R158, R159), the indexed forms (R160) and the scalar loads and stores (R87). -/
namespace Sys2Proof.Machine

/-- ldB: a load of 1 byte a lane (R143). -/
def execLdB (d a : BitVec 7) (reuse : BitVec 3) (order : BitVec 2) (scope : BitVec 3) (s : State) : Host.Outcome State Fault Refusal :=
  s.loadWord d a 0 1 order scope reuse
    { kind := .load, scratch := false, bytes := 1, align := 1, nregs := 1, width := 1, sext := false, packed := false, reqs := [] }

/-- ldB: a load of 1 byte a lane (R143) with an extension word (R142). -/
def execLdBExt (d a : BitVec 7) (reuse : BitVec 3) (order : BitVec 2) (scope : BitVec 3) (off : BitVec 32) (s : State) : Host.Outcome State Fault Refusal :=
  s.loadWord d a off 2 order scope reuse
    { kind := .load, scratch := false, bytes := 1, align := 1, nregs := 1, width := 1, sext := false, packed := false, reqs := [] }

/-- ldSb: a load of 1 byte a lane (R143). -/
def execLdSb (d a : BitVec 7) (reuse : BitVec 3) (order : BitVec 2) (scope : BitVec 3) (s : State) : Host.Outcome State Fault Refusal :=
  s.loadWord d a 0 1 order scope reuse
    { kind := .load, scratch := false, bytes := 1, align := 1, nregs := 1, width := 1, sext := true, packed := false, reqs := [] }

/-- ldSb: a load of 1 byte a lane (R143) with an extension word (R142). -/
def execLdSbExt (d a : BitVec 7) (reuse : BitVec 3) (order : BitVec 2) (scope : BitVec 3) (off : BitVec 32) (s : State) : Host.Outcome State Fault Refusal :=
  s.loadWord d a off 2 order scope reuse
    { kind := .load, scratch := false, bytes := 1, align := 1, nregs := 1, width := 1, sext := true, packed := false, reqs := [] }

/-- ldH: a load of 2 bytes a lane (R143). -/
def execLdH (d a : BitVec 7) (reuse : BitVec 3) (order : BitVec 2) (scope : BitVec 3) (s : State) : Host.Outcome State Fault Refusal :=
  s.loadWord d a 0 1 order scope reuse
    { kind := .load, scratch := false, bytes := 2, align := 2, nregs := 1, width := 2, sext := false, packed := false, reqs := [] }

/-- ldH: a load of 2 bytes a lane (R143) with an extension word (R142). -/
def execLdHExt (d a : BitVec 7) (reuse : BitVec 3) (order : BitVec 2) (scope : BitVec 3) (off : BitVec 32) (s : State) : Host.Outcome State Fault Refusal :=
  s.loadWord d a off 2 order scope reuse
    { kind := .load, scratch := false, bytes := 2, align := 2, nregs := 1, width := 2, sext := false, packed := false, reqs := [] }

/-- ldSh: a load of 2 bytes a lane (R143). -/
def execLdSh (d a : BitVec 7) (reuse : BitVec 3) (order : BitVec 2) (scope : BitVec 3) (s : State) : Host.Outcome State Fault Refusal :=
  s.loadWord d a 0 1 order scope reuse
    { kind := .load, scratch := false, bytes := 2, align := 2, nregs := 1, width := 2, sext := true, packed := false, reqs := [] }

/-- ldSh: a load of 2 bytes a lane (R143) with an extension word (R142). -/
def execLdShExt (d a : BitVec 7) (reuse : BitVec 3) (order : BitVec 2) (scope : BitVec 3) (off : BitVec 32) (s : State) : Host.Outcome State Fault Refusal :=
  s.loadWord d a off 2 order scope reuse
    { kind := .load, scratch := false, bytes := 2, align := 2, nregs := 1, width := 2, sext := true, packed := false, reqs := [] }

/-- ldW: a load of 4 bytes a lane (R143). -/
def execLdW (d a : BitVec 7) (reuse : BitVec 3) (order : BitVec 2) (scope : BitVec 3) (s : State) : Host.Outcome State Fault Refusal :=
  s.loadWord d a 0 1 order scope reuse
    { kind := .load, scratch := false, bytes := 4, align := 4, nregs := 1, width := 4, sext := false, packed := false, reqs := [] }

/-- ldW: a load of 4 bytes a lane (R143) with an extension word (R142). -/
def execLdWExt (d a : BitVec 7) (reuse : BitVec 3) (order : BitVec 2) (scope : BitVec 3) (off : BitVec 32) (s : State) : Host.Outcome State Fault Refusal :=
  s.loadWord d a off 2 order scope reuse
    { kind := .load, scratch := false, bytes := 4, align := 4, nregs := 1, width := 4, sext := false, packed := false, reqs := [] }

/-- ldD: a load of 8 bytes a lane (R143). -/
def execLdD (d a : BitVec 7) (reuse : BitVec 3) (order : BitVec 2) (scope : BitVec 3) (s : State) : Host.Outcome State Fault Refusal :=
  s.loadWord d a 0 1 order scope reuse
    { kind := .load, scratch := false, bytes := 8, align := 8, nregs := 2, width := 4, sext := false, packed := false, reqs := [] }

/-- ldD: a load of 8 bytes a lane (R143) with an extension word (R142). -/
def execLdDExt (d a : BitVec 7) (reuse : BitVec 3) (order : BitVec 2) (scope : BitVec 3) (off : BitVec 32) (s : State) : Host.Outcome State Fault Refusal :=
  s.loadWord d a off 2 order scope reuse
    { kind := .load, scratch := false, bytes := 8, align := 8, nregs := 2, width := 4, sext := false, packed := false, reqs := [] }

/-- ldQ: a load of 16 bytes a lane (R143). -/
def execLdQ (d a : BitVec 7) (reuse : BitVec 3) (order : BitVec 2) (scope : BitVec 3) (s : State) : Host.Outcome State Fault Refusal :=
  s.loadWord d a 0 1 order scope reuse
    { kind := .load, scratch := false, bytes := 16, align := 16, nregs := 4, width := 4, sext := false, packed := false, reqs := [] }

/-- ldQ: a load of 16 bytes a lane (R143) with an extension word (R142). -/
def execLdQExt (d a : BitVec 7) (reuse : BitVec 3) (order : BitVec 2) (scope : BitVec 3) (off : BitVec 32) (s : State) : Host.Outcome State Fault Refusal :=
  s.loadWord d a off 2 order scope reuse
    { kind := .load, scratch := false, bytes := 16, align := 16, nregs := 4, width := 4, sext := false, packed := false, reqs := [] }

/-- ldpk6: a load of 24 bytes a lane (R149). -/
def execLdpk6 (d a : BitVec 7) (reuse : BitVec 3) (order : BitVec 2) (scope : BitVec 3) (s : State) : Host.Outcome State Fault Refusal :=
  s.loadWord d a 0 1 order scope reuse
    { kind := .load, scratch := false, bytes := 24, align := 8, nregs := 6, width := 4, sext := false, packed := true, reqs := [] }

/-- ldpk6: a load of 24 bytes a lane (R149) with an extension word (R142). -/
def execLdpk6Ext (d a : BitVec 7) (reuse : BitVec 3) (order : BitVec 2) (scope : BitVec 3) (off : BitVec 32) (s : State) : Host.Outcome State Fault Refusal :=
  s.loadWord d a off 2 order scope reuse
    { kind := .load, scratch := false, bytes := 24, align := 8, nregs := 6, width := 4, sext := false, packed := true, reqs := [] }

/-- ldpk4: a load of 16 bytes a lane (R149). -/
def execLdpk4 (d a : BitVec 7) (reuse : BitVec 3) (order : BitVec 2) (scope : BitVec 3) (s : State) : Host.Outcome State Fault Refusal :=
  s.loadWord d a 0 1 order scope reuse
    { kind := .load, scratch := false, bytes := 16, align := 16, nregs := 4, width := 4, sext := false, packed := true, reqs := [] }

/-- ldpk4: a load of 16 bytes a lane (R149) with an extension word (R142). -/
def execLdpk4Ext (d a : BitVec 7) (reuse : BitVec 3) (order : BitVec 2) (scope : BitVec 3) (off : BitVec 32) (s : State) : Host.Outcome State Fault Refusal :=
  s.loadWord d a off 2 order scope reuse
    { kind := .load, scratch := false, bytes := 16, align := 16, nregs := 4, width := 4, sext := false, packed := true, reqs := [] }

/-- ldsW: a load of 4 bytes a lane, of the scratchpad (R143). -/
def execLdsW (d a : BitVec 7) (order : BitVec 2) (scope : BitVec 3) (s : State) : Host.Outcome State Fault Refusal :=
  s.loadWord d a 0 1 order scope 0
    { kind := .load, scratch := true, bytes := 4, align := 4, nregs := 1, width := 4, sext := false, packed := false, reqs := [] }

/-- ldsW: a load of 4 bytes a lane, of the scratchpad (R143) with an extension word (R142). -/
def execLdsWExt (d a : BitVec 7) (order : BitVec 2) (scope : BitVec 3) (off : BitVec 32) (s : State) : Host.Outcome State Fault Refusal :=
  s.loadWord d a off 2 order scope 0
    { kind := .load, scratch := true, bytes := 4, align := 4, nregs := 1, width := 4, sext := false, packed := false, reqs := [] }

/-- ldsD: a load of 8 bytes a lane, of the scratchpad (R143). -/
def execLdsD (d a : BitVec 7) (order : BitVec 2) (scope : BitVec 3) (s : State) : Host.Outcome State Fault Refusal :=
  s.loadWord d a 0 1 order scope 0
    { kind := .load, scratch := true, bytes := 8, align := 8, nregs := 2, width := 4, sext := false, packed := false, reqs := [] }

/-- ldsD: a load of 8 bytes a lane, of the scratchpad (R143) with an extension word (R142). -/
def execLdsDExt (d a : BitVec 7) (order : BitVec 2) (scope : BitVec 3) (off : BitVec 32) (s : State) : Host.Outcome State Fault Refusal :=
  s.loadWord d a off 2 order scope 0
    { kind := .load, scratch := true, bytes := 8, align := 8, nregs := 2, width := 4, sext := false, packed := false, reqs := [] }

/-- ldsQ: a load of 16 bytes a lane, of the scratchpad (R143). -/
def execLdsQ (d a : BitVec 7) (order : BitVec 2) (scope : BitVec 3) (s : State) : Host.Outcome State Fault Refusal :=
  s.loadWord d a 0 1 order scope 0
    { kind := .load, scratch := true, bytes := 16, align := 16, nregs := 4, width := 4, sext := false, packed := false, reqs := [] }

/-- ldsQ: a load of 16 bytes a lane, of the scratchpad (R143) with an extension word (R142). -/
def execLdsQExt (d a : BitVec 7) (order : BitVec 2) (scope : BitVec 3) (off : BitVec 32) (s : State) : Host.Outcome State Fault Refusal :=
  s.loadWord d a off 2 order scope 0
    { kind := .load, scratch := true, bytes := 16, align := 16, nregs := 4, width := 4, sext := false, packed := false, reqs := [] }

/-- stB: a store of 1 byte a lane (R143). -/
def execStB (d a : BitVec 7) (reuse : BitVec 3) (order : BitVec 2) (scope : BitVec 3) (s : State) : Host.Outcome State Fault Refusal :=
  s.storeWord d a 0 1 order scope reuse
    { kind := .store, scratch := false, bytes := 1, align := 1, twice := false, reqs := [] }

/-- stB: a store of 1 byte a lane (R143) with an extension word (R142). -/
def execStBExt (d a : BitVec 7) (reuse : BitVec 3) (order : BitVec 2) (scope : BitVec 3) (off : BitVec 32) (s : State) : Host.Outcome State Fault Refusal :=
  s.storeWord d a off 2 order scope reuse
    { kind := .store, scratch := false, bytes := 1, align := 1, twice := false, reqs := [] }

/-- stH: a store of 2 bytes a lane (R143). -/
def execStH (d a : BitVec 7) (reuse : BitVec 3) (order : BitVec 2) (scope : BitVec 3) (s : State) : Host.Outcome State Fault Refusal :=
  s.storeWord d a 0 1 order scope reuse
    { kind := .store, scratch := false, bytes := 2, align := 2, twice := false, reqs := [] }

/-- stH: a store of 2 bytes a lane (R143) with an extension word (R142). -/
def execStHExt (d a : BitVec 7) (reuse : BitVec 3) (order : BitVec 2) (scope : BitVec 3) (off : BitVec 32) (s : State) : Host.Outcome State Fault Refusal :=
  s.storeWord d a off 2 order scope reuse
    { kind := .store, scratch := false, bytes := 2, align := 2, twice := false, reqs := [] }

/-- stW: a store of 4 bytes a lane (R143). -/
def execStW (d a : BitVec 7) (reuse : BitVec 3) (order : BitVec 2) (scope : BitVec 3) (s : State) : Host.Outcome State Fault Refusal :=
  s.storeWord d a 0 1 order scope reuse
    { kind := .store, scratch := false, bytes := 4, align := 4, twice := false, reqs := [] }

/-- stW: a store of 4 bytes a lane (R143) with an extension word (R142). -/
def execStWExt (d a : BitVec 7) (reuse : BitVec 3) (order : BitVec 2) (scope : BitVec 3) (off : BitVec 32) (s : State) : Host.Outcome State Fault Refusal :=
  s.storeWord d a off 2 order scope reuse
    { kind := .store, scratch := false, bytes := 4, align := 4, twice := false, reqs := [] }

/-- stD: a store of 8 bytes a lane (R143). -/
def execStD (d a : BitVec 7) (reuse : BitVec 3) (order : BitVec 2) (scope : BitVec 3) (s : State) : Host.Outcome State Fault Refusal :=
  s.storeWord d a 0 1 order scope reuse
    { kind := .store, scratch := false, bytes := 8, align := 8, twice := false, reqs := [] }

/-- stD: a store of 8 bytes a lane (R143) with an extension word (R142). -/
def execStDExt (d a : BitVec 7) (reuse : BitVec 3) (order : BitVec 2) (scope : BitVec 3) (off : BitVec 32) (s : State) : Host.Outcome State Fault Refusal :=
  s.storeWord d a off 2 order scope reuse
    { kind := .store, scratch := false, bytes := 8, align := 8, twice := false, reqs := [] }

/-- stQ: a store of 16 bytes a lane (R143). -/
def execStQ (d a : BitVec 7) (reuse : BitVec 3) (order : BitVec 2) (scope : BitVec 3) (s : State) : Host.Outcome State Fault Refusal :=
  s.storeWord d a 0 1 order scope reuse
    { kind := .store, scratch := false, bytes := 16, align := 16, twice := false, reqs := [] }

/-- stQ: a store of 16 bytes a lane (R143) with an extension word (R142). -/
def execStQExt (d a : BitVec 7) (reuse : BitVec 3) (order : BitVec 2) (scope : BitVec 3) (off : BitVec 32) (s : State) : Host.Outcome State Fault Refusal :=
  s.storeWord d a off 2 order scope reuse
    { kind := .store, scratch := false, bytes := 16, align := 16, twice := false, reqs := [] }

/-- stsB: a store of 1 byte a lane, to the scratchpad (R143). -/
def execStsB (d a : BitVec 7) (order : BitVec 2) (scope : BitVec 3) (s : State) : Host.Outcome State Fault Refusal :=
  s.storeWord d a 0 1 order scope 0
    { kind := .store, scratch := true, bytes := 1, align := 1, twice := true, reqs := [] }

/-- stsB: a store of 1 byte a lane, to the scratchpad (R143) with an extension word (R142). -/
def execStsBExt (d a : BitVec 7) (order : BitVec 2) (scope : BitVec 3) (off : BitVec 32) (s : State) : Host.Outcome State Fault Refusal :=
  s.storeWord d a off 2 order scope 0
    { kind := .store, scratch := true, bytes := 1, align := 1, twice := true, reqs := [] }

/-- stsH: a store of 2 bytes a lane, to the scratchpad (R143). -/
def execStsH (d a : BitVec 7) (order : BitVec 2) (scope : BitVec 3) (s : State) : Host.Outcome State Fault Refusal :=
  s.storeWord d a 0 1 order scope 0
    { kind := .store, scratch := true, bytes := 2, align := 2, twice := true, reqs := [] }

/-- stsH: a store of 2 bytes a lane, to the scratchpad (R143) with an extension word (R142). -/
def execStsHExt (d a : BitVec 7) (order : BitVec 2) (scope : BitVec 3) (off : BitVec 32) (s : State) : Host.Outcome State Fault Refusal :=
  s.storeWord d a off 2 order scope 0
    { kind := .store, scratch := true, bytes := 2, align := 2, twice := true, reqs := [] }

/-- stsW: a store of 4 bytes a lane, to the scratchpad (R143). -/
def execStsW (d a : BitVec 7) (order : BitVec 2) (scope : BitVec 3) (s : State) : Host.Outcome State Fault Refusal :=
  s.storeWord d a 0 1 order scope 0
    { kind := .store, scratch := true, bytes := 4, align := 4, twice := false, reqs := [] }

/-- stsW: a store of 4 bytes a lane, to the scratchpad (R143) with an extension word (R142). -/
def execStsWExt (d a : BitVec 7) (order : BitVec 2) (scope : BitVec 3) (off : BitVec 32) (s : State) : Host.Outcome State Fault Refusal :=
  s.storeWord d a off 2 order scope 0
    { kind := .store, scratch := true, bytes := 4, align := 4, twice := false, reqs := [] }

/-- stsD: a store of 8 bytes a lane, to the scratchpad (R143). -/
def execStsD (d a : BitVec 7) (order : BitVec 2) (scope : BitVec 3) (s : State) : Host.Outcome State Fault Refusal :=
  s.storeWord d a 0 1 order scope 0
    { kind := .store, scratch := true, bytes := 8, align := 8, twice := false, reqs := [] }

/-- stsD: a store of 8 bytes a lane, to the scratchpad (R143) with an extension word (R142). -/
def execStsDExt (d a : BitVec 7) (order : BitVec 2) (scope : BitVec 3) (off : BitVec 32) (s : State) : Host.Outcome State Fault Refusal :=
  s.storeWord d a off 2 order scope 0
    { kind := .store, scratch := true, bytes := 8, align := 8, twice := false, reqs := [] }

/-- stsQ: a store of 16 bytes a lane, to the scratchpad (R143). -/
def execStsQ (d a : BitVec 7) (order : BitVec 2) (scope : BitVec 3) (s : State) : Host.Outcome State Fault Refusal :=
  s.storeWord d a 0 1 order scope 0
    { kind := .store, scratch := true, bytes := 16, align := 16, twice := false, reqs := [] }

/-- stsQ: a store of 16 bytes a lane, to the scratchpad (R143) with an extension word (R142). -/
def execStsQExt (d a : BitVec 7) (order : BitVec 2) (scope : BitVec 3) (off : BitVec 32) (s : State) : Host.Outcome State Fault Refusal :=
  s.storeWord d a off 2 order scope 0
    { kind := .store, scratch := true, bytes := 16, align := 16, twice := false, reqs := [] }

/-- atomAdd: an atomic on 4 bytes a lane (R152, R154). -/
def execAtomAdd (d a : BitVec 7) (reuse : BitVec 3) (order : BitVec 2) (scope : BitVec 3) (s : State) : Host.Outcome State Fault Refusal :=
  s.atomWord 0x16 false 4 d a 0 1 order scope reuse

/-- atomAdd: an atomic on 4 bytes a lane (R152, R154) with an extension word (R142). -/
def execAtomAddExt (d a : BitVec 7) (reuse : BitVec 3) (order : BitVec 2) (scope : BitVec 3) (off : BitVec 32) (s : State) : Host.Outcome State Fault Refusal :=
  s.atomWord 0x16 false 4 d a off 2 order scope reuse

/-- atomFadd: an atomic on 4 bytes a lane (R152, R154). -/
def execAtomFadd (d a : BitVec 7) (reuse : BitVec 3) (order : BitVec 2) (scope : BitVec 3) (s : State) : Host.Outcome State Fault Refusal :=
  s.atomWord 0x17 false 4 d a 0 1 order scope reuse

/-- atomFadd: an atomic on 4 bytes a lane (R152, R154) with an extension word (R142). -/
def execAtomFaddExt (d a : BitVec 7) (reuse : BitVec 3) (order : BitVec 2) (scope : BitVec 3) (off : BitVec 32) (s : State) : Host.Outcome State Fault Refusal :=
  s.atomWord 0x17 false 4 d a off 2 order scope reuse

/-- atomHfaddBf: an atomic on 4 bytes a lane (R152, R154). -/
def execAtomHfaddBf (d a : BitVec 7) (reuse : BitVec 3) (order : BitVec 2) (scope : BitVec 3) (s : State) : Host.Outcome State Fault Refusal :=
  s.atomWord 0x18 false 4 d a 0 1 order scope reuse

/-- atomHfaddBf: an atomic on 4 bytes a lane (R152, R154) with an extension word (R142). -/
def execAtomHfaddBfExt (d a : BitVec 7) (reuse : BitVec 3) (order : BitVec 2) (scope : BitVec 3) (off : BitVec 32) (s : State) : Host.Outcome State Fault Refusal :=
  s.atomWord 0x18 false 4 d a off 2 order scope reuse

/-- atomMin: an atomic on 4 bytes a lane (R152, R154). -/
def execAtomMin (d a : BitVec 7) (reuse : BitVec 3) (order : BitVec 2) (scope : BitVec 3) (s : State) : Host.Outcome State Fault Refusal :=
  s.atomWord 0x19 false 4 d a 0 1 order scope reuse

/-- atomMin: an atomic on 4 bytes a lane (R152, R154) with an extension word (R142). -/
def execAtomMinExt (d a : BitVec 7) (reuse : BitVec 3) (order : BitVec 2) (scope : BitVec 3) (off : BitVec 32) (s : State) : Host.Outcome State Fault Refusal :=
  s.atomWord 0x19 false 4 d a off 2 order scope reuse

/-- atomMax: an atomic on 4 bytes a lane (R152, R154). -/
def execAtomMax (d a : BitVec 7) (reuse : BitVec 3) (order : BitVec 2) (scope : BitVec 3) (s : State) : Host.Outcome State Fault Refusal :=
  s.atomWord 0x1A false 4 d a 0 1 order scope reuse

/-- atomMax: an atomic on 4 bytes a lane (R152, R154) with an extension word (R142). -/
def execAtomMaxExt (d a : BitVec 7) (reuse : BitVec 3) (order : BitVec 2) (scope : BitVec 3) (off : BitVec 32) (s : State) : Host.Outcome State Fault Refusal :=
  s.atomWord 0x1A false 4 d a off 2 order scope reuse

/-- atomMinu: an atomic on 4 bytes a lane (R152, R154). -/
def execAtomMinu (d a : BitVec 7) (reuse : BitVec 3) (order : BitVec 2) (scope : BitVec 3) (s : State) : Host.Outcome State Fault Refusal :=
  s.atomWord 0x1B false 4 d a 0 1 order scope reuse

/-- atomMinu: an atomic on 4 bytes a lane (R152, R154) with an extension word (R142). -/
def execAtomMinuExt (d a : BitVec 7) (reuse : BitVec 3) (order : BitVec 2) (scope : BitVec 3) (off : BitVec 32) (s : State) : Host.Outcome State Fault Refusal :=
  s.atomWord 0x1B false 4 d a off 2 order scope reuse

/-- atomMaxu: an atomic on 4 bytes a lane (R152, R154). -/
def execAtomMaxu (d a : BitVec 7) (reuse : BitVec 3) (order : BitVec 2) (scope : BitVec 3) (s : State) : Host.Outcome State Fault Refusal :=
  s.atomWord 0x1C false 4 d a 0 1 order scope reuse

/-- atomMaxu: an atomic on 4 bytes a lane (R152, R154) with an extension word (R142). -/
def execAtomMaxuExt (d a : BitVec 7) (reuse : BitVec 3) (order : BitVec 2) (scope : BitVec 3) (off : BitVec 32) (s : State) : Host.Outcome State Fault Refusal :=
  s.atomWord 0x1C false 4 d a off 2 order scope reuse

/-- atomAnd: an atomic on 4 bytes a lane (R152, R154). -/
def execAtomAnd (d a : BitVec 7) (reuse : BitVec 3) (order : BitVec 2) (scope : BitVec 3) (s : State) : Host.Outcome State Fault Refusal :=
  s.atomWord 0x1D false 4 d a 0 1 order scope reuse

/-- atomAnd: an atomic on 4 bytes a lane (R152, R154) with an extension word (R142). -/
def execAtomAndExt (d a : BitVec 7) (reuse : BitVec 3) (order : BitVec 2) (scope : BitVec 3) (off : BitVec 32) (s : State) : Host.Outcome State Fault Refusal :=
  s.atomWord 0x1D false 4 d a off 2 order scope reuse

/-- atomOr: an atomic on 4 bytes a lane (R152, R154). -/
def execAtomOr (d a : BitVec 7) (reuse : BitVec 3) (order : BitVec 2) (scope : BitVec 3) (s : State) : Host.Outcome State Fault Refusal :=
  s.atomWord 0x1E false 4 d a 0 1 order scope reuse

/-- atomOr: an atomic on 4 bytes a lane (R152, R154) with an extension word (R142). -/
def execAtomOrExt (d a : BitVec 7) (reuse : BitVec 3) (order : BitVec 2) (scope : BitVec 3) (off : BitVec 32) (s : State) : Host.Outcome State Fault Refusal :=
  s.atomWord 0x1E false 4 d a off 2 order scope reuse

/-- atomXor: an atomic on 4 bytes a lane (R152, R154). -/
def execAtomXor (d a : BitVec 7) (reuse : BitVec 3) (order : BitVec 2) (scope : BitVec 3) (s : State) : Host.Outcome State Fault Refusal :=
  s.atomWord 0x1F false 4 d a 0 1 order scope reuse

/-- atomXor: an atomic on 4 bytes a lane (R152, R154) with an extension word (R142). -/
def execAtomXorExt (d a : BitVec 7) (reuse : BitVec 3) (order : BitVec 2) (scope : BitVec 3) (off : BitVec 32) (s : State) : Host.Outcome State Fault Refusal :=
  s.atomWord 0x1F false 4 d a off 2 order scope reuse

/-- atomXchg: an atomic on 4 bytes a lane (R152, R154). -/
def execAtomXchg (d a : BitVec 7) (reuse : BitVec 3) (order : BitVec 2) (scope : BitVec 3) (s : State) : Host.Outcome State Fault Refusal :=
  s.atomWord 0x20 false 4 d a 0 1 order scope reuse

/-- atomXchg: an atomic on 4 bytes a lane (R152, R154) with an extension word (R142). -/
def execAtomXchgExt (d a : BitVec 7) (reuse : BitVec 3) (order : BitVec 2) (scope : BitVec 3) (off : BitVec 32) (s : State) : Host.Outcome State Fault Refusal :=
  s.atomWord 0x20 false 4 d a off 2 order scope reuse

/-- atomCas: an atomic on 4 bytes a lane (R152, R154). -/
def execAtomCas (d a : BitVec 7) (reuse : BitVec 3) (order : BitVec 2) (scope : BitVec 3) (s : State) : Host.Outcome State Fault Refusal :=
  s.atomWord 0x21 false 4 d a 0 1 order scope reuse

/-- atomCas: an atomic on 4 bytes a lane (R152, R154) with an extension word (R142). -/
def execAtomCasExt (d a : BitVec 7) (reuse : BitVec 3) (order : BitVec 2) (scope : BitVec 3) (off : BitVec 32) (s : State) : Host.Outcome State Fault Refusal :=
  s.atomWord 0x21 false 4 d a off 2 order scope reuse

/-- atomCasD: an atomic on 8 bytes a lane (R152, R154). -/
def execAtomCasD (d a : BitVec 7) (reuse : BitVec 3) (order : BitVec 2) (scope : BitVec 3) (s : State) : Host.Outcome State Fault Refusal :=
  s.atomWord 0x22 false 8 d a 0 1 order scope reuse

/-- atomCasD: an atomic on 8 bytes a lane (R152, R154) with an extension word (R142). -/
def execAtomCasDExt (d a : BitVec 7) (reuse : BitVec 3) (order : BitVec 2) (scope : BitVec 3) (off : BitVec 32) (s : State) : Host.Outcome State Fault Refusal :=
  s.atomWord 0x22 false 8 d a off 2 order scope reuse

/-- atomsAdd: an atomic on 4 bytes a lane, of the scratchpad (R152, R154). -/
def execAtomsAdd (d a : BitVec 7) (order : BitVec 2) (scope : BitVec 3) (s : State) : Host.Outcome State Fault Refusal :=
  s.atomWord 0x23 true 4 d a 0 1 order scope 0

/-- atomsAdd: an atomic on 4 bytes a lane, of the scratchpad (R152, R154) with an extension word (R142). -/
def execAtomsAddExt (d a : BitVec 7) (order : BitVec 2) (scope : BitVec 3) (off : BitVec 32) (s : State) : Host.Outcome State Fault Refusal :=
  s.atomWord 0x23 true 4 d a off 2 order scope 0

/-- atomsFadd: an atomic on 4 bytes a lane, of the scratchpad (R152, R154). -/
def execAtomsFadd (d a : BitVec 7) (order : BitVec 2) (scope : BitVec 3) (s : State) : Host.Outcome State Fault Refusal :=
  s.atomWord 0x24 true 4 d a 0 1 order scope 0

/-- atomsFadd: an atomic on 4 bytes a lane, of the scratchpad (R152, R154) with an extension word (R142). -/
def execAtomsFaddExt (d a : BitVec 7) (order : BitVec 2) (scope : BitVec 3) (off : BitVec 32) (s : State) : Host.Outcome State Fault Refusal :=
  s.atomWord 0x24 true 4 d a off 2 order scope 0

/-- atomsMin: an atomic on 4 bytes a lane, of the scratchpad (R152, R154). -/
def execAtomsMin (d a : BitVec 7) (order : BitVec 2) (scope : BitVec 3) (s : State) : Host.Outcome State Fault Refusal :=
  s.atomWord 0x25 true 4 d a 0 1 order scope 0

/-- atomsMin: an atomic on 4 bytes a lane, of the scratchpad (R152, R154) with an extension word (R142). -/
def execAtomsMinExt (d a : BitVec 7) (order : BitVec 2) (scope : BitVec 3) (off : BitVec 32) (s : State) : Host.Outcome State Fault Refusal :=
  s.atomWord 0x25 true 4 d a off 2 order scope 0

/-- atomsMax: an atomic on 4 bytes a lane, of the scratchpad (R152, R154). -/
def execAtomsMax (d a : BitVec 7) (order : BitVec 2) (scope : BitVec 3) (s : State) : Host.Outcome State Fault Refusal :=
  s.atomWord 0x26 true 4 d a 0 1 order scope 0

/-- atomsMax: an atomic on 4 bytes a lane, of the scratchpad (R152, R154) with an extension word (R142). -/
def execAtomsMaxExt (d a : BitVec 7) (order : BitVec 2) (scope : BitVec 3) (off : BitVec 32) (s : State) : Host.Outcome State Fault Refusal :=
  s.atomWord 0x26 true 4 d a off 2 order scope 0

/-- atomsXchg: an atomic on 4 bytes a lane, of the scratchpad (R152, R154). -/
def execAtomsXchg (d a : BitVec 7) (order : BitVec 2) (scope : BitVec 3) (s : State) : Host.Outcome State Fault Refusal :=
  s.atomWord 0x27 true 4 d a 0 1 order scope 0

/-- atomsXchg: an atomic on 4 bytes a lane, of the scratchpad (R152, R154) with an extension word (R142). -/
def execAtomsXchgExt (d a : BitVec 7) (order : BitVec 2) (scope : BitVec 3) (off : BitVec 32) (s : State) : Host.Outcome State Fault Refusal :=
  s.atomWord 0x27 true 4 d a off 2 order scope 0

/-- atomsCas: an atomic on 4 bytes a lane, of the scratchpad (R152, R154). -/
def execAtomsCas (d a : BitVec 7) (order : BitVec 2) (scope : BitVec 3) (s : State) : Host.Outcome State Fault Refusal :=
  s.atomWord 0x28 true 4 d a 0 1 order scope 0

/-- atomsCas: an atomic on 4 bytes a lane, of the scratchpad (R152, R154) with an extension word (R142). -/
def execAtomsCasExt (d a : BitVec 7) (order : BitVec 2) (scope : BitVec 3) (off : BitVec 32) (s : State) : Host.Outcome State Fault Refusal :=
  s.atomWord 0x28 true 4 d a off 2 order scope 0

/-! ### FENCE and PREF -/

/-- FENCE (R158): each active lane's later memory words are held until the condition holds. In a region it adds nothing that the hold does not. -/
def execFence (order : BitVec 2) (scope : BitVec 3) (s : State) : Host.Outcome State Fault Refusal :=
  let f : FenceHold := { order := order.toNat, scope := scope.toNat, lanes := s.me.run.act, upto := s.fresh }
  .next ((s.onMe (fun g => { g with fences := g.fences ++ [f] })).advance 1 1)

/-- The lines that PREF may fetch: those of lanes whose address translates to device memory and whose line no engine, level or region holds
(R159). -/
def State.prefLines (s : State) (g : Group) (reqs : List Req) : List Nat :=
  (reqs.filterMap (fun q =>
    match s.target g.cluster (s.partOf g) .read q.ea with
    | .ok .global pa => if s.waitsAt g.team g.cluster false (pa / 128 * 128) 128 then none else some (pa / 128)
    | _ => none)).dedup

/-- PREF: the line of each lane's address is brought into the LLC and, but for reuse 7, into the L1, where there is room; nothing faults, and no fence
holds it, since it is no access (R159, R219, R274). -/
def State.prefWord (s : State) (a : BitVec 7) (reuse : BitVec 3) (off : BitVec 32) (words : Nat) : Host.Outcome State Fault Refusal :=
  let g := s.me
  let reqs := (lanesIn g.run.act).map (fun l => ({ lane := l, ea := eaOf (g.addrOf l a.toNat) off } : Req))
  let m : MemWord := { kind := .load, bytes := 1, align := 1, reqs := reqs }
  let t := s.cachePages g.cluster (s.partOf g) .read ((reqs.map (fun q => q.ea / 2 ^ 16)).dedup)
  let s' := (s.prefLines g reqs).foldl (fun s ln =>
    if reuse.toNat = 7 then (if s.llcRoom ln then s.llcAccess (some g.cluster) ln 7 else s)
    else if s.roomFor g.cluster ln then s.fetchLine g.cluster ln reuse.toNat else s) t
  .next (s.gated (g.gateOn (addrSrcs g.run.act a.toNat) []) (s'.advance words (s'.memCost g m)))

/-- PREF (R159). -/
def execPref (a : BitVec 7) (reuse : BitVec 3) (s : State) : Host.Outcome State Fault Refusal := s.prefWord a reuse 0 1

/-- PREF with an extension word (R159, R142). -/
def execPrefExt (a : BitVec 7) (reuse : BitVec 3) (off : BitVec 32) (s : State) : Host.Outcome State Fault Refusal :=
  s.prefWord a reuse off 2

/-! ### Indexed forms (R160) -/

/-- The element width in bytes of a type (R160). -/
def idxWidth (st : BitVec 4) : Nat := match st.toNat with | 8 | 9 => 4 | 10 | 11 => 2 | _ => 1

/-- The requests of an indexed word: lanes of the active set whose guard holds. -/
def Group.idxReqs (g : Group) (a b : BitVec 7) (pg : BitVec 5) (neg : Bool) (w : Nat) (data : Nat → List (BitVec 8)) : List Req :=
  ((lanesIn g.run.act).filter (fun l => guarded pg neg g l)).map (fun l =>
    { lane := l
      ea := (g.src64 l a.toNat + (g.src .int l b.toNat).signExtend 64 * BitVec.ofNat 64 w).toNat
      data := data l })

/-- LD.IDX (R160): the address always blocks, the index by its empty action. -/
def execLdIdx (d a b : BitVec 7) (_ea eb : Bool) (pg : BitVec 5) (neg : Bool) (st : BitVec 4) (order : BitVec 2) (scope reuse : BitVec 3)
    (s : State) : Host.Outcome State Fault Refusal :=
  let g := s.me
  let w := idxWidth st
  s.memWord (addrSrcs g.run.act a.toNat ++ [(g.run.act, b.toNat, eb)]) [(g.run.act, d.toNat)]
    { kind := .load, bytes := w, align := w, dest := some d.toNat, nregs := 1, width := w
      sext := decide (st.toNat = 10 ∨ st.toNat = 12), order := order.toNat, scope := scope.toNat, reuse := reuse.toNat, words := 2
      reqs := g.idxReqs a b pg neg w (fun _ => []) }

/-- ST.IDX (R160). -/
def execStIdx (d a b : BitVec 7) (_ea eb : Bool) (pg : BitVec 5) (neg : Bool) (st : BitVec 4) (order : BitVec 2) (scope reuse : BitVec 3)
    (s : State) : Host.Outcome State Fault Refusal :=
  let g := s.me
  let w := idxWidth st
  s.memWord (addrSrcs g.run.act a.toNat ++ [(g.run.act, b.toNat, eb), (g.run.act, d.toNat, false)]) []
    { kind := .store, bytes := w, align := w, order := order.toNat, scope := scope.toNat, reuse := reuse.toNat, words := 2
      reqs := g.idxReqs a b pg neg w (fun l => g.dataOf l d.toNat w) }

/-! ### Scalar loads and stores -/

/-- SLD.W (R87). -/
def execSldW (sd sa : BitVec 5) (imm : BitVec 13) (s : State) : Host.Outcome State Fault Refusal :=
  s.scalarAccess .load [sreg sa, sreg sa + 1] [sreg sd] sa imm 4 []

/-- SLD.D (R87). -/
def execSldD (sd sa : BitVec 5) (imm : BitVec 13) (s : State) : Host.Outcome State Fault Refusal :=
  s.scalarAccess .load [sreg sa, sreg sa + 1] [sreg sd, sreg sd + 1] sa imm 8 []

/-- SST.W (R87). -/
def execSstW (sd sa : BitVec 5) (imm : BitVec 13) (s : State) : Host.Outcome State Fault Refusal :=
  s.scalarAccess .store [sreg sa, sreg sa + 1, sreg sd] [] sa imm 4 (leBytes 4 (s.me.s sd.toNat).toNat)

end Sys2Proof.Machine
end

