-- ==== Sys2Proof/Machine/Power.lean ====
section
/-! DEFINITION. Power and energy (25, R370, R371; 26, R374 to R384): droop alarms and timing replay, the step ladder, budgets, the meters, job meters and
signed readings. -/
namespace Sys2Proof.Machine

/-! ### Slices (R370, R371, R376, R377) -/

/-- A slice of a cluster brought up to the present and changed. -/
def State.onSliceNow (s : State) (cl sl : Nat) (f : Slice → Slice) : State :=
  s.onCluster cl (fun c => c.onSlice sl (fun x => f (x.catchUp s.time)))

/-- A slice exists. -/
def isSlice (cl sl : Nat) : Bool := decide (cl < 160 ∧ sl < 6)

/-- An alarm of a slice that stands at the present: in a cycle to come or under way it falls due when that cycle has ended; one sample is taken in a cycle. -/
def Slice.alarmIn (x : Slice) (after : Nat) : Slice :=
  if x.cycleFrac = 0 ∧ after = 0 then x.alarmed
  else
    let k := if x.cycleFrac = 0 then x.cycle + after - 1 else x.cycle + after
    { x with due := x.due.filter (fun j => decide (j < k)) ++ k :: x.due.filter (fun j => decide (k < j)) }

/-- DROOP_ALARM (R370, R371): the detector of a slice finds an alarm in a cycle. -/
def execDroopAlarm (cl : Nat) (sl : AlarmAt) (s : State) : Host.Outcome State Fault Refusal :=
  .next (if isSlice cl sl.slice && ((s.cluster cl).slice sl.slice).droopThr != 0 then s.onSliceNow cl sl.slice (·.alarmIn sl.after) else s)

/-- DROOP_STRETCH_END (R370): the last stretched cycle of a slice has passed. -/
def execDroopStretchEnd (cl sl : Nat) (s : State) : Host.Outcome State Fault Refusal :=
  let x := (s.cluster cl).slice sl
  .next (if x.stretch ≠ 0 ∧ (x.catchUp s.time).stretch = 0 then s.onSliceNow cl sl id else s)

/-- HALVED_WINDOW_END (R370): the last cycle of the window has passed. -/
def execHalvedWindowEnd (cl sl : Nat) (s : State) : Host.Outcome State Fault Refusal :=
  let x := (s.cluster cl).slice sl
  .next (if x.halved ≠ 0 ∧ (x.catchUp s.time).halved = 0 then s.onSliceNow cl sl id else s)

/-- TIMING_REPLAY (R103, R336, R377): a cycle is replayed at half rate, 2 × 8/SLICERATIO ticks, which CYCLE does not count; one that fails again raises
cause 0x94 in the group that the slice runs. -/
def execTimingReplay (cl sl : Nat) (again : Bool) (s : State) : Host.Outcome State Fault Refusal :=
  .next (if isSlice cl sl then
    let x := ((s.cluster cl).slice sl).catchUp s.time
    let dt := 2 * (6720 / (max 1 x.ratio))
    let s := { s.onCluster cl (fun c => c.onSlice sl (fun _ => { x with replays := (x.replays + 1) % 2 ^ 16, cycleTime := s.time + dt })) with
      time := s.time + dt }
    match (s.sliceGroups cl sl).find? (fun p => p.2.run.active) with
    | some (k, g) =>
      if again then (if 0 < (s.team g.team).rlevel then s.levelFault g.team 0x94 else s.contain k 0x94 sl false g.run.hdr).settleAll else s
    | none => s
    else s)

/-! ### The ladder (R374) -/

/-- CLBUDGET of a step. -/
def stepBudget (n : Nat) : Nat := if n = 0 then 192 else if n ≤ 12 then 192 - 8 * n else if n ≤ 17 then 96 else if n ≤ 25 then 96 - 8 * (n - 17) else 32
/-- The ladder ratio of a step. -/
def stepRatio (n : Nat) : Nat := if n ≤ 12 then 8 else if n ≤ 16 then 20 - n else if n ≤ 25 then 4 else if n = 26 then 3 else 2
/-- PASSDIV of a step. -/
def stepDiv (n : Nat) : Nat := if n ≤ 16 then 1 else if n ≤ 27 then 2 else 4

/-- A slice's settings for a step, taken up at its next run boundary (R374, R375). -/
def Slice.atStep (x : Slice) (n : Nat) : Slice :=
  { x with ratioNext := max 2 (min x.sliceMax (stepRatio n) - x.penalty), passDivNext := stepDiv n }

/-- The droop penalty after an interval (R376). -/
def Slice.decide (x : Slice) (limit : Nat) : Slice :=
  let up := if limit ≤ x.alarmsNow then min 6 (x.penalty + 1) else x.penalty
  { x with penalty := if x.alarmsNow = 0 then up - 1 else up, alarmsNow := 0 }

/-- A cluster put on a step. -/
def Cluster.atStep (c : Cluster) (n limit : Nat) : Cluster :=
  { [0, 1, 2, 3, 4, 5].foldl (fun c sl => c.onSlice sl (fun x => (x.decide limit).atStep n)) c with step := n, budget := stepBudget n }

/-! ### Energy shares (R380) -/

/-- A reading of the interval; see `State.rails`. -/
def State.rail (s : State) (k : Nat) : Nat := FMap.at 0 s.rails k
/-- The input energy of the interval, in nJ. -/
def State.inputNj (s : State) : Nat := s.rail 160
/-- All rails of the interval. -/
def State.railSum (s : State) : Nat :=
  ((List.range 160).map s.rail).sum + s.rail 161 + s.rail 162 + s.rail 163 + s.rail 164

/-- A share `x × a / b`, first scaled where the shares exceed the input energy, then rounded down (R380). -/
def State.share (s : State) (x a b : Nat) : Nat :=
  if b = 0 then 0
  else if s.inputNj < s.railSum then x * a * s.inputNj / (b * s.railSum) else x * a / b

/-- WEIGHT of a partition (R378). -/
def Partition.weight (p : Partition) : Nat := p.pfloor.toNat / 2 ^ 16 % 2 ^ 8
/-- FLOOR of a partition. -/
def Partition.floor (p : Partition) : Nat := p.pfloor.toNat % 2 ^ 16
/-- The sum of a quantity over the partitions. -/
def State.overParts (_ : State) (f : Nat → Nat) : Nat := ((List.range 8).map f).sum

/-- Cluster energy of a partition: its clusters' rails. -/
def State.clusterShare (s : State) (p : Nat) : Nat := ((s.partClusters p).map (fun cl => s.share (s.rail cl) 1 1)).sum
/-- Bytes that requests of a partition have moved at the LLC's slices (R380). -/
def State.bytesTotal (s : State) (p : Nat) : Nat := ((List.range 48).map (fun k => FMap.at 0 (s.slice k).moved p)).sum
/-- Bytes that a partition has moved since the last update of the meters (R380). -/
def State.bytesMoved (s : State) (p : Nat) : Nat := s.bytesTotal p - FMap.at 0 s.module.movedLast p
/-- Flits that have carried a partition's key since the last update (R380). -/
def State.flitsMoved (s : State) (p : Nat) : Nat := FMap.at 0 s.module.flits p - FMap.at 0 s.module.flitsLast p
/-- The other shares of a partition: memory dynamic and static, fabric, idle and uncore. -/
def State.otherShare (s : State) (p : Nat) : Nat :=
  s.share (s.rail 161) (s.bytesMoved p) (s.overParts s.bytesMoved) +
  s.share (s.rail 162) (s.rail (220 + p)) (s.rail 228) +
  s.share (s.rail 163) (s.flitsMoved p) (s.overParts s.flitsMoved) +
  s.share (s.rail 164) (s.part p).weight (s.overParts (fun q => (s.part q).weight))
/-- The energy that R380 gives a partition, in nJ; none of an interval in which a warm reset fell (R384; DESIGN CHOICE, log entry 87). -/
def State.partShare (s : State) (p : Nat) : Nat := if s.module.houseAll then 0 else s.clusterShare p + s.otherShare p

/-! ### Meters (R381, R382) -/

/-- A team's job meter raised by an energy in nJ. -/
def Team.gain (t : Team) (nj : Nat) : Team :=
  let uj := (t.energyCarry + nj) / 1000
  { t with
    energy := t.energy + uj, energyCarry := (t.energyCarry + nj) % 1000
    saveGain := match t.place with | .saved _ _ => t.saveGain + uj | _ => t.saveGain }

/-- The teams among which the energy of a cluster is divided (R382): those on it, and those saved from it since the last update. -/
def State.metered (s : State) (cl : Nat) : List Nat :=
  (s.teams.filter (fun p => p.2.place == .resident cl || p.2.savedOn == some cl)).map (·.1)

/-- What a team receives of the energy of a cluster, in proportion to the admission weights (R382). -/
def State.teamOn (s : State) (t cl : Nat) : Nat :=
  let ts := s.metered cl
  let w := (ts.map s.teamWeight).sum
  if w = 0 ∨ !ts.contains t then 0 else s.share (s.rail cl) 1 1 * s.teamWeight t / w

/-- The cluster energy that a team receives: of the cluster it is on, and of the one it was saved from (R382). -/
def State.teamShare (s : State) (t : Nat) : Nat :=
  let here := match (s.team t).place with | .resident cl => [cl] | _ => []
  let saved := match (s.team t).savedOn with | some cl => if here.contains cl then [] else [cl] | none => []
  ((here ++ saved).map (s.teamOn t)).sum

/-- Job meters of a partition (R382): the cluster energy by weight, the other shares in proportion to it. -/
def State.meterTeams (s : State) (p : Nat) : State :=
  let ts := (s.teams.filter (fun x => (s.grid x.2.grid).part == p && (x.2.savedOn.isSome || s.residents.contains x.1))).map (·.1)
  let all_ := (ts.map s.teamShare).sum
  ts.foldl (fun s' t => s'.onTeam t (fun tm =>
    tm.gain (s.teamShare t + (if all_ = 0 then 0 else s.otherShare p * s.teamShare t / all_)))) s

/-- The meters update together (R381). -/
def State.updateMeters (s : State) (tick : Nat) : State :=
  let s0 := s
  let s := if s.module.houseAll then s else (List.range 8).foldl (fun s p => s.meterTeams p) s
  let s := { s with teams := FMap.mapVals (fun _ (t : Team) => { t with savedOn := none }) s.teams }
  let s := (List.range 8).foldl (fun s p => s.onPart p (fun q =>
    let acc := q.pmeterCarry + s0.partShare p
    { q with pmeter := q.pmeter + acc / 1000, pmeterCarry := acc % 1000 })) s
  let input := s.module.inpute + (s.module.inputCarry + s.inputNj) / 1000
  s.onModule (fun m => { m with
    inpute := input, inputCarry := (m.inputCarry + s.inputNj) % 1000
    house := input - ((List.range 8).map (fun p => (s.part p).pmeter)).sum
    mettick := tick, houseAll := false
    movedLast := (List.range 8).map (fun p => (p, s0.bytesTotal p)), flitsLast := m.flits })

/-! ### Decisions (R375, R378, R379) -/

/-- Power against a limit of `num / den` watts, as energy in nJ over 2^16 ticks at 1.5 GHz: `pct` hundredths of the limit are exceeded. -/
def aboveLimit (nj num den pct : Nat) : Bool := decide (num * pct * 131072 < nj * 3 * den * 100)

/-- The budget of a partition as a fraction (R379); none while the cap is unmet. -/
def State.budgetOf (s : State) (p : Nat) : Nat × Nat :=
  let cap := s.module.modcap
  let idle := s.module.idleFloor
  let f := s.overParts (fun q => (s.part q).floor)
  let w := s.overParts (fun q => (s.part q).weight)
  let own := (s.part p).floor
  if cap < idle + f then (own * (cap - idle), f)
  else if w ≠ 0 then (own * w + (cap - idle - f) * (s.part p).weight, w)
  else if f ≠ 0 then (own * f + (cap - idle - f) * own, f)
  else (0, 1)

/-- The partition exceeds a share of its budget. -/
def State.overBudget (s : State) (p pct : Nat) : Bool := let b := s.budgetOf p; aboveLimit (s.partShare p) b.1 b.2 pct

/-- The step of a cluster after a decision: none but an unmet cap moves it by more than one step (R374, R375). -/
def State.decideStep (s : State) (cl : Nat) : Nat :=
  let c := s.cluster cl
  let m := s.module
  if m.modcap < m.idleFloor then 28
  else if !c.enabled then min 28 (c.step + 1)
  else if aboveLimit s.inputNj m.modcap 1 100 then
    if s.overBudget c.part 100 || (List.range 8).all (fun p => !s.overBudget p 100) then min 28 (c.step + 1) else c.step
  else if !aboveLimit s.inputNj m.modcap 1 95 && !s.overBudget c.part 95 then c.step - 1
  else c.step

/-- CONTROL_INTERVAL (R375, R376, R381): every 2^16 ticks the meters update and the controller decides. -/
def execControlInterval (s : State) : Host.Outcome State Fault Refusal :=
  let tick := s.module.ctlLast + 2 ^ 16
  .next (if s.tick < tick then s
    else
      let m := s.module
      let clusters : FMap Cluster := (List.range 160).map (fun cl =>
        (cl, (s.cluster cl).atStep (s.decideStep cl) m.droopMax))
      let t := s.updateMeters tick
      let f := s.overParts (fun q => (s.part q).floor)
      let t := if decide (m.modcap < m.idleFloor) && !m.unmet then t.signal 1 else t
      { t with clusters := clusters }.onModule (fun m => { m with
        ctlLast := tick, unmet := decide (m.modcap < m.idleFloor)
        scaled := decide (m.idleFloor ≤ m.modcap ∧ m.modcap < m.idleFloor + f)
        power := min 65535 (s.inputNj * 3 / 131072) }))

/-! ### Signed readings (R384) -/

/-- Bytes 0 to 95 of a reading, latched at the request. -/
def State.reading (s : State) (type part : Nat) (job : List (BitVec 8)) : List (BitVec 8) :=
  let m := s.module
  leBytes 2 1 ++ leBytes 1 type ++ leBytes 1 part ++ leBytes 4 m.gen ++ leBytes 8 (m.sigseq + 1) ++ leBytes 8 m.mettick ++ leBytes 8 m.signonce.toNat ++
  leBytes 8 (s.part part).pmeter ++ leBytes 8 m.house ++ leBytes 8 m.inpute ++ (job ++ List.replicate 32 0).take 32 ++ leBytes 8 m.serial.toNat

/-- SIGN_PARTITION_COUNTERS (R384): a write of SIGCTL with GO and TYPE 0; ignored while a reading is being made. -/
def execSignPartitionCounters (value : BitVec 64) (s : State) : Host.Outcome State Fault Refusal :=
  .next (if value.getLsbD 0 && !value.getLsbD 1 && s.module.sigData.isNone then
    s.onModule (fun m => { m with sigData := some (s.reading 0 (value.toNat / 2 ^ 2 % 8) []) })
    else s)

/-- SIGN_JOB_RECORD (R384): TYPE 1, the job record of SIGJOB; one no longer held sets MISS. -/
def execSignJobRecord (value : BitVec 64) (s : State) : Host.Outcome State Fault Refusal :=
  let part := value.toNat / 2 ^ 2 % 8
  .next (if value.getLsbD 0 && value.getLsbD 1 && s.module.sigData.isNone then
    match (s.part part).jobs.find? (fun b => fieldAt b 24 4 == s.module.sigjob.toNat % 2 ^ 32) with
    | some b => s.onModule (fun m => { m with sigData := some (s.reading 1 part b) })
    | none => s.onModule (fun m => { m with sigMiss := true })
    else s)

/-- SIGNED_READING_WRITTEN (R384): the latched bytes and a signature over them, whose value is free. -/
def execSignedReadingWritten (s : State) : Host.Outcome State Fault Refusal :=
  let m := s.module
  .next (match m.sigData with
    | some bs =>
      let sig := (List.range 96).map (fun k => Config.signatureByte (m.gen * 2 ^ 64 + m.sigseq) k)
      (s.writePhys none (m.sigbuf.toNat / 64 * 64) (bs ++ sig) []).onModule (fun m => { m with sigData := none, sigseq := m.sigseq + 1 })
    | none => s)

end Sys2Proof.Machine
end

