-- ==== Sys2Proof/Machine/Pred.lean ====
section
/-! DEFINITION. Predicate words, class VP (05, R113 to R115). -/
namespace Sys2Proof.Machine

/-- The class of an F32 pattern as the bit number of R114. -/
def fpClass (a : Word) : Nat :=
  let sub := decide (a.toNat / 2 ^ 23 % 2 ^ 8 = 0)
  match asF32 a with
  | .nan true => 0
  | .nan false => 1
  | .inf true => 2
  | .inf false => 9
  | .fin neg n _ => if n = 0 then (if neg then 5 else 6) else if sub then (if neg then 4 else 7) else (if neg then 3 else 8)

/-- Invalid for a signalling NaN among two sources (R114). -/
def snanFlag (a b : Word) : FpFlags := flagIf ((asF32 a).isSnan || (asF32 b).isSnan) flagNV
/-- Invalid for any NaN among two sources (R114). -/
def nanFlag (a b : Word) : FpFlags := flagIf ((asF32 a).isNan || (asF32 b).isNan) flagNV

/-- VCMP_EQ (R114): A = B. -/
def execVcmpEq (pd : BitVec 5) (a b : BitVec 7) (c : BitVec 2) (ea eb : Bool) (s : State) : Host.Outcome State Fault Refusal :=
  vpCompare .int pd a b c ea eb (fun a b => (a == b, 0)) s
/-- VCMP_NE (R114): A ≠ B. -/
def execVcmpNe (pd : BitVec 5) (a b : BitVec 7) (c : BitVec 2) (ea eb : Bool) (s : State) : Host.Outcome State Fault Refusal :=
  vpCompare .int pd a b c ea eb (fun a b => (a != b, 0)) s
/-- VCMP_LT (R114): A < B, signed. -/
def execVcmpLt (pd : BitVec 5) (a b : BitVec 7) (c : BitVec 2) (ea eb : Bool) (s : State) : Host.Outcome State Fault Refusal :=
  vpCompare .int pd a b c ea eb (fun a b => (a.slt b, 0)) s
/-- VCMP_LE (R114): A ≤ B, signed. -/
def execVcmpLe (pd : BitVec 5) (a b : BitVec 7) (c : BitVec 2) (ea eb : Bool) (s : State) : Host.Outcome State Fault Refusal :=
  vpCompare .int pd a b c ea eb (fun a b => (a.sle b, 0)) s
/-- VCMP_GT (R114): A > B, signed. -/
def execVcmpGt (pd : BitVec 5) (a b : BitVec 7) (c : BitVec 2) (ea eb : Bool) (s : State) : Host.Outcome State Fault Refusal :=
  vpCompare .int pd a b c ea eb (fun a b => (b.slt a, 0)) s
/-- VCMP_GE (R114): A ≥ B, signed. -/
def execVcmpGe (pd : BitVec 5) (a b : BitVec 7) (c : BitVec 2) (ea eb : Bool) (s : State) : Host.Outcome State Fault Refusal :=
  vpCompare .int pd a b c ea eb (fun a b => (b.sle a, 0)) s
/-- VCMP_LTU (R114): A < B, unsigned. -/
def execVcmpLtu (pd : BitVec 5) (a b : BitVec 7) (c : BitVec 2) (ea eb : Bool) (s : State) : Host.Outcome State Fault Refusal :=
  vpCompare .int pd a b c ea eb (fun a b => (a.ult b, 0)) s
/-- VCMP_LEU (R114): A ≤ B, unsigned. -/
def execVcmpLeu (pd : BitVec 5) (a b : BitVec 7) (c : BitVec 2) (ea eb : Bool) (s : State) : Host.Outcome State Fault Refusal :=
  vpCompare .int pd a b c ea eb (fun a b => (a.ule b, 0)) s
/-- VCMP_GTU (R114): A > B, unsigned. -/
def execVcmpGtu (pd : BitVec 5) (a b : BitVec 7) (c : BitVec 2) (ea eb : Bool) (s : State) : Host.Outcome State Fault Refusal :=
  vpCompare .int pd a b c ea eb (fun a b => (b.ult a, 0)) s
/-- VCMP_GEU (R114): A ≥ B, unsigned. -/
def execVcmpGeu (pd : BitVec 5) (a b : BitVec 7) (c : BitVec 2) (ea eb : Bool) (s : State) : Host.Outcome State Fault Refusal :=
  vpCompare .int pd a b c ea eb (fun a b => (b.ule a, 0)) s
/-- VFCMP_EQ (R114): A = B as F32, ordered. -/
def execVfcmpEq (pd : BitVec 5) (a b : BitVec 7) (c : BitVec 2) (ea eb : Bool) (s : State) : Host.Outcome State Fault Refusal :=
  vpCompare .f32 pd a b c ea eb (fun a b => ((asF32 a).eq (asF32 b), snanFlag a b)) s
/-- VFCMP_NE (R114): not ordered-equal. -/
def execVfcmpNe (pd : BitVec 5) (a b : BitVec 7) (c : BitVec 2) (ea eb : Bool) (s : State) : Host.Outcome State Fault Refusal :=
  vpCompare .f32 pd a b c ea eb (fun a b => (!(asF32 a).eq (asF32 b), snanFlag a b)) s
/-- VFCMP_LT (R114): A < B, ordered. -/
def execVfcmpLt (pd : BitVec 5) (a b : BitVec 7) (c : BitVec 2) (ea eb : Bool) (s : State) : Host.Outcome State Fault Refusal :=
  vpCompare .f32 pd a b c ea eb (fun a b => ((asF32 a).lt (asF32 b), nanFlag a b)) s
/-- VFCMP_LE (R114): A ≤ B, ordered. -/
def execVfcmpLe (pd : BitVec 5) (a b : BitVec 7) (c : BitVec 2) (ea eb : Bool) (s : State) : Host.Outcome State Fault Refusal :=
  vpCompare .f32 pd a b c ea eb (fun a b => ((asF32 a).lt (asF32 b) || (asF32 a).eq (asF32 b), nanFlag a b)) s
/-- VFCMP_UN (R114): A or B is a NaN. -/
def execVfcmpUn (pd : BitVec 5) (a b : BitVec 7) (c : BitVec 2) (ea eb : Bool) (s : State) : Host.Outcome State Fault Refusal :=
  vpCompare .f32 pd a b c ea eb (fun a b => ((asF32 a).isNan || (asF32 b).isNan, snanFlag a b)) s
/-- VFCLASS (R114): the class of A has its bit set in B[9:0]. It is an FP32 word: its constants are the Float column (R42). -/
def execVfclass (pd : BitVec 5) (a b : BitVec 7) (c : BitVec 2) (ea eb : Bool) (s : State) : Host.Outcome State Fault Refusal :=
  vpCompare .f32 pd a b c ea eb (fun a b => (b.getLsbD (fpClass a), 0)) s
/-- VTEST (R114): (A AND B) ≠ 0. -/
def execVtest (pd : BitVec 5) (a b : BitVec 7) (c : BitVec 2) (ea eb : Bool) (s : State) : Host.Outcome State Fault Refusal :=
  vpCompare .int pd a b c ea eb (fun a b => (a &&& b != 0, 0)) s
/-- PAND (R115). -/
def execPand (pd pa pb : BitVec 5) (c : BitVec 2) (s : State) : Host.Outcome State Fault Refusal :=
  vpLogic pd c (fun n => n.pred pa.toNat && n.pred pb.toNat) s
/-- POR (R115). -/
def execPor (pd pa pb : BitVec 5) (c : BitVec 2) (s : State) : Host.Outcome State Fault Refusal :=
  vpLogic pd c (fun n => n.pred pa.toNat || n.pred pb.toNat) s
/-- PXOR (R115). -/
def execPxor (pd pa pb : BitVec 5) (c : BitVec 2) (s : State) : Host.Outcome State Fault Refusal :=
  vpLogic pd c (fun n => n.pred pa.toNat != n.pred pb.toNat) s
/-- PANDN (R115). -/
def execPandn (pd pa pb : BitVec 5) (c : BitVec 2) (s : State) : Host.Outcome State Fault Refusal :=
  vpLogic pd c (fun n => n.pred pa.toNat && !n.pred pb.toNat) s
/-- PNOT (R115). -/
def execPnot (pd pa : BitVec 5) (c : BitVec 2) (s : State) : Host.Outcome State Fault Refusal :=
  vpLogic pd c (fun n => !n.pred pa.toNat) s
/-- PMOV (R115). -/
def execPmov (pd pa : BitVec 5) (c : BitVec 2) (s : State) : Host.Outcome State Fault Refusal :=
  vpLogic pd c (fun n => n.pred pa.toNat) s
/-- PSET (R115). -/
def execPset (pd : BitVec 5) (c : BitVec 2) (s : State) : Host.Outcome State Fault Refusal :=
  vpLogic pd c (fun _ => true) s
/-- PCLR (R115). -/
def execPclr (pd : BitVec 5) (c : BitVec 2) (s : State) : Host.Outcome State Fault Refusal :=
  vpLogic pd c (fun _ => false) s

end Sys2Proof.Machine
end

