-- ==== Sys2Proof/Machine/Scalar.lean ====
section
/-! DEFINITION. Scalar arithmetic (04, R85, R86), special-register moves (R89, R13, R14), election, time and NOP (R98, R100, R103). A scalar word
executes once for its group (R83). -/
namespace Sys2Proof.Machine

/-- A register scalar operation (R85): the sources are read before the destination is written. -/
def scalarBinary (sd sa sb : BitVec 5) (f : Word → Word → Word) (s : State) : Host.Outcome State Fault Refusal :=
  s.scalarWord [sreg sa, sreg sb] [sreg sd] 1 (·.onMe (fun g => g.setS sd.toNat (f (g.s sa.toNat) (g.s sb.toNat))))

/-- An immediate scalar operation (R86). -/
def scalarImm (sd sa : BitVec 5) (f : Word → Word) (s : State) : Host.Outcome State Fault Refusal :=
  s.scalarWord [sreg sa] [sreg sd] 1 (·.onMe (fun g => g.setS sd.toNat (f (g.s sa.toNat))))

/-- One or zero. -/
def boolWord (b : Bool) : Word := if b then 1 else 0

/-- SADD (R85): sd := sa + sb. -/
def execSadd (sd sa sb : BitVec 5) (s : State) : Host.Outcome State Fault Refusal := scalarBinary sd sa sb (fun a b => a + b) s
/-- SSUB (R85): sd := sa − sb. -/
def execSsub (sd sa sb : BitVec 5) (s : State) : Host.Outcome State Fault Refusal := scalarBinary sd sa sb (fun a b => a - b) s
/-- SMUL (R85): sd := low word of sa × sb. -/
def execSmul (sd sa sb : BitVec 5) (s : State) : Host.Outcome State Fault Refusal := scalarBinary sd sa sb (fun a b => a * b) s
/-- SMULHU (R85): sd := high word of the unsigned product. -/
def execSmulhu (sd sa sb : BitVec 5) (s : State) : Host.Outcome State Fault Refusal := scalarBinary sd sa sb (fun a b => mulHighU a b) s
/-- SAND (R85): sd := sa AND sb. -/
def execSand (sd sa sb : BitVec 5) (s : State) : Host.Outcome State Fault Refusal := scalarBinary sd sa sb (fun a b => a &&& b) s
/-- SOR (R85): sd := sa OR sb. -/
def execSor (sd sa sb : BitVec 5) (s : State) : Host.Outcome State Fault Refusal := scalarBinary sd sa sb (fun a b => a ||| b) s
/-- SXOR (R85): sd := sa XOR sb. -/
def execSxor (sd sa sb : BitVec 5) (s : State) : Host.Outcome State Fault Refusal := scalarBinary sd sa sb (fun a b => a ^^^ b) s
/-- SSHL (R85): sd := sa << sb[4:0]. -/
def execSshl (sd sa sb : BitVec 5) (s : State) : Host.Outcome State Fault Refusal := scalarBinary sd sa sb (fun a b => a <<< shamt b) s
/-- SSHR (R85): sd := sa >> sb[4:0], zeros. -/
def execSshr (sd sa sb : BitVec 5) (s : State) : Host.Outcome State Fault Refusal := scalarBinary sd sa sb (fun a b => a >>> shamt b) s
/-- SSAR (R85): sd := sa >> sb[4:0], sign. -/
def execSsar (sd sa sb : BitVec 5) (s : State) : Host.Outcome State Fault Refusal := scalarBinary sd sa sb (fun a b => a.sshiftRight (shamt b)) s
/-- SMIN (R85): sd := smaller, signed. -/
def execSmin (sd sa sb : BitVec 5) (s : State) : Host.Outcome State Fault Refusal := scalarBinary sd sa sb (fun a b => minS a b) s
/-- SMAX (R85): sd := larger, signed. -/
def execSmax (sd sa sb : BitVec 5) (s : State) : Host.Outcome State Fault Refusal := scalarBinary sd sa sb (fun a b => maxS a b) s
/-- SMINU (R85): sd := smaller, unsigned. -/
def execSminu (sd sa sb : BitVec 5) (s : State) : Host.Outcome State Fault Refusal := scalarBinary sd sa sb (fun a b => minU a b) s
/-- SMAXU (R85): sd := larger, unsigned. -/
def execSmaxu (sd sa sb : BitVec 5) (s : State) : Host.Outcome State Fault Refusal := scalarBinary sd sa sb (fun a b => maxU a b) s
/-- SSEQ (R85): sd := 1 if sa = sb. -/
def execSseq (sd sa sb : BitVec 5) (s : State) : Host.Outcome State Fault Refusal := scalarBinary sd sa sb (fun a b => boolWord (a == b)) s
/-- SSLT (R85): sd := 1 if sa < sb, signed. -/
def execSslt (sd sa sb : BitVec 5) (s : State) : Host.Outcome State Fault Refusal := scalarBinary sd sa sb (fun a b => boolWord (a.slt b)) s
/-- SSLTU (R85): sd := 1 if sa < sb, unsigned. -/
def execSsltu (sd sa sb : BitVec 5) (s : State) : Host.Outcome State Fault Refusal := scalarBinary sd sa sb (fun a b => boolWord (a.ult b)) s
/-- SADDI (R86): sd := sa + sext(imm). -/
def execSaddi (sd sa : BitVec 5) (imm : BitVec 13) (s : State) : Host.Outcome State Fault Refusal := scalarImm sd sa (fun a => a + imm.signExtend 32) s
/-- SANDI (R86): sd := sa AND imm. -/
def execSandi (sd sa : BitVec 5) (imm : BitVec 13) (s : State) : Host.Outcome State Fault Refusal := scalarImm sd sa (fun a => a &&& imm.zeroExtend 32) s
/-- SORI (R86): sd := sa OR imm. -/
def execSori (sd sa : BitVec 5) (imm : BitVec 13) (s : State) : Host.Outcome State Fault Refusal := scalarImm sd sa (fun a => a ||| imm.zeroExtend 32) s
/-- SXORI (R86): sd := sa XOR imm. -/
def execSxori (sd sa : BitVec 5) (imm : BitVec 13) (s : State) : Host.Outcome State Fault Refusal := scalarImm sd sa (fun a => a ^^^ imm.zeroExtend 32) s
/-- SSHLI (R86): sd := sa << imm. -/
def execSshli (sd sa : BitVec 5) (imm : BitVec 5) (s : State) : Host.Outcome State Fault Refusal := scalarImm sd sa (fun a => a <<< imm.toNat) s
/-- SSHRI (R86): sd := sa >> imm, zeros. -/
def execSshri (sd sa : BitVec 5) (imm : BitVec 5) (s : State) : Host.Outcome State Fault Refusal := scalarImm sd sa (fun a => a >>> imm.toNat) s
/-- SMOVI (R86): sd := sext(imm). -/
def execSmovi (sd : BitVec 5) (imm : BitVec 13) (s : State) : Host.Outcome State Fault Refusal :=
  s.scalarWord [] [sreg sd] 1 (·.onMe (fun g => g.setS sd.toNat (imm.signExtend 32)))
/-- SMOVHI (R86): sd := (sd << 13) OR imm; it reads sd. -/
def execSmovhi (sd : BitVec 5) (imm : BitVec 13) (s : State) : Host.Outcome State Fault Refusal :=
  s.scalarWord [sreg sd] [sreg sd] 1 (·.onMe (fun g => g.setS sd.toNat ((g.s sd.toNat <<< 13) ||| imm.zeroExtend 32)))

/-! ### Special registers -/

/-- RSTATUS (R296): zero while no level is open. -/
def Team.rstatus (t : Team) : Word :=
  match t.levels.getLast? with
  | none => 0
  | some lv => BitVec.ofNat 32 (lv.routine % 8 + lv.phase % 4 * 2 ^ 3 + (if lv.conv = 0 then 0 else 2 ^ 5)
      + lv.last % 256 * 2 ^ 8 + lv.fcode % 2 ^ 15 * 2 ^ 16)

/-- The energy class of a grid: FLAGS[5:3] of its record (R204, R313). -/
def Grid.energyClass (g : Grid) : Nat := g.record.flags.toNat / 2 ^ 3 % 8

/-- The special register of a number (R13). -/
def State.special (s : State) (n : Nat) : Word :=
  let g := s.me
  let t := s.myTeam
  let gr := s.gridOf g
  let sl := s.sliceOf g
  match n with
  | 0x00 => 64
  | 0x01 => sl.laneMap
  | 0x02 => BitVec.ofNat 32 g.run.passDiv
  | 0x03 => BitVec.ofNat 32 (passCount sl.laneMap g.run.passDiv)
  | 0x04 => BitVec.ofNat 32 g.gid
  | 0x05 => BitVec.ofNat 32 t.idX
  | 0x06 => BitVec.ofNat 32 t.idY
  | 0x07 => BitVec.ofNat 32 t.idZ
  | 0x08 => BitVec.ofNat 32 gr.record.teamX
  | 0x09 => BitVec.ofNat 32 gr.record.teamY
  | 0x0A => BitVec.ofNat 32 gr.record.teamZ
  | 0x0B => BitVec.ofNat 32 gr.record.gridX
  | 0x0C => BitVec.ofNat 32 gr.record.gridY
  | 0x0D => BitVec.ofNat 32 gr.record.gridZ
  | 0x0E => BitVec.ofNat 32 g.cluster
  | 0x0F => BitVec.ofNat 32 g.slice
  | 0x10 => BitVec.ofNat 32 gr.depth
  | 0x11 => g.progress
  | 0x12 => g.fpctl
  | 0x13 => g.trap.cause
  | 0x14 => g.trap.pc
  | 0x15 => g.trap.addr.truncate 32
  | 0x16 => (g.trap.addr >>> 32).truncate 32
  | 0x17 => g.trap.lanes.truncate 32
  | 0x18 => (g.trap.lanes >>> 32).truncate 32
  | 0x19 => BitVec.ofNat 32 t.rlevel
  | 0x1A => t.rstatus
  | 0x1B => BitVec.ofNat 32 gr.part
  | 0x1C => g.safeord
  | 0x1D => BitVec.ofNat 32 g.run.ratio
  | 0x1E => BitVec.ofNat 32 gr.energyClass
  | _ => (s.cluster g.cluster).actGen

/-- MOVSR (R89). -/
def execMovsr (sd : BitVec 5) (n : BitVec 6) (s : State) : Host.Outcome State Fault Refusal :=
  s.scalarWord [] [sreg sd] 1 (fun s => s.onMe (fun g => g.setS sd.toNat (s.special n.toNat)))

/-- MOVSW (R89, R14): FPCTL refuses a reserved value with cause 0x09, DETAIL 0 for MODE, else 3 (R399); PROGRESS stores at most 255, and the
write resets the watchdog (R350). Numbers that name another register are refused before the word issues (R13). -/
def execMovsw (ss : BitVec 5) (n : BitVec 6) (s : State) : Host.Outcome State Fault Refusal :=
  let v := s.me.s ss.toNat
  let gate := match s.me.gate [(sreg ss, false)] [] with
    | .go =>
      if n.toNat = 0x12 ∧ 6 ≤ v.toNat % 8 then Gate.trap 0x09 0
      else if n.toNat = 0x12 ∧ v.toNat / 2 ^ 3 % 32 ≠ 0 then Gate.trap 0x09 3
      else Gate.go
    | other => other
  let s' := if n.toNat = 0x12 then s.onMe (fun g => { g with fpctl := v })
    else (s.onMe (fun g => { g with progress := minU v 255 })).kick s.me.team
  .next (s.gated gate (s'.advance 1 1))

/-! ### Election, time, no operation -/

/-- ELECT (R100): true in the lowest active lane, false in the others. -/
def execElect (pd : BitVec 5) (s : State) : Host.Outcome State Fault Refusal :=
  let g := s.me
  let low := lowest g.run.act
  .next ((s.commit s.cur (g.mapLanes g.run.act (fun l n => n.setPred pd.toNat (l == low))) (Writes.on { preds := true } g.run.act)).advance 1 1)

/-- TSTAMP (R103): the reference count at the start of the slice cycle in which the word issues. -/
def execTstamp (sd : BitVec 5) (s : State) : Host.Outcome State Fault Refusal :=
  s.scalarWord [] [sreg sd, sreg sd + 1] 1 (fun s => s.onMe (fun g =>
    let at_ := (s.issueTime g.cluster g.slice).1 / 840
    (g.setS sd.toNat (BitVec.ofNat 32 at_)).setS (sd.toNat + 1) (BitVec.ofNat 32 (at_ / 2 ^ 32))))

/-- CYCLE (R103): the low word of the slice's cycle counter. -/
def execCycle (sd : BitVec 5) (s : State) : Host.Outcome State Fault Refusal :=
  s.scalarWord [] [sreg sd] 1 (fun s => s.onMe (fun g =>
    g.setS sd.toNat (BitVec.ofNat 32 (s.issueTime g.cluster g.slice).2)))

/-- NOP (R98). -/
def execNop (s : State) : Host.Outcome State Fault Refusal := s.scalarWord [] [] 1 id

end Sys2Proof.Machine
end

