-- ==== Sys2Proof/Machine/Sfu.lean ====
section
/-! DEFINITION. Words of the special-function unit (06, R136 to R140): reciprocals, roots and division correctly rounded; the approximate
functions within the accuracy the spec states, the distance from the nearest value free (log entry 11); the activation table. -/
namespace Sys2Proof.Machine

/-! ### Correctly rounded functions -/

/-- A result pattern and its flags from a sign, a ratio and a power of two, zero kept apart. -/
def ratioF32 (mode : RMode) (neg : Bool) (n d : Nat) (e : Int) : Rounded :=
  if n = 0 then ⟨f32.signed neg 0, 0⟩ else f32.roundRat mode 0 neg n d e

/-- The canonical NaN, invalid if asked (R46). -/
def nanF32 (invalid : Bool) : Rounded := ⟨f32.nanPat, flagIf invalid flagNV⟩
/-- An infinity with flags. -/
def infF32 (neg : Bool) (fl : FpFlags) : Rounded := ⟨f32.signed neg f32.infPat, fl⟩
/-- A zero. -/
def zeroF32 (neg : Bool) : Rounded := ⟨f32.signed neg 0, 0⟩

/-- The integer square root, built from bit `i` down: `r` so far. -/
def isqrt : Nat → Nat → Nat → Nat
  | 0, r, _ => r
  | i + 1, r, n => if (r + 2 ^ i) * (r + 2 ^ i) ≤ n then isqrt i (r + 2 ^ i) n else isqrt i r n

/-- The square root of (num / den) × 2^e, e even, with a last bit that says whether digits follow: numerator and exponent. -/
def rootOf (num den : Nat) (e : Int) : Nat × Int :=
  let n := num * 2 ^ 120 / den
  let r := isqrt 80 0 n
  (2 * r + (if r * r * den = num * 2 ^ 120 then 0 else 1), e / 2 - 61)

/-- VFRCP (R136, R137). -/
def rcpF32 (a : Word) : Rounded :=
  match asF32 a with
  | .nan s => nanF32 s
  | .inf neg => zeroF32 neg
  | .fin neg n e => if n = 0 then infF32 neg flagDZ else f32.roundRat .rne 0 neg 1 n (-e)

/-- VFRSQ (R136, R137). -/
def rsqF32 (a : Word) : Rounded :=
  match asF32 a with
  | .nan s => nanF32 s
  | .inf neg => if neg then nanF32 true else zeroF32 false
  | .fin neg n e =>
    if n = 0 then infF32 neg flagDZ
    else if neg then nanF32 true
    else
      let r := if e % 2 = 0 then rootOf 1 n (-e) else rootOf 1 (2 * n) (-(e - 1))
      f32.roundRat .rne 0 false r.1 1 r.2

/-- VFSQRT (R136, R137). -/
def sqrtF32 (mode : RMode) (r16 : Nat) (a : Word) : Rounded :=
  match asF32 a with
  | .nan s => nanF32 s
  | .inf neg => if neg then nanF32 true else infF32 false 0
  | .fin neg n e =>
    if n = 0 then zeroF32 neg
    else if neg then nanF32 true
    else
      let r := if e % 2 = 0 then rootOf n 1 e else rootOf (2 * n) 1 (e - 1)
      f32.roundRat mode r16 false r.1 1 r.2

/-- VFDIV (R137): IEEE 754 division. -/
def divF32 (mode : RMode) (r16 : Nat) (a b : Word) : Rounded :=
  let x := asF32 a
  let y := asF32 b
  match x, y with
  | .nan s, y => nanF32 (s || y.isSnan)
  | _, .nan s => nanF32 s
  | .inf _, .inf _ => nanF32 true
  | .inf p, .fin q _ _ => infF32 (p != q) 0
  | .fin p _ _, .inf q => zeroF32 (p != q)
  | .fin p n e, .fin q m e' =>
    if m = 0 then (if n = 0 then nanF32 true else infF32 (p != q) flagDZ)
    else if n = 0 then zeroF32 (p != q)
    else f32.roundRat mode r16 (p != q) n m (e - e')

/-! ### Approximate functions -/

/-- A reference value: an integer times 2^(−e), and whether it is the exact value of the function. -/
structure Ref where
  num   : Int
  e     : Nat
  exact : Bool
  deriving DecidableEq, Repr

/-- An F32 pattern's place in the order of values: the magnitude with the sign. -/
def ordOf (p : Nat) : Int := if p < 2 ^ 31 then p else -((p : Int) - 2 ^ 31)
/-- The pattern at a place in the order of values, held to the finite ones. -/
def patOf (i : Int) : Nat :=
  let m := min i.natAbs f32.maxPat
  if i < 0 then 2 ^ 31 + m else m

/-- |value of the pattern − reference| ≤ b × 2^(−k). -/
def withinAbs (p : Nat) (r : Ref) (b k : Nat) : Bool :=
  match f32.value p with
  | .fin neg n e =>
    let d := finSum (signedInt neg n) e (-r.num) (-(r.e : Int))
    decide ((finSum (d.1.natAbs : Int) d.2 (-(b : Int)) (-(k : Int))).1 ≤ 0)
  | _ => false

/-- |value of the pattern − reference| ≤ 2 units in the last place of the reference's binade (R136). -/
def withinUlp (p : Nat) (r : Ref) : Bool :=
  let top : Int := (Nat.log2 r.num.natAbs : Int) - r.e
  let u : Int := (if top < -126 then -126 else top) - 23
  if u ≤ 0 then withinAbs p r 2 (-u).toNat else withinAbs p r (2 * 2 ^ u.toNat) 0

/-- The result nearest to a reference. -/
def nearest (r : Ref) : Nat := (ratioF32 .rne (decide (r.num < 0)) r.num.natAbs 1 (-(r.e : Int))).bits

/-- An approximate result: the exact value where the reference is exact; else the pattern at the free distance from the nearest one, if
that lies within the accuracy stated, and the nearest one otherwise. -/
def approx (op : Nat) (a : Word) (r : Ref) (ok : Nat → Bool) : Nat :=
  if r.exact then nearest r
  else
    let p := patOf (ordOf (nearest r) + Config.sfuOffset op a)
    if ok p then p else nearest r

/-- ln 2 in units of 2^(−160). -/
def ln2Fixed : Nat := 0xb17217f7d1cf79abc9e3b39803f2f6af40f34326
/-- 2π in units of 2^(−256). -/
def twoPiFixed : Nat := 0x6487ed5110b4611a62633145c06e0e68948127044533e63a0105df531d89cd912

/-- Terms of the exponential series in units of 2^(−160): `t` the last term, `k` its number. -/
def expSeries (y : Nat) : Nat → Nat → Nat → Nat
  | 0, _, _ => 0
  | fuel + 1, t, k => t + expSeries y fuel (t * y / 2 ^ 160 / (k + 1)) (k + 1)

/-- 2^(i + f) for a finite value, as a reference: 2^f by the series, f in units of 2^(−160). -/
def exp2Ref (neg : Bool) (n : Nat) (e : Int) : Ref :=
  -- the value in units of 2^(−160), and whether it is an integer
  let v := finSum (signedInt neg n) e 0 (-160)
  let fx : Int := v.1 / (2 : Int) ^ (-160 - v.2).toNat
  let i : Int := fx / 2 ^ 160
  let f : Nat := (fx % 2 ^ 160).toNat
  let whole := decide (v.1 % (2 : Int) ^ (-v.2).toNat = 0)
  let y := f * ln2Fixed / 2 ^ 160
  let m := expSeries y 60 (2 ^ 160) 0
  if whole then (if 0 ≤ i then ⟨2 ^ i.toNat, 0, true⟩ else ⟨1, (-i).toNat, true⟩)
  else if 0 ≤ i then ⟨m * 2 ^ i.toNat, 160, false⟩ else ⟨m, 160 + (-i).toNat, false⟩

/-- VFEXP2 (R136, R137). -/
def exp2F32 (a : Word) : Rounded :=
  match asF32 a with
  | .nan s => nanF32 s
  | .inf neg => if neg then zeroF32 false else infF32 false 0
  | .fin neg n e =>
    -- beyond these the result leaves the range of F32 whatever the fraction
    if !neg && decide (128 * 2 ^ (-e).toNat ≤ n * 2 ^ e.toNat) then infF32 false (flagOF ||| flagNX)
    else if neg && decide (200 * 2 ^ (-e).toNat ≤ n * 2 ^ e.toNat) then
      ⟨approx 0x13 a ⟨1, 200, false⟩ (fun p => withinUlp p ⟨1, 200, false⟩), flagUF ||| flagNX⟩
    else
      let r := exp2Ref neg n e
      -- an exact power of two below the smallest subnormal is rounded like any other result
      let exact := r.exact && decide (r.e ≤ 149)
      let r := { r with exact := exact }
      let p := approx 0x13 a r (fun p => withinUlp p r)
      ⟨p, if exact then 0 else flagNX ||| flagIf (decide (p % 2 ^ 31 < 2 ^ 23)) flagUF⟩

/-- The binary digits of log2 of x in [1, 2), x in units of 2^(−192), as an integer of `fuel` bits. -/
def log2Digits : Nat → Nat → Nat → Nat
  | 0, _, acc => acc
  | fuel + 1, x, acc =>
    let y := x * x / 2 ^ 192
    if 2 ^ 193 ≤ y then log2Digits fuel (y / 2) (2 * acc + 1) else log2Digits fuel y (2 * acc)

/-- log2 of n × 2^e as a reference with 80 digits after the point. -/
def log2Ref (n : Nat) (e : Int) : Ref :=
  let k := Nat.log2 n
  if n = 2 ^ k then ⟨(k : Int) + e, 0, true⟩
  else ⟨((k : Int) + e) * 2 ^ 80 + (log2Digits 80 (n * 2 ^ (192 - k)) 0 : Nat), 80, false⟩

/-- VFLOG2 (R136, R137): within 2 ulp, or 2^(−22) for A in [0.5, 2]. -/
def log2F32 (a : Word) : Rounded :=
  match asF32 a with
  | .nan s => nanF32 s
  | .inf neg => if neg then nanF32 true else infF32 false 0
  | .fin neg n e =>
    if n = 0 then infF32 true flagDZ
    else if neg then nanF32 true
    else
      let r := log2Ref n e
      let near := decide (0x3F000000 ≤ a.toNat ∧ a.toNat ≤ 0x40000000)
      ⟨approx 0x14 a r (fun p => withinUlp p r || (near && withinAbs p r 1 22)), flagIf (!r.exact) flagNX⟩

/-- Terms of the sine and cosine series in units of 2^(−160), signs alternating: `t` the last term, `k` the power in it. -/
def trigSeries (y : Nat) : Nat → Nat → Nat → Int
  | 0, _, _ => 0
  | fuel + 1, t, k => (t : Int) - trigSeries y fuel (t * y / 2 ^ 160 * y / 2 ^ 160 / ((k + 1) * (k + 2))) (k + 2)

/-- sin or cos of ±n × 2^e as a reference: the argument reduced modulo 2π in units of 2^(−256), the series in units of 2^(−160). -/
def trigRef (cos neg : Bool) (n : Nat) (e : Int) : Ref :=
  let x := n * 2 ^ (e + 256).toNat / 2 ^ (-(e + 256)).toNat % twoPiFixed / 2 ^ 96
  let v := if cos then trigSeries x 60 (2 ^ 160) 0 else trigSeries x 60 x 1
  ⟨if neg && !cos then -v else v, 160, false⟩

/-- VFSIN and VFCOS (R136, R137): within 2^(−21). -/
def trigF32 (op : Nat) (cos : Bool) (a : Word) : Rounded :=
  match asF32 a with
  | .nan s => nanF32 s
  | .inf _ => nanF32 true
  | .fin neg n e =>
    if n = 0 then (if cos then ⟨0x3F800000, 0⟩ else zeroF32 neg)
    else
      let r := trigRef cos neg n e
      ⟨approx op a r (fun p => withinAbs p r 1 21), flagNX⟩

/-! ### The words -/

/-- An SFU word (R136): the flags of a result are joined when the word issues, D is empty in the lanes whose guard holds until SFU_RESULT
writes it; `bank` is the activation bank a VACT has latched. -/
def State.sfuWord (s : State) (gt : Gate) (d : BitVec 7) (pg : BitVec 5) (neg : Bool) (cost : Nat) (bank : Option Nat)
    (f : Group → Nat → Rounded) : Host.Outcome State Fault Refusal :=
  let g := s.me
  let ls := (lanesIn g.run.act).filter (guarded pg neg g)
  let rs := ls.map (fun l => (l, f g l))
  let g1 := rs.foldl (fun g p => g.onLane p.1 (fun n => (n.emptyReg d.toNat).orFlags p.2.flags)) g
  let s1 := s.commit s.cur g1 (fun l => { regs := if ls.contains l then destRegs d else [], flags := rs.any (fun p => p.1 == l && p.2.flags != 0) })
  let s2 := if ls.isEmpty then s1 else
    { s1 with
      producers := FMap.put s1.producers s1.fresh
        { kind := .sfu, group := s.cur, dests := rs.map (fun p => (p.1, d.toNat, BitVec.ofNat 32 p.2.bits)), bank := bank }
      fresh := s1.fresh + 1 }
  .next (s.gated gt (s2.advance 2 cost))

/-- A one-source SFU word. -/
def sfuUnary (d a : BitVec 7) (ea : Bool) (pg : BitVec 5) (neg : Bool) (slow : Nat) (f : Group → Nat → Word → Rounded) (s : State) :
    Host.Outcome State Fault Refusal :=
  s.sfuWord (s.me.gate [(a.toNat, ea)] (destRegs d)) d pg neg (slow * s.pa s.me) none (fun g l => f g l (g.src .f32 l a.toNat))

/-- VFRCP (R136). -/
def execVfrcp (d a : BitVec 7) (ea : Bool) (pg : BitVec 5) (neg : Bool) (s : State) : Host.Outcome State Fault Refusal :=
  sfuUnary d a ea pg neg 1 (fun _ _ x => rcpF32 x) s
/-- VFRSQ (R136). -/
def execVfrsq (d a : BitVec 7) (ea : Bool) (pg : BitVec 5) (neg : Bool) (s : State) : Host.Outcome State Fault Refusal :=
  sfuUnary d a ea pg neg 1 (fun _ _ x => rsqF32 x) s
/-- VFSQRT (R136), 4 slice cycles a pass. -/
def execVfsqrt (d a : BitVec 7) (ea : Bool) (pg : BitVec 5) (neg : Bool) (rm : BitVec 3) (s : State) : Host.Outcome State Fault Refusal :=
  sfuUnary d a ea pg neg 4 (fun g l x => sqrtF32 (RMode.ofCode rm.toNat) (r16Of g.fpKey x l 0) x) s
/-- VFEXP2 (R136). -/
def execVfexp2 (d a : BitVec 7) (ea : Bool) (pg : BitVec 5) (neg : Bool) (s : State) : Host.Outcome State Fault Refusal :=
  sfuUnary d a ea pg neg 1 (fun _ _ x => exp2F32 x) s
/-- VFLOG2 (R136). -/
def execVflog2 (d a : BitVec 7) (ea : Bool) (pg : BitVec 5) (neg : Bool) (s : State) : Host.Outcome State Fault Refusal :=
  sfuUnary d a ea pg neg 1 (fun _ _ x => log2F32 x) s
/-- VFSIN (R136). -/
def execVfsin (d a : BitVec 7) (ea : Bool) (pg : BitVec 5) (neg : Bool) (s : State) : Host.Outcome State Fault Refusal :=
  sfuUnary d a ea pg neg 1 (fun _ _ x => trigF32 0x15 false x) s
/-- VFCOS (R136). -/
def execVfcos (d a : BitVec 7) (ea : Bool) (pg : BitVec 5) (neg : Bool) (s : State) : Host.Outcome State Fault Refusal :=
  sfuUnary d a ea pg neg 1 (fun _ _ x => trigF32 0x16 true x) s
/-- VFDIV (R136), 4 slice cycles a pass. -/
def execVfdiv (d a b : BitVec 7) (ea eb : Bool) (pg : BitVec 5) (neg : Bool) (rm : BitVec 3) (s : State) :
    Host.Outcome State Fault Refusal :=
  s.sfuWord (s.me.gate [(a.toNat, ea), (b.toNat, eb)] (destRegs d)) d pg neg (4 * s.pa s.me) none (fun g l =>
    let x := g.src .f32 l a.toNat
    divF32 (RMode.ofCode rm.toNat) (r16Of g.fpKey x l 0) x (g.src .f32 l b.toNat))

/-! ### The activation table -/

/-- The F32 word at a byte offset of a bank of the activation table (R138). -/
def Cluster.actWord (c : Cluster) (bank off : Nat) : Word :=
  readWord (Mem.readBytes c.actBytes (bank * 4096 + off) 4) 0

/-- VACT's value (R138): the segment of A in the table of a bank, two fused steps, each rounded once. A NaN on the way makes every later
step a NaN, whichever segment is read. -/
def Cluster.activate (c : Cluster) (bank : Nat) (a : Word) : Rounded :=
  let rne (x : FVal × FpFlags) : FVal := f32.value (f32.round .rne 0 x.1).bits
  match asF32 a with
  | .nan s => nanF32 s
  | .inf neg => ⟨(c.actWord bank (if neg then 8 else 12)).toNat, 0⟩
  | x =>
    let u := rne ((rne (x.add .rne (asF32 (c.actWord bank 0)).neg)).mul (asF32 (c.actWord bank 4)))
    let i : Nat :=
      match u with
      | .nan _ => 0
      | .inf neg => if neg then 0 else 255
      | .fin neg n e => (clampInt (0, 255) (roundToInt .rd 0 neg n e).1).toNat
    let f := (u.add .rne (FVal.ofInt (-(i : Int)))).1
    let co (k : Nat) : FVal := asF32 (c.actWord bank (16 + 12 * i + 4 * k))
    ⟨(f32.round .rne 0 (((rne ((co 2).fma .rne f (co 1))).fma .rne f (co 0)).1)).bits, 0⟩

/-- VACT (R138 to R140): the current bank is latched at issue; a team that does not hold the banks raises cause 0x86, DETAIL 2. -/
def execVact (d a : BitVec 7) (ea : Bool) (pg : BitVec 5) (neg : Bool) (s : State) : Host.Outcome State Fault Refusal :=
  let g := s.me
  let c := s.cluster g.cluster
  let gate := match g.gate [(a.toNat, ea)] (destRegs d) with
    | .go => if s.myTeam.act then Gate.go else Gate.trap 0x86 2
    | other => other
  s.sfuWord gate d pg neg (s.pa g) (some c.actBank) (fun g l => c.activate c.actBank (g.src .f32 l a.toNat))

end Sys2Proof.Machine
end

