-- ==== Sys2Proof/Machine/System.lean ====
section
/-! DEFINITION. Reliability, partitions, host and fabric (27): the scrubber, error counters, cluster assignment, host windows, the fabric as others reach this
module, key revocation, resets, and the control space as the host reads and writes it. -/
namespace Sys2Proof.Machine

/-! ### Memory codes and the scrubber (R385, R386, R388) -/

/-- SCRUB_LINE (R385, R386): a half-line is checked in which `errors` symbols are wrong. As many as the bank's code corrects are corrected and counted
in the bank's window, which begins at a multiple of 2^36 ticks (DESIGN CHOICE, log entry 77); more poison the half-line. -/
def execScrubLine (line half errors bank part : Nat) (s : State) : Host.Outcome State Fault Refusal :=
  let m := s.module
  let strong := FMap.has m.strong bank
  let s := if m.scrubEn && errors != 0 then { s with dramErr := FMap.del s.dramErr (2 * line + half % 2) } else s
  .next (if !m.scrubEn || errors = 0 then s
    else if errors ≤ (if strong then 2 else 1) then
      let began := s.tick / 2 ^ 36 * 2 ^ 36
      let n := (if FMap.at 0 m.window bank = began then FMap.at 0 m.corrected bank else 0) + 1
      (s.countErr part 0 1).onModule (fun m => { m with
        corrBank := FMap.put m.corrBank bank (FMap.at 0 m.corrBank bank + 1)
        corrected := FMap.put m.corrected bank n, window := FMap.put m.window bank began
        bankQueue := if m.scrubThresh ≠ 0 ∧ m.scrubThresh ≤ n ∧ !strong ∧ !m.bankQueue.contains bank then m.bankQueue ++ [bank] else m.bankQueue })
    else { s with poison := (List.range 16).foldl (fun p i => FMap.put p (line * 32 + half % 2 * 16 + i) ()) s.poison })

/-- SCRUB_WINDOW_EXPIRY (R386): 2^36 ticks after a bank's window began another begins with a count of 0. -/
def execScrubWindowExpiry (bank : Nat) (s : State) : Host.Outcome State Fault Refusal :=
  .next (if FMap.at 0 s.module.window bank + 2 ^ 36 ≤ s.tick then
    s.onModule (fun m => { m with corrected := FMap.del m.corrected bank, window := FMap.put m.window bank (s.tick / 2 ^ 36 * 2 ^ 36) })
    else s)

/-- BANK_REENCODE (R386): the bank queued first has been rewritten under the strong code; no value changes. -/
def execBankReencode (bank : Nat) (s : State) : Host.Outcome State Fault Refusal :=
  .next (if s.module.scrubEn && s.module.bankQueue.head? == some bank then
    (s.onModule (fun m => { m with bankQueue := m.bankQueue.drop 1, strong := FMap.put m.strong bank () })).signal 2
    else s)

/-- ERRCTL_CLR (R388). -/
def execErrctlClr (part : Nat) (s : State) : Host.Outcome State Fault Refusal := .next (s.onPart part (fun p => { p with errcnt := [] }))

/-! ### Partitions (R389) -/

/-- CLASSIGN_WRITE (R389): held until no team is resident on the cluster; a second write replaces one that is held. -/
def execClassignWrite (cl : Nat) (value : BitVec 64) (s : State) : Host.Outcome State Fault Refusal :=
  .next (if cl < 160 then ((s.onCluster cl (fun c => { c with held := some value })).applyAssign cl) else s)

/-! ### Host windows (R227, R394) -/

/-- The partition, the window and the offset in it that a place of BAR2 belongs to: window i of partition p begins at 64 GiB × (8p + i), and the BAR ends at 4 TiB
(R390). -/
def barPlace (part win off : Nat) : Option (Nat × Nat × Nat) :=
  let a := 2 ^ 36 * (8 * part + win) + off
  if a < 2 ^ 42 then some (a / 2 ^ 39, a / 2 ^ 36 % 8, a % 2 ^ 36) else none

/-- HOST_WINDOW_READ (R227, R246, R394): answered, with whether a byte was poisoned, once the accesses that arrived before it have been performed; one outside
the window is counted and answered with nothing, and so is one past the BAR, which no partition counts. -/
def execHostWindowRead (part win off len : Nat) (s : State) : Host.Outcome State Fault Refusal :=
  .next (match barPlace part win off with
    | none => { s with hostRead := ([], false) }
    | some (p, i, o) =>
      match windowAddr (s.part p).hwin i o len with
      | none => { s.countErr p 3 1 with hostRead := ([], false) }
      | some a => (s.arriveOutside { num := 0, port := none, part := p, kind := 0, addr := a, len := len }).settleAll)

/-- HOST_WINDOW_WRITE (R227, R394): performed in the order of arrival; one outside the window is discarded and counted. -/
def execHostWindowWrite (part win off : Nat) (bytes : List (BitVec 8)) (s : State) : Host.Outcome State Fault Refusal :=
  .next (match barPlace part win off with
    | none => s
    | some (p, i, o) =>
      match windowAddr (s.part p).hwin i o bytes.length with
      | none => s.countErr p 3 1
      | some a => (s.arriveOutside { num := 0, port := none, part := p, kind := 1, addr := a, len := bytes.length, data := bytes }).settleAll)

/-! ### The fabric (R395 to R397) -/

/-- A packet is for a collective that has ended here: it is dropped (R266). -/
def State.packetLate (s : State) (x : Packet) : Bool :=
  let m : CommRec := { size := 0, rank := 0, members := x.members, key := x.key, fan := 0 }
  decide (x.kind ≠ 2 ∧ (s.collsOf x.part m + 2 ^ 32 - x.seq - 1) % 2 ^ 32 < 2 ^ 31) &&
  s.commands.all (fun (_, c) => !(c.op == 0x08 && c.part == x.part && (commOf c.src).members == x.members && (commOf c.src).key == x.key &&
    c.seq % 2 ^ 32 == x.seq))

/-- FABRIC_ACCESS (R266, R267, R395, R396): a flit of another module is served through FWIN of the partition whose key it carries, or dropped and counted by
the partitions that bear the key (DESIGN CHOICE, log entry 80); a packet of a collective is kept for the command that needs it and counted as received, a PHASEEND's notice only
kept. The spec gives the flit no layout: here bytes 0 and 1 the
key, 2 what it is (0 load, 1 store, 2 atomic, 3 packet), 3 the atomic's opcode or the kind of packet, 4 the length, 8 to 15 the address or MEMBERS,
from 16 on the data, which begin in a packet with its relabelled rank and the number of its collective, in 4 bytes each (DESIGN CHOICE, log entry 15). -/
def execFabricAccess (port : Nat) (flit : List (BitVec 8)) (s : State) : Host.Outcome State Fault Refusal :=
  let addr := fieldAt flit 8 8
  let len := fieldAt flit 4 1
  let kind := fieldAt flit 2 1
  let key := fieldAt flit 0 2
  .next (if 18 ≤ port then s
    else
    let s := s.onModule (fun m => { m with flitsIn := FMap.put m.flitsIn port (FMap.at 0 m.flitsIn port + 1) })
    match s.keyHolder key with
    | none => { (if 3 ≤ kind then s else (s.keyHolders key).foldl (fun s p => s.countErr p 3 1) s) with fabricRead := (List.replicate len 0, true) }
    | some p =>
      let s := s.flit p 1
      if 3 ≤ kind then
        let x : Packet := { part := p, members := addr, key := key, kind := fieldAt flit 3 1, rank := fieldAt flit 16 4, seq := fieldAt flit 20 4
                            data := flit.drop 24 }
        { s with fabric := if s.packetLate x then s.fabric else s.fabric ++ [x] }.onPart p (fun q =>
          { q with received := if x.kind = 2 then q.received else q.received + 1 })
      else
        match windowAddr (s.part p).fwin (addr / 2 ^ 35 % 8) (addr % 2 ^ 35) len with
        | none => { s.countErr p 3 1 with fabricRead := (List.replicate len 0, true) }
        | some a =>
          let data := if kind = 1 then (flit.drop 16).take len else flit.drop 16
          (s.arriveOutside { num := 0, port := some port, part := p, kind := kind, op := fieldAt flit 3 1, addr := a, len := len, data := data }).settleAll)

/-- KEY_REVOCATION (R397): FENCESTAT, every group of the partition ended with cause 0xB0, its host queues disabled. -/
def execKeyRevocation (part : Nat) (s : State) : Host.Outcome State Fault Refusal :=
  let off (q : HostQueue) : HostQueue := if q.part = part then { q with ctl := q.ctl &&& ~~~(0x80#64) } else q
  let s := s.onPart part (fun p => { p with fenced := true })
  .next (({ s with queues := FMap.mapVals (fun _ q => off q) s.queues }.signal 3).endTeams (fun p => p == part) 0xB0)

/-- FABRIC_LINK_FAILURE (R260, R267): a member module no longer answers. -/
def execFabricLinkFailure (member : Nat) (s : State) : Host.Outcome State Fault Refusal := .next { s with down := FMap.put s.down member () }

/-- FLIT_LINK_CHECK_FAILURE (R365, R395): the link retries the flit and counts it in 16 bits, and in 32 for the sampler. -/
def execFlitLinkCheckFailure (port : Nat) (s : State) : Host.Outcome State Fault Refusal :=
  .next (if port < 18 then s.onModule (fun m => { m with
    portstat := FMap.put m.portstat port ((FMap.at 0 m.portstat port + 1) % 2 ^ 16), retries := FMap.put m.retries port (FMap.at 0 m.retries port + 1) }) else s)

/-! ### Resets (R398) -/

/-- What lies outside the module, the reference counter and the model's own lists, kept by a reset. -/
def State.keepOutside (s t : State) : State :=
  { t with
    time := s.time, hostMem := s.hostMem, hostErr := s.hostErr, remote := s.remote, remoteWin := s.remoteWin, down := s.down
    rails := s.rails, errors := s.errors, agenda := s.agenda, fresh := s.fresh }

/-- The clusters after a reset: of the slices that are listed what `f` keeps, of every other its fuses, and the cycle counters from now on (R13, R398). -/
def State.resetClusters (s : State) (f : Slice → Slice) (g : Cluster → Cluster) : FMap Cluster :=
  (List.range 160).map (fun k => (k, { g (s.cluster k) with
    slices := (List.range 6).map (fun i => (i, { f ((s.cluster k).slice i) with cycleTime := s.time })) }))

/-- COLD_RESET (R384, R398): bring-up begins, BOOTSTAT reading 0. What its steps do to the state is done at once, since nothing can look before the control space
shows it (DESIGN CHOICE, log entry 86); GEN rises by one. The fuses stay as they are. -/
def execColdReset (s : State) : Host.Outcome State Fault Refusal :=
  let t := s.keepOutside State.reset
  .next ({ t with clusters := s.resetClusters (fun x => { laneMap := x.laneMap }) (fun _ => {}) }.onModule (fun m => { m with
    bootstat := 0, gen := (s.module.gen + 1) % 2 ^ 32, idleFloor := s.module.idleFloor, serial := s.module.serial, ctlLast := s.tick / 2 ^ 16 * 2 ^ 16 }))

/-- What a warm reset keeps of a partition (R384, R398): its registers but PARTCFG, and the always-on domain. -/
def Partition.warm (p : Partition) : Partition :=
  { p with partcfg := 0, slotsUsed := [], stopped := [], goWait := none, fenced := false, reservation := none, tlbinvn := 0 }

/-- What a warm reset keeps of a slice: its settings and the counts since cold reset. -/
def Slice.warm (x : Slice) : Slice :=
  { laneMap := x.laneMap, droopThr := x.droopThr, stretchN := x.stretchN, halveN := x.halveN, sliceMax := x.sliceMax
    alarms := x.alarms, replays := x.replays, busy := x.busy, stalls := x.stalls }

/-- WARM_RESET (R384, R398): bring-up is at step 3 again, and the energy of the interval goes to house. Device memory with its poison and codes and the always-on domain stay; teams are discarded; LQCTL.EN,
FENCESTAT, CLASSIGN and PARTCFG return to their reset values. -/
def execWarmReset (s : State) : Host.Outcome State Fault Refusal :=
  .next { s.keepOutside State.reset with
    mem := s.mem
    poison := s.poison
    dramErr := s.dramErr
    clusters := s.resetClusters (fun x => x.warm) (fun c => { (({} : Cluster)) with engBusy := c.engBusy, l1Hits := c.l1Hits, l1Misses := c.l1Misses })
    dies := FMap.mapVals (fun _ (d : Die) => { (({} : Die)) with gates := d.gates }) s.dies
    llc := FMap.mapVals (fun _ (x : LlcSlice) => { (({} : LlcSlice)) with reqs := x.reqs, misses := x.misses, moves := x.moves, moved := x.moved }) s.llc
    parts := FMap.mapVals (fun _ (p : Partition) => p.warm) s.parts
    queues := FMap.mapVals (fun _ (q : HostQueue) => { q with ctl := q.ctl &&& ~~~(0x80#64), lastGrid := none }) s.queues
    module := { s.module with sigData := none, bootstat := 3, houseAll := true } }

/-- The next step of bring-up completes, or BOOTSTAT shows a failure code and bring-up stops (R398). -/
def State.bootStep (s : State) : State :=
  let k := s.module.bootstat % 16 + 1
  let bad := Config.bootFailure s.fresh k
  { s with time := s.time + 840, fresh := s.fresh + 1 }.onModule (fun m => { m with
    bootstat := if bad = 0 then k else m.bootstat % 16 + bad.toNat * 2 ^ 16 })

/-- Bring-up goes on. -/
def State.booting (s : State) : Bool := decide (s.module.bootstat < 6)

/-! ### Writing the control space (R391) -/

/-- The page of a partition: number and offset in it (R391). -/
def pageOf (off : Nat) : Option (Nat × Nat) :=
  if 0x1000000 ≤ off ∧ off < 0x1000000 + 8 * 0x100000 then some ((off - 0x1000000) / 0x100000, off % 0x100000) else none

/-- OBJS of PARTCFG. -/
def objShare (v : DWord) : Nat := v.toNat / 2 ^ 17 % 2 ^ 14
/-- CONVS of PARTCFG. -/
def convShare (v : DWord) : Nat := v.toNat / 2 ^ 31 % 2 ^ 10

/-- A write of PARTCFG is ignored where it raises a share past its limit (R389). -/
def State.shareOk (s : State) (p : Nat) (v : DWord) : Bool :=
  let sum (f : DWord → Nat) : Nat := ((List.range 8).map (fun q => f (if q = p then v else (s.part q).partcfg))).sum
  (decide (objShare v ≤ objShare (s.part p).partcfg) || decide (sum objShare ≤ 8192)) &&
  (decide (convShare v ≤ convShare (s.part p).partcfg) || decide (sum convShare ≤ 512))

/-- A base or pointer register of a ring written (R364): HEAD and SIZE of a pointer are writable, TAIL is not. -/
def Ring.setBase (r : Ring) (v : DWord) : Ring := { r with base := v }
/-- HEAD and SIZE of a ring's pointer register written. -/
def Ring.setPtr (r : Ring) (v : DWord) : Ring := { r with head := v.toNat % 2 ^ 16, size := v.toNat / 2 ^ 32 % 2 ^ 16 }

/-- What a window's register keeps (R394): PA[55:16] of its base, SIZE in bits 19 to 0 of the word after it. -/
def winField (i : Nat) (v : DWord) : DWord :=
  if i % 2 = 0 then BitVec.ofNat 64 (v.toNat / 2 ^ 16 % 2 ^ 40 * 2 ^ 16) else BitVec.ofNat 64 (v.toNat % 2 ^ 20)

/-- A register of a partition page written (R391); one that no register with a stored field occupies leaves the partition as it is. -/
def State.writePage (s : State) (p o : Nat) (v : DWord) : State :=
  let n := v.toNat
  let word : Word := BitVec.ofNat 32 n
  let on (f : Partition → Partition) : State := s.onPart p f
  if o = 0x0 then (if s.shareOk p v then on (fun q => { q with partcfg := BitVec.ofNat 64 (n % 2 ^ 41) }) else s)
  else if o = 0x8 then on (fun q => { q with savebase := v })
  else if o = 0x10 then on (fun q => { q with wdlimit := word })
  else if o = 0x18 then on (fun q => { q with pfloor := BitVec.ofNat 64 (n % 2 ^ 24) })
  else if o = 0x24 then on (fun q => { q with prallow := BitVec.ofNat 64 (n % 2 ^ 32) })
  else if o = 0x48 then on (fun q => { q with haltlim := word })
  else if o = 0x4C then on (fun q => { q with dumpEn := v.getLsbD 0, dumpHold := n / 2 ^ 8 % 2 ^ 24 })
  else if 0x100 ≤ o ∧ o < 0x200 ∧ o % 16 = 0 then on (fun q => { q with bpaddr := FMap.put q.bpaddr ((o - 0x100) / 16) v })
  else if 0x100 ≤ o ∧ o < 0x200 ∧ o % 16 = 8 then on (fun q => { q with bpctl := FMap.put q.bpctl ((o - 0x100) / 16) (BitVec.ofNat 32 (n % 2 ^ 20)) })
  else if o = 0x200 then on (fun q => { q with rl := q.rl.setBase v })
  else if o = 0x208 then on (fun q => { q with rl := q.rl.setPtr v })
  else if o = 0x210 then on (fun q => { q with noreplay := q.noreplay && !v.getLsbD 0 })
  else if o = 0x220 then on (fun q => { q with jr := q.jr.setBase v })
  else if o = 0x228 then on (fun q => { q with jr := q.jr.setPtr v })
  else if o = 0x300 then on (fun q => { q with pfq := q.pfq.setBase v })
  else if o = 0x308 then on (fun q => { q with pfq := q.pfq.setPtr v })
  else if o = 0x318 then on (fun q => { q with tlbinva := winField 0 v })
  else if 0x400 ≤ o ∧ o < 0x480 ∧ o % 8 = 0 then on (fun q => { q with hwin := FMap.put q.hwin ((o - 0x400) / 8) (winField ((o - 0x400) / 8) v) })
  else if 0x500 ≤ o ∧ o < 0x580 ∧ o % 8 = 0 then on (fun q => { q with fwin := FMap.put q.fwin ((o - 0x500) / 8) (winField ((o - 0x500) / 8) v) })
  else s

/-- SLICECFG written (R377). -/
def Slice.setCfg (x : Slice) (n : Nat) : Slice :=
  { x with droopThr := n % 2 ^ 8, stretchN := n / 2 ^ 8 % 2 ^ 4, halveN := n / 2 ^ 12 % 2 ^ 8, sliceMax := max 2 (min 8 (n / 2 ^ 20 % 2 ^ 4)) }

/-- FENCESTAT bits written with 1 clear for partitions that hold no resident team (R397). -/
def State.clearFences (s : State) (n : Nat) : State :=
  let clear (p : Nat) : Bool := n / 2 ^ p % 2 == 1 && s.residents.all (fun t => (s.grid (s.team t).grid).part != p)
  let t := { s with parts := FMap.mapVals (fun k (q : Partition) => if clear k then { q with fenced := false } else q) s.parts }
  if (List.range 8).any (fun p => clear p && (s.part p).fenced) then t.signal 3 else t

/-- A register outside the partition pages written (R391); queues may be enabled once bring-up is done (R398). -/
def State.writeModule (s : State) (off : Nat) (v : DWord) : State :=
  let n := v.toNat
  let m := s.module
  let on (f : Module → Module) : State := s.onModule f
  if off = 0x10 then on (fun m => { m with modnum := n % 2 ^ 17 })
  else if off = 0x1000 then on (fun m => { m with modcap := n % 2 ^ 16 })
  else if off = 0x100C then on (fun m => { m with droopMax := n % 2 ^ 16 })
  else if 0x10000 ≤ off ∧ off < 0x10000 + 0x40 * 960 ∧ off % 0x40 = 0 then
    let k := (off - 0x10000) / 0x40
    s.onSliceNow (k / 6) (k % 6) (fun x => x.setCfg n)
  else if off = 0x20100 then on (fun m => { m with
    scrubEn := v.getLsbD 0, scrubPass := max 1 (n / 2 % 2 ^ 8), scrubThresh := n / 2 ^ 9 % 2 ^ 16 })
  else if 0x30000 ≤ off ∧ off < 0x30400 ∧ (off % 0x20 = 0 ∨ off % 0x20 = 8) then
    s.onQueue ((off - 0x30000) / 0x20) (fun q =>
      if q.en && q.head != q.tail then q
      else if off % 0x20 = 0 then { q with base := BitVec.ofNat 64 (n / 128 * 128) }
      else { q with ctl := BitVec.ofNat 64 ((if m.bootstat % 16 < 6 then n % 2 ^ 7 else n % 2 ^ 8) + (if q.ctl.getLsbD 8 && !v.getLsbD 8 then 2 ^ 8 else 0)) })
  else if off = 0x40000 then on (fun m => { m with gsctl := BitVec.ofNat 64 (n % 2 + max 10 (min 24 (n / 2 % 2 ^ 5)) * 2), gsLast := s.tick })
  else if off = 0x40008 then on (fun m => { m with gs := m.gs.setBase v })
  else if off = 0x40010 then on (fun m => { m with gs := m.gs.setPtr v })
  else if off = 0x40108 then on (fun m => { m with sigjob := BitVec.ofNat 64 (n % 2 ^ 32) })
  else if off = 0x40110 then on (fun m => { m with signonce := v })
  else if off = 0x40118 then on (fun m => { m with sigbuf := v })
  else if off = 0x40120 then on (fun m => { m with sigMiss := m.sigMiss && !v.getLsbD 1 })
  else if off = 0x60000 then s.clearFences n
  else s


/-- RING_HEAD_WRITE (R364, R369, R394): HEAD of a ring's pointer register; groups and page-fault requests that waited for room go on. -/
def execRingHeadWrite (off : Nat) (value : BitVec 32) (s : State) : Host.Outcome State Fault Refusal :=
  let h := value.toNat % 2 ^ 16
  .next (match pageOf off with
    | some (p, o) =>
      (if o = 0x208 then s.onPart p (fun q => { q with rl := { q.rl with head := h } })
       else if o = 0x228 then s.onPart p (fun q => { q with jr := { q.jr with head := h } })
       else if o = 0x308 then (s.onPart p (fun q => { q with pfq := { q.pfq with head := h } })).sendPages p
       else s).settleAll
    | none => if off = 0x40010 then s.onModule (fun m => { m with gs := { m.gs with head := h } }) else s)

/-! ### Reading the control space (R391, R392) -/

/-- Numbers put side by side, each in its width, from bit 0 up. -/
def packNat : List (Nat × Nat) → Nat
  | [] => 0
  | (v, w) :: rest => v % 2 ^ w + 2 ^ w * packNat rest

/-- The snapshot of a region slot (R392): of a slot of another partition, or a free one, zero. -/
def State.slotSnapshot (s : State) (part id : Nat) : Nat :=
  let x := s.slot id
  let g := s.group x.group
  if x.phase = 0 ∨ s.partOf g ≠ part then 0
  else
    let pred (i : Nat) : List (Nat × Nat) := match x.preds[i]? with | some p => [(p.1, 13), (1, 1), (if p.2 then 1 else 0, 1)] | none => [(0, 15)]
    let anc (i : Nat) : List (Nat × Nat) := match x.anc[i]? with | some k => [(k, 13), (1, 1)] | none => [(0, 14)]
    packNat ([(x.phase, 3)] ++ [0, 1, 2, 3].flatMap pred ++ (List.range 16).flatMap anc ++
      [ (x.depth, 4), (x.reads.length, 8), (x.writes.length, 6), (x.aborts, 4), (if x.serial then 1 else 0, 1), (if x.inval then 1 else 0, 1)
      , (g.slot, 4), (g.cluster, 8), (g.slice, 3), (x.lane, 6), (x.restart.toNat, 32), (x.ldepth, 2) ])

/-- A ring's pointer register. -/
def Ring.ptr (r : Ring) : Nat := packNat [(r.head, 16), (r.tail, 16), (r.size, 16)]

/-- A register of a partition page read (R391). -/
def State.readPage (s : State) (p o : Nat) : Nat :=
  let q := s.part p
  if o = 0x0 then q.partcfg.toNat
  else if o = 0x8 then q.savebase.toNat
  else if o = 0x10 then q.wdlimit.toNat
  else if o = 0x18 then q.pfloor.toNat
  else if o = 0x24 then q.prallow.toNat
  else if o = 0x28 then s.prstat p
  else if o = 0x44 then s.dbgstat p
  else if o = 0x48 then q.haltlim.toNat
  else if o = 0x4C then (if q.dumpEn then 1 else 0) + q.dumpHold * 2 ^ 8
  else if 0x100 ≤ o ∧ o < 0x200 ∧ o % 16 = 0 then (FMap.at (0 : DWord) q.bpaddr ((o - 0x100) / 16)).toNat
  else if 0x100 ≤ o ∧ o < 0x200 ∧ o % 16 = 8 then (FMap.at (0 : Word) q.bpctl ((o - 0x100) / 16)).toNat
  else if o = 0x200 then q.rl.base.toNat
  else if o = 0x208 then q.rl.ptr
  else if o = 0x210 then packNat [(if q.noreplay then 1 else 0, 16), (q.fromord, 16), (q.dropped, 32)]
  else if o = 0x220 then q.jr.base.toNat
  else if o = 0x228 then q.jr.ptr
  else if o = 0x300 then q.pfq.base.toNat
  else if o = 0x308 then q.pfq.ptr
  else if o = 0x318 then q.tlbinva.toNat
  else if o = 0x320 then q.tlbinvn.toNat
  else if 0x400 ≤ o ∧ o < 0x480 ∧ o % 8 = 0 then (FMap.at (0 : DWord) q.hwin ((o - 0x400) / 8)).toNat
  else if 0x500 ≤ o ∧ o < 0x580 ∧ o % 8 = 0 then (FMap.at (0 : DWord) q.fwin ((o - 0x500) / 8)).toNat
  else if 0x600 ≤ o ∧ o < 0x610 ∧ o % 4 = 0 then FMap.at 0 q.errcnt ((o - 0x600) / 4)
  else if o = 0x700 then q.pmeter
  else if o = 0x708 then s.module.mettick
  else if 0x80000 ≤ o ∧ o % 8 = 0 then s.slotSnapshot p ((o - 0x80000) / 64) / 2 ^ (8 * (o % 64)) % 2 ^ 64
  else 0

/-- LLCWAYS of a die (R221). -/
def State.llcWays (s : State) (d : Nat) : Nat :=
  let ws := (List.range 24).map (fun i => (FMap.at ({} : LlcSlice) s.llc (24 * d + i)).ways)
  packNat [(ws.sum, 9), (ws.foldl min 16, 5), (ws.foldl max 0, 5)]

/-- A register outside the partition pages read (R391); 0 where none is. -/
def State.readModule (s : State) (off : Nat) : Nat :=
  let m := s.module
  if off = 0x0 then 0x90160
  else if off = 0x8 then m.serial.toNat
  else if off = 0x10 then m.modnum
  else if off = 0x18 then m.bootstat
  else if off = 0x1000 then m.modcap
  else if off = 0x1004 then m.idleFloor
  else if off = 0x1008 then packNat [(if m.unmet then 1 else 0, 1), (if m.scaled then 1 else 0, 15), (m.power, 16)]
  else if off = 0x100C then m.droopMax
  else if 0x1100 ≤ off ∧ off < 0x1100 + 4 * 160 ∧ off % 4 = 0 then
    let c := s.cluster ((off - 0x1100) / 4)
    packNat [(c.step, 5), (c.budget, 8)]
  else if 0x10000 ≤ off ∧ off < 0x10000 + 0x40 * 960 then
    let k := (off - 0x10000) / 0x40
    let x := (s.cluster (k / 6)).slice (k % 6)
    if off % 0x40 = 0 then packNat [(x.droopThr, 8), (x.stretchN, 4), (x.halveN, 8), (x.sliceMax, 4)]
    else if off % 0x40 = 4 then packNat [(x.ratio, 4), (x.passDiv, 3), (x.penalty, 3)]
    else if off % 0x40 = 8 then packNat [(x.alarms, 16), (x.replays, 16)]
    else 0
  else if off = 0x20000 ∨ off = 0x20008 then s.llcWays ((off - 0x20000) / 8)
  else if off = 0x20004 ∨ off = 0x2000C then (s.die ((off - 0x20000) / 8)).gates
  else if off = 0x20100 then packNat [(if m.scrubEn then 1 else 0, 1), (m.scrubPass, 8), (m.scrubThresh, 16)]
  else if off = 0x20104 then packNat [(m.strong.length, 16), (if m.scrubEn && !m.bankQueue.isEmpty then 1 else 0, 1)]
  else if 0x30000 ≤ off ∧ off < 0x30400 then
    let q := FMap.at ({} : HostQueue) s.queues ((off - 0x30000) / 0x20)
    if off % 0x20 = 0 then q.base.toNat else if off % 0x20 = 8 then q.ctl.toNat else if off % 0x20 = 0x10 then packNat [(q.head, 16), (q.tail, 16)] else 0
  else if off = 0x40000 then m.gsctl.toNat
  else if off = 0x40008 then m.gs.base.toNat
  else if off = 0x40010 then m.gs.ptr
  else if off = 0x40108 then m.sigjob.toNat
  else if off = 0x40110 then m.signonce.toNat
  else if off = 0x40118 then m.sigbuf.toNat
  else if off = 0x40120 then packNat [(if m.sigData.isSome then 1 else 0, 1), (if m.sigMiss then 1 else 0, 1)]
  else if 0x40200 ≤ off ∧ off < 0x40240 ∧ off % 8 = 0 then (s.part ((off - 0x40200) / 8)).pmeter
  else if off = 0x40240 then m.house
  else if off = 0x40248 then m.inpute
  else if off = 0x40250 then m.mettick
  else if 0x50000 ≤ off ∧ off < 0x50000 + 4 * 160 ∧ off % 4 = 0 then
    let c := s.cluster ((off - 0x50000) / 4)
    packNat [(c.part, 3), (if c.enabled then 1 else 0, 1)]
  -- the certificate: its length, then its bytes (R393); a read is of 8 bytes
  else if 0x100000 ≤ off ∧ off < 0x101000 then
    leNat (((leBytes 4 (min 4092 Config.certificateLength) ++ (List.range 4092).map (fun k =>
      if k < Config.certificateLength then Config.certificateByte m.serial k else 0)).drop (off - 0x100000)).take 8)
  else if off = 0x60000 then (List.range 8).foldl (fun v p => v + if (s.part p).fenced then 2 ^ p else 0) 0
  else if 0x60010 ≤ off ∧ off < 0x60010 + 4 * 18 ∧ off % 4 = 0 then FMap.at 0 m.portstat ((off - 0x60010) / 4)
  else 0

/-- The register at an offset of the control space (R391); 0 where none is. -/
def State.register (s : State) (off : Nat) : Nat := match pageOf off with | some (p, o) => s.readPage p o | none => s.readModule off

/-- What can be read so far of the control space (R398): after step 1 IDENT, SERIAL and BOOTSTAT, after step 4 every register. -/
def State.readable (s : State) (off : Nat) : Bool :=
  let k := s.module.bootstat % 16
  decide (4 ≤ k) || (decide (1 ≤ k) && decide (off < 0x10 ∨ off = 0x18))

/-- The value that the host reads at an offset of the control space (R391): at the fifth byte of an 8-byte register its upper half. -/
def State.readControl (s : State) (off : Nat) : DWord :=
  if s.readable off then BitVec.ofNat 64 (s.register off ||| (if off % 8 = 4 then s.register (off - 4) / 2 ^ 32 else 0)) else 0

/-- The value with which an 8-byte register is written where an access of four bytes writes half of it (R391): the other half is as it reads, but for RLSTAT, of
which a bit written with 1 clears. -/
def State.halfWritten (s : State) (off : Nat) (v : DWord) : DWord :=
  let base := off / 8 * 8
  let now := match pageOf base with | some (_, 0x210) => 0 | _ => s.register base
  BitVec.ofNat 64 (if off % 8 = 4 then now % 2 ^ 32 + v.toNat % 2 ^ 32 * 2 ^ 32 else now / 2 ^ 32 * 2 ^ 32 + v.toNat % 2 ^ 32)

/-- REGISTER_WRITE (R391): a control-space register without an event of its own, whole or half of it; an offset that no register occupies ignores the write. -/
def execRegisterWrite (at_ : RegAt) (value : BitVec 64) (s : State) : Host.Outcome State Fault Refusal :=
  let off := if at_.half then at_.off / 8 * 8 else at_.off
  let v := if at_.half then s.halfWritten at_.off value else value
  .next (match pageOf off with
    | some (p, o) => s.writePage p o v
    | none => s.writeModule off v)

end Sys2Proof.Machine
end

