-- ==== Sys2Proof/Machine/Dispatch.lean ====
section
/-! DEFINITION. The meaning of every instruction and event: one arm for each constructor, one call of its meaning. -/
namespace Sys2Proof.Machine

def exec (i : Instr) (s : State) : Host.Outcome State Fault Refusal :=
  match i with
  | .viadd d a b ea eb => Sys2Proof.Machine.execViadd d a b ea eb s
  | .visub d a b ea eb => Sys2Proof.Machine.execVisub d a b ea eb s
  | .viadds d a b ea eb => Sys2Proof.Machine.execViadds d a b ea eb s
  | .visubs d a b ea eb => Sys2Proof.Machine.execVisubs d a b ea eb s
  | .vimul d a b ea eb => Sys2Proof.Machine.execVimul d a b ea eb s
  | .vimulh d a b ea eb => Sys2Proof.Machine.execVimulh d a b ea eb s
  | .vumulh d a b ea eb => Sys2Proof.Machine.execVumulh d a b ea eb s
  | .vimac d a b ea eb => Sys2Proof.Machine.execVimac d a b ea eb s
  | .vimin d a b ea eb => Sys2Proof.Machine.execVimin d a b ea eb s
  | .vimax d a b ea eb => Sys2Proof.Machine.execVimax d a b ea eb s
  | .vumin d a b ea eb => Sys2Proof.Machine.execVumin d a b ea eb s
  | .vumax d a b ea eb => Sys2Proof.Machine.execVumax d a b ea eb s
  | .vand d a b ea eb => Sys2Proof.Machine.execVand d a b ea eb s
  | .vor d a b ea eb => Sys2Proof.Machine.execVor d a b ea eb s
  | .vxor d a b ea eb => Sys2Proof.Machine.execVxor d a b ea eb s
  | .vandn d a b ea eb => Sys2Proof.Machine.execVandn d a b ea eb s
  | .vshl d a b ea eb => Sys2Proof.Machine.execVshl d a b ea eb s
  | .vshr d a b ea eb => Sys2Proof.Machine.execVshr d a b ea eb s
  | .vsar d a b ea eb => Sys2Proof.Machine.execVsar d a b ea eb s
  | .vrol d a b ea eb => Sys2Proof.Machine.execVrol d a b ea eb s
  | .vclz d a ea eb => Sys2Proof.Machine.execVclz d a ea eb s
  | .vpopc d a ea eb => Sys2Proof.Machine.execVpopc d a ea eb s
  | .vbrev d a ea eb => Sys2Proof.Machine.execVbrev d a ea eb s
  | .viabs d a ea eb => Sys2Proof.Machine.execViabs d a ea eb s
  | .vfadd d a b ea eb => Sys2Proof.Machine.execVfadd d a b ea eb s
  | .vfsub d a b ea eb => Sys2Proof.Machine.execVfsub d a b ea eb s
  | .vfmul d a b ea eb => Sys2Proof.Machine.execVfmul d a b ea eb s
  | .vfma d a b ea eb => Sys2Proof.Machine.execVfma d a b ea eb s
  | .vfnma d a b ea eb => Sys2Proof.Machine.execVfnma d a b ea eb s
  | .vfmin d a b ea eb => Sys2Proof.Machine.execVfmin d a b ea eb s
  | .vfmax d a b ea eb => Sys2Proof.Machine.execVfmax d a b ea eb s
  | .vfcopysign d a b ea eb => Sys2Proof.Machine.execVfcopysign d a b ea eb s
  | .vhaddBf d a b ea eb => Sys2Proof.Machine.execVhaddBf d a b ea eb s
  | .vhmulBf d a b ea eb => Sys2Proof.Machine.execVhmulBf d a b ea eb s
  | .vhfmaBf d a b ea eb => Sys2Proof.Machine.execVhfmaBf d a b ea eb s
  | .vhaddH d a b ea eb => Sys2Proof.Machine.execVhaddH d a b ea eb s
  | .vhmulH d a b ea eb => Sys2Proof.Machine.execVhmulH d a b ea eb s
  | .vhfmaH d a b ea eb => Sys2Proof.Machine.execVhfmaH d a b ea eb s
  | .vdot2Bf d a b ea eb => Sys2Proof.Machine.execVdot2Bf d a b ea eb s
  | .vdot4I8 d a b ea eb => Sys2Proof.Machine.execVdot4I8 d a b ea eb s
  | .vmov d a ea eb => Sys2Proof.Machine.execVmov d a ea eb s
  | .vfabs d a ea eb => Sys2Proof.Machine.execVfabs d a ea eb s
  | .vfneg d a ea eb => Sys2Proof.Machine.execVfneg d a ea eb s
  | .viaddi d e imm => Sys2Proof.Machine.execViaddi d e imm s
  | .vandi d e imm => Sys2Proof.Machine.execVandi d e imm s
  | .vori d e imm => Sys2Proof.Machine.execVori d e imm s
  | .vxori d e imm => Sys2Proof.Machine.execVxori d e imm s
  | .vmovi d imm => Sys2Proof.Machine.execVmovi d imm s
  | .vmovhi d e imm => Sys2Proof.Machine.execVmovhi d e imm s
  | .vshli d e imm => Sys2Proof.Machine.execVshli d e imm s
  | .vshri d e imm => Sys2Proof.Machine.execVshri d e imm s
  | .vsari d e imm => Sys2Proof.Machine.execVsari d e imm s
  | .vimuli d e imm => Sys2Proof.Machine.execVimuli d e imm s
  | .vfaddi d e imm => Sys2Proof.Machine.execVfaddi d e imm s
  | .vfmuli d e imm => Sys2Proof.Machine.execVfmuli d e imm s
  | .vmovfi d imm => Sys2Proof.Machine.execVmovfi d imm s
  | .vlanei d imm => Sys2Proof.Machine.execVlanei d imm s
  | .vcmpEq pd a b c ea eb => Sys2Proof.Machine.execVcmpEq pd a b c ea eb s
  | .vcmpNe pd a b c ea eb => Sys2Proof.Machine.execVcmpNe pd a b c ea eb s
  | .vcmpLt pd a b c ea eb => Sys2Proof.Machine.execVcmpLt pd a b c ea eb s
  | .vcmpLe pd a b c ea eb => Sys2Proof.Machine.execVcmpLe pd a b c ea eb s
  | .vcmpGt pd a b c ea eb => Sys2Proof.Machine.execVcmpGt pd a b c ea eb s
  | .vcmpGe pd a b c ea eb => Sys2Proof.Machine.execVcmpGe pd a b c ea eb s
  | .vcmpLtu pd a b c ea eb => Sys2Proof.Machine.execVcmpLtu pd a b c ea eb s
  | .vcmpLeu pd a b c ea eb => Sys2Proof.Machine.execVcmpLeu pd a b c ea eb s
  | .vcmpGtu pd a b c ea eb => Sys2Proof.Machine.execVcmpGtu pd a b c ea eb s
  | .vcmpGeu pd a b c ea eb => Sys2Proof.Machine.execVcmpGeu pd a b c ea eb s
  | .vfcmpEq pd a b c ea eb => Sys2Proof.Machine.execVfcmpEq pd a b c ea eb s
  | .vfcmpNe pd a b c ea eb => Sys2Proof.Machine.execVfcmpNe pd a b c ea eb s
  | .vfcmpLt pd a b c ea eb => Sys2Proof.Machine.execVfcmpLt pd a b c ea eb s
  | .vfcmpLe pd a b c ea eb => Sys2Proof.Machine.execVfcmpLe pd a b c ea eb s
  | .vfcmpUn pd a b c ea eb => Sys2Proof.Machine.execVfcmpUn pd a b c ea eb s
  | .vfclass pd a b c ea eb => Sys2Proof.Machine.execVfclass pd a b c ea eb s
  | .vtest pd a b c ea eb => Sys2Proof.Machine.execVtest pd a b c ea eb s
  | .pand pd pa pb c => Sys2Proof.Machine.execPand pd pa pb c s
  | .por pd pa pb c => Sys2Proof.Machine.execPor pd pa pb c s
  | .pxor pd pa pb c => Sys2Proof.Machine.execPxor pd pa pb c s
  | .pandn pd pa pb c => Sys2Proof.Machine.execPandn pd pa pb c s
  | .pnot pd pa c => Sys2Proof.Machine.execPnot pd pa c s
  | .pmov pd pa c => Sys2Proof.Machine.execPmov pd pa c s
  | .pset pd c => Sys2Proof.Machine.execPset pd c s
  | .pclr pd c => Sys2Proof.Machine.execPclr pd c s
  | .ldB d a reuse order scope => Sys2Proof.Machine.execLdB d a reuse order scope s
  | .ldBExt d a reuse order scope off => Sys2Proof.Machine.execLdBExt d a reuse order scope off s
  | .ldSb d a reuse order scope => Sys2Proof.Machine.execLdSb d a reuse order scope s
  | .ldSbExt d a reuse order scope off => Sys2Proof.Machine.execLdSbExt d a reuse order scope off s
  | .ldH d a reuse order scope => Sys2Proof.Machine.execLdH d a reuse order scope s
  | .ldHExt d a reuse order scope off => Sys2Proof.Machine.execLdHExt d a reuse order scope off s
  | .ldSh d a reuse order scope => Sys2Proof.Machine.execLdSh d a reuse order scope s
  | .ldShExt d a reuse order scope off => Sys2Proof.Machine.execLdShExt d a reuse order scope off s
  | .ldW d a reuse order scope => Sys2Proof.Machine.execLdW d a reuse order scope s
  | .ldWExt d a reuse order scope off => Sys2Proof.Machine.execLdWExt d a reuse order scope off s
  | .ldD d a reuse order scope => Sys2Proof.Machine.execLdD d a reuse order scope s
  | .ldDExt d a reuse order scope off => Sys2Proof.Machine.execLdDExt d a reuse order scope off s
  | .ldQ d a reuse order scope => Sys2Proof.Machine.execLdQ d a reuse order scope s
  | .ldQExt d a reuse order scope off => Sys2Proof.Machine.execLdQExt d a reuse order scope off s
  | .ldpk6 d a reuse order scope => Sys2Proof.Machine.execLdpk6 d a reuse order scope s
  | .ldpk6Ext d a reuse order scope off => Sys2Proof.Machine.execLdpk6Ext d a reuse order scope off s
  | .ldpk4 d a reuse order scope => Sys2Proof.Machine.execLdpk4 d a reuse order scope s
  | .ldpk4Ext d a reuse order scope off => Sys2Proof.Machine.execLdpk4Ext d a reuse order scope off s
  | .stB d a reuse order scope => Sys2Proof.Machine.execStB d a reuse order scope s
  | .stBExt d a reuse order scope off => Sys2Proof.Machine.execStBExt d a reuse order scope off s
  | .stH d a reuse order scope => Sys2Proof.Machine.execStH d a reuse order scope s
  | .stHExt d a reuse order scope off => Sys2Proof.Machine.execStHExt d a reuse order scope off s
  | .stW d a reuse order scope => Sys2Proof.Machine.execStW d a reuse order scope s
  | .stWExt d a reuse order scope off => Sys2Proof.Machine.execStWExt d a reuse order scope off s
  | .stD d a reuse order scope => Sys2Proof.Machine.execStD d a reuse order scope s
  | .stDExt d a reuse order scope off => Sys2Proof.Machine.execStDExt d a reuse order scope off s
  | .stQ d a reuse order scope => Sys2Proof.Machine.execStQ d a reuse order scope s
  | .stQExt d a reuse order scope off => Sys2Proof.Machine.execStQExt d a reuse order scope off s
  | .ldsW d a order scope => Sys2Proof.Machine.execLdsW d a order scope s
  | .ldsWExt d a order scope off => Sys2Proof.Machine.execLdsWExt d a order scope off s
  | .ldsD d a order scope => Sys2Proof.Machine.execLdsD d a order scope s
  | .ldsDExt d a order scope off => Sys2Proof.Machine.execLdsDExt d a order scope off s
  | .ldsQ d a order scope => Sys2Proof.Machine.execLdsQ d a order scope s
  | .ldsQExt d a order scope off => Sys2Proof.Machine.execLdsQExt d a order scope off s
  | .stsB d a order scope => Sys2Proof.Machine.execStsB d a order scope s
  | .stsBExt d a order scope off => Sys2Proof.Machine.execStsBExt d a order scope off s
  | .stsH d a order scope => Sys2Proof.Machine.execStsH d a order scope s
  | .stsHExt d a order scope off => Sys2Proof.Machine.execStsHExt d a order scope off s
  | .stsW d a order scope => Sys2Proof.Machine.execStsW d a order scope s
  | .stsWExt d a order scope off => Sys2Proof.Machine.execStsWExt d a order scope off s
  | .stsD d a order scope => Sys2Proof.Machine.execStsD d a order scope s
  | .stsDExt d a order scope off => Sys2Proof.Machine.execStsDExt d a order scope off s
  | .stsQ d a order scope => Sys2Proof.Machine.execStsQ d a order scope s
  | .stsQExt d a order scope off => Sys2Proof.Machine.execStsQExt d a order scope off s
  | .atomAdd d a reuse order scope => Sys2Proof.Machine.execAtomAdd d a reuse order scope s
  | .atomAddExt d a reuse order scope off => Sys2Proof.Machine.execAtomAddExt d a reuse order scope off s
  | .atomFadd d a reuse order scope => Sys2Proof.Machine.execAtomFadd d a reuse order scope s
  | .atomFaddExt d a reuse order scope off => Sys2Proof.Machine.execAtomFaddExt d a reuse order scope off s
  | .atomHfaddBf d a reuse order scope => Sys2Proof.Machine.execAtomHfaddBf d a reuse order scope s
  | .atomHfaddBfExt d a reuse order scope off => Sys2Proof.Machine.execAtomHfaddBfExt d a reuse order scope off s
  | .atomMin d a reuse order scope => Sys2Proof.Machine.execAtomMin d a reuse order scope s
  | .atomMinExt d a reuse order scope off => Sys2Proof.Machine.execAtomMinExt d a reuse order scope off s
  | .atomMax d a reuse order scope => Sys2Proof.Machine.execAtomMax d a reuse order scope s
  | .atomMaxExt d a reuse order scope off => Sys2Proof.Machine.execAtomMaxExt d a reuse order scope off s
  | .atomMinu d a reuse order scope => Sys2Proof.Machine.execAtomMinu d a reuse order scope s
  | .atomMinuExt d a reuse order scope off => Sys2Proof.Machine.execAtomMinuExt d a reuse order scope off s
  | .atomMaxu d a reuse order scope => Sys2Proof.Machine.execAtomMaxu d a reuse order scope s
  | .atomMaxuExt d a reuse order scope off => Sys2Proof.Machine.execAtomMaxuExt d a reuse order scope off s
  | .atomAnd d a reuse order scope => Sys2Proof.Machine.execAtomAnd d a reuse order scope s
  | .atomAndExt d a reuse order scope off => Sys2Proof.Machine.execAtomAndExt d a reuse order scope off s
  | .atomOr d a reuse order scope => Sys2Proof.Machine.execAtomOr d a reuse order scope s
  | .atomOrExt d a reuse order scope off => Sys2Proof.Machine.execAtomOrExt d a reuse order scope off s
  | .atomXor d a reuse order scope => Sys2Proof.Machine.execAtomXor d a reuse order scope s
  | .atomXorExt d a reuse order scope off => Sys2Proof.Machine.execAtomXorExt d a reuse order scope off s
  | .atomXchg d a reuse order scope => Sys2Proof.Machine.execAtomXchg d a reuse order scope s
  | .atomXchgExt d a reuse order scope off => Sys2Proof.Machine.execAtomXchgExt d a reuse order scope off s
  | .atomCas d a reuse order scope => Sys2Proof.Machine.execAtomCas d a reuse order scope s
  | .atomCasExt d a reuse order scope off => Sys2Proof.Machine.execAtomCasExt d a reuse order scope off s
  | .atomCasD d a reuse order scope => Sys2Proof.Machine.execAtomCasD d a reuse order scope s
  | .atomCasDExt d a reuse order scope off => Sys2Proof.Machine.execAtomCasDExt d a reuse order scope off s
  | .atomsAdd d a order scope => Sys2Proof.Machine.execAtomsAdd d a order scope s
  | .atomsAddExt d a order scope off => Sys2Proof.Machine.execAtomsAddExt d a order scope off s
  | .atomsFadd d a order scope => Sys2Proof.Machine.execAtomsFadd d a order scope s
  | .atomsFaddExt d a order scope off => Sys2Proof.Machine.execAtomsFaddExt d a order scope off s
  | .atomsMin d a order scope => Sys2Proof.Machine.execAtomsMin d a order scope s
  | .atomsMinExt d a order scope off => Sys2Proof.Machine.execAtomsMinExt d a order scope off s
  | .atomsMax d a order scope => Sys2Proof.Machine.execAtomsMax d a order scope s
  | .atomsMaxExt d a order scope off => Sys2Proof.Machine.execAtomsMaxExt d a order scope off s
  | .atomsXchg d a order scope => Sys2Proof.Machine.execAtomsXchg d a order scope s
  | .atomsXchgExt d a order scope off => Sys2Proof.Machine.execAtomsXchgExt d a order scope off s
  | .atomsCas d a order scope => Sys2Proof.Machine.execAtomsCas d a order scope s
  | .atomsCasExt d a order scope off => Sys2Proof.Machine.execAtomsCasExt d a order scope off s
  | .fence order scope => Sys2Proof.Machine.execFence order scope s
  | .pref a reuse => Sys2Proof.Machine.execPref a reuse s
  | .prefExt a reuse off => Sys2Proof.Machine.execPrefExt a reuse off s
  | .sadd sd sa sb => Sys2Proof.Machine.execSadd sd sa sb s
  | .ssub sd sa sb => Sys2Proof.Machine.execSsub sd sa sb s
  | .smul sd sa sb => Sys2Proof.Machine.execSmul sd sa sb s
  | .smulhu sd sa sb => Sys2Proof.Machine.execSmulhu sd sa sb s
  | .sand sd sa sb => Sys2Proof.Machine.execSand sd sa sb s
  | .sor sd sa sb => Sys2Proof.Machine.execSor sd sa sb s
  | .sxor sd sa sb => Sys2Proof.Machine.execSxor sd sa sb s
  | .sshl sd sa sb => Sys2Proof.Machine.execSshl sd sa sb s
  | .sshr sd sa sb => Sys2Proof.Machine.execSshr sd sa sb s
  | .ssar sd sa sb => Sys2Proof.Machine.execSsar sd sa sb s
  | .smin sd sa sb => Sys2Proof.Machine.execSmin sd sa sb s
  | .smax sd sa sb => Sys2Proof.Machine.execSmax sd sa sb s
  | .sminu sd sa sb => Sys2Proof.Machine.execSminu sd sa sb s
  | .smaxu sd sa sb => Sys2Proof.Machine.execSmaxu sd sa sb s
  | .sseq sd sa sb => Sys2Proof.Machine.execSseq sd sa sb s
  | .sslt sd sa sb => Sys2Proof.Machine.execSslt sd sa sb s
  | .ssltu sd sa sb => Sys2Proof.Machine.execSsltu sd sa sb s
  | .saddi sd sa imm => Sys2Proof.Machine.execSaddi sd sa imm s
  | .sandi sd sa imm => Sys2Proof.Machine.execSandi sd sa imm s
  | .sori sd sa imm => Sys2Proof.Machine.execSori sd sa imm s
  | .sxori sd sa imm => Sys2Proof.Machine.execSxori sd sa imm s
  | .smovi sd imm => Sys2Proof.Machine.execSmovi sd imm s
  | .smovhi sd imm => Sys2Proof.Machine.execSmovhi sd imm s
  | .sshli sd sa imm => Sys2Proof.Machine.execSshli sd sa imm s
  | .sshri sd sa imm => Sys2Proof.Machine.execSshri sd sa imm s
  | .sldW sd sa imm => Sys2Proof.Machine.execSldW sd sa imm s
  | .sldD sd sa imm => Sys2Proof.Machine.execSldD sd sa imm s
  | .sstW sd sa imm => Sys2Proof.Machine.execSstW sd sa imm s
  | .movsr sx n => Sys2Proof.Machine.execMovsr sx n s
  | .movsw sx n => Sys2Proof.Machine.execMovsw sx n s
  | .bra p neg off => Sys2Proof.Machine.execBra p neg off s
  | .brau p neg off => Sys2Proof.Machine.execBrau p neg off s
  | .braany p neg off => Sys2Proof.Machine.execBraany p neg off s
  | .braall p neg off => Sys2Proof.Machine.execBraall p neg off s
  | .call p neg off => Sys2Proof.Machine.execCall p neg off s
  | .ret a ea => Sys2Proof.Machine.execRet a ea s
  | .jmpv a ea => Sys2Proof.Machine.execJmpv a ea s
  | .loop lc sa len => Sys2Proof.Machine.execLoop lc sa len s
  | .loopi lc n len => Sys2Proof.Machine.execLoopi lc n len s
  | .exit => Sys2Proof.Machine.execExit s
  | .nop => Sys2Proof.Machine.execNop s
  | .yield => Sys2Proof.Machine.execYield s
  | .suspend ec t off => Sys2Proof.Machine.execSuspend ec t off s
  | .elect pd => Sys2Proof.Machine.execElect pd s
  | .trap code => Sys2Proof.Machine.execTrap code s
  | .tret => Sys2Proof.Machine.execTret s
  | .tstamp sd => Sys2Proof.Machine.execTstamp sd s
  | .cycle sd => Sys2Proof.Machine.execCycle sd s
  | .mma sx ec => Sys2Proof.Machine.execMma sx ec s
  | .acczero sx ec eng => Sys2Proof.Machine.execAcczero sx ec eng s
  | .accrd sx ec eng d => Sys2Proof.Machine.execAccrd sx ec eng d s
  | .accwr sx ec eng d => Sys2Proof.Machine.execAccwr sx ec eng d s
  | .accdrain sx ec => Sys2Proof.Machine.execAccdrain sx ec s
  | .copy sx ec => Sys2Proof.Machine.execCopy sx ec s
  | .gather sx ec => Sys2Proof.Machine.execGather sx ec s
  | .scatter sx ec => Sys2Proof.Machine.execScatter sx ec s
  | .coll sx ec => Sys2Proof.Machine.execColl sx ec s
  | .cbload sx ec eng => Sys2Proof.Machine.execCbload sx ec eng s
  | .actload sx ec => Sys2Proof.Machine.execActload sx ec s
  | .objdecl sx sd => Sys2Proof.Machine.execObjdecl sx sd s
  | .objfree sx ec => Sys2Proof.Machine.execObjfree sx ec s
  | .tokreq sx ec => Sys2Proof.Machine.execTokreq sx ec s
  | .tokrel sx ec => Sys2Proof.Machine.execTokrel sx ec s
  | .launch sx sd => Sys2Proof.Machine.execLaunch sx sd s
  | .waitchild => Sys2Proof.Machine.execWaitchild s
  | .succok => Sys2Proof.Machine.execSuccok s
  | .waitpred => Sys2Proof.Machine.execWaitpred s
  | .tbar b => Sys2Proof.Machine.execTbar b s
  | .tarrive b => Sys2Proof.Machine.execTarrive b s
  | .gbar => Sys2Proof.Machine.execGbar s
  | .evinc ec n => Sys2Proof.Machine.execEvinc ec n s
  | .evdec ec n => Sys2Proof.Machine.execEvdec ec n s
  | .phaseend sx ec => Sys2Proof.Machine.execPhaseend sx ec s
  | .ensure sx => Sys2Proof.Machine.execEnsure sx s
  | .elseby => Sys2Proof.Machine.execElseby s
  | .elseerr code => Sys2Proof.Machine.execElseerr code s
  | .accept p => Sys2Proof.Machine.execAccept p s
  | .reject => Sys2Proof.Machine.execReject s
  | .convjoin sx => Sys2Proof.Machine.execConvjoin sx s
  | .convleave sx => Sys2Proof.Machine.execConvleave sx s
  | .rbegin => Sys2Proof.Machine.execRbegin s
  | .rend => Sys2Proof.Machine.execRend s
  | .rstat sd sel => Sys2Proof.Machine.execRstat sd sel s
  | .telect pd => Sys2Proof.Machine.execTelect pd s
  | .meter sd => Sys2Proof.Machine.execMeter sd s
  | .vfma3 d a b c ea eb pg neg rm st dt => Sys2Proof.Machine.execVfma3 d a b c ea eb pg neg rm st dt s
  | .vsel d a b ea eb pg neg => Sys2Proof.Machine.execVsel d a b ea eb pg neg s
  | .vcvt d a ea pg neg rm st dt js jd => Sys2Proof.Machine.execVcvt d a ea pg neg rm st dt js jd s
  | .vcvti d a ea pg neg rm st dt js jd => Sys2Proof.Machine.execVcvti d a ea pg neg rm st dt js jd s
  | .vcvtf d a ea pg neg rm st dt js jd => Sys2Proof.Machine.execVcvtf d a ea pg neg rm st dt js jd s
  | .vpack d a b ea eb pg neg rm st dt h => Sys2Proof.Machine.execVpack d a b ea eb pg neg rm st dt h s
  | .vunpack d a ea pg neg st dt j => Sys2Proof.Machine.execVunpack d a ea pg neg st dt j s
  | .vdeq d a b c ea eb pg neg rm st dt j set => Sys2Proof.Machine.execVdeq d a b c ea eb pg neg rm st dt j set s
  | .vperm d a b c ea eb pg => Sys2Proof.Machine.execVperm d a b c ea eb pg s
  | .vshuf d a c ea pg off => Sys2Proof.Machine.execVshuf d a c ea pg off s
  | .vlogred d a c ea pg rm op => Sys2Proof.Machine.execVlogred d a c ea pg rm op s
  | .vscan d a c ea pg rm op excl => Sys2Proof.Machine.execVscan d a c ea pg rm op excl s
  | .vbcast d a c ea pg lane => Sys2Proof.Machine.execVbcast d a c ea pg lane s
  | .vvote d pa c pg mode => Sys2Proof.Machine.execVvote d pa c pg mode s
  | .vbfe d a b ea eb pg neg sx => Sys2Proof.Machine.execVbfe d a b ea eb pg neg sx s
  | .vbfi d a b c ea eb pg neg => Sys2Proof.Machine.execVbfi d a b c ea eb pg neg s
  | .vfrcp d a ea pg neg => Sys2Proof.Machine.execVfrcp d a ea pg neg s
  | .vfrsq d a ea pg neg => Sys2Proof.Machine.execVfrsq d a ea pg neg s
  | .vfsqrt d a ea pg neg rm => Sys2Proof.Machine.execVfsqrt d a ea pg neg rm s
  | .vfexp2 d a ea pg neg => Sys2Proof.Machine.execVfexp2 d a ea pg neg s
  | .vflog2 d a ea pg neg => Sys2Proof.Machine.execVflog2 d a ea pg neg s
  | .vfsin d a ea pg neg => Sys2Proof.Machine.execVfsin d a ea pg neg s
  | .vfcos d a ea pg neg => Sys2Proof.Machine.execVfcos d a ea pg neg s
  | .vfdiv d a b ea eb pg neg rm => Sys2Proof.Machine.execVfdiv d a b ea eb pg neg rm s
  | .vact d a ea pg neg => Sys2Proof.Machine.execVact d a ea pg neg s
  | .dropm a b c ea eb pg => Sys2Proof.Machine.execDropm a b c ea eb pg s
  | .vrand d a b ea eb pg neg => Sys2Proof.Machine.execVrand d a b ea eb pg neg s
  | .ldIdx d a b ea eb pg neg st order scope reuse => Sys2Proof.Machine.execLdIdx d a b ea eb pg neg st order scope reuse s
  | .stIdx d a b ea eb pg neg st order scope reuse => Sys2Proof.Machine.execStIdx d a b ea eb pg neg st order scope reuse s
  | .lread d a b ea eb pg neg => Sys2Proof.Machine.execLread d a b ea eb pg neg s
  | .lreadScalar d a ea lane => Sys2Proof.Machine.execLreadScalar d a ea lane s
  | .lwrite d a ea lane => Sys2Proof.Machine.execLwrite d a ea lane s
  | .vpcrd d field lane => Sys2Proof.Machine.execVpcrd d field lane s
  | .vpcwr a ea field lane => Sys2Proof.Machine.execVpcwr a ea field lane s
  | .vidiv d a b ea eb pg neg st dt => Sys2Proof.Machine.execVidiv d a b ea eb pg neg st dt s
  | .virem d a b ea eb pg neg st dt => Sys2Proof.Machine.execVirem d a b ea eb pg neg st dt s
  | .runStart cl sl => Sys2Proof.Machine.execRunStart cl sl s
  | .deferredTrapTaken g => Sys2Proof.Machine.execDeferredTrapTaken g s
  | .loadResult acc => Sys2Proof.Machine.execLoadResult acc s
  | .sfuResult prod => Sys2Proof.Machine.execSfuResult prod s
  | .lreadResult prod => Sys2Proof.Machine.execLreadResult prod s
  | .atomicCompletion acc => Sys2Proof.Machine.execAtomicCompletion acc s
  | .storePerformed acc => Sys2Proof.Machine.execStorePerformed acc s
  | .objdeclResult prod => Sys2Proof.Machine.execObjdeclResult prod s
  | .launchResult prod => Sys2Proof.Machine.execLaunchResult prod s
  | .meterResult prod => Sys2Proof.Machine.execMeterResult prod s
  | .engineCommandStart cmd => Sys2Proof.Machine.execEngineCommandStart cmd s
  | .engineCommandCompletion cmd => Sys2Proof.Machine.execEngineCommandCompletion cmd s
  | .translationWalkEnd cl part page => Sys2Proof.Machine.execTranslationWalkEnd cl part page s
  | .pfansWrite part value => Sys2Proof.Machine.execPfansWrite part value s
  | .tlbInvalidationStart part value => Sys2Proof.Machine.execTlbInvalidationStart part value s
  | .tlbInvalidationComplete part => Sys2Proof.Machine.execTlbInvalidationComplete part s
  | .tokenRequestArrival cl part obj => Sys2Proof.Machine.execTokenRequestArrival cl part obj s
  | .tokenGrant part obj => Sys2Proof.Machine.execTokenGrant part obj s
  | .lineMigrationComplete line dest => Sys2Proof.Machine.execLineMigrationComplete line dest s
  | .wayPairGating slice => Sys2Proof.Machine.execWayPairGating slice s
  | .wayPairEnable slice => Sys2Proof.Machine.execWayPairEnable slice s
  | .gbarClusterRelease grid cl => Sys2Proof.Machine.execGbarClusterRelease grid cl s
  | .regionCommit die slot => Sys2Proof.Machine.execRegionCommit die slot s
  | .regionReservationLapse die slot => Sys2Proof.Machine.execRegionReservationLapse die slot s
  | .recoveryTickLimitExpiry team => Sys2Proof.Machine.execRecoveryTickLimitExpiry team s
  | .rollback team => Sys2Proof.Machine.execRollback team s
  | .undoAreaLost team => Sys2Proof.Machine.execUndoAreaLost team s
  | .lqptrTailWrite q tail => Sys2Proof.Machine.execLqptrTailWrite q tail s
  | .launchRecordRead q => Sys2Proof.Machine.execLaunchRecordRead q s
  | .childRingTransfer grid => Sys2Proof.Machine.execChildRingTransfer grid s
  | .teamAdmission => Sys2Proof.Machine.execTeamAdmission s
  | .scratchpadClearDone team => Sys2Proof.Machine.execScratchpadClearDone team s
  | .admissionReservation grid team => Sys2Proof.Machine.execAdmissionReservation grid team s
  | .heldOutPreemption grid => Sys2Proof.Machine.execHeldOutPreemption grid s
  | .groupRetirement g => Sys2Proof.Machine.execGroupRetirement g s
  | .prctlGo part value => Sys2Proof.Machine.execPrctlGo part value s
  | .prctlResume part value => Sys2Proof.Machine.execPrctlResume part value s
  | .drainAllowanceExpiry team => Sys2Proof.Machine.execDrainAllowanceExpiry team s
  | .teamSave team => Sys2Proof.Machine.execTeamSave team s
  | .flushToEnsure team => Sys2Proof.Machine.execFlushToEnsure team s
  | .flushAndRestart team => Sys2Proof.Machine.execFlushAndRestart team s
  | .teamRestore team => Sys2Proof.Machine.execTeamRestore team s
  | .exitStatusWrite g => Sys2Proof.Machine.execExitStatusWrite g s
  | .hangWatchdogExpiry team => Sys2Proof.Machine.execHangWatchdogExpiry team s
  | .registerFileError g lane reg => Sys2Proof.Machine.execRegisterFileError g lane reg s
  | .moduleShutdown => Sys2Proof.Machine.execModuleShutdown s
  | .dbgHalt part value => Sys2Proof.Machine.execDbgHalt part value s
  | .dbgResume part value => Sys2Proof.Machine.execDbgResume part value s
  | .dbgStep part value => Sys2Proof.Machine.execDbgStep part value s
  | .haltLimitExpiry g => Sys2Proof.Machine.execHaltLimitExpiry g s
  | .dumpAttach part => Sys2Proof.Machine.execDumpAttach part s
  | .dumpRelease part => Sys2Proof.Machine.execDumpRelease part s
  | .dumpHoldExpiry cl => Sys2Proof.Machine.execDumpHoldExpiry cl s
  | .ginghamSample => Sys2Proof.Machine.execGinghamSample s
  | .controlInterval => Sys2Proof.Machine.execControlInterval s
  | .droopAlarm cl sl => Sys2Proof.Machine.execDroopAlarm cl sl s
  | .droopStretchEnd cl sl => Sys2Proof.Machine.execDroopStretchEnd cl sl s
  | .halvedWindowEnd cl sl => Sys2Proof.Machine.execHalvedWindowEnd cl sl s
  | .timingReplay cl sl again => Sys2Proof.Machine.execTimingReplay cl sl again s
  | .signPartitionCounters value => Sys2Proof.Machine.execSignPartitionCounters value s
  | .signJobRecord value => Sys2Proof.Machine.execSignJobRecord value s
  | .signedReadingWritten => Sys2Proof.Machine.execSignedReadingWritten s
  | .scrubLine line half errors bank part => Sys2Proof.Machine.execScrubLine line half errors bank part s
  | .scrubWindowExpiry bank => Sys2Proof.Machine.execScrubWindowExpiry bank s
  | .bankReencode bank => Sys2Proof.Machine.execBankReencode bank s
  | .errctlClr part => Sys2Proof.Machine.execErrctlClr part s
  | .classignWrite cl value => Sys2Proof.Machine.execClassignWrite cl value s
  | .hostWindowRead part win off len => Sys2Proof.Machine.execHostWindowRead part win off len s
  | .hostWindowWrite part win off bytes => Sys2Proof.Machine.execHostWindowWrite part win off bytes s
  | .fabricAccess port flit => Sys2Proof.Machine.execFabricAccess port flit s
  | .keyRevocation part => Sys2Proof.Machine.execKeyRevocation part s
  | .coldReset => Sys2Proof.Machine.execColdReset s
  | .warmReset => Sys2Proof.Machine.execWarmReset s
  | .registerWrite off value => Sys2Proof.Machine.execRegisterWrite off value s
  | .ringHeadWrite off value => Sys2Proof.Machine.execRingHeadWrite off value s
  | .fabricLinkFailure member => Sys2Proof.Machine.execFabricLinkFailure member s
  | .flitLinkCheckFailure port => Sys2Proof.Machine.execFlitLinkCheckFailure port s
  | .killRequest target => Sys2Proof.Machine.execKillRequest target s
  | .partitionTeardown part => Sys2Proof.Machine.execPartitionTeardown part s

end Sys2Proof.Machine
end

