-- ==== Sys2Proof/Machine/Policy.lean ====
section
/-! DEFINITION. What a step does: latching a clause and issuing its words (R24, R25, R29, R30, R36, R43, R340 to R343), charged ticks (R304, R349),
and what happens next where no word is issuing. The spec leaves the order of events of different agents open: the agenda, plain data of the state,
names events that happen first, and every event that needs an input comes from it; with an empty agenda the events the machine makes of itself
happen in the order given here (log entry 1). -/
namespace Sys2Proof.Machine

/-! ### Latching a clause -/

/-- The word at HANDLER is not a clause header (R340): the group is contained with cause 0x1A, or it is a fault of the level (R300). -/
def State.badHandler (s : State) : State :=
  let g := s.me
  if (s.team g.team).rlevel ≠ 0 then
    (s.onMe (fun g => { g with run := { g.run with stopped := true } })).levelFault g.team 0x1A
  else s.contain s.cur 0x1A 0 false g.trap.pc

/-- The words of a clause fetched whole and judged in the order of R43 before any of them issues; the clause is latched, or its group waits or
traps. -/
noncomputable def State.latchWords (s : State) (h : Word) : State :=
  let k := s.cur
  let r := s.me.run
  let part := s.partOf s.me
  let va (n : Nat) : Nat := ((s.gridOf s.me).record.code + 4 * (r.hdr.toNat + n)) % 2 ^ 64
  match s.fetchWords k r.hdr (hdrCount h) 0 with
  | .error e => ((s.noteWalk s.me.cluster part .fetch e.2.2.1).noteRun.fetchFault e.1 e.2.1 e.2.2.1 e.2.2.2).closeRun
  | .ok ws =>
    let s := s.cachePages s.me.cluster part .fetch (pagesOf (va 0) (4 * (hdrCount h + 1)))
    match clauseFault h ws with
    | some f => (s.noteRun.trapClause f).closeRun
    | none => s.beginClause h ws

/-- The next clause of the run fetched from its header on (R24, R25, R30, R340). A clause whose header is well formed and whose wait mask is unmet waits
before its words are fetched and judged: the spec does not order the wait and a fault of the clause's own words (DESIGN CHOICE, log entry 65). -/
noncomputable def State.latch (s : State) : State :=
  let r := s.me.run
  match s.fetchWord s.cur r.hdr 0 with
  | .bad c d a => ((s.noteWalk s.me.cluster (s.partOf s.me) .fetch a).noteRun.fetchFault c d a 0).closeRun
  | .word h =>
    if r.handler && r.hdr == (s.gridOf s.me).record.handler && wordClass h != 7 then s.noteRun.badHandler.closeRun
    else
      match headerFault h with
      | some f => (s.noteRun.trapClause f).closeRun
      | none =>
        if r.start && !s.me.countersMet (hdrMask h) (hdrT h) then s.waitClause (.header (hdrMask h) (hdrT h))
        else s.latchWords h

/-! ### Issuing -/

/-- A word of a mix clause starts no earlier than two slice cycles after the previous word of the clause started (R26, R202). -/
def State.spaced (s : State) : State :=
  let g := s.me
  if hdrEng g.run.head ≠ 4 then s
  else
    let x := (s.sliceOf g).catchUp s.time
    let s := if g.run.idx ≠ 0 ∧ x.cycle < x.wordAt + 2 then s.pause g.cluster g.slice (x.wordAt + 2 - x.cycle) 2 else s
    s.onCluster g.cluster (fun c => c.onSlice g.slice (fun y => { y.catchUp s.time with wordAt := (s.issueTime g.cluster g.slice).2 }))

/-- The slice lets cycles pass until what the word reads may be read: the interlock of R106, reason 1 of R366. -/
def State.interlock (s : State) : State :=
  let g := s.me
  let r := g.run
  let x := (s.sliceOf g).catchUp s.time
  let due := (readKeys (r.words.getD r.idx 0) (r.words.getD (r.idx + 1) 0)).foldl (fun m k => max m (FMap.at 0 r.ready k)) 0
  if x.cycle < due then s.pause g.cluster g.slice (due - x.cycle) 1 else s

/-- What the word `w` of the run has written may be read four cycles after its last pass (R106, R131), and after the last cycle of a pass of several
(DESIGN CHOICE, log entry 96); `x` is its second word. -/
def State.noteWritten (s : State) (w x : Word) : State :=
  let g := s.me
  if !g.run.active || g.run.stopped || g.run.quit || (shortKeys w x).isEmpty then s
  else
    let due := (s.sliceOf g).cycleAt s.time + 3
    s.onMe (fun g => { g with run := { g.run with ready := (shortKeys w x).foldl (fun m k => FMap.put m k due) g.run.ready } })

/-- The next word of the latched clause issues: a word that a handler may not execute is cause 0x0F (R342); else the instruction has its effect, and what
follows the word happens. -/
noncomputable def State.issueWord (s : State) : Host.Outcome State Fault Refusal :=
  let r := s.me.run
  let w := r.words.getD r.idx 0
  if r.handler && !handlerAllows w then .next (s.spaced.trapHere 0x0F (classOp w)).afterWord
  else
    match instrAt r.words r.idx with
    | none => .refused .noClause
    | some i =>
      match exec i s.markSafe.noteBegin.interlock.spaced with
      | .next t => .next ((s.keepSafe t).noteWritten w (r.words.getD (r.idx + 1) 0)).afterWord
      | .fault f => .fault f
      | .refused f => .refused f

/-- A word boundary of the run of the current group. -/
noncomputable def State.runStep (s : State) : Host.Outcome State Fault Refusal :=
  let g := s.me
  let r := g.run
  if r.stopped || g.contained.isSome || !g.resident || g.retired then .next s.closeRun
  else
    let s := if r.words.isEmpty then { s with fresh := s.fresh + 1 }.latch else s
    let r := s.me.run
    if r.words.isEmpty || !r.active then .next s
    else if r.words.length ≤ r.idx then .next s.completeClause
    else s.issueWord

/-! ### Charged ticks (R304, R349) -/

/-- No member team of the conversation is pre-empted or halted (R304). -/
def State.convRuns (s : State) (t : Nat) : Bool :=
  (s.parties t).all (fun m => (match (s.team m).place with | .resident _ => true | _ => false) && (s.teamGroups m).all (fun p => !s.heldGroup p.2))

/-- The first `n` levels of a list count `dt` ticks. -/
def chargeLevels (dt : Nat) : Nat → List Level → List Level
  | 0, ls => ls
  | _ + 1, [] => []
  | n + 1, l :: ls => { l with used := l.used + dt } :: chargeLevels dt n ls

/-- The slice cycles that passed in a step without issue counted for the slices that hold a group, under the reason that held before it (R366). -/
def State.countCycles (old new : State) : State :=
  let at_ := ((new.groups.filter (fun p => p.2.resident && !p.2.retired)).map (fun p => p.2.cluster * 16 + p.2.slice)).dedup
  at_.foldl (fun s x =>
    let y := ((s.cluster (x / 16)).slice (x % 16)).catchUp s.time
    if y.cycle = y.counted then s
    else s.onCluster (x / 16) (fun c => c.onSlice (x % 16) (fun _ => y.countStalls (old.stallReason (x / 16) (x % 16))))) new

/-- The ticks that passed in a step charged to the teams that held a cluster before and after it: the watchdog count and the tick counts of the open
levels (R304, R349, R350); and the cycles of the slices counted. -/
def State.charge (old new : State) : State :=
  let new := old.countCycles new
  let dt := new.tick - old.tick
  if dt = 0 then new
  else
    let teams : FMap Team := FMap.mapVals (fun k (t : Team) =>
      if old.charged k && (match t.place with | .resident _ => true | _ => false) then
        { t with
          wdcount := (t.wdcount + dt) % 2 ^ 64
          levels := if old.convRuns k then chargeLevels dt (old.team k).levels.length t.levels else t.levels }
      else t) new.teams
    { new with teams := teams }

/-! ### Code words overwritten (R402) -/

/-- The words in which two memories differ; `fuel` is the number of their entries. -/
def memDiff : Nat → Mem → Mem → List Nat
  | 0, _, _ => []
  | _ + 1, [], [] => []
  | n + 1, (k, _) :: a, [] => k / 4 :: memDiff n a []
  | n + 1, [], (k, _) :: b => k / 4 :: memDiff n [] b
  | n + 1, (k, v) :: a, (j, w) :: b =>
    if k = j then (if v = w then memDiff n a b else k / 4 :: memDiff n a b)
    else if k < j then k / 4 :: memDiff n a ((j, w) :: b)
    else j / 4 :: memDiff n ((k, v) :: a) b

/-- The key of a code word at a place of memory. -/
def codeKey (sp : Space) (pa : Nat) : Nat := pa / 4 + (match sp with | .host => 2 ^ 72 | _ => 0)

/-- The page of each code address of a grid, with the place it is mapped to. -/
def State.codePages (s : State) (g : Grid) : List Nat :=
  (pagesOf g.record.code (4 * g.record.words)).filterMap (fun pg => match s.target 0 g.part .fetch (pg * 2 ^ 16) with
    | .ok .fabric pa => some (codeKey .fabric (s.keyed g.part pa) / 2 ^ 14)
    | .ok sp pa => some (codeKey sp pa / 2 ^ 14)
    | .bad .. => none)

/-- The words of code images in use that a step overwrote, with what stood there; forgotten when every grid has retired (R402). -/
def State.noteCode (old new : State) : State :=
  let grids := new.grids.filter (fun g => !g.2.retired)
  if grids.isEmpty then { new with codeOld := [] }
  else
    let d (a b : Mem) (sp : Space) : List (Nat × Word) :=
      (memDiff (a.length + b.length) a b).dedup.map (fun w => (codeKey sp (4 * w), BitVec.ofNat 32 (Mem.num a (4 * w) 4)))
    match d old.mem new.mem .global ++ d old.hostMem new.hostMem .host ++ d old.remote new.remote .fabric with
    | [] => new
    | ws =>
      let pages := (grids.flatMap (fun g => new.codePages g.2)).dedup
      { new with codeOld := (ws.filter (fun w => pages.contains (w.1 / 2 ^ 14))).foldl (fun m w =>
          FMap.put m w.1 (FMap.at [] m w.1 ++ [(old.fresh, w.2)])) new.codeOld }

/-! ### What the machine does of itself -/

/-- Events of accesses, producers and commands. -/
noncomputable def State.unitEvents (s : State) : List Instr :=
  s.accesses.map (fun p => match p.2.kind with
    | .load => .loadResult { num := p.1 }
    | .store => .storePerformed { num := p.1 }
    | .atomic _ => .atomicCompletion { num := p.1 }) ++
  s.producers.map (fun p => match p.2.kind with
    | .sfu => .sfuResult p.1
    | .lread => .lreadResult p.1
    | .objdecl => .objdeclResult p.1
    | .launch => .launchResult p.1
    | .meter => .meterResult p.1) ++
  s.commands.map (fun p => .engineCommandCompletion p.1) ++ s.commands.map (fun p => .engineCommandStart p.1)

/-- The cluster whose walk asked for a page: one on which the partition has a group. -/
def State.walkCluster (s : State) (part : Nat) : Nat :=
  match s.groups.find? (fun p => p.2.resident && s.partOf p.2 == part) with
  | some p => p.2.cluster
  | none => 0

/-- Events of walks, invalidations and write tokens. -/
noncomputable def State.memEvents (s : State) : List Instr :=
  (s.pages.filter (fun r => !r.sent && !(s.part r.part).pfq.full)).map (fun r => .translationWalkEnd (s.walkCluster r.part) r.part r.page) ++
  (FMap.keys s.parts).map (fun p => .tlbInvalidationComplete p) ++
  s.objects.map (fun o => .tokenGrant o.2.part o.1) ++
  (FMap.keys s.clusters).flatMap (fun cl => s.objects.map (fun o => .tokenRequestArrival cl o.2.part o.1))

/-- Events of groups and teams. -/
noncomputable def State.teamEvents (s : State) : List Instr :=
  (FMap.keys s.teams).flatMap (fun t => [.rollback t, .recoveryTickLimitExpiry t, .hangWatchdogExpiry t, .scratchpadClearDone t]) ++
  (FMap.keys s.groups).flatMap (fun g => [.exitStatusWrite g, .groupRetirement g, .deferredTrapTaken g, .haltLimitExpiry g]) ++
  s.dies.flatMap (fun d => (FMap.keys d.2.slots).flatMap (fun n => [.regionCommit d.1 n, .regionReservationLapse d.1 n])) ++
  s.grids.flatMap (fun g => g.2.releases.map (fun r => .gbarClusterRelease g.1 r.1))

/-- Events of the scheduler. -/
noncomputable def State.schedEvents (s : State) : List Instr :=
  (FMap.keys s.teams).flatMap (fun t => [.drainAllowanceExpiry t, .flushToEnsure t, .flushAndRestart t, .teamSave t]) ++
  (FMap.keys s.grids).map (fun g => .childRingTransfer g) ++
  (FMap.keys s.queues).map (fun q => .launchRecordRead q) ++
  (.teamAdmission :: (FMap.keys s.teams).map (fun t => .teamRestore t)) ++
  (FMap.keys s.grids).map (fun g => .heldOutPreemption g) ++
  s.grids.flatMap (fun g => .admissionReservation g.1 0 :: g.2.saved.map (fun t => .admissionReservation g.1 t)) ++
  s.parts.flatMap (fun p => (p.2.goWait.map (fun v => .prctlGo p.1 v)).toList)

/-- Events of the module. -/
noncomputable def State.moduleEvents (s : State) : List Instr :=
  [.controlInterval, .ginghamSample, .signedReadingWritten] ++
  (FMap.keys s.module.corrected).map (fun b => .scrubWindowExpiry b) ++
  (s.module.bankQueue.take 1).map (fun b => .bankReencode b) ++
  s.clusters.flatMap (fun c => .dumpHoldExpiry c.1 :: (FMap.keys c.2.slices).flatMap (fun sl => [.droopStretchEnd c.1 sl, .halvedWindowEnd c.1 sl]))

/-- The slices that hold a group, the one that has been idle longest first. -/
noncomputable def State.runEvents (s : State) : List Instr :=
  let at_ := ((s.groups.filter (fun p => p.2.resident && !p.2.retired)).map (fun p => p.2.cluster * 16 + p.2.slice)).dedup
  (sortBy (fun x => ((s.cluster (x / 16)).slice (x % 16)).lastEnd) at_).map (fun x => .runStart (x / 16) (x % 16))

/-- The first of some events that changes more than the group in turn, with the state after it. -/
def firstChange (s : State) : List Instr → Option (Instr × State)
  | [] => none
  | i :: rest =>
    match exec i s with
    | .next t => if { t with cur := s.cur } = s then firstChange s rest else some (i, t)
    | .fault _ => firstChange s rest
    | .refused _ => firstChange s rest

/-- The events that the machine makes of itself, in the order in which they are tried. -/
noncomputable def State.ownEvents (s : State) : List Instr :=
  s.unitEvents ++ s.memEvents ++ s.teamEvents ++ s.schedEvents ++ s.moduleEvents ++ s.runEvents

/-- No word issues and the agenda is empty: a run that has been left goes on, else bring-up goes on, else accesses from outside that need wait no longer are
performed, else the first event that does something happens, else a tick passes. -/
noncomputable def State.idleStep (s : State) : State :=
  match s.groups.find? (fun p => p.2.run.active) with
  | some p => { s with cur := p.1 }
  | none =>
    if s.booting then s.bootStep
    else if s.outside.any (fun o => s.outsideReady o) then s.drainOutside
    else
    match firstChange s s.ownEvents with
    | some (_, t) => t
    | none => { s with time := s.time + 840 }

/-- What the host does at a BAR, which it cannot use before step 5 of bring-up (R398). -/
def isBarAccess (i : Instr) : Bool :=
  isRegWrite i || match i with | .hostWindowRead .. => true | .hostWindowWrite .. => true | _ => false

/-- What happens in a step, before its ticks are charged. Errors of arrays that have come to light take effect first (R387); a write of the control space comes
after the host writes that arrived before it (R391). -/
noncomputable def State.act (s : State) : Host.Outcome State Fault Refusal :=
  let s := if s.dueErrors.isEmpty then s else s.settleErrors
  match s.nextReg with
  | some (o, i) => exec i { s with outside := s.outside.erase o }
  | none =>
    match s.agenda with
    | i :: rest =>
      if isBarAccess i && decide (s.module.bootstat % 16 < 5) then .next { s with agenda := rest }
      else if isRegWrite i && s.regWaits s.fresh then .next ({ s with agenda := rest }.queueReg i)
      else exec i { s with agenda := rest }
    | [] => if s.me.run.active then s.runStep else .next s.idleStep

/-! ### Atomics that other clusters need not see yet (R271) -/

/-- An event that orders nothing between clusters: a load's value, an atomic that is no release, the start of a run. -/
def State.quietEvent (s : State) : Instr → Bool
  | .loadResult _ => true
  | .atomicCompletion acc => (FMap.look s.accesses acc.num).all (fun a => !releases a.order)
  | .runStart _ _ => true
  | _ => false

/-- The next step orders nothing between clusters: such an event, a step of a run that executes no E word and has no fence to pass, or a tick. Every other step
settles what relaxed atomics have written (DEDUCED, log entry 70). -/
noncomputable def State.quiet (s : State) : Bool :=
  s.nextReg.isNone &&
  match s.agenda with
  | i :: _ => s.quietEvent i
  | [] =>
    let r := s.me.run
    if r.active then s.me.fences.isEmpty && wordClass (r.words.getD r.idx 0) != 5
    else if s.groups.any (fun p => p.2.run.active) then true
    else match firstChange s s.ownEvents with
      | some (i, _) => s.quietEvent i
      | none => true

/-- What relaxed atomics have written has reached every cluster, unless the step from a state was quiet. -/
noncomputable def State.settleAfter (old new : State) : State :=
  if new.unsettled.isEmpty || old.quiet then new else { new with unsettled := [] }

/-! ### Placing one instruction for the next step -/

/-- A header of engine class mix with a count of words (R24, R26). -/
def placeHeader (n : Nat) : Word := BitVec.ofNat 32 (7 * 2 ^ 29 + n * 2 ^ 25 + 4 * 2 ^ 22)

/-- The bytes placed in device memory: page table entries of levels 0 to 3 for virtual address 0 (R222, R223), each naming the next table or
the page at 2^16, readable, writable and executable by partition 0. -/
def placeTable : List (Nat × Nat) := [(0x1000, 0x2001), (0x2000, 0x3001), (0x3000, 0x3101), (0x3100, 0x1000F)]

/-- A clause of one instruction in device memory with the page table that maps it. -/
def placeMem (m : Mem) (n : Nat) (w0 w1 : Word) : Mem :=
  let m := placeTable.foldl (fun m e => Mem.writeBytes m e.1 (leBytes 8 e.2)) m
  let m := Mem.writeBytes m 0x10000 (leBytes 4 (placeHeader n).toNat)
  Mem.writeBytes (Mem.writeBytes m 0x10004 (leBytes 4 w0.toNat)) 0x10008 (leBytes 4 w1.toNat)

/-- The launch record of the placed program: one team of 64 lanes, code at virtual address 0, no handler (R313). -/
def placeRecord : LaunchRec := { words := 3, teamX := 64, drainest := 0 }

/-- A state with one team of one group on slice 0 of cluster 0 that is about to fetch a clause of one instruction, at virtual address 0 of partition 0:
what the launch of a grid brings about (R193, R322), with nothing else changed but that nothing of the agenda or of the control space comes first. -/
def placeRun (s : State) (n : Nat) (w0 w1 : Word) : State :=
  let f := s.fresh
  let m := placeMem s.mem n w0 w1
  let part := { s.part 0 with root := 0x1000 }
  let c := { s.cluster 0 with part := 0, enabled := true, tlb := [], frozen := none }
  let d := { s.die 0 with tlb := [] }
  let sl := c.slice 0
  let grid : Grid := { part := 0, record := placeRecord, order := f, next := 1, live := [f + 1] }
  let team : Team := { newTeam grid f 0 0 0 {} s.tick with groups := [f + 2] }
  let group := launchGroup (f + 1) 0 0 0 0 64 placeRecord
  { s with
    mem := m, poison := s.poison.filter (fun p => decide (0x8000 ≤ p.1))
    parts := FMap.put s.parts 0 part, clusters := FMap.put s.clusters 0 c, dies := FMap.put s.dies 0 d
    grids := FMap.put s.grids f grid, teams := FMap.put s.teams (f + 1) team
    groups := FMap.put s.groups (f + 2) { group with run := freshRun { resumeAt 0 0 (BitVec.allOnes 64) .ready with start := true } false true 0 sl.passDiv sl.ratio }
    agenda := [], outside := s.outside.filter (fun o => o.reg.isNone), cur := f + 2, fresh := f + 3 }

end Sys2Proof.Machine
end

