-- ==== Sys2Proof/Machine/Step.lean ====
section
/-! DEFINITION. One step of the machine, and a state whose next step runs a given instruction. -/
namespace Sys2Proof.Machine

/-- One step: the next event of the agenda, the next word of the run that issues, an event of the machine's own, or a tick; its ticks are charged to
the resident teams (R349), the samples that fall due are taken (R364), and code words that it overwrote are noted (R402). -/
noncomputable def step (s : State) : Host.Outcome State Fault Refusal :=
  match s.act with
  | .next t => .next (State.noteCode s (State.takeSamples s (State.charge s (s.settleAfter t))))
  | .fault f => .fault f
  | .refused f => .refused f

/-- The state with an instruction of `nbits` bits `w` placed so that the next step fetches and runs it (log entry 19). -/
def State.withFetchWord (s : State) (nbits w : Nat) : State :=
  let p := wordsOfBits nbits w
  placeRun s (wordsOf p.1) p.1 p.2

end Sys2Proof.Machine
end

