-- ==== Sys2Proof/WellFormed.lean ====
section
/-! DEFINITION. Well-formed instructions: those whose fields the spec's decode causes do not refuse (R43). An event names agents and data by number
and is always well formed; where it names nothing that exists it leaves the machine as it is. -/
namespace Sys2Proof

/-- An instruction with no decode cause of R43 in its fields. -/
def WellFormed (i : Instr) : Prop := instrCauses i = []

/-- The check as a Bool. -/
def wellFormedB (i : Instr) : Bool := (instrCauses i).isEmpty

/-- A step of the machine that is no word: it has no encoding. -/
def isEvent : Instr → Bool
  | .runStart _ _ => true
  | .deferredTrapTaken _ => true
  | .loadResult _ => true
  | .sfuResult _ => true
  | .lreadResult _ => true
  | .atomicCompletion _ => true
  | .storePerformed _ => true
  | .objdeclResult _ => true
  | .launchResult _ => true
  | .meterResult _ => true
  | .engineCommandStart _ => true
  | .engineCommandCompletion _ => true
  | .translationWalkEnd _ _ _ => true
  | .pfansWrite _ _ => true
  | .tlbInvalidationStart _ _ => true
  | .tlbInvalidationComplete _ => true
  | .tokenRequestArrival _ _ _ => true
  | .tokenGrant _ _ => true
  | .lineMigrationComplete _ _ => true
  | .wayPairGating _ => true
  | .wayPairEnable _ => true
  | .gbarClusterRelease _ _ => true
  | .regionCommit _ _ => true
  | .regionReservationLapse _ _ => true
  | .recoveryTickLimitExpiry _ => true
  | .rollback _ => true
  | .undoAreaLost _ => true
  | .lqptrTailWrite _ _ => true
  | .launchRecordRead _ => true
  | .childRingTransfer _ => true
  | .teamAdmission => true
  | .scratchpadClearDone _ => true
  | .admissionReservation _ _ => true
  | .heldOutPreemption _ => true
  | .groupRetirement _ => true
  | .prctlGo _ _ => true
  | .prctlResume _ _ => true
  | .drainAllowanceExpiry _ => true
  | .teamSave _ => true
  | .flushToEnsure _ => true
  | .flushAndRestart _ => true
  | .teamRestore _ => true
  | .exitStatusWrite _ => true
  | .hangWatchdogExpiry _ => true
  | .registerFileError _ _ _ => true
  | .moduleShutdown => true
  | .dbgHalt _ _ => true
  | .dbgResume _ _ => true
  | .dbgStep _ _ => true
  | .haltLimitExpiry _ => true
  | .dumpAttach _ => true
  | .dumpRelease _ => true
  | .dumpHoldExpiry _ => true
  | .ginghamSample => true
  | .controlInterval => true
  | .droopAlarm _ _ => true
  | .droopStretchEnd _ _ => true
  | .halvedWindowEnd _ _ => true
  | .timingReplay _ _ _ => true
  | .signPartitionCounters _ => true
  | .signJobRecord _ => true
  | .signedReadingWritten => true
  | .scrubLine _ _ _ _ _ => true
  | .scrubWindowExpiry _ => true
  | .bankReencode _ => true
  | .errctlClr _ => true
  | .classignWrite _ _ => true
  | .hostWindowRead _ _ _ _ => true
  | .hostWindowWrite _ _ _ _ => true
  | .fabricAccess _ _ => true
  | .keyRevocation _ => true
  | .coldReset => true
  | .warmReset => true
  | .registerWrite _ _ => true
  | .ringHeadWrite _ _ => true
  | .fabricLinkFailure _ => true
  | .flitLinkCheckFailure _ => true
  | .killRequest _ => true
  | .partitionTeardown _ => true
  | _ => false

end Sys2Proof
end

