-- ==== Sys2Proof/Safety.lean ====
section
/-! DEFINITION. The terms in which claims are made: an instruction that completes, what its operands must be for it, what it leaves unchanged, and the
invariants of the machine. -/
namespace Sys2Proof.Machine

/-! ### Completion -/

/-- A meaning answers a next state, and that state has a property. -/
def Gives (o : Host.Outcome State Fault Refusal) (P : State → Prop) : Prop := ∃ t, o = .next t ∧ P t

/-- A register operand is full wherever it is looked at: in the lanes of a set, or for its group (R19). -/
def Group.full (g : Group) (m : LaneSet) (o : Nat) : Prop :=
  (o < 72 → ∀ l, inSet m l = true → (g.lane l).isEmpty o = false) ∧ (80 ≤ o → o < 112 → g.sIsEmpty (o - 80) = false)

/-- The operands of a word are ready in a set of lanes: sources full, lr valid where it is a source, destinations full (R20, R21). -/
def Group.ready (g : Group) (m : LaneSet) (srcs dsts : List Nat) : Prop :=
  (∀ o ∈ srcs, g.full m o ∧ (o = 72 → ∀ l, inSet m l = true → (g.lane l).lrValid = true)) ∧ ∀ d ∈ dsts, g.full m d

/-- The operands of the word that issues are ready in its active set. -/
def State.ready (s : State) (srcs dsts : List Nat) : Prop := s.me.ready s.me.run.act srcs dsts

/-! ### Frames -/

/-- The run of the issuing group after a word of `n` words has issued (R29). -/
def Run.after (r : Run) (n : Nat) : Run := { r with idx := r.idx + n, used := r.used + n }

/-- Everything outside the reference counter, the clusters, the teams and the groups is as it was: all memories, every table of accesses, engines,
objects, regions, pages, grids, partitions and the module. -/
def SameWorld (s t : State) : Prop := { t with time := s.time, clusters := s.clusters, teams := s.teams, groups := s.groups } = s

/-- Clusters keep all but the counters of the slice that issued; other groups are as they were. -/
structure OwnSlice (s t : State) : Prop where
  cluster : ∀ c, { t.cluster c with slices := (s.cluster c).slices } = s.cluster c
  slice : ∀ c k, ¬ (c = s.me.cluster ∧ k = s.me.slice) → (t.cluster c).slice k = (s.cluster c).slice k
  group : ∀ k, k ≠ s.cur → t.group k = s.group k
  cur : t.cur = s.cur

/-- A level without what it logs of lanes (R297). -/
def Level.bare (lv : Level) : Level := { lv with lanes := [] }

/-- Teams keep everything but what an open level of the issuing team logs of its lanes (R297). -/
structure TeamsButLogs (s t : State) : Prop where
  other : ∀ k, k ≠ s.me.team → t.team k = s.team k
  own : { t.team s.me.team with levels := (s.team s.me.team).levels } = s.team s.me.team
  levels : (t.team s.me.team).levels.map Level.bare = (s.team s.me.team).levels.map Level.bare

/-- What a vector word of `n` words leaves unchanged: all but the lanes of its group. -/
structure VecFrame (n : Nat) (s t : State) : Prop where
  world : SameWorld s t
  slice : OwnSlice s t
  teams : TeamsButLogs s t
  group : { t.me with lanes := s.me.lanes } = { s.me with run := s.me.run.after n }

/-- What a scalar word of `n` words leaves unchanged: all but the scalar registers of its group. -/
structure ScalarFrame (n : Nat) (s t : State) : Prop where
  world : SameWorld s t
  slice : OwnSlice s t
  teams : t.teams = s.teams
  group : { t.me with sregs := s.me.sregs, sEmpty := s.me.sEmpty } = { s.me with run := s.me.run.after n }

/-- A lane after a short-latency result `v` with flags: D and lr hold the value and are full, the flags are joined, all else is as it was (R17, R50). -/
structure LaneResult (d : Nat) (v : Word) (fl : FpFlags) (n n' : Lane) : Prop where
  dest : d < 72 → n'.reg d = v ∧ n'.isEmpty d = false
  regs : ∀ r, r < 72 → r ≠ d → n'.reg r = n.reg r ∧ n'.isEmpty r = n.isEmpty r
  lr : n'.lr = v ∧ n'.lrValid = true
  flags : n'.fpflags = n.fpflags ||| fl
  rest : { n' with regs := n.regs, empty := n.empty, lr := n.lr, lrValid := n.lrValid, fpflags := n.fpflags } = n

/-- A vector word of `n` words wrote result `v l` with flags `fl l` to D in the active lanes for which `on` holds, and changed nothing else. -/
structure Wrote (n d : Nat) (on : Nat → Bool) (v : Nat → Word) (fl : Nat → FpFlags) (s t : State) : Prop where
  frame : VecFrame n s t
  hit : ∀ l, inSet s.me.run.act l = true → on l = true → LaneResult d (v l) (fl l) (s.me.lane l) (t.me.lane l)
  miss : ∀ l, l < 64 → ¬ (inSet s.me.run.act l = true ∧ on l = true) → t.me.lane l = s.me.lane l

/-- A vector word of `n` words set predicate `p` of each active lane to `v l`, joined flags `fl l`, and changed nothing else. -/
structure WrotePred (n p : Nat) (v : Nat → Bool) (fl : Nat → FpFlags) (s t : State) : Prop where
  frame : VecFrame n s t
  hit : ∀ l, inSet s.me.run.act l = true →
    (t.me.lane l).pred p = v l ∧ (∀ q, q < 24 → q ≠ p → (t.me.lane l).pred q = (s.me.lane l).pred q) ∧
    (t.me.lane l).fpflags = (s.me.lane l).fpflags ||| fl l ∧
    { t.me.lane l with preds := (s.me.lane l).preds, fpflags := (s.me.lane l).fpflags } = s.me.lane l
  miss : ∀ l, l < 64 → inSet s.me.run.act l = false → t.me.lane l = s.me.lane l

/-- A scalar word of `n` words left `v` in scalar register `r`, full, and changed nothing else. -/
structure WroteS (n r : Nat) (v : Word) (s t : State) : Prop where
  frame : ScalarFrame n s t
  hit : t.me.s r = v ∧ t.me.sIsEmpty r = false
  miss : ∀ k, k < 32 → k ≠ r → t.me.s k = s.me.s k ∧ t.me.sIsEmpty k = s.me.sIsEmpty k

/-- The team of the issuing group after its watchdog count has been reset (R350), teams otherwise keeping all but what levels log of lanes. -/
structure TeamsKicked (s t : State) : Prop where
  other : ∀ k, k ≠ s.me.team → t.team k = s.team k
  own : { t.team s.me.team with levels := (s.team s.me.team).levels, wdcount := (s.team s.me.team).wdcount } = s.team s.me.team
  count : (t.team s.me.team).wdcount = 0
  levels : (t.team s.me.team).levels.map Level.bare = (s.team s.me.team).levels.map Level.bare

/-- What a cross-lane word leaves unchanged when its gathering executes: all but the lanes of its group, the gathering, which is closed, and the watchdog
count; the lanes that had arrived earlier issue on with the active ones (R127, R128). -/
structure GatherFrame (earlier : LaneSet) (s t : State) : Prop where
  world : SameWorld s t
  slice : OwnSlice s t
  teams : TeamsKicked s t
  group : { t.me with lanes := s.me.lanes } = { s.me with
    gatherings := s.me.gatherings.filter (fun w => !(w.hdr == s.me.run.hdr && w.word == s.me.run.idx))
    run := { s.me.run.after 2 with act := earlier ||| s.me.run.act } }

/-- What a read leaves behind that no lane can tell: lines in the caches, cached translations, and counts of table errors and of poisoned words (R219, R224,
R225, R348). Copies of an L1 that others have written since are among it. -/
structure CachesOnly (s t : State) : Prop where
  world : { t with clusters := s.clusters, dies := s.dies, llc := s.llc, parts := s.parts } = s
  cluster : ∀ c, { t.cluster c with
    l1 := (s.cluster c).l1, stale := (s.cluster c).stale, dirty := (s.cluster c).dirty, l1Hits := (s.cluster c).l1Hits, l1Misses := (s.cluster c).l1Misses, tlb := (s.cluster c).tlb } = s.cluster c
  die : ∀ d, { t.die d with tlb := (s.die d).tlb } = s.die d
  part : ∀ p, { t.part p with errcnt := (s.part p).errcnt } = s.part p

/-- What the read of a block leaves behind: what any read does, flits counted, and errors of device memory that have come to light (R380, R385). -/
structure BlockRead (s t : State) : Prop where
  world : { t with clusters := s.clusters, dies := s.dies, llc := s.llc, parts := s.parts, module := s.module, dramErr := s.dramErr, poison := s.poison } = s
  cluster : ∀ c, { t.cluster c with
    l1 := (s.cluster c).l1, stale := (s.cluster c).stale, dirty := (s.cluster c).dirty, l1Hits := (s.cluster c).l1Hits, l1Misses := (s.cluster c).l1Misses, tlb := (s.cluster c).tlb } = s.cluster c
  die : ∀ d, { t.die d with tlb := (s.die d).tlb } = s.die d
  part : ∀ p, { t.part p with errcnt := (s.part p).errcnt } = s.part p
  module : { t.module with flits := s.module.flits, corrBank := s.module.corrBank } = s.module
  sound : s.dramErr = [] → t.dramErr = [] ∧ t.poison = s.poison

/-- A block of `n` bytes at an address that its alignment admits can be read, and holds bytes `b` once errors in it have come to light (R169, R385). -/
def State.blockIs (s : State) (va n align : Nat) (b : List (BitVec 8)) : Prop :=
  va % align = 0 ∧ (∃ x k, s.readBlock va n = .bytes x k) ∧ (s.checkBlock va n).readBlock va n = .bytes b 0

/-- The state after the read of a block. -/
def State.afterBlock (s : State) (va n : Nat) : State := (s.checkBlock va n).noteBlock va n

/-- The state before a word with the long-latency producers and the numbers given out of a later one: what a word that adds a producer is compared
with. -/
def State.sameUnits (t s : State) : State := { t with producers := s.producers, fresh := s.fresh }

/-! ### Memory words -/

/-- Nothing holds back a memory word of the issuing group: it has active lanes, none of them in a region or about to abort, no fence, no rollback and no
open level. -/
def State.memFree (s : State) : Prop :=
  s.me.run.act ≠ 0 ∧ s.me.fences = [] ∧ s.myTeam.rollback = none ∧ s.myTeam.levels = [] ∧
  ∀ l, inSet s.me.run.act l = true → (s.me.lane l).region = none ∧ (s.me.lane l).aborting = false

/-- The pieces of a request of so many bytes, as offset and length: a packed block that crosses a line of 128 bytes has two (R149). -/
def lanePieces (packed : Bool) (bytes ea : Nat) : List (Nat × Nat) :=
  if packed = true ∧ 128 - ea % 128 < bytes then [(0, 128 - ea % 128), (128 - ea % 128, bytes - (128 - ea % 128))] else [(0, bytes)]

/-- A memory word of `n` words emptied the registers `regs` of the lanes `on`, started the access `a`, and changed nothing else but cached translations
(R19, R144, R225). -/
structure Issued (n : Nat) (on : Nat → Bool) (regs : List Nat) (a : Access) (s t : State) : Prop where
  world : { t with time := s.time, clusters := s.clusters, dies := s.dies, groups := s.groups, accesses := s.accesses, fresh := s.fresh } = s
  cluster : ∀ c, { t.cluster c with slices := (s.cluster c).slices, tlb := (s.cluster c).tlb } = s.cluster c
  die : ∀ d, { t.die d with tlb := (s.die d).tlb } = s.die d
  group : ∀ k, k ≠ s.cur → t.group k = s.group k
  own : { t.me with lanes := s.me.lanes } = { s.me with run := s.me.run.after n }
  lanes : ∀ l, l < 64 → t.me.lane l = if on l then regs.foldl Lane.emptyReg (s.me.lane l) else s.me.lane l
  access : FMap.look t.accesses s.fresh = some a
  accesses : ∀ k, k ≠ s.fresh → FMap.look t.accesses k = FMap.look s.accesses k
  fresh : t.fresh = s.fresh + 1

/-- The access that a memory word of the issuing group starts, its parts given. -/
def State.accessHere (s : State) (kind : AccKind) (order scope reuse n : Nat) (dest : Option Nat) (nregs width : Nat) (sext : Bool) (parts : List Part) :
    Access :=
  { kind := kind, group := s.cur, cluster := s.me.cluster, team := s.me.team, order := order, scope := scope, reuse := reuse, dest := dest
    nregs := nregs, width := width, sext := sext, parts := parts, hdr := s.me.run.hdr, word := s.me.run.idx, after := s.me.run.idx + n
    classOp := s.me.run.classOp }

/-- Every piece of the requests of a memory word that does not act on the scratchpad is translated to a place it may use: `loc` gives its space and
physical address. -/
def State.mapped (s : State) (write atomic packed : Bool) (bytes : Nat) (on : Nat → Bool) (ea : Nat → Nat) (loc : Nat → Nat → Space × Nat) : Prop :=
  ∀ l, on l = true → ∀ p ∈ lanePieces packed bytes (ea l),
    s.target s.me.cluster (s.partOf s.me) (if write then .write else .read) (ea l + p.1) = .ok (loc l p.1).1 (loc l p.1).2 ∧
    ((loc l p.1).1 = .host → atomic = false ∧ packed = false ∧
      (write = false → ∀ w ∈ wordsIn (loc l p.1).2 p.2, FMap.has s.hostErr w = false))

/-- The piece of a lane's request at an offset of a length, where it lies in memory: whether it waits at a tentative line is noted (R242). -/
def State.partAt (s : State) (l ea : Nat) (piece : Nat × Nat) (loc : Space × Nat) (data : List (BitVec 8)) : Part :=
  { lane := l, space := loc.1, addr := loc.2, len := piece.2, va := ea + piece.1, base := piece.1, data := data
    waited := loc.1 == .global && s.foreignLine s.me.team (loc.2 / 128) }

/-- The parts of an access outside the scratchpad: those of each lane of `on` in turn. -/
def State.partsOf (s : State) (packed : Bool) (bytes : Nat) (on : Nat → Bool) (ea : Nat → Nat) (loc : Nat → Nat → Space × Nat)
    (data : Nat → List (BitVec 8)) : List Part :=
  ((lanesIn s.me.run.act).filter on).flatMap (fun l => (lanePieces packed bytes (ea l)).map (fun p =>
    s.partAt l (ea l) p (loc l p.1) (data l)))

/-- Every request of a scratchpad word lies in the team's allocation, on lines that are present (R151, R163). -/
def State.inScratch (s : State) (bytes : Nat) (ea : Nat → Nat) : Prop :=
  ∀ l, inSet s.me.run.act l = true → ea l < s.myTeam.scrSize ∧
    ∀ ln ∈ linesOf (s.myTeam.scrBase + ea l) bytes, FMap.has (s.cluster s.me.cluster).absent ln = false

/-- The parts of a scratchpad access. -/
def State.scratchParts (s : State) (bytes : Nat) (ea : Nat → Nat) (data : Nat → List (BitVec 8)) : List Part :=
  (lanesIn s.me.run.act).map (fun l =>
    { lane := l, space := .scratch, addr := s.myTeam.scrBase + ea l, len := bytes, va := ea l, data := data l })

/-! ### Words that move a run -/

/-- A word changed the issuing group to `g`, its lanes to `lane`, and nothing outside it but the counters of its slice, teams apart. -/
structure Moved (g : Group) (lane : Nat → Lane) (s t : State) : Prop where
  world : SameWorld s t
  slice : OwnSlice s t
  group : { t.me with lanes := s.me.lanes } = { g with lanes := s.me.lanes }
  lanes : ∀ l, l < 64 → t.me.lane l = lane l

/-- The issuing group after a word of one word length has set the program counters of the active lanes (R93), with the end of the run said. -/
def State.afterMove (s : State) (ends : Bool) : Group := { s.me with run := { s.me.run.after 1 with moved := true, ends := ends } }

/-- The lanes of the issuing group with the program counters of the active ones set. -/
def State.sentTo (s : State) (v : Nat → Word) (l : Nat) : Lane := if inSet s.me.run.act l then { s.me.lane l with vpc := v l } else s.me.lane l

/-- *next* of the issuing clause (R84): header + 1 + count. -/
def State.nextHdr (s : State) : Word := s.me.run.hdr + 1 + BitVec.ofNat 32 (hdrCount s.me.run.head)

/-- The address of the issuing word. -/
def State.here (s : State) : Word := s.me.run.hdr + 1 + BitVec.ofNat 32 s.me.run.idx

/-- The lanes of the issuing group as they were. -/
def State.sameLanes (s : State) (l : Nat) : Lane := s.me.lane l

/-! ### Commands and results -/

/-- Nothing keeps the issuing group from commanding a unit with a queue of some depth: no active lane in a region, no rollback, room in the event counter
and in the queue (R168, R169). -/
def State.commandFree (s : State) (ec : BitVec 3) (unit depth : Nat) : Prop :=
  (∀ l, inSet s.me.run.act l = true → (s.me.lane l).region = none) ∧ s.myTeam.rollback = none ∧
  s.me.counter ec.toNat + 1 < 0xFFFF ∧
  (s.commands.filter (fun c => c.2.cluster == s.me.cluster && c.2.unit == unit && !c.2.started)).length < depth

/-- A word put command `c` into its unit's queue, a collective as the next of its communicator, raised its event counter, left the lanes as `lane` says, and
changed nothing else. -/
structure Enqueued (c : Command) (lane : Nat → Lane) (s t : State) : Prop where
  world : { t with time := s.time, clusters := s.clusters, groups := s.groups, commands := s.commands, fresh := s.fresh, colls := s.colls } = s
  colls : t.colls = if c.op = 0x08 then (s.countColl c.part (commOf c.src)).colls else s.colls
  slice : OwnSlice s t
  group : { t.me with lanes := s.me.lanes } =
    { s.me with ec := FMap.put s.me.ec c.ec (BitVec.ofNat 16 (s.me.counter c.ec + 1)), run := s.me.run.after 1 }
  lanes : ∀ l, l < 64 → t.me.lane l = lane l
  command : FMap.look t.commands s.fresh = some (s.queued c)
  commands : ∀ k, k ≠ s.fresh → FMap.look t.commands k = FMap.look s.commands k
  fresh : t.fresh = s.fresh + 1

/-- A word emptied scalar registers `rs`, started producer `p` for them under number `n`, and changed nothing else in the groups. -/
structure Awaits (n : Nat) (rs : List Nat) (p : Producer) (s t : State) : Prop where
  slice : OwnSlice s t
  group : { t.me with sEmpty := s.me.sEmpty } = { s.me with run := s.me.run.after 1 }
  emptied : ∀ r, r < 32 → t.me.sIsEmpty r = (s.me.sIsEmpty r || rs.contains r)
  producer : FMap.look t.producers n = some p
  producers : ∀ k, k ≠ n → FMap.look t.producers k = FMap.look s.producers k
  fresh : t.fresh = n + 1

/-! ### Events -/

/-- An event answers a state, with property `P`, of which what it sets free has followed: barriers, recovery words, regions, retirements, stops. -/
def Settles (o : Host.Outcome State Fault Refusal) (P : State → Prop) : Prop := ∃ u, o = .next u.settleAll ∧ P u

/-- Every group but one is as it was. -/
def State.othersSame (s t : State) (k : Nat) : Prop := ∀ j, j ≠ k → t.group j = s.group j

/-- The bytes that a read of an access finds where its piece lies. -/
def State.spaceBytes (s : State) (a : Access) (p : Part) : List (BitVec 8) :=
  match p.space with
  | .global => s.viewBytes a.cluster p.addr p.len
  | .host => Mem.readBytes s.hostMem p.addr p.len
  | .fabric => s.remoteRead (s.grid (s.team a.team).grid).part p.addr p.len
  | .scratch => Mem.readBytes (s.cluster a.cluster).scratch p.addr p.len

/-- An access of one piece, outside regions and levels and of an unrecorded grid, that may be performed on bytes without poison or errors, on which a load meets
no atomic that another cluster need not see yet. -/
structure State.Performs (s : State) (n : Nat) (a : Access) (p : Part) : Prop where
  listed : FMap.look s.accesses n = some a
  parts : a.parts = [p]
  pending : p.done = false ∧ p.region = none ∧ s.partReady n a p = true
  team : (s.group a.group).team = a.team
  levels : (s.team a.team).levels = []
  log : (s.grid (s.team a.team).grid).record.flags.toNat / 2 ^ 8 % 4 = 0
  lane : ((s.group a.group).lane p.lane).region = none
  global : p.space = .global → ∀ w ∈ wordsIn p.addr p.len, FMap.has s.poison w = false
  scratch : p.space = .scratch → (s.team a.team).scrBase ≤ p.addr ∧ ∀ w ∈ wordsIn p.addr p.len,
    FMap.has (s.cluster a.cluster).scrPoison w = false ∧ FMap.has (s.cluster a.cluster).scrErr w = false
  dram : a.kind ≠ .store → p.space = .global → ∀ ln ∈ linesOf p.addr p.len, FMap.has s.dramErr (2 * ln) = false ∧ FMap.has s.dramErr (2 * ln + 1) = false
  settled : a.kind = .load → p.space = .global → ∀ i < p.len, FMap.has s.unsettled (p.addr + i) = false
  fabric : p.space = .fabric → s.remoteOpen (s.grid (s.team a.team).grid).part p.addr p.len = true ∧
    (a.kind = .store → s.remoteOpen (s.grid (s.team a.team).grid).part p.addr p.data.length = true)

/-- A lane after a load or the return of an atomic filled registers from `d` up (R143, R19). -/
def Access.filled (a : Access) (d : Nat) (bs : List (BitVec 8)) (n : Lane) : Lane :=
  (List.range a.nregs).foldl (fun x i => x.setReg (d + i) (a.regValue bs i)) n

/-- The memories after bytes were written, or not, where a piece lies. -/
structure State.Stored (s t : State) (a : Access) (p : Part) (new : Option (List (BitVec 8))) : Prop where
  mem : t.mem = if p.space = .global then (match new with | some bs => Mem.writeBytes s.mem p.addr bs | none => s.mem) else s.mem
  host : t.hostMem = if p.space = .host then (match new with | some bs => Mem.writeBytes s.hostMem p.addr bs | none => s.hostMem) else s.hostMem
  remote : t.remote = if p.space = .fabric then
    (match new with | some bs => Mem.writeBytes s.remote (s.keyed (s.grid (s.team a.team).grid).part p.addr) bs | none => s.remote) else s.remote
  scratch : ∀ c, (t.cluster c).scratch = if p.space = .scratch ∧ c = a.cluster then
    (match new with | some bs => Mem.writeBytes (s.cluster c).scratch p.addr bs | none => (s.cluster c).scratch) else (s.cluster c).scratch

/-- Groups keep everything but their lanes. -/
def State.onlyLanes (s t : State) : Prop := ∀ k, { t.group k with lanes := (s.group k).lanes } = s.group k

/-- The group of a number is contained with a cause, and none of its lanes is live or parked (R345). -/
def State.containedWith (s : State) (k code : Nat) : Prop :=
  (∃ e, (s.group k).contained = some e ∧ e.cause = code) ∧ ∀ l, l < 64 → ((s.group k).lane l).counts = false

/-- A rollback of a team's innermost level, which no conversation joins to others, has begun for a reason, and other teams are as they were (R300 to
R302). -/
def State.rollsBack (s t : State) (team reason : Nat) (detail : Nat := 0) : Prop :=
  ∃ below lv, (s.team team).levels = below ++ [lv] ∧ (∀ k, t.team k = if k = team then { s.team k with
    rollback := some { level := below.length + 1, last := reason }, recArrivals := [], levels := below ++ [{ lv with phase := 3, fdetail := detail }] } else s.team k)

/-! ### Invariants -/

/-- Device memory, host memory and the memory behind the fabric windows are in their canonical form. -/
def MemoryCanonical (s : State) : Prop := Mem.wf s.mem = true ∧ Mem.wf s.hostMem = true ∧ Mem.wf s.remote = true

end Sys2Proof.Machine
end

