-- ==== Sys2Proof/Certificates/Slice0/Obligations.lean ====
section
/-! DEFINITION. The statements about the model, each a proposition for the provers. -/
open Sys2Proof Sys2Proof.Machine

/-! ### Vector words -/

/-- R107, R111, R17, R105. With its sources and D full, every two-source integer word of class VR writes its row's function of A and B to D and lr of each
active lane and changes nothing else, whatever its empty actions. R107, R111, R68, R17, R105. With its sources and D full, every one-source integer
word of class VR, and the two that accumulate into D, writes its row's result to D and lr of each active lane and changes nothing else. -/
def Obligations.VectorIntegerWords : Prop :=
  (∀ (s : State) (d a b : BitVec 7) (ea eb : Bool), s.ready [a.toNat, b.toNat] (destRegs d) →
      let gives (i : Instr) (f : Word → Word → Word) : Prop :=
        Gives (exec i s) (Wrote 1 d.toNat (fun _ => true) (fun l => f (s.me.src .int l a.toNat) (s.me.src .int l b.toNat)) (fun _ => 0) s)
      gives (.viadd d a b ea eb) (fun x y => x + y) ∧
      gives (.visub d a b ea eb) (fun x y => x - y) ∧
      gives (.viadds d a b ea eb) (fun x y => BitVec.ofInt 32 (max (-2 ^ 31) (min (2 ^ 31 - 1) (x.toInt + y.toInt)))) ∧
      gives (.visubs d a b ea eb) (fun x y => BitVec.ofInt 32 (max (-2 ^ 31) (min (2 ^ 31 - 1) (x.toInt - y.toInt)))) ∧
      gives (.vimul d a b ea eb) (fun x y => x * y) ∧
      gives (.vimulh d a b ea eb) (fun x y => BitVec.ofInt 32 (x.toInt * y.toInt / 2 ^ 32)) ∧
      gives (.vumulh d a b ea eb) (fun x y => BitVec.ofNat 32 (x.toNat * y.toNat / 2 ^ 32)) ∧
      gives (.vimin d a b ea eb) (fun x y => if x.toInt ≤ y.toInt then x else y) ∧
      gives (.vimax d a b ea eb) (fun x y => if x.toInt ≤ y.toInt then y else x) ∧
      gives (.vumin d a b ea eb) (fun x y => if x.toNat ≤ y.toNat then x else y) ∧
      gives (.vumax d a b ea eb) (fun x y => if x.toNat ≤ y.toNat then y else x) ∧
      gives (.vand d a b ea eb) (fun x y => x &&& y) ∧
      gives (.vor d a b ea eb) (fun x y => x ||| y) ∧
      gives (.vxor d a b ea eb) (fun x y => x ^^^ y) ∧
      gives (.vandn d a b ea eb) (fun x y => x &&& ~~~y) ∧
      gives (.vshl d a b ea eb) (fun x y => x <<< (y.toNat % 32)) ∧
      gives (.vshr d a b ea eb) (fun x y => x >>> (y.toNat % 32)) ∧
      gives (.vsar d a b ea eb) (fun x y => x.sshiftRight (y.toNat % 32)) ∧
      gives (.vrol d a b ea eb) (fun x y => x <<< (y.toNat % 32) ||| x >>> (32 - y.toNat % 32))) ∧
  ((∀ (s : State) (d a : BitVec 7) (ea eb : Bool), s.ready [a.toNat] (destRegs d) →
      let gives (i : Instr) (f : Word → Word) : Prop :=
        Gives (exec i s) (Wrote 1 d.toNat (fun _ => true) (fun l => f (s.me.src .int l a.toNat)) (fun _ => 0) s)
      gives (.vclz d a ea eb) (fun x => if x = 0 then 32 else BitVec.ofNat 32 (31 - Nat.log2 x.toNat)) ∧
      gives (.vpopc d a ea eb) (fun x => BitVec.ofNat 32 ((List.range 32).filter (fun i => x.getLsbD i)).length) ∧
      gives (.vbrev d a ea eb) (fun x => x.reverse) ∧
      gives (.viabs d a ea eb) (fun x => if x = 0x80000000 then 0x7FFFFFFF else if x.toInt < 0 then -x else x) ∧
      gives (.vmov d a ea eb) (fun x => x)) ∧
    (∀ (s : State) (d a b : BitVec 7) (ea eb : Bool), s.ready [a.toNat, b.toNat, d.toNat] (destRegs d) →
      let gives (i : Instr) (f : Word → Word → Word → Word) : Prop :=
        Gives (exec i s) (Wrote 1 d.toNat (fun _ => true)
          (fun l => f (s.me.src .int l a.toNat) (s.me.src .int l b.toNat) (s.me.src .int l d.toNat)) (fun _ => 0) s)
      let byte (x : Word) (j : Nat) : Word := (x.extractLsb' (8 * j) 8).signExtend 32
      gives (.vimac d a b ea eb) (fun x y z => z + x * y) ∧
      gives (.vdot4I8 d a b ea eb) (fun x y z =>
        z + (byte x 0 * byte y 0 + byte x 1 * byte y 1 + byte x 2 * byte y 2 + byte x 3 * byte y 3))))

/-- R108, R109, R51, R65. With its sources and D full, every F32 word of class VR writes its exact result rounded once under FPCTL.MODE (or, of R109, one
of its inputs with the sign rule of its row) to D and lr of each active lane, joins the flags of that rounding, and changes nothing else. R110, R47,
R51. With its sources and D full, every packed word of class VR rounds each half by itself, with random bits of its own index, writes both halves to D
and lr of each active lane, joins the flags of both, and changes nothing else. -/
def Obligations.VectorFloatAndPackedWords : Prop :=
  ((∀ (s : State) (d a b : BitVec 7) (ea eb : Bool), s.ready [a.toNat, b.toNat] (destRegs d) →
      let gives (i : Instr) (f : Nat → Word → Word → Word × FpFlags) : Prop :=
        let r (l : Nat) := f l (s.me.src .f32 l a.toNat) (s.me.src .f32 l b.toNat)
        Gives (exec i s) (Wrote 1 d.toNat (fun _ => true) (fun l => (r l).1) (fun l => (r l).2) s)
      let round (l : Nat) (x : Word) (v : FVal × FpFlags) : Word × FpFlags := (f32.finish s.me.fpMode (r16Of s.me.fpKey x l 0) v).word
      gives (.vfadd d a b ea eb) (fun l x y => round l x ((asF32 x).add s.me.fpMode (asF32 y))) ∧
      gives (.vfsub d a b ea eb) (fun l x y => round l x ((asF32 x).add s.me.fpMode (asF32 y).neg)) ∧
      gives (.vfmul d a b ea eb) (fun l x y => round l x ((asF32 x).mul (asF32 y))) ∧
      gives (.vfmin d a b ea eb) (fun _ x y => fpPick false x y) ∧
      gives (.vfmax d a b ea eb) (fun _ x y => fpPick true x y) ∧
      gives (.vfcopysign d a b ea eb) (fun _ x y => (y.extractLsb' 31 1 ++ x.extractLsb' 0 31, 0))) ∧
    (∀ (s : State) (d a : BitVec 7) (ea eb : Bool), s.ready [a.toNat] (destRegs d) →
      let gives (i : Instr) (f : Word → Word) : Prop :=
        Gives (exec i s) (Wrote 1 d.toNat (fun _ => true) (fun l => f (s.me.src .f32 l a.toNat)) (fun _ => 0) s)
      gives (.vfabs d a ea eb) (fun x => 0#1 ++ x.extractLsb' 0 31) ∧
      gives (.vfneg d a ea eb) (fun x => ~~~(x.extractLsb' 31 1) ++ x.extractLsb' 0 31)) ∧
    (∀ (s : State) (d a b : BitVec 7) (ea eb : Bool), s.ready [a.toNat, b.toNat, d.toNat] (destRegs d) →
      let gives (c : Col) (i : Instr) (f : Word → Word → Word → FVal × FpFlags) : Prop :=
        let r (l : Nat) := (f32.finish s.me.fpMode (r16Of s.me.fpKey (s.me.src c l a.toNat) l 0)
          (f (s.me.src c l a.toNat) (s.me.src c l b.toNat) (s.me.src c l d.toNat))).word
        Gives (exec i s) (Wrote 1 d.toNat (fun _ => true) (fun l => (r l).1) (fun l => (r l).2) s)
      gives .f32 (.vfma d a b ea eb) (fun x y z => (asF32 x).fma s.me.fpMode (asF32 y) (asF32 z)) ∧
      gives .f32 (.vfnma d a b ea eb) (fun x y z => (asF32 x).neg.fma s.me.fpMode (asF32 y) (asF32 z)) ∧
      gives .bf16 (.vdot2Bf d a b ea eb) (fun x y z => dot2 s.me.fpMode x y z))) ∧
  (∀ (s : State) (d a b : BitVec 7) (ea eb : Bool),
      let gives (fmt : FFmt) (c : Col) (i : Instr) (f : Nat → Nat → FVal × FpFlags) : Prop :=
        let part (l j : Nat) := fmt.finish s.me.fpMode (r16Of s.me.fpKey (s.me.src c l a.toNat) l j) (f l j)
        Gives (exec i s) (Wrote 1 d.toNat (fun _ => true) (fun l => BitVec.ofNat 32 ((part l 0).bits + (part l 1).bits * 2 ^ 16))
          (fun l => (part l 0).flags ||| (part l 1).flags) s)
      let x (fmt : FFmt) (c : Col) (o : BitVec 7) (l j : Nat) : FVal := half fmt (s.me.src c l o.toNat) j
      (s.ready [a.toNat, b.toNat] (destRegs d) →
        gives bf16 .bf16 (.vhaddBf d a b ea eb) (fun l j => (x bf16 .bf16 a l j).add s.me.fpMode (x bf16 .bf16 b l j)) ∧
        gives bf16 .bf16 (.vhmulBf d a b ea eb) (fun l j => (x bf16 .bf16 a l j).mul (x bf16 .bf16 b l j)) ∧
        gives f16 .f16 (.vhaddH d a b ea eb) (fun l j => (x f16 .f16 a l j).add s.me.fpMode (x f16 .f16 b l j)) ∧
        gives f16 .f16 (.vhmulH d a b ea eb) (fun l j => (x f16 .f16 a l j).mul (x f16 .f16 b l j))) ∧
      (s.ready [a.toNat, b.toNat, d.toNat] (destRegs d) →
        gives bf16 .bf16 (.vhfmaBf d a b ea eb)
          (fun l j => (x bf16 .bf16 a l j).fma s.me.fpMode (x bf16 .bf16 b l j) (x bf16 .bf16 d l j)) ∧
        gives f16 .f16 (.vhfmaH d a b ea eb) (fun l j => (x f16 .f16 a l j).fma s.me.fpMode (x f16 .f16 b l j) (x f16 .f16 d l j))))

/-- R112, R33. With D full, every VI word that reads D writes its row's function of D and the immediate to D and lr of each active lane; the three that do
not read D write theirs; nothing else changes. -/
def Obligations.VectorImmediateWords : Prop :=
  (∀ (s : State) (d : BitVec 7) (e : Bool) (imm : BitVec 16) (sh : BitVec 5), s.ready [d.toNat] (destRegs d) →
    let gives (i : Instr) (f : Word → Word) : Prop :=
      Gives (exec i s) (Wrote 1 d.toNat (fun _ => true) (fun l => f (s.me.src .int l d.toNat)) (fun _ => 0) s)
    gives (.viaddi d e imm) (fun x => x + imm.signExtend 32) ∧
    gives (.vandi d e imm) (fun x => x &&& imm.zeroExtend 32) ∧
    gives (.vori d e imm) (fun x => x ||| imm.zeroExtend 32) ∧
    gives (.vxori d e imm) (fun x => x ^^^ imm.zeroExtend 32) ∧
    gives (.vmovhi d e imm) (fun x => imm ++ x.extractLsb' 0 16) ∧
    gives (.vshli d e sh) (fun x => x <<< sh.toNat) ∧
    gives (.vshri d e sh) (fun x => x >>> sh.toNat) ∧
    gives (.vsari d e sh) (fun x => x.sshiftRight sh.toNat) ∧
    gives (.vimuli d e imm) (fun x => x * imm.signExtend 32)) ∧
  (∀ (s : State) (d : BitVec 7) (e : Bool) (imm : BitVec 16), s.ready [d.toNat] (destRegs d) →
    let gives (i : Instr) (f : FVal → FVal × FpFlags) : Prop :=
      let r (l : Nat) := (f32.finish s.me.fpMode (r16Of s.me.fpKey (s.me.src .int l d.toNat) l 0) (f (asF32 (s.me.src .int l d.toNat)))).word
      Gives (exec i s) (Wrote 1 d.toNat (fun _ => true) (fun l => (r l).1) (fun l => (r l).2) s)
    gives (.vfaddi d e imm) (fun x => x.add s.me.fpMode (bf16.value imm.toNat)) ∧
    gives (.vfmuli d e imm) (fun x => x.mul (bf16.value imm.toNat))) ∧
  (∀ (s : State) (d : BitVec 7) (imm : BitVec 16), s.ready [] (destRegs d) →
    let gives (i : Instr) (f : Nat → Word) : Prop :=
      Gives (exec i s) (Wrote 1 d.toNat (fun _ => true) f (fun _ => 0) s)
    gives (.vmovi d imm) (fun _ => imm.signExtend 32) ∧
    gives (.vmovfi d imm) (fun _ => imm ++ 0#16) ∧
    gives (.vlanei d imm) (fun l => imm.signExtend 32 + BitVec.ofNat 32 l))

/-- R113, R114. With its sources full, every compare word sets the predicate of each active lane to the merge of its old value and the bit of its row,
joins the invalid flag of its row, leaves lr and every other predicate, and changes nothing else. The classes of VFCLASS are those of the list. -/
def Obligations.VectorCompareWords : Prop :=
  (∀ (s : State) (p : BitVec 5) (a b : BitVec 7) (c : BitVec 2) (ea eb : Bool), p.toNat < 24 → s.ready [a.toNat, b.toNat] [] →
      let merge (old new : Bool) : Bool := if c = 0 then new else if c = 1 then old && new else if c = 2 then old || new else !new
      let gives (k : Col) (i : Instr) (f : Word → Word → Bool) (fl : Word → Word → Bool) : Prop :=
        let x (l : Nat) := s.me.src k l a.toNat
        let y (l : Nat) := s.me.src k l b.toNat
        Gives (exec i s) (WrotePred 1 p.toNat (fun l => merge ((s.me.lane l).pred p.toNat) (f (x l) (y l)))
          (fun l => if fl (x l) (y l) then flagNV else 0) s)
      let quiet (_ _ : Word) : Bool := false
      let snan (x y : Word) : Bool := (asF32 x).isSnan || (asF32 y).isSnan
      let nan (x y : Word) : Bool := (asF32 x).isNan || (asF32 y).isNan
      gives .int (.vcmpEq p a b c ea eb) (fun x y => decide (x = y)) quiet ∧
      gives .int (.vcmpNe p a b c ea eb) (fun x y => decide (x ≠ y)) quiet ∧
      gives .int (.vcmpLt p a b c ea eb) (fun x y => decide (x.toInt < y.toInt)) quiet ∧
      gives .int (.vcmpLe p a b c ea eb) (fun x y => decide (x.toInt ≤ y.toInt)) quiet ∧
      gives .int (.vcmpGt p a b c ea eb) (fun x y => decide (y.toInt < x.toInt)) quiet ∧
      gives .int (.vcmpGe p a b c ea eb) (fun x y => decide (y.toInt ≤ x.toInt)) quiet ∧
      gives .int (.vcmpLtu p a b c ea eb) (fun x y => decide (x.toNat < y.toNat)) quiet ∧
      gives .int (.vcmpLeu p a b c ea eb) (fun x y => decide (x.toNat ≤ y.toNat)) quiet ∧
      gives .int (.vcmpGtu p a b c ea eb) (fun x y => decide (y.toNat < x.toNat)) quiet ∧
      gives .int (.vcmpGeu p a b c ea eb) (fun x y => decide (y.toNat ≤ x.toNat)) quiet ∧
      gives .f32 (.vfcmpEq p a b c ea eb) (fun x y => (asF32 x).eq (asF32 y)) snan ∧
      gives .f32 (.vfcmpNe p a b c ea eb) (fun x y => !(asF32 x).eq (asF32 y)) snan ∧
      gives .f32 (.vfcmpLt p a b c ea eb) (fun x y => (asF32 x).lt (asF32 y)) nan ∧
      gives .f32 (.vfcmpLe p a b c ea eb) (fun x y => (asF32 x).lt (asF32 y) || (asF32 x).eq (asF32 y)) nan ∧
      gives .f32 (.vfcmpUn p a b c ea eb) nan snan ∧
      gives .f32 (.vfclass p a b c ea eb) (fun x y => y.getLsbD (fpClass x)) quiet ∧
      gives .int (.vtest p a b c ea eb) (fun x y => decide (x &&& y ≠ 0)) quiet) ∧
  (∀ x : Word,
    let e := x.toNat / 2 ^ 23 % 2 ^ 8
    let f := x.toNat % 2 ^ 23
    let neg := x.getLsbD 31
    fpClass x =
      if e = 255 then (if f = 0 then (if neg then 2 else 9) else if x.getLsbD 22 then 1 else 0)
      else if e = 0 then (if f = 0 then (if neg then 5 else 6) else if neg then 4 else 7)
      else if neg then 3 else 8)

/-- R113, R115. Every predicate-logic word sets its predicate of each active lane to the merge of its old value and its row's function of the source
predicates, and changes nothing else. -/
def Obligations.PredicateLogicWords : Prop :=
  ∀ (s : State) (p q r : BitVec 5) (c : BitVec 2), p.toNat < 24 →
    let merge (old new : Bool) : Bool := if c = 0 then new else if c = 1 then old && new else if c = 2 then old || new else !new
    let gives (i : Instr) (f : Bool → Bool → Bool) : Prop :=
      Gives (exec i s) (WrotePred 1 p.toNat
        (fun l => merge ((s.me.lane l).pred p.toNat) (f ((s.me.lane l).pred q.toNat) ((s.me.lane l).pred r.toNat))) (fun _ => 0) s)
    gives (.pand p q r c) (fun x y => x && y) ∧
    gives (.por p q r c) (fun x y => x || y) ∧
    gives (.pxor p q r c) (fun x y => x != y) ∧
    gives (.pandn p q r c) (fun x y => x && !y) ∧
    gives (.pnot p q c) (fun x _ => !x) ∧
    gives (.pmov p q c) (fun x _ => x) ∧
    gives (.pset p c) (fun _ _ => true) ∧
    gives (.pclr p c) (fun _ _ => false)

/-! ### Extended vector words -/

/-- R105, R117 to R125, R141. With its sources and D full, every extended word with one destination writes its row's result to D and lr of each active
lane whose guard holds (VSEL: of each active lane), joins its flags, and changes nothing else. -/
def Obligations.ExtendedVectorWords : Prop :=
  ∀ (s : State) (d a b c : BitVec 7) (ea eb : Bool) (pg : BitVec 5) (neg : Bool) (rm : BitVec 3) (st dt : BitVec 4),
    let on (l : Nat) : Bool := (s.me.lane l).pred pg.toNat != neg
    let mode := RMode.ofCode rm.toNat
    let col := colOfType st
    let gives (i : Instr) (r : Nat → Word × FpFlags) : Prop :=
      Gives (exec i s) (Wrote 2 d.toNat on (fun l => (r l).1) (fun l => (r l).2) s)
    let x (k : Col) (l : Nat) := s.me.src k l a.toNat
    let y (k : Col) (l : Nat) := s.me.src k l b.toNat
    let z (k : Col) (l : Nat) := s.me.src k l c.toNat
    let quotient (p q : Word) : Word :=
      if q = 0 then 0xFFFFFFFF else if st = 8 then BitVec.ofInt 32 (p.toInt.tdiv q.toInt) else BitVec.ofNat 32 (p.toNat / q.toNat)
    let remainder (p q : Word) : Word :=
      if q = 0 then p else if st = 8 then BitVec.ofInt 32 (p.toInt.tmod q.toInt) else BitVec.ofNat 32 (p.toNat % q.toNat)
    (s.ready [a.toNat, b.toNat, c.toNat] (destRegs d) →
      gives (.vfma3 d a b c ea eb pg neg rm st dt) (fun l => fma3Word st.toNat mode s.me.fpKey l (x col l) (y col l) (z col l)) ∧
      gives (.vbfi d a b c ea eb pg neg) (fun l => (insertField (x .int l) (y .int l) (z .int l), 0))) ∧
    (s.ready [a.toNat, b.toNat] (destRegs d) →
      Gives (exec (.vsel d a b ea eb pg neg) s)
        (Wrote 2 d.toNat (fun _ => true) (fun l => if on l then x .int l else y .int l) (fun _ => 0) s) ∧
      (∀ sx, gives (.vbfe d a b ea eb pg neg sx) (fun l => (extractField sx (x .int l) (y .int l), 0))) ∧
      gives (.vidiv d a b ea eb pg neg st dt) (fun l => (quotient (x .int l) (y .int l), 0)) ∧
      gives (.virem d a b ea eb pg neg st dt) (fun l => (remainder (x .int l) (y .int l), 0)) ∧
      gives (.vrand d a b ea eb pg neg) (fun l => (nqmix (x .int l) (y .int l + BitVec.ofNat 32 l), 0)))

/-- R120, R121, R52 to R54. With the sources full, and D where part of it is kept, every conversion and VPACK write to D and lr of each active lane whose
guard holds the converted elements rounded under the word's mode, a narrow element merged into D, join the flags, and change nothing else. -/
def Obligations.ConversionWords : Prop :=
  ∀ (s : State) (d a b : BitVec 7) (ea eb : Bool) (pg : BitVec 5) (neg : Bool) (rm : BitVec 3) (st dt : BitVec 4) (js jd : BitVec 3) (h : Bool),
    let on (l : Nat) : Bool := (s.me.lane l).pred pg.toNat != neg
    let gives (i : Instr) (r : Nat → Word × FpFlags) : Prop :=
      Gives (exec i s) (Wrote 2 d.toNat on (fun l => (r l).1) (fun l => (r l).2) s)
    let mode := RMode.ofCode rm.toNat
    let x (l : Nat) := s.me.src (colOfType st) l a.toNat
    let one (l : Nat) : Word × FpFlags :=
      let r := convElem st.toNat dt.toNat mode (r16Of s.me.fpKey (x l) l jd.toNat) (elemOf st.toNat (x l) js.toNat)
      (if typeWidth dt.toNat = 32 then BitVec.ofNat 32 r.bits else setElem dt.toNat (s.me.src .int l d.toNat) jd.toNat r.bits, r.flags)
    (s.ready (a.toNat :: if typeWidth dt.toNat = 32 then [] else [d.toNat]) (destRegs d) →
      gives (.vcvt d a ea pg neg rm st dt js jd) one ∧
      gives (.vcvti d a ea pg neg rm st dt js jd) one ∧
      gives (.vcvtf d a ea pg neg rm st dt js jd) one) ∧
    (s.ready (a.toNat :: b.toNat :: if typeWidth dt.toNat = 16 then [] else [d.toNat]) (destRegs d) →
      gives (.vpack d a b ea eb pg neg rm st dt h) (fun l => packWord st.toNat dt.toNat h.toNat mode s.me.fpKey l (x l)
        (s.me.src (colOfType st) l b.toNat) (s.me.src .int l d.toNat)))

/-- R122, R17. With A and the pair at D full, VUNPACK puts two adjacent elements, exactly widened, into the pair of each active lane whose guard holds,
the first also into lr, and changes nothing else. R123, R57, R58, R60. With the elements, the codebook index and the scales of the scale lanes full,
VDEQ writes to D and lr of each active lane whose guard holds one element times the scale of its block, rounded once, and changes nothing else. R141,
R51. With its sources full, DROPM sets the predicate of each active lane to whether the high half of NQMIX of A and B + lane lies below the threshold
C, held to 65536, and changes nothing else. -/
def Obligations.UnpackDequantiseAndDropMask : Prop :=
  (∀ (s : State) (d a : BitVec 7) (ea : Bool) (pg : BitVec 5) (neg : Bool) (st dt : BitVec 4) (j : BitVec 3),
      d.toNat + 1 < 72 → s.ready [a.toNat] [d.toNat, d.toNat + 1] →
      Gives (exec (.vunpack d a ea pg neg st dt j) s) (fun t => VecFrame 2 s t ∧ ∀ l, l < 64 →
        let n := s.me.lane l
        let n' := t.me.lane l
        let e (k : Nat) := convElem st.toNat dt.toNat .rne 0 (elemOf st.toNat (s.me.src (colOfType st) l a.toNat) (j.toNat + k))
        if inSet s.me.run.act l ∧ n.pred pg.toNat ≠ neg then
          n'.reg d.toNat = BitVec.ofNat 32 (e 0).bits ∧ n'.reg (d.toNat + 1) = BitVec.ofNat 32 (e 1).bits ∧
          n'.lr = BitVec.ofNat 32 (e 0).bits ∧ n'.lrValid = true ∧ n'.fpflags = n.fpflags ||| (e 0).flags ||| (e 1).flags ∧
          (∀ r, r < 72 → r ≠ d.toNat → r ≠ d.toNat + 1 → n'.reg r = n.reg r ∧ n'.isEmpty r = n.isEmpty r) ∧
          n'.preds = n.preds ∧ n'.vpc = n.vpc ∧ n'.cond = n.cond
        else n' = n)) ∧
  (∀ (s : State) (d a b c : BitVec 7) (ea eb : Bool) (pg : BitVec 5) (neg : Bool) (rm : BitVec 3) (st dt : BitVec 4) (j : BitVec 5) (set : Bool),
      (∀ p ∈ s.me.deqSrcs a.toNat b.toNat c.toNat st.toNat ea eb set,
        s.me.full p.1 p.2.1 ∧ (p.2.1 = 72 → ∀ l, inSet p.1 l = true → (s.me.lane l).lrValid = true)) →
      (∀ r ∈ destRegs d, s.me.full s.me.run.act r) →
      let r (l : Nat) : Rounded :=
        let k := if set then 32 else match st.toNat with | 3 | 4 | 12 => 4 | 7 | 14 => 8 | _ => 16
        (fmtOf dt.toNat).finish (RMode.ofCode rm.toNat) (r16Of s.me.fpKey (s.me.src .int l a.toNat) l j.toNat)
          (scaleBy (s.me.scaleOf k l c.toNat) (s.me.deqElem l a.toNat b.toNat st.toNat j.toNat set))
      Gives (exec (.vdeq d a b c ea eb pg neg rm st dt j set) s)
        (Wrote 2 d.toNat (fun l => (s.me.lane l).pred pg.toNat != neg) (fun l => BitVec.ofNat 32 (r l).bits) (fun l => (r l).flags) s)) ∧
  (∀ (s : State) (a b c : BitVec 7) (ea eb : Bool) (p : BitVec 5), p.toNat < 24 → s.ready [a.toNat, b.toNat, c.toNat] [] →
      Gives (exec (.dropm a b c ea eb p) s) (WrotePred 2 p.toNat (fun l =>
        decide ((nqmix (s.me.src .int l a.toNat) (s.me.src .int l b.toNat + BitVec.ofNat 32 l)).toNat / 2 ^ 16 <
          min ((s.me.src .int l c.toNat).toNat % 2 ^ 17) 65536)) (fun _ => 0) s))

/-! ### Special functions -/

/-- R136, R138, R19. With its sources and D full, every word of the special-function unit marks D empty in the active lanes whose guard holds, joins the
flags of its results, leaves one producer that holds those results, and changes nothing else; where no lane is active for it no producer is left. VACT
asks besides that its team hold the activation banks (R140). The results of VFEXP2, VFLOG2, VFSIN and VFCOS are free values within the bounds of R136
(log entry 11). -/
def Obligations.SpecialFunctionWords : Prop :=
  ∀ (s : State) (d a b : BitVec 7) (ea eb : Bool) (pg : BitVec 5) (neg : Bool) (rm : BitVec 3),
    let on (l : Nat) : Bool := inSet s.me.run.act l && ((s.me.lane l).pred pg.toNat != neg)
    let x (l : Nat) := s.me.src .f32 l a.toNat
    let y (l : Nat) := s.me.src .f32 l b.toNat
    let random (l : Nat) := r16Of s.me.fpKey (x l) l 0
    let mode := RMode.ofCode rm.toNat
    let results (r : Nat → Rounded) : List (Nat × Nat × Word) :=
      ((lanesIn s.me.run.act).filter on).map (fun l => (l, d.toNat, BitVec.ofNat 32 (r l).bits))
    let gives (i : Instr) (bank : Option Nat) (r : Nat → Rounded) : Prop := Gives (exec i s) (fun t =>
      VecFrame 2 s (t.sameUnits s) ∧
      (∀ l, l < 64 → t.me.lane l = if on l then ((s.me.lane l).emptyReg d.toNat).orFlags (r l).flags else s.me.lane l) ∧
      (if (lanesIn s.me.run.act).any on then
        t.fresh = s.fresh + 1 ∧ (∀ k, k ≠ s.fresh → FMap.look t.producers k = FMap.look s.producers k) ∧
        FMap.look t.producers s.fresh = some { kind := .sfu, group := s.cur, bank := bank, dests := results r }
      else t.fresh = s.fresh ∧ t.producers = s.producers))
    (s.ready [a.toNat] (destRegs d) →
      gives (.vfrcp d a ea pg neg) none (fun l => rcpF32 (x l)) ∧
      gives (.vfrsq d a ea pg neg) none (fun l => rsqF32 (x l)) ∧
      gives (.vfsqrt d a ea pg neg rm) none (fun l => sqrtF32 mode (random l) (x l)) ∧
      gives (.vfexp2 d a ea pg neg) none (fun l => exp2F32 (x l)) ∧
      gives (.vflog2 d a ea pg neg) none (fun l => log2F32 (x l)) ∧
      gives (.vfsin d a ea pg neg) none (fun l => trigF32 0x15 false (x l)) ∧
      gives (.vfcos d a ea pg neg) none (fun l => trigF32 0x16 true (x l)) ∧
      (s.myTeam.act = true → gives (.vact d a ea pg neg) (some (s.cluster s.me.cluster).actBank)
        (fun l => (s.cluster s.me.cluster).activate (s.cluster s.me.cluster).actBank (x l)))) ∧
    (s.ready [a.toNat, b.toNat] (destRegs d) → gives (.vfdiv d a b ea eb pg neg rm) none (fun l => divF32 mode (random l) (x l) (y l)))

/-- R137. Special values of the special-function words: zeros, infinities, negative arguments and NaNs give the results and flags of the table. -/
def Obligations.SpecialFunctionSpecialValues : Prop :=
  let nan : Nat := 0x7FC00000
  let inf (neg : Bool) : Nat := if neg then 0xFF800000 else 0x7F800000
  let zero (neg : Bool) : Nat := if neg then 0x80000000 else 0
  ∀ (a : Word) (mode : RMode) (r16 : Nat),
    (∀ f ∈ [rcpF32, rsqF32, sqrtF32 mode r16, exp2F32, log2F32, trigF32 0x15 false, trigF32 0x16 true],
      (asF32 a).isNan = true → f a = ⟨nan, if (asF32 a).isSnan then flagNV else 0⟩) ∧
    (∀ neg, asF32 a = .inf neg →
      rcpF32 a = ⟨zero neg, 0⟩ ∧
      rsqF32 a = (if neg then ⟨nan, flagNV⟩ else ⟨0, 0⟩) ∧
      sqrtF32 mode r16 a = (if neg then ⟨nan, flagNV⟩ else ⟨inf false, 0⟩) ∧
      exp2F32 a = (if neg then ⟨0, 0⟩ else ⟨inf false, 0⟩) ∧
      log2F32 a = (if neg then ⟨nan, flagNV⟩ else ⟨inf false, 0⟩) ∧
      trigF32 0x15 false a = ⟨nan, flagNV⟩ ∧ trigF32 0x16 true a = ⟨nan, flagNV⟩) ∧
    (∀ neg e, asF32 a = .fin neg 0 e →
      rcpF32 a = ⟨inf neg, flagDZ⟩ ∧ rsqF32 a = ⟨inf neg, flagDZ⟩ ∧ sqrtF32 mode r16 a = ⟨zero neg, 0⟩ ∧
      log2F32 a = ⟨inf true, flagDZ⟩ ∧ trigF32 0x15 false a = ⟨zero neg, 0⟩ ∧ trigF32 0x16 true a = ⟨0x3F800000, 0⟩) ∧
    (∀ n e, n ≠ 0 → asF32 a = .fin true n e →
      rsqF32 a = ⟨nan, flagNV⟩ ∧ sqrtF32 mode r16 a = ⟨nan, flagNV⟩ ∧ log2F32 a = ⟨nan, flagNV⟩)

/-- R19, R136, R176, R188, R203. When the results of a special-function word, of LREAD, LAUNCH, METER or OBJDECL arrive they are in their destinations,
which are full, and the producer is gone: the values a special-function word or LREAD took at its issue in its lanes (one whose destination names lr is
written nowhere, R17), the launch status, the energy counter of the partition in a pair, and for OBJDECL 0xFFFFFFFE for pages that carry no object, 0
for a full share, 0xFFFFFFFF for an overlap, else the number of the new object, whose token the declaring cluster holds, with no line of it left in its
L1. Other registers of every group, all of memory and every access are as they were before what the arrival sets free. A METER is answered after the
earlier ones of its group, and a declaration waits while a line of it is busy. The model chooses the number of a new object (log entry 32), what makes
a line busy (log entry 44) and the order of the failures (log entry 94). -/
def Obligations.ProducerResultsArrive : Prop :=
  (∀ (s : State) (n g r : Nat) (ds : List (Nat × Word)), r ≤ 72 → (ds.map (·.1)).Nodup →
    let p (kind : ProdKind) : Producer := { kind := kind, group := g, dests := ds.map (fun x => (x.1, r, x.2)) }
    let gives (i : Instr) : Prop := Settles (exec i s) (fun u =>
      (r < 72 → ∀ x ∈ ds, ((u.group g).lane x.1).reg r = x.2 ∧ ((u.group g).lane x.1).isEmpty r = false) ∧
      (∀ k j, ((u.group k).lane j).lr = ((s.group k).lane j).lr ∧ ((u.group k).lane j).lrValid = ((s.group k).lane j).lrValid) ∧
      (∀ k j q, q < 72 → ¬ (k = g ∧ j ∈ ds.map (·.1) ∧ q = r) →
        ((u.group k).lane j).reg q = ((s.group k).lane j).reg q ∧ ((u.group k).lane j).isEmpty q = ((s.group k).lane j).isEmpty q) ∧
      u.producers = FMap.del s.producers n ∧ u.mem = s.mem ∧ u.accesses = s.accesses)
    (FMap.look s.producers n = some (p .sfu) → gives (.sfuResult n)) ∧
    (FMap.look s.producers n = some (p .lread) → gives (.lreadResult n))) ∧
  (∀ (s : State) (n k r : Nat) (v : Word) (b : List (BitVec 8)), r < 32 →
    let g := s.group k
    let part := s.partOf g
    let filled (w : Nat → Option Word) (u : State) : Prop := u.producers = FMap.del s.producers n ∧ s.othersSame u k ∧
      { u.group k with sregs := g.sregs, sEmpty := g.sEmpty } = g ∧
      ∀ q, q < 32 → match w q with
        | some x => (u.group k).s q = x ∧ (u.group k).sIsEmpty q = false
        | none => (u.group k).s q = g.s q ∧ (u.group k).sIsEmpty q = g.sIsEmpty q
    let one (x : Word) : Nat → Option Word := fun q => if q = r then some x else none
    let only (u : State) : Prop := { u with groups := s.groups, producers := s.producers } = s
    let energy := (s.part part).pmeter
    let mine := s.objects.filter (fun o => o.2.part == part)
    let base := (shapeOf b).footprint.1
    let len := (shapeOf b).footprint.2
    let s1 := s.cachePages g.cluster part .read (pagesOf base len)
    let declared (x : Word) : Prop := Settles (exec (.objdeclResult n) s) (fun u =>
      CachesOnly s { u with groups := s.groups, producers := s.producers } ∧ filled (one x) u)
    let earlier : Prop := ∃ q ∈ s.producers, q.1 < n ∧ q.2.kind = .meter ∧ q.2.group = k
    (FMap.look s.producers n = some { kind := .launch, group := k, sdests := [(r, v)] } →
      Settles (exec (.launchResult n) s) (fun u => only u ∧ filled (one v) u)) ∧
    (r + 1 < 32 → FMap.look s.producers n = some { kind := .meter, group := k, sdests := [(r, 0), (r + 1, 0)] } →
      (earlier → exec (.meterResult n) s = .next s) ∧
      (¬ earlier → Settles (exec (.meterResult n) s) (fun u => only u ∧ filled (fun q => if q = r then some (BitVec.ofNat 32 energy)
        else if q = r + 1 then some (BitVec.ofNat 32 (energy / 2 ^ 32)) else none) u))) ∧
    (FMap.look s.producers n = some { kind := .objdecl, group := k, sdests := [(r, 0)], block := b } →
      let busy : Prop := ∃ ln ∈ (s.footLines g.cluster part base len).getD [], s.lineBusy g.cluster g.team ln = true
      (busy → exec (.objdeclResult n) s = .next s) ∧
      (¬ busy → s1.footLines g.cluster part base len = none → declared 0xFFFFFFFE) ∧
      (∀ lines, ¬ busy → s1.footLines g.cluster part base len = some lines →
        let share := (s.part part).partcfg.toNat / 2 ^ 17 % 2 ^ 14
        let overlap : Prop := ∃ o ∈ mine, ∃ ln ∈ o.2.lines, ln ∈ lines
        (share ≤ mine.length → declared 0) ∧ (mine.length < share → overlap → declared 0xFFFFFFFF) ∧
        (mine.length < share → ¬ overlap → Settles (exec (.objdeclResult n) s) (fun u =>
          let place := s.objPlace part
          let next (p : Nat) : Nat := if p = part then (place + 1) % (2 ^ 29 - 1) else (s.part p).objNext
          CachesOnly s { u with groups := s.groups, producers := s.producers, objects := s.objects, parts := s.parts } ∧
          (∀ p, { u.part p with errcnt := (s.part p).errcnt } = { s.part p with objNext := next p }) ∧
          (∀ ln ∈ lines, (u.cluster g.cluster).hasLine ln = false ∧ ∀ x, x / 128 = ln → FMap.look (u.cluster g.cluster).stale x = none) ∧
          filled (one (BitVec.ofNat 32 (objId part place))) u ∧
          u.objects = FMap.put s.objects (objId part place) {
            part := part, first := lines.headD 0, lines := lines.dedup, holder := some g.cluster, head := 128 * lines.headD 0 + base % 128
            tail := 128 * lines.getLastD 0 + (base + len - 1) % 128 })))))

/-! ### Cross-lane words -/

/-- R126 to R130. VPERM, VSHUF, VBCAST, VLOGRED, VSCAN and VVOTE complete: whenever the operands are full in the active lanes, the mask too where no
gathering is open at the word, and every live or parked member lane has arrived there earlier or is active, the word executes. Each lane arrived takes
what its row gives it, with the predicate of the word telling whether every lane it read had arrived, and is live; an active lane that is no member
has that predicate cleared; the gathering is closed; a destination that names lr is written nowhere; nothing else changes but the watchdog count
(R350). R127. At each of the six words, with a gathering open there or none, where a member lane that is live or parked is still awaited, the active
members park at the word with REASON 2, their arrival joins those before, and the word has no other effect on them; an active lane that is no member
goes on with the predicate of the word cleared. What a word reads of lr in a lane that arrived earlier is the model's choice (log entry 66). -/
def Obligations.CrossLaneWords : Prop :=
  (∀ (s : State) (d a b c : BitVec 7) (ea eb : Bool) (pg q : BitVec 5) (rm : BitVec 3),
      let act := s.me.run.act
      let open_ : Option Gathering := s.me.gatherings.find? (fun w => w.hdr == s.me.run.hdr && w.word == s.me.run.idx)
      let members : LaneSet := open_.elim (s.me.sPair (c.toNat - 80)) (·.members)
      let earlier : LaneSet := open_.elim 0 (·.arrived)
      let arrived : LaneSet := earlier ||| (act &&& members)
      let here (l : Nat) : Bool := inSet arrived l
      let left (l : Nat) : Lane := if inSet act l && !inSet members l then (s.me.lane l).setValid pg false else s.me.lane l
      (∀ l, inSet members l = true → (s.me.lane l).counts = true → here l = true) →
      let full (srcs : List Nat) (dsts : List Nat) : Prop := s.ready (srcs ++ if open_.isSome then [] else [c.toNat, c.toNat + 1]) dsts
      let gives (i : Instr) (f : Nat → Lane → Lane) : Prop := Gives (exec i s) (fun t => GatherFrame earlier s t ∧ ∀ l, l < 64 →
        t.me.lane l = if here l then f l { left l with cond := .live, place := .none } else left l)
      let route (m : Nat → Option Nat) (l : Nat) (n : Lane) : Lane :=
        match m l with
        | none => n.setValid pg false
        | some k =>
          if here k then (n.crossDest d.toNat (s.me.src .int k a.toNat)).setValid pg true
          else if inSet members k then (n.crossDest d.toNat 0).setValid pg false
          else n.setValid pg false
      let absent : LaneSet := members &&& ~~~arrived
      (full [a.toNat, b.toNat] (destRegs d) →
        gives (.vperm d a b c ea eb pg) (route (fun l => some ((s.me.src .int l b.toNat).toNat % 64)))) ∧
      (full [a.toNat] (destRegs d) →
        (∀ off : BitVec 8, gives (.vshuf d a c ea pg off)
          (route (fun l => if 0 ≤ (l : Int) + off.toInt ∧ (l : Int) + off.toInt < 64 then some ((l : Int) + off.toInt).toNat else none))) ∧
        (∀ lane : BitVec 8, gives (.vbcast d a c ea pg lane) (route (fun _ => some (lane.toNat % 64)))) ∧
        (∀ op : BitVec 4, gives (.vlogred d a c ea pg rm op) (fun l n =>
          let x := (s.me.reduce false op.toNat (RMode.ofCode rm.toNat) a.toNat members arrived).getD l (0, 0)
          ((n.crossDest d.toNat x.1).setValid pg (decide (absent = 0))).orFlags x.2)) ∧
        (∀ (op : BitVec 4) (excl : Bool), gives (.vscan d a c ea pg rm op excl) (fun l n =>
          let x (k : Nat) := (s.me.reduce true op.toNat (RMode.ofCode rm.toNat) a.toNat members arrived).getD k (0, 0)
          let v := if excl then (if l = 0 then redIdentity op.toNat else (x (l - 1)).1) else (x l).1
          ((n.crossDest d.toNat v).setValid pg ((lanesIn absent).all (fun m => !decide (if excl then m < l else m ≤ l)))).orFlags (x l).2))) ∧
      (let ballot : LaneSet := setOf (fun l => here l && (left l).pred q.toNat)
       let vote (mode : BitVec 2) (n : Lane) : Lane :=
         if mode = 0 then (n.crossDest d.toNat (ballot.extractLsb' 0 32)).crossDest (d.toNat + 1) (ballot.extractLsb' 32 32)
         else n.crossDest d.toNat
           (if mode = 1 then (if ballot = members then 1 else 0) else if mode = 2 then (if ballot = 0 then 0 else 1) else BitVec.ofNat 32 (lanesIn ballot).length)
       ∀ mode : BitVec 2, full [] (if mode = 0 then [d.toNat, d.toNat + 1] else destRegs d) →
         gives (.vvote d q c pg mode) (fun _ n => (vote mode n).setValid pg (decide (absent = 0))))) ∧
  (∀ (s : State) (d a b c : BitVec 7) (ea eb : Bool) (pg q : BitVec 5) (rm : BitVec 3),
      let act := s.me.run.act
      let here (w : Gathering) : Bool := w.hdr == s.me.run.hdr && w.word == s.me.run.idx
      let open_ : Option Gathering := s.me.gatherings.find? here
      let members : LaneSet := open_.elim (s.me.sPair (c.toNat - 80)) (·.members)
      let arrived : LaneSet := open_.elim 0 (·.arrived) ||| (act &&& members)
      let rest : LaneSet := act &&& ~~~members
      (∃ l, inSet members l = true ∧ (s.me.lane l).counts = true ∧ inSet arrived l = false) →
      let waits (srcs : List Nat) (dsts : List Nat) (i : Instr) : Prop :=
        s.ready (srcs ++ if open_.isSome then [] else [c.toNat, c.toNat + 1]) dsts →
        Gives (exec i s) (fun t => SameWorld s t ∧ OwnSlice s t ∧ TeamsButLogs s t ∧
          { t.me with lanes := s.me.lanes } = { s.me with
            gatherings := s.me.gatherings.filter (fun w => !here w) ++ [⟨s.me.run.hdr, s.me.run.idx, members, arrived⟩]
            run := { s.me.run.after 2 with act := rest, quit := decide (rest = 0) } } ∧
          ∀ l, l < 64 → t.me.lane l =
            if inSet act l && inSet members l then { s.me.lane l with cond := .parked .convergence, place := .gathering s.me.run.hdr.toNat s.me.run.idx }
            else if inSet act l then (s.me.lane l).setValid pg false else s.me.lane l)
      waits [a.toNat, b.toNat] (destRegs d) (.vperm d a b c ea eb pg) ∧
      (∀ off : BitVec 8, waits [a.toNat] (destRegs d) (.vshuf d a c ea pg off)) ∧
      (∀ lane : BitVec 8, waits [a.toNat] (destRegs d) (.vbcast d a c ea pg lane)) ∧
      (∀ op : BitVec 4, waits [a.toNat] (destRegs d) (.vlogred d a c ea pg rm op)) ∧
      (∀ (op : BitVec 4) (excl : Bool), waits [a.toNat] (destRegs d) (.vscan d a c ea pg rm op excl)) ∧
      (∀ mode : BitVec 2, waits [] (if mode = 0 then [d.toNat, d.toNat + 1] else destRegs d) (.vvote d q c pg mode)))

/-- R132, R19. With the selector, the source register in the lanes it is read from, and D full, LREAD gives each active lane whose guard holds the
register of the lane it names, at once where both issue in one pass, else by a producer that leaves D empty until then; a never-launched lane reads as
0; nothing else changes. The scalar form puts the register of one named lane into its scalar register. R133. With its source full and no producer in
flight to the register, LWRITE sets the register of a live or parked lane, full, and changes nothing else; an exited or never-launched lane is not
written. -/
def Obligations.LaneRegisterWords : Prop :=
  ((∀ (s : State) (d a b : BitVec 7) (ea eb : Bool) (pg : BitVec 5) (neg : Bool),
      let g := s.me
      let on (l : Nat) : Bool := inSet g.run.act l && ((g.lane l).pred pg.toNat != neg)
      let m (l : Nat) : Nat := (g.src .int l b.toNat).toNat % 64
      let val (l : Nat) : Word := if (g.lane (m l)).cond = .never then 0 else (g.lane (m l)).reg a.toNat
      let near (l : Nat) : Bool := s.passOf g l == s.passOf g (m l)
      d.toNat < 72 → a.toNat < 72 → s.ready [b.toNat] [d.toNat] →
      (∀ l, on l = true → (g.lane (m l)).cond ≠ .never → (g.lane (m l)).isEmpty a.toNat = false) →
      Gives (exec (.lread d a b ea eb pg neg) s) (fun t => VecFrame 2 s (t.sameUnits s) ∧
        (∀ l, l < 64 → t.me.lane l =
          if on l then (if near l then (g.lane l).setReg d.toNat (val l) else (g.lane l).emptyReg d.toNat) else g.lane l) ∧
        (let far := (lanesIn g.run.act).filter (fun l => on l && !near l)
         if far = [] then t.producers = s.producers
         else FMap.look t.producers s.fresh = some { kind := .lread, group := s.cur, dests := far.map (fun l => (l, d.toNat, val l)) }))) ∧
    (∀ (s : State) (d a : BitVec 7) (ea : Bool) (lane : BitVec 8),
      let n := s.me.lane (lane.toNat % 64)
      80 ≤ d.toNat → d.toNat < 112 → a.toNat < 72 → (n.cond ≠ .never → n.isEmpty a.toNat = false) → s.ready [] [d.toNat] →
      Gives (exec (.lreadScalar d a ea lane) s) (WroteS 2 (d.toNat - 80) (if n.cond = .never then 0 else n.reg a.toNat) s))) ∧
  (∀ (s : State) (d a : BitVec 7) (ea : Bool) (lane : BitVec 8),
      let k := lane.toNat % 64
      let n := s.me.lane k
      d.toNat < 72 → s.ready [a.toNat] [] → ¬ (n.isEmpty d.toNat = true ∧ s.inFlight s.cur k d.toNat = true) →
      Gives (exec (.lwrite d a ea lane) s) (fun t => VecFrame 2 s t ∧ ∀ l, l < 64 → t.me.lane l =
        if l = k ∧ n.counts = true then n.setReg d.toNat (s.me.src .int 0 a.toNat) else s.me.lane l))

/-- R134, R135. VPCRD completes whenever its scalar destination is full: it puts the program counter, the flags or the condition of a named lane into it
and changes nothing else: a live lane reads 0, a parked lane 1 and its REASON in bits [15:8], an exited lane 2, a never-launched lane 3. R134, R344.
VPCWR completes whenever its source is full and, for fields 0 and 2, in a handler. It writes the flags of a live or parked lane. Field 0 sets the
program counter of such a lane, and leaves one that waits at a gathering, a barrier, the grid's barrier or for a region slot parked with REASON 3.
Field 2 parks a live lane with REASON 3 or makes a parked one live. A lane that waits takes its arrival or request back. An exited or never-launched
lane, one in a region and one at a recovery word are not changed. Field 2 with a value of 2 or more takes cause 0x09; outside a handler fields 0 and 2
take cause 0x0F. (The waking of a lane with a deferred fault pending is left to R344.) -/
def Obligations.LaneStatusWords : Prop :=
  (∀ (s : State) (d : BitVec 7) (field : BitVec 4) (lane : BitVec 8), 80 ≤ d.toNat → d.toNat < 112 → s.ready [] [d.toNat] →
      let n := s.me.lane (lane.toNat % 64)
      let reason : ParkReason → Word
        | .deferred => 1 | .convergence => 2 | .handler => 3 | .regionWait => 4 | .refused => 5 | .split => 6
      let cond : LaneCond → Word
        | .live => 0 | .parked r => 1 + reason r * 256 | .exited => 2 | .never => 3
      Gives (exec (.vpcrd d field lane) s) (WroteS 2 (d.toNat - 80)
        (if field = 0 then n.vpc else if field = 1 then n.fpflags.zeroExtend 32 else cond n.cond) s)) ∧
  (∀ (s : State) (a : BitVec 7) (ea : Bool) (field : BitVec 4) (lane : BitVec 8), s.ready [a.toNat] [] →
      let k := lane.toNat % 64
      let n := s.me.lane k
      let v := s.me.src .int 0 a.toNat
      let i : Instr := .vpcwr a ea field lane
      let handler := s.me.run.handler
      let given (n' : Lane) (P : State → Prop) : Prop := Gives (exec i s) (fun t => P t ∧ ∀ l, l < 64 → t.me.lane l = if l = k then n' else s.me.lane l)
      let gives (n' : Lane) : Prop := given n' (VecFrame 2 s)
      let waiting : Prop := handler = true ∧ n.region = none ∧ s.me.deferred = []
      -- what the write does to the lane, and that nothing but `P` holds of the rest
      let frees (P : State → Prop) : Prop :=
        (field = 0 → given { n with vpc := v, cond := .parked .handler, place := .none } P) ∧
        (field = 2 → v = 0 → given { n with cond := .live, place := .none } P)
      let but (g : Group) (teams : FMap Team) (dies : FMap Die) (t : State) : Prop := SameWorld s { t with dies := s.dies } ∧ t.teams = teams ∧ t.dies = dies ∧ OwnSlice s t ∧
        { t.me with lanes := s.me.lanes } = { g with lanes := s.me.lanes, run := s.me.run.after 2 }
      (field = 1 → n.counts = true → gives { n with fpflags := v.truncate 5 }) ∧ (field = 1 → n.counts = false → gives n) ∧
      (handler = true → n.cond = .live → n.region = none →
        (field = 0 → gives { n with vpc := v }) ∧
        (field = 2 → v = 0 → gives n) ∧
        (field = 2 → v = 1 → gives { n with cond := .parked .handler, place := .none })) ∧
      (∀ r, waiting → n.cond = .parked r → n.place = .none →
        (field = 0 → gives { n with vpc := v }) ∧ (field = 2 → v = 0 → gives { n with cond := .live }) ∧ (field = 2 → v = 1 → gives n)) ∧
      (∀ r h w, waiting → n.cond = .parked r → n.place = .gathering h w →
        let off (x : Gathering) : Gathering := if x.hdr.toNat = h ∧ x.word = w then { x with arrived := x.arrived &&& ~~~(1#64 <<< k) } else x
        frees (but { s.me with gatherings := s.me.gatherings.map off } s.teams s.dies)) ∧
      (∀ r b, waiting → n.cond = .parked r → n.place = .barrier b →
        let key := b * 16 + s.me.gid
        let tm := { s.myTeam with arrivals := FMap.put s.myTeam.arrivals key (FMap.at 0 s.myTeam.arrivals key &&& ~~~(1#64 <<< k)) }
        frees (but s.me (FMap.put s.teams s.me.team tm) s.dies)) ∧
      (∀ r, waiting → n.cond = .parked r → n.place = .gridBarrier →
        let tm := { s.myTeam with gridArr := FMap.put s.myTeam.gridArr s.me.gid (FMap.at 0 s.myTeam.gridArr s.me.gid &&& ~~~(1#64 <<< k)) }
        frees (but s.me (FMap.put s.teams s.me.team tm) s.dies)) ∧
      (∀ r, waiting → n.cond = .parked r → n.place = .slotWait →
        let die := if s.me.cluster < 80 then 0 else 1
        let others (w : SlotWaiter) : Bool := !(w.group == s.cur && w.lane == k)
        s.me.cluster < 160 → frees (but s.me s.teams (FMap.put s.dies die { s.die die with
          waiters := (s.die die).waiters.filter others, tokenWaiters := (s.die die).tokenWaiters.filter others }))) ∧
      (handler = true → (n.counts = false ∨ n.region.isSome = true ∨ (n.isParked = true ∧ ∃ c, n.place = .recovery c)) →
        (field = 0 → gives n) ∧ (field = 2 → v.toNat < 2 → gives n)) ∧
      (field = 2 → 2 ≤ v.toNat → exec i s = .next (s.trapHere 0x09 9)) ∧
      (handler = false → field ≠ 1 → ¬ (field = 2 ∧ 2 ≤ v.toNat) → exec i s = .next (s.trapHere 0x0F s.me.run.classOp)))

/-! ### Memory words -/

/-- R142 to R144, R149, R19. Held back by nothing, with its address and its destinations full, every address aligned and every piece mapped, a load marks
its destination registers empty in the active lanes and starts one access with a piece for each line a lane reads; memory and all else are as they
were. -/
def Obligations.LoadWords : Prop :=
  ∀ (s : State) (d a : BitVec 7) (off : BitVec 32) (order : BitVec 2) (scope reuse : BitVec 3) (loc : Nat → Nat → Space × Nat), s.memFree →
    let act := inSet s.me.run.act
    let ea (o : BitVec 32) (l : Nat) : Nat := (s.me.src64 l a.toNat + o.signExtend 64).toNat
    let issued (n : Nat) (reuse nregs width : Nat) (sext : Bool) (parts : List Part) : State → Prop :=
      Issued n act ((List.range nregs).map (d.toNat + ·)) (s.accessHere .load order.toNat scope.toNat reuse n (some d.toNat) nregs width sext parts) s
    let one (n : Nat) (o : BitVec 32) (i : Instr) (bytes align nregs width : Nat) (sext packed : Bool) : Prop :=
      s.ready [a.toNat, a.toNat + 1] (regRun d.toNat nregs) → (∀ l, act l = true → ea o l % align = 0) → s.mapped false false packed bytes act (ea o) loc →
        Gives (exec i s) (issued n reuse.toNat nregs width sext (s.partsOf packed bytes (fun _ => true) (ea o) loc (fun _ => [])))
    let loads (i i' : Instr) (bytes align nregs width : Nat) (sext packed : Bool) : Prop :=
      one 1 0 i bytes align nregs width sext packed ∧ one 2 off i' bytes align nregs width sext packed
    let two (n : Nat) (o : BitVec 32) (i : Instr) (bytes nregs : Nat) : Prop :=
      s.ready [a.toNat, a.toNat + 1] (regRun d.toNat nregs) → (∀ l, act l = true → ea o l % bytes = 0) → s.inScratch bytes (ea o) →
        Gives (exec i s) (issued n 0 nregs 4 false (s.scratchParts bytes (ea o) (fun _ => [])))
    let scratch (i i' : Instr) (bytes nregs : Nat) : Prop := two 1 0 i bytes nregs ∧ two 2 off i' bytes nregs
    loads (.ldB d a reuse order scope) (.ldBExt d a reuse order scope off) 1 1 1 1 false false ∧
    loads (.ldSb d a reuse order scope) (.ldSbExt d a reuse order scope off) 1 1 1 1 true false ∧
    loads (.ldH d a reuse order scope) (.ldHExt d a reuse order scope off) 2 2 1 2 false false ∧
    loads (.ldSh d a reuse order scope) (.ldShExt d a reuse order scope off) 2 2 1 2 true false ∧
    loads (.ldW d a reuse order scope) (.ldWExt d a reuse order scope off) 4 4 1 4 false false ∧
    loads (.ldD d a reuse order scope) (.ldDExt d a reuse order scope off) 8 8 2 4 false false ∧
    loads (.ldQ d a reuse order scope) (.ldQExt d a reuse order scope off) 16 16 4 4 false false ∧
    loads (.ldpk6 d a reuse order scope) (.ldpk6Ext d a reuse order scope off) 24 8 6 4 false true ∧
    loads (.ldpk4 d a reuse order scope) (.ldpk4Ext d a reuse order scope off) 16 16 4 4 false true ∧
    scratch (.ldsW d a order scope) (.ldsWExt d a order scope off) 4 1 ∧
    scratch (.ldsD d a order scope) (.ldsDExt d a order scope off) 8 2 ∧
    scratch (.ldsQ d a order scope) (.ldsQExt d a order scope off) 16 4

/-- R142, R143. Held back by nothing, with its address and its data full, every address aligned and mapped, a store starts one access that carries the low
bytes of its data registers for each active lane; no register and no byte of memory changes at issue. -/
def Obligations.StoreWords : Prop :=
  ∀ (s : State) (d a : BitVec 7) (off : BitVec 32) (order : BitVec 2) (scope reuse : BitVec 3) (loc : Nat → Nat → Space × Nat), s.memFree →
    let act := inSet s.me.run.act
    let ea (o : BitVec 32) (l : Nat) : Nat := (s.me.src64 l a.toNat + o.signExtend 64).toNat
    let data (bytes : Nat) (l : Nat) : List (BitVec 8) :=
      if bytes ≤ 4 then leBytes bytes (s.me.src .int l d.toNat).toNat
      else if bytes = 8 then leBytes 8 (s.me.src64 l d.toNat).toNat
      else (List.range 4).flatMap (fun i => leBytes 4 (s.me.src .int l (d.toNat + i)).toNat)
    let needs (bytes : Nat) : List Nat := [a.toNat, a.toNat + 1] ++ regRun d.toNat ((bytes + 3) / 4)
    let issued (n reuse : Nat) (parts : List Part) : State → Prop :=
      Issued n act [] (s.accessHere .store order.toNat scope.toNat reuse n none 0 4 false parts) s
    let one (n : Nat) (o : BitVec 32) (i : Instr) (bytes : Nat) : Prop :=
      s.ready (needs bytes) [] → (∀ l, act l = true → ea o l % bytes = 0) → s.mapped true false false bytes act (ea o) loc →
        Gives (exec i s) (issued n reuse.toNat (s.partsOf false bytes (fun _ => true) (ea o) loc (data bytes)))
    let stores (i i' : Instr) (bytes : Nat) : Prop := one 1 0 i bytes ∧ one 2 off i' bytes
    let two (n : Nat) (o : BitVec 32) (i : Instr) (bytes : Nat) : Prop :=
      s.ready (needs bytes) [] → (∀ l, act l = true → ea o l % bytes = 0) → s.inScratch bytes (ea o) →
        Gives (exec i s) (issued n 0 (s.scratchParts bytes (ea o) (data bytes)))
    let scratch (i i' : Instr) (bytes : Nat) : Prop := two 1 0 i bytes ∧ two 2 off i' bytes
    stores (.stB d a reuse order scope) (.stBExt d a reuse order scope off) 1 ∧
    stores (.stH d a reuse order scope) (.stHExt d a reuse order scope off) 2 ∧
    stores (.stW d a reuse order scope) (.stWExt d a reuse order scope off) 4 ∧
    stores (.stD d a reuse order scope) (.stDExt d a reuse order scope off) 8 ∧
    stores (.stQ d a reuse order scope) (.stQExt d a reuse order scope off) 16 ∧
    scratch (.stsB d a order scope) (.stsBExt d a order scope off) 1 ∧
    scratch (.stsH d a order scope) (.stsHExt d a order scope off) 2 ∧
    scratch (.stsW d a order scope) (.stsWExt d a order scope off) 4 ∧
    scratch (.stsD d a order scope) (.stsDExt d a order scope off) 8 ∧
    scratch (.stsQ d a order scope) (.stsQExt d a order scope off) 16

/-- R152, R154, R155, R19. Held back by nothing, with its address and its data full, every address aligned and mapped, an atomic starts one access that
carries its operation and its data, a compare-and-swap both values; where D is of the v or o file its registers are empty until the old value returns. -/
def Obligations.AtomicWords : Prop :=
  ∀ (s : State) (d a : BitVec 7) (off : BitVec 32) (order : BitVec 2) (scope reuse : BitVec 3) (loc : Nat → Nat → Space × Nat), s.memFree →
    let act := inSet s.me.run.act
    let ret := decide (d.toNat < 72)
    let ea (o : BitVec 32) (l : Nat) : Nat := (s.me.src64 l a.toNat + o.signExtend 64).toNat
    let data (bytes : Nat) (l : Nat) : List (BitVec 8) :=
      if bytes = 4 then leBytes 4 (s.me.src .int l d.toNat).toNat
      else if bytes = 8 then leBytes 8 (s.me.src64 l d.toNat).toNat
      else (List.range 4).flatMap (fun i => leBytes 4 (s.me.src .int l (d.toNat + i)).toNat)
    let ready (bytes carried : Nat) : Prop := s.ready ([a.toNat, a.toNat + 1] ++ regRun d.toNat (carried / 4)) (if ret then regRun d.toNat (bytes / 4) else [])
    let issued (n op reuse bytes : Nat) (parts : List Part) : State → Prop :=
      Issued n act (if ret then (List.range (bytes / 4)).map (d.toNat + ·) else [])
        (s.accessHere (.atomic op) order.toNat scope.toNat reuse n (if ret then some d.toNat else none) (bytes / 4) 4 false parts) s
    let one (n : Nat) (o : BitVec 32) (i : Instr) (op bytes carried : Nat) : Prop :=
      ready bytes carried → (∀ l, act l = true → ea o l % bytes = 0) → s.mapped true true false bytes act (ea o) loc → s.logStalls s.myTeam.grid = false →
        Gives (exec i s) (issued n op reuse.toNat bytes (s.partsOf false bytes (fun _ => true) (ea o) loc (data carried)))
    let atomics (i i' : Instr) (op bytes carried : Nat) : Prop := one 1 0 i op bytes carried ∧ one 2 off i' op bytes carried
    let two (n : Nat) (o : BitVec 32) (i : Instr) (op carried : Nat) : Prop :=
      ready 4 carried → (∀ l, act l = true → ea o l % 4 = 0) → s.inScratch 4 (ea o) →
        Gives (exec i s) (issued n op 0 4 (s.scratchParts 4 (ea o) (data carried)))
    let scratch (i i' : Instr) (op carried : Nat) : Prop := two 1 0 i op carried ∧ two 2 off i' op carried
    atomics (.atomAdd d a reuse order scope) (.atomAddExt d a reuse order scope off) 0x16 4 4 ∧
    atomics (.atomFadd d a reuse order scope) (.atomFaddExt d a reuse order scope off) 0x17 4 4 ∧
    atomics (.atomHfaddBf d a reuse order scope) (.atomHfaddBfExt d a reuse order scope off) 0x18 4 4 ∧
    atomics (.atomMin d a reuse order scope) (.atomMinExt d a reuse order scope off) 0x19 4 4 ∧
    atomics (.atomMax d a reuse order scope) (.atomMaxExt d a reuse order scope off) 0x1A 4 4 ∧
    atomics (.atomMinu d a reuse order scope) (.atomMinuExt d a reuse order scope off) 0x1B 4 4 ∧
    atomics (.atomMaxu d a reuse order scope) (.atomMaxuExt d a reuse order scope off) 0x1C 4 4 ∧
    atomics (.atomAnd d a reuse order scope) (.atomAndExt d a reuse order scope off) 0x1D 4 4 ∧
    atomics (.atomOr d a reuse order scope) (.atomOrExt d a reuse order scope off) 0x1E 4 4 ∧
    atomics (.atomXor d a reuse order scope) (.atomXorExt d a reuse order scope off) 0x1F 4 4 ∧
    atomics (.atomXchg d a reuse order scope) (.atomXchgExt d a reuse order scope off) 0x20 4 4 ∧
    atomics (.atomCas d a reuse order scope) (.atomCasExt d a reuse order scope off) 0x21 4 8 ∧
    atomics (.atomCasD d a reuse order scope) (.atomCasDExt d a reuse order scope off) 0x22 8 16 ∧
    scratch (.atomsAdd d a order scope) (.atomsAddExt d a order scope off) 0x23 4 ∧
    scratch (.atomsFadd d a order scope) (.atomsFaddExt d a order scope off) 0x24 4 ∧
    scratch (.atomsMin d a order scope) (.atomsMinExt d a order scope off) 0x25 4 ∧
    scratch (.atomsMax d a order scope) (.atomsMaxExt d a order scope off) 0x26 4 ∧
    scratch (.atomsXchg d a order scope) (.atomsXchgExt d a order scope off) 0x27 4 ∧
    scratch (.atomsCas d a order scope) (.atomsCasExt d a order scope off) 0x28 8

/-- R160. Held back by nothing, with base, index and destination or data full, an indexed word starts one access for the active lanes whose guard holds,
each at its base plus its index, sign-extended, times the width of its type; a load fills D by sign extension for the signed types. -/
def Obligations.IndexedWords : Prop :=
  ∀ (s : State) (d a b : BitVec 7) (ea eb : Bool) (pg : BitVec 5) (neg : Bool) (st : BitVec 4) (order : BitVec 2) (scope reuse : BitVec 3)
    (loc : Nat → Nat → Space × Nat), s.memFree →
    let on (l : Nat) : Bool := inSet s.me.run.act l && ((s.me.lane l).pred pg.toNat != neg)
    let w : Nat := if st.toNat = 8 ∨ st.toNat = 9 then 4 else if st.toNat = 10 ∨ st.toNat = 11 then 2 else 1
    let addr (l : Nat) : Nat := (s.me.src64 l a.toNat + (s.me.src .int l b.toNat).signExtend 64 * BitVec.ofNat 64 w).toNat
    (∃ l, on l = true) → (∀ l, on l = true → addr l % w = 0) →
    (s.ready [a.toNat, a.toNat + 1, b.toNat] [d.toNat] → s.mapped false false false w on addr loc →
      Gives (exec (.ldIdx d a b ea eb pg neg st order scope reuse) s) (Issued 2 on [d.toNat]
        (s.accessHere .load order.toNat scope.toNat reuse.toNat 2 (some d.toNat) 1 w (decide (st.toNat = 10 ∨ st.toNat = 12))
          (s.partsOf false w on addr loc (fun _ => []))) s)) ∧
    (s.ready [a.toNat, a.toNat + 1, b.toNat, d.toNat] [] → s.mapped true false false w on addr loc →
      Gives (exec (.stIdx d a b ea eb pg neg st order scope reuse) s) (Issued 2 on []
        (s.accessHere .store order.toNat scope.toNat reuse.toNat 2 none 0 4 false
          (s.partsOf false w on addr loc (fun l => leBytes w (s.me.src .int l d.toNat).toNat))) s))

/-- R163, R142, R151, R160, R88. A memory word with an address that is not a multiple of its width (of LDPK6 8, of LDPK4 16) in some active lane, for an indexed
word in one whose guard holds, for a scalar word in the lowest active lane, takes cause 0x30 with its class and opcode as DETAIL, the misaligned lanes
in TRAPLANES and the address of the lowest of them in TRAPADDR, and starts no access: memory and all registers stay. So it is for every load, store
and atomic, global, scratchpad (whose lines are present), indexed and scalar, with and without an extension word. -/
def Obligations.MisalignedWordsTrap : Prop :=
  ∀ (s : State) (d a b : BitVec 7) (sd sa : BitVec 5) (imm : BitVec 13) (off : BitVec 32) (order : BitVec 2) (scope reuse : BitVec 3) (ea eb : Bool)
    (pg : BitVec 5) (neg : Bool) (st : BitVec 4), s.memFree → (s.gridOf s.me).record.handler ≠ 0xFFFFFFFF → s.me.handler = false →
    let act := inSet s.me.run.act
    let at_ (o : BitVec 32) (l : Nat) : Nat := (s.me.src64 l a.toNat + o.signExtend 64).toNat
    let addr := [a.toNat, a.toNat + 1]
    let traps (on : Nat → Bool) (va : Nat → Nat) (w : Nat) (i : Instr) : Prop :=
      let odd (l : Nat) : Bool := on l && decide (va l % w ≠ 0)
      ∀ low, odd low = true → (∀ l, l < low → odd l = false) →
        Gives (exec i s) (fun t => SameWorld s t ∧ t.clusters = s.clusters ∧ t.teams = s.teams ∧ t.time = s.time ∧
          (∀ k, k ≠ s.cur → t.group k = s.group k) ∧
          t.me.trap.cause = BitVec.ofNat 32 (0x30 + s.me.run.idx % 16 * 2 ^ 16 + s.me.run.classOp % 4096 * 2 ^ 20) ∧ t.me.trap.pc = s.me.run.hdr ∧
          t.me.trap.addr = BitVec.ofNat 64 (va low) ∧ (∀ l, l < 64 → t.me.trap.lanes.getLsbD l = odd l) ∧ t.me.trapPending = true ∧
          t.me.run.stopped = true ∧ t.me.lanes = s.me.lanes ∧ t.me.sregs = s.me.sregs ∧ t.me.sEmpty = s.me.sEmpty)
    let both (w : Nat) (i i' : Instr) : Prop := traps act (at_ 0) w i ∧ traps act (at_ off) w i'
    let load (w n : Nat) (i i' : Instr) : Prop := s.ready addr (regRun d.toNat n) → both w i i'
    let store (w n : Nat) (i i' : Instr) : Prop := s.ready (addr ++ regRun d.toNat n) [] → both w i i'
    let atomic (w carried : Nat) (i i' : Instr) : Prop :=
      s.ready (addr ++ regRun d.toNat (carried / 4)) (if d.toNat < 72 then regRun d.toNat (w / 4) else []) → both w i i'
    let present (w : Nat) : Prop := ∀ o, ∀ l, act l = true → at_ o l < s.myTeam.scrSize →
      ∀ ln ∈ linesOf (s.myTeam.scrBase + at_ o l) w, FMap.has (s.cluster s.me.cluster).absent ln = false
    (load 2 1 (.ldH d a reuse order scope) (.ldHExt d a reuse order scope off) ∧ load 2 1 (.ldSh d a reuse order scope) (.ldShExt d a reuse order scope off) ∧
      load 4 1 (.ldW d a reuse order scope) (.ldWExt d a reuse order scope off) ∧ load 8 2 (.ldD d a reuse order scope) (.ldDExt d a reuse order scope off) ∧
      load 16 4 (.ldQ d a reuse order scope) (.ldQExt d a reuse order scope off) ∧
      load 8 6 (.ldpk6 d a reuse order scope) (.ldpk6Ext d a reuse order scope off) ∧
      load 16 4 (.ldpk4 d a reuse order scope) (.ldpk4Ext d a reuse order scope off)) ∧
    (store 2 1 (.stH d a reuse order scope) (.stHExt d a reuse order scope off) ∧ store 4 1 (.stW d a reuse order scope) (.stWExt d a reuse order scope off) ∧
      store 8 2 (.stD d a reuse order scope) (.stDExt d a reuse order scope off) ∧ store 16 4 (.stQ d a reuse order scope) (.stQExt d a reuse order scope off)) ∧
    (atomic 4 4 (.atomAdd d a reuse order scope) (.atomAddExt d a reuse order scope off) ∧
      atomic 4 4 (.atomFadd d a reuse order scope) (.atomFaddExt d a reuse order scope off) ∧
      atomic 4 4 (.atomHfaddBf d a reuse order scope) (.atomHfaddBfExt d a reuse order scope off) ∧
      atomic 4 4 (.atomMin d a reuse order scope) (.atomMinExt d a reuse order scope off) ∧
      atomic 4 4 (.atomMax d a reuse order scope) (.atomMaxExt d a reuse order scope off) ∧
      atomic 4 4 (.atomMinu d a reuse order scope) (.atomMinuExt d a reuse order scope off) ∧
      atomic 4 4 (.atomMaxu d a reuse order scope) (.atomMaxuExt d a reuse order scope off) ∧
      atomic 4 4 (.atomAnd d a reuse order scope) (.atomAndExt d a reuse order scope off) ∧
      atomic 4 4 (.atomOr d a reuse order scope) (.atomOrExt d a reuse order scope off) ∧
      atomic 4 4 (.atomXor d a reuse order scope) (.atomXorExt d a reuse order scope off) ∧
      atomic 4 4 (.atomXchg d a reuse order scope) (.atomXchgExt d a reuse order scope off) ∧
      atomic 4 8 (.atomCas d a reuse order scope) (.atomCasExt d a reuse order scope off) ∧
      atomic 8 16 (.atomCasD d a reuse order scope) (.atomCasDExt d a reuse order scope off)) ∧
    (present 4 → load 4 1 (.ldsW d a order scope) (.ldsWExt d a order scope off) ∧ store 4 1 (.stsW d a order scope) (.stsWExt d a order scope off) ∧
      atomic 4 4 (.atomsAdd d a order scope) (.atomsAddExt d a order scope off) ∧ atomic 4 4 (.atomsFadd d a order scope) (.atomsFaddExt d a order scope off) ∧
      atomic 4 4 (.atomsMin d a order scope) (.atomsMinExt d a order scope off) ∧ atomic 4 4 (.atomsMax d a order scope) (.atomsMaxExt d a order scope off) ∧
      atomic 4 4 (.atomsXchg d a order scope) (.atomsXchgExt d a order scope off) ∧ atomic 4 8 (.atomsCas d a order scope) (.atomsCasExt d a order scope off)) ∧
    (present 2 → store 2 1 (.stsH d a order scope) (.stsHExt d a order scope off)) ∧
    (present 8 → load 8 2 (.ldsD d a order scope) (.ldsDExt d a order scope off) ∧ store 8 2 (.stsD d a order scope) (.stsDExt d a order scope off)) ∧
    (present 16 → load 16 4 (.ldsQ d a order scope) (.ldsQExt d a order scope off) ∧ store 16 4 (.stsQ d a order scope) (.stsQExt d a order scope off)) ∧
    (let w : Nat := if st.toNat = 8 ∨ st.toNat = 9 then 4 else if st.toNat = 10 ∨ st.toNat = 11 then 2 else 1
     let on (l : Nat) : Bool := act l && ((s.me.lane l).pred pg.toNat != neg)
     let va (l : Nat) : Nat := (s.me.src64 l a.toNat + (s.me.src .int l b.toNat).signExtend 64 * BitVec.ofNat 64 w).toNat
     (s.ready (addr ++ [b.toNat]) [d.toNat] → traps on va w (.ldIdx d a b ea eb pg neg st order scope reuse)) ∧
     (s.ready (addr ++ [b.toNat, d.toNat]) [] → traps on va w (.stIdx d a b ea eb pg neg st order scope reuse))) ∧
    (∀ low, act low = true → (∀ l, l < low → act l = false) →
      let one (l : Nat) : Bool := l == low
      let va (_ : Nat) : Nat := (s.me.sPair sa.toNat + imm.signExtend 64).toNat
      let base := [80 + sa.toNat, 80 + sa.toNat + 1]
      (s.ready base [80 + sd.toNat] → traps one va 4 (.sldW sd sa imm)) ∧
      (s.ready base [80 + sd.toNat, 80 + sd.toNat + 1] → traps one va 8 (.sldD sd sa imm)) ∧
      (s.ready (base ++ [80 + sd.toNat]) [] → traps one va 4 (.sstW sd sa imm)))

/-- R158. FENCE completes in every state: it enters a hold on the later memory words of the active lanes, of its order and scope, over every access with a
lower number, and changes nothing else. While an earlier access of such a lane is not performed, as the order of the hold asks at its scope (for an
acquire its loads and atomics; for a release all of them, and at die scope and wider the stores that stand in the L1 of its cluster), a later load
that an acquire holds back, and a later store or atomic that either holds back, of every width and form, global, scratchpad, indexed or scalar, with
its operands full and no rollback under way, waits at its word with its active set, and no access starts. R159. PREF
completes whenever its address is full: it writes no register, starts no access and changes no memory, only what the caches hold, the cached
translations and the count of table errors; with reuse 7 no L1 gets a line. -/
def Obligations.FenceAndPrefetch : Prop :=
  (∀ (s : State) (order : BitVec 2) (scope : BitVec 3),
    Gives (exec (.fence order scope) s) (fun t => t.teams = s.teams ∧ Moved { s.me with
      fences := s.me.fences ++ [{ order := order.toNat, scope := scope.toNat, lanes := s.me.run.act, upto := s.fresh }], run := s.me.run.after 1 } s.sameLanes s t)) ∧
  (∀ (s : State) (d a b : BitVec 7) (sd sa : BitVec 5) (imm : BitVec 13) (off : BitVec 32) (order : BitVec 2) (scope reuse : BitVec 3) (ea eb : Bool)
      (pg : BitVec 5) (neg : Bool) (st : BitVec 4) (f : FenceHold) (l : Nat), s.me.run.handler = false → s.myTeam.rollback = none → f ∈ s.me.fences →
      inSet f.lanes l = true →
    let earlier (kind : AccKind → Prop) (done : Part → Bool) : Prop := ∃ x ∈ s.accesses, x.1 < f.upto ∧ x.2.group = s.cur ∧ kind x.2.kind ∧
      ∃ p ∈ x.2.parts, p.lane = l ∧ done p = false
    let drained : Prop := ∀ x ∈ s.accesses, x.2.cluster = s.me.cluster → ∀ p ∈ x.2.parts, p.entered = none ∨ p.done = true
    let acquire : Prop := (f.order = 1 ∨ f.order = 3) ∧ earlier (· ≠ .store) (·.done)
    let release : Prop := (f.order = 2 ∨ f.order = 3) ∧
      (earlier (fun _ => True) (fun p => p.done || p.entered.isSome) ∨ (2 < f.scope ∧ (earlier (fun _ => True) (·.done) ∨ ¬ drained)))
    let waits (on : LaneSet) (kind : AccKind) (i : Instr) : Prop := inSet on l = true → (acquire ∨ (kind ≠ .load ∧ release)) →
      Gives (exec i s) (fun t => { t with groups := s.groups } = s ∧ s.othersSame t s.cur ∧ t.me = { s.me with
        run := { s.me.run with stopped := true }
        resumes := { hdr := s.me.run.hdr, idx := s.me.run.idx, act := s.me.run.act, wait := .fence on kind, start := s.me.run.start } :: s.me.resumes })
    let addr := [a.toNat, a.toNat + 1]
    let both (kind : AccKind) (i i' : Instr) : Prop := waits s.me.run.act kind i ∧ waits s.me.run.act kind i'
    let load (n : Nat) (i i' : Instr) : Prop := s.ready addr (regRun d.toNat n) → both .load i i'
    let store (n : Nat) (i i' : Instr) : Prop := s.ready (addr ++ regRun d.toNat n) [] → both .store i i'
    let atomic (op n carried : Nat) (i i' : Instr) : Prop :=
      s.ready (addr ++ regRun d.toNat carried) (if d.toNat < 72 then regRun d.toNat n else []) → both (.atomic op) i i'
    (load 1 (.ldB d a reuse order scope) (.ldBExt d a reuse order scope off) ∧ load 1 (.ldSb d a reuse order scope) (.ldSbExt d a reuse order scope off) ∧
      load 1 (.ldH d a reuse order scope) (.ldHExt d a reuse order scope off) ∧ load 1 (.ldSh d a reuse order scope) (.ldShExt d a reuse order scope off) ∧
      load 1 (.ldW d a reuse order scope) (.ldWExt d a reuse order scope off) ∧ load 2 (.ldD d a reuse order scope) (.ldDExt d a reuse order scope off) ∧
      load 4 (.ldQ d a reuse order scope) (.ldQExt d a reuse order scope off) ∧ load 6 (.ldpk6 d a reuse order scope) (.ldpk6Ext d a reuse order scope off) ∧
      load 4 (.ldpk4 d a reuse order scope) (.ldpk4Ext d a reuse order scope off) ∧ load 1 (.ldsW d a order scope) (.ldsWExt d a order scope off) ∧
      load 2 (.ldsD d a order scope) (.ldsDExt d a order scope off) ∧ load 4 (.ldsQ d a order scope) (.ldsQExt d a order scope off)) ∧
    (store 1 (.stB d a reuse order scope) (.stBExt d a reuse order scope off) ∧ store 1 (.stH d a reuse order scope) (.stHExt d a reuse order scope off) ∧
      store 1 (.stW d a reuse order scope) (.stWExt d a reuse order scope off) ∧ store 2 (.stD d a reuse order scope) (.stDExt d a reuse order scope off) ∧
      store 4 (.stQ d a reuse order scope) (.stQExt d a reuse order scope off) ∧ store 1 (.stsB d a order scope) (.stsBExt d a order scope off) ∧
      store 1 (.stsH d a order scope) (.stsHExt d a order scope off) ∧ store 1 (.stsW d a order scope) (.stsWExt d a order scope off) ∧
      store 2 (.stsD d a order scope) (.stsDExt d a order scope off) ∧ store 4 (.stsQ d a order scope) (.stsQExt d a order scope off)) ∧
    (atomic 0x16 1 1 (.atomAdd d a reuse order scope) (.atomAddExt d a reuse order scope off) ∧
      atomic 0x17 1 1 (.atomFadd d a reuse order scope) (.atomFaddExt d a reuse order scope off) ∧
      atomic 0x18 1 1 (.atomHfaddBf d a reuse order scope) (.atomHfaddBfExt d a reuse order scope off) ∧
      atomic 0x19 1 1 (.atomMin d a reuse order scope) (.atomMinExt d a reuse order scope off) ∧
      atomic 0x1A 1 1 (.atomMax d a reuse order scope) (.atomMaxExt d a reuse order scope off) ∧
      atomic 0x1B 1 1 (.atomMinu d a reuse order scope) (.atomMinuExt d a reuse order scope off) ∧
      atomic 0x1C 1 1 (.atomMaxu d a reuse order scope) (.atomMaxuExt d a reuse order scope off) ∧
      atomic 0x1D 1 1 (.atomAnd d a reuse order scope) (.atomAndExt d a reuse order scope off) ∧
      atomic 0x1E 1 1 (.atomOr d a reuse order scope) (.atomOrExt d a reuse order scope off) ∧
      atomic 0x1F 1 1 (.atomXor d a reuse order scope) (.atomXorExt d a reuse order scope off) ∧
      atomic 0x20 1 1 (.atomXchg d a reuse order scope) (.atomXchgExt d a reuse order scope off) ∧
      atomic 0x21 1 2 (.atomCas d a reuse order scope) (.atomCasExt d a reuse order scope off) ∧
      atomic 0x22 2 4 (.atomCasD d a reuse order scope) (.atomCasDExt d a reuse order scope off) ∧
      atomic 0x23 1 1 (.atomsAdd d a order scope) (.atomsAddExt d a order scope off) ∧
      atomic 0x24 1 1 (.atomsFadd d a order scope) (.atomsFaddExt d a order scope off) ∧
      atomic 0x25 1 1 (.atomsMin d a order scope) (.atomsMinExt d a order scope off) ∧
      atomic 0x26 1 1 (.atomsMax d a order scope) (.atomsMaxExt d a order scope off) ∧
      atomic 0x27 1 1 (.atomsXchg d a order scope) (.atomsXchgExt d a order scope off) ∧
      atomic 0x28 1 2 (.atomsCas d a order scope) (.atomsCasExt d a order scope off)) ∧
    (let on : LaneSet := setOf (fun k => inSet s.me.run.act k && ((s.me.lane k).pred pg.toNat != neg))
     (s.ready (addr ++ [b.toNat]) [d.toNat] → waits on .load (.ldIdx d a b ea eb pg neg st order scope reuse)) ∧
     (s.ready (addr ++ [b.toNat, d.toNat]) [] → waits on .store (.stIdx d a b ea eb pg neg st order scope reuse))) ∧
    (∀ low, inSet s.me.run.act low = true → (∀ k, k < low → inSet s.me.run.act k = false) →
      let base := [80 + sa.toNat, 80 + sa.toNat + 1]
      (s.ready base [80 + sd.toNat] → waits (oneLane low) .load (.sldW sd sa imm)) ∧
      (s.ready base [80 + sd.toNat, 80 + sd.toNat + 1] → waits (oneLane low) .load (.sldD sd sa imm)) ∧
      (s.ready (base ++ [80 + sd.toNat]) [] → waits (oneLane low) .store (.sstW sd sa imm)))) ∧
  (∀ (s : State) (a : BitVec 7) (off : BitVec 32) (reuse : BitVec 3), s.ready [a.toNat, a.toNat + 1] [] →
    let fetched (n : Nat) (i : Instr) (l1 : State → Prop) : Prop := Gives (exec i s) (fun t => ∃ v : State, CachesOnly s v ∧ l1 v ∧ t.teams = v.teams ∧
      Moved { s.me with run := s.me.run.after n } s.sameLanes v t)
    let none_ (v : State) : Prop := ∀ c, (v.cluster c).l1 = (s.cluster c).l1
    fetched 1 (.pref a reuse) (fun _ => True) ∧ fetched 2 (.prefExt a reuse off) (fun _ => True) ∧
    fetched 1 (.pref a 7) none_ ∧ fetched 2 (.prefExt a 7 off) none_)

/-- R87, R88. With its sources and destinations full, no fence, no rollback, no open level and no lane in a region, an aligned scalar load or store whose
page is in memory starts one access in the name of the lowest active lane: a load empties its destinations, a store carries its register. -/
def Obligations.ScalarMemoryWords : Prop :=
  ∀ (s : State) (sd sa : BitVec 5) (imm : BitVec 13) (low : Nat) (sp : Space) (pa : Nat),
    let ea : Nat := (s.me.sPair sa.toNat + imm.signExtend 64).toNat
    s.me.fences = [] → s.myTeam.rollback = none → s.myTeam.levels = [] → (∀ l, inSet s.me.run.act l = true → (s.me.lane l).region = none) →
    inSet s.me.run.act low = true → (∀ l, l < low → inSet s.me.run.act l = false) →
    let part (bytes : Nat) (data : List (BitVec 8)) : Part := s.partAt low ea (0, bytes) (sp, pa) data
    let gives (i : Instr) (kind : AccKind) (bytes : Nat) (dsts : List Nat) (data : List (BitVec 8)) : Prop :=
      ea % bytes = 0 → s.target s.me.cluster (s.partOf s.me) (if kind = .load then .read else .write) ea = .ok sp pa →
      (sp = .host → kind = .load → ∀ w ∈ wordsIn pa bytes, FMap.has s.hostErr w = false) →
      Gives (exec i s) (fun t =>
        { t with time := s.time, clusters := s.clusters, dies := s.dies, groups := s.groups, accesses := s.accesses, fresh := s.fresh } = s ∧
        (∀ c, { t.cluster c with slices := (s.cluster c).slices, tlb := (s.cluster c).tlb } = s.cluster c) ∧
        (∀ d, { t.die d with tlb := (s.die d).tlb } = s.die d) ∧ (∀ k, k ≠ s.cur → t.group k = s.group k) ∧
        { t.me with sEmpty := s.me.sEmpty } = { s.me with run := s.me.run.after 1 } ∧
        (∀ r, r < 32 → t.me.sIsEmpty r = (s.me.sIsEmpty r || dsts.contains (80 + r))) ∧
        FMap.look t.accesses s.fresh = some (s.accessHere kind 0 0 0 1 dsts.head? dsts.length 4 false [part bytes data]) ∧
        (∀ k, k ≠ s.fresh → FMap.look t.accesses k = FMap.look s.accesses k) ∧ t.fresh = s.fresh + 1)
    (s.ready [80 + sa.toNat, 80 + sa.toNat + 1] [80 + sd.toNat] → gives (.sldW sd sa imm) .load 4 [80 + sd.toNat] []) ∧
    (s.ready [80 + sa.toNat, 80 + sa.toNat + 1] [80 + sd.toNat, 80 + sd.toNat + 1] →
      gives (.sldD sd sa imm) .load 8 [80 + sd.toNat, 80 + sd.toNat + 1] []) ∧
    (s.ready [80 + sa.toNat, 80 + sa.toNat + 1, 80 + sd.toNat] [] →
      gives (.sstW sd sa imm) .store 4 [] (leBytes 4 (s.me.s sd.toNat).toNat))

/-! ### Scalar words -/

/-- R85, R83. With its sources and its destination full, every register scalar word leaves its row's function of the two registers in its destination and
changes nothing else. R86, R83. With its source and its destination full, every immediate scalar word leaves its row's value in its destination and
changes nothing else. -/
def Obligations.ScalarArithmeticWords : Prop :=
  (∀ (s : State) (sd sa sb : BitVec 5), s.ready [80 + sa.toNat, 80 + sb.toNat] [80 + sd.toNat] →
      let x := s.me.s sa.toNat
      let y := s.me.s sb.toNat
      let gives (i : Instr) (v : Word) : Prop := Gives (exec i s) (WroteS 1 sd.toNat v s)
      gives (.sadd sd sa sb) (x + y) ∧
      gives (.ssub sd sa sb) (x - y) ∧
      gives (.smul sd sa sb) (x * y) ∧
      gives (.smulhu sd sa sb) (BitVec.ofNat 32 (x.toNat * y.toNat / 2 ^ 32)) ∧
      gives (.sand sd sa sb) (x &&& y) ∧
      gives (.sor sd sa sb) (x ||| y) ∧
      gives (.sxor sd sa sb) (x ^^^ y) ∧
      gives (.sshl sd sa sb) (x <<< (y.toNat % 32)) ∧
      gives (.sshr sd sa sb) (x >>> (y.toNat % 32)) ∧
      gives (.ssar sd sa sb) (x.sshiftRight (y.toNat % 32)) ∧
      gives (.smin sd sa sb) (if x.toInt ≤ y.toInt then x else y) ∧
      gives (.smax sd sa sb) (if x.toInt ≤ y.toInt then y else x) ∧
      gives (.sminu sd sa sb) (if x.toNat ≤ y.toNat then x else y) ∧
      gives (.smaxu sd sa sb) (if x.toNat ≤ y.toNat then y else x) ∧
      gives (.sseq sd sa sb) (if x = y then 1 else 0) ∧
      gives (.sslt sd sa sb) (if x.toInt < y.toInt then 1 else 0) ∧
      gives (.ssltu sd sa sb) (if x.toNat < y.toNat then 1 else 0)) ∧
  (∀ (s : State) (sd sa : BitVec 5) (imm : BitVec 13) (sh : BitVec 5),
      let gives (i : Instr) (v : Word) : Prop := Gives (exec i s) (WroteS 1 sd.toNat v s)
      let x := s.me.s sa.toNat
      (s.ready [80 + sa.toNat] [80 + sd.toNat] →
        gives (.saddi sd sa imm) (x + imm.signExtend 32) ∧
        gives (.sandi sd sa imm) (x &&& imm.zeroExtend 32) ∧
        gives (.sori sd sa imm) (x ||| imm.zeroExtend 32) ∧
        gives (.sxori sd sa imm) (x ^^^ imm.zeroExtend 32) ∧
        gives (.sshli sd sa sh) (x <<< sh.toNat) ∧
        gives (.sshri sd sa sh) (x >>> sh.toNat)) ∧
      (s.ready [] [80 + sd.toNat] →
        gives (.smovi sd imm) (imm.signExtend 32) ∧
        gives (.smovhi sd imm) (s.me.s sd.toNat <<< 13 ||| imm.zeroExtend 32)))

/-- R89, R13. MOVSR copies a special register to its scalar destination and changes nothing else: the group width, the lane map and pass layout of its
slice, identity, shape and place of its team, PROGRESS and FPCTL, the trap registers, RLEVEL, RSTATUS with the fields of R296, the partition, SAFEORD, the ratio, the energy class and
the generation of the activation bank. R89, R14, R350, R399. MOVSW writes FPCTL or, held to 255, PROGRESS, the latter resetting the team's watchdog
count, and changes nothing else; a reserved rounding mode or a reserved bit of FPCTL takes cause 0x09 with DETAIL 0 or 3 in place of the write. -/
def Obligations.SpecialRegisterWords : Prop :=
  (∀ (s : State) (sd : BitVec 5), s.ready [] [80 + sd.toNat] →
      let g := s.me
      let t := s.myTeam
      let gr := s.grid t.grid
      let nat (n : Nat) : Word := BitVec.ofNat 32 n
      let reads (n : BitVec 6) (v : Word) : Prop := Gives (exec (.movsr sd n) s) (WroteS 1 sd.toNat v s)
      reads 0x00 64 ∧ reads 0x01 ((s.cluster g.cluster).slice g.slice).laneMap ∧ reads 0x02 (nat g.run.passDiv) ∧
      reads 0x03 (nat (passCount ((s.cluster g.cluster).slice g.slice).laneMap g.run.passDiv)) ∧
      reads 0x04 (nat g.gid) ∧ reads 0x05 (nat t.idX) ∧ reads 0x06 (nat t.idY) ∧ reads 0x07 (nat t.idZ) ∧
      reads 0x08 (nat gr.record.teamX) ∧ reads 0x09 (nat gr.record.teamY) ∧ reads 0x0A (nat gr.record.teamZ) ∧
      reads 0x0B (nat gr.record.gridX) ∧ reads 0x0C (nat gr.record.gridY) ∧ reads 0x0D (nat gr.record.gridZ) ∧
      reads 0x0E (nat g.cluster) ∧ reads 0x0F (nat g.slice) ∧ reads 0x10 (nat gr.depth) ∧
      reads 0x11 g.progress ∧ reads 0x12 g.fpctl ∧ reads 0x13 g.trap.cause ∧ reads 0x14 g.trap.pc ∧
      reads 0x15 (g.trap.addr.extractLsb' 0 32) ∧ reads 0x16 (g.trap.addr.extractLsb' 32 32) ∧
      reads 0x17 (g.trap.lanes.extractLsb' 0 32) ∧ reads 0x18 (g.trap.lanes.extractLsb' 32 32) ∧
      reads 0x19 (nat t.levels.length) ∧ (t.levels = [] → reads 0x1A 0) ∧
      (∀ below lv, t.levels = below ++ [lv] → reads 0x1A (0#1 ++ BitVec.ofNat 15 lv.fcode ++ BitVec.ofNat 8 lv.last ++ 0#2 ++
        BitVec.ofBool (decide (lv.conv ≠ 0)) ++ BitVec.ofNat 2 lv.phase ++ BitVec.ofNat 3 lv.routine)) ∧
      reads 0x1B (nat gr.part) ∧ reads 0x1C g.safeord ∧
      reads 0x1D (nat g.run.ratio) ∧ reads 0x1E (nat (gr.record.flags.toNat / 8 % 8)) ∧ reads 0x1F (s.cluster g.cluster).actGen) ∧
  (∀ (s : State) (ss : BitVec 5), s.ready [80 + ss.toNat] [] →
      let v := s.me.s ss.toNat
      (v.toNat % 8 < 6 → v.toNat / 8 % 32 = 0 →
        Gives (exec (.movsw ss 0x12) s) (fun t => t.teams = s.teams ∧ Moved { s.me with fpctl := v, run := s.me.run.after 1 } s.sameLanes s t)) ∧
      (6 ≤ v.toNat % 8 → exec (.movsw ss 0x12) s = .next (s.trapHere 0x09 0)) ∧
      (v.toNat % 8 < 6 → v.toNat / 8 % 32 ≠ 0 → exec (.movsw ss 0x12) s = .next (s.trapHere 0x09 3)) ∧
      Gives (exec (.movsw ss 0x11) s) (fun t =>
        (∀ k, t.team k = if k = s.me.team then { s.team k with wdcount := 0 } else s.team k) ∧
        Moved { s.me with progress := BitVec.ofNat 32 (min v.toNat 255), run := s.me.run.after 1 } s.sameLanes s t))

/-- R100, R103, R98, R187. ELECT and TELECT set their predicate in one lane and clear it in the other active lanes: ELECT in the lowest active lane,
TELECT there only where no group of the team below this one still has a live or parked lane; TSTAMP leaves the reference count in a pair, CYCLE the
cycle counter of the slice, both as they stand at the cycle in which the word issues; NOP changes nothing. The cycle of issue follows the model's own
passing of time (log entry 59). -/
def Obligations.ElectionAndTime : Prop :=
  ∀ (s : State) (p sd : BitVec 5), p.toNat < 24 →
    let act := inSet s.me.run.act
    let low (l : Nat) : Bool := act l && (List.range l).all (fun k => !act k)
    let holds (g : Group) : Bool := (List.range 64).any (fun l => (g.lane l).counts)
    let first : Bool := holds s.me && s.myTeam.groups.all (fun k => !holds (s.group k) || decide (s.me.gid ≤ (s.group k).gid))
    Gives (exec (.elect p) s) (WrotePred 1 p.toNat low (fun _ => 0) s) ∧
    (s.cur ∈ s.myTeam.groups → (∀ l, act l = true → (s.me.lane l).counts = true) → Gives (exec (.telect p) s) (WrotePred 1 p.toNat (fun l => first && low l) (fun _ => 0) s)) ∧
    (sd.toNat % 2 = 0 → s.ready [] [80 + sd.toNat, 80 + sd.toNat + 1] → Gives (exec (.tstamp sd) s) (fun t => ScalarFrame 1 s t ∧
      t.me.sPair sd.toNat = BitVec.ofNat 64 ((s.issueTime s.me.cluster s.me.slice).1 / 840) ∧ t.me.sIsEmpty sd.toNat = false ∧ t.me.sIsEmpty (sd.toNat + 1) = false ∧
      ∀ k, k < 32 → k ≠ sd.toNat → k ≠ sd.toNat + 1 → t.me.s k = s.me.s k ∧ t.me.sIsEmpty k = s.me.sIsEmpty k)) ∧
    (s.ready [] [80 + sd.toNat] → Gives (exec (.cycle sd) s)
      (WroteS 1 sd.toNat (BitVec.ofNat 32 (s.issueTime s.me.cluster s.me.slice).2) s)) ∧
    Gives (exec .nop s) (fun t => t.teams = s.teams ∧ Moved { s.me with run := s.me.run.after 1 } s.sameLanes s t)

/-! ### Control -/

/-- R90, R91, R341. Every branch sends a lane to the word's address plus its signed offset where its condition holds, else to *next*: BRA by the lane's
own guard, BRAU by that of the lowest active lane, BRAANY where any, BRAALL where every active lane's guard holds; nothing else changes but the run.
In a handler it moves the handler's program counter, and the lanes stay. -/
def Obligations.Branches : Prop :=
  ∀ (s : State) (p : BitVec 5) (neg : Bool) (off : BitVec 17) (low : Nat),
    let act := inSet s.me.run.act
    let taken (l : Nat) : Bool := (s.me.lane l).pred p.toNat != neg
    act low = true → (∀ l, l < low → act l = false) →
    let dest (b : Bool) : Word := if b then s.here + off.signExtend 32 else s.nextHdr
    let gives (i : Instr) (cond : Nat → Bool) : Prop :=
      (s.me.run.handler = false → Gives (exec i s) (fun t => t.teams = s.teams ∧
        Moved (s.afterMove s.me.run.ends) (s.sentTo (fun l => dest (cond l))) s t)) ∧
      (s.me.run.handler = true → Gives (exec i s) (fun t => t.teams = s.teams ∧
        Moved { s.afterMove s.me.run.ends with hpc := dest (cond low) } s.sameLanes s t))
    gives (.bra p neg off) taken ∧
    gives (.brau p neg off) (fun _ => taken low) ∧
    gives (.braany p neg off) (fun _ => (List.range 64).any (fun l => act l && taken l)) ∧
    gives (.braall p neg off) (fun _ => (List.range 64).all (fun l => !act l || taken l))

/-- R91, R92, R96. With no loop open, CALL sends the active lanes whose guard holds to the target with *next* in their o7, the others to *next*; RET and
JMPV send each active lane to the address in its register. With a loop open each takes cause 0x0D with DETAIL 2. -/
def Obligations.CallsAndReturns : Prop :=
  ∀ (s : State) (p : BitVec 5) (neg : Bool) (off : BitVec 17) (a : BitVec 7) (ea : Bool),
    let act := inSet s.me.run.act
    let go (l : Nat) : Bool := act l && ((s.me.lane l).pred p.toNat != neg)
    ((∀ l, go l = true → (s.me.lane l).isEmpty 71 = false) →
      (s.me.loops = [] → Gives (exec (.call p neg off) s) (fun t => TeamsButLogs s t ∧
        Moved (s.afterMove s.me.run.ends) (fun l =>
          if go l then { (s.me.lane l).setReg 71 s.nextHdr with vpc := s.here + off.signExtend 32 }
          else if act l then { s.me.lane l with vpc := s.nextHdr } else s.me.lane l) s t)) ∧
      (s.me.loops ≠ [] → exec (.call p neg off) s = .next (s.trapHere 0x0D 2))) ∧
    (a.toNat < 72 → s.ready [a.toNat] [] →
      let jumps (i : Instr) : Prop :=
        (s.me.loops = [] → Gives (exec i s) (fun t => t.teams = s.teams ∧
          Moved (s.afterMove s.me.run.ends) (s.sentTo (fun l => (s.me.lane l).reg a.toNat)) s t)) ∧
        (s.me.loops ≠ [] → exec i s = .next (s.trapHere 0x0D 2))
      jumps (.ret a ea) ∧ jumps (.jmpv a ea))

/-- R94, R286. With its trip count full, LOOP and LOOPI of trip count 0 send the active lanes behind the body. Else an active lane in a region takes cause
0x50 with DETAIL 6, a full stack 0x0B, an open entry of the same counter 0x0C, a body not inside that of the innermost entry 0x0D with DETAIL 3; with
none of these an entry is pushed, the counter set and the active lanes go to *next*. -/
def Obligations.HardwareLoops : Prop :=
  ∀ (s : State) (lc : BitVec 2) (sa : BitVec 5) (n : BitVec 10) (len : BitVec 11),
    let g := s.me
    let stop : Word := s.nextHdr + BitVec.ofNat 32 len.toNat
    let inRegion : Prop := ∃ l, inSet g.run.act l = true ∧ (g.lane l).region ≠ none
    let held : Prop := ∃ e ∈ g.loops, e.lc = lc.toNat
    let within : Prop := ∀ e ∈ g.loops.head?, e.start.toNat ≤ s.nextHdr.toNat ∧ stop.toNat ≤ e.stop.toNat
    let gives (i : Instr) (trips : Nat) : Prop :=
      (trips = 0 → Gives (exec i s) (fun t => t.teams = s.teams ∧ Moved (s.afterMove g.run.ends) (s.sentTo (fun _ => stop)) s t)) ∧
      (trips ≠ 0 →
        (inRegion → exec i s = .next (s.trapHere 0x50 6)) ∧
        (¬ inRegion →
          (3 ≤ g.loops.length → exec i s = .next (s.trapHere 0x0B lc.toNat)) ∧
          (g.loops.length < 3 → held → exec i s = .next (s.trapHere 0x0C lc.toNat)) ∧
          (g.loops.length < 3 → ¬ held → ¬ within → exec i s = .next (s.trapHere 0x0D 3)) ∧
          (g.loops.length < 3 → ¬ held → within → Gives (exec i s) (fun t => t.teams = s.teams ∧
            Moved { s.afterMove g.run.ends with loops := ⟨s.nextHdr, stop, lc.toNat⟩ :: g.loops, lc := FMap.put g.lc lc.toNat (BitVec.ofNat 32 trips) }
              (s.sentTo (fun _ => s.nextHdr)) s t))))
    (s.ready [80 + sa.toNat] [] → gives (.loop lc sa len) (g.s sa.toNat).toNat) ∧ gives (.loopi lc n len) n.toNat

/-- R98, R99. YIELD ends the run with the active lanes at *next* and lets other groups go first; SUSPEND ends it with them at the word's target, the group
waiting until the event counter is at most the threshold. R177, R183, R186. Outside regions and levels WAITCHILD and WAITPRED end the run with the active
lanes at *next*, the group waiting for the children of its team or for the predecessor grid; SUCCOK, once for each team, lets the grid's successors
start earlier and goes on: those whose condition has come to hold are ready. With an active lane in a region each of the three takes cause 0x50 with
DETAIL 4, and in an open level WAITCHILD and WAITPRED take cause 0x60 with DETAIL 6, in place of their effect. -/
def Obligations.WordsThatEndTheRun : Prop :=
  (∀ (s : State),
      ((∃ l, inSet s.me.run.act l = true ∧ (s.me.lane l).region.isSome = true) →
        exec .waitchild s = .next (s.trapHere 0x50 4) ∧ exec .waitpred s = .next (s.trapHere 0x50 4) ∧ exec .succok s = .next (s.trapHere 0x50 4)) ∧
      ((∀ l, inSet s.me.run.act l = true → (s.me.lane l).region = none) → s.myTeam.levels ≠ [] →
        exec .waitchild s = .next (s.trapHere 0x60 6) ∧ exec .waitpred s = .next (s.trapHere 0x60 6))) ∧
  (∀ (s : State) (ec : BitVec 3) (thr : BitVec 4) (off : BitVec 16),
      Gives (exec .yield s) (fun t => t.teams = s.teams ∧ Moved { s.afterMove true with yielded := true } (s.sentTo (fun _ => s.nextHdr)) s t) ∧
      Gives (exec (.suspend ec thr off) s) (fun t => t.teams = s.teams ∧
        Moved { s.afterMove true with issue := .counter ec.toNat thr.toNat } (s.sentTo (fun _ => s.here + off.signExtend 32)) s t)) ∧
  (∀ (s : State), (∀ l, inSet s.me.run.act l = true → (s.me.lane l).region = none) →
      (s.myTeam.levels = [] →
        Gives (exec .waitchild s) (fun t => t.teams = s.teams ∧
          Moved { s.afterMove true with issue := .children s.myTeam.children } (s.sentTo (fun _ => s.nextHdr)) s t) ∧
        Gives (exec .waitpred s) (fun t => t.teams = s.teams ∧ Moved { s.afterMove true with issue := .pred } (s.sentTo (fun _ => s.nextHdr)) s t)) ∧
      Gives (exec .succok s) (fun t => ∃ u : State, t = u.settleReady ∧
        { u with time := s.time, clusters := s.clusters, groups := s.groups, teams := s.teams, grids := s.grids } = s ∧ OwnSlice s u ∧
        u.me = { s.me with run := s.me.run.after 1 } ∧
        (∀ k, u.team k = if k = s.me.team then { s.team k with succok := true } else s.team k) ∧
        (∀ k, u.grid k = if k = s.myTeam.grid ∧ s.myTeam.succok = false then { s.grid k with signalled := (s.grid k).signalled + 1 } else s.grid k)))

/-- R98, R183, R186, R281. With no active lane in a region and no open level, EXIT makes the active lanes exited, gives back the slots kept for their retries and
resets the watchdog; what their leaving completes (barriers, the grid's barrier, recovery words, waiting regions) follows. With an active lane in a region
it takes cause 0x50 with DETAIL 5, else in an open level cause 0x60 with DETAIL 2, and no lane exits. -/
def Obligations.ExitLeavesTheSets : Prop :=
  (∀ (s : State), ((∃ l, inSet s.me.run.act l = true ∧ (s.me.lane l).region.isSome = true) → exec .exit s = .next (s.trapHere 0x50 5)) ∧
    ((∀ l, inSet s.me.run.act l = true → (s.me.lane l).region = none) → s.myTeam.levels ≠ [] → exec .exit s = .next (s.trapHere 0x60 2))) ∧
  ∀ (s : State), (∀ l, inSet s.me.run.act l = true → (s.me.lane l).region = none) → s.myTeam.levels = [] →
    Gives (exec .exit s) (fun t => ∃ u : State,
      t = ((((u.settleBarriers s.me.team).settleGrid (u.team s.me.team).grid).settleRecovery s.me.team).grantSlots) ∧
      { u with time := s.time, clusters := s.clusters, teams := s.teams, groups := s.groups, dies := s.dies } = s ∧ OwnSlice s u ∧
      (∀ k, u.team k = if k = s.me.team then { s.team k with wdcount := 0 } else s.team k) ∧
      { u.me with lanes := s.me.lanes } = s.afterMove s.me.run.ends ∧
      (∀ l, l < 64 → u.me.lane l =
        if inSet s.me.run.act l then { s.me.lane l with cond := .exited, place := .none, reserved := none } else s.me.lane l) ∧
      ∀ id, u.slot id = if (List.range 64).any (fun l => inSet s.me.run.act l && (s.me.lane l).reserved == some id) then {} else s.slot id)

/-! ### Engine words -/

/-- R168, R169, R173, R255, R257, R263 to R265, R139, R140. With nothing keeping it from its unit and its block aligned, readable and well formed, its
records too, and the stores or banks it needs claimed, every word that names a block puts one command with the bytes it read into its unit's queue,
raises its event counter by one, and changes nothing else but what reads leave behind: 0 and 1 the matrix engines, 2 the copy engine, 3 the collective
unit, 5 the activation loader. -/
def Obligations.BlockCommandWords : Prop :=
  ∀ (s : State) (p : BitVec 5) (ec : BitVec 3) (b x y : List (BitVec 8)), s.ready [80 + p.toNat, 80 + p.toNat + 1] [] → s.me.fences = [] →
    let va : Nat := (s.me.sPair p.toNat).toNat
    let addr : DWord := BitVec.ofNat 64 va
    let fine (l : List (Bool × Nat)) : Prop := ∀ f ∈ l, f.1 = false
    let block (n align : Nat) : Prop := s.blockIs va n align b
    -- each record is read after the blocks before it
    let u32 := s.afterBlock va 32
    let u64 := s.afterBlock va 64
    let usrc := u32.afterBlock (fieldAt b 0 8) 128
    let udst := usrc.afterBlock (fieldAt b 8 8) 128
    let gives (v : State) (i : Instr) (c : Command) : Prop := Gives (exec i s) (fun t => BlockRead s v ∧ t.teams = s.teams ∧ Enqueued c s.sameLanes v t)
    let e : Nat := fieldAt b 0 4 % 2
    let object (h : Shape) : Prop := h.obj = 0 ∨ (udst.objBox h = false ∧ ∃ o, FMap.look s.objects h.obj = some o ∧ o.part = s.partOf s.me)
    let copies (own : List (Bool × Nat)) (rel : Shape → Shape → List (Bool × Nat)) (i : Instr) : Prop :=
      block 32 32 → u32.blockIs (fieldAt b 0 8) 128 128 x → usrc.blockIs (fieldAt b 8 8) 128 128 y → s.commandFree ec 2 32 → fine own →
      fine (shapeFields x) → fine (shapeFields y ++ rel (shapeOf x) (shapeOf y)) → object (shapeOf x) → object (shapeOf y) →
      (shapeOf x).accFail = none → (shapeOf y).accFail = none → fieldAt b 16 8 % 8 = 0 → shapeClaims s.myTeam (shapeOf x) (shapeOf y) = none →
      gives udst i { s.command 2 ec with addr := addr, block := b, src := x, dst := y }
    (block 64 64 → s.commandFree ec e 16 → fine (mmaFields b s.myTeam.scrSize) → (mmaBlk b).rects = none → (mmaBlk b).status % 8 = 0 →
      s.myTeam.claims e = true → ((mmaBlk b).asrc ≠ 0 → s.myTeam.claims ((mmaBlk b).asrc - 1) = true) →
      gives u64 (.mma p ec) { s.command e ec with addr := addr, block := b, eng := e }) ∧
    (block 64 64 → s.commandFree ec (drainBlk b).eng 16 → fine (drainFields b s.myTeam.scrSize) →
      rectFail (drainBlk b).row0 (drainBlk b).rows (drainBlk b).col0 (drainBlk b).cols false = none → (drainBlk b).status % 8 = 0 →
      s.myTeam.claims (drainBlk b).eng = true →
      gives u64 (.accdrain p ec) { s.command (drainBlk b).eng ec with addr := addr, block := b, eng := (drainBlk b).eng }) ∧
    (∀ eng : Bool, let k := if eng then 1 else 0
      block 1024 128 → s.commandFree ec k 16 → s.myTeam.claims k = true →
      gives (s.afterBlock va 1024) (.cbload p ec eng) { s.command k ec with addr := addr, table := b, eng := k }) ∧
    (block 3088 128 → s.commandFree ec 5 2 → s.myTeam.act = true → gives (s.afterBlock va 3088) (.actload p ec) { s.command 5 ec with addr := addr, table := b }) ∧
    copies [(decide (fieldAt b 24 4 / 8 ≠ 0 ∨ fieldAt b 24 4 % 8 = 4 ∨ 6 ≤ fieldAt b 24 4 % 8), 24), (!zeroAt b 28 4, 28)] copyRelations (.copy p ec) ∧
    copies (listFields b) (rowRelations true (fieldAt b 28 4)) (.gather p ec) ∧
    copies (listFields b) (rowRelations false (fieldAt b 28 4)) (.scatter p ec) ∧
    (block 64 64 → u64.blockIs (collBlk b).comm 32 8 x → s.commandFree ec 3 8 → s.myTeam.levels = [] → fine (collFields b (fieldAt x 0 4)) → fine (commFields x) →
      (collBlk b).status % 8 = 0 → gives (u64.afterBlock (collBlk b).comm 32) (.coll p ec) { s.command 3 ec with addr := addr, block := b, src := x }) ∧
    (block 32 8 → s.commandFree ec 3 8 → s.myTeam.levels = [] → fine (commFields b) → gives u32 (.phaseend p ec) { s.command 3 ec with addr := addr, src := b })

/-- R168, R173, R175, R19. With nothing keeping it from its unit and its operands full, every word that names a rectangle, a position or an object in a
register puts one command into its unit's queue and raises its event counter: ACCRD empties its destination in the active lanes, ACCWR carries its
register of each of them; the object agent takes OBJFREE, TOKREQ and TOKREL for an object of the partition; nothing else changes. -/
def Obligations.RegisterCommandWords : Prop :=
  ∀ (s : State) (p : BitVec 5) (ec : BitVec 3) (eng : Bool) (r : BitVec 7),
    let w := s.me.s p.toNat
    let v := w.toNat
    let k : Nat := if eng then 1 else 0
    let byte (i : Nat) : Nat := v / 2 ^ (8 * i) % 256
    let gives (i : Instr) (c : Command) (lane : Nat → Lane) : Prop := Gives (exec i s) (fun t => TeamsButLogs s t ∧ Enqueued c lane s t)
    let fits : Prop := byte 2 = 0 ∧ byte 3 = 0 ∧ ∀ l, inSet s.me.run.act l = true → byte 1 + l ≤ 255
    (s.ready [80 + p.toNat] [] → s.commandFree ec k 16 → s.myTeam.claims k = true →
      byte 0 + byte 2 ≤ 255 → byte 1 + byte 3 ≤ 255 →
      gives (.acczero p ec eng) { s.command k ec with operand := w, eng := k } s.sameLanes) ∧
    (s.ready [80 + p.toNat] [r.toNat] → s.commandFree ec k 16 → s.myTeam.claims k = true → fits →
      gives (.accrd p ec eng r) { s.command k ec with operand := w, eng := k, reg := r.toNat }
        (fun l => if inSet s.me.run.act l then (s.me.lane l).emptyReg r.toNat else s.me.lane l)) ∧
    (s.ready [80 + p.toNat, r.toNat] [] → s.commandFree ec k 16 → s.myTeam.claims k = true → fits →
      gives (.accwr p ec eng r) { s.command k ec with
        operand := w, eng := k, vals := (lanesIn s.me.run.act).map (fun l => (l, (s.me.lane l).reg r.toNat)) } s.sameLanes) ∧
    (s.ready [80 + p.toNat] [] → s.commandFree ec 4 16 → (∃ o, FMap.look s.objects v = some o ∧ o.part = s.partOf s.me) →
      let object (i : Instr) : Prop := gives i { s.command 4 ec with operand := w, objs := [v] } s.sameLanes
      object (.objfree p ec) ∧ object (.tokreq p ec) ∧ object (.tokrel p ec))

/-- R175, R188, R203, R19. METER and OBJDECL empty their scalar destinations until their result comes: METER the two words of the energy, OBJDECL one, with the
record it has read and checked. -/
def Obligations.ScalarResultWords : Prop :=
  ∀ (s : State) (p sd : BitVec 5) (b : List (BitVec 8)),
    let va : Nat := (s.me.sPair p.toNat).toNat
    let block : Prop := s.blockIs va 128 128 b
    let v := s.afterBlock va 128
    (s.ready [] [80 + sd.toNat, 80 + sd.toNat + 1] → Gives (exec (.meter sd) s) (fun t =>
      { t with time := s.time, clusters := s.clusters, groups := s.groups, producers := s.producers, fresh := s.fresh } = s ∧
      Awaits s.fresh [sd.toNat, sd.toNat + 1] { kind := .meter, group := s.cur, sdests := [(sd.toNat, 0), (sd.toNat + 1, 0)] } s t)) ∧
    (s.ready [80 + p.toNat, 80 + p.toNat + 1] [80 + sd.toNat] → block →
      (∀ l, inSet s.me.run.act l = true → (s.me.lane l).region = none) → s.me.fences = [] →
      (∀ f ∈ shapeFields b ++ [((shapeOf b).space != 0, 8)], f.1 = false) →
        Gives (exec (.objdecl p sd) s) (fun t => BlockRead s v ∧
          { t with time := v.time, clusters := v.clusters, groups := v.groups, producers := v.producers, fresh := v.fresh } = v ∧
          Awaits s.fresh [sd.toNat] { kind := .objdecl, group := s.cur, sdests := [(sd.toNat, 0)], block := b } v t))

/-- R176, R183, R186, R320, R321. Outside regions and levels, with no rollback under way, LAUNCH reads its record and returns, by a result that its scalar register waits for, 3 where the record
breaks a rule, 2 where the grid is ten deep, and 0 where the child queue of its die and priority has room: then a child grid of one more depth, of the
record, is behind the others in that queue, among the team's children and its last, and ready where it waits for no predecessor. Past the queue's 32, with
room in the overflow ring, it is 0 too: the record stands in the next slot of the ring, at its address modulo its capacity, the tail goes on by one,
and the child waits there. Without room there, or where the ring cannot be written, the status is 1. With an active lane in a region it takes cause 0x50
with DETAIL 4, else in an open level cause 0x60 with DETAIL 6. That a child is a grid of the state from its LAUNCH on is the model's choice (log
entry 33). -/
def Obligations.LaunchWord : Prop :=
  (∀ (s : State) (p sd : BitVec 5), s.ready [80 + p.toNat, 80 + p.toNat + 1] [80 + sd.toNat] → s.myTeam.rollback = none →
    ((∃ l, inSet s.me.run.act l = true ∧ (s.me.lane l).region.isSome = true) → exec (.launch p sd) s = .next (s.trapHere 0x50 4)) ∧
    ((∀ l, inSet s.me.run.act l = true → (s.me.lane l).region = none) → s.myTeam.levels ≠ [] → exec (.launch p sd) s = .next (s.trapHere 0x60 6))) ∧
  ∀ (s : State) (p sd : BitVec 5) (b : List (BitVec 8)),
    let va : Nat := (s.me.sPair p.toNat).toNat
    let r := parseRecord b
    let parent := s.gridOf s.me
    let die := if s.me.cluster < 80 then 0 else 1
    let queue := FMap.at [] (s.die die).childQueues r.prio
    let bad := (recordFault r (s.partClusters parent.part).length).isSome
    s.me.cluster < 160 → s.ready [80 + p.toNat, 80 + p.toNat + 1] [80 + sd.toNat] → s.blockIs va 128 128 b →
    (∀ l, inSet s.me.run.act l = true → (s.me.lane l).region = none) → s.myTeam.levels = [] → s.myTeam.rollback = none → s.me.fences = [] →
    let v := s.afterBlock va 128
    let result (n status : Nat) (w t : State) : Prop := BlockRead s v ∧
      Awaits n [sd.toNat] { kind := .launch, group := s.cur, sdests := [(sd.toNat, BitVec.ofNat 32 status)] } w t
    let plain (status : Nat) (w : State) : Prop := Gives (exec (.launch p sd) s) (fun t =>
      { t with time := w.time, clusters := w.clusters, groups := w.groups, producers := w.producers, fresh := w.fresh, grids := w.grids } = w ∧
      t.grids = s.settleReady.grids ∧ result s.fresh status w t)
    let ring := v.hostStyleWrite parent.part (parent.record.ring + 128 * (parent.ringTail % parent.record.ringCap)) b
    let queued (at_ : Option Nat) : Grid := { part := parent.part, depth := parent.depth + 1, parent := some s.me.team, pred := s.childPred s.me.team r,
                                                record := r, die := die, order := s.fresh, qorder := at_ }
    let family (t : State) : Prop := ∀ k, t.team k =
      if k = s.me.team then { s.team k with children := (s.team k).children ++ [s.fresh], lastChild := some s.fresh } else s.team k
    (bad = true → plain 3 v) ∧ (bad = false → 10 ≤ parent.depth → plain 2 v) ∧
    (bad = false → parent.depth < 10 → 32 ≤ queue.length → parent.record.ringCap ≤ parent.ringIds.length → plain 1 v) ∧
    (bad = false → parent.depth < 10 → 32 ≤ queue.length → parent.ringIds.length < parent.record.ringCap →
      (ring.2 = false → plain 1 ring.1) ∧
      (ring.2 = true → s.fresh ≠ s.myTeam.grid → Gives (exec (.launch p sd) s) (fun t =>
        { t with time := v.time, clusters := ring.1.clusters, groups := v.groups, producers := v.producers, fresh := v.fresh, grids := v.grids,
                 teams := v.teams } = ring.1 ∧
        result (s.fresh + 1) 0 ring.1 t ∧ t.grid s.fresh = queued none ∧
        (∀ k, k ≠ s.fresh → { t.grid k with readyAt := (s.grid k).readyAt } = if k = s.myTeam.grid then
          { s.grid k with ringTail := parent.ringTail + 1, ringIds := parent.ringIds ++ [s.fresh] } else s.grid k) ∧ family t))) ∧
    (bad = false → parent.depth < 10 → queue.length < 32 → Gives (exec (.launch p sd) s) (fun t =>
      { t with time := v.time, clusters := v.clusters, groups := v.groups, producers := v.producers, fresh := v.fresh, grids := v.grids, dies := v.dies, teams := v.teams } = v ∧
      result (s.fresh + 1) 0 v t ∧ { t.grid s.fresh with readyAt := none } = queued (some s.fresh) ∧
      (s.childPred s.me.team r = none → (t.grid s.fresh).readyAt = some s.tick) ∧
      (∀ k, k ≠ s.fresh → { t.grid k with readyAt := (s.grid k).readyAt } = s.grid k) ∧
      family t ∧
      (∀ k, k ≠ die → t.die k = v.die k) ∧ t.die die = { v.die die with childQueues := FMap.put (s.die die).childQueues r.prio (queue ++ [s.fresh]) }))

/-! ### Event counters, barriers, grids -/

/-- R174. EVINC and EVDEC add to and take from an event counter and change nothing else; a counter that would reach 0xFFFF or go below 0 takes cause 0x80
with its number, unchanged. R178, R183. Outside regions TBAR adds the active lanes to the arrivals of its barrier, parks them at *next* with REASON 2 and
ends the run; TARRIVE adds them and goes on. What the arrival completes follows. R179, R186. In a co-resident grid, outside regions and levels, GBAR
adds the active lanes to the arrivals of the grid's barrier, parks them at *next* with REASON 2 and ends the run; in another grid it takes cause 0x70.
What the arrival completes follows. With an active lane in a region each of the three takes cause 0x50 with DETAIL 4, and in an open level GBAR takes
cause 0x60 with DETAIL 6. Which accesses a barrier phase waits for is the model's reading (log entry 39). -/
def Obligations.EventCounterAndBarrierWords : Prop :=
  (∀ (s : State) (b : BitVec 2),
      ((∃ l, inSet s.me.run.act l = true ∧ (s.me.lane l).region.isSome = true) →
        exec (.tbar b) s = .next (s.trapHere 0x50 4) ∧ exec (.tarrive b) s = .next (s.trapHere 0x50 4) ∧ exec .gbar s = .next (s.trapHere 0x50 4)) ∧
      ((∀ l, inSet s.me.run.act l = true → (s.me.lane l).region = none) → s.myTeam.levels ≠ [] → exec .gbar s = .next (s.trapHere 0x60 6))) ∧
  (∀ (s : State) (ec : BitVec 3) (n : BitVec 8),
      let v := s.me.counter ec.toNat
      let sets (i : Instr) (w : Nat) : Prop := Gives (exec i s) (fun t => t.teams = s.teams ∧
        Moved { s.me with ec := FMap.put s.me.ec ec.toNat (BitVec.ofNat 16 w), run := s.me.run.after 1 } s.sameLanes s t)
      (v + n.toNat < 0xFFFF → sets (.evinc ec n) (v + n.toNat)) ∧ (0xFFFF ≤ v + n.toNat → exec (.evinc ec n) s = .next (s.trapHere 0x80 ec.toNat)) ∧
      (n.toNat ≤ v → sets (.evdec ec n) (v - n.toNat)) ∧ (v < n.toNat → exec (.evdec ec n) s = .next (s.trapHere 0x80 ec.toNat))) ∧
  ((∀ (s : State) (b : BitVec 2), (∀ l, inSet s.me.run.act l = true → (s.me.lane l).region = none) →
        let key := b.toNat * 16 + s.me.gid
        let arrives (i : Instr) (ends : Bool) (lane : Nat → Lane) : Prop := Gives (exec i s) (fun t => ∃ u : State, t = u.settleBarriers s.me.team ∧
          Moved (if ends then s.afterMove true else { s.me with run := s.me.run.after 1 }) lane s u ∧
          (∀ k, k ≠ s.me.team → u.team k = s.team k) ∧
          { u.team s.me.team with arrivals := s.myTeam.arrivals, arrUpto := s.myTeam.arrUpto } = s.myTeam ∧
          FMap.at 0 (u.team s.me.team).arrivals key = FMap.at 0 s.myTeam.arrivals key ||| s.me.run.act ∧
          (∀ j, j ≠ key → FMap.at 0 (u.team s.me.team).arrivals j = FMap.at 0 s.myTeam.arrivals j))
        arrives (.tbar b) true (fun l =>
          if inSet s.me.run.act l then { s.me.lane l with vpc := s.nextHdr, cond := .parked .convergence, place := .barrier b.toNat } else s.me.lane l) ∧
        arrives (.tarrive b) false s.sameLanes) ∧
    (∀ (s : State), (∀ l, inSet s.me.run.act l = true → (s.me.lane l).region = none) → s.myTeam.levels = [] →
        ((s.gridOf s.me).record.flags.getLsbD 7 = true → Gives (exec .gbar s) (fun t => ∃ u : State, t = u.settleGrid s.myTeam.grid ∧
          { u with time := s.time, clusters := s.clusters, teams := s.teams, groups := s.groups, grids := s.grids, fresh := s.fresh } = s ∧ OwnSlice s u ∧
          (∀ k, u.grid k = if k = s.myTeam.grid then { s.grid k with gbarTick := s.tick, gbarCl := s.me.cluster } else s.grid k) ∧
          { u.me with lanes := s.me.lanes } = s.afterMove true ∧
          (∀ l, l < 64 → u.me.lane l =
            if inSet s.me.run.act l then { s.me.lane l with vpc := s.nextHdr, cond := .parked .convergence, place := .gridBarrier } else s.me.lane l) ∧
          (∀ k, k ≠ s.me.team → u.team k = s.team k) ∧
          FMap.at 0 (u.team s.me.team).gridArr s.me.gid = FMap.at 0 s.myTeam.gridArr s.me.gid ||| s.me.run.act)) ∧
        ((s.gridOf s.me).record.flags.getLsbD 7 = false → exec .gbar s = .next (s.trapHere 0x70 0))))

/-- R178. When every live or parked lane of a team has arrived at a barrier, no access is pending and the grid is not recorded, the lanes parked there
become live, the arrivals empty and the phase number is one more; with a lane still to come nothing changes. Which accesses a phase waits for is the
model's reading (log entry 39). -/
def Obligations.BarrierCompletes : Prop :=
  ∀ (s : State) (t b : Nat),
    let tm := s.team t
    let arr (k : Nat) : LaneSet := FMap.at 0 tm.arrivals (b * 16 + (s.group k).gid)
    ((∀ k ∈ tm.groups, ∀ l, ((s.group k).lane l).counts = true → inSet (arr k) l = true) → (∃ k ∈ tm.groups, arr k ≠ 0) → s.accesses = [] →
      (s.grid tm.grid).record.flags.toNat / 2 ^ 8 % 4 = 0 →
      let u := s.settleBarrier t b
      (∀ k ∈ tm.groups, ∀ l, l < 64 → (u.group k).lane l =
        if ((s.group k).lane l).isParked ∧ ((s.group k).lane l).place = .barrier b then { (s.group k).lane l with cond := .live, place := .none }
        else (s.group k).lane l) ∧
      (∀ k ∈ tm.groups, FMap.at 0 (u.team t).arrivals (b * 16 + (s.group k).gid) = 0) ∧
      FMap.at 0 (u.team t).phases b = FMap.at 0 tm.phases b + 1 ∧ (u.team t).wdcount = 0 ∧ u.mem = s.mem) ∧
    ((∃ k ∈ tm.groups, ∃ l, l < 64 ∧ ((s.group k).lane l).counts = true ∧ inSet (arr k) l = false) → s.settleBarrier t b = s)

/-! ### Regions -/

/-- R180, R272, R273. With every active lane live, in no region and with no slot kept for it, none waiting before it on its die and at least 64 slots
free, RBEGIN opens a region for each: the lane holds a slot that was free, which keeps its registers, full/empty bits, predicates and flags and the
clause it restarts at. With an active lane in a region already it takes cause 0x50 with DETAIL 0. R181. With every active lane in a region, REND ends
the run: the lanes whose regions are not to abort park with REASON 4 and their regions are ending; with an active lane in no region it takes cause
0x50 with DETAIL 2. R182. RSTAT leaves one of the eight counts of its group in its scalar register and changes nothing else. That REND ends the run is
the model's reading (log entry 22). -/
def Obligations.RegionWords : Prop :=
  (∀ (s : State),
      let die := if s.me.cluster < 80 then 0 else 1
      ((∀ l, inSet s.me.run.act l = true → (s.me.lane l).cond = .live ∧ (s.me.lane l).region = none ∧ (s.me.lane l).reserved = none) → s.me.run.act ≠ 0 →
        s.me.cluster < 160 → (s.die die).waiters = [] → 64 ≤ ((List.range 4096).filter (fun n => (s.slot (die * 4096 + n)).phase == 0)).length →
        Gives (exec .rbegin s) (fun t =>
          { t with time := s.time, clusters := s.clusters, groups := s.groups, dies := s.dies, fresh := s.fresh } = s ∧ OwnSlice s t ∧
          { t.me with lanes := s.me.lanes } = { s.me with run := s.me.run.after 1 } ∧
          (∀ l, l < 64 → inSet s.me.run.act l = false → t.me.lane l = s.me.lane l) ∧
          (∀ l, inSet s.me.run.act l = true → ∃ n, n < 4096 ∧ (s.slot (die * 4096 + n)).phase = 0 ∧
            t.me.lane l = { s.me.lane l with region := some (die * 4096 + n), aborting := false } ∧
            (let sl := t.slot (die * 4096 + n)
             sl.phase = 1 ∧ sl.group = s.cur ∧ sl.lane = l ∧ sl.restart = s.me.run.hdr ∧ sl.preds = [] ∧ sl.reads = [] ∧ sl.writes = [] ∧ sl.bytes = [] ∧
             sl.level = s.myTeam.levels.length ∧ sl.check =
               { regs := (s.me.lane l).regs, empty := (s.me.lane l).empty, preds := (s.me.lane l).preds, fpflags := (s.me.lane l).fpflags })))) ∧
      ((∃ l, inSet s.me.run.act l = true ∧ (s.me.lane l).region.isSome = true) → exec .rbegin s = .next (s.trapHere 0x50 0))) ∧
  (∀ (s : State),
      ((∀ l, inSet s.me.run.act l = true → (s.me.lane l).region.isSome = true) → Gives (exec .rend s) (fun t =>
        { t with time := s.time, clusters := s.clusters, groups := s.groups, dies := s.dies } = s ∧ OwnSlice s t ∧
        { t.me with lanes := s.me.lanes } = { s.me with run := { s.me.run.after 1 with ends := true } } ∧
        (∀ l, l < 64 → t.me.lane l =
          if inSet s.me.run.act l = true ∧ (s.me.lane l).aborting = false then { s.me.lane l with cond := .parked .regionWait, place := .regionEnd } else s.me.lane l) ∧
        (∀ id, t.slot id = if (List.range 64).any (fun l => inSet s.me.run.act l && !(s.me.lane l).aborting && (s.me.lane l).region == some id)
          then { s.slot id with phase := 2 } else s.slot id))) ∧
      ((∃ l, inSet s.me.run.act l = true ∧ (s.me.lane l).region = none) → exec .rend s = .next (s.trapHere 0x50 2))) ∧
  (∀ (s : State) (sd : BitVec 5) (sel : BitVec 3), s.ready [] [80 + sd.toNat] →
      Gives (exec (.rstat sd sel) s) (WroteS 1 sd.toNat (FMap.at 0 s.me.rstat sel.toNat) s))

/-! ### Recovery -/

/-- R184. Outside regions and, but for ENSURE, in an open level, the active lanes that issue ENSURE, ELSEBY, ELSEERR or ACCEPT arrive at it: they park at
its clause with REASON 2, are entered in the team's arrivals at that word, and the run ends; what the arrival completes follows, for ACCEPT with the
ticks since the word's step began counted against the limits of the levels (R301). R184, R301. Outside
regions, in an open level whose team is in no conversation's level and rolls back nothing, REJECT ends the run and begins the rollback of the
innermost level with reason 0x67. How such a word ends its run, and what it waits for, is the model's reading (log entries 22 and 27). -/
def Obligations.RecoveryWords : Prop :=
  (∀ (s : State) (p : BitVec 5) (code : BitVec 15), (∀ l, inSet s.me.run.act l = true → (s.me.lane l).region = none) →
      let r := s.me.run
      let old := s.myTeam.recArrivals
      let op : Nat := r.classOp % 64
      let here (a : RecArrival) : Bool := a.hdr == r.hdr && a.word == r.idx && a.op == op
      let arrives (i : Instr) (addr : DWord) (code : Nat) (pass : Bool) (passed : State → Nat := fun _ => 0) : Prop :=
        Gives (exec i s) (fun t => ∃ u : State, t = u.settleRecovery s.me.team (passed u) ∧
        Moved { s.me with run := { r.after 1 with stopped := true } } (fun l =>
          if inSet r.act l then { s.me.lane l with cond := .parked .convergence, place := .recovery op } else s.me.lane l) s u ∧
        (∀ k, k ≠ s.me.team → u.team k = s.team k) ∧
        u.team s.me.team = { s.myTeam with recArrivals := old.filter (fun a => !here a) ++ [match old.find? here with
          | some a => { a with lanes := FMap.put a.lanes s.me.gid (FMap.at 0 a.lanes s.me.gid ||| r.act), pass := a.pass && pass }
          | none => { op := op, addr := addr, code := code, hdr := r.hdr, word := r.idx, lanes := [(s.me.gid, r.act)], pass := pass }] })
      (s.ready [80 + p.toNat, 80 + p.toNat + 1] [] →
        (s.myTeam.levels.length < 6 → arrives (.ensure p) (s.me.sPair p.toNat) 0 true) ∧
        (6 ≤ s.myTeam.levels.length → exec (.ensure p) s = .next (s.trapHere 0x60 0))) ∧
      (s.myTeam.levels ≠ [] → arrives .elseby 0 0 true ∧ arrives (.elseerr code) 0 code.toNat true ∧
        arrives (.accept p) 0 0 ((List.range 64).all (fun l => !inSet r.act l || (s.me.lane l).pred p.toNat)) (fun u => u.tick - r.began)) ∧
      (s.myTeam.levels = [] → exec .elseby s = .next (s.trapHere 0x60 1) ∧ exec (.elseerr code) s = .next (s.trapHere 0x60 1) ∧
        exec (.accept p) s = .next (s.trapHere 0x60 1) ∧ exec .reject s = .next (s.trapHere 0x60 1))) ∧
  (∀ (s : State) (below : List Level) (lv : Level), (∀ l, inSet s.me.run.act l = true → (s.me.lane l).region = none) →
      s.myTeam.levels = below ++ [lv] → lv.conv = 0 → s.myTeam.rollback = none →
      Gives (exec .reject s) (fun t => Moved { s.me with run := { s.me.run.after 1 with stopped := true } } s.sameLanes s t ∧
        (∀ k, t.team k = if k = s.me.team then { s.team k with
          rollback := some { level := below.length + 1, last := 0x67 }, recArrivals := [], levels := below ++ [{ lv with phase := 3, fdetail := 0 }] } else s.team k)))

/-- R184, R294, R299. A level that opens takes its routines, test and continuation from its descriptor, becomes the team's innermost, and sends every live
or parked lane to the primary; a level that passes its test goes, with what it logged merged into the level below, but for lines that the next level of
another party of its conversation has logged before, and sends them to its continuation.
Other teams stay. -/
def Obligations.LevelsOpenAndPass : Prop :=
  ∀ (s : State) (t : Nat), (s.team t).groups.Nodup →
    let sent (u : State) (a : Word) : Prop := ∀ k ∈ (s.team t).groups, ∀ l, l < 64 → (u.group k).lane l =
      if ((s.group k).lane l).counts then { (s.group k).lane l with cond := .live, place := .none, vpc := a } else (s.group k).lane l
    (∀ (a : RecArrival) (d : RecDesc) (key : Nat),
      let u := s.openLevel t a d key
      sent u d.primary ∧ (∀ k, k ≠ t → u.team k = s.team k) ∧ u.mem = s.mem ∧ (u.team t).recArrivals = [] ∧
      ∃ lv : Level, (u.team t).levels = (s.team t).levels ++ [lv] ∧ lv.test = d.test ∧ lv.cont = d.cont ∧ lv.primary = d.primary ∧ lv.alts = d.alts ∧ lv.nalt = d.nalt ∧
        lv.ticks = d.ticks ∧ lv.noreg = d.noreg ∧ lv.conv = key ∧ lv.ensure = a.hdr ∧ lv.phase = 1 ∧ lv.lanes = [] ∧ lv.scratch = [] ∧ lv.lines = []) ∧
    (∀ (below : List Level) (lv : Level), (s.team t).levels = below ++ [lv] → (s.grid (s.team t).grid).record.flags.toNat / 2 ^ 8 % 4 = 0 →
      let u := s.passLevel t
      sent u lv.cont ∧ (∀ k, k ≠ t → u.team k = s.team k) ∧ u.mem = s.mem ∧ (u.team t).recArrivals = [] ∧ (u.team t).wdcount = 0 ∧
      (u.team t).levels.length = below.length ∧
      (∀ low, below.getLast? = some low → ∃ low', (u.team t).levels = below.dropLast ++ [low'] ∧
        ∀ ln, let older : Prop := ∃ m ∈ s.parties t, m ≠ t ∧ ∃ x, (s.team m).levels[below.length - 1]? = some x ∧ FMap.has x.lines ln = true
          (FMap.look low.lines ln = none → older → FMap.look low'.lines ln = none) ∧
          (FMap.look low.lines ln = none → ¬ older → FMap.look low'.lines ln = FMap.look lv.lines ln) ∧
          ∀ x, FMap.look low.lines ln = some x → FMap.look low'.lines ln = some x))

/-- R185, R305. Outside regions CONVJOIN of a well-formed conversation object with room and no level open among its members enters the team as its last
member, taking a free entry of its partition's share for the first; a member's CONVJOIN changes nothing; CONVLEAVE takes the team out, and the entry with
its last member. The order of the checks, and what tells conversation objects apart, is the model's reading (log entries 49 and 73). -/
def Obligations.ConversationWords : Prop :=
  ∀ (s : State) (p : BitVec 5) (b : List (BitVec 8)) (sp : Space) (pa : Nat),
    let va : Nat := (s.me.sPair p.toNat).toNat
    let part := s.partOf s.me
    let v := s.afterBlock va 64
    let key := convKey part sp pa
    let members := match FMap.look s.convs key with | some c => c.members | none => []
    let teams := fieldAt b 0 4
    (∀ l, inSet s.me.run.act l = true → (s.me.lane l).region = none) → s.ready [80 + p.toNat, 80 + p.toNat + 1] [] →
    s.me.fences = [] → s.blockIs va 64 64 b → v.target s.me.cluster part .read va = .ok sp pa → 1 ≤ teams → teams ≤ 16 → (∀ x ∈ b.drop 4, x = 0) →
    let world (t : State) : Prop := BlockRead s v ∧
      { t with time := v.time, clusters := v.clusters, groups := v.groups, teams := v.teams, convs := v.convs } = v ∧ OwnSlice v t ∧
      t.me = { s.me with run := s.me.run.after 1 } ∧ (∀ k, k ≠ key → FMap.look t.convs k = FMap.look s.convs k)
    (s.me.team ∉ members → members.length < teams → s.myTeam.levels = [] → (∀ m ∈ members, (s.team m).levels = []) →
      (FMap.look s.convs key = none → (s.convs.filter (fun c => c.2.part == part)).length < (s.part part).partcfg.toNat / 2 ^ 31 % 2 ^ 10) →
      Gives (exec (.convjoin p) s) (fun t => world t ∧
        FMap.look t.convs key = some { part := part, teams := teams, members := members ++ [s.me.team] } ∧
        (∀ k, t.team k = if k = s.me.team then { s.team k with convs := (s.team k).convs ++ [key] } else s.team k))) ∧
    (s.me.team ∈ members → Gives (exec (.convjoin p) s) (fun t => world t ∧ t.convs = s.convs ∧ t.teams = s.teams)) ∧
    ((∀ lv ∈ s.myTeam.levels, lv.conv ≠ key) → (FMap.look s.convs key).isSome = true →
      Gives (exec (.convleave p) s) (fun t => world t ∧
        (FMap.look t.convs key).elim [] Conversation.members = members.filter (· != s.me.team) ∧
        ((∀ m ∈ members, m = s.me.team) → FMap.look t.convs key = none) ∧
        (∀ k, t.team k = if k = s.me.team then { s.team k with convs := (s.team k).convs.filter (· != key) } else s.team k)))

/-! ### Exceptions -/

/-- R101, R30. With a handler and none running, TRAP sends the active lanes to *next* and takes cause 0x0E there: DETAIL the low twelve bits of its code,
TRAPADDR the code, TRAPLANES the active set, TRAPPC the clause; the handler is pending and the run ends. R102, R23, R165. In a handler TRET marks the
registers that the handled fault left empty full again, but those with a producer in flight, ends the handler and its run, and resumes at the stopped
word where the issue address and the lanes there are still those of the trap; after a deferred fault its lanes that are still parked at TRAPPC become
live and resume at the faulting word. Outside a handler it takes cause 0x0F. That TRAP applies no loop rule is the model's reading (log entry 22). -/
def Obligations.TrapAndReturn : Prop :=
  (∀ (s : State) (code : BitVec 16), s.me.handler = false → (s.gridOf s.me).record.handler ≠ 0xFFFFFFFF →
      let g := s.afterMove s.me.run.ends
      Gives (exec (.trap code) s) (fun t => t.teams = s.teams ∧
        Moved { g with
          run := { g.run with stopped := true }, trapPending := true, trapAt := none, faultRegs := []
          trap := { cause := BitVec.ofNat 32 (0x0E + s.me.run.idx % 16 * 2 ^ 16 + code.toNat % 2 ^ 12 * 2 ^ 20), pc := s.me.run.hdr
                    addr := code.zeroExtend 64, lanes := s.me.run.act } } (s.sentTo (fun _ => s.nextHdr)) s t)) ∧
  (∀ (s : State),
      let g := s.me
      let full (l : Nat) : Lane := ((g.faultRegs.filter (fun p => !s.inFlight s.cur p.1 p.2)).filter (fun p => p.1 == l)).foldl
        (fun n p => { n with empty := n.empty &&& ~~~(1#72 <<< p.2) }) (g.lane l)
      let after (r : List ResumePt) : Group :=
        { s.afterMove true with handler := false, faultRegs := [], hwait := .ready, hidx := 0, hstart := true, trapAt := none, resumes := r }
      let gives (r : List ResumePt) (lane : Nat → Lane) : Prop := Gives (exec .tret s) (fun t => t.teams = s.teams ∧ Moved (after r) lane s t)
      let deferred : Bool := g.trap.cause.getLsbD 8
      let back (l : Nat) : Bool := inSet g.trap.lanes l && decide ((g.lane l).vpc = g.trap.pc ∧
        ((g.lane l).cond = .parked .deferred ∨ (g.lane l).cond = .parked .split))
      (g.run.handler = true →
        (deferred = false → g.trapAt = none → gives g.resumes full) ∧
        (∀ r, deferred = false → g.trapAt = some r → r.idx ≠ 0 → g.issueAddr = some r.hdr → g.lanesAt r.hdr = r.act → gives (r :: g.resumes) full) ∧
        (∀ r, deferred = false → g.trapAt = some r → (r.idx = 0 ∨ ∀ a, g.issueAddr = some a → ¬ (r.hdr = a ∧ g.lanesAt a = r.act)) → gives g.resumes full) ∧
        (deferred = true → (∃ l, l < 64 ∧ back l = true) →
          gives (resumeAt g.trap.pc (g.trap.cause.toNat / 2 ^ 16 % 16) (setOf back) .ready :: g.resumes)
            (fun l => if back l then { full l with cond := .live, place := .none } else full l)) ∧
        (deferred = true → (∀ l, l < 64 → back l = false) → gives g.resumes full)) ∧
      (g.run.handler = false → exec .tret s = .next (s.trapHere 0x0F g.run.classOp)))

/-- R15, R300, R336, R337, R340, R343, R345. Taking an exception whose cause is none of kind exit: with a handler and none running the trap registers are set and
the handler is pending; with no handler they are set and the group is contained with the cause, with one running it is contained with cause 0x19 and
they stay, every live or parked lane exited; in an open level a cause that R300 does not except is a fault of the level, which rolls back. R338, R339,
R164. At a run boundary the oldest of a group's faults whose pages are answered is taken: DEFERRED_TRAP_TAKEN completes, the fault leaves the list,
and the trap registers hold its cause with DEFER, bit 11 of DETAIL saying that the service made its pages present; the handler is pending. With no
handler such pages let the lanes go on, the trap registers set all the same, and any other fault contains the group. Which answers let lanes go on
without a trap is the model's reading (log entry 25). -/
def Obligations.TakingAnException : Prop :=
  (∀ (s : State) (k : Nat) (x : Trap) (resume : Option ResumePt),
      let g := s.group k
      let tm := s.team g.team
      let u := s.raise k x resume
      let excepted : Prop := x.code = 0x0E ∨ x.code = 0x31 ∨ x.code = 0x35 ∨ x.code = 0xA0 ∨ x.code = 0xA1 ∨ x.code = 0xA2
      let exit : Prop := x.code ∈ [0x19, 0x1A, 0x1B, 0x3B, 0x71, 0x93, 0x94, 0xA3, 0xA4, 0xB0, 0xB1, 0xB2]
      let regs : TrapRegs :=
        { cause := BitVec.ofNat 32 (x.code % 256 + (if x.defer then 2 ^ 8 else 0) + x.word % 16 * 2 ^ 16 + x.detail % 2 ^ 12 * 2 ^ 20)
          pc := x.hdr, addr := x.addr, lanes := x.lanes }
      let contained (code detail : Nat) (defer : Bool) (pc : Word) : Prop :=
        (u.group k).contained = some {
          cause := code, detail := detail, lanes := (lanesIn g.countSet).length, defer := defer, ord := g.safeord, pc := pc
          dump := code != 0xA3 && code != 0xA4 && decide (code < 0xB0) && (s.part (s.grid tm.grid).part).dumpEn } ∧
        (∀ l, l < 64 → ((u.group k).lane l).counts = false) ∧ (∀ l, l < 64 → (g.lane l).counts = true → ((u.group k).lane l).cond = .exited) ∧
        (u.group k).trapPending = g.trapPending ∧ (u.group k).handler = g.handler ∧ (u.group k).run.stopped = true ∧ u.mem = s.mem
      ¬ exit → ((tm.levels = [] ∨ excepted) → g.handler = false → (s.grid tm.grid).record.handler ≠ 0xFFFFFFFF →
        { u with groups := s.groups } = s ∧ s.othersSame u k ∧
        u.group k = { g with
          run := { g.run with stopped := true }, trapPending := true, trapAt := resume, faultRegs := [], trap := regs }) ∧
      (tm.levels = [] → s.openSlots = [] → g.contained = none →
        (g.handler = true → contained 0x19 x.code false g.trap.pc ∧ (u.group k).trap = g.trap) ∧
        (g.handler = false → (s.grid tm.grid).record.handler = 0xFFFFFFFF → contained x.code x.detail x.defer x.hdr ∧ (u.group k).trap = regs)) ∧
      (∀ below lv, tm.levels = below ++ [lv] → lv.conv = 0 → tm.rollback = none → (¬ excepted ∨ g.handler = true) →
        s.rollsBack u g.team x.code ∧ { u with teams := s.teams, groups := s.groups } = s ∧ s.othersSame u k ∧
        u.group k = { g with run := { g.run with stopped := true } })) ∧
  (∀ (s : State) (k : Nat) (d : Deferred),
      let g := s.group k
      g.resident = true → g.retired = false → g.contained = none → g.handler = false → g.trapPending = false → g.run.active = false → g.isHalted = false →
      (s.team g.team).rollback = none → ((s.team g.team).preempt = .no ∨ ∃ x, (s.team g.team).preempt = .drain x) → s.nextFault k = some d →
      d.code ∉ [0x19, 0x1A, 0x1B, 0x3B, 0x71, 0x93, 0x94, 0xA3, 0xA4, 0xB0, 0xB1, 0xB2] →
      let granted : Bool := (d.code == 0x31 || d.code == 0x35) && d.granted
      let detail := d.detail + (if granted then 2 ^ 11 else 0)
      let regs : TrapRegs :=
        { cause := BitVec.ofNat 32 (d.code % 256 + 2 ^ 8 + d.word % 16 * 2 ^ 16 + detail % 2 ^ 12 * 2 ^ 20), pc := d.hdr, addr := d.addr, lanes := d.lanes }
      ((s.gridOf g).record.handler ≠ 0xFFFFFFFF → (s.team g.team).levels = [] → Settles (exec (.deferredTrapTaken k) s) (fun u =>
        { u with groups := s.groups } = s ∧ s.othersSame u k ∧
        u.group k = { g with
          deferred := g.deferred.erase d, run := { g.run with stopped := true }, trapPending := true, trapAt := none, faultRegs := d.regs, trap := regs })) ∧
      ((s.gridOf g).record.handler = 0xFFFFFFFF → granted = false → (s.team g.team).levels = [] → s.openSlots = [] →
        Settles (exec (.deferredTrapTaken k) s) (fun u => (u.group k).trap = regs ∧ (u.group k).contained = some {
          cause := d.code, detail := d.detail, lanes := (lanesIn g.countSet).length, defer := true, ord := g.safeord, pc := d.hdr
          dump := d.code != 0xA3 && d.code != 0xA4 && decide (d.code < 0xB0) && (s.part (s.grid (s.team g.team).grid).part).dumpEn } ∧
          ∀ l, l < 64 → ((u.group k).lane l).counts = false)) ∧
      ((s.gridOf g).record.handler = 0xFFFFFFFF → granted = true → d.regs = [] →
        let back (l : Nat) : Bool := inSet d.lanes l && decide ((g.lane l).vpc = d.hdr ∧ ((g.lane l).cond = .parked .deferred ∨ (g.lane l).cond = .parked .split))
        (∃ l, l < 64 ∧ back l = true) → Settles (exec (.deferredTrapTaken k) s) (fun u =>
        { u with groups := s.groups } = s ∧ s.othersSame u k ∧
        { u.group k with lanes := g.lanes } = { g with
            deferred := g.deferred.erase d, resumes := resumeAt d.hdr d.word (setOf back) .ready :: g.resumes, trap := regs } ∧
        ∀ l, l < 64 → (u.group k).lane l = if back l then { g.lane l with cond := .live, place := .none } else g.lane l)))

/-- R196, R16, R341, R342, R128, R194, R195. RUN_START completes in every state. A busy slice stays, and so does one with no group to run. A free slice gives
itself to the group that R196 names, under the settings that the controller asked for: one with a trap pending starts its handler at HANDLER, one in
its handler goes on there, both in the name of the reference lane; with no loop open and fewer than 64 runs counted one with a resume point whose wait
is over goes on at that word with its lanes; one with a ready gathering goes on at that word with the lanes that had arrived; else it starts at the
lowest program counter of its live lanes, with the lanes there. What the last run has written stays due for this one (R106). The lane in whose name a handler runs where TRAPLANES is empty is the model's reading
(log entry 38). -/
def Obligations.RunStart : Prop :=
  ∀ (s : State) (cl sl : Nat),
    (s.sliceBusy cl sl = true → exec (.runStart cl sl) s = .next s) ∧
    (s.nextGroup cl sl = none → exec (.runStart cl sl) s = .next s) ∧
    (∀ k, s.sliceBusy cl sl = false → s.nextGroup cl sl = some k →
      let g := s.group k
      let x := (s.cluster g.cluster).slice g.slice
      let settled : Slice := { x.catchUp s.time with passDiv := x.passDivNext, ratio := x.ratioNext }
      let starts (h : Group) : Prop := Gives (exec (.runStart cl sl) s) (fun t => t.cur = k ∧ t.group k = h ∧ s.othersSame t k ∧
        { t with clusters := s.clusters, groups := s.groups, cur := s.cur } = s ∧ (∀ c, c ≠ g.cluster → t.cluster c = s.cluster c) ∧
        { t.cluster g.cluster with slices := (s.cluster g.cluster).slices } = s.cluster g.cluster ∧
        ∀ i, (t.cluster g.cluster).slice i = if i = g.slice then settled else (s.cluster g.cluster).slice i)
      let run (hdr : Word) (idx : Nat) (act : LaneSet) (start : Bool) (rot : Option Word) (handler : Bool) : Run :=
        { active := true, first := true, hdr := hdr, idx := idx, act := act, start := start, rot := rot, handler := handler
          passDiv := x.passDivNext, ratio := x.ratioNext, ready := g.run.ready }
      let refers (r : Nat) : Prop := r < 64 ∧ if g.trap.lanes = 0 then (g.lane r).counts = true ∧ ∀ l, l < r → (g.lane l).counts = false
        else inSet g.trap.lanes r = true ∧ ∀ l, l < r → inSet g.trap.lanes l = false
      (∀ r, refers r → (g.trapPending = true →
        starts { g with handler := true, trapPending := false, hpc := (s.gridOf g).record.handler, hidx := 0, hstart := true, hwait := .ready
                        run := run (s.gridOf g).record.handler 0 (1#64 <<< r) true none true }) ∧
        (g.trapPending = false → g.handler = true →
          starts { g with hwait := .ready, run := run g.hpc g.hidx (1#64 <<< r) g.hstart none true })) ∧
      (g.trapPending = false → g.handler = false → g.loops = [] → g.issue = .ready →
        (∀ l, l < 64 → (g.lane l).cond = .live → (g.lane l).aborting = false) →
        (∀ r, g.gatherings = [] → g.pageHeld = false → g.runCount < 64 → g.resumes.find? (fun r => s.waitOver k r.wait) = some r →
          let act := Sys2Proof.Machine.setOf (fun l => inSet r.act l && (g.lane l).isLive && (g.lane l).vpc == r.hdr)
          act ≠ 0 → starts { g with resumes := g.resumes.erase r, run := run r.hdr r.idx act r.start (if r.start then r.rot else none) false }) ∧
        (∀ w, g.resumes = [] → (∀ v ∈ g.gatherings, v.arrived ≠ 0) → g.readyGathering = some w →
          starts { g.wake w.arrived with run := run w.hdr w.word w.arrived false none false }) ∧
        (∀ a, g.resumes = [] → g.gatherings = [] → g.runCount < 64 → g.issueAddr = some a →
          starts { g with run := run a 0 (g.lanesAt a) true none false })))

/-! ### Events of accesses, units and translation -/

/-- R19, R144, R145, R146, R152, R155, R214. An access of one piece that may be performed ends: a load fills its registers with the bytes found, which after an
acquire at die scope or wider are those at the performing point; a store writes its bytes; an atomic writes what the table of R155 gives for the old
bytes and fills its registers with them, a failed compare writing nothing. Other bytes, registers and groups stay, and of the caches all that no lane
can tell. An event of an access that is not of its kind changes nothing (the model's choice, log entry 21); the sets of the caches are those of log
entry 12, and what poison does to a register and to the counts is the model's reading (log entry 41). -/
def Obligations.AccessesEnd : Prop :=
  (∀ (s : State) (n : Nat) (a : Access) (p : Part), s.Performs n a p →
    let lanes (u : State) (f : Lane → Lane) : Prop := ∀ k l, l < 64 → (u.group k).lane l = if k = a.group ∧ l = p.lane then f ((s.group k).lane l) else (s.group k).lane l
    let cached (u : State) : Prop := u.accesses = FMap.del s.accesses n ∧ ∀ c, { u.cluster c with
      l1 := (s.cluster c).l1, stale := (s.cluster c).stale, dirty := (s.cluster c).dirty, l1Hits := (s.cluster c).l1Hits, l1Misses := (s.cluster c).l1Misses } = s.cluster c
    let wrote (u : State) : Prop := u.accesses = FMap.del s.accesses n ∧ ∀ c, { u.cluster c with
      l1 := (s.cluster c).l1, stale := (s.cluster c).stale, dirty := (s.cluster c).dirty, l1Hits := (s.cluster c).l1Hits, l1Misses := (s.cluster c).l1Misses, scratch := (s.cluster c).scratch
      scrPoison := (s.cluster c).scrPoison, scrErr := (s.cluster c).scrErr } = s.cluster c
    let loaded (u : State) : Prop := { u with clusters := s.clusters, llc := s.llc, module := s.module, groups := s.groups, accesses := s.accesses } = s ∧
      cached u ∧ { u.module with flits := s.module.flits } = s.module
    let found := if acquires a.order && decide (2 ≤ a.scope) then (s.dropCopies a.cluster).spaceBytes a p else s.spaceBytes a p
    (a.kind = .load → (p.space = .global → p.addr % 128 + p.len ≤ 128) →
      (∀ d, a.dest = some d → d < 72 → Settles (exec (.loadResult { num := n }) s) (fun u =>
        loaded u ∧ s.onlyLanes u ∧ lanes u (a.filled d found))) ∧
      (∀ d, a.dest = some d → 80 ≤ d → d + a.nregs ≤ 112 → Settles (exec (.loadResult { num := n }) s) (fun u =>
        loaded u ∧ s.othersSame u a.group ∧
        (u.group a.group).lanes = (s.group a.group).lanes ∧
        ∀ r, r < 32 → (u.group a.group).s r = (if d ≤ 80 + r ∧ 80 + r < d + a.nregs then a.regValue found (80 + r - d) else (s.group a.group).s r) ∧
          (u.group a.group).sIsEmpty r = ((s.group a.group).sIsEmpty r && !decide (d ≤ 80 + r ∧ 80 + r < d + a.nregs))))) ∧
    (a.kind = .store → a.dest = none → Settles (exec (.storePerformed { num := n }) s) (fun u =>
      { u with clusters := s.clusters, llc := s.llc, dies := s.dies, mem := s.mem, poison := s.poison, hostMem := s.hostMem, remote := s.remote
               parts := s.parts, module := s.module, unsettled := s.unsettled, accesses := s.accesses } = s ∧
      wrote u ∧ { u.module with flits := s.module.flits } = s.module ∧ s.Stored u a p (some p.data) ∧
      (p.space = .global → u.poison = clearPoison s.poison p.addr p.data.length) ∧
      ∀ x, (x < p.addr ∨ p.addr + p.data.length ≤ x) → Mem.read u.mem x = Mem.read s.mem x)) ∧
    (∀ op, a.kind = .atomic op → p.space ≠ .host →
      let old := if p.space = .global then Mem.readBytes s.mem p.addr p.len else s.spaceBytes a p
      let r := atomBytes op old p.data
      let changed (f : Lane → Lane) : Prop := Settles (exec (.atomicCompletion { num := n }) s) (fun u =>
        { u with clusters := s.clusters, llc := s.llc, dies := s.dies, mem := s.mem, poison := s.poison, remote := s.remote
                 module := s.module, unsettled := s.unsettled, groups := s.groups, accesses := s.accesses } = s ∧
        wrote u ∧ { u.module with flits := s.module.flits } = s.module ∧ s.onlyLanes u ∧ s.Stored u a p r.1 ∧ lanes u f ∧
        ∀ x, (x < p.addr ∨ p.addr + p.len ≤ x) → Mem.read u.mem x = Mem.read s.mem x)
      (a.dest = none → changed (·.orFlags r.2)) ∧ (∀ d, a.dest = some d → d < 72 → changed (fun m => a.filled d old (m.orFlags r.2))))) ∧
  (∀ (s : State) (n : Nat) (a : Access), FMap.look s.accesses n = some a → ∀ (lane : Option Nat) (near : Bool),
    (a.kind ≠ .load → exec (.loadResult ⟨n, lane⟩) s = .next s) ∧ (a.kind ≠ .store → exec (.storePerformed ⟨n, lane, near⟩) s = .next s) ∧
    ((∀ op, a.kind ≠ .atomic op) → exec (.atomicCompletion ⟨n, lane⟩) s = .next s)) ∧
  (∀ (s : State) (n : Nat) (a : Access) (p : Part), FMap.look s.accesses n = some a → a.kind = .store → a.parts = [p] → p.done = false →
    s.mayEnter n a p = true → Settles (exec (.storePerformed { num := n, near := true }) s) (fun u => u =
      { s with fresh := s.fresh + 1, accesses := FMap.put s.accesses n { a with parts := [{ p with entered := some s.fresh }] } })) ∧
  (∀ m d x : Nat,
    let w (v : Nat) : Word := BitVec.ofNat 32 v
    let sum (f : FFmt) (y z : Nat) : Rounded := f.finish .rne 0 ((f.value y).add .rne (f.value z))
    let plain (op v : Nat) : Prop := atomNew op m d x = (some v, 0)
    plain 0x16 ((m + d) % 2 ^ 32) ∧ plain 0x23 ((m + d) % 2 ^ 32) ∧
    atomNew 0x17 m d x = (some (sum f32 m d).bits, (sum f32 m d).flags) ∧ atomNew 0x24 m d x = (some (sum f32 m d).bits, (sum f32 m d).flags) ∧
    atomNew 0x18 m d x = (let lo := sum bf16 (m % 2 ^ 16) (d % 2 ^ 16)
      let hi := sum bf16 (m / 2 ^ 16) (d / 2 ^ 16)
      (some (hi.bits * 2 ^ 16 + lo.bits), lo.flags ||| hi.flags)) ∧
    (∀ op ∈ [0x19, 0x25], plain op (if (w m).toInt ≤ (w d).toInt then (w m).toNat else (w d).toNat)) ∧
    (∀ op ∈ [0x1A, 0x26], plain op (if (w m).toInt ≤ (w d).toInt then (w d).toNat else (w m).toNat)) ∧
    plain 0x1B (min (w m).toNat (w d).toNat) ∧ plain 0x1C (max (w m).toNat (w d).toNat) ∧
    plain 0x1D ((w m) &&& (w d)).toNat ∧ plain 0x1E ((w m) ||| (w d)).toNat ∧ plain 0x1F ((w m) ^^^ (w d)).toNat ∧
    (∀ op ∈ [0x20, 0x27], plain op d) ∧
    (∀ op ∈ [0x21, 0x22, 0x28], atomNew op m d x = (if m = d then some x else none, 0)))

/-- R169, R170, R172, R173, R215, R226, R241, R255. A command that nothing holds back starts: it owns the lines it will write, as they translate now, which
stand in no L1 from then on; the tokens it needs pass to its cluster together, its scratchpad lines lose their presence, the translations of its destinations
are cached, a broken one counted, the packets of a collective are counted as sent, and no other command changes.
One that may complete, with no status word and no fault, has its unit's effect, leaves its unit, brings its lines back, frees the packets of its collective
and lowers its event counter by one; ACCZERO clears its rectangle, OBJFREE removes its object, TOKREL gives its token back, ACTLOAD fills the inactive
activation bank and makes it current; one whose table was poisoned or whose list could not be read only faults. The order of completion, the recorded
fault of a level and the wait for a read object's token are the model's readings (log entries 30, 31 and 47), and so is when packets are counted (log entry 15). -/
def Obligations.CommandsStartAndComplete : Prop :=
  (∀ (s : State) (n : Nat) (c : Command), FMap.look s.commands n = some c → s.canStart n c = true → c.listLoc = [] →
    let lines := s.destLines c
    let sent := if c.op = 0x08 ∧ s.membersDown c = false then (collBlk c.block).sends (commOf c.src) else 0
    let broken := (c.destPages.filter (fun pg => s.tableError c.cluster c.part (pg * 2 ^ 16))).length
    Gives (exec (.engineCommandStart n) s) (fun t =>
      { t with commands := s.commands, clusters := s.clusters, llc := s.llc, objects := s.objects, dies := s.dies, parts := s.parts, module := s.module, fresh := s.fresh } = s ∧
      t.fresh = s.fresh + 1 ∧ (∀ d, { t.die d with tlb := (s.die d).tlb } = s.die d) ∧
      (∀ p, { t.part p with errcnt := (s.part p).errcnt, sent := (s.part p).sent } = s.part p ∧
        (t.part p).sent = (s.part p).sent + BitVec.ofNat 64 (if p = c.part then sent else 0) ∧
        ∀ k, k ≠ 2 ∨ p ≠ c.part ∨ broken = 0 → FMap.at 0 (t.part p).errcnt k = FMap.at 0 (s.part p).errcnt k) ∧
      (broken ≠ 0 → FMap.at 0 (t.part c.part).errcnt 2 = min (2 ^ 32 - 1) (FMap.at 0 (s.part c.part).errcnt 2 + broken)) ∧
      { t.module with flits := s.module.flits } = s.module ∧ (∀ p, FMap.at 0 t.module.flits p = FMap.at 0 s.module.flits p + if p = c.part then sent else 0) ∧
      (∀ k, FMap.look t.commands k = if k = n then some { c with
          started := true, owned := lines.1, cleared := lines.2, xlat := s.destXlat c, startTick := s.tick, begun := s.fresh
          bank := if c.eng = 0 then (s.cluster c.cluster).book0 else (s.cluster c.cluster).book1 } else FMap.look s.commands k) ∧
      (∀ k, FMap.look t.objects k = if k ∈ s.tokensMissing c lines.1 then (FMap.look s.objects k).map (fun o =>
          { o with holder := some c.cluster, requests := o.requests.drop 1, brought := s.bringer c.cluster o }) else FMap.look s.objects k) ∧
      (∀ k, { t.cluster k with
          l1 := (s.cluster k).l1, stale := (s.cluster k).stale, dirty := (s.cluster k).dirty, l1Hits := (s.cluster k).l1Hits, l1Misses := (s.cluster k).l1Misses
          absent := (s.cluster k).absent, tlb := (s.cluster k).tlb } = s.cluster k) ∧
      (∀ k, ∀ ln ∈ lines.1, (t.cluster k).hasLine ln = false) ∧ (∀ k, k ≠ c.cluster → (t.cluster k).absent = (s.cluster k).absent) ∧
      (∀ ln, FMap.has (t.cluster c.cluster).absent ln = (FMap.has (s.cluster c.cluster).absent ln || lines.2.contains ln)))) ∧
  (∀ (s : State) (n : Nat) (c : Command), FMap.look s.commands n = some c → s.canComplete n c = true → c.op ≠ 0x19 → c.status = 0 →
    let g := c.perform (s.noteReads c)
    g.fault = none → (g.s.group c.group).counter c.ec ≠ 0 → Settles (exec (.engineCommandCompletion n) s) (fun u =>
      { u with commands := g.s.commands, clusters := g.s.clusters, groups := g.s.groups, teams := g.s.teams, fabric := g.s.fabric, poison := g.s.poison } = g.s ∧
      u.commands = FMap.del g.s.commands n ∧ g.s.othersSame u c.group ∧ u.poison = (g.s.clearCovered c).poison ∧
      u.fabric = (if c.op = 0x08 then g.s.fabric.filter (fun x => !decide (x.part = c.part ∧ x.members = (commOf c.src).members ∧ x.key = (commOf c.src).key ∧
        x.kind ≠ 2 ∧ x.seq = c.seq % 2 ^ 32)) else g.s.fabric) ∧
      (∀ k, { u.cluster k with absent := (g.s.cluster k).absent, engBusy := (g.s.cluster k).engBusy } = g.s.cluster k) ∧
      u.group c.group = { g.s.group c.group with ec := FMap.put (g.s.group c.group).ec c.ec (BitVec.ofNat 16 ((g.s.group c.group).counter c.ec - 1)) } ∧
      (∀ k, u.team k = if k = c.team then { g.s.team k with wdcount := 0 } else g.s.team k) ∧
      (∀ ln, FMap.has (u.cluster c.cluster).absent ln = (FMap.has (g.s.cluster c.cluster).absent ln && !c.cleared.contains ln)))) ∧
  (∀ (s : State) (c : Command),
    let v := c.operand.toNat
    let byte (i : Nat) : Nat := v / 2 ^ (8 * i) % 256
    (c.reads = [] → s.noteReads c = s) ∧ (∀ cause, c.failed = some cause → c.perform s = { s := s, fault := some cause }) ∧
    (c.op = 0x01 → c.failed = none → c.eng ≤ 1 → ∀ row col, row < 256 → col < 256 → byte 0 + byte 2 ≤ 255 → byte 1 + byte 3 ≤ 255 →
      ((c.perform s).s.cluster c.cluster).accAt c.eng row col =
        if byte 0 ≤ row ∧ row ≤ byte 0 + byte 2 ∧ byte 1 ≤ col ∧ col ≤ byte 1 + byte 3 then 0 else (s.cluster c.cluster).accAt c.eng row col) ∧
    let tokens (P : FMap Obj → Prop) : Prop := (c.perform s).fault = none ∧ P (c.perform s).s.objects ∧
      { (c.perform s).s with objects := s.objects, clusters := s.clusters, llc := s.llc } = s ∧
      ∀ k, { (c.perform s).s.cluster k with dirty := (s.cluster k).dirty } = s.cluster k
    (c.op = 0x0C → c.failed = none → tokens (fun m => m = c.objs.foldl FMap.del s.objects)) ∧
    (c.op = 0x0E → c.failed = none → tokens (fun m => ∀ k o, FMap.look s.objects k = some o →
      FMap.look m k = some (if k ∈ c.objs ∧ o.holder = some c.cluster then { o with holder := none, brought := none } else o))) ∧
    (c.op = 0x0A → c.failed = none → ((c.perform s).s.cluster c.cluster).actBank = 1 - (s.cluster c.cluster).actBank ∧
      ((c.perform s).s.cluster c.cluster).actGen = (s.cluster c.cluster).actGen + 1 ∧
      ((c.perform s).s.cluster c.cluster).actBytes = Mem.writeBytes (s.cluster c.cluster).actBytes ((1 - (s.cluster c.cluster).actBank) * 4096) c.table))

/-- R224, R225, R226, R394, R164, R166, R340, R343. A walk that ends in a translation that may be read leaves it in the caches of its cluster and die; one
whose translation ends in a fault leaves nothing; one whose table is in error is counted; one for a page that is asked for puts the request into the
partition's ring. A page-fault answer is noted in every fault that waits on the page; a word that waited for it takes its precise trap, or, made
present and with no handler, sets the trap registers and goes on. An invalidation drops the cached translations of its range and is busy until every older access and command that used them is done. What the
answers of the page service do, and that a second invalidation is ignored, is the model's reading (log entries 25 and 51). -/
def Obligations.TranslationEvents : Prop :=
  (∀ (s : State) (cl part page : Nat),
    let va := page % 2 ^ 40 * 2 ^ 16
    let key := tlbKey part va
    let room (m : FMap (DWord × Nat)) (cap : Nat) : Prop := FMap.has m key = true ∨ m.length < cap
    (∀ e lv sp pa, s.translate cl part va = .leaf e lv → s.target cl part .read va = .ok sp pa → (∀ r ∈ s.pages, r.part = part → r.sent = true) →
      Gives (exec (.translationWalkEnd cl part page) s) (fun t =>
        { t with clusters := s.clusters, dies := s.dies } = s ∧ (∀ c, { t.cluster c with tlb := (s.cluster c).tlb } = s.cluster c) ∧
        (∀ d, { t.die d with tlb := (s.die d).tlb } = s.die d) ∧ (∀ c, c ≠ cl → t.cluster c = s.cluster c) ∧ (∀ d, d ≠ dieOf cl → t.die d = s.die d) ∧
        (room (s.cluster cl).tlb 256 → ∀ k, k ≠ key → FMap.look (t.cluster cl).tlb k = FMap.look (s.cluster cl).tlb k) ∧
        FMap.look (t.cluster cl).tlb key = some (e, lv) ∧
        (room (s.die (dieOf cl)).tlb 32768 → ∀ k, k ≠ key → FMap.look (t.die (dieOf cl)).tlb k = FMap.look (s.die (dieOf cl)).tlb k) ∧
        FMap.look (t.die (dieOf cl)).tlb key = some (e, lv))) ∧
    (∀ code d, s.target cl part .read va = .bad code d → s.tableError cl part va = false → (∀ r ∈ s.pages, r.part = part → r.sent = true) →
      exec (.translationWalkEnd cl part page) s = .next s) ∧
    (∀ code lv, s.translate cl part va = .bad code lv true → (∀ r ∈ s.pages, r.part = part → r.sent = true) →
      exec (.translationWalkEnd cl part page) s = .next (s.onPart part (fun p =>
        { p with errcnt := FMap.put p.errcnt 2 (min (2 ^ 32 - 1) (FMap.at 0 p.errcnt 2 + 1)) }))) ∧
    (∀ code lv cause, s.translate cl part va = .bad code lv false → s.pages = [{ part := part, page := page, sent := false, cause := cause }] →
      (s.part part).pfq.full = false → Gives (exec (.translationWalkEnd cl part page) s) (fun t =>
      let q := (s.part part).pfq
      { t with mem := s.mem, poison := s.poison, clusters := s.clusters, dies := s.dies, llc := s.llc, pages := s.pages, parts := s.parts
               module := s.module, unsettled := s.unsettled } = s ∧
      (∀ p, p ≠ part → t.part p = s.part p) ∧ t.module = { s.module with signals := s.module.signals ++ [8 + 8 * part] } ∧
      t.mem = Mem.writeBytes s.mem (q.base.toNat + 16 * q.tail) (leBytes 8 (page % 2 ^ 40 * 2 ^ 16) ++ leBytes 8 cause) ∧
      t.pages = [{ part := part, page := page, sent := true, cause := cause }] ∧ t.part part = { s.part part with pfq := q.push }))) ∧
  (∀ (s : State) (part : Nat) (value : BitVec 64), (FMap.keys s.groups).Nodup →
    let page := value.toNat / 2 ^ 16 % 2 ^ 40
    let mine (g : Group) : Bool := s.partOf g == part && !g.retired
    (∀ k, (s.group k).resumes = [] ∧ (s.group k).hwait = .ready ∧ ∀ d ∈ (s.group k).deferred, d.quiet = false) → (∀ t, (s.team t).recArrivals = []) →
    (∀ r ∈ s.pages, r.part = part → r.page = page ∨ r.sent = true) → Settles (exec (.pfansWrite part value) s) (fun u =>
      { u with groups := s.groups, pages := s.pages } = s ∧ u.pages = s.pages.filter (fun r => !(r.part == part && r.page == page)) ∧
      ∀ k, FMap.has s.groups k = true → u.group k = if mine (s.group k) then { s.group k with
        deferred := (s.group k).deferred.map (fun d => if d.pages.any (fun p => p.2 == page) then { d with answers := d.answers ++ [(page, value.getLsbD 0)] } else d) }
        else s.group k)) ∧
  (∀ (s : State) (k page co : Nat) (addr : DWord) (ok : Bool),
    let g := s.group k
    let trap (hdr : Word) (word : Nat) (lanes : LaneSet) : Trap :=
      { code := 0x31, detail := co + (if ok then 2 ^ 11 else 0), hdr := hdr, word := word, lanes := lanes, addr := addr }
    g.deferred = [] → g.trapPending = false → g.run.active = false → g.contained = none → g.isHalted = false → (∃ l, l < 64 ∧ (g.lane l).counts = true) →
    (∀ r, g.handler = false → g.hwait = .ready → g.resumes = [r] → r.wait = .page page addr co none →
      let t := trap r.hdr r.idx (if co / 64 = 4 then oneLane (lowest r.act) else r.act)
      let here : ResumePt := { r with wait := .ready }
      s.answerGroup k page ok = if ok = true ∧ (s.gridOf g).record.handler = 0xFFFFFFFF then s.setGroup k { g with trap := t.regs, resumes := [here] }
        else (s.setGroup k { g with resumes := [] }).raise k t (some here)) ∧
    (g.handler = true → g.resumes = [] → g.hwait = .page page addr co none →
      s.answerGroup k page ok = (s.setGroup k { g with hwait := .ready }).raise k (trap g.hpc g.hidx (oneLane g.refLane)) none)) ∧
  (∀ (s : State) (part : Nat) (value : BitVec 64),
    let p := s.part part
    let n := value.toNat % 2 ^ 24
    let first := p.tlbinva.toNat / 2 ^ 16 % 2 ^ 40
    let hit (k : Nat) : Bool := decide (k / 2 ^ 40 = part ∧ first ≤ k % 2 ^ 40 ∧ k % 2 ^ 40 < first + n)
    (p.tlbinvn.getLsbD 25 = true → exec (.tlbInvalidationStart part value) s = .next s) ∧
    (p.tlbinvn.getLsbD 25 = false → value.getLsbD 24 = true → Gives (exec (.tlbInvalidationStart part value) s) (fun t =>
      { t with clusters := s.clusters, dies := s.dies, parts := s.parts, fresh := s.fresh } = s ∧
      t.part part = { p with tlbinvn := BitVec.ofNat 64 (n + 2 ^ 25), tlbUpto := s.fresh } ∧ (∀ k, k ≠ part → t.part k = s.part k) ∧
      (∀ c k, FMap.look (t.cluster c).tlb k = if hit k then none else FMap.look (s.cluster c).tlb k) ∧
      (∀ d k, FMap.look (t.die d).tlb k = if hit k then none else FMap.look (s.die d).tlb k))) ∧
    (p.tlbinvn.getLsbD 25 = false → value.getLsbD 24 = false →
      exec (.tlbInvalidationStart part value) s = .next (s.onPart part (fun q => { q with tlbinvn := BitVec.ofNat 64 n }))) ∧
    (p.tlbinvn.getLsbD 25 = true → s.tlbQuiet part = true →
      exec (.tlbInvalidationComplete part) s = .next (s.onPart part (fun q => { q with tlbinvn := BitVec.ofNat 64 (p.tlbinvn.toNat % 2 ^ 24) }))) ∧
    (s.tlbQuiet part = false → exec (.tlbInvalidationComplete part) s = .next s))

/-- R239, R214, R217, R220, R244. A cluster that needs an object's token joins the end of its requests, once; one that needs none, or has asked, does not. The
token passes to the first of them: the holder's dirty lines go to their slices, and the lines leave the new holder's L1; for a region's write it goes
home. A line used eight times in a row by one cluster, and held by nobody, moves to another slice and leaves a forward at its home, none where it comes
home; with 16,384 forwards the oldest line goes home. A slice gates its highest way pair, which holds no line that must stay, down to four ways, and
enables one up to sixteen where more than an eighth of its last 65,536 requests missed, counted on its die. That an event whose condition does not hold changes nothing is the model's choice (log entry 21),
its arguments are those of log entry 50. -/
def Obligations.TokenAndCacheEvents : Prop :=
  (∀ (s : State) (cl part obj : Nat) (o : Obj), FMap.look s.objects obj = some o →
    let wanted : List Nat := obj :: (s.tokenCommands cl obj).flatMap (fun c => s.tokensMissing c (s.destLines (s.withList c)).1)
    let moved (u : State) : Prop := { u with objects := s.objects, clusters := s.clusters, llc := s.llc } = s ∧
      (∀ k, k ≠ obj → FMap.look u.objects k = FMap.look s.objects k) ∧ (∀ c, { u.cluster c with
        l1 := (s.cluster c).l1, stale := (s.cluster c).stale, dirty := (s.cluster c).dirty, l1Hits := (s.cluster c).l1Hits, l1Misses := (s.cluster c).l1Misses } = s.cluster c) ∧
      (∀ c, c ≠ cl → (u.cluster c).l1 = (s.cluster c).l1 ∧ (u.cluster c).stale = (s.cluster c).stale)
    let drained (u : State) : Prop := ∀ h, o.holder = some h → ∀ ln ∈ o.lines, FMap.has (u.cluster h).dirty ln = false
    (s.needsToken cl part obj = true → Gives (exec (.tokenRequestArrival cl part obj) s) (fun t => { t with objects := s.objects } = s ∧
      ∀ k, FMap.look t.objects k = (FMap.look s.objects k).map (fun x =>
        if k ∈ wanted ∧ cl ∉ x.requests then { x with requests := x.requests ++ [cl] } else x))) ∧
    (s.needsToken cl part obj = false → exec (.tokenRequestArrival cl part obj) s = .next s) ∧
    (∀ rest, cl < 160 → o.part = part → o.requests = cl :: rest → s.grantable obj o = true → Settles (exec (.tokenGrant part obj) s) (fun u =>
      moved u ∧ FMap.look u.objects obj = some { o with holder := some cl, requests := rest, brought := s.bringer cl o } ∧
      (o.holder ≠ some cl → drained u ∧ ∀ ln ∈ o.lines, (u.cluster cl).hasLine ln = false))) ∧
    (∀ rest, o.part = part → o.requests = 160 :: rest → s.grantable obj o = true → Settles (exec (.tokenGrant part obj) s) (fun u =>
      { u with objects := s.objects, clusters := s.clusters, llc := s.llc } = s ∧ drained u ∧
      FMap.look u.objects obj = some { o with holder := none, requests := if o.holder.isSome then 160 :: rest else rest, brought := none })) ∧
    (o.part ≠ part ∨ s.grantable obj o = false → exec (.tokenGrant part obj) s = .next s)) ∧
  (∀ (s : State) (line dest : Nat),
    let home := homeOf line
    let x := s.slice home
    let others := x.forwards.filter (fun p => p.1 != line)
    let due := 8 ≤ (FMap.at (0, 0) x.lastUse line).2
    let moves (forwards : List (Nat × Nat)) : Prop := Gives (exec (.lineMigrationComplete line dest) s) (fun t => { t with llc := s.llc } = s ∧
      (t.slice home).forwards = forwards ∧ FMap.look (t.slice home).lastUse line = none ∧ (t.slice home).moves = x.moves + 1 ∧
      t.holdOf line = dest ∧ (∀ k, k ≠ home → { t.slice k with lines := (s.slice k).lines } = s.slice k) ∧
      wayOf (t.slice (s.holdOf line)).lines (llcSet line) line = none)
    (dest < 48 → dest ≠ s.holdOf line → s.pinned line = false → due →
      (dest ≠ home → others.length < 16384 → moves (others ++ [(line, dest)])) ∧ (dest = home → moves others) ∧
      (dest ≠ home → ∀ old more, others = old :: more → 16384 ≤ others.length → s.pinned old.1 = false →
        Gives (exec (.lineMigrationComplete line dest) s) (fun t => { t with llc := s.llc } = s ∧
          (t.slice home).forwards = more ++ [(line, dest)] ∧ (t.slice home).moves = x.moves + 1 ∧ t.holdOf line = dest))) ∧
    (48 ≤ dest ∨ dest = s.holdOf line ∨ s.pinned line = true ∨ ¬ due → exec (.lineMigrationComplete line dest) s = .next s)) ∧
  (∀ (s : State) (sl : Nat), sl < 48 →
    let x := s.slice sl
    let sets (i : Instr) (ways : Nat) (P : State → Prop) : Prop := Gives (exec i s) (fun t => { t with llc := s.llc, dies := s.dies } = s ∧
      (t.slice sl).ways = ways ∧ t.dies = (s.onDie (sl / 24) (fun d => { d with gates := (d.gates + 1) % 2 ^ 32 })).dies ∧
      (∀ k, k ≠ sl → { t.slice k with lines := (s.slice k).lines, forwards := (s.slice k).forwards } = s.slice k) ∧ P t)
    (6 ≤ x.ways → (∀ ln ∈ x.topPair, s.pinned ln = false) → sets (.wayPairGating sl) (x.ways - 2) (fun t => ∀ ln ∈ x.topPair,
      wayOf (t.slice sl).lines (llcSet ln) ln = none ∧ (s.holdOf ln = sl → t.holdOf ln = homeOf ln))) ∧
    (x.ways < 6 ∨ (∃ ln ∈ x.topPair, s.pinned ln = true) → exec (.wayPairGating sl) s = .next s) ∧
    (x.ways ≤ 14 → 65536 < 8 * x.missed.length → sets (.wayPairEnable sl) (x.ways + 2) (fun t => t.llc = FMap.put s.llc sl { x with ways := x.ways + 2 })) ∧
    (14 < x.ways ∨ 8 * x.missed.length ≤ 65536 → exec (.wayPairEnable sl) s = .next s))

/-- R179, R242, R281, R282, R283, R290, R302 to R304. A cluster's turn in a grid barrier's release makes its parked lanes live. A region whose predecessors have
committed, whose lane's accesses are performed and whose cluster's stores have left the L1, commits: its bytes are in memory, its lane is live and its
slot free; with INVAL set it aborts instead; it waits while a line of its bytes is tentative at a level of another team; a reservation lapses. A level whose
charged ticks reach its limit begins to roll back. A rollback restores what the level logged and sends every lane to the next alternate; with none
left the level below rolls back, or the team ends with cause 0x61. A lost undo area ends the team with cause 0x64. Details of regions, of a team's end
and of a NOREG level's merged entries are the model's readings (log entries 36, 40 and 72). -/
def Obligations.BarrierRegionAndRecoveryEvents : Prop :=
  (∀ (s : State) (grid cl tick : Nat), (cl, tick) ∈ (s.grid grid).releases → tick ≤ s.tick → (s.grid grid).record.flags.toNat / 2 ^ 8 % 4 = 0 →
    let there (k : Nat) : Prop := (∃ t ∈ (s.grid grid).live, k ∈ (s.team t).groups) ∧ (s.group k).cluster = cl
    Gives (exec (.gbarClusterRelease grid cl) s) (fun t =>
      { t with groups := s.groups, grids := s.grids, clusters := s.clusters } = s ∧
      (∀ k, t.grid k = if k = grid then { s.grid grid with releases := (s.grid grid).releases.filter (fun r => r.1 != cl) } else s.grid k) ∧
      (∀ c, t.cluster c = if c = cl then { s.cluster cl with l1 := (s.cluster cl).l1.filter (fun p => s.holderOf p.2.1 == some cl), stale := [] }
        else s.cluster c) ∧
      (∀ k, ¬ there k → t.group k = s.group k) ∧
      (∀ k, there k → { t.group k with lanes := (s.group k).lanes } = s.group k ∧ ∀ l, l < 64 → (t.group k).lane l =
        if ((s.group k).lane l).isParked = true ∧ ((s.group k).lane l).place = .gridBarrier then { (s.group k).lane l with cond := .live, place := .none }
        else (s.group k).lane l))) ∧
  (∀ (s : State) (die slot : Nat), slot < 4096 →
    let id := die * 4096 + slot
    let sl := s.slot id
    let g := s.group sl.group
    let n := g.lane sl.lane
    (s.canCommit id = false → exec (.regionCommit die slot) s = .next s) ∧
    ((∃ p ∈ sl.bytes, s.foreignLine g.team (p.1 / 128) = true) → exec (.regionCommit die slot) s = .next s) ∧
    (sl.phase = 2 → sl.preds = [] → s.farDone sl.group (oneLane sl.lane) s.fresh = true → s.l1Drained g.cluster = true → (s.team g.team).levels = [] →
      (∀ p ∈ sl.bytes, s.foreignLine g.team (p.1 / 128) = false) →
      (s.grid (s.team g.team).grid).record.flags.toNat / 2 ^ 8 % 4 = 0 →
      (sl.inval = false → ∃ u : State, exec (.regionCommit die slot) s = .next u.settleRegions ∧
        (∀ a, Mem.read u.mem a = (FMap.look sl.bytes a).getD (Mem.read s.mem a)) ∧ u.slot id = {} ∧ s.othersSame u sl.group ∧
        { u.group sl.group with lanes := g.lanes, rstat := g.rstat } = g ∧
        (∀ l, (u.group sl.group).lane l = if l = sl.lane then { n with cond := .live, place := .none, region := none, aborting := false, reserved := none }
          else g.lane l) ∧
        u.accesses = s.accesses ∧ u.teams = (s.onTeam g.team (fun t => { t with wdcount := 0 })).teams) ∧
      (sl.inval = true → exec (.regionCommit die slot) s = .next ((s.abortRegions [id] 5 true).settleRegions))) ∧
    (sl.phase = 5 → n.reserved = some id → ¬ (n.place = .slotWait ∧ n.isParked = true) → (n.counts = false ∨ sl.since + 2 ^ 20 ≤ s.tick) →
      ∃ u : State, exec (.regionReservationLapse die slot) s = .next u.settleRegions ∧ { u with dies := s.dies, groups := s.groups } = s ∧
        (∀ k, u.slot k = if k = id then {} else s.slot k) ∧ s.othersSame u sl.group ∧
        u.group sl.group = { g with lanes := FMap.put g.lanes sl.lane { n with reserved := none } })) ∧
  (∀ (s : State) (team i : Nat) (lv last : Level), (s.team team).rollback = none → (s.team team).levels.getLast? = some last → last.conv = 0 →
    (s.team team).levels[i]? = some lv → lv.ticks ≠ 0 → lv.ticks ≤ lv.used →
    (∀ (j : Nat) (x : Level), j < i → (s.team team).levels[j]? = some x → x.ticks = 0 ∨ x.used < x.ticks) →
    Gives (exec (.recoveryTickLimitExpiry team) s) (fun t => { t with teams := s.teams } = s ∧ ∀ k, t.team k = if k = team then { s.team k with
      rollback := some { level := i + 1, last := 0x63 }, recArrivals := [], levels := (s.team k).levels.dropLast ++ [{ last with phase := 3, fdetail := 0 }] } else s.team k)) ∧
  (∀ (s : State) (team last : Nat) (below : List Level) (lv : Level),
    let tm := s.team team
    s.canRollback team = true → tm.levels = below ++ [lv] → lv.conv = 0 → tm.rollback = some { level := below.length + 1, last := last } → s.openSlots = [] →
    tm.groups.Nodup → (∀ k ∈ tm.groups, (s.group k).deferred = [] ∧ (s.group k).faultRegs = []) → (s.grid tm.grid).record.flags.toNat / 2 ^ 8 % 4 = 0 →
    (FMap.keys lv.lines).Nodup → (∀ p ∈ lv.lines, p.2.1.length = 128) →
    let restored (u : State) : Prop := ∀ x, Mem.read u.mem x = match FMap.look lv.lines (x / 128) with | some b => b.1.getD (x % 128) 0 | none => Mem.read s.mem x
    let gives (P : State → Prop) : Prop := ∃ u : State, exec (.rollback team) s = .next u.settleRegions ∧ restored u ∧ (∀ k, k ≠ team → u.team k = s.team k) ∧ P u
    (lv.routine < lv.nalt → gives (fun u =>
      (u.team team).levels = below ++ [{ lv with
        routine := lv.routine + 1, phase := 1, last := last, used := 0, errCode := none, lanes := if lv.noreg then lv.lanes else [], scratch := []
        lines := [] }] ∧
      (u.team team).rollback = none ∧ (u.team team).recArrivals = [] ∧ (u.team team).wdcount = 0 ∧
      ∀ k ∈ tm.groups, ∀ l, l < 64 → (u.group k).lane l = if ((s.group k).lane l).counts then
        { (if lv.noreg then {} else FMap.at ({} : LaneLog) lv.lanes ((s.group k).gid * 64 + l)).restore ((s.group k).lane l) with
          cond := .live, place := .none, vpc := lv.alts.getD lv.routine 0 } else (s.group k).lane l)) ∧
    (∀ more low, lv.nalt ≤ lv.routine → below = more ++ [low] → gives (fun u =>
      (u.team team).levels = more ++ [{ low with fcode := lv.errCode.getD (if last = 0x69 then lv.fcode else 0), phase := 3 }] ∧
      (u.team team).rollback = some { level := below.length, last := 0x69 })) ∧
    (lv.nalt ≤ lv.routine → below = [] → tm.convs = [] → (∀ k ∈ tm.groups, (s.group k).team = team) → gives (fun u => (u.team team).levels = [] ∧ (u.team team).rollback = none ∧
      ∀ k ∈ tm.groups, (s.group k).retired = false → (s.group k).contained = none → u.containedWith k 0x61))) ∧
  (∀ (s : State) (team : Nat) (last : Level), (s.team team).levels.getLast? = some last → last.conv = 0 → s.openSlots = [] →
    ∃ u : State, exec (.undoAreaLost team) s = .next u.settleRegions ∧ ((s.grid (s.team team).grid).record.flags.toNat / 2 ^ 8 % 4 = 0 → u.mem = s.mem) ∧
      (u.team team).levels = [] ∧
      ∀ k ∈ (s.team team).groups, (s.group k).retired = false → (s.group k).contained = none → u.containedWith k 0x64)

/-! ### Scheduler -/

/-- R315, R316, R318 to R320, R347, R193. A TAIL more than a queue's records ahead is refused. A valid launch record becomes a grid and HEAD advances; an
invalid one reports status 2 with the offending offset. A record of an overflow ring moves to its child queue while that has room. A group that may
retire does, one that may not stays, and with the last of its team the residency ends. The exit status of a contained group is counted and, where the
area has room, written; the next one that the group owes takes its place. R362. A containment that dumps freezes its cluster first, and its word waits for
the end of that freeze.
The form of a TAIL write and the reading of ring records are the model's choices (log entries 33 and 51). -/
def Obligations.QueuesAndEndsOfGroups : Prop :=
  (∀ (s : State) (q : Nat) (tail : BitVec 32), q < 32 →
    let x := FMap.at ({} : HostQueue) s.queues q
    let t := tail.toNat / 2 ^ 16
    let y := if 2 ^ (x.ctl.toNat % 16) < (t + 2 ^ 16 - x.head) % 2 ^ 16 then { x with ctl := x.ctl ||| 0x100 } else { x with tail := t }
    exec (.lqptrTailWrite q tail) s = .next { s with queues := FMap.put s.queues q y }) ∧
  (∀ (s : State) (q : Nat) (b : List (BitVec 8)), q < 32 →
    let x := FMap.at ({} : HostQueue) s.queues q
    let part := x.ctl.toNat / 2 ^ 4 % 8
    let r := parseRecord b
    let clusters := (s.partClusters part).length
    let next (y : HostQueue) (last : Option Nat) : HostQueue := { y with head := (y.head + 1) % 2 ^ 16, lastGrid := last }
    let va := (x.base.toNat / 128 * 128 + 128 * (x.head % 2 ^ (x.ctl.toNat % 16))) % 2 ^ 64
    x.ctl.getLsbD 7 = true → x.head ≠ x.tail → (∀ k, x.lastGrid = some k → (s.grid k).next = (s.grid k).record.teams ∧ (s.grid k).again = []) →
    (s.hostStyleRead part va 128 = none → exec (.launchRecordRead q) s = .next (if s.tableError 0 part va then s.countErr part 2 1 else s)) ∧
    (s.hostStyleRead part va 128 = some b →
    (recordFault r clusters = none → Settles (exec (.launchRecordRead q) s) (fun u => u =
      { s with
        grids := FMap.put s.grids s.fresh {
          part := part, queue := some q, record := r, order := s.fresh
          pred := if r.flags.getLsbD 12 then x.lastGrid.bind (fun p => if (s.grid p).retired then none else some p) else none },
        fresh := s.fresh + 1, queues := FMap.put s.queues q (next x (some s.fresh)) })) ∧
    (∀ off, recordFault r clusters = some off →
      (r.done = 0 → exec (.launchRecordRead q) s = .next { s with queues := FMap.put s.queues q (next x none) }) ∧
      (∀ pa, r.done ≠ 0 → s.target 0 part .write r.done = .ok .host pa → exec (.launchRecordRead q) s = .next { s with
        queues := FMap.put s.queues q (next x none), hostMem := Mem.writeBytes s.hostMem pa (leBytes 8 (2 + off * 2 ^ 8)) })))) ∧
  (∀ (s : State) (grid k : Nat) (rest : List Nat) (r : LaunchRec), (s.grid grid).ringIds = k :: rest → k ≠ grid →
    let g := s.grid grid
    let queue := FMap.at [] (s.die (s.grid k).die).childQueues r.prio
    let read := s.hostStyleRead g.part (g.record.ring + 128 * (g.ringHead % g.record.ringCap)) 128
    let valid (b : List (BitVec 8)) : Prop := recordFault (parseRecord b) (s.partClusters g.part).length = none
    ((∃ b, read = some b ∧ valid b ∧ r = parseRecord b) ∨ ((∀ b, read = some b → ¬ valid b) ∧ r = (s.grid k).record)) →
    (queue.length < 32 → Settles (exec (.childRingTransfer grid) s) (fun u =>
      { u with grids := s.grids, dies := s.dies, fresh := s.fresh, parts := s.parts } = s ∧ u.fresh = s.fresh + 1 ∧
      u.parts = (if s.tableError 0 g.part (g.record.ring + 128 * (g.ringHead % g.record.ringCap)) then s.countErr g.part 2 1 else s).parts ∧
      u.grid k = { s.grid k with record := r, qorder := some s.fresh } ∧
      u.grid grid = { g with ringIds := rest, ringHead := g.ringHead + 1 } ∧ (∀ j, j ≠ k → j ≠ grid → u.grid j = s.grid j) ∧
      (∀ d, u.die d = if d = (s.grid k).die then { s.die d with childQueues := FMap.put (s.die d).childQueues r.prio (queue ++ [k]) } else s.die d))) ∧
    (32 ≤ queue.length → exec (.childRingTransfer grid) s = .next s)) ∧
  (∀ (s : State) (k : Nat), s.canRetire k = false → exec (.groupRetirement k) s = .next s) ∧
  (∀ (s : State) (k : Nat), s.canRetire k = true →
    let g := s.group k
    let tm := s.team g.team
    let last : Prop := ∀ n ∈ tm.groups, n = k ∨ (s.group n).retired = true
    Settles (exec (.groupRetirement k) s) (fun u => { u with groups := s.groups, teams := s.teams } = s ∧ s.othersSame u k ∧
      u.group k = { g with retired := true, resident := false } ∧ (∀ j, j ≠ g.team → u.team j = s.team j) ∧
      (last → ∀ cl, tm.place = .resident cl → u.team g.team = { tm with place := .record, preempt := .no }) ∧ (¬ last → u.team g.team = tm))) ∧
  (∀ (s : State) (k : Nat) (e : Exit),
    let g := s.group k
    let tm := s.team g.team
    let gr := s.grid tm.grid
    (g.contained = some e → (∀ a ∈ s.accesses, a.2.group ≠ k) → (∀ p ∈ s.producers, p.2.group ≠ k) → e.dump = true → (s.cluster g.cluster).frozen = none →
      Settles (exec (.exitStatusWrite k) s) (fun u => { u with clusters := s.clusters, groups := s.groups, module := s.module } = s ∧ s.othersSame u k ∧
        u.module = { s.module with signals := s.module.signals ++ [8 + 8 * gr.part + 3] } ∧ u.group k = { g with contained := some { e with dump := false } } ∧ ∀ c, u.cluster c =
          if c = g.cluster then { s.cluster c with frozen := some s.tick, frozenGroup := k, attached := false } else s.cluster c)) ∧
    (g.contained = some e → (s.cluster g.cluster).frozen ≠ none → (s.cluster g.cluster).frozenGroup = k → exec (.exitStatusWrite k) s = .next s) ∧
    (g.contained = some e → (∀ a ∈ s.accesses, a.2.group ≠ k) →
    (((s.cluster g.cluster).frozen = none ∧ e.dump = false) ∨ ((s.cluster g.cluster).frozen ≠ none ∧ (s.cluster g.cluster).frozenGroup ≠ k)) →
    let done (u : State) : Prop := s.othersSame u k ∧ u.group k = { g with contained := g.exitQueue.head?, exitQueue := g.exitQueue.drop 1 } ∧ (∀ j, u.grid j = if j = tm.grid then { gr with exits := gr.exits + 1 } else s.grid j)
    let word : Nat := e.cause % 2 ^ 8 + e.detail % 2 ^ 12 * 2 ^ 8 + e.lanes % 2 ^ 7 * 2 ^ 20 + (if e.defer then 2 ^ 27 else 0) +
      (if e.ord.toNat < 0xFFFF then e.ord.toNat else 0xFFFF) * 2 ^ 28 + e.pc.toNat % 2 ^ 20 * 2 ^ 44
    let entry : List (BitVec 8) := leBytes 8 word ++ leBytes 4 tm.idX ++ leBytes 4 tm.idY ++ leBytes 4 tm.idZ ++ leBytes 4 g.gid ++ List.replicate 8 0
    (gr.record.exitArea = 0 → Settles (exec (.exitStatusWrite k) s) (fun u => done u ∧ { u with groups := s.groups, grids := s.grids } = s)) ∧
    (∀ pa pb, gr.record.exitArea ≠ 0 → s.target 0 gr.part .read gr.record.exitArea = .ok .host pa → s.target 0 gr.part .write gr.record.exitArea = .ok .host pa →
      let i := leNat (Mem.readBytes s.hostMem pa 8)
      i < gr.record.exitCap → s.target 0 gr.part .write (gr.record.exitArea + 64 + 32 * i) = .ok .host pb → Settles (exec (.exitStatusWrite k) s) (fun u =>
        done u ∧ { u with groups := s.groups, grids := s.grids, hostMem := s.hostMem } = s ∧
        u.hostMem = Mem.writeBytes (Mem.writeBytes s.hostMem pa (leBytes 8 (i + 1))) pb entry))))

/-- R192, R210, R317, R322, R323, R324, R326, R330, R355. The first candidate that fits is admitted, or restored if it is saved: the team is resident on the
cluster chosen, its groups there, launched as its record says or read from its slot, which is free again. The allocation has been cleared after a tick
for each 128 bytes. The earliest candidate to qualify, of those first in their priority that have been passed over for 2^22 ticks, reserves the cluster
with the most free budget; for the first child held out for 2^20 ticks the teams in WAITCHILD are saved, oldest first, until it fits, a co-resident
grid whole. What a restore reads back, and when a team in WAITPRED
may be restored, is the model's reading (log entries 34 and 35); an event out of turn changes nothing (log entry 21). -/
def Obligations.AdmissionAndRestore : Prop :=
  (∀ (s : State), s.choose = none → exec .teamAdmission s = .next s.markPassed ∧ (∀ t, exec (.teamRestore t) s = .next s) ∧
    ∀ c ∈ s.candidates, s.tryCand c = none) ∧
  (∀ (s : State) (c : Cand) (u : State), s.choose = some (c, u) →
    let g := s.grid c.grid
    let groups := if c.kind = 0 then ((s.team c.team).groups.filter (fun k => !(s.group k).retired)).length else g.record.groups
    let at_ (f : Nat → Option State) : Prop := g.record.flags.getLsbD 7 = false →
      ∃ cl, s.bestCluster g.part g.record groups c.grid c.team (if g.parent.isSome then some g.die else none) = some cl ∧ f cl = some u
    (∃ before after, s.candidates = before ++ c :: after ∧ (∀ d ∈ before, s.tryCand d = none) ∧ s.tryCand c = some u) ∧
    (c.kind ≠ 0 → exec .teamAdmission s = .next u.markPassed.settleAll ∧ (∀ t, exec (.teamRestore t) s = .next s) ∧ at_ (s.admitOn c.grid)) ∧
    (c.kind = 0 → exec (.teamRestore c.team) s = .next u.markPassed.settleAll ∧ exec .teamAdmission s = .next s ∧ at_ (s.restoreOn c.team) ∧
      ∀ t, t ≠ c.team → exec (.teamRestore t) s = .next s)) ∧
  (∀ (s : State) (k cl : Nat) (u : State), s.admitOn k cl = some u → (s.grid k).again = [] →
    let g := s.grid k
    let r := g.record
    let t := u.team s.fresh
    t.place = .resident cl ∧ t.grid = k ∧ t.linear = g.next ∧ t.idX = g.next % r.gridX ∧ t.idY = g.next / r.gridX % r.gridY ∧ t.idZ = g.next / r.gridX / r.gridY ∧
    t.levels = [] ∧ t.groups.length = (r.teamX * r.teamY * r.teamZ + 63) / 64 ∧ (u.grid k).next = g.next + 1 ∧ (u.grid k).live = g.live ++ [s.fresh] ∧
    ∀ j ∈ t.groups, let x := u.group j
      x.team = s.fresh ∧ x.cluster = cl ∧ x.resident = true ∧ x.retired = false ∧ x.s 1 ++ x.s 0 = r.param ∧
      ∀ l, l < 64 → ((x.lane l).cond = if l + 64 * x.gid < r.teamX * r.teamY * r.teamZ then .live else .never) ∧
        ((x.lane l).cond = .live → (x.lane l).vpc = r.entry)) ∧
  (∀ (s : State) (team cl part slot : Nat) (u : State), (s.team team).place = .saved part slot → s.restoreOn team cl = some u →
    let base := s.slotBase part slot
    (∀ p ∈ s.poison, ∀ x ∈ s.slotParts team, 4 * p.1 + 4 ≤ base + x.1 ∨ base + x.1 + x.2 ≤ 4 * p.1) →
    (u.team team).place = .resident cl ∧ slot ∉ (u.part part).slotsUsed ∧ team ∉ (u.grid (s.team team).grid).saved ∧
    ∀ k ∈ (s.team team).groups, (s.group k).retired = false → (u.group k).resident = true ∧ (u.group k).cluster = cl) ∧
  (∀ (s : State) (team : Nat),
    let tm := s.team team
    (tm.clearing = true → tm.since + tm.scrSize / 128 ≤ s.tick →
      exec (.scratchpadClearDone team) s = .next (s.onTeam team (fun t => { t with clearing := false }))) ∧
    (tm.clearing = false ∨ s.tick < tm.since + tm.scrSize / 128 → exec (.scratchpadClearDone team) s = .next s)) ∧
  (∀ (s : State) (c : Cand) (cl since : Nat),
    let g := s.grid c.grid
    let weight := if c.kind = 0 then s.teamWeight c.team else g.record.weight
    let may (k : Nat) : Bool := decide (weight ≤ (s.cluster k).budget) && (s.cluster k).held.isNone
    let free (k : Nat) : Nat := (s.cluster k).budget - s.clusterWeight k
    let reserves : Prop := exec (.admissionReservation c.grid c.team) s =
      .next (s.onPart g.part (fun p => { p with reservation := some (cl, c.grid, c.team) }))
    ((s.part g.part).reservation ≠ none → exec (.admissionReservation c.grid c.team) s = .next s) ∧
    (c ∈ s.candidates → (if c.kind = 0 then (s.team c.team).passedOver else g.passed) = some since → since + 2 ^ 22 ≤ s.tick →
      (∀ d ∈ s.candidates, d ≠ c → (s.grid d.grid).part = g.part → ∀ y, s.passedSince d = some y → since < y) →
      (s.part g.part).reservation = none → g.record.flags.getLsbD 7 = false → cl ∈ s.partClusters g.part → may cl = true →
      (∀ k ∈ s.partClusters g.part, may k = true → free k < free cl ∨ (free k = free cl ∧ cl ≤ k)) → reserves)) ∧
  (∀ (s : State) (before : List Cand) (c : Cand) (after : List Cand), s.candidates = before ++ c :: after → (∀ d ∈ before, s.heldOutFor d = none) →
    (∀ ts, s.heldOutFor c = some ts → exec (.heldOutPreemption c.grid) s = .next (s.holdOut ts)) ∧
    (s.heldOutFor c = none → after = [] → ∀ grid, exec (.heldOutPreemption grid) s = .next s)) ∧
  (∀ (s : State) (c : Cand) (cl n : Nat),
    let g := s.grid c.grid
    let ts := sortBy (fun t => (s.team t).since) (s.residents.filter (fun t => s.suspended t Wait.isChildren && (s.team t).preempt == .no))
    let fits (m : Nat) : Bool := (s.without (ts.take m)).admits cl g.part g.record g.record.groups c.grid c.team
    (c.kind ≠ 1 ∨ s.tick < c.since + 2 ^ 20 → s.heldOutFor c = none) ∧
    (c.kind = 1 → c.since + 2 ^ 20 ≤ s.tick → g.record.flags.getLsbD 7 = false → s.partClusters g.part = [cl] →
      (∀ t ∈ s.residents, (s.team t).preempt.saves = false) → (∀ t ∈ ts, (s.team t).place = .resident cl) →
      (0 < n → n ≤ ts.length → fits n = true → (∀ m, m < n → fits m = false) → s.heldOutFor c = some (ts.take n)) ∧
      ((∀ m, m ≤ ts.length → fits m = false) ∨ fits 0 = true → s.heldOutFor c = none))) ∧
  (∀ (s : State) (ts : List Nat) (u : State), u = s.holdOut ts → { u with teams := s.teams } = s ∧
    (∀ k, u.team k = s.team k ∨ u.team k = { s.team k with preempt := .heldOut }) ∧
    (∀ t ∈ ts, ((s.grid (s.team t).grid).record.flags.getLsbD 7 = false ∨ (t ∈ (s.grid (s.team t).grid).live ∧ (s.team t).place.onCluster = true)) →
      (u.team t).preempt ≠ .no) ∧
    (∀ t ∈ ts, (s.grid (s.team t).grid).record.flags.getLsbD 7 = true → ∀ k ∈ (s.grid (s.team t).grid).live, (s.team k).place.onCluster = true →
      (u.team k).preempt ≠ .no) ∧
    ((∀ t ∈ ts, (s.grid (s.team t).grid).record.flags.getLsbD 7 = false) → ∀ k, k ∉ ts → u.team k = s.team k))

/-- R324, R327 to R331, R302, R304. GO of PRCTL marks each team of its clusters with the kind that R328 decides, those of a co-resident grid with one kind,
returns one that has issued no run to its grid, and keeps teams of the partition off those clusters unless RESUME is set; it is ignored while an
earlier one is busy, and waits for releases of a grid barrier under way, its allowance running from the GO. A drain past its allowance is decided again. Regions
still open abort once no run goes on; a save puts the team into the lowest free slot; a flush, also of a level that opened since a save was decided, sends its lanes to the outermost ENSURE with no level open, then it is
saved; a restart takes the team, or all of its co-resident grid, back undispatched. What a save writes and that an event out of turn changes nothing are the model's (log entries 21, 34 and 57). -/
def Obligations.PreemptionEvents : Prop :=
  (∀ (s : State) (part : Nat) (value : BitVec 64),
    let cls := if value.getLsbD 2 then [value.toNat / 2 ^ 3 % 2 ^ 8] else s.partClusters part
    let hit := s.residents.filter (fun t => (s.grid (s.team t).grid).part == part && cls.any (fun cl => (s.team t).place == .resident cl))
    let since := if (s.part part).goWait = none then s.tick else (s.part part).goTick
    let v := s.onPart part (fun p => { p with goTick := since })
    let kind (t : Nat) : Preempt :=
      let r := (s.grid (s.team t).grid).record
      let allow := (s.part part).prallow.toNat
      if 224 ≤ s.teamProgress t ∧ r.drainest ≤ allow then .drain (since + allow)
      else if (s.team t).levels ≠ [] then .flush
      else if r.flags.getLsbD 6 = true ∧ s.teamProgress t < 64 then .restart
      else .save
    let stopped := if value.getLsbD 1 then (s.part part).stopped.filter (fun c => !cls.contains c)
      else (s.part part).stopped ++ cls.filter (fun c => !(s.part part).stopped.contains c)
    let cores (t : Nat) : Bool := (s.grid (s.team t).grid).record.flags.getLsbD 7
    let stops (u : State) (wait : Option DWord) : Prop :=
      ∀ p, u.part p = if p = part then { s.part part with goWait := wait, stopped := stopped, goTick := since } else s.part p
    (value.getLsbD 0 = false ∨ s.remaining part ≠ [] ∨ (∃ v, (s.part part).goWait = some v ∧ v ≠ value) → exec (.prctlGo part value) s = .next s) ∧
    (value.getLsbD 0 = true → s.remaining part = [] → ((s.part part).goWait = none ∨ (s.part part).goWait = some value) →
      (∃ t ∈ hit, (s.grid (s.team t).grid).releases ≠ []) → Gives (exec (.prctlGo part value) s) (fun t =>
        { t with parts := s.parts } = s ∧ stops t (some value))) ∧
    (value.getLsbD 0 = true → s.remaining part = [] → ((s.part part).goWait = none ∨ (s.part part).goWait = some value) →
      (∀ t ∈ hit, (s.grid (s.team t).grid).releases = []) →
      ((∀ t ∈ hit, cores t = false ∧ s.neverRan t = false) → Settles (exec (.prctlGo part value) s) (fun u =>
        { u with teams := s.teams, parts := s.parts } = s ∧ stops u none ∧
        ∀ t, u.team t = if t ∈ hit ∧ (s.team t).preempt = .no then { s.team t with preempt := kind t } else s.team t)) ∧
      (∀ k, hit ≠ [] → (∀ t ∈ hit, cores t = true ∧ (s.team t).grid = k ∧ t ∈ (s.grid k).live) → (∃ t ∈ hit, s.neverRan t = false) →
        (∀ t ∈ (s.grid k).live, (v.gridKind k).rank ≤ (v.decideKind t).rank) ∧ Settles (exec (.prctlGo part value) s) (fun u =>
          { u with teams := s.teams, parts := s.parts } = s ∧ stops u none ∧
          ∀ t, u.team t = if t ∈ (s.grid k).live ∧ (s.team t).place.onCluster = true ∧ (s.team t).preempt = .no then
            { s.team t with preempt := v.gridKind k } else s.team t)) ∧
      (∀ t, hit = [t] → cores t = false → (s.team t).preempt = .no → s.neverRan t = true → Settles (exec (.prctlGo part value) s) (fun u =>
        (u.team t).place = .undispatched ∧ t ∈ (u.grid (s.team t).grid).again ∧ t ∉ (u.grid (s.team t).grid).live ∧
        (∀ k ∈ (s.team t).groups, (u.group k).resident = false) ∧ (u.part part).stopped = stopped))) ∧
    (value.getLsbD 1 = true → exec (.prctlResume part value) s =
      .next (s.onPart part (fun p => { p with stopped := p.stopped.filter (fun c => !cls.contains c) }))) ∧
    (value.getLsbD 1 = false → exec (.prctlResume part value) s = .next s)) ∧
  (∀ (s : State) (team : Nat),
    let tm := s.team team
    let part := (s.grid tm.grid).part
    let discarded (v : State) (t : Nat) (u : State) : Prop := (u.team t).place = .undispatched ∧ t ∈ (u.grid (v.team t).grid).again ∧
      t ∉ (u.grid (v.team t).grid).live ∧ ∀ k ∈ (v.team t).groups, (u.group k).resident = false
    let cores : Bool := (s.grid tm.grid).record.flags.getLsbD 7
    let v := s.abortStopped [team]
    let mates := (s.grid tm.grid).live.filter (fun t => (s.team t).place.onCluster)
    let w := s.abortStopped mates
    ((∀ k ∈ tm.groups, s.groupSlots k = []) → v = s) ∧
    (∀ until_, tm.preempt = .drain until_ →
      (until_ ≤ s.tick → exec (.drainAllowanceExpiry team) s =
        .next (s.onTeam team (fun t => { t with preempt := if t.levels ≠ [] then .flush else .save }))) ∧
      (s.tick < until_ → exec (.drainAllowanceExpiry team) s = .next s)) ∧
    (∀ cl n, (tm.preempt = .save ∨ tm.preempt = .heldOut) → s.teamHalted team = false → v.canStop team = true → tm.levels = [] → tm.place = .resident cl →
      n ∉ (v.part part).slotsUsed → n < (v.part part).savebase.toNat / 2 ^ 56 → (∀ m, m < n → m ∈ (v.part part).slotsUsed) → Settles (exec (.teamSave team) s) (fun u =>
      (u.team team).place = .saved part n ∧ (u.team team).preempt = .no ∧ n ∈ (u.part part).slotsUsed ∧ team ∈ (u.grid tm.grid).saved ∧
      ∀ k ∈ tm.groups, (u.group k).resident = false)) ∧
    (tm.preempt = .flush → tm.levels = [] → exec (.flushToEnsure team) s = .next (s.onTeam team (fun t => { t with preempt := .save }))) ∧
    (∀ first more last, tm.preempt = .flush ∨ tm.preempt = .save ∨ tm.preempt = .heldOut → tm.levels = first :: more →
      tm.levels.getLast? = some last → last.conv = 0 → s.teamDrained team = true →
      (∀ c ∈ s.commands, c.2.team ≠ team) → (∀ k ∈ tm.groups, (s.group k).run.active = false) → s.teamHalted team = false → s.openSlots = [] → tm.groups.Nodup →
      Settles (exec (.flushToEnsure team) s) (fun u =>
        (u.team team).levels = [] ∧ (u.team team).rollback = none ∧
        (u.team team).preempt = (if tm.preempt = .flush then .save else tm.preempt) ∧ (∀ k, k ≠ team → u.team k = s.team k) ∧
        ∀ k ∈ tm.groups, ∀ l, l < 64 → ((s.group k).lane l).counts = true → ((u.group k).lane l).cond = .live ∧ ((u.group k).lane l).vpc = first.ensure)) ∧
    (cores = false → tm.preempt = .restart → s.teamHalted team = false → v.canStop team = true → (v.team team).levels = [] →
      Settles (exec (.flushAndRestart team) s) (discarded v team)) ∧
    (cores = true → tm.preempt = .restart → (∀ t ∈ mates, s.teamHalted t = false ∧ w.canStop t = true ∧ (w.team t).levels = [] ∧ (w.team t).grid = tm.grid) →
      mates.Nodup → Settles (exec (.flushAndRestart team) s) (fun u => ∀ t ∈ mates, discarded w t u)) ∧
    (tm.preempt ≠ .restart → exec (.flushAndRestart team) s = .next s) ∧ (tm.preempt.saves = false → exec (.teamSave team) s = .next s) ∧
    (tm.preempt.leaves = false → exec (.flushToEnsure team) s = .next s))

/-- R336, R345, R350, R387, R397. A watchdog at its limit in a charged tick, an error in a group's files, a shutdown, a kill, the teardown of a partition and the revocation
of its key contain every group they name with their cause; in an open level the watchdog and the error are faults of the level, and a kill ends the
team after its rollback. Revocation besides fences the partition and disables its queues. That these come by the agenda, reach saved teams too, and
how a kill names its team, is the model's choice (log entries 10, 51 and 54). -/
def Obligations.EndsFromOutside : Prop :=
  ∀ (s : State), s.openSlots = [] →
    let open_ (k : Nat) : Prop := (s.group k).retired = false ∧ (s.group k).contained = none
    let held (t : Nat) : Prop := ∃ tm, FMap.look s.teams t = some tm ∧ ((∃ cl, tm.place = .resident cl) ∨ ∃ p n, tm.place = .saved p n)
    let ends (is : Nat → Prop) (code : Nat) (u : State) : Prop := u.mem = s.mem ∧
      ∀ t, held t → is (s.grid (s.team t).grid).part → ∀ k ∈ (s.team t).groups, open_ k → u.containedWith k code
    ((∀ t, (s.team t).levels = []) →
      Settles (exec .moduleShutdown s) (ends (fun _ => True) 0xB2) ∧
      (∀ part, Settles (exec (.partitionTeardown part) s) (ends (fun p => p = part) 0xB1) ∧
        Settles (exec (.keyRevocation part) s) (fun u => ends (fun p => p = part) 0xB0 u ∧ (u.part part).fenced = true ∧
          ∀ q, let x := FMap.at ({} : HostQueue) s.queues q
            FMap.at {} u.queues q = if x.ctl.toNat / 2 ^ 4 % 8 = part then { x with ctl := x.ctl &&& ~~~(0x80#64) } else x))) ∧
    (∀ t : BitVec 64,
      let tm := s.team t.toNat
      held t.toNat →
      (tm.levels = [] → Settles (exec (.killRequest t) s) (fun u => u.mem = s.mem ∧ ∀ k ∈ tm.groups, open_ k → u.containedWith k 0x71)) ∧
      (∀ last, tm.levels.getLast? = some last → last.conv = 0 → tm.rollback = none → Settles (exec (.killRequest t) s) (fun u =>
        { u with teams := s.teams } = s ∧ ∀ k, u.team k = if k = t.toNat then { s.team k with
          rollback := some { level := 1, last := 0x71, terminate := some 0x71 }, recArrivals := []
          levels := (s.team k).levels.dropLast ++ [{ last with phase := 3 }] } else s.team k))) ∧
    (∀ t,
      let tm := s.team t
      let limit := (s.part (s.grid tm.grid).part).wdlimit.toNat
      (s.charged t = false → exec (.hangWatchdogExpiry t) s = .next s) ∧
      (limit ≠ 0 → s.charged t = true → limit * 2 ^ 16 ≤ tm.wdcount →
      (tm.levels = [] → Settles (exec (.hangWatchdogExpiry t) s) (fun u =>
        u.mem = s.mem ∧ (u.team t).wdcount = 0 ∧ ∀ k ∈ tm.groups, open_ k → u.containedWith k 0xA3)) ∧
      (∀ last, tm.levels.getLast? = some last → last.conv = 0 → tm.rollback = none → Settles (exec (.hangWatchdogExpiry t) s) (fun u =>
        { u with teams := s.teams } = s ∧ (s.kick t).rollsBack u t 0xA3)))) ∧
    (∀ k lane reg, (s.group k).resident = true → open_ k → lane < 64 → reg < 128 →
      let tm := s.team (s.group k).team
      (tm.levels = [] → Settles (exec (.registerFileError k lane reg) s) (fun u => u.mem = s.mem ∧ u.containedWith k 0x93)) ∧
      (∀ last, tm.levels.getLast? = some last → last.conv = 0 → tm.rollback = none → Settles (exec (.registerFileError k lane reg) s) (fun u =>
        { u with teams := s.teams } = s ∧ s.rollsBack u (s.group k).team 0x93)))

/-! ### Debug, power, the module -/

/-- R358 to R365. DBGCTL asks the groups of its scope to halt, resumes those that are stopped, or lets them go to their next stop; a request that has
stood for HALTLIM ticks stops a group between runs, also one whose handler has not begun, with the imprecise cause 0xA2 at the place where it would issue next. After
a precise stop that stop is not made again before the clause has issued. ATTACH stops the hold timer of the partition's frozen clusters,
RELEASE ends the freezes; a hold that runs out ends the contained group's team with cause 0xA4. A sample puts a record into the ring, or is counted as
lost where it is full. An event out of turn changes nothing (log entry 21, the model's choice); counters of a sample that depend on timing are free
values (log entry 18). -/
def Obligations.DebugEvents : Prop :=
  let passed (c : Nat) (g : Group) : Option (Word × List Nat) := if c = 0xA2 then g.passed
    else some (g.trap.pc, (if c = 0xA0 then [g.trap.cause.toNat / 2 ^ 20] else []) ++
      (match g.passed with | some (h, ns) => if h = g.trap.pc then ns else [] | none => []))
  let unanswered (s : State) : Prop := ∀ k pg a c b, (∀ r ∈ (s.group k).resumes, r.wait ≠ .page pg a c (some b)) ∧ (s.group k).hwait ≠ .page pg a c (some b)
  (∀ (s : State) (part : Nat) (value : BitVec 64), (FMap.keys s.groups).Nodup →
    let v := value.toNat
    let at_ (g : Group) : Prop := g.cluster = v / 2 ^ 5 % 2 ^ 8 ∧ g.slice = v / 2 ^ 13 % 8 ∧ g.slot = v / 2 ^ 16 % 16
    let mine (k : Nat) : Prop := FMap.has s.groups k = true ∧ (s.group k).resident = true ∧ (s.group k).retired = false ∧ s.partOf (s.group k) = part
    let hit (k : Nat) : Prop := mine k ∧ match v / 2 ^ 3 % 4 with
      | 0 => at_ (s.group k)
      | 1 => ∃ j, mine j ∧ at_ (s.group j) ∧ (s.group j).team = (s.group k).team
      | 2 => (s.group k).cluster = v / 2 ^ 5 % 2 ^ 8
      | _ => True
    let resumed (g : Group) (h : Halt) : Group := match g.halt with
      | .stopped c _ => { g with halt := h, trap := g.savedTrap.getD g.trap, savedTrap := none, passed := passed c g }
      | _ => g
    let asked (g : Group) : Group := match g.halt with | .no | .step => { g with halt := .asked s.tick false } | _ => g
    let groups (t : State) (f : Group → Group) : Prop := { t with groups := s.groups } = s ∧
      ∀ k, (hit k → t.group k = f (s.group k)) ∧ (¬ hit k → t.group k = s.group k)
    (value.getLsbD 0 = true → ∃ u : State, exec (.dbgHalt part value) s = .next u.boundaryStops ∧ groups u asked) ∧
    (value.getLsbD 1 = true → value.getLsbD 2 = false → unanswered s → Gives (exec (.dbgResume part value) s) (fun t => groups t (fun g => resumed g .no))) ∧
    (value.getLsbD 1 = true → value.getLsbD 2 = true → unanswered s → Gives (exec (.dbgStep part value) s) (fun t => groups t (fun g => resumed g .step)))) ∧
  (∀ (s : State) (k since : Nat),
    let g := s.group k
    g.halt = .asked since false →
    (since + (s.part (s.partOf g)).haltlim.toNat ≤ s.tick → g.resident = true → g.retired = false → g.contained = none → g.handler = false →
      g.run.active = false → (s.cluster g.cluster).frozen = none → exec (.haltLimitExpiry k) s = .next ((s.setGroup k { g with halt := .asked since true }).setGroup k { g with
        savedTrap := some g.trap, halt := .stopped 0xA2 false, run := { g.run with stopped := true }
        trap := { cause := 0xA2 + 2 ^ 9, pc := (s.nextIssue k).1, addr := g.trap.addr, lanes := (s.nextIssue k).2.1 } })) ∧
    (∀ (lo : Nat), (if g.trap.lanes = 0 then (g.lane lo).counts = true ∧ ∀ l, l < lo → (g.lane l).counts = false
        else inSet g.trap.lanes lo = true ∧ ∀ l, l < lo → inSet g.trap.lanes l = false) → lo < 64 →
      (g.trapPending = true → s.nextIssue k = ((s.gridOf g).record.handler, 1#64 <<< lo, true)) ∧
      (g.trapPending = false → g.handler = true → s.nextIssue k = (g.hpc, 1#64 <<< lo, g.hstart))) ∧
    (g.trapPending = false → g.handler = false → (∀ r rest, g.resumes = r :: rest → s.nextIssue k = (r.hdr, r.act, r.start)) ∧
      (g.resumes = [] → s.nextIssue k = match g.issueAddr with | some a => (a, g.lanesAt a, true) | none => (g.lastHdr, 0, false))) ∧
    (s.tick < since + (s.part (s.partOf g)).haltlim.toNat → exec (.haltLimitExpiry k) s = .next s)) ∧
  (∀ (s : State) (part : Nat),
    let resumed (g : Group) : Group := match g.halt with
      | .stopped c true => if g.cluster ∈ s.frozenOf part then
          { g with halt := .no, trap := g.savedTrap.getD g.trap, savedTrap := none, passed := passed c g } else g
      | _ => g
    Gives (exec (.dumpAttach part) s) (fun t => { t with clusters := s.clusters } = s ∧
      ∀ c, t.cluster c = if c ∈ s.frozenOf part then { s.cluster c with attached := true } else s.cluster c) ∧
    (s.frozenOf part ≠ [] → unanswered s → Settles (exec (.dumpRelease part) s) (fun u => { u with clusters := s.clusters, groups := s.groups } = s ∧
      (∀ c, u.cluster c = if c ∈ s.frozenOf part then { s.cluster c with frozen := none, attached := false } else s.cluster c) ∧
      ∀ k, u.group k = resumed (s.group k)))) ∧
  (∀ (s : State) (cl since : Nat),
    let c := s.cluster cl
    let hold := (s.part c.part).dumpHold
    let team := (s.group c.frozenGroup).team
    c.frozen = some since → c.attached = false → hold ≠ 0 → since + hold * 1500000 ≤ s.tick → (s.team team).levels = [] → s.openSlots = [] →
    Settles (exec (.dumpHoldExpiry cl) s) (fun u => (u.cluster cl).frozen = none ∧ u.mem = s.mem ∧
      ∀ k ∈ (s.team team).groups, (s.group k).retired = false → (s.group k).contained = none → u.containedWith k 0xA4)) ∧
  (∀ (s : State),
    let m := s.module
    let k := m.gsctl.toNat / 2 % 2 ^ 5
    let tick := s.tick / 2 ^ k * 2 ^ k
    (m.gsctl.getLsbD 0 = false ∨ tick ≤ m.gsLast → exec .ginghamSample s = .next s) ∧
    (m.gsctl.getLsbD 0 = true → m.gsLast < tick →
      (m.gs.full = true → Gives (exec .ginghamSample s) (fun t => t.mem = s.mem ∧ t.groups = s.groups ∧
        t.module = { m with gsLast := tick, gslost := m.gslost + 1 })) ∧
      (m.gs.full = false → Gives (exec .ginghamSample s) (fun t => t.groups = s.groups ∧
        t.module = { m with gsLast := tick, gs := m.gs.push, gsseq := m.gsseq + 1, gslost := 0, signals := m.signals ++ [0] } ∧
        Mem.readBytes t.mem (m.gs.base.toNat + 83328 * m.gs.tail) 17 = leBytes 8 tick ++ leBytes 4 m.gsseq ++ leBytes 4 m.gslost ++ leBytes 1 k))))

/-- R370, R374 to R376, R378, R380, R381, R384. Every 2^16 ticks each cluster's step goes up where module and partition exceed their limits, down where
both are below 95 hundredths, to 28 where the cap cannot be met; the ladder gives its budget, ratio and divisor; alarms move the droop penalty; the
meters take their shares. A droop alarm is counted and starts a stretch with the cycle after it, outside a stretch; one in a cycle to come or under way falls due when that cycle ends; a replay takes two cycles at half rate. A signed reading holds
what R384 lists, is written with its signature and counted. The corners of budgets and alarm counts and the passing of time in a replay are the
model's readings (log entries 56 and 59); an event out of turn changes nothing (log entry 21). -/
def Obligations.PowerEvents : Prop :=
  (∀ (s : State),
    let m := s.module
    let tick := m.ctlLast + 2 ^ 16
    let past (nj num den pct : Nat) : Bool := decide (num * pct * 131072 < nj * 3 * den * 100)
    let above (pct p : Nat) : Bool := past (s.partShare p) (s.budgetOf p).1 (s.budgetOf p).2 pct
    let floors := s.overParts (fun q => (s.part q).pfloor.toNat % 2 ^ 16)
    let step (c : Cluster) : Nat :=
      if m.modcap < m.idleFloor then 28
      else if c.enabled = false then min 28 (c.step + 1)
      else if past s.inputNj m.modcap 1 100 then
        (if above 100 c.part || (List.range 8).all (fun p => !above 100 p) then min 28 (c.step + 1) else c.step)
      else if past s.inputNj m.modcap 1 95 = false ∧ above 95 c.part = false then c.step - 1
      else c.step
    let budget (n : Nat) : Nat := if n ≤ 12 then 192 - 8 * n else if n ≤ 17 then 96 else if n ≤ 25 then 96 - 8 * (n - 17) else 32
    let ratio (n : Nat) : Nat := if n ≤ 12 then 8 else if n ≤ 16 then 20 - n else if n ≤ 25 then 4 else if n = 26 then 3 else 2
    let div (n : Nat) : Nat := if n ≤ 16 then 1 else if n ≤ 27 then 2 else 4
    let penalty (x : Slice) : Nat :=
      let up := if m.droopMax ≤ x.alarmsNow then min 6 (x.penalty + 1) else x.penalty
      if x.alarmsNow = 0 then up - 1 else up
    (s.tick < tick → exec .controlInterval s = .next s) ∧
    (tick ≤ s.tick → Gives (exec .controlInterval s) (fun t => t.mem = s.mem ∧ t.groups = s.groups ∧
      t.module.ctlLast = tick ∧ t.module.mettick = tick ∧ t.module.unmet = decide (m.modcap < m.idleFloor) ∧
      t.module.scaled = decide (m.idleFloor ≤ m.modcap ∧ m.modcap < m.idleFloor + floors) ∧ t.module.power = min 65535 (s.inputNj * 3 / 131072) ∧
      t.module.inpute = m.inpute + (m.inputCarry + s.inputNj) / 1000 ∧
      (∀ p, p < 8 → (t.part p).pmeter = (s.part p).pmeter + ((s.part p).pmeterCarry + s.partShare p) / 1000) ∧
      ∀ cl, cl < 160 → let n := step (s.cluster cl)
        (t.cluster cl).step = n ∧ (t.cluster cl).budget = budget n ∧ ∀ sl, sl < 6 → let x := (s.cluster cl).slice sl
          let y := (t.cluster cl).slice sl
          y.penalty = penalty x ∧ y.alarmsNow = 0 ∧ y.ratioNext = max 2 (min x.sliceMax (ratio n) - penalty x) ∧ y.passDivNext = div n))) ∧
  (∀ (s : State) (cl sl : Nat), cl < 160 → sl < 6 →
    let x := (s.cluster cl).slice sl
    let now := x.catchUp s.time
    let sets (i : Instr) (y : Slice) : Prop := exec i s = .next (s.onCluster cl (fun c => c.onSlice sl (fun _ => y)))
    let alarm : Slice := { now with alarms := (now.alarms + 1) % 2 ^ 16, alarmsNow := now.alarmsNow + 1 }
    let dt := 2 * (6720 / max 1 now.ratio)
    let replay : State := { s.onCluster cl (fun c => c.onSlice sl (fun _ =>
      { now with replays := (now.replays + 1) % 2 ^ 16, cycleTime := s.time + dt })) with time := s.time + dt }
    (x.droopThr ≠ 0 → now.cycleFrac = 0 → sets (.droopAlarm cl ⟨sl, 0⟩)
      (if now.slow then alarm else { alarm with stretch := now.stretchN, halved := now.halveN, window := now.halveN })) ∧
    (∀ after, x.droopThr ≠ 0 → now.cycleFrac ≠ 0 ∨ after ≠ 0 →
      let k := now.cycle + after - (if now.cycleFrac = 0 then 1 else 0)
      sets (.droopAlarm cl ⟨sl, after⟩) { now with due := now.due.filter (fun j => decide (j < k)) ++ k :: now.due.filter (fun j => decide (k < j)) }) ∧
    (∀ after, x.droopThr = 0 → exec (.droopAlarm cl ⟨sl, after⟩) s = .next s) ∧
    (x.stretch ≠ 0 → now.stretch = 0 → sets (.droopStretchEnd cl sl) now) ∧
    (x.halved ≠ 0 → now.halved = 0 → sets (.halvedWindowEnd cl sl) now) ∧
    (s.sliceBusy cl sl = false → ∀ again, exec (.timingReplay cl sl again) s = .next replay) ∧
    (exec (.timingReplay cl sl false) s = .next replay) ∧
    (∀ k g, (s.sliceGroups cl sl).find? (fun p => p.2.run.active) = some (k, g) → s.group k = g → g.contained = none → (s.team g.team).levels = [] → s.openSlots = [] →
      Settles (exec (.timingReplay cl sl true) s) (fun u => u.time = s.time + dt ∧ u.mem = s.mem ∧ u.containedWith k 0x94))) ∧
  (∀ (s : State) (value : BitVec 64),
    let m := s.module
    let part := value.toNat / 2 ^ 2 % 8
    let reading (type : Nat) (job : List (BitVec 8)) : List (BitVec 8) :=
      leBytes 2 1 ++ leBytes 1 type ++ leBytes 1 part ++ leBytes 4 m.gen ++ leBytes 8 (m.sigseq + 1) ++ leBytes 8 m.mettick ++ leBytes 8 m.signonce.toNat ++
      leBytes 8 (s.part part).pmeter ++ leBytes 8 m.house ++ leBytes 8 m.inpute ++ (job ++ List.replicate 32 0).take 32 ++ leBytes 8 m.serial.toNat
    let sets (i : Instr) (x : Module) : Prop := exec i s = .next { s with module := x }
    let job := (s.part part).jobs.find? (fun b => fieldAt b 24 4 == m.sigjob.toNat % 2 ^ 32)
    (value.getLsbD 0 = true → value.getLsbD 1 = false → m.sigData = none → sets (.signPartitionCounters value) { m with sigData := some (reading 0 []) }) ∧
    (value.getLsbD 0 = true → value.getLsbD 1 = true → m.sigData = none →
      (∀ b, job = some b → sets (.signJobRecord value) { m with sigData := some (reading 1 b) }) ∧
      (job = none → sets (.signJobRecord value) { m with sigMiss := true })) ∧
    (m.sigData ≠ none → exec (.signPartitionCounters value) s = .next s ∧ exec (.signJobRecord value) s = .next s) ∧
    (∀ bs, m.sigData = some bs → Gives (exec .signedReadingWritten s) (fun t => t.groups = s.groups ∧ t.teams = s.teams ∧
      t.module = { m with sigData := none, sigseq := m.sigseq + 1 } ∧ Mem.readBytes t.mem (m.sigbuf.toNat / 64 * 64) bs.length = bs)))

/-- R385, R386, R388, R389, R227, R394 to R396, R267. A half-line with no more wrong symbols than its bank's code corrects is counted, one with more is
poisoned; windows and re-encoding run by bank; ERRCTL clears a partition's counters. A cluster assignment takes effect when no team is resident. Host
windows, at 64 GiB × (8p + i) of their BAR, and fabric requests arrive inside their window, under the key of one partition, and are counted and dropped outside; one that has
arrived is performed at the performing point once what came before it has been and its lines are free, a poisoned read answered as poisoned. A packet of a collective is kept
and counted as received, unless its collective has ended; flits are counted at their port and for their key. The layout of a flit and the arguments of SCRUB_LINE
are the model's choices (log entries 15, 51 to 53, 56, 87, 21). -/
def Obligations.MemoryHealthHostAndFabric : Prop :=
  let arrived (s : State) (o : Outside) : State :=
    { s with outside := s.outside ++ [{ o with waited := (linesOf o.addr o.len).any s.tentative }], fresh := s.fresh + 1 }
  (∀ (s : State) (line half errors bank part : Nat),
    let m := s.module
    let strong := FMap.has m.strong bank
    let limit := if strong then 2 else 1
    let began := s.tick / 2 ^ 36 * 2 ^ 36
    let n := (if FMap.at 0 m.window bank = began then FMap.at 0 m.corrected bank else 0) + 1
    let queue := if m.scrubThresh ≠ 0 ∧ m.scrubThresh ≤ n ∧ strong = false ∧ bank ∉ m.bankQueue then m.bankQueue ++ [bank] else m.bankQueue
    (m.scrubEn = false → exec (.scrubLine line half errors bank part) s = .next s) ∧
    (m.scrubEn = true → errors ≠ 0 → errors ≤ limit → exec (.scrubLine line half errors bank part) s =
      .next { s.onPart part (fun p => { p with errcnt := FMap.put p.errcnt 0 (min (2 ^ 32 - 1) (FMap.at 0 p.errcnt 0 + 1)) }) with
        dramErr := FMap.del s.dramErr (2 * line + half % 2)
        module := { m with corrBank := FMap.put m.corrBank bank (FMap.at 0 m.corrBank bank + 1), corrected := FMap.put m.corrected bank n, window := FMap.put m.window bank began, bankQueue := queue } }) ∧
    (m.scrubEn = true → limit < errors → Gives (exec (.scrubLine line half errors bank part) s) (fun t => { t with poison := s.poison, dramErr := s.dramErr } = s ∧
      t.dramErr = FMap.del s.dramErr (2 * line + half % 2) ∧
      ∀ w, FMap.has t.poison w = (FMap.has s.poison w || decide (w / 16 = line * 2 + half % 2)))) ∧
    (FMap.at 0 m.window bank + 2 ^ 36 ≤ s.tick → exec (.scrubWindowExpiry bank) s =
      .next { s with module := { m with corrected := FMap.del m.corrected bank, window := FMap.put m.window bank began } }) ∧
    (∀ rest, m.scrubEn = true → m.bankQueue = bank :: rest → exec (.bankReencode bank) s =
      .next { s with module := { m with bankQueue := rest, strong := FMap.put m.strong bank (), signals := m.signals ++ [2] } }) ∧
    exec (.errctlClr part) s = .next (s.onPart part (fun p => { p with errcnt := [] }))) ∧
  (∀ (s : State) (cl : Nat) (value : BitVec 64), cl < 160 → Gives (exec (.classignWrite cl value) s) (fun t => { t with clusters := s.clusters } = s ∧
    (∀ c, c ≠ cl → t.cluster c = s.cluster c) ∧ t.cluster cl =
      if s.teams.any (fun x => x.2.place == .resident cl) then { s.cluster cl with held := some value }
      else { s.cluster cl with part := value.toNat % 8, enabled := value.getLsbD 3, held := none })) ∧
  (∀ (s : State) (part win off len : Nat) (bytes : List (BitVec 8)),
    let place := 2 ^ 36 * (8 * part + win) + off
    let p := place / 2 ^ 39
    let i := place / 2 ^ 36 % 8
    let reg (k : Nat) : Nat := (FMap.at (0 : DWord) (s.part p).hwin k).toNat
    let fits (n : Nat) : Prop := place % 2 ^ 36 + n ≤ reg (2 * i + 1) % 2 ^ 20 * 2 ^ 16
    let a := reg (2 * i) / 2 ^ 16 % 2 ^ 40 * 2 ^ 16 + place % 2 ^ 36
    let counted : State := s.onPart p (fun q => { q with errcnt := FMap.put q.errcnt 3 (min (2 ^ 32 - 1) (FMap.at 0 q.errcnt 3 + 1)) })
    let read : Outside := { num := s.fresh, port := none, part := p, kind := 0, addr := a, len := len }
    let write : Outside := { num := s.fresh, port := none, part := p, kind := 1, addr := a, len := bytes.length, data := bytes }
    (2 ^ 42 ≤ place → exec (.hostWindowRead part win off len) s = .next { s with hostRead := ([], false) } ∧ exec (.hostWindowWrite part win off bytes) s = .next s) ∧
    (place < 2 ^ 42 → ¬ fits len → exec (.hostWindowRead part win off len) s = .next { counted with hostRead := ([], false) }) ∧
    (place < 2 ^ 42 → fits len → Settles (exec (.hostWindowRead part win off len) s) (fun u => u = arrived s read)) ∧
    (place < 2 ^ 42 → ¬ fits bytes.length → exec (.hostWindowWrite part win off bytes) s = .next counted) ∧
    (place < 2 ^ 42 → fits bytes.length → Settles (exec (.hostWindowWrite part win off bytes) s) (fun u => u = arrived s write))) ∧
  (∀ (s : State) (o : Outside), o.reg = none →
    let lines := linesOf o.addr o.len
    let room : Prop := ∀ ln ∈ lines, (s.holderOf ln).isSome = true ∨ s.llcRoom ln = true
    (s.outsideReady o = true ↔ ((∀ x ∈ s.outside, x.before o = false) ∧ s.outsideWaits o.addr o.len = false ∧ s.outsideTurn o = true ∧ room)) ∧
    (s.outside = [] → s.accesses = [] → s.commands = [] → s.sectors = [] → s.teams = [] → room → s.outsideReady o = true)) ∧
  (∀ (s : State) (o : Outside), s.outside = [o] → o.reg = none →
    let bad := (wordsIn o.addr o.len).any (fun w => FMap.has s.poison w)
    let old := Mem.readBytes s.mem o.addr o.len
    let answered (u : State) (x : List (BitVec 8) × Bool) : Prop := u.hostRead = (if o.port = none then x else s.hostRead) ∧
      u.fabricRead = if o.port = none then s.fabricRead else x
    let done (u : State) : Prop := u.outside = [] ∧ { u with
      clusters := s.clusters, llc := s.llc, dies := s.dies, mem := s.mem, poison := s.poison, unsettled := s.unsettled, parts := s.parts, outside := s.outside
      hostRead := s.hostRead, fabricRead := s.fabricRead } = s
    (s.outsideReady o = false → s.drainOutside = s) ∧
    (s.outsideReady o = true → s.dramErr = [] →
      done s.drainOutside ∧
      (o.kind = 0 → answered s.drainOutside (old, bad) ∧ s.drainOutside.mem = s.mem ∧ s.drainOutside.poison = s.poison ∧ s.drainOutside.parts = s.parts) ∧
      (o.kind = 1 → s.drainOutside.mem = Mem.writeBytes s.mem o.addr o.data ∧ s.drainOutside.poison = clearPoison s.poison o.addr o.data.length ∧
        s.drainOutside.hostRead = s.hostRead ∧ s.drainOutside.fabricRead = s.fabricRead ∧
        ∀ p, s.drainOutside.part p = if o.port.isSome ∧ p = o.part then { s.part p with received := (s.part p).received + 1 } else s.part p) ∧
      (o.kind = 2 → bad = true → answered s.drainOutside (List.replicate o.len 0, true) ∧ s.drainOutside.mem = s.mem) ∧
      (o.kind = 2 → bad = false → ∀ r, (atomBytes o.op old o.data).1 = r → answered s.drainOutside (old, false) ∧
        s.drainOutside.mem = match r with | some new => Mem.writeBytes s.mem o.addr new | none => s.mem))) ∧
  (∀ (s0 : State) (port : Nat) (flit : List (BitVec 8)), port < 18 →
    let s : State := { s0 with module := { s0.module with flitsIn := FMap.put s0.module.flitsIn port (FMap.at 0 s0.module.flitsIn port + 1) } }
    let addr := fieldAt flit 8 8
    let len := fieldAt flit 4 1
    let kind := fieldAt flit 2 1
    let served (p : Nat) : Prop := (s.part p).partcfg.getLsbD 0 = true ∧ (s.part p).partcfg.toNat / 2 % 2 ^ 16 = fieldAt flit 0 2
    let dropped : List (BitVec 8) × Bool := (List.replicate len 0, true)
    let counts (u : State) : Prop := { u with parts := s.parts } = { s with fabricRead := dropped } ∧ ∀ p, p < 8 →
      (served p → u.part p = { s.part p with errcnt := FMap.put (s.part p).errcnt 3 (min (2 ^ 32 - 1) (FMap.at 0 (s.part p).errcnt 3 + 1)) }) ∧
      (¬ served p → u.part p = s.part p)
    ((∀ p, p < 8 → ¬ served p) → exec (.fabricAccess port flit) s0 = .next { s with fabricRead := dropped }) ∧
    ((∃ p q, p < 8 ∧ q < 8 ∧ p ≠ q ∧ served p ∧ served q) →
      (3 ≤ kind → exec (.fabricAccess port flit) s0 = .next { s with fabricRead := dropped }) ∧
      (kind < 3 → Gives (exec (.fabricAccess port flit) s0) counts)) ∧
    (∀ p, p < 8 → served p → (∀ q, q < 8 → served q → q = p) →
      let reg (i : Nat) : Nat := (FMap.at (0 : DWord) (s.part p).fwin i).toNat
      let win := addr / 2 ^ 35 % 8
      let fits : Prop := addr % 2 ^ 35 + len ≤ reg (2 * win + 1) % 2 ^ 20 * 2 ^ 16
      let a := reg (2 * win) / 2 ^ 16 % 2 ^ 40 * 2 ^ 16 + addr % 2 ^ 35
      let o : Outside := { num := s.fresh, port := some port, part := p, kind := kind, op := fieldAt flit 3 1, addr := a, len := len
                           data := if kind = 1 then (flit.drop 16).take len else flit.drop 16 }
      let packet : Packet := { part := p, members := addr, key := fieldAt flit 0 2, kind := fieldAt flit 3 1, rank := fieldAt flit 16 4, seq := fieldAt flit 20 4
                               data := flit.drop 24 }
      let mine (c : Command) : Prop := c.op = 0x08 ∧ c.part = p ∧ (commOf c.src).members = addr ∧ (commOf c.src).key = fieldAt flit 0 2
      let keyed : State := { s with module := { s.module with flits := FMap.put s.module.flits p (FMap.at 0 s.module.flits p + 1) } }
      let kept (arrives : Bool) (n : BitVec 64) : Prop := exec (.fabricAccess port flit) s0 = .next { keyed with
        fabric := if arrives then s.fabric ++ [packet] else s.fabric, parts := FMap.put s.parts p { s.part p with received := (s.part p).received + n } }
      ((s.part p).fenced = true → (3 ≤ kind → exec (.fabricAccess port flit) s0 = .next { s with fabricRead := dropped }) ∧
        (kind < 3 → Gives (exec (.fabricAccess port flit) s0) counts)) ∧
      ((s.part p).fenced = false → 3 ≤ kind → (packet.kind = 2 → kept true 0) ∧
        (packet.kind ≠ 2 → ((∃ n c, FMap.look s.commands n = some c ∧ mine c ∧ c.seq % 2 ^ 32 = packet.seq) ∨
            (s.collsOf p { size := 0, rank := 0, members := addr, key := fieldAt flit 0 2, fan := 0 } ≤ packet.seq ∧ packet.seq < 2 ^ 31)) → kept true 1) ∧
        (packet.kind ≠ 2 → (∀ x ∈ s.commands, mine x.2 → x.2.seq % 2 ^ 32 ≠ packet.seq) →
          packet.seq < s.collsOf p { size := 0, rank := 0, members := addr, key := fieldAt flit 0 2, fan := 0 } →
          s.collsOf p { size := 0, rank := 0, members := addr, key := fieldAt flit 0 2, fan := 0 } ≤ 2 ^ 31 → kept false 1)) ∧
      ((s.part p).fenced = false → kind < 3 → ¬ fits → exec (.fabricAccess port flit) s0 = .next { keyed.onPart p (fun q =>
        { q with errcnt := FMap.put q.errcnt 3 (min (2 ^ 32 - 1) (FMap.at 0 q.errcnt 3 + 1)) }) with fabricRead := dropped }) ∧
      ((s.part p).fenced = false → kind < 3 → fits → Settles (exec (.fabricAccess port flit) s0) (fun u => u = arrived keyed o)))) ∧
  (∀ (s : State) (member port : Nat),
    exec (.fabricLinkFailure member) s = .next { s with down := FMap.put s.down member () } ∧
    (port < 18 → exec (.flitLinkCheckFailure port) s =
      .next { s with module := { s.module with
        portstat := FMap.put s.module.portstat port ((FMap.at 0 s.module.portstat port + 1) % 2 ^ 16), retries := FMap.put s.module.retries port (FMap.at 0 s.module.retries port + 1) } }))

/-- R3, R364, R369, R384, R391, R398. A cold reset leaves the state after reset, with GEN one more and the fuses, the reference counter and what lies outside
the module kept; a warm reset keeps device memory with its poison and the always-on domain, discards teams, clears PARTCFG, FENCESTAT and LQCTL.EN. A register
write sets the fields of the register at its offset, or nothing where it is read-only; HEAD of a ring is written by itself; four bytes of an eight-byte register leave the other four. After a reset bring-up goes on step by step from BOOTSTAT 0, or 3, or shows a failure
code; before its steps 1 and 4 the control space, or most of it, reads 0, and no queue can be enabled before step 6. That the reference count
is kept and what a warm reset keeps beyond the words of R398 is the model's choice (log entries 7, 9 and 55), and so are the length of a step of bring-up and what reads 0 (log entry 86). -/
def Obligations.ResetsAndRegisterWrites : Prop :=
  (∀ (s : State),
    let outside (t : State) : Prop := t.time = s.time ∧ t.hostMem = s.hostMem ∧ t.hostErr = s.hostErr ∧ t.remote = s.remote ∧
      t.remoteWin = s.remoteWin ∧ t.rails = s.rails ∧ t.down = s.down ∧ t.errors = s.errors
    let empty (t : State) : Prop := t.outside = [] ∧ t.fabric = [] ∧ t.grids = [] ∧ t.teams = [] ∧ t.groups = [] ∧ t.accesses = [] ∧ t.producers = [] ∧ t.commands = [] ∧ t.objects = [] ∧
      t.convs = [] ∧ t.sectors = [] ∧ t.pages = [] ∧ t.colls = [] ∧ t.unsettled = []
    Gives (exec .coldReset s) (fun t => outside t ∧ empty t ∧ t.mem = [] ∧ t.poison = [] ∧ t.dramErr = [] ∧ t.dies = [] ∧ t.llc = [] ∧ t.parts = [] ∧
      t.queues = [] ∧ (∀ c, { t.cluster c with slices := [] } = {}) ∧
      (∀ c i, c < 160 → i < 6 → (t.cluster c).slice i = { laneMap := ((s.cluster c).slice i).laneMap, cycleTime := s.time }) ∧
      t.module = { State.reset.module with bootstat := 0, gen := (s.module.gen + 1) % 2 ^ 32, idleFloor := s.module.idleFloor, serial := s.module.serial
                                           ctlLast := s.tick / 2 ^ 16 * 2 ^ 16 }) ∧
    Gives (exec .warmReset s) (fun t => outside t ∧ empty t ∧ t.mem = s.mem ∧ t.poison = s.poison ∧ t.dramErr = s.dramErr ∧
      t.module = { s.module with sigData := none, bootstat := 3, houseAll := true } ∧
      (∀ p, (t.part p).partcfg = 0 ∧ (t.part p).fenced = false ∧ (t.part p).savebase = (s.part p).savebase ∧ (t.part p).pmeter = (s.part p).pmeter ∧
        (t.part p).errcnt = (s.part p).errcnt ∧ (t.part p).jseq = (s.part p).jseq) ∧
      (∀ c, (t.cluster c).enabled = false ∧ (t.cluster c).step = 28 ∧ (t.cluster c).scratch = [] ∧ (t.cluster c).l1 = []) ∧
      (∀ c i, c < 160 → i < 6 → ((t.cluster c).slice i).laneMap = ((s.cluster c).slice i).laneMap) ∧
      (∀ q, (FMap.at {} t.queues q).ctl = (FMap.at ({} : HostQueue) s.queues q).ctl &&& ~~~(0x80#64)))) ∧
  (∀ (s : State) (p : Nat) (value : BitVec 64), p < 8 →
    let page := 0x1000000 + p * 0x100000
    let n := value.toNat
    let part (o : Nat) (x : Partition) : Prop := exec (.registerWrite { off := page + o } value) s = .next { s with parts := FMap.put s.parts p x }
    let half (o : Nat) (x : Partition) : Prop := exec (.registerWrite { off := page + o, half := true } value) s = .next { s with parts := FMap.put s.parts p x }
    let q := s.part p
    part 0x8 { q with savebase := value } ∧ part 0x10 { q with wdlimit := BitVec.ofNat 32 n } ∧ part 0x18 { q with pfloor := BitVec.ofNat 64 (n % 2 ^ 24) } ∧
    part 0x24 { q with prallow := BitVec.ofNat 64 (n % 2 ^ 32) } ∧ part 0x48 { q with haltlim := BitVec.ofNat 32 n } ∧
    part 0x4C { q with dumpEn := value.getLsbD 0, dumpHold := n / 2 ^ 8 % 2 ^ 24 } ∧ part 0x318 { q with tlbinva := BitVec.ofNat 64 (n / 2 ^ 16 % 2 ^ 40 * 2 ^ 16) } ∧
    (∀ i, i < 16 → part (0x100 + 16 * i) { q with bpaddr := FMap.put q.bpaddr i value } ∧
      part (0x108 + 16 * i) { q with bpctl := FMap.put q.bpctl i (BitVec.ofNat 32 (n % 2 ^ 20)) } ∧
      let w : DWord := BitVec.ofNat 64 (if i % 2 = 0 then n / 2 ^ 16 % 2 ^ 40 * 2 ^ 16 else n % 2 ^ 20)
      part (0x400 + 8 * i) { q with hwin := FMap.put q.hwin i w } ∧ part (0x500 + 8 * i) { q with fwin := FMap.put q.fwin i w }) ∧
    half 0x8 { q with savebase := BitVec.ofNat 64 (q.savebase.toNat / 2 ^ 32 * 2 ^ 32 + n % 2 ^ 32) } ∧
    half 0xC { q with savebase := BitVec.ofNat 64 (q.savebase.toNat % 2 ^ 32 + n % 2 ^ 32 * 2 ^ 32) } ∧
    (∀ o ∈ [0x28, 0x44, 0x700, 0x708], exec (.registerWrite { off := page + o } value) s = .next s)) ∧
  (∀ (s : State) (k : Nat) (value : BitVec 64), k < 32 →
    let x := FMap.at ({} : HostQueue) s.queues k
    let n := value.toNat
    let queue (o : Nat) (y : HostQueue) : Prop := exec (.registerWrite { off := 0x30000 + 0x20 * k + o } value) s = .next { s with queues := FMap.put s.queues k y }
    (x.ctl.getLsbD 7 = false ∨ x.head = x.tail) → queue 0 { x with base := BitVec.ofNat 64 (n / 128 * 128) } ∧
      queue 8 { x with ctl := BitVec.ofNat 64 (n % (if s.module.bootstat % 16 < 6 then 2 ^ 7 else 2 ^ 8) +
        if x.ctl.getLsbD 8 = true ∧ value.getLsbD 8 = false then 2 ^ 8 else 0) }) ∧
  (∀ (s : State) (value : BitVec 64),
    let module_ (off : Nat) (x : Module) : Prop := exec (.registerWrite { off := off } value) s = .next { s with module := x }
    let m := s.module
    module_ 0x1000 { m with modcap := value.toNat % 2 ^ 16 } ∧ module_ 0x100C { m with droopMax := value.toNat % 2 ^ 16 } ∧
    module_ 0x20100 { m with scrubEn := value.getLsbD 0, scrubPass := max 1 (value.toNat / 2 % 2 ^ 8), scrubThresh := value.toNat / 2 ^ 9 % 2 ^ 16 } ∧
    module_ 0x40110 { m with signonce := value } ∧ module_ 0x40118 { m with sigbuf := value } ∧
    (∀ off ∈ [0x0, 0x8, 0x18, 0x1004, 0x1008, 0x40248, 0x40250], exec (.registerWrite { off := off } value) s = .next s)) ∧
  (∀ s : State, s.dueErrors = [] → s.nextReg = none → s.agenda = [] → (∀ g ∈ s.groups, g.2.run.active = false) → s.me.run.active = false → s.module.bootstat < 6 →
    ∃ n, step s = .next (State.noteCode s (State.takeSamples s (State.charge s (s.settleAfter { s with
      time := s.time + 840, fresh := s.fresh + 1, module := { s.module with bootstat := n } })))) ∧
      (n = s.module.bootstat % 16 + 1 ∨ ∃ code : Nat, 0 < code ∧ n = s.module.bootstat % 16 + code * 2 ^ 16)) ∧
  (∀ (s : State) (off : Nat), (s.module.bootstat % 16 = 0 → s.readControl off = 0) ∧
    (s.module.bootstat % 16 < 4 → 0x10 ≤ off → off ≠ 0x18 → s.readControl off = 0)) ∧
  (∀ (s : State) (p : Nat) (value : BitVec 32), p < 8 →
    let page := 0x1000000 + p * 0x100000
    let h := value.toNat % 2 ^ 16
    exec (.ringHeadWrite (page + 0x208) value) s = .next (s.onPart p (fun q => { q with rl := { q.rl with head := h } })).settleAll ∧
    exec (.ringHeadWrite (page + 0x228) value) s = .next (s.onPart p (fun q => { q with jr := { q.jr with head := h } })).settleAll ∧
    exec (.ringHeadWrite 0x40010 value) s = .next { s with module := { s.module with gs := { s.module.gs with head := h } } } ∧
    ((∀ r ∈ s.pages, r.part = p → r.sent = true) →
      exec (.ringHeadWrite (page + 0x308) value) s = .next (s.onPart p (fun q => { q with pfq := { q.pfq with head := h } })).settleAll))

/-! ### The step, the encodings, reset and the invariant -/

/-- R24, R25, R30, R36, R342, and the model's own agenda (log entry 1). A step runs the instruction that stands next: a control-space write of the host that
waited for the host writes before it (R391), else the head of the agenda, which waits so itself where it is such a write; else, in the
run of a resident group, the word at the run's index, with what follows a word, or cause 0x0F for a word that a handler may not execute; else, with no
clause latched, the first word of the clause at the run's address, fetched and judged whole, whose conditions are met, on the state in which that
clause is latched and nothing else has changed but cached translations. The first word of a clause with S set takes SAFEORD with it (R357; when it can be
read is log entry 76). A word waits until what it reads of the run's short-latency words may be read, four cycles after their last
passes (R106, R131); in a mix clause it starts two slice cycles after the one before (R202).
Errors of arrays that have come to light act first (R387), an access from outside that need wait no longer is performed (R242), and the host reaches no BAR before step 5 of bring-up
(R398). What relaxed atomics have written reaches the other clusters with every step that orders anything (log entry 70). The ticks that pass are charged (R349), samples are taken (R364), the cycles of the slices counted (R366), and code words that the step overwrote are noted for later fetches (R402). How ticks are charged is log entry
58, which earlier values of code are noted log entry 13. -/
def Obligations.StepRunsTheDecodedInstruction : Prop :=
  let after (s t : State) : State := State.noteCode s (State.takeSamples s (State.charge s (s.settleAfter t)))
  (∀ s : State, s.act = s.settleErrors.act ∧ (∀ t, s.act = .next t → step s = .next (after s t)) ∧ (s.dueErrors = [] → s.settleErrors = s)) ∧
  (∀ (s t : State) (i : Instr) (rest : List Instr), s.dueErrors = [] → s.nextReg = none → s.agenda = i :: rest → (isRegWrite i = false ∨ s.regWaits s.fresh = false) →
    (isBarAccess i = false ∨ 5 ≤ s.module.bootstat % 16) → exec i { s with agenda := rest } = .next t → step s = .next (after s t)) ∧
  (∀ (s : State) (i : Instr) (rest : List Instr), s.dueErrors = [] → s.nextReg = none → s.agenda = i :: rest → isBarAccess i = true →
    (s.module.bootstat % 16 < 5 → step s = .next (after s { s with agenda := rest })) ∧
    (5 ≤ s.module.bootstat % 16 → isRegWrite i = true → s.regWaits s.fresh = true → step s = .next (after s ({ s with agenda := rest }.queueReg i)))) ∧
  (∀ (s t : State) (o : Outside) (i : Instr), s.dueErrors = [] → s.nextReg = some (o, i) → o ∈ s.outside ∧ o.reg = some i ∧
    (∀ x ∈ s.outside, x.num < o.num → x.port = none → x.kind ≠ 1 ∧ x.reg = none) ∧
    (exec i { s with outside := s.outside.erase o } = .next t → step s = .next (after s t))) ∧
  (∀ s : State, s.dueErrors = [] → s.nextReg = none → s.agenda = [] → s.me.run.active = false → (∀ g ∈ s.groups, g.2.run.active = false) → 6 ≤ s.module.bootstat →
    (∃ o ∈ s.outside, s.outsideReady o = true) → step s = .next (after s s.drainOutside)) ∧
  (∀ (s : State),
    let x := (s.sliceOf s.me).catchUp s.time
    { s.spaced with time := s.time, clusters := s.clusters } = s ∧ (hdrEng s.me.run.head ≠ 4 → s.spaced = s) ∧
    (s.me.run.idx = 0 ∨ x.wordAt + 2 ≤ x.cycle → s.spaced.time = s.time) ∧
    (∀ c, { s.spaced.cluster c with slices := (s.cluster c).slices } = s.cluster c)) ∧
  (∀ (s : State),
    let r := s.me.run
    let ks := readKeys (r.words.getD r.idx 0) (r.words.getD (r.idx + 1) 0)
    { s.interlock with time := s.time, clusters := s.clusters } = s ∧
    (∀ c, { s.interlock.cluster c with slices := (s.cluster c).slices } = s.cluster c) ∧
    ((∀ k ∈ ks, FMap.at 0 r.ready k ≤ ((s.sliceOf s.me).catchUp s.time).cycle) → s.interlock = s) ∧
    (∀ k ∈ ks, FMap.at 0 r.ready k ≤ (s.interlock.sliceOf s.me).cycleAt s.interlock.time)) ∧
  (∀ (s : State) (w x : Word),
    { s.noteWritten w x with groups := s.groups } = s ∧ (∀ k, k ≠ s.cur → (s.noteWritten w x).group k = s.group k) ∧
    { (s.noteWritten w x).me with run := { (s.noteWritten w x).me.run with ready := s.me.run.ready } } = s.me ∧
    (shortKeys w x = [] → s.noteWritten w x = s) ∧
    (s.me.run.active = true → s.me.run.stopped = false → s.me.run.quit = false → ∀ k, FMap.at 0 (s.noteWritten w x).me.run.ready k =
      if k ∈ shortKeys w x then (s.sliceOf s.me).cycleAt s.time + 3 else FMap.at 0 s.me.run.ready k)) ∧
  (∀ (s : State), s.dueErrors = [] → s.nextReg = none → s.agenda = [] → s.me.run.active = true → s.me.run.stopped = false → s.me.contained = none → s.me.resident = true → s.me.retired = false →
    let k := s.cur
    let g := s.me
    let r := g.run
    (∀ w rest, r.words.drop r.idx = w :: rest →
      (∀ i t, (r.handler = true → handlerAllows w = true) → decodeWord r.idx w (rest.headD 0) = .ok i → exec i s.markSafe.noteBegin.interlock.spaced = .next t →
        step s = .next (after s ((s.keepSafe t).noteWritten w (rest.headD 0)).afterWord)) ∧
      ((r.idx ≠ 0 ∨ hdrSafe r.head = false) → s.markSafe = s ∧ ∀ t, s.keepSafe t = t) ∧
      (r.idx = 0 → hdrSafe r.head = true → s.markSafe = s.onMe (fun x => { x with safeord := s.safeOrd k r.hdr })) ∧
      (∀ t : State, t.me.resumes = g.resumes → t.me.hwait = .ready → s.keepSafe t = t) ∧
      s.noteBegin = s.onMe (fun x => { x with run := { x.run with began := s.tick } }) ∧
      (r.handler = true → handlerAllows w = false →
        step s = .next (after s (s.spaced.trapHere 0x0F (classOp w)).afterWord))) ∧
    (∀ h ws w rest, r.words = [] → (r.handler = true → handlerAllows w = true) →
      let s1 : State := { s with fresh := s.fresh + 1 }
      s1.fetchWord k r.hdr 0 = .word h → headerFault h = none → s1.fetchWords k r.hdr (hdrCount h) 0 = .ok ws → clauseFault h ws = none →
      (r.start = false ∨ (g.countersMet (hdrMask h) (hdrT h) = true ∧ (hdrFull h = false ∨ g.fullNeed r.act ws = []))) →
      r.used + (hdrCount h - r.idx) ≤ 24 → hdrSafe h = false →
      (r.first = false ∨ (r.rot = none ∧ ((s.sliceOf g).lastGroup = none ∨ (s.sliceOf g).lastGroup = some k))) →
      ws.drop r.idx = w :: rest →
      ∃ u : State, { u with fresh := s.fresh, clusters := s.clusters, dies := s.dies, groups := s.groups, parts := s.parts, time := s.time } = s ∧ u.fresh = s.fresh + 1 ∧
        u.time = (if r.first then s.align g.cluster g.slice else s).time ∧
        (∀ p, { u.part p with errcnt := (s.part p).errcnt } = s.part p) ∧
        (∀ c, { u.cluster c with tlb := (s.cluster c).tlb } = s.cluster c) ∧ (∀ d, { u.die d with tlb := (s.die d).tlb } = s.die d) ∧ s.othersSame u k ∧
        u.group k = { g with
          passed := if r.handler then g.passed else g.passed.filter (fun p => p.1 != r.hdr)
          yielded := if r.first then false else g.yielded, ran := if r.first then true else g.ran, run := { r with first := false, head := h, words := ws, start := false } } ∧
        ∀ i t, decodeWord r.idx w (rest.headD 0) = .ok i → exec i u.noteBegin.interlock.spaced = .next t →
          step s = .next (after s (t.noteWritten w (rest.headD 0)).afterWord)))

/-- R24, R28, R32 to R38, R40. Words written out field by field from the formats decode to the instructions they stand for; chapter 01's worked encodings
are among them, and a header is no instruction. -/
def Obligations.DecodedWords : Prop :=
  decodeTableWord 32 0x0D840308 = some (.vfma 4 1 66 false false) ∧
  decodeTableWord 32 0x004391C4 = some (.viadd 67 72 0x71 false false) ∧
  decodeTableWord 64 (0x62070899 + 0x00000010 * 2 ^ 32) = some (.ldWExt 7 4 2 1 4 16) ∧
  decodeTableWord 32 (1 * 2 ^ 29 + 0x00 * 2 ^ 24 + 3 * 2 ^ 17 + 0xFFFE) = some (.viaddi 3 false 0xFFFE) ∧
  decodeTableWord 32 (2 * 2 ^ 29 + 0x06 * 2 ^ 23 + 5 * 2 ^ 18 + 6 * 2 ^ 11 + 7 * 2 ^ 4 + 1 * 2 ^ 2 + 1 * 2) = some (.vcmpLtu 5 6 7 1 true false) ∧
  decodeTableWord 32 (2 * 2 ^ 29 + 0x11 * 2 ^ 23 + 1 * 2 ^ 18 + 2 * 2 ^ 11 + 31 * 2 ^ 4 + 3 * 2 ^ 2) = some (.pand 1 2 31 3) ∧
  decodeTableWord 32 (3 * 2 ^ 29 + 0x0C * 2 ^ 23 + 8 * 2 ^ 16 + 82 * 2 ^ 9 + 1 * 2 ^ 6 + 2 * 2 ^ 4 + 4 * 2) = some (.stD 8 82 1 2 4) ∧
  decodeTableWord 32 (4 * 2 ^ 29 + 0x11 * 2 ^ 23 + 5 * 2 ^ 18 + 6 * 2 ^ 13 + 0x1FFF) = some (.saddi 5 6 0x1FFF) ∧
  decodeTableWord 32 (4 * 2 ^ 29 + 0x20 * 2 ^ 23 + 3 * 2 ^ 18 + 1 * 2 ^ 17 + 0x1FFFC) = some (.bra 3 true 0x1FFFC) ∧
  decodeTableWord 32 (4 * 2 ^ 29 + 0x28 * 2 ^ 23 + 1 * 2 ^ 21 + 5 * 2 ^ 11 + 7) = some (.loopi 1 5 7) ∧
  decodeTableWord 32 (4 * 2 ^ 29 + 0x2E * 2 ^ 23 + 0xBEEF) = some (.trap 0xBEEF) ∧
  decodeTableWord 32 (5 * 2 ^ 29 + 0x02 * 2 ^ 23 + 4 * 2 ^ 18 + 2 * 2 ^ 15 + 1 * 2 ^ 7 + 9) = some (.accrd 4 2 true 9) ∧
  decodeTableWord 32 (5 * 2 ^ 29 + 0x16 * 2 ^ 23 + 3 * 2 ^ 15 + 200) = some (.evinc 3 200) ∧
  decodeTableWord 64 (6 * 2 ^ 29 + 0x07 * 2 ^ 23 + 10 * 2 ^ 16 + 1 * 2 ^ 9 + 2 * 2 ^ 2 + 1 * 2 +
      (4 * 2 ^ 25 + 31 * 2 ^ 20 + 0 * 2 ^ 19 + 1 * 2 ^ 16 + 15 * 2 ^ 12 + 1 * 2 ^ 8 + 2) * 2 ^ 32) = some (.vdeq 10 1 2 4 true false 31 false 1 15 1 2 false) ∧
  decodeTableWord 32 0xE4302080 = none

/-- R31 to R43, R66 to R74. Decoding the words that the encoder gives for a well-formed instruction gives that instruction back, for every word of every
class with every value of its operands; the events, and no others, have no word. -/
def Obligations.EncodingRoundTrip : Prop :=
  ∀ i : Instr, WellFormed i →
    (∀ w, encode i = [w] → decodeTableWord 32 w.toNat = some i) ∧
    (∀ w x, encode i = [w, x] → decodeTableWord 64 (w.toNat + x.toNat * 2 ^ 32) = some i) ∧
    (encode i = [] ∨ ∃ w, encode i = [w] ∨ ∃ x, encode i = [w, x]) ∧ (encode i = [] ↔ isEvent i = true)

/-- R391, R398 and the registers' own tables. After reset the module is at bring-up step 6, memory reads zero, nothing is resident, and the control space
reads the reset values that the spec gives; the memories are in their canonical form. -/
def Obligations.ResetState : Prop :=
  let s := State.reset
  let reads (off v : Nat) : Prop := s.readControl off = BitVec.ofNat 64 v
  MemoryCanonical s ∧ (∀ a, Mem.read s.mem a = 0) ∧ s.poison = [] ∧
  s.outside = [] ∧ s.fabric = [] ∧ s.grids = [] ∧ s.teams = [] ∧ s.groups = [] ∧ s.accesses = [] ∧ s.producers = [] ∧ s.commands = [] ∧ s.objects = [] ∧ s.convs = [] ∧ s.pages = [] ∧
  reads 0x0 0x90160 ∧ reads 0x18 6 ∧ reads 0x1000 3200 ∧ reads 0x1008 0 ∧ reads 0x100C 16 ∧ reads 0x20000 (384 + 16 * 2 ^ 9 + 16 * 2 ^ 14) ∧
  reads 0x20100 (1 + 24 * 2 + 64 * 2 ^ 9) ∧ reads 0x20104 0 ∧ reads 0x40000 (16 * 2) ∧ reads 0x60000 0 ∧
  (∀ c, c < 160 → reads (0x1100 + 4 * c) (28 + 32 * 2 ^ 5) ∧ reads (0x50000 + 4 * c) 0) ∧
  (∀ k, k < 960 → reads (0x10000 + 0x40 * k) (6 * 2 ^ 8 + 64 * 2 ^ 12 + 8 * 2 ^ 20) ∧ reads (0x10004 + 0x40 * k) (2 + 4 * 2 ^ 4) ∧ reads (0x10008 + 0x40 * k) 0) ∧
  (∀ q, q < 32 → reads (0x30000 + 0x20 * q) 0 ∧ reads (0x30008 + 0x20 * q) 0 ∧ reads (0x30010 + 0x20 * q) 0) ∧
  (∀ p, p < 8 → let page := 0x1000000 + 0x100000 * p
    reads page 0 ∧ reads (page + 0x10) 0x40000 ∧ reads (page + 0x28) 0 ∧ reads (page + 0x44) 0 ∧ reads (page + 0x48) 0x100000 ∧ reads (page + 0x4C) (30000 * 2 ^ 8))

/-- A step that answers a next state keeps device memory, host memory and the memory behind the fabric in their canonical form: addresses rising, and no
entry equal to what an unlisted address reads as. The canonical form is the model's own (log entry 8 says what an unlisted address reads as). -/
def Obligations.MemoryStaysCanonical : Prop := ∀ s t : State, MemoryCanonical s → step s = .next t → MemoryCanonical t
end

