-- ==== Sys2Proof/Laws/FMap.lean ====
section
/-! SUPPORT. Laws of finite maps and of byte memories: a read after a write, and that every operation on a memory keeps its canonical form. -/
namespace Sys2Proof.Machine

variable {α β : Type}

@[simp] theorem FMap.look_nil (k : Nat) : FMap.look ([] : FMap α) k = none := rfl

@[simp] theorem FMap.look_put_self (m : FMap α) (k : Nat) (v : α) : FMap.look (FMap.put m k v) k = some v := by
  induction m with
  | nil => simp [FMap.put, FMap.look]
  | cons p m ih => obtain ⟨k', v'⟩ := p; unfold FMap.put; split_ifs <;> simp_all [FMap.look]

theorem FMap.look_put_ne (m : FMap α) {k j : Nat} (v : α) (h : j ≠ k) : FMap.look (FMap.put m k v) j = FMap.look m j := by
  induction m with
  | nil => simp [FMap.put, FMap.look, h.symm]
  | cons p m ih =>
    obtain ⟨k', v'⟩ := p
    unfold FMap.put
    split_ifs with h1 h2
    · subst h1; simp [FMap.look, h.symm]
    · simp [FMap.look, h.symm]
    · simp only [FMap.look, ih]

@[simp] theorem FMap.look_del_self (m : FMap α) (k : Nat) : FMap.look (FMap.del m k) k = none := by
  induction m with
  | nil => rfl
  | cons p m ih => obtain ⟨k', v'⟩ := p; unfold FMap.del; split_ifs <;> simp_all [FMap.look]

theorem FMap.look_del_ne (m : FMap α) {k j : Nat} (h : j ≠ k) : FMap.look (FMap.del m k) j = FMap.look m j := by
  induction m with
  | nil => rfl
  | cons p m ih =>
    obtain ⟨k', v'⟩ := p
    unfold FMap.del
    split_ifs with h1
    · subst h1; simp [FMap.look, h.symm, ih]
    · simp only [FMap.look, ih]

theorem FMap.look_put (m : FMap α) (k j : Nat) (v : α) : FMap.look (FMap.put m k v) j = if j = k then some v else FMap.look m j := by
  split_ifs with h
  · subst h; exact FMap.look_put_self m j v
  · exact FMap.look_put_ne m v h

@[simp] theorem FMap.at_put_self (d : α) (m : FMap α) (k : Nat) (v : α) : FMap.at d (FMap.put m k v) k = v := by simp [FMap.at]

theorem FMap.at_put_ne (d : α) (m : FMap α) {k j : Nat} (v : α) (h : j ≠ k) : FMap.at d (FMap.put m k v) j = FMap.at d m j := by
  simp [FMap.at, FMap.look_put_ne m v h]

/-- The value at a key after a write. -/
theorem FMap.at_put (d : α) (m : FMap α) (k j : Nat) (v : α) : FMap.at d (FMap.put m k v) j = if j = k then v else FMap.at d m j := by
  split_ifs with h
  · subst h; simp
  · exact FMap.at_put_ne d m v h

@[simp] theorem FMap.at_nil (d : α) (k : Nat) : FMap.at d ([] : FMap α) k = d := rfl

@[simp] theorem FMap.has_put_self (m : FMap α) (k : Nat) (v : α) : FMap.has (FMap.put m k v) k = true := by simp [FMap.has]

theorem FMap.look_mapVals (f : Nat → α → β) (m : FMap α) (k : Nat) : FMap.look (FMap.mapVals f m) k = (FMap.look m k).map (f k) := by
  induction m with
  | nil => rfl
  | cons p m ih =>
    obtain ⟨k', v'⟩ := p
    simp only [FMap.mapVals, List.map_cons, FMap.look] at *
    split_ifs with h
    · subst h; rfl
    · exact ih

/-- The value of a map tabulated over the first `n` keys. -/
theorem FMap.look_tab (f : Nat → α) (n k : Nat) : FMap.look ((List.range n).map (fun l => (l, f l))) k = if k < n then some (f k) else none := by
  induction n with
  | zero => rfl
  | succ n ih =>
    have app : ∀ (m m' : FMap α), FMap.look (m ++ m') k = (FMap.look m k).or (FMap.look m' k) := by
      intro m m'
      induction m with
      | nil => simp
      | cons p m ihm => obtain ⟨k', v'⟩ := p; simp only [List.cons_append, FMap.look]; split_ifs <;> simp_all
    rw [List.range_succ, List.map_append, app, ih]
    by_cases h : k < n
    · simp [h, Nat.lt_succ_of_lt h]
    · by_cases h' : k = n
      · subst h'; simp [FMap.look]
      · have : ¬ k < n + 1 := by omega
        simp [h, this, FMap.look, Ne.symm h']

/-! ### Canonical form -/

/-- Keys strictly rising, as a pairwise property. -/
theorem FMap.rising_iff (m : FMap α) : FMap.rising m = true ↔ m.Pairwise (fun p q => p.1 < q.1) := by
  induction m with
  | nil => simp [FMap.rising]
  | cons p m ih =>
    cases m with
    | nil => simp [FMap.rising]
    | cons q m =>
      obtain ⟨k, v⟩ := p
      obtain ⟨k', v'⟩ := q
      simp only [FMap.rising, Bool.and_eq_true, decide_eq_true_eq, ih]
      constructor
      · rintro ⟨h, hp⟩
        refine List.pairwise_cons.2 ⟨fun r hr => ?_, hp⟩
        rcases List.mem_cons.1 hr with rfl | hr
        · exact h
        · exact lt_trans h ((List.pairwise_cons.1 hp).1 r hr)
      · intro hp
        exact ⟨(List.pairwise_cons.1 hp).1 (k', v') (by simp), (List.pairwise_cons.1 hp).2⟩

theorem FMap.mem_put (m : FMap α) (k : Nat) (v : α) {p : Nat × α} (h : p ∈ FMap.put m k v) : p = (k, v) ∨ p ∈ m := by
  induction m with
  | nil => simpa [FMap.put] using h
  | cons q m ih =>
    obtain ⟨k', v'⟩ := q
    unfold FMap.put at h
    split_ifs at h <;> simp only [List.mem_cons] at h ⊢ <;> tauto

theorem FMap.mem_del (m : FMap α) (k : Nat) {p : Nat × α} (h : p ∈ FMap.del m k) : p ∈ m := by
  induction m with
  | nil => simp [FMap.del] at h
  | cons q m ih =>
    obtain ⟨k', v'⟩ := q
    unfold FMap.del at h
    split_ifs at h <;> simp only [List.mem_cons] at h ⊢ <;> tauto

theorem FMap.rising_put (m : FMap α) (k : Nat) (v : α) (h : FMap.rising m = true) : FMap.rising (FMap.put m k v) = true := by
  rw [FMap.rising_iff] at *
  induction m with
  | nil => simp [FMap.put]
  | cons q m ih =>
    obtain ⟨k', v'⟩ := q
    rw [List.pairwise_cons] at h
    unfold FMap.put
    split_ifs with h1 h2
    · subst h1; exact List.pairwise_cons.2 ⟨h.1, h.2⟩
    · refine List.pairwise_cons.2 ⟨fun p hp => ?_, List.pairwise_cons.2 h⟩
      rcases List.mem_cons.1 hp with rfl | hp
      · exact h2
      · exact lt_trans h2 (h.1 p hp)
    · refine List.pairwise_cons.2 ⟨fun p hp => ?_, ih h.2⟩
      rcases FMap.mem_put m k v hp with rfl | hp
      · show k' < k; omega
      · exact h.1 p hp

theorem FMap.del_sublist (m : FMap α) (k : Nat) : List.Sublist (FMap.del m k) m := by
  induction m with
  | nil => exact List.Sublist.refl _
  | cons q m ih =>
    obtain ⟨k', v'⟩ := q
    unfold FMap.del
    split_ifs
    · exact ih.cons _
    · exact ih.cons_cons _

theorem FMap.rising_sublist {m m' : FMap α} (s : List.Sublist m m') (h : FMap.rising m' = true) : FMap.rising m = true := by
  rw [FMap.rising_iff] at *
  exact h.sublist s

/-! ### Byte memories -/

/-- Any part of a canonical memory, in its order, is canonical. -/
theorem Mem.wf_sublist {m m' : Mem} (s : List.Sublist m m') (h : Mem.wf m' = true) : Mem.wf m = true := by
  simp only [Mem.wf, Bool.and_eq_true, List.all_eq_true] at *
  exact ⟨FMap.rising_sublist s h.1, fun p hp => h.2 p (s.subset hp)⟩

theorem Mem.wf_filter (m : Mem) (f : Nat × BitVec 8 → Bool) (h : Mem.wf m = true) : Mem.wf (List.filter f m) = true :=
  Mem.wf_sublist List.filter_sublist h

@[simp] theorem Mem.wf_nil : Mem.wf [] = true := rfl

/-- A write keeps the canonical form. -/
theorem Mem.wf_write (m : Mem) (a : Nat) (b : BitVec 8) (h : Mem.wf m = true) : Mem.wf (Mem.write m a b) = true := by
  unfold Mem.write
  split_ifs with hb
  · exact Mem.wf_sublist (FMap.del_sublist m a) h
  · simp only [Mem.wf, Bool.and_eq_true, List.all_eq_true, decide_eq_true_eq] at *
    refine ⟨FMap.rising_put m a b h.1, fun p hp => ?_⟩
    rcases FMap.mem_put m a b hp with rfl | hp
    · exact hb
    · exact h.2 p hp

/-- A run of writes keeps the canonical form. -/
theorem Mem.wf_writeBytes (m : Mem) (a : Nat) (bs : List (BitVec 8)) (h : Mem.wf m = true) : Mem.wf (Mem.writeBytes m a bs) = true := by
  induction bs generalizing m a with
  | nil => exact h
  | cons b bs ih => exact ih _ _ (Mem.wf_write m a b h)

@[simp] theorem Mem.read_write_self (m : Mem) (a : Nat) (b : BitVec 8) : Mem.read (Mem.write m a b) a = b := by
  unfold Mem.read Mem.write FMap.at
  split_ifs with h
  · simp [h]
  · simp

theorem Mem.read_write_ne (m : Mem) {a x : Nat} (b : BitVec 8) (h : x ≠ a) : Mem.read (Mem.write m a b) x = Mem.read m x := by
  unfold Mem.read Mem.write FMap.at
  split_ifs
  · rw [FMap.look_del_ne m h]
  · rw [FMap.look_put_ne m b h]

/-- A byte after a run of writes: one of the run where the run covers its address, else as before. -/
theorem Mem.read_writeBytes (m : Mem) (a x : Nat) (bs : List (BitVec 8)) :
    Mem.read (Mem.writeBytes m a bs) x = if a ≤ x ∧ x < a + bs.length then bs.getD (x - a) 0 else Mem.read m x := by
  induction bs generalizing m a with
  | nil => simp [Mem.writeBytes]
  | cons b bs ih =>
    simp only [Mem.writeBytes, ih, List.length_cons]
    by_cases hx : x = a
    · subst hx; simp
    · by_cases h1 : a + 1 ≤ x ∧ x < a + 1 + bs.length
      · have h2 : a ≤ x ∧ x < a + (bs.length + 1) := by omega
        have h3 : x - a = (x - (a + 1)) + 1 := by omega
        rw [if_pos h1, if_pos h2, h3]; simp
      · have h2 : ¬ (a ≤ x ∧ x < a + (bs.length + 1)) := by omega
        rw [if_neg h1, if_neg h2, Mem.read_write_ne _ _ hx]

@[simp] theorem Mem.readBytes_length (m : Mem) (a n : Nat) : (Mem.readBytes m a n).length = n := by
  induction n generalizing a with
  | zero => rfl
  | succ n ih => simp [Mem.readBytes, ih]

end Sys2Proof.Machine
end

