-- ==== Sys2Proof/Laws/State.lean ====
section
/-! SUPPORT. One lemma for each field of the state and each named update of it: what an update leaves as it was. -/
namespace Sys2Proof.Machine

@[simp] theorem State.setGroup_time (s : State) (k : Nat) (g : Group) : (s.setGroup k g).time = s.time := rfl
@[simp] theorem State.setGroup_mem (s : State) (k : Nat) (g : Group) : (s.setGroup k g).mem = s.mem := rfl
@[simp] theorem State.setGroup_poison (s : State) (k : Nat) (g : Group) : (s.setGroup k g).poison = s.poison := rfl
@[simp] theorem State.setGroup_hostMem (s : State) (k : Nat) (g : Group) : (s.setGroup k g).hostMem = s.hostMem := rfl
@[simp] theorem State.setGroup_hostErr (s : State) (k : Nat) (g : Group) : (s.setGroup k g).hostErr = s.hostErr := rfl
@[simp] theorem State.setGroup_dramErr (s : State) (k : Nat) (g : Group) : (s.setGroup k g).dramErr = s.dramErr := rfl
@[simp] theorem State.setGroup_remote (s : State) (k : Nat) (g : Group) : (s.setGroup k g).remote = s.remote := rfl
@[simp] theorem State.setGroup_remoteWin (s : State) (k : Nat) (g : Group) : (s.setGroup k g).remoteWin = s.remoteWin := rfl
@[simp] theorem State.setGroup_clusters (s : State) (k : Nat) (g : Group) : (s.setGroup k g).clusters = s.clusters := rfl
@[simp] theorem State.setGroup_dies (s : State) (k : Nat) (g : Group) : (s.setGroup k g).dies = s.dies := rfl
@[simp] theorem State.setGroup_llc (s : State) (k : Nat) (g : Group) : (s.setGroup k g).llc = s.llc := rfl
@[simp] theorem State.setGroup_parts (s : State) (k : Nat) (g : Group) : (s.setGroup k g).parts = s.parts := rfl
@[simp] theorem State.setGroup_queues (s : State) (k : Nat) (g : Group) : (s.setGroup k g).queues = s.queues := rfl
@[simp] theorem State.setGroup_module (s : State) (k : Nat) (g : Group) : (s.setGroup k g).module = s.module := rfl
@[simp] theorem State.setGroup_grids (s : State) (k : Nat) (g : Group) : (s.setGroup k g).grids = s.grids := rfl
@[simp] theorem State.setGroup_teams (s : State) (k : Nat) (g : Group) : (s.setGroup k g).teams = s.teams := rfl
@[simp] theorem State.setGroup_accesses (s : State) (k : Nat) (g : Group) : (s.setGroup k g).accesses = s.accesses := rfl
@[simp] theorem State.setGroup_producers (s : State) (k : Nat) (g : Group) : (s.setGroup k g).producers = s.producers := rfl
@[simp] theorem State.setGroup_commands (s : State) (k : Nat) (g : Group) : (s.setGroup k g).commands = s.commands := rfl
@[simp] theorem State.setGroup_objects (s : State) (k : Nat) (g : Group) : (s.setGroup k g).objects = s.objects := rfl
@[simp] theorem State.setGroup_unsettled (s : State) (k : Nat) (g : Group) : (s.setGroup k g).unsettled = s.unsettled := rfl
@[simp] theorem State.setGroup_convs (s : State) (k : Nat) (g : Group) : (s.setGroup k g).convs = s.convs := rfl
@[simp] theorem State.setGroup_sectors (s : State) (k : Nat) (g : Group) : (s.setGroup k g).sectors = s.sectors := rfl
@[simp] theorem State.setGroup_pages (s : State) (k : Nat) (g : Group) : (s.setGroup k g).pages = s.pages := rfl
@[simp] theorem State.setGroup_fabric (s : State) (k : Nat) (g : Group) : (s.setGroup k g).fabric = s.fabric := rfl
@[simp] theorem State.setGroup_colls (s : State) (k : Nat) (g : Group) : (s.setGroup k g).colls = s.colls := rfl
@[simp] theorem State.setGroup_outside (s : State) (k : Nat) (g : Group) : (s.setGroup k g).outside = s.outside := rfl
@[simp] theorem State.setGroup_codeOld (s : State) (k : Nat) (g : Group) : (s.setGroup k g).codeOld = s.codeOld := rfl
@[simp] theorem State.setGroup_errors (s : State) (k : Nat) (g : Group) : (s.setGroup k g).errors = s.errors := rfl
@[simp] theorem State.setGroup_down (s : State) (k : Nat) (g : Group) : (s.setGroup k g).down = s.down := rfl
@[simp] theorem State.setGroup_rails (s : State) (k : Nat) (g : Group) : (s.setGroup k g).rails = s.rails := rfl
@[simp] theorem State.setGroup_hostRead (s : State) (k : Nat) (g : Group) : (s.setGroup k g).hostRead = s.hostRead := rfl
@[simp] theorem State.setGroup_fabricRead (s : State) (k : Nat) (g : Group) : (s.setGroup k g).fabricRead = s.fabricRead := rfl
@[simp] theorem State.setGroup_agenda (s : State) (k : Nat) (g : Group) : (s.setGroup k g).agenda = s.agenda := rfl
@[simp] theorem State.setGroup_cur (s : State) (k : Nat) (g : Group) : (s.setGroup k g).cur = s.cur := rfl
@[simp] theorem State.setGroup_fresh (s : State) (k : Nat) (g : Group) : (s.setGroup k g).fresh = s.fresh := rfl

@[simp] theorem State.onGroup_time (s : State) (k : Nat) (f : Group → Group) : (s.onGroup k f).time = s.time := rfl
@[simp] theorem State.onGroup_mem (s : State) (k : Nat) (f : Group → Group) : (s.onGroup k f).mem = s.mem := rfl
@[simp] theorem State.onGroup_poison (s : State) (k : Nat) (f : Group → Group) : (s.onGroup k f).poison = s.poison := rfl
@[simp] theorem State.onGroup_hostMem (s : State) (k : Nat) (f : Group → Group) : (s.onGroup k f).hostMem = s.hostMem := rfl
@[simp] theorem State.onGroup_hostErr (s : State) (k : Nat) (f : Group → Group) : (s.onGroup k f).hostErr = s.hostErr := rfl
@[simp] theorem State.onGroup_dramErr (s : State) (k : Nat) (f : Group → Group) : (s.onGroup k f).dramErr = s.dramErr := rfl
@[simp] theorem State.onGroup_remote (s : State) (k : Nat) (f : Group → Group) : (s.onGroup k f).remote = s.remote := rfl
@[simp] theorem State.onGroup_remoteWin (s : State) (k : Nat) (f : Group → Group) : (s.onGroup k f).remoteWin = s.remoteWin := rfl
@[simp] theorem State.onGroup_clusters (s : State) (k : Nat) (f : Group → Group) : (s.onGroup k f).clusters = s.clusters := rfl
@[simp] theorem State.onGroup_dies (s : State) (k : Nat) (f : Group → Group) : (s.onGroup k f).dies = s.dies := rfl
@[simp] theorem State.onGroup_llc (s : State) (k : Nat) (f : Group → Group) : (s.onGroup k f).llc = s.llc := rfl
@[simp] theorem State.onGroup_parts (s : State) (k : Nat) (f : Group → Group) : (s.onGroup k f).parts = s.parts := rfl
@[simp] theorem State.onGroup_queues (s : State) (k : Nat) (f : Group → Group) : (s.onGroup k f).queues = s.queues := rfl
@[simp] theorem State.onGroup_module (s : State) (k : Nat) (f : Group → Group) : (s.onGroup k f).module = s.module := rfl
@[simp] theorem State.onGroup_grids (s : State) (k : Nat) (f : Group → Group) : (s.onGroup k f).grids = s.grids := rfl
@[simp] theorem State.onGroup_teams (s : State) (k : Nat) (f : Group → Group) : (s.onGroup k f).teams = s.teams := rfl
@[simp] theorem State.onGroup_accesses (s : State) (k : Nat) (f : Group → Group) : (s.onGroup k f).accesses = s.accesses := rfl
@[simp] theorem State.onGroup_producers (s : State) (k : Nat) (f : Group → Group) : (s.onGroup k f).producers = s.producers := rfl
@[simp] theorem State.onGroup_commands (s : State) (k : Nat) (f : Group → Group) : (s.onGroup k f).commands = s.commands := rfl
@[simp] theorem State.onGroup_objects (s : State) (k : Nat) (f : Group → Group) : (s.onGroup k f).objects = s.objects := rfl
@[simp] theorem State.onGroup_unsettled (s : State) (k : Nat) (f : Group → Group) : (s.onGroup k f).unsettled = s.unsettled := rfl
@[simp] theorem State.onGroup_convs (s : State) (k : Nat) (f : Group → Group) : (s.onGroup k f).convs = s.convs := rfl
@[simp] theorem State.onGroup_sectors (s : State) (k : Nat) (f : Group → Group) : (s.onGroup k f).sectors = s.sectors := rfl
@[simp] theorem State.onGroup_pages (s : State) (k : Nat) (f : Group → Group) : (s.onGroup k f).pages = s.pages := rfl
@[simp] theorem State.onGroup_fabric (s : State) (k : Nat) (f : Group → Group) : (s.onGroup k f).fabric = s.fabric := rfl
@[simp] theorem State.onGroup_colls (s : State) (k : Nat) (f : Group → Group) : (s.onGroup k f).colls = s.colls := rfl
@[simp] theorem State.onGroup_outside (s : State) (k : Nat) (f : Group → Group) : (s.onGroup k f).outside = s.outside := rfl
@[simp] theorem State.onGroup_codeOld (s : State) (k : Nat) (f : Group → Group) : (s.onGroup k f).codeOld = s.codeOld := rfl
@[simp] theorem State.onGroup_errors (s : State) (k : Nat) (f : Group → Group) : (s.onGroup k f).errors = s.errors := rfl
@[simp] theorem State.onGroup_down (s : State) (k : Nat) (f : Group → Group) : (s.onGroup k f).down = s.down := rfl
@[simp] theorem State.onGroup_rails (s : State) (k : Nat) (f : Group → Group) : (s.onGroup k f).rails = s.rails := rfl
@[simp] theorem State.onGroup_hostRead (s : State) (k : Nat) (f : Group → Group) : (s.onGroup k f).hostRead = s.hostRead := rfl
@[simp] theorem State.onGroup_fabricRead (s : State) (k : Nat) (f : Group → Group) : (s.onGroup k f).fabricRead = s.fabricRead := rfl
@[simp] theorem State.onGroup_agenda (s : State) (k : Nat) (f : Group → Group) : (s.onGroup k f).agenda = s.agenda := rfl
@[simp] theorem State.onGroup_cur (s : State) (k : Nat) (f : Group → Group) : (s.onGroup k f).cur = s.cur := rfl
@[simp] theorem State.onGroup_fresh (s : State) (k : Nat) (f : Group → Group) : (s.onGroup k f).fresh = s.fresh := rfl

@[simp] theorem State.onMe_time (s : State) (f : Group → Group) : (s.onMe f).time = s.time := rfl
@[simp] theorem State.onMe_mem (s : State) (f : Group → Group) : (s.onMe f).mem = s.mem := rfl
@[simp] theorem State.onMe_poison (s : State) (f : Group → Group) : (s.onMe f).poison = s.poison := rfl
@[simp] theorem State.onMe_hostMem (s : State) (f : Group → Group) : (s.onMe f).hostMem = s.hostMem := rfl
@[simp] theorem State.onMe_hostErr (s : State) (f : Group → Group) : (s.onMe f).hostErr = s.hostErr := rfl
@[simp] theorem State.onMe_dramErr (s : State) (f : Group → Group) : (s.onMe f).dramErr = s.dramErr := rfl
@[simp] theorem State.onMe_remote (s : State) (f : Group → Group) : (s.onMe f).remote = s.remote := rfl
@[simp] theorem State.onMe_remoteWin (s : State) (f : Group → Group) : (s.onMe f).remoteWin = s.remoteWin := rfl
@[simp] theorem State.onMe_clusters (s : State) (f : Group → Group) : (s.onMe f).clusters = s.clusters := rfl
@[simp] theorem State.onMe_dies (s : State) (f : Group → Group) : (s.onMe f).dies = s.dies := rfl
@[simp] theorem State.onMe_llc (s : State) (f : Group → Group) : (s.onMe f).llc = s.llc := rfl
@[simp] theorem State.onMe_parts (s : State) (f : Group → Group) : (s.onMe f).parts = s.parts := rfl
@[simp] theorem State.onMe_queues (s : State) (f : Group → Group) : (s.onMe f).queues = s.queues := rfl
@[simp] theorem State.onMe_module (s : State) (f : Group → Group) : (s.onMe f).module = s.module := rfl
@[simp] theorem State.onMe_grids (s : State) (f : Group → Group) : (s.onMe f).grids = s.grids := rfl
@[simp] theorem State.onMe_teams (s : State) (f : Group → Group) : (s.onMe f).teams = s.teams := rfl
@[simp] theorem State.onMe_accesses (s : State) (f : Group → Group) : (s.onMe f).accesses = s.accesses := rfl
@[simp] theorem State.onMe_producers (s : State) (f : Group → Group) : (s.onMe f).producers = s.producers := rfl
@[simp] theorem State.onMe_commands (s : State) (f : Group → Group) : (s.onMe f).commands = s.commands := rfl
@[simp] theorem State.onMe_objects (s : State) (f : Group → Group) : (s.onMe f).objects = s.objects := rfl
@[simp] theorem State.onMe_unsettled (s : State) (f : Group → Group) : (s.onMe f).unsettled = s.unsettled := rfl
@[simp] theorem State.onMe_convs (s : State) (f : Group → Group) : (s.onMe f).convs = s.convs := rfl
@[simp] theorem State.onMe_sectors (s : State) (f : Group → Group) : (s.onMe f).sectors = s.sectors := rfl
@[simp] theorem State.onMe_pages (s : State) (f : Group → Group) : (s.onMe f).pages = s.pages := rfl
@[simp] theorem State.onMe_fabric (s : State) (f : Group → Group) : (s.onMe f).fabric = s.fabric := rfl
@[simp] theorem State.onMe_colls (s : State) (f : Group → Group) : (s.onMe f).colls = s.colls := rfl
@[simp] theorem State.onMe_outside (s : State) (f : Group → Group) : (s.onMe f).outside = s.outside := rfl
@[simp] theorem State.onMe_codeOld (s : State) (f : Group → Group) : (s.onMe f).codeOld = s.codeOld := rfl
@[simp] theorem State.onMe_errors (s : State) (f : Group → Group) : (s.onMe f).errors = s.errors := rfl
@[simp] theorem State.onMe_down (s : State) (f : Group → Group) : (s.onMe f).down = s.down := rfl
@[simp] theorem State.onMe_rails (s : State) (f : Group → Group) : (s.onMe f).rails = s.rails := rfl
@[simp] theorem State.onMe_hostRead (s : State) (f : Group → Group) : (s.onMe f).hostRead = s.hostRead := rfl
@[simp] theorem State.onMe_fabricRead (s : State) (f : Group → Group) : (s.onMe f).fabricRead = s.fabricRead := rfl
@[simp] theorem State.onMe_agenda (s : State) (f : Group → Group) : (s.onMe f).agenda = s.agenda := rfl
@[simp] theorem State.onMe_cur (s : State) (f : Group → Group) : (s.onMe f).cur = s.cur := rfl
@[simp] theorem State.onMe_fresh (s : State) (f : Group → Group) : (s.onMe f).fresh = s.fresh := rfl

@[simp] theorem State.setTeam_time (s : State) (k : Nat) (t : Team) : (s.setTeam k t).time = s.time := rfl
@[simp] theorem State.setTeam_mem (s : State) (k : Nat) (t : Team) : (s.setTeam k t).mem = s.mem := rfl
@[simp] theorem State.setTeam_poison (s : State) (k : Nat) (t : Team) : (s.setTeam k t).poison = s.poison := rfl
@[simp] theorem State.setTeam_hostMem (s : State) (k : Nat) (t : Team) : (s.setTeam k t).hostMem = s.hostMem := rfl
@[simp] theorem State.setTeam_hostErr (s : State) (k : Nat) (t : Team) : (s.setTeam k t).hostErr = s.hostErr := rfl
@[simp] theorem State.setTeam_dramErr (s : State) (k : Nat) (t : Team) : (s.setTeam k t).dramErr = s.dramErr := rfl
@[simp] theorem State.setTeam_remote (s : State) (k : Nat) (t : Team) : (s.setTeam k t).remote = s.remote := rfl
@[simp] theorem State.setTeam_remoteWin (s : State) (k : Nat) (t : Team) : (s.setTeam k t).remoteWin = s.remoteWin := rfl
@[simp] theorem State.setTeam_clusters (s : State) (k : Nat) (t : Team) : (s.setTeam k t).clusters = s.clusters := rfl
@[simp] theorem State.setTeam_dies (s : State) (k : Nat) (t : Team) : (s.setTeam k t).dies = s.dies := rfl
@[simp] theorem State.setTeam_llc (s : State) (k : Nat) (t : Team) : (s.setTeam k t).llc = s.llc := rfl
@[simp] theorem State.setTeam_parts (s : State) (k : Nat) (t : Team) : (s.setTeam k t).parts = s.parts := rfl
@[simp] theorem State.setTeam_queues (s : State) (k : Nat) (t : Team) : (s.setTeam k t).queues = s.queues := rfl
@[simp] theorem State.setTeam_module (s : State) (k : Nat) (t : Team) : (s.setTeam k t).module = s.module := rfl
@[simp] theorem State.setTeam_grids (s : State) (k : Nat) (t : Team) : (s.setTeam k t).grids = s.grids := rfl
@[simp] theorem State.setTeam_groups (s : State) (k : Nat) (t : Team) : (s.setTeam k t).groups = s.groups := rfl
@[simp] theorem State.setTeam_accesses (s : State) (k : Nat) (t : Team) : (s.setTeam k t).accesses = s.accesses := rfl
@[simp] theorem State.setTeam_producers (s : State) (k : Nat) (t : Team) : (s.setTeam k t).producers = s.producers := rfl
@[simp] theorem State.setTeam_commands (s : State) (k : Nat) (t : Team) : (s.setTeam k t).commands = s.commands := rfl
@[simp] theorem State.setTeam_objects (s : State) (k : Nat) (t : Team) : (s.setTeam k t).objects = s.objects := rfl
@[simp] theorem State.setTeam_unsettled (s : State) (k : Nat) (t : Team) : (s.setTeam k t).unsettled = s.unsettled := rfl
@[simp] theorem State.setTeam_convs (s : State) (k : Nat) (t : Team) : (s.setTeam k t).convs = s.convs := rfl
@[simp] theorem State.setTeam_sectors (s : State) (k : Nat) (t : Team) : (s.setTeam k t).sectors = s.sectors := rfl
@[simp] theorem State.setTeam_pages (s : State) (k : Nat) (t : Team) : (s.setTeam k t).pages = s.pages := rfl
@[simp] theorem State.setTeam_fabric (s : State) (k : Nat) (t : Team) : (s.setTeam k t).fabric = s.fabric := rfl
@[simp] theorem State.setTeam_colls (s : State) (k : Nat) (t : Team) : (s.setTeam k t).colls = s.colls := rfl
@[simp] theorem State.setTeam_outside (s : State) (k : Nat) (t : Team) : (s.setTeam k t).outside = s.outside := rfl
@[simp] theorem State.setTeam_codeOld (s : State) (k : Nat) (t : Team) : (s.setTeam k t).codeOld = s.codeOld := rfl
@[simp] theorem State.setTeam_errors (s : State) (k : Nat) (t : Team) : (s.setTeam k t).errors = s.errors := rfl
@[simp] theorem State.setTeam_down (s : State) (k : Nat) (t : Team) : (s.setTeam k t).down = s.down := rfl
@[simp] theorem State.setTeam_rails (s : State) (k : Nat) (t : Team) : (s.setTeam k t).rails = s.rails := rfl
@[simp] theorem State.setTeam_hostRead (s : State) (k : Nat) (t : Team) : (s.setTeam k t).hostRead = s.hostRead := rfl
@[simp] theorem State.setTeam_fabricRead (s : State) (k : Nat) (t : Team) : (s.setTeam k t).fabricRead = s.fabricRead := rfl
@[simp] theorem State.setTeam_agenda (s : State) (k : Nat) (t : Team) : (s.setTeam k t).agenda = s.agenda := rfl
@[simp] theorem State.setTeam_cur (s : State) (k : Nat) (t : Team) : (s.setTeam k t).cur = s.cur := rfl
@[simp] theorem State.setTeam_fresh (s : State) (k : Nat) (t : Team) : (s.setTeam k t).fresh = s.fresh := rfl

@[simp] theorem State.onTeam_time (s : State) (k : Nat) (f : Team → Team) : (s.onTeam k f).time = s.time := rfl
@[simp] theorem State.onTeam_mem (s : State) (k : Nat) (f : Team → Team) : (s.onTeam k f).mem = s.mem := rfl
@[simp] theorem State.onTeam_poison (s : State) (k : Nat) (f : Team → Team) : (s.onTeam k f).poison = s.poison := rfl
@[simp] theorem State.onTeam_hostMem (s : State) (k : Nat) (f : Team → Team) : (s.onTeam k f).hostMem = s.hostMem := rfl
@[simp] theorem State.onTeam_hostErr (s : State) (k : Nat) (f : Team → Team) : (s.onTeam k f).hostErr = s.hostErr := rfl
@[simp] theorem State.onTeam_dramErr (s : State) (k : Nat) (f : Team → Team) : (s.onTeam k f).dramErr = s.dramErr := rfl
@[simp] theorem State.onTeam_remote (s : State) (k : Nat) (f : Team → Team) : (s.onTeam k f).remote = s.remote := rfl
@[simp] theorem State.onTeam_remoteWin (s : State) (k : Nat) (f : Team → Team) : (s.onTeam k f).remoteWin = s.remoteWin := rfl
@[simp] theorem State.onTeam_clusters (s : State) (k : Nat) (f : Team → Team) : (s.onTeam k f).clusters = s.clusters := rfl
@[simp] theorem State.onTeam_dies (s : State) (k : Nat) (f : Team → Team) : (s.onTeam k f).dies = s.dies := rfl
@[simp] theorem State.onTeam_llc (s : State) (k : Nat) (f : Team → Team) : (s.onTeam k f).llc = s.llc := rfl
@[simp] theorem State.onTeam_parts (s : State) (k : Nat) (f : Team → Team) : (s.onTeam k f).parts = s.parts := rfl
@[simp] theorem State.onTeam_queues (s : State) (k : Nat) (f : Team → Team) : (s.onTeam k f).queues = s.queues := rfl
@[simp] theorem State.onTeam_module (s : State) (k : Nat) (f : Team → Team) : (s.onTeam k f).module = s.module := rfl
@[simp] theorem State.onTeam_grids (s : State) (k : Nat) (f : Team → Team) : (s.onTeam k f).grids = s.grids := rfl
@[simp] theorem State.onTeam_groups (s : State) (k : Nat) (f : Team → Team) : (s.onTeam k f).groups = s.groups := rfl
@[simp] theorem State.onTeam_accesses (s : State) (k : Nat) (f : Team → Team) : (s.onTeam k f).accesses = s.accesses := rfl
@[simp] theorem State.onTeam_producers (s : State) (k : Nat) (f : Team → Team) : (s.onTeam k f).producers = s.producers := rfl
@[simp] theorem State.onTeam_commands (s : State) (k : Nat) (f : Team → Team) : (s.onTeam k f).commands = s.commands := rfl
@[simp] theorem State.onTeam_objects (s : State) (k : Nat) (f : Team → Team) : (s.onTeam k f).objects = s.objects := rfl
@[simp] theorem State.onTeam_unsettled (s : State) (k : Nat) (f : Team → Team) : (s.onTeam k f).unsettled = s.unsettled := rfl
@[simp] theorem State.onTeam_convs (s : State) (k : Nat) (f : Team → Team) : (s.onTeam k f).convs = s.convs := rfl
@[simp] theorem State.onTeam_sectors (s : State) (k : Nat) (f : Team → Team) : (s.onTeam k f).sectors = s.sectors := rfl
@[simp] theorem State.onTeam_pages (s : State) (k : Nat) (f : Team → Team) : (s.onTeam k f).pages = s.pages := rfl
@[simp] theorem State.onTeam_fabric (s : State) (k : Nat) (f : Team → Team) : (s.onTeam k f).fabric = s.fabric := rfl
@[simp] theorem State.onTeam_colls (s : State) (k : Nat) (f : Team → Team) : (s.onTeam k f).colls = s.colls := rfl
@[simp] theorem State.onTeam_outside (s : State) (k : Nat) (f : Team → Team) : (s.onTeam k f).outside = s.outside := rfl
@[simp] theorem State.onTeam_codeOld (s : State) (k : Nat) (f : Team → Team) : (s.onTeam k f).codeOld = s.codeOld := rfl
@[simp] theorem State.onTeam_errors (s : State) (k : Nat) (f : Team → Team) : (s.onTeam k f).errors = s.errors := rfl
@[simp] theorem State.onTeam_down (s : State) (k : Nat) (f : Team → Team) : (s.onTeam k f).down = s.down := rfl
@[simp] theorem State.onTeam_rails (s : State) (k : Nat) (f : Team → Team) : (s.onTeam k f).rails = s.rails := rfl
@[simp] theorem State.onTeam_hostRead (s : State) (k : Nat) (f : Team → Team) : (s.onTeam k f).hostRead = s.hostRead := rfl
@[simp] theorem State.onTeam_fabricRead (s : State) (k : Nat) (f : Team → Team) : (s.onTeam k f).fabricRead = s.fabricRead := rfl
@[simp] theorem State.onTeam_agenda (s : State) (k : Nat) (f : Team → Team) : (s.onTeam k f).agenda = s.agenda := rfl
@[simp] theorem State.onTeam_cur (s : State) (k : Nat) (f : Team → Team) : (s.onTeam k f).cur = s.cur := rfl
@[simp] theorem State.onTeam_fresh (s : State) (k : Nat) (f : Team → Team) : (s.onTeam k f).fresh = s.fresh := rfl

@[simp] theorem State.onGrid_time (s : State) (k : Nat) (f : Grid → Grid) : (s.onGrid k f).time = s.time := rfl
@[simp] theorem State.onGrid_mem (s : State) (k : Nat) (f : Grid → Grid) : (s.onGrid k f).mem = s.mem := rfl
@[simp] theorem State.onGrid_poison (s : State) (k : Nat) (f : Grid → Grid) : (s.onGrid k f).poison = s.poison := rfl
@[simp] theorem State.onGrid_hostMem (s : State) (k : Nat) (f : Grid → Grid) : (s.onGrid k f).hostMem = s.hostMem := rfl
@[simp] theorem State.onGrid_hostErr (s : State) (k : Nat) (f : Grid → Grid) : (s.onGrid k f).hostErr = s.hostErr := rfl
@[simp] theorem State.onGrid_dramErr (s : State) (k : Nat) (f : Grid → Grid) : (s.onGrid k f).dramErr = s.dramErr := rfl
@[simp] theorem State.onGrid_remote (s : State) (k : Nat) (f : Grid → Grid) : (s.onGrid k f).remote = s.remote := rfl
@[simp] theorem State.onGrid_remoteWin (s : State) (k : Nat) (f : Grid → Grid) : (s.onGrid k f).remoteWin = s.remoteWin := rfl
@[simp] theorem State.onGrid_clusters (s : State) (k : Nat) (f : Grid → Grid) : (s.onGrid k f).clusters = s.clusters := rfl
@[simp] theorem State.onGrid_dies (s : State) (k : Nat) (f : Grid → Grid) : (s.onGrid k f).dies = s.dies := rfl
@[simp] theorem State.onGrid_llc (s : State) (k : Nat) (f : Grid → Grid) : (s.onGrid k f).llc = s.llc := rfl
@[simp] theorem State.onGrid_parts (s : State) (k : Nat) (f : Grid → Grid) : (s.onGrid k f).parts = s.parts := rfl
@[simp] theorem State.onGrid_queues (s : State) (k : Nat) (f : Grid → Grid) : (s.onGrid k f).queues = s.queues := rfl
@[simp] theorem State.onGrid_module (s : State) (k : Nat) (f : Grid → Grid) : (s.onGrid k f).module = s.module := rfl
@[simp] theorem State.onGrid_teams (s : State) (k : Nat) (f : Grid → Grid) : (s.onGrid k f).teams = s.teams := rfl
@[simp] theorem State.onGrid_groups (s : State) (k : Nat) (f : Grid → Grid) : (s.onGrid k f).groups = s.groups := rfl
@[simp] theorem State.onGrid_accesses (s : State) (k : Nat) (f : Grid → Grid) : (s.onGrid k f).accesses = s.accesses := rfl
@[simp] theorem State.onGrid_producers (s : State) (k : Nat) (f : Grid → Grid) : (s.onGrid k f).producers = s.producers := rfl
@[simp] theorem State.onGrid_commands (s : State) (k : Nat) (f : Grid → Grid) : (s.onGrid k f).commands = s.commands := rfl
@[simp] theorem State.onGrid_objects (s : State) (k : Nat) (f : Grid → Grid) : (s.onGrid k f).objects = s.objects := rfl
@[simp] theorem State.onGrid_unsettled (s : State) (k : Nat) (f : Grid → Grid) : (s.onGrid k f).unsettled = s.unsettled := rfl
@[simp] theorem State.onGrid_convs (s : State) (k : Nat) (f : Grid → Grid) : (s.onGrid k f).convs = s.convs := rfl
@[simp] theorem State.onGrid_sectors (s : State) (k : Nat) (f : Grid → Grid) : (s.onGrid k f).sectors = s.sectors := rfl
@[simp] theorem State.onGrid_pages (s : State) (k : Nat) (f : Grid → Grid) : (s.onGrid k f).pages = s.pages := rfl
@[simp] theorem State.onGrid_fabric (s : State) (k : Nat) (f : Grid → Grid) : (s.onGrid k f).fabric = s.fabric := rfl
@[simp] theorem State.onGrid_colls (s : State) (k : Nat) (f : Grid → Grid) : (s.onGrid k f).colls = s.colls := rfl
@[simp] theorem State.onGrid_outside (s : State) (k : Nat) (f : Grid → Grid) : (s.onGrid k f).outside = s.outside := rfl
@[simp] theorem State.onGrid_codeOld (s : State) (k : Nat) (f : Grid → Grid) : (s.onGrid k f).codeOld = s.codeOld := rfl
@[simp] theorem State.onGrid_errors (s : State) (k : Nat) (f : Grid → Grid) : (s.onGrid k f).errors = s.errors := rfl
@[simp] theorem State.onGrid_down (s : State) (k : Nat) (f : Grid → Grid) : (s.onGrid k f).down = s.down := rfl
@[simp] theorem State.onGrid_rails (s : State) (k : Nat) (f : Grid → Grid) : (s.onGrid k f).rails = s.rails := rfl
@[simp] theorem State.onGrid_hostRead (s : State) (k : Nat) (f : Grid → Grid) : (s.onGrid k f).hostRead = s.hostRead := rfl
@[simp] theorem State.onGrid_fabricRead (s : State) (k : Nat) (f : Grid → Grid) : (s.onGrid k f).fabricRead = s.fabricRead := rfl
@[simp] theorem State.onGrid_agenda (s : State) (k : Nat) (f : Grid → Grid) : (s.onGrid k f).agenda = s.agenda := rfl
@[simp] theorem State.onGrid_cur (s : State) (k : Nat) (f : Grid → Grid) : (s.onGrid k f).cur = s.cur := rfl
@[simp] theorem State.onGrid_fresh (s : State) (k : Nat) (f : Grid → Grid) : (s.onGrid k f).fresh = s.fresh := rfl

@[simp] theorem State.setCluster_time (s : State) (k : Nat) (c : Cluster) : (s.setCluster k c).time = s.time := rfl
@[simp] theorem State.setCluster_mem (s : State) (k : Nat) (c : Cluster) : (s.setCluster k c).mem = s.mem := rfl
@[simp] theorem State.setCluster_poison (s : State) (k : Nat) (c : Cluster) : (s.setCluster k c).poison = s.poison := rfl
@[simp] theorem State.setCluster_hostMem (s : State) (k : Nat) (c : Cluster) : (s.setCluster k c).hostMem = s.hostMem := rfl
@[simp] theorem State.setCluster_hostErr (s : State) (k : Nat) (c : Cluster) : (s.setCluster k c).hostErr = s.hostErr := rfl
@[simp] theorem State.setCluster_dramErr (s : State) (k : Nat) (c : Cluster) : (s.setCluster k c).dramErr = s.dramErr := rfl
@[simp] theorem State.setCluster_remote (s : State) (k : Nat) (c : Cluster) : (s.setCluster k c).remote = s.remote := rfl
@[simp] theorem State.setCluster_remoteWin (s : State) (k : Nat) (c : Cluster) : (s.setCluster k c).remoteWin = s.remoteWin := rfl
@[simp] theorem State.setCluster_dies (s : State) (k : Nat) (c : Cluster) : (s.setCluster k c).dies = s.dies := rfl
@[simp] theorem State.setCluster_llc (s : State) (k : Nat) (c : Cluster) : (s.setCluster k c).llc = s.llc := rfl
@[simp] theorem State.setCluster_parts (s : State) (k : Nat) (c : Cluster) : (s.setCluster k c).parts = s.parts := rfl
@[simp] theorem State.setCluster_queues (s : State) (k : Nat) (c : Cluster) : (s.setCluster k c).queues = s.queues := rfl
@[simp] theorem State.setCluster_module (s : State) (k : Nat) (c : Cluster) : (s.setCluster k c).module = s.module := rfl
@[simp] theorem State.setCluster_grids (s : State) (k : Nat) (c : Cluster) : (s.setCluster k c).grids = s.grids := rfl
@[simp] theorem State.setCluster_teams (s : State) (k : Nat) (c : Cluster) : (s.setCluster k c).teams = s.teams := rfl
@[simp] theorem State.setCluster_groups (s : State) (k : Nat) (c : Cluster) : (s.setCluster k c).groups = s.groups := rfl
@[simp] theorem State.setCluster_accesses (s : State) (k : Nat) (c : Cluster) : (s.setCluster k c).accesses = s.accesses := rfl
@[simp] theorem State.setCluster_producers (s : State) (k : Nat) (c : Cluster) : (s.setCluster k c).producers = s.producers := rfl
@[simp] theorem State.setCluster_commands (s : State) (k : Nat) (c : Cluster) : (s.setCluster k c).commands = s.commands := rfl
@[simp] theorem State.setCluster_objects (s : State) (k : Nat) (c : Cluster) : (s.setCluster k c).objects = s.objects := rfl
@[simp] theorem State.setCluster_unsettled (s : State) (k : Nat) (c : Cluster) : (s.setCluster k c).unsettled = s.unsettled := rfl
@[simp] theorem State.setCluster_convs (s : State) (k : Nat) (c : Cluster) : (s.setCluster k c).convs = s.convs := rfl
@[simp] theorem State.setCluster_sectors (s : State) (k : Nat) (c : Cluster) : (s.setCluster k c).sectors = s.sectors := rfl
@[simp] theorem State.setCluster_pages (s : State) (k : Nat) (c : Cluster) : (s.setCluster k c).pages = s.pages := rfl
@[simp] theorem State.setCluster_fabric (s : State) (k : Nat) (c : Cluster) : (s.setCluster k c).fabric = s.fabric := rfl
@[simp] theorem State.setCluster_colls (s : State) (k : Nat) (c : Cluster) : (s.setCluster k c).colls = s.colls := rfl
@[simp] theorem State.setCluster_outside (s : State) (k : Nat) (c : Cluster) : (s.setCluster k c).outside = s.outside := rfl
@[simp] theorem State.setCluster_codeOld (s : State) (k : Nat) (c : Cluster) : (s.setCluster k c).codeOld = s.codeOld := rfl
@[simp] theorem State.setCluster_errors (s : State) (k : Nat) (c : Cluster) : (s.setCluster k c).errors = s.errors := rfl
@[simp] theorem State.setCluster_down (s : State) (k : Nat) (c : Cluster) : (s.setCluster k c).down = s.down := rfl
@[simp] theorem State.setCluster_rails (s : State) (k : Nat) (c : Cluster) : (s.setCluster k c).rails = s.rails := rfl
@[simp] theorem State.setCluster_hostRead (s : State) (k : Nat) (c : Cluster) : (s.setCluster k c).hostRead = s.hostRead := rfl
@[simp] theorem State.setCluster_fabricRead (s : State) (k : Nat) (c : Cluster) : (s.setCluster k c).fabricRead = s.fabricRead := rfl
@[simp] theorem State.setCluster_agenda (s : State) (k : Nat) (c : Cluster) : (s.setCluster k c).agenda = s.agenda := rfl
@[simp] theorem State.setCluster_cur (s : State) (k : Nat) (c : Cluster) : (s.setCluster k c).cur = s.cur := rfl
@[simp] theorem State.setCluster_fresh (s : State) (k : Nat) (c : Cluster) : (s.setCluster k c).fresh = s.fresh := rfl

@[simp] theorem State.onCluster_time (s : State) (k : Nat) (f : Cluster → Cluster) : (s.onCluster k f).time = s.time := rfl
@[simp] theorem State.onCluster_mem (s : State) (k : Nat) (f : Cluster → Cluster) : (s.onCluster k f).mem = s.mem := rfl
@[simp] theorem State.onCluster_poison (s : State) (k : Nat) (f : Cluster → Cluster) : (s.onCluster k f).poison = s.poison := rfl
@[simp] theorem State.onCluster_hostMem (s : State) (k : Nat) (f : Cluster → Cluster) : (s.onCluster k f).hostMem = s.hostMem := rfl
@[simp] theorem State.onCluster_hostErr (s : State) (k : Nat) (f : Cluster → Cluster) : (s.onCluster k f).hostErr = s.hostErr := rfl
@[simp] theorem State.onCluster_dramErr (s : State) (k : Nat) (f : Cluster → Cluster) : (s.onCluster k f).dramErr = s.dramErr := rfl
@[simp] theorem State.onCluster_remote (s : State) (k : Nat) (f : Cluster → Cluster) : (s.onCluster k f).remote = s.remote := rfl
@[simp] theorem State.onCluster_remoteWin (s : State) (k : Nat) (f : Cluster → Cluster) : (s.onCluster k f).remoteWin = s.remoteWin := rfl
@[simp] theorem State.onCluster_dies (s : State) (k : Nat) (f : Cluster → Cluster) : (s.onCluster k f).dies = s.dies := rfl
@[simp] theorem State.onCluster_llc (s : State) (k : Nat) (f : Cluster → Cluster) : (s.onCluster k f).llc = s.llc := rfl
@[simp] theorem State.onCluster_parts (s : State) (k : Nat) (f : Cluster → Cluster) : (s.onCluster k f).parts = s.parts := rfl
@[simp] theorem State.onCluster_queues (s : State) (k : Nat) (f : Cluster → Cluster) : (s.onCluster k f).queues = s.queues := rfl
@[simp] theorem State.onCluster_module (s : State) (k : Nat) (f : Cluster → Cluster) : (s.onCluster k f).module = s.module := rfl
@[simp] theorem State.onCluster_grids (s : State) (k : Nat) (f : Cluster → Cluster) : (s.onCluster k f).grids = s.grids := rfl
@[simp] theorem State.onCluster_teams (s : State) (k : Nat) (f : Cluster → Cluster) : (s.onCluster k f).teams = s.teams := rfl
@[simp] theorem State.onCluster_groups (s : State) (k : Nat) (f : Cluster → Cluster) : (s.onCluster k f).groups = s.groups := rfl
@[simp] theorem State.onCluster_accesses (s : State) (k : Nat) (f : Cluster → Cluster) : (s.onCluster k f).accesses = s.accesses := rfl
@[simp] theorem State.onCluster_producers (s : State) (k : Nat) (f : Cluster → Cluster) : (s.onCluster k f).producers = s.producers := rfl
@[simp] theorem State.onCluster_commands (s : State) (k : Nat) (f : Cluster → Cluster) : (s.onCluster k f).commands = s.commands := rfl
@[simp] theorem State.onCluster_objects (s : State) (k : Nat) (f : Cluster → Cluster) : (s.onCluster k f).objects = s.objects := rfl
@[simp] theorem State.onCluster_unsettled (s : State) (k : Nat) (f : Cluster → Cluster) : (s.onCluster k f).unsettled = s.unsettled := rfl
@[simp] theorem State.onCluster_convs (s : State) (k : Nat) (f : Cluster → Cluster) : (s.onCluster k f).convs = s.convs := rfl
@[simp] theorem State.onCluster_sectors (s : State) (k : Nat) (f : Cluster → Cluster) : (s.onCluster k f).sectors = s.sectors := rfl
@[simp] theorem State.onCluster_pages (s : State) (k : Nat) (f : Cluster → Cluster) : (s.onCluster k f).pages = s.pages := rfl
@[simp] theorem State.onCluster_fabric (s : State) (k : Nat) (f : Cluster → Cluster) : (s.onCluster k f).fabric = s.fabric := rfl
@[simp] theorem State.onCluster_colls (s : State) (k : Nat) (f : Cluster → Cluster) : (s.onCluster k f).colls = s.colls := rfl
@[simp] theorem State.onCluster_outside (s : State) (k : Nat) (f : Cluster → Cluster) : (s.onCluster k f).outside = s.outside := rfl
@[simp] theorem State.onCluster_codeOld (s : State) (k : Nat) (f : Cluster → Cluster) : (s.onCluster k f).codeOld = s.codeOld := rfl
@[simp] theorem State.onCluster_errors (s : State) (k : Nat) (f : Cluster → Cluster) : (s.onCluster k f).errors = s.errors := rfl
@[simp] theorem State.onCluster_down (s : State) (k : Nat) (f : Cluster → Cluster) : (s.onCluster k f).down = s.down := rfl
@[simp] theorem State.onCluster_rails (s : State) (k : Nat) (f : Cluster → Cluster) : (s.onCluster k f).rails = s.rails := rfl
@[simp] theorem State.onCluster_hostRead (s : State) (k : Nat) (f : Cluster → Cluster) : (s.onCluster k f).hostRead = s.hostRead := rfl
@[simp] theorem State.onCluster_fabricRead (s : State) (k : Nat) (f : Cluster → Cluster) : (s.onCluster k f).fabricRead = s.fabricRead := rfl
@[simp] theorem State.onCluster_agenda (s : State) (k : Nat) (f : Cluster → Cluster) : (s.onCluster k f).agenda = s.agenda := rfl
@[simp] theorem State.onCluster_cur (s : State) (k : Nat) (f : Cluster → Cluster) : (s.onCluster k f).cur = s.cur := rfl
@[simp] theorem State.onCluster_fresh (s : State) (k : Nat) (f : Cluster → Cluster) : (s.onCluster k f).fresh = s.fresh := rfl

@[simp] theorem State.onDie_time (s : State) (k : Nat) (f : Die → Die) : (s.onDie k f).time = s.time := rfl
@[simp] theorem State.onDie_mem (s : State) (k : Nat) (f : Die → Die) : (s.onDie k f).mem = s.mem := rfl
@[simp] theorem State.onDie_poison (s : State) (k : Nat) (f : Die → Die) : (s.onDie k f).poison = s.poison := rfl
@[simp] theorem State.onDie_hostMem (s : State) (k : Nat) (f : Die → Die) : (s.onDie k f).hostMem = s.hostMem := rfl
@[simp] theorem State.onDie_hostErr (s : State) (k : Nat) (f : Die → Die) : (s.onDie k f).hostErr = s.hostErr := rfl
@[simp] theorem State.onDie_dramErr (s : State) (k : Nat) (f : Die → Die) : (s.onDie k f).dramErr = s.dramErr := rfl
@[simp] theorem State.onDie_remote (s : State) (k : Nat) (f : Die → Die) : (s.onDie k f).remote = s.remote := rfl
@[simp] theorem State.onDie_remoteWin (s : State) (k : Nat) (f : Die → Die) : (s.onDie k f).remoteWin = s.remoteWin := rfl
@[simp] theorem State.onDie_clusters (s : State) (k : Nat) (f : Die → Die) : (s.onDie k f).clusters = s.clusters := rfl
@[simp] theorem State.onDie_llc (s : State) (k : Nat) (f : Die → Die) : (s.onDie k f).llc = s.llc := rfl
@[simp] theorem State.onDie_parts (s : State) (k : Nat) (f : Die → Die) : (s.onDie k f).parts = s.parts := rfl
@[simp] theorem State.onDie_queues (s : State) (k : Nat) (f : Die → Die) : (s.onDie k f).queues = s.queues := rfl
@[simp] theorem State.onDie_module (s : State) (k : Nat) (f : Die → Die) : (s.onDie k f).module = s.module := rfl
@[simp] theorem State.onDie_grids (s : State) (k : Nat) (f : Die → Die) : (s.onDie k f).grids = s.grids := rfl
@[simp] theorem State.onDie_teams (s : State) (k : Nat) (f : Die → Die) : (s.onDie k f).teams = s.teams := rfl
@[simp] theorem State.onDie_groups (s : State) (k : Nat) (f : Die → Die) : (s.onDie k f).groups = s.groups := rfl
@[simp] theorem State.onDie_accesses (s : State) (k : Nat) (f : Die → Die) : (s.onDie k f).accesses = s.accesses := rfl
@[simp] theorem State.onDie_producers (s : State) (k : Nat) (f : Die → Die) : (s.onDie k f).producers = s.producers := rfl
@[simp] theorem State.onDie_commands (s : State) (k : Nat) (f : Die → Die) : (s.onDie k f).commands = s.commands := rfl
@[simp] theorem State.onDie_objects (s : State) (k : Nat) (f : Die → Die) : (s.onDie k f).objects = s.objects := rfl
@[simp] theorem State.onDie_unsettled (s : State) (k : Nat) (f : Die → Die) : (s.onDie k f).unsettled = s.unsettled := rfl
@[simp] theorem State.onDie_convs (s : State) (k : Nat) (f : Die → Die) : (s.onDie k f).convs = s.convs := rfl
@[simp] theorem State.onDie_sectors (s : State) (k : Nat) (f : Die → Die) : (s.onDie k f).sectors = s.sectors := rfl
@[simp] theorem State.onDie_pages (s : State) (k : Nat) (f : Die → Die) : (s.onDie k f).pages = s.pages := rfl
@[simp] theorem State.onDie_fabric (s : State) (k : Nat) (f : Die → Die) : (s.onDie k f).fabric = s.fabric := rfl
@[simp] theorem State.onDie_colls (s : State) (k : Nat) (f : Die → Die) : (s.onDie k f).colls = s.colls := rfl
@[simp] theorem State.onDie_outside (s : State) (k : Nat) (f : Die → Die) : (s.onDie k f).outside = s.outside := rfl
@[simp] theorem State.onDie_codeOld (s : State) (k : Nat) (f : Die → Die) : (s.onDie k f).codeOld = s.codeOld := rfl
@[simp] theorem State.onDie_errors (s : State) (k : Nat) (f : Die → Die) : (s.onDie k f).errors = s.errors := rfl
@[simp] theorem State.onDie_down (s : State) (k : Nat) (f : Die → Die) : (s.onDie k f).down = s.down := rfl
@[simp] theorem State.onDie_rails (s : State) (k : Nat) (f : Die → Die) : (s.onDie k f).rails = s.rails := rfl
@[simp] theorem State.onDie_hostRead (s : State) (k : Nat) (f : Die → Die) : (s.onDie k f).hostRead = s.hostRead := rfl
@[simp] theorem State.onDie_fabricRead (s : State) (k : Nat) (f : Die → Die) : (s.onDie k f).fabricRead = s.fabricRead := rfl
@[simp] theorem State.onDie_agenda (s : State) (k : Nat) (f : Die → Die) : (s.onDie k f).agenda = s.agenda := rfl
@[simp] theorem State.onDie_cur (s : State) (k : Nat) (f : Die → Die) : (s.onDie k f).cur = s.cur := rfl
@[simp] theorem State.onDie_fresh (s : State) (k : Nat) (f : Die → Die) : (s.onDie k f).fresh = s.fresh := rfl

@[simp] theorem State.onSlot_time (s : State) (id : Nat) (f : Slot → Slot) : (s.onSlot id f).time = s.time := rfl
@[simp] theorem State.onSlot_mem (s : State) (id : Nat) (f : Slot → Slot) : (s.onSlot id f).mem = s.mem := rfl
@[simp] theorem State.onSlot_poison (s : State) (id : Nat) (f : Slot → Slot) : (s.onSlot id f).poison = s.poison := rfl
@[simp] theorem State.onSlot_hostMem (s : State) (id : Nat) (f : Slot → Slot) : (s.onSlot id f).hostMem = s.hostMem := rfl
@[simp] theorem State.onSlot_hostErr (s : State) (id : Nat) (f : Slot → Slot) : (s.onSlot id f).hostErr = s.hostErr := rfl
@[simp] theorem State.onSlot_dramErr (s : State) (id : Nat) (f : Slot → Slot) : (s.onSlot id f).dramErr = s.dramErr := rfl
@[simp] theorem State.onSlot_remote (s : State) (id : Nat) (f : Slot → Slot) : (s.onSlot id f).remote = s.remote := rfl
@[simp] theorem State.onSlot_remoteWin (s : State) (id : Nat) (f : Slot → Slot) : (s.onSlot id f).remoteWin = s.remoteWin := rfl
@[simp] theorem State.onSlot_clusters (s : State) (id : Nat) (f : Slot → Slot) : (s.onSlot id f).clusters = s.clusters := rfl
@[simp] theorem State.onSlot_llc (s : State) (id : Nat) (f : Slot → Slot) : (s.onSlot id f).llc = s.llc := rfl
@[simp] theorem State.onSlot_parts (s : State) (id : Nat) (f : Slot → Slot) : (s.onSlot id f).parts = s.parts := rfl
@[simp] theorem State.onSlot_queues (s : State) (id : Nat) (f : Slot → Slot) : (s.onSlot id f).queues = s.queues := rfl
@[simp] theorem State.onSlot_module (s : State) (id : Nat) (f : Slot → Slot) : (s.onSlot id f).module = s.module := rfl
@[simp] theorem State.onSlot_grids (s : State) (id : Nat) (f : Slot → Slot) : (s.onSlot id f).grids = s.grids := rfl
@[simp] theorem State.onSlot_teams (s : State) (id : Nat) (f : Slot → Slot) : (s.onSlot id f).teams = s.teams := rfl
@[simp] theorem State.onSlot_groups (s : State) (id : Nat) (f : Slot → Slot) : (s.onSlot id f).groups = s.groups := rfl
@[simp] theorem State.onSlot_accesses (s : State) (id : Nat) (f : Slot → Slot) : (s.onSlot id f).accesses = s.accesses := rfl
@[simp] theorem State.onSlot_producers (s : State) (id : Nat) (f : Slot → Slot) : (s.onSlot id f).producers = s.producers := rfl
@[simp] theorem State.onSlot_commands (s : State) (id : Nat) (f : Slot → Slot) : (s.onSlot id f).commands = s.commands := rfl
@[simp] theorem State.onSlot_objects (s : State) (id : Nat) (f : Slot → Slot) : (s.onSlot id f).objects = s.objects := rfl
@[simp] theorem State.onSlot_unsettled (s : State) (id : Nat) (f : Slot → Slot) : (s.onSlot id f).unsettled = s.unsettled := rfl
@[simp] theorem State.onSlot_convs (s : State) (id : Nat) (f : Slot → Slot) : (s.onSlot id f).convs = s.convs := rfl
@[simp] theorem State.onSlot_sectors (s : State) (id : Nat) (f : Slot → Slot) : (s.onSlot id f).sectors = s.sectors := rfl
@[simp] theorem State.onSlot_pages (s : State) (id : Nat) (f : Slot → Slot) : (s.onSlot id f).pages = s.pages := rfl
@[simp] theorem State.onSlot_fabric (s : State) (id : Nat) (f : Slot → Slot) : (s.onSlot id f).fabric = s.fabric := rfl
@[simp] theorem State.onSlot_colls (s : State) (id : Nat) (f : Slot → Slot) : (s.onSlot id f).colls = s.colls := rfl
@[simp] theorem State.onSlot_outside (s : State) (id : Nat) (f : Slot → Slot) : (s.onSlot id f).outside = s.outside := rfl
@[simp] theorem State.onSlot_codeOld (s : State) (id : Nat) (f : Slot → Slot) : (s.onSlot id f).codeOld = s.codeOld := rfl
@[simp] theorem State.onSlot_errors (s : State) (id : Nat) (f : Slot → Slot) : (s.onSlot id f).errors = s.errors := rfl
@[simp] theorem State.onSlot_down (s : State) (id : Nat) (f : Slot → Slot) : (s.onSlot id f).down = s.down := rfl
@[simp] theorem State.onSlot_rails (s : State) (id : Nat) (f : Slot → Slot) : (s.onSlot id f).rails = s.rails := rfl
@[simp] theorem State.onSlot_hostRead (s : State) (id : Nat) (f : Slot → Slot) : (s.onSlot id f).hostRead = s.hostRead := rfl
@[simp] theorem State.onSlot_fabricRead (s : State) (id : Nat) (f : Slot → Slot) : (s.onSlot id f).fabricRead = s.fabricRead := rfl
@[simp] theorem State.onSlot_agenda (s : State) (id : Nat) (f : Slot → Slot) : (s.onSlot id f).agenda = s.agenda := rfl
@[simp] theorem State.onSlot_cur (s : State) (id : Nat) (f : Slot → Slot) : (s.onSlot id f).cur = s.cur := rfl
@[simp] theorem State.onSlot_fresh (s : State) (id : Nat) (f : Slot → Slot) : (s.onSlot id f).fresh = s.fresh := rfl

@[simp] theorem State.onPart_time (s : State) (k : Nat) (f : Partition → Partition) : (s.onPart k f).time = s.time := rfl
@[simp] theorem State.onPart_mem (s : State) (k : Nat) (f : Partition → Partition) : (s.onPart k f).mem = s.mem := rfl
@[simp] theorem State.onPart_poison (s : State) (k : Nat) (f : Partition → Partition) : (s.onPart k f).poison = s.poison := rfl
@[simp] theorem State.onPart_hostMem (s : State) (k : Nat) (f : Partition → Partition) : (s.onPart k f).hostMem = s.hostMem := rfl
@[simp] theorem State.onPart_hostErr (s : State) (k : Nat) (f : Partition → Partition) : (s.onPart k f).hostErr = s.hostErr := rfl
@[simp] theorem State.onPart_dramErr (s : State) (k : Nat) (f : Partition → Partition) : (s.onPart k f).dramErr = s.dramErr := rfl
@[simp] theorem State.onPart_remote (s : State) (k : Nat) (f : Partition → Partition) : (s.onPart k f).remote = s.remote := rfl
@[simp] theorem State.onPart_remoteWin (s : State) (k : Nat) (f : Partition → Partition) : (s.onPart k f).remoteWin = s.remoteWin := rfl
@[simp] theorem State.onPart_clusters (s : State) (k : Nat) (f : Partition → Partition) : (s.onPart k f).clusters = s.clusters := rfl
@[simp] theorem State.onPart_dies (s : State) (k : Nat) (f : Partition → Partition) : (s.onPart k f).dies = s.dies := rfl
@[simp] theorem State.onPart_llc (s : State) (k : Nat) (f : Partition → Partition) : (s.onPart k f).llc = s.llc := rfl
@[simp] theorem State.onPart_queues (s : State) (k : Nat) (f : Partition → Partition) : (s.onPart k f).queues = s.queues := rfl
@[simp] theorem State.onPart_module (s : State) (k : Nat) (f : Partition → Partition) : (s.onPart k f).module = s.module := rfl
@[simp] theorem State.onPart_grids (s : State) (k : Nat) (f : Partition → Partition) : (s.onPart k f).grids = s.grids := rfl
@[simp] theorem State.onPart_teams (s : State) (k : Nat) (f : Partition → Partition) : (s.onPart k f).teams = s.teams := rfl
@[simp] theorem State.onPart_groups (s : State) (k : Nat) (f : Partition → Partition) : (s.onPart k f).groups = s.groups := rfl
@[simp] theorem State.onPart_accesses (s : State) (k : Nat) (f : Partition → Partition) : (s.onPart k f).accesses = s.accesses := rfl
@[simp] theorem State.onPart_producers (s : State) (k : Nat) (f : Partition → Partition) : (s.onPart k f).producers = s.producers := rfl
@[simp] theorem State.onPart_commands (s : State) (k : Nat) (f : Partition → Partition) : (s.onPart k f).commands = s.commands := rfl
@[simp] theorem State.onPart_objects (s : State) (k : Nat) (f : Partition → Partition) : (s.onPart k f).objects = s.objects := rfl
@[simp] theorem State.onPart_unsettled (s : State) (k : Nat) (f : Partition → Partition) : (s.onPart k f).unsettled = s.unsettled := rfl
@[simp] theorem State.onPart_convs (s : State) (k : Nat) (f : Partition → Partition) : (s.onPart k f).convs = s.convs := rfl
@[simp] theorem State.onPart_sectors (s : State) (k : Nat) (f : Partition → Partition) : (s.onPart k f).sectors = s.sectors := rfl
@[simp] theorem State.onPart_pages (s : State) (k : Nat) (f : Partition → Partition) : (s.onPart k f).pages = s.pages := rfl
@[simp] theorem State.onPart_fabric (s : State) (k : Nat) (f : Partition → Partition) : (s.onPart k f).fabric = s.fabric := rfl
@[simp] theorem State.onPart_colls (s : State) (k : Nat) (f : Partition → Partition) : (s.onPart k f).colls = s.colls := rfl
@[simp] theorem State.onPart_outside (s : State) (k : Nat) (f : Partition → Partition) : (s.onPart k f).outside = s.outside := rfl
@[simp] theorem State.onPart_codeOld (s : State) (k : Nat) (f : Partition → Partition) : (s.onPart k f).codeOld = s.codeOld := rfl
@[simp] theorem State.onPart_errors (s : State) (k : Nat) (f : Partition → Partition) : (s.onPart k f).errors = s.errors := rfl
@[simp] theorem State.onPart_down (s : State) (k : Nat) (f : Partition → Partition) : (s.onPart k f).down = s.down := rfl
@[simp] theorem State.onPart_rails (s : State) (k : Nat) (f : Partition → Partition) : (s.onPart k f).rails = s.rails := rfl
@[simp] theorem State.onPart_hostRead (s : State) (k : Nat) (f : Partition → Partition) : (s.onPart k f).hostRead = s.hostRead := rfl
@[simp] theorem State.onPart_fabricRead (s : State) (k : Nat) (f : Partition → Partition) : (s.onPart k f).fabricRead = s.fabricRead := rfl
@[simp] theorem State.onPart_agenda (s : State) (k : Nat) (f : Partition → Partition) : (s.onPart k f).agenda = s.agenda := rfl
@[simp] theorem State.onPart_cur (s : State) (k : Nat) (f : Partition → Partition) : (s.onPart k f).cur = s.cur := rfl
@[simp] theorem State.onPart_fresh (s : State) (k : Nat) (f : Partition → Partition) : (s.onPart k f).fresh = s.fresh := rfl

@[simp] theorem State.onModule_time (s : State) (f : Module → Module) : (s.onModule f).time = s.time := rfl
@[simp] theorem State.onModule_mem (s : State) (f : Module → Module) : (s.onModule f).mem = s.mem := rfl
@[simp] theorem State.onModule_poison (s : State) (f : Module → Module) : (s.onModule f).poison = s.poison := rfl
@[simp] theorem State.onModule_hostMem (s : State) (f : Module → Module) : (s.onModule f).hostMem = s.hostMem := rfl
@[simp] theorem State.onModule_hostErr (s : State) (f : Module → Module) : (s.onModule f).hostErr = s.hostErr := rfl
@[simp] theorem State.onModule_dramErr (s : State) (f : Module → Module) : (s.onModule f).dramErr = s.dramErr := rfl
@[simp] theorem State.onModule_remote (s : State) (f : Module → Module) : (s.onModule f).remote = s.remote := rfl
@[simp] theorem State.onModule_remoteWin (s : State) (f : Module → Module) : (s.onModule f).remoteWin = s.remoteWin := rfl
@[simp] theorem State.onModule_clusters (s : State) (f : Module → Module) : (s.onModule f).clusters = s.clusters := rfl
@[simp] theorem State.onModule_dies (s : State) (f : Module → Module) : (s.onModule f).dies = s.dies := rfl
@[simp] theorem State.onModule_llc (s : State) (f : Module → Module) : (s.onModule f).llc = s.llc := rfl
@[simp] theorem State.onModule_parts (s : State) (f : Module → Module) : (s.onModule f).parts = s.parts := rfl
@[simp] theorem State.onModule_queues (s : State) (f : Module → Module) : (s.onModule f).queues = s.queues := rfl
@[simp] theorem State.onModule_grids (s : State) (f : Module → Module) : (s.onModule f).grids = s.grids := rfl
@[simp] theorem State.onModule_teams (s : State) (f : Module → Module) : (s.onModule f).teams = s.teams := rfl
@[simp] theorem State.onModule_groups (s : State) (f : Module → Module) : (s.onModule f).groups = s.groups := rfl
@[simp] theorem State.onModule_accesses (s : State) (f : Module → Module) : (s.onModule f).accesses = s.accesses := rfl
@[simp] theorem State.onModule_producers (s : State) (f : Module → Module) : (s.onModule f).producers = s.producers := rfl
@[simp] theorem State.onModule_commands (s : State) (f : Module → Module) : (s.onModule f).commands = s.commands := rfl
@[simp] theorem State.onModule_objects (s : State) (f : Module → Module) : (s.onModule f).objects = s.objects := rfl
@[simp] theorem State.onModule_unsettled (s : State) (f : Module → Module) : (s.onModule f).unsettled = s.unsettled := rfl
@[simp] theorem State.onModule_convs (s : State) (f : Module → Module) : (s.onModule f).convs = s.convs := rfl
@[simp] theorem State.onModule_sectors (s : State) (f : Module → Module) : (s.onModule f).sectors = s.sectors := rfl
@[simp] theorem State.onModule_pages (s : State) (f : Module → Module) : (s.onModule f).pages = s.pages := rfl
@[simp] theorem State.onModule_fabric (s : State) (f : Module → Module) : (s.onModule f).fabric = s.fabric := rfl
@[simp] theorem State.onModule_colls (s : State) (f : Module → Module) : (s.onModule f).colls = s.colls := rfl
@[simp] theorem State.onModule_outside (s : State) (f : Module → Module) : (s.onModule f).outside = s.outside := rfl
@[simp] theorem State.onModule_codeOld (s : State) (f : Module → Module) : (s.onModule f).codeOld = s.codeOld := rfl
@[simp] theorem State.onModule_errors (s : State) (f : Module → Module) : (s.onModule f).errors = s.errors := rfl
@[simp] theorem State.onModule_down (s : State) (f : Module → Module) : (s.onModule f).down = s.down := rfl
@[simp] theorem State.onModule_rails (s : State) (f : Module → Module) : (s.onModule f).rails = s.rails := rfl
@[simp] theorem State.onModule_hostRead (s : State) (f : Module → Module) : (s.onModule f).hostRead = s.hostRead := rfl
@[simp] theorem State.onModule_fabricRead (s : State) (f : Module → Module) : (s.onModule f).fabricRead = s.fabricRead := rfl
@[simp] theorem State.onModule_agenda (s : State) (f : Module → Module) : (s.onModule f).agenda = s.agenda := rfl
@[simp] theorem State.onModule_cur (s : State) (f : Module → Module) : (s.onModule f).cur = s.cur := rfl
@[simp] theorem State.onModule_fresh (s : State) (f : Module → Module) : (s.onModule f).fresh = s.fresh := rfl

@[simp] theorem State.onLlc_time (s : State) (k : Nat) (f : LlcSlice → LlcSlice) : (s.onLlc k f).time = s.time := rfl
@[simp] theorem State.onLlc_mem (s : State) (k : Nat) (f : LlcSlice → LlcSlice) : (s.onLlc k f).mem = s.mem := rfl
@[simp] theorem State.onLlc_poison (s : State) (k : Nat) (f : LlcSlice → LlcSlice) : (s.onLlc k f).poison = s.poison := rfl
@[simp] theorem State.onLlc_hostMem (s : State) (k : Nat) (f : LlcSlice → LlcSlice) : (s.onLlc k f).hostMem = s.hostMem := rfl
@[simp] theorem State.onLlc_hostErr (s : State) (k : Nat) (f : LlcSlice → LlcSlice) : (s.onLlc k f).hostErr = s.hostErr := rfl
@[simp] theorem State.onLlc_dramErr (s : State) (k : Nat) (f : LlcSlice → LlcSlice) : (s.onLlc k f).dramErr = s.dramErr := rfl
@[simp] theorem State.onLlc_remote (s : State) (k : Nat) (f : LlcSlice → LlcSlice) : (s.onLlc k f).remote = s.remote := rfl
@[simp] theorem State.onLlc_remoteWin (s : State) (k : Nat) (f : LlcSlice → LlcSlice) : (s.onLlc k f).remoteWin = s.remoteWin := rfl
@[simp] theorem State.onLlc_clusters (s : State) (k : Nat) (f : LlcSlice → LlcSlice) : (s.onLlc k f).clusters = s.clusters := rfl
@[simp] theorem State.onLlc_dies (s : State) (k : Nat) (f : LlcSlice → LlcSlice) : (s.onLlc k f).dies = s.dies := rfl
@[simp] theorem State.onLlc_parts (s : State) (k : Nat) (f : LlcSlice → LlcSlice) : (s.onLlc k f).parts = s.parts := rfl
@[simp] theorem State.onLlc_queues (s : State) (k : Nat) (f : LlcSlice → LlcSlice) : (s.onLlc k f).queues = s.queues := rfl
@[simp] theorem State.onLlc_module (s : State) (k : Nat) (f : LlcSlice → LlcSlice) : (s.onLlc k f).module = s.module := rfl
@[simp] theorem State.onLlc_grids (s : State) (k : Nat) (f : LlcSlice → LlcSlice) : (s.onLlc k f).grids = s.grids := rfl
@[simp] theorem State.onLlc_teams (s : State) (k : Nat) (f : LlcSlice → LlcSlice) : (s.onLlc k f).teams = s.teams := rfl
@[simp] theorem State.onLlc_groups (s : State) (k : Nat) (f : LlcSlice → LlcSlice) : (s.onLlc k f).groups = s.groups := rfl
@[simp] theorem State.onLlc_accesses (s : State) (k : Nat) (f : LlcSlice → LlcSlice) : (s.onLlc k f).accesses = s.accesses := rfl
@[simp] theorem State.onLlc_producers (s : State) (k : Nat) (f : LlcSlice → LlcSlice) : (s.onLlc k f).producers = s.producers := rfl
@[simp] theorem State.onLlc_commands (s : State) (k : Nat) (f : LlcSlice → LlcSlice) : (s.onLlc k f).commands = s.commands := rfl
@[simp] theorem State.onLlc_objects (s : State) (k : Nat) (f : LlcSlice → LlcSlice) : (s.onLlc k f).objects = s.objects := rfl
@[simp] theorem State.onLlc_unsettled (s : State) (k : Nat) (f : LlcSlice → LlcSlice) : (s.onLlc k f).unsettled = s.unsettled := rfl
@[simp] theorem State.onLlc_convs (s : State) (k : Nat) (f : LlcSlice → LlcSlice) : (s.onLlc k f).convs = s.convs := rfl
@[simp] theorem State.onLlc_sectors (s : State) (k : Nat) (f : LlcSlice → LlcSlice) : (s.onLlc k f).sectors = s.sectors := rfl
@[simp] theorem State.onLlc_pages (s : State) (k : Nat) (f : LlcSlice → LlcSlice) : (s.onLlc k f).pages = s.pages := rfl
@[simp] theorem State.onLlc_fabric (s : State) (k : Nat) (f : LlcSlice → LlcSlice) : (s.onLlc k f).fabric = s.fabric := rfl
@[simp] theorem State.onLlc_colls (s : State) (k : Nat) (f : LlcSlice → LlcSlice) : (s.onLlc k f).colls = s.colls := rfl
@[simp] theorem State.onLlc_outside (s : State) (k : Nat) (f : LlcSlice → LlcSlice) : (s.onLlc k f).outside = s.outside := rfl
@[simp] theorem State.onLlc_codeOld (s : State) (k : Nat) (f : LlcSlice → LlcSlice) : (s.onLlc k f).codeOld = s.codeOld := rfl
@[simp] theorem State.onLlc_errors (s : State) (k : Nat) (f : LlcSlice → LlcSlice) : (s.onLlc k f).errors = s.errors := rfl
@[simp] theorem State.onLlc_down (s : State) (k : Nat) (f : LlcSlice → LlcSlice) : (s.onLlc k f).down = s.down := rfl
@[simp] theorem State.onLlc_rails (s : State) (k : Nat) (f : LlcSlice → LlcSlice) : (s.onLlc k f).rails = s.rails := rfl
@[simp] theorem State.onLlc_hostRead (s : State) (k : Nat) (f : LlcSlice → LlcSlice) : (s.onLlc k f).hostRead = s.hostRead := rfl
@[simp] theorem State.onLlc_fabricRead (s : State) (k : Nat) (f : LlcSlice → LlcSlice) : (s.onLlc k f).fabricRead = s.fabricRead := rfl
@[simp] theorem State.onLlc_agenda (s : State) (k : Nat) (f : LlcSlice → LlcSlice) : (s.onLlc k f).agenda = s.agenda := rfl
@[simp] theorem State.onLlc_cur (s : State) (k : Nat) (f : LlcSlice → LlcSlice) : (s.onLlc k f).cur = s.cur := rfl
@[simp] theorem State.onLlc_fresh (s : State) (k : Nat) (f : LlcSlice → LlcSlice) : (s.onLlc k f).fresh = s.fresh := rfl

@[simp] theorem State.spend_mem (s : State) (cl sl n : Nat) : (s.spend cl sl n).mem = s.mem := rfl
@[simp] theorem State.spend_poison (s : State) (cl sl n : Nat) : (s.spend cl sl n).poison = s.poison := rfl
@[simp] theorem State.spend_hostMem (s : State) (cl sl n : Nat) : (s.spend cl sl n).hostMem = s.hostMem := rfl
@[simp] theorem State.spend_hostErr (s : State) (cl sl n : Nat) : (s.spend cl sl n).hostErr = s.hostErr := rfl
@[simp] theorem State.spend_dramErr (s : State) (cl sl n : Nat) : (s.spend cl sl n).dramErr = s.dramErr := rfl
@[simp] theorem State.spend_remote (s : State) (cl sl n : Nat) : (s.spend cl sl n).remote = s.remote := rfl
@[simp] theorem State.spend_remoteWin (s : State) (cl sl n : Nat) : (s.spend cl sl n).remoteWin = s.remoteWin := rfl
@[simp] theorem State.spend_dies (s : State) (cl sl n : Nat) : (s.spend cl sl n).dies = s.dies := rfl
@[simp] theorem State.spend_llc (s : State) (cl sl n : Nat) : (s.spend cl sl n).llc = s.llc := rfl
@[simp] theorem State.spend_parts (s : State) (cl sl n : Nat) : (s.spend cl sl n).parts = s.parts := rfl
@[simp] theorem State.spend_queues (s : State) (cl sl n : Nat) : (s.spend cl sl n).queues = s.queues := rfl
@[simp] theorem State.spend_module (s : State) (cl sl n : Nat) : (s.spend cl sl n).module = s.module := rfl
@[simp] theorem State.spend_grids (s : State) (cl sl n : Nat) : (s.spend cl sl n).grids = s.grids := rfl
@[simp] theorem State.spend_teams (s : State) (cl sl n : Nat) : (s.spend cl sl n).teams = s.teams := rfl
@[simp] theorem State.spend_groups (s : State) (cl sl n : Nat) : (s.spend cl sl n).groups = s.groups := rfl
@[simp] theorem State.spend_accesses (s : State) (cl sl n : Nat) : (s.spend cl sl n).accesses = s.accesses := rfl
@[simp] theorem State.spend_producers (s : State) (cl sl n : Nat) : (s.spend cl sl n).producers = s.producers := rfl
@[simp] theorem State.spend_commands (s : State) (cl sl n : Nat) : (s.spend cl sl n).commands = s.commands := rfl
@[simp] theorem State.spend_objects (s : State) (cl sl n : Nat) : (s.spend cl sl n).objects = s.objects := rfl
@[simp] theorem State.spend_unsettled (s : State) (cl sl n : Nat) : (s.spend cl sl n).unsettled = s.unsettled := rfl
@[simp] theorem State.spend_convs (s : State) (cl sl n : Nat) : (s.spend cl sl n).convs = s.convs := rfl
@[simp] theorem State.spend_sectors (s : State) (cl sl n : Nat) : (s.spend cl sl n).sectors = s.sectors := rfl
@[simp] theorem State.spend_pages (s : State) (cl sl n : Nat) : (s.spend cl sl n).pages = s.pages := rfl
@[simp] theorem State.spend_fabric (s : State) (cl sl n : Nat) : (s.spend cl sl n).fabric = s.fabric := rfl
@[simp] theorem State.spend_colls (s : State) (cl sl n : Nat) : (s.spend cl sl n).colls = s.colls := rfl
@[simp] theorem State.spend_outside (s : State) (cl sl n : Nat) : (s.spend cl sl n).outside = s.outside := rfl
@[simp] theorem State.spend_codeOld (s : State) (cl sl n : Nat) : (s.spend cl sl n).codeOld = s.codeOld := rfl
@[simp] theorem State.spend_errors (s : State) (cl sl n : Nat) : (s.spend cl sl n).errors = s.errors := rfl
@[simp] theorem State.spend_down (s : State) (cl sl n : Nat) : (s.spend cl sl n).down = s.down := rfl
@[simp] theorem State.spend_rails (s : State) (cl sl n : Nat) : (s.spend cl sl n).rails = s.rails := rfl
@[simp] theorem State.spend_hostRead (s : State) (cl sl n : Nat) : (s.spend cl sl n).hostRead = s.hostRead := rfl
@[simp] theorem State.spend_fabricRead (s : State) (cl sl n : Nat) : (s.spend cl sl n).fabricRead = s.fabricRead := rfl
@[simp] theorem State.spend_agenda (s : State) (cl sl n : Nat) : (s.spend cl sl n).agenda = s.agenda := rfl
@[simp] theorem State.spend_cur (s : State) (cl sl n : Nat) : (s.spend cl sl n).cur = s.cur := rfl
@[simp] theorem State.spend_fresh (s : State) (cl sl n : Nat) : (s.spend cl sl n).fresh = s.fresh := rfl

@[simp] theorem State.advance_mem (s : State) (n cost : Nat) : (s.advance n cost).mem = s.mem := rfl
@[simp] theorem State.advance_poison (s : State) (n cost : Nat) : (s.advance n cost).poison = s.poison := rfl
@[simp] theorem State.advance_hostMem (s : State) (n cost : Nat) : (s.advance n cost).hostMem = s.hostMem := rfl
@[simp] theorem State.advance_hostErr (s : State) (n cost : Nat) : (s.advance n cost).hostErr = s.hostErr := rfl
@[simp] theorem State.advance_dramErr (s : State) (n cost : Nat) : (s.advance n cost).dramErr = s.dramErr := rfl
@[simp] theorem State.advance_remote (s : State) (n cost : Nat) : (s.advance n cost).remote = s.remote := rfl
@[simp] theorem State.advance_remoteWin (s : State) (n cost : Nat) : (s.advance n cost).remoteWin = s.remoteWin := rfl
@[simp] theorem State.advance_dies (s : State) (n cost : Nat) : (s.advance n cost).dies = s.dies := rfl
@[simp] theorem State.advance_llc (s : State) (n cost : Nat) : (s.advance n cost).llc = s.llc := rfl
@[simp] theorem State.advance_parts (s : State) (n cost : Nat) : (s.advance n cost).parts = s.parts := rfl
@[simp] theorem State.advance_queues (s : State) (n cost : Nat) : (s.advance n cost).queues = s.queues := rfl
@[simp] theorem State.advance_module (s : State) (n cost : Nat) : (s.advance n cost).module = s.module := rfl
@[simp] theorem State.advance_grids (s : State) (n cost : Nat) : (s.advance n cost).grids = s.grids := rfl
@[simp] theorem State.advance_teams (s : State) (n cost : Nat) : (s.advance n cost).teams = s.teams := rfl
@[simp] theorem State.advance_accesses (s : State) (n cost : Nat) : (s.advance n cost).accesses = s.accesses := rfl
@[simp] theorem State.advance_producers (s : State) (n cost : Nat) : (s.advance n cost).producers = s.producers := rfl
@[simp] theorem State.advance_commands (s : State) (n cost : Nat) : (s.advance n cost).commands = s.commands := rfl
@[simp] theorem State.advance_objects (s : State) (n cost : Nat) : (s.advance n cost).objects = s.objects := rfl
@[simp] theorem State.advance_unsettled (s : State) (n cost : Nat) : (s.advance n cost).unsettled = s.unsettled := rfl
@[simp] theorem State.advance_convs (s : State) (n cost : Nat) : (s.advance n cost).convs = s.convs := rfl
@[simp] theorem State.advance_sectors (s : State) (n cost : Nat) : (s.advance n cost).sectors = s.sectors := rfl
@[simp] theorem State.advance_pages (s : State) (n cost : Nat) : (s.advance n cost).pages = s.pages := rfl
@[simp] theorem State.advance_fabric (s : State) (n cost : Nat) : (s.advance n cost).fabric = s.fabric := rfl
@[simp] theorem State.advance_colls (s : State) (n cost : Nat) : (s.advance n cost).colls = s.colls := rfl
@[simp] theorem State.advance_outside (s : State) (n cost : Nat) : (s.advance n cost).outside = s.outside := rfl
@[simp] theorem State.advance_codeOld (s : State) (n cost : Nat) : (s.advance n cost).codeOld = s.codeOld := rfl
@[simp] theorem State.advance_errors (s : State) (n cost : Nat) : (s.advance n cost).errors = s.errors := rfl
@[simp] theorem State.advance_down (s : State) (n cost : Nat) : (s.advance n cost).down = s.down := rfl
@[simp] theorem State.advance_rails (s : State) (n cost : Nat) : (s.advance n cost).rails = s.rails := rfl
@[simp] theorem State.advance_hostRead (s : State) (n cost : Nat) : (s.advance n cost).hostRead = s.hostRead := rfl
@[simp] theorem State.advance_fabricRead (s : State) (n cost : Nat) : (s.advance n cost).fabricRead = s.fabricRead := rfl
@[simp] theorem State.advance_agenda (s : State) (n cost : Nat) : (s.advance n cost).agenda = s.agenda := rfl
@[simp] theorem State.advance_cur (s : State) (n cost : Nat) : (s.advance n cost).cur = s.cur := rfl
@[simp] theorem State.advance_fresh (s : State) (n cost : Nat) : (s.advance n cost).fresh = s.fresh := rfl

@[simp] theorem State.block_time (s : State) (w : Wait) : (s.block w).time = s.time := rfl
@[simp] theorem State.block_mem (s : State) (w : Wait) : (s.block w).mem = s.mem := rfl
@[simp] theorem State.block_poison (s : State) (w : Wait) : (s.block w).poison = s.poison := rfl
@[simp] theorem State.block_hostMem (s : State) (w : Wait) : (s.block w).hostMem = s.hostMem := rfl
@[simp] theorem State.block_hostErr (s : State) (w : Wait) : (s.block w).hostErr = s.hostErr := rfl
@[simp] theorem State.block_dramErr (s : State) (w : Wait) : (s.block w).dramErr = s.dramErr := rfl
@[simp] theorem State.block_remote (s : State) (w : Wait) : (s.block w).remote = s.remote := rfl
@[simp] theorem State.block_remoteWin (s : State) (w : Wait) : (s.block w).remoteWin = s.remoteWin := rfl
@[simp] theorem State.block_clusters (s : State) (w : Wait) : (s.block w).clusters = s.clusters := rfl
@[simp] theorem State.block_dies (s : State) (w : Wait) : (s.block w).dies = s.dies := rfl
@[simp] theorem State.block_llc (s : State) (w : Wait) : (s.block w).llc = s.llc := rfl
@[simp] theorem State.block_parts (s : State) (w : Wait) : (s.block w).parts = s.parts := rfl
@[simp] theorem State.block_queues (s : State) (w : Wait) : (s.block w).queues = s.queues := rfl
@[simp] theorem State.block_module (s : State) (w : Wait) : (s.block w).module = s.module := rfl
@[simp] theorem State.block_grids (s : State) (w : Wait) : (s.block w).grids = s.grids := rfl
@[simp] theorem State.block_teams (s : State) (w : Wait) : (s.block w).teams = s.teams := rfl
@[simp] theorem State.block_accesses (s : State) (w : Wait) : (s.block w).accesses = s.accesses := rfl
@[simp] theorem State.block_producers (s : State) (w : Wait) : (s.block w).producers = s.producers := rfl
@[simp] theorem State.block_commands (s : State) (w : Wait) : (s.block w).commands = s.commands := rfl
@[simp] theorem State.block_objects (s : State) (w : Wait) : (s.block w).objects = s.objects := rfl
@[simp] theorem State.block_unsettled (s : State) (w : Wait) : (s.block w).unsettled = s.unsettled := rfl
@[simp] theorem State.block_convs (s : State) (w : Wait) : (s.block w).convs = s.convs := rfl
@[simp] theorem State.block_sectors (s : State) (w : Wait) : (s.block w).sectors = s.sectors := rfl
@[simp] theorem State.block_pages (s : State) (w : Wait) : (s.block w).pages = s.pages := rfl
@[simp] theorem State.block_fabric (s : State) (w : Wait) : (s.block w).fabric = s.fabric := rfl
@[simp] theorem State.block_colls (s : State) (w : Wait) : (s.block w).colls = s.colls := rfl
@[simp] theorem State.block_outside (s : State) (w : Wait) : (s.block w).outside = s.outside := rfl
@[simp] theorem State.block_codeOld (s : State) (w : Wait) : (s.block w).codeOld = s.codeOld := rfl
@[simp] theorem State.block_errors (s : State) (w : Wait) : (s.block w).errors = s.errors := rfl
@[simp] theorem State.block_down (s : State) (w : Wait) : (s.block w).down = s.down := rfl
@[simp] theorem State.block_rails (s : State) (w : Wait) : (s.block w).rails = s.rails := rfl
@[simp] theorem State.block_hostRead (s : State) (w : Wait) : (s.block w).hostRead = s.hostRead := rfl
@[simp] theorem State.block_fabricRead (s : State) (w : Wait) : (s.block w).fabricRead = s.fabricRead := rfl
@[simp] theorem State.block_agenda (s : State) (w : Wait) : (s.block w).agenda = s.agenda := rfl
@[simp] theorem State.block_cur (s : State) (w : Wait) : (s.block w).cur = s.cur := rfl
@[simp] theorem State.block_fresh (s : State) (w : Wait) : (s.block w).fresh = s.fresh := rfl

@[simp] theorem State.kick_time (s : State) (t : Nat) : (s.kick t).time = s.time := rfl
@[simp] theorem State.kick_mem (s : State) (t : Nat) : (s.kick t).mem = s.mem := rfl
@[simp] theorem State.kick_poison (s : State) (t : Nat) : (s.kick t).poison = s.poison := rfl
@[simp] theorem State.kick_hostMem (s : State) (t : Nat) : (s.kick t).hostMem = s.hostMem := rfl
@[simp] theorem State.kick_hostErr (s : State) (t : Nat) : (s.kick t).hostErr = s.hostErr := rfl
@[simp] theorem State.kick_dramErr (s : State) (t : Nat) : (s.kick t).dramErr = s.dramErr := rfl
@[simp] theorem State.kick_remote (s : State) (t : Nat) : (s.kick t).remote = s.remote := rfl
@[simp] theorem State.kick_remoteWin (s : State) (t : Nat) : (s.kick t).remoteWin = s.remoteWin := rfl
@[simp] theorem State.kick_clusters (s : State) (t : Nat) : (s.kick t).clusters = s.clusters := rfl
@[simp] theorem State.kick_dies (s : State) (t : Nat) : (s.kick t).dies = s.dies := rfl
@[simp] theorem State.kick_llc (s : State) (t : Nat) : (s.kick t).llc = s.llc := rfl
@[simp] theorem State.kick_parts (s : State) (t : Nat) : (s.kick t).parts = s.parts := rfl
@[simp] theorem State.kick_queues (s : State) (t : Nat) : (s.kick t).queues = s.queues := rfl
@[simp] theorem State.kick_module (s : State) (t : Nat) : (s.kick t).module = s.module := rfl
@[simp] theorem State.kick_grids (s : State) (t : Nat) : (s.kick t).grids = s.grids := rfl
@[simp] theorem State.kick_groups (s : State) (t : Nat) : (s.kick t).groups = s.groups := rfl
@[simp] theorem State.kick_accesses (s : State) (t : Nat) : (s.kick t).accesses = s.accesses := rfl
@[simp] theorem State.kick_producers (s : State) (t : Nat) : (s.kick t).producers = s.producers := rfl
@[simp] theorem State.kick_commands (s : State) (t : Nat) : (s.kick t).commands = s.commands := rfl
@[simp] theorem State.kick_objects (s : State) (t : Nat) : (s.kick t).objects = s.objects := rfl
@[simp] theorem State.kick_unsettled (s : State) (t : Nat) : (s.kick t).unsettled = s.unsettled := rfl
@[simp] theorem State.kick_convs (s : State) (t : Nat) : (s.kick t).convs = s.convs := rfl
@[simp] theorem State.kick_sectors (s : State) (t : Nat) : (s.kick t).sectors = s.sectors := rfl
@[simp] theorem State.kick_pages (s : State) (t : Nat) : (s.kick t).pages = s.pages := rfl
@[simp] theorem State.kick_fabric (s : State) (t : Nat) : (s.kick t).fabric = s.fabric := rfl
@[simp] theorem State.kick_colls (s : State) (t : Nat) : (s.kick t).colls = s.colls := rfl
@[simp] theorem State.kick_outside (s : State) (t : Nat) : (s.kick t).outside = s.outside := rfl
@[simp] theorem State.kick_codeOld (s : State) (t : Nat) : (s.kick t).codeOld = s.codeOld := rfl
@[simp] theorem State.kick_errors (s : State) (t : Nat) : (s.kick t).errors = s.errors := rfl
@[simp] theorem State.kick_down (s : State) (t : Nat) : (s.kick t).down = s.down := rfl
@[simp] theorem State.kick_rails (s : State) (t : Nat) : (s.kick t).rails = s.rails := rfl
@[simp] theorem State.kick_hostRead (s : State) (t : Nat) : (s.kick t).hostRead = s.hostRead := rfl
@[simp] theorem State.kick_fabricRead (s : State) (t : Nat) : (s.kick t).fabricRead = s.fabricRead := rfl
@[simp] theorem State.kick_agenda (s : State) (t : Nat) : (s.kick t).agenda = s.agenda := rfl
@[simp] theorem State.kick_cur (s : State) (t : Nat) : (s.kick t).cur = s.cur := rfl
@[simp] theorem State.kick_fresh (s : State) (t : Nat) : (s.kick t).fresh = s.fresh := rfl

@[simp] theorem State.dropCopies_time (s : State) (cl : Nat) : (s.dropCopies cl).time = s.time := rfl
@[simp] theorem State.dropCopies_mem (s : State) (cl : Nat) : (s.dropCopies cl).mem = s.mem := rfl
@[simp] theorem State.dropCopies_poison (s : State) (cl : Nat) : (s.dropCopies cl).poison = s.poison := rfl
@[simp] theorem State.dropCopies_hostMem (s : State) (cl : Nat) : (s.dropCopies cl).hostMem = s.hostMem := rfl
@[simp] theorem State.dropCopies_hostErr (s : State) (cl : Nat) : (s.dropCopies cl).hostErr = s.hostErr := rfl
@[simp] theorem State.dropCopies_dramErr (s : State) (cl : Nat) : (s.dropCopies cl).dramErr = s.dramErr := rfl
@[simp] theorem State.dropCopies_remote (s : State) (cl : Nat) : (s.dropCopies cl).remote = s.remote := rfl
@[simp] theorem State.dropCopies_remoteWin (s : State) (cl : Nat) : (s.dropCopies cl).remoteWin = s.remoteWin := rfl
@[simp] theorem State.dropCopies_dies (s : State) (cl : Nat) : (s.dropCopies cl).dies = s.dies := rfl
@[simp] theorem State.dropCopies_llc (s : State) (cl : Nat) : (s.dropCopies cl).llc = s.llc := rfl
@[simp] theorem State.dropCopies_parts (s : State) (cl : Nat) : (s.dropCopies cl).parts = s.parts := rfl
@[simp] theorem State.dropCopies_queues (s : State) (cl : Nat) : (s.dropCopies cl).queues = s.queues := rfl
@[simp] theorem State.dropCopies_module (s : State) (cl : Nat) : (s.dropCopies cl).module = s.module := rfl
@[simp] theorem State.dropCopies_grids (s : State) (cl : Nat) : (s.dropCopies cl).grids = s.grids := rfl
@[simp] theorem State.dropCopies_teams (s : State) (cl : Nat) : (s.dropCopies cl).teams = s.teams := rfl
@[simp] theorem State.dropCopies_groups (s : State) (cl : Nat) : (s.dropCopies cl).groups = s.groups := rfl
@[simp] theorem State.dropCopies_accesses (s : State) (cl : Nat) : (s.dropCopies cl).accesses = s.accesses := rfl
@[simp] theorem State.dropCopies_producers (s : State) (cl : Nat) : (s.dropCopies cl).producers = s.producers := rfl
@[simp] theorem State.dropCopies_commands (s : State) (cl : Nat) : (s.dropCopies cl).commands = s.commands := rfl
@[simp] theorem State.dropCopies_objects (s : State) (cl : Nat) : (s.dropCopies cl).objects = s.objects := rfl
@[simp] theorem State.dropCopies_unsettled (s : State) (cl : Nat) : (s.dropCopies cl).unsettled = s.unsettled := rfl
@[simp] theorem State.dropCopies_convs (s : State) (cl : Nat) : (s.dropCopies cl).convs = s.convs := rfl
@[simp] theorem State.dropCopies_sectors (s : State) (cl : Nat) : (s.dropCopies cl).sectors = s.sectors := rfl
@[simp] theorem State.dropCopies_pages (s : State) (cl : Nat) : (s.dropCopies cl).pages = s.pages := rfl
@[simp] theorem State.dropCopies_fabric (s : State) (cl : Nat) : (s.dropCopies cl).fabric = s.fabric := rfl
@[simp] theorem State.dropCopies_colls (s : State) (cl : Nat) : (s.dropCopies cl).colls = s.colls := rfl
@[simp] theorem State.dropCopies_outside (s : State) (cl : Nat) : (s.dropCopies cl).outside = s.outside := rfl
@[simp] theorem State.dropCopies_codeOld (s : State) (cl : Nat) : (s.dropCopies cl).codeOld = s.codeOld := rfl
@[simp] theorem State.dropCopies_errors (s : State) (cl : Nat) : (s.dropCopies cl).errors = s.errors := rfl
@[simp] theorem State.dropCopies_down (s : State) (cl : Nat) : (s.dropCopies cl).down = s.down := rfl
@[simp] theorem State.dropCopies_rails (s : State) (cl : Nat) : (s.dropCopies cl).rails = s.rails := rfl
@[simp] theorem State.dropCopies_hostRead (s : State) (cl : Nat) : (s.dropCopies cl).hostRead = s.hostRead := rfl
@[simp] theorem State.dropCopies_fabricRead (s : State) (cl : Nat) : (s.dropCopies cl).fabricRead = s.fabricRead := rfl
@[simp] theorem State.dropCopies_agenda (s : State) (cl : Nat) : (s.dropCopies cl).agenda = s.agenda := rfl
@[simp] theorem State.dropCopies_cur (s : State) (cl : Nat) : (s.dropCopies cl).cur = s.cur := rfl
@[simp] theorem State.dropCopies_fresh (s : State) (cl : Nat) : (s.dropCopies cl).fresh = s.fresh := rfl

end Sys2Proof.Machine
end

