-- ==== Sys2Proof/Laws/Ops.lean ====
section
/-! SUPPORT. Laws of the named operations: what is read after an update of a group, a team, a cluster, a lane or a register, and sets of lanes. -/
namespace Sys2Proof.Machine

/-! ### Groups, teams, clusters -/

theorem State.group_setGroup (s : State) (k j : Nat) (g : Group) : (s.setGroup k g).group j = if j = k then g else s.group j :=
  FMap.at_put _ _ _ _ _
@[simp] theorem State.group_setGroup_self (s : State) (k : Nat) (g : Group) : (s.setGroup k g).group k = g := by simp [group_setGroup]

theorem State.group_onGroup (s : State) (k j : Nat) (f : Group → Group) :
    (s.onGroup k f).group j = if j = k then f (s.group k) else s.group j := FMap.at_put _ _ _ _ _
@[simp] theorem State.group_onGroup_self (s : State) (k : Nat) (f : Group → Group) : (s.onGroup k f).group k = f (s.group k) := by
  simp [group_onGroup]

@[simp] theorem State.me_onMe (s : State) (f : Group → Group) : (s.onMe f).me = f s.me := State.group_onGroup_self s s.cur f
theorem State.group_onMe (s : State) (j : Nat) (f : Group → Group) : (s.onMe f).group j = if j = s.cur then f s.me else s.group j :=
  FMap.at_put _ _ _ _ _

theorem State.team_setTeam (s : State) (k j : Nat) (t : Team) : (s.setTeam k t).team j = if j = k then t else s.team j := FMap.at_put _ _ _ _ _
@[simp] theorem State.team_setTeam_self (s : State) (k : Nat) (t : Team) : (s.setTeam k t).team k = t := by simp [team_setTeam]
theorem State.team_onTeam (s : State) (k j : Nat) (f : Team → Team) : (s.onTeam k f).team j = if j = k then f (s.team k) else s.team j :=
  FMap.at_put _ _ _ _ _
@[simp] theorem State.team_onTeam_self (s : State) (k : Nat) (f : Team → Team) : (s.onTeam k f).team k = f (s.team k) := by simp [team_onTeam]

theorem State.grid_onGrid (s : State) (k j : Nat) (f : Grid → Grid) : (s.onGrid k f).grid j = if j = k then f (s.grid k) else s.grid j :=
  FMap.at_put _ _ _ _ _
theorem State.cluster_onCluster (s : State) (k j : Nat) (f : Cluster → Cluster) :
    (s.onCluster k f).cluster j = if j = k then f (s.cluster k) else s.cluster j := FMap.at_put _ _ _ _ _
@[simp] theorem State.cluster_onCluster_self (s : State) (k : Nat) (f : Cluster → Cluster) :
    (s.onCluster k f).cluster k = f (s.cluster k) := by simp [cluster_onCluster]
theorem State.part_onPart (s : State) (k j : Nat) (f : Partition → Partition) :
    (s.onPart k f).part j = if j = k then f (s.part k) else s.part j := FMap.at_put _ _ _ _ _
@[simp] theorem State.part_onPart_self (s : State) (k : Nat) (f : Partition → Partition) : (s.onPart k f).part k = f (s.part k) := by
  simp [part_onPart]
theorem State.die_onDie (s : State) (k j : Nat) (f : Die → Die) : (s.onDie k f).die j = if j = k then f (s.die k) else s.die j :=
  FMap.at_put _ _ _ _ _
theorem Cluster.slice_onSlice (c : Cluster) (k j : Nat) (f : Slice → Slice) :
    (c.onSlice k f).slice j = if j = k then f (c.slice k) else c.slice j := FMap.at_put _ _ _ _ _

/-! ### Updates that leave other tables alone -/

@[simp] theorem State.group_setTeam (s : State) (k j : Nat) (t : Team) : (s.setTeam k t).group j = s.group j := rfl
@[simp] theorem State.group_onTeam (s : State) (k j : Nat) (f : Team → Team) : (s.onTeam k f).group j = s.group j := rfl
@[simp] theorem State.group_onGrid (s : State) (k j : Nat) (f : Grid → Grid) : (s.onGrid k f).group j = s.group j := rfl
@[simp] theorem State.group_onCluster (s : State) (k j : Nat) (f : Cluster → Cluster) : (s.onCluster k f).group j = s.group j := rfl
@[simp] theorem State.group_onDie (s : State) (k j : Nat) (f : Die → Die) : (s.onDie k f).group j = s.group j := rfl
@[simp] theorem State.group_onPart (s : State) (k j : Nat) (f : Partition → Partition) : (s.onPart k f).group j = s.group j := rfl
@[simp] theorem State.group_spend (s : State) (cl sl n j : Nat) : (s.spend cl sl n).group j = s.group j := rfl
@[simp] theorem State.cluster_onDie (s : State) (k j : Nat) (f : Die → Die) : (s.onDie k f).cluster j = s.cluster j := rfl
@[simp] theorem State.die_onCluster (s : State) (k j : Nat) (f : Cluster → Cluster) : (s.onCluster k f).die j = s.die j := rfl
@[simp] theorem State.me_spend (s : State) (cl sl n : Nat) : (s.spend cl sl n).me = s.me := rfl
@[simp] theorem State.me_setTeam (s : State) (k : Nat) (t : Team) : (s.setTeam k t).me = s.me := rfl
@[simp] theorem State.me_onTeam (s : State) (k : Nat) (f : Team → Team) : (s.onTeam k f).me = s.me := rfl
@[simp] theorem State.me_onGrid (s : State) (k : Nat) (f : Grid → Grid) : (s.onGrid k f).me = s.me := rfl
@[simp] theorem State.me_onCluster (s : State) (k : Nat) (f : Cluster → Cluster) : (s.onCluster k f).me = s.me := rfl
@[simp] theorem State.team_setGroup (s : State) (k j : Nat) (g : Group) : (s.setGroup k g).team j = s.team j := rfl
@[simp] theorem State.team_onGroup (s : State) (k j : Nat) (f : Group → Group) : (s.onGroup k f).team j = s.team j := rfl
@[simp] theorem State.team_onMe (s : State) (j : Nat) (f : Group → Group) : (s.onMe f).team j = s.team j := rfl
@[simp] theorem State.team_spend (s : State) (cl sl n j : Nat) : (s.spend cl sl n).team j = s.team j := rfl
@[simp] theorem State.team_advance (s : State) (n c j : Nat) : (s.advance n c).team j = s.team j := rfl
@[simp] theorem State.grid_onGroup (s : State) (k j : Nat) (f : Group → Group) : (s.onGroup k f).grid j = s.grid j := rfl
@[simp] theorem State.grid_onMe (s : State) (j : Nat) (f : Group → Group) : (s.onMe f).grid j = s.grid j := rfl
@[simp] theorem State.cluster_onGroup (s : State) (k j : Nat) (f : Group → Group) : (s.onGroup k f).cluster j = s.cluster j := rfl
@[simp] theorem State.cluster_onMe (s : State) (j : Nat) (f : Group → Group) : (s.onMe f).cluster j = s.cluster j := rfl
@[simp] theorem State.cluster_setTeam (s : State) (k j : Nat) (t : Team) : (s.setTeam k t).cluster j = s.cluster j := rfl
@[simp] theorem State.cluster_onTeam (s : State) (k j : Nat) (f : Team → Team) : (s.onTeam k f).cluster j = s.cluster j := rfl
@[simp] theorem State.cluster_setGroup (s : State) (k j : Nat) (g : Group) : (s.setGroup k g).cluster j = s.cluster j := rfl

/-! ### Issue of a word -/

/-- The group after the word's issue: its run stands behind the word (R29). -/
@[simp] theorem State.me_advance (s : State) (n c : Nat) :
    (s.advance n c).me = { s.me with run := { s.me.run with idx := s.me.run.idx + n, used := s.me.run.used + n } } := by
  unfold State.advance
  simp only [State.me_onMe, State.me_spend]

/-- The issue of a word changes the reference counter, the clusters and the groups, nothing else. -/
theorem State.advance_eq (s : State) (n c : Nat) : ∃ t cl g, s.advance n c = { s with time := t, clusters := cl, groups := g } := ⟨_, _, _, rfl⟩

theorem State.group_advance (s : State) (n c j : Nat) (h : j ≠ s.cur) : (s.advance n c).group j = s.group j := by
  unfold State.advance
  rw [State.group_onMe]
  simp [h]

/-- A cluster after a slice has issued: only that slice's counters change. -/
theorem State.cluster_spend (s : State) (cl sl n : Nat) :
    ∃ x : Slice, ∀ j, (s.spend cl sl n).cluster j = if j = cl then (s.cluster cl).onSlice sl (fun _ => x) else s.cluster j := by
  unfold State.spend
  exact ⟨_, fun j => FMap.at_put _ _ _ _ _⟩

theorem State.cluster_advance (s : State) (n c : Nat) :
    ∃ x : Slice, ∀ j, (s.advance n c).cluster j =
      if j = s.me.cluster then (s.cluster s.me.cluster).onSlice s.me.slice (fun _ => x) else s.cluster j :=
  State.cluster_spend _ _ _ _

/-! ### Sets of lanes -/

theorem setNat_lt (p : Nat → Bool) (n : Nat) : setNat p n < 2 ^ n := by
  induction n with
  | zero => simp [setNat]
  | succ n ih => unfold setNat; split_ifs <;> simp only [pow_succ] <;> omega

theorem testBit_setNat (p : Nat → Bool) (n l : Nat) : (setNat p n).testBit l = (decide (l < n) && p l) := by
  induction n with
  | zero => simp [setNat]
  | succ n ih =>
    have hlt := setNat_lt p n
    unfold setNat
    by_cases hp : p n
    · simp only [hp, if_true]
      by_cases hl : l = n
      · subst hl
        rw [Nat.testBit_two_pow_add_eq, ih]; simp [hp]
      · by_cases h2 : l < n
        · rw [Nat.testBit_two_pow_add_gt h2, ih]; simp [h2, Nat.lt_succ_of_lt h2]
        · have h3 : n < l := by omega
          have h4 : ¬ l < n + 1 := by omega
          rw [Nat.testBit_lt_two_pow (lt_of_lt_of_le (show 2 ^ n + setNat p n < 2 ^ (n + 1) by rw [pow_succ]; omega)
            (Nat.pow_le_pow_right (by norm_num) h3))]
          simp [h4]
    · simp only [hp, Bool.false_eq_true, if_false, Nat.zero_add, ih]
      by_cases hl : l = n
      · subst hl; simp [hp]
      · have : (l < n) = (l < n + 1) := by simp only [eq_iff_iff]; omega
        simp [this]

/-- A lane is in the set of the lanes for which `p` holds. -/
@[simp] theorem inSet_setOf (p : Nat → Bool) (l : Nat) : inSet (setOf p) l = (decide (l < 64) && p l) := by
  unfold inSet setOf
  rw [BitVec.getLsbD_ofNat, testBit_setNat]
  by_cases h : l < 64 <;> simp [h]

theorem inSet_lt {m : LaneSet} {l : Nat} (h : inSet m l = true) : l < 64 := BitVec.lt_of_getLsbD h

@[simp] theorem mem_lanesIn (m : LaneSet) (l : Nat) : l ∈ lanesIn m ↔ inSet m l = true := by
  simp only [lanesIn, List.mem_filter, List.mem_range]
  exact ⟨fun h => h.2, fun h => ⟨inSet_lt h, h⟩⟩

/-! ### Lanes of a group -/

/-- A lane after the lanes of a set have been changed. -/
theorem Group.lane_mapLanes (g : Group) (m : LaneSet) (f : Nat → Lane → Lane) {l : Nat} (h : l < 64) :
    (g.mapLanes m f).lane l = if inSet m l then f l (g.lane l) else g.lane l := by
  simp [Group.mapLanes, Group.lane, FMap.at, FMap.look_tab, h]

theorem Group.lane_onLane (g : Group) (k l : Nat) (f : Lane → Lane) : (g.onLane k f).lane l = if l = k then f (g.lane k) else g.lane l :=
  FMap.at_put _ _ _ _ _

@[simp] theorem Group.mapLanes_rest (g : Group) (m : LaneSet) (f : Nat → Lane → Lane) :
    { g.mapLanes m f with lanes := [] } = { g with lanes := [] } := rfl

/-! ### Registers of a lane -/

theorem Lane.reg_setReg (n : Lane) (r k : Nat) (v : Word) : (n.setReg r v).reg k = if k = r then v else n.reg k := FMap.at_put _ _ _ _ _

theorem Lane.isEmpty_setReg (n : Lane) (r k : Nat) (v : Word) (h : k < 72) :
    (n.setReg r v).isEmpty k = if k = r then false else n.isEmpty k := by
  simp only [Lane.isEmpty, Lane.setReg, BitVec.getLsbD_and, BitVec.getLsbD_not, BitVec.getLsbD_shiftLeft, BitVec.getLsbD_one, h, decide_true]
  by_cases hk : k = r
  · subst hk; simp
  · rw [if_neg hk]
    by_cases h2 : k < r
    · simp [h2]
    · have : k - r ≠ 0 := by omega
      simp [this]

theorem Lane.isEmpty_emptyReg (n : Lane) (r k : Nat) (h : k < 72) : (n.emptyReg r).isEmpty k = (n.isEmpty k || decide (k = r)) := by
  simp only [Lane.isEmpty, Lane.emptyReg, BitVec.getLsbD_or, BitVec.getLsbD_shiftLeft, BitVec.getLsbD_one, h, decide_true]
  by_cases hk : k = r
  · subst hk; simp
  · by_cases h2 : k < r
    · simp [h2, hk]
    · have : k - r ≠ 0 := by omega
      simp [this, hk]

@[simp] theorem Lane.reg_setLr (n : Lane) (v : Word) (k : Nat) : (n.setLr v).reg k = n.reg k := rfl
@[simp] theorem Lane.isEmpty_setLr (n : Lane) (v : Word) (k : Nat) : (n.setLr v).isEmpty k = n.isEmpty k := rfl
@[simp] theorem Lane.reg_orFlags (n : Lane) (f : FpFlags) (k : Nat) : (n.orFlags f).reg k = n.reg k := rfl
@[simp] theorem Lane.reg_emptyReg (n : Lane) (r k : Nat) : (n.emptyReg r).reg k = n.reg k := rfl
@[simp] theorem Lane.isEmpty_orFlags (n : Lane) (f : FpFlags) (k : Nat) : (n.orFlags f).isEmpty k = n.isEmpty k := rfl
@[simp] theorem Lane.reg_setPred (n : Lane) (p : Nat) (v : Bool) (k : Nat) : (n.setPred p v).reg k = n.reg k := rfl

/-- A predicate after one has been written. -/
theorem Lane.pred_setPred (n : Lane) (p q : Nat) (v : Bool) (hp : p < 24) (hq : q < 24) :
    (n.setPred p v).pred q = if q = p then v else n.pred q := by
  have h31 : q ≠ 31 := by omega
  simp only [Lane.pred, h31, if_false, Lane.setPred]
  cases v
  · simp only [Bool.false_eq_true, if_false, BitVec.getLsbD_and, BitVec.getLsbD_not, BitVec.getLsbD_shiftLeft, BitVec.getLsbD_one, hq, decide_true]
    by_cases h : q = p
    · subst h; simp
    · by_cases h2 : q < p
      · simp [h2, h]
      · have : q - p ≠ 0 := by omega
        simp [this, h]
  · simp only [if_true, BitVec.getLsbD_or, BitVec.getLsbD_shiftLeft, BitVec.getLsbD_one, hq, decide_true]
    by_cases h : q = p
    · subst h; simp
    · by_cases h2 : q < p
      · simp [h2, h]
      · have : q - p ≠ 0 := by omega
        simp [this, h]

/-! ### Scalar registers -/

theorem Group.s_setS (g : Group) (r k : Nat) (v : Word) : (g.setS r v).s k = if k = r then v else g.s k := FMap.at_put _ _ _ _ _

theorem Group.sIsEmpty_setS (g : Group) (r k : Nat) (v : Word) (h : k < 32) :
    (g.setS r v).sIsEmpty k = if k = r then false else g.sIsEmpty k := by
  simp only [Group.sIsEmpty, Group.setS, BitVec.getLsbD_and, BitVec.getLsbD_not, BitVec.getLsbD_shiftLeft, BitVec.getLsbD_one, h, decide_true]
  by_cases hk : k = r
  · subst hk; simp
  · rw [if_neg hk]
    by_cases h2 : k < r
    · simp [h2]
    · have : k - r ≠ 0 := by omega
      simp [this]

end Sys2Proof.Machine
end

