-- ==== Sys2Proof/Laws/Caches.lean ====
section
/-! SUPPORT. What the caches' own operations can do (Caches.lean): each leaves everything but cached lines, translations and the counts of them. -/
namespace Sys2Proof.Machine

theorem CachesOnly.refl (s : State) : CachesOnly s s := ⟨rfl, fun _ => rfl, fun _ => rfl, fun _ => rfl⟩

theorem CachesOnly.trans {s t u : State} (h : CachesOnly s t) (k : CachesOnly t u) : CachesOnly s u := by
  refine ⟨?_, fun c => ?_, fun d => ?_, fun p => ?_⟩
  · have := congrArg (fun x : State => { x with clusters := s.clusters, dies := s.dies, llc := s.llc, parts := s.parts }) k.world
    exact this.trans h.world
  · have := congrArg (fun x : Cluster => { x with
      l1 := (s.cluster c).l1, stale := (s.cluster c).stale, dirty := (s.cluster c).dirty, l1Hits := (s.cluster c).l1Hits, l1Misses := (s.cluster c).l1Misses, tlb := (s.cluster c).tlb }) (k.cluster c)
    exact this.trans (h.cluster c)
  · have := congrArg (fun x : Die => { x with tlb := (s.die d).tlb }) (k.die d)
    exact this.trans (h.die d)
  · have := congrArg (fun x : Partition => { x with errcnt := (s.part p).errcnt }) (k.part p)
    exact this.trans (h.part p)

theorem CachesOnly.foldl {α : Type} (f : State → α → State) (xs : List α) (h : ∀ x ∈ xs, ∀ s, CachesOnly s (f s x)) (s : State) :
    CachesOnly s (xs.foldl f s) := by
  induction xs generalizing s with
  | nil => exact CachesOnly.refl s
  | cons x xs ih => exact (h x (by simp) s).trans (ih (fun y hy => h y (by simp [hy])) _)

/-- A slice of the LLC changed. -/
theorem State.onLlc_caches (s : State) (k : Nat) (f : LlcSlice → LlcSlice) : CachesOnly s (s.onLlc k f) :=
  ⟨rfl, fun _ => rfl, fun _ => rfl, fun _ => rfl⟩

/-- The L1 of a cluster changed. -/
theorem State.onCluster_caches (s : State) (cl : Nat) (f : Cluster → Cluster)
    (h : ∀ c : Cluster, { f c with l1 := c.l1, stale := c.stale, dirty := c.dirty, l1Hits := c.l1Hits, l1Misses := c.l1Misses, tlb := c.tlb } = c) : CachesOnly s (s.onCluster cl f) := by
  refine ⟨rfl, fun c => ?_, fun _ => rfl, fun _ => rfl⟩
  rw [State.cluster_onCluster]; split_ifs with e
  · rw [e]; exact h _
  · rfl

theorem State.useLine_caches (s : State) (cl line : Nat) : CachesOnly s (s.useLine cl line) := s.onLlc_caches _ _
theorem State.llcFill_caches (s : State) (line v : Nat) : CachesOnly s (s.llcFill line v) := s.onLlc_caches _ _
theorem State.moveBytes_caches (s : State) (part line : Nat) : CachesOnly s (s.moveBytes part line) := s.onLlc_caches _ _

/-- R219, R220. A request at a slice changes the LLC alone. -/
theorem State.llcAccess_caches (s : State) (who : Option Nat) (line v : Nat) : CachesOnly s (s.llcAccess who line v) := by
  unfold State.llcAccess
  cases who with
  | none => exact s.llcFill_caches _ _
  | some cl => exact ((s.useLine_caches cl line).trans (State.moveBytes_caches _ _ _)).trans (State.llcFill_caches _ _ _)

theorem State.evictLine_caches (s : State) (cl line : Nat) : CachesOnly s (s.evictLine cl line) := by
  unfold State.evictLine
  refine CachesOnly.trans ?_ (State.onCluster_caches _ _ _ (fun _ => rfl))
  split_ifs
  · exact s.llcFill_caches _ _
  · exact CachesOnly.refl s

/-- R219. A fill of an L1, with the victim it takes, changes cached lines alone. -/
theorem State.l1Fill_caches (s : State) (cl line v : Nat) : CachesOnly s (s.l1Fill cl line v) := by
  unfold State.l1Fill
  split
  · exact CachesOnly.refl s
  · split
    · exact CachesOnly.refl s
    · refine CachesOnly.trans ?_ (State.onCluster_caches _ _ _ (fun _ => rfl))
      split
      · exact s.evictLine_caches _ _
      · exact CachesOnly.refl s

theorem State.l1Use_caches (s : State) (cl line v : Nat) : CachesOnly s (s.l1Use cl line v) := by
  unfold State.l1Use
  split_ifs
  · exact s.onCluster_caches _ _ (fun _ => rfl)
  · exact (s.l1Fill_caches _ _ _).trans (State.onCluster_caches _ _ _ (fun _ => rfl))

/-- R214, R219. A read of a line through an L1 changes cached lines alone. -/
theorem State.fetchLine_caches (s : State) (cl line v : Nat) : CachesOnly s (s.fetchLine cl line v) := by
  unfold State.fetchLine
  split
  · exact s.l1Use_caches _ _ _
  · split
    · refine CachesOnly.trans ?_ (State.l1Use_caches _ _ _ _)
      split_ifs
      · exact s.llcAccess_caches _ _ _
      · exact s.l1Use_caches _ _ _
    · exact (s.llcAccess_caches _ _ _).trans (State.l1Use_caches _ _ _ _)

/-- R214, R219. What a write does to the caches besides its bytes. -/
theorem State.cacheWrite_caches (s : State) (cl : Option Nat) (v line : Nat) : CachesOnly s (s.cacheWrite cl v line) := by
  unfold State.cacheWrite
  split
  · refine (s.l1Use_caches _ _ _).trans (State.onCluster_caches _ _ _ (fun c => ?_))
    split_ifs <;> rfl
  · refine CachesOnly.trans ?_ (State.llcAccess_caches _ _ _ _)
    split
    · split_ifs
      · exact s.l1Use_caches _ _ _
      · exact CachesOnly.refl s
    · exact CachesOnly.refl s

/-- R214. An acquire drops copies alone. -/
theorem State.dropCopies_caches (s : State) (cl : Nat) : CachesOnly s (s.dropCopies cl) := s.onCluster_caches _ _ (fun _ => rfl)

/-- R220, R217. A line moved between slices changes the LLC alone. -/
theorem State.moveLine_caches (s : State) (line src dest : Nat) : CachesOnly s (s.moveLine line src dest) := by
  unfold State.moveLine
  exact (s.onLlc_caches _ _).trans (State.onLlc_caches _ _ _)

/-- What leaves all but caches leaves memory, groups, teams and what is in flight. -/
theorem CachesOnly.kept {s t : State} (h : CachesOnly s t) : t.mem = s.mem ∧ t.poison = s.poison ∧ t.hostMem = s.hostMem ∧ t.remote = s.remote ∧
    t.groups = s.groups ∧ t.teams = s.teams ∧ t.grids = s.grids ∧ t.accesses = s.accesses ∧ t.commands = s.commands ∧ t.producers = s.producers ∧
    t.objects = s.objects ∧ t.sectors = s.sectors ∧ t.time = s.time ∧ t.fresh = s.fresh ∧ t.cur = s.cur := by
  have w := h.world
  cases s; cases t
  simp only [State.mk.injEq] at w
  simp_all

end Sys2Proof.Machine
end

