-- ==== Sys2Proof/Laws/Dispatch.lean ====
section
/-! SUPPORT. One law for each arm of `exec`: the meaning that an instruction has. -/
namespace Sys2Proof.Machine

@[simp] theorem exec_viadd (d : BitVec 7) (a : BitVec 7) (b : BitVec 7) (ea : Bool) (eb : Bool) (s : State) :
    exec (.viadd d a b ea eb) s = execViadd d a b ea eb s := rfl
@[simp] theorem exec_visub (d : BitVec 7) (a : BitVec 7) (b : BitVec 7) (ea : Bool) (eb : Bool) (s : State) :
    exec (.visub d a b ea eb) s = execVisub d a b ea eb s := rfl
@[simp] theorem exec_viadds (d : BitVec 7) (a : BitVec 7) (b : BitVec 7) (ea : Bool) (eb : Bool) (s : State) :
    exec (.viadds d a b ea eb) s = execViadds d a b ea eb s := rfl
@[simp] theorem exec_visubs (d : BitVec 7) (a : BitVec 7) (b : BitVec 7) (ea : Bool) (eb : Bool) (s : State) :
    exec (.visubs d a b ea eb) s = execVisubs d a b ea eb s := rfl
@[simp] theorem exec_vimul (d : BitVec 7) (a : BitVec 7) (b : BitVec 7) (ea : Bool) (eb : Bool) (s : State) :
    exec (.vimul d a b ea eb) s = execVimul d a b ea eb s := rfl
@[simp] theorem exec_vimulh (d : BitVec 7) (a : BitVec 7) (b : BitVec 7) (ea : Bool) (eb : Bool) (s : State) :
    exec (.vimulh d a b ea eb) s = execVimulh d a b ea eb s := rfl
@[simp] theorem exec_vumulh (d : BitVec 7) (a : BitVec 7) (b : BitVec 7) (ea : Bool) (eb : Bool) (s : State) :
    exec (.vumulh d a b ea eb) s = execVumulh d a b ea eb s := rfl
@[simp] theorem exec_vimac (d : BitVec 7) (a : BitVec 7) (b : BitVec 7) (ea : Bool) (eb : Bool) (s : State) :
    exec (.vimac d a b ea eb) s = execVimac d a b ea eb s := rfl
@[simp] theorem exec_vimin (d : BitVec 7) (a : BitVec 7) (b : BitVec 7) (ea : Bool) (eb : Bool) (s : State) :
    exec (.vimin d a b ea eb) s = execVimin d a b ea eb s := rfl
@[simp] theorem exec_vimax (d : BitVec 7) (a : BitVec 7) (b : BitVec 7) (ea : Bool) (eb : Bool) (s : State) :
    exec (.vimax d a b ea eb) s = execVimax d a b ea eb s := rfl
@[simp] theorem exec_vumin (d : BitVec 7) (a : BitVec 7) (b : BitVec 7) (ea : Bool) (eb : Bool) (s : State) :
    exec (.vumin d a b ea eb) s = execVumin d a b ea eb s := rfl
@[simp] theorem exec_vumax (d : BitVec 7) (a : BitVec 7) (b : BitVec 7) (ea : Bool) (eb : Bool) (s : State) :
    exec (.vumax d a b ea eb) s = execVumax d a b ea eb s := rfl
@[simp] theorem exec_vand (d : BitVec 7) (a : BitVec 7) (b : BitVec 7) (ea : Bool) (eb : Bool) (s : State) :
    exec (.vand d a b ea eb) s = execVand d a b ea eb s := rfl
@[simp] theorem exec_vor (d : BitVec 7) (a : BitVec 7) (b : BitVec 7) (ea : Bool) (eb : Bool) (s : State) :
    exec (.vor d a b ea eb) s = execVor d a b ea eb s := rfl
@[simp] theorem exec_vxor (d : BitVec 7) (a : BitVec 7) (b : BitVec 7) (ea : Bool) (eb : Bool) (s : State) :
    exec (.vxor d a b ea eb) s = execVxor d a b ea eb s := rfl
@[simp] theorem exec_vandn (d : BitVec 7) (a : BitVec 7) (b : BitVec 7) (ea : Bool) (eb : Bool) (s : State) :
    exec (.vandn d a b ea eb) s = execVandn d a b ea eb s := rfl
@[simp] theorem exec_vshl (d : BitVec 7) (a : BitVec 7) (b : BitVec 7) (ea : Bool) (eb : Bool) (s : State) :
    exec (.vshl d a b ea eb) s = execVshl d a b ea eb s := rfl
@[simp] theorem exec_vshr (d : BitVec 7) (a : BitVec 7) (b : BitVec 7) (ea : Bool) (eb : Bool) (s : State) :
    exec (.vshr d a b ea eb) s = execVshr d a b ea eb s := rfl
@[simp] theorem exec_vsar (d : BitVec 7) (a : BitVec 7) (b : BitVec 7) (ea : Bool) (eb : Bool) (s : State) :
    exec (.vsar d a b ea eb) s = execVsar d a b ea eb s := rfl
@[simp] theorem exec_vrol (d : BitVec 7) (a : BitVec 7) (b : BitVec 7) (ea : Bool) (eb : Bool) (s : State) :
    exec (.vrol d a b ea eb) s = execVrol d a b ea eb s := rfl
@[simp] theorem exec_vclz (d : BitVec 7) (a : BitVec 7) (ea : Bool) (eb : Bool) (s : State) :
    exec (.vclz d a ea eb) s = execVclz d a ea eb s := rfl
@[simp] theorem exec_vpopc (d : BitVec 7) (a : BitVec 7) (ea : Bool) (eb : Bool) (s : State) :
    exec (.vpopc d a ea eb) s = execVpopc d a ea eb s := rfl
@[simp] theorem exec_vbrev (d : BitVec 7) (a : BitVec 7) (ea : Bool) (eb : Bool) (s : State) :
    exec (.vbrev d a ea eb) s = execVbrev d a ea eb s := rfl
@[simp] theorem exec_viabs (d : BitVec 7) (a : BitVec 7) (ea : Bool) (eb : Bool) (s : State) :
    exec (.viabs d a ea eb) s = execViabs d a ea eb s := rfl
@[simp] theorem exec_vfadd (d : BitVec 7) (a : BitVec 7) (b : BitVec 7) (ea : Bool) (eb : Bool) (s : State) :
    exec (.vfadd d a b ea eb) s = execVfadd d a b ea eb s := rfl
@[simp] theorem exec_vfsub (d : BitVec 7) (a : BitVec 7) (b : BitVec 7) (ea : Bool) (eb : Bool) (s : State) :
    exec (.vfsub d a b ea eb) s = execVfsub d a b ea eb s := rfl
@[simp] theorem exec_vfmul (d : BitVec 7) (a : BitVec 7) (b : BitVec 7) (ea : Bool) (eb : Bool) (s : State) :
    exec (.vfmul d a b ea eb) s = execVfmul d a b ea eb s := rfl
@[simp] theorem exec_vfma (d : BitVec 7) (a : BitVec 7) (b : BitVec 7) (ea : Bool) (eb : Bool) (s : State) :
    exec (.vfma d a b ea eb) s = execVfma d a b ea eb s := rfl
@[simp] theorem exec_vfnma (d : BitVec 7) (a : BitVec 7) (b : BitVec 7) (ea : Bool) (eb : Bool) (s : State) :
    exec (.vfnma d a b ea eb) s = execVfnma d a b ea eb s := rfl
@[simp] theorem exec_vfmin (d : BitVec 7) (a : BitVec 7) (b : BitVec 7) (ea : Bool) (eb : Bool) (s : State) :
    exec (.vfmin d a b ea eb) s = execVfmin d a b ea eb s := rfl
@[simp] theorem exec_vfmax (d : BitVec 7) (a : BitVec 7) (b : BitVec 7) (ea : Bool) (eb : Bool) (s : State) :
    exec (.vfmax d a b ea eb) s = execVfmax d a b ea eb s := rfl
@[simp] theorem exec_vfcopysign (d : BitVec 7) (a : BitVec 7) (b : BitVec 7) (ea : Bool) (eb : Bool) (s : State) :
    exec (.vfcopysign d a b ea eb) s = execVfcopysign d a b ea eb s := rfl
@[simp] theorem exec_vhaddBf (d : BitVec 7) (a : BitVec 7) (b : BitVec 7) (ea : Bool) (eb : Bool) (s : State) :
    exec (.vhaddBf d a b ea eb) s = execVhaddBf d a b ea eb s := rfl
@[simp] theorem exec_vhmulBf (d : BitVec 7) (a : BitVec 7) (b : BitVec 7) (ea : Bool) (eb : Bool) (s : State) :
    exec (.vhmulBf d a b ea eb) s = execVhmulBf d a b ea eb s := rfl
@[simp] theorem exec_vhfmaBf (d : BitVec 7) (a : BitVec 7) (b : BitVec 7) (ea : Bool) (eb : Bool) (s : State) :
    exec (.vhfmaBf d a b ea eb) s = execVhfmaBf d a b ea eb s := rfl
@[simp] theorem exec_vhaddH (d : BitVec 7) (a : BitVec 7) (b : BitVec 7) (ea : Bool) (eb : Bool) (s : State) :
    exec (.vhaddH d a b ea eb) s = execVhaddH d a b ea eb s := rfl
@[simp] theorem exec_vhmulH (d : BitVec 7) (a : BitVec 7) (b : BitVec 7) (ea : Bool) (eb : Bool) (s : State) :
    exec (.vhmulH d a b ea eb) s = execVhmulH d a b ea eb s := rfl
@[simp] theorem exec_vhfmaH (d : BitVec 7) (a : BitVec 7) (b : BitVec 7) (ea : Bool) (eb : Bool) (s : State) :
    exec (.vhfmaH d a b ea eb) s = execVhfmaH d a b ea eb s := rfl
@[simp] theorem exec_vdot2Bf (d : BitVec 7) (a : BitVec 7) (b : BitVec 7) (ea : Bool) (eb : Bool) (s : State) :
    exec (.vdot2Bf d a b ea eb) s = execVdot2Bf d a b ea eb s := rfl
@[simp] theorem exec_vdot4I8 (d : BitVec 7) (a : BitVec 7) (b : BitVec 7) (ea : Bool) (eb : Bool) (s : State) :
    exec (.vdot4I8 d a b ea eb) s = execVdot4I8 d a b ea eb s := rfl
@[simp] theorem exec_vmov (d : BitVec 7) (a : BitVec 7) (ea : Bool) (eb : Bool) (s : State) :
    exec (.vmov d a ea eb) s = execVmov d a ea eb s := rfl
@[simp] theorem exec_vfabs (d : BitVec 7) (a : BitVec 7) (ea : Bool) (eb : Bool) (s : State) :
    exec (.vfabs d a ea eb) s = execVfabs d a ea eb s := rfl
@[simp] theorem exec_vfneg (d : BitVec 7) (a : BitVec 7) (ea : Bool) (eb : Bool) (s : State) :
    exec (.vfneg d a ea eb) s = execVfneg d a ea eb s := rfl
@[simp] theorem exec_viaddi (d : BitVec 7) (e : Bool) (imm : BitVec 16) (s : State) :
    exec (.viaddi d e imm) s = execViaddi d e imm s := rfl
@[simp] theorem exec_vandi (d : BitVec 7) (e : Bool) (imm : BitVec 16) (s : State) :
    exec (.vandi d e imm) s = execVandi d e imm s := rfl
@[simp] theorem exec_vori (d : BitVec 7) (e : Bool) (imm : BitVec 16) (s : State) :
    exec (.vori d e imm) s = execVori d e imm s := rfl
@[simp] theorem exec_vxori (d : BitVec 7) (e : Bool) (imm : BitVec 16) (s : State) :
    exec (.vxori d e imm) s = execVxori d e imm s := rfl
@[simp] theorem exec_vmovi (d : BitVec 7) (imm : BitVec 16) (s : State) :
    exec (.vmovi d imm) s = execVmovi d imm s := rfl
@[simp] theorem exec_vmovhi (d : BitVec 7) (e : Bool) (imm : BitVec 16) (s : State) :
    exec (.vmovhi d e imm) s = execVmovhi d e imm s := rfl
@[simp] theorem exec_vshli (d : BitVec 7) (e : Bool) (imm : BitVec 5) (s : State) :
    exec (.vshli d e imm) s = execVshli d e imm s := rfl
@[simp] theorem exec_vshri (d : BitVec 7) (e : Bool) (imm : BitVec 5) (s : State) :
    exec (.vshri d e imm) s = execVshri d e imm s := rfl
@[simp] theorem exec_vsari (d : BitVec 7) (e : Bool) (imm : BitVec 5) (s : State) :
    exec (.vsari d e imm) s = execVsari d e imm s := rfl
@[simp] theorem exec_vimuli (d : BitVec 7) (e : Bool) (imm : BitVec 16) (s : State) :
    exec (.vimuli d e imm) s = execVimuli d e imm s := rfl
@[simp] theorem exec_vfaddi (d : BitVec 7) (e : Bool) (imm : BitVec 16) (s : State) :
    exec (.vfaddi d e imm) s = execVfaddi d e imm s := rfl
@[simp] theorem exec_vfmuli (d : BitVec 7) (e : Bool) (imm : BitVec 16) (s : State) :
    exec (.vfmuli d e imm) s = execVfmuli d e imm s := rfl
@[simp] theorem exec_vmovfi (d : BitVec 7) (imm : BitVec 16) (s : State) :
    exec (.vmovfi d imm) s = execVmovfi d imm s := rfl
@[simp] theorem exec_vlanei (d : BitVec 7) (imm : BitVec 16) (s : State) :
    exec (.vlanei d imm) s = execVlanei d imm s := rfl
@[simp] theorem exec_vcmpEq (pd : BitVec 5) (a : BitVec 7) (b : BitVec 7) (c : BitVec 2) (ea : Bool) (eb : Bool) (s : State) :
    exec (.vcmpEq pd a b c ea eb) s = execVcmpEq pd a b c ea eb s := rfl
@[simp] theorem exec_vcmpNe (pd : BitVec 5) (a : BitVec 7) (b : BitVec 7) (c : BitVec 2) (ea : Bool) (eb : Bool) (s : State) :
    exec (.vcmpNe pd a b c ea eb) s = execVcmpNe pd a b c ea eb s := rfl
@[simp] theorem exec_vcmpLt (pd : BitVec 5) (a : BitVec 7) (b : BitVec 7) (c : BitVec 2) (ea : Bool) (eb : Bool) (s : State) :
    exec (.vcmpLt pd a b c ea eb) s = execVcmpLt pd a b c ea eb s := rfl
@[simp] theorem exec_vcmpLe (pd : BitVec 5) (a : BitVec 7) (b : BitVec 7) (c : BitVec 2) (ea : Bool) (eb : Bool) (s : State) :
    exec (.vcmpLe pd a b c ea eb) s = execVcmpLe pd a b c ea eb s := rfl
@[simp] theorem exec_vcmpGt (pd : BitVec 5) (a : BitVec 7) (b : BitVec 7) (c : BitVec 2) (ea : Bool) (eb : Bool) (s : State) :
    exec (.vcmpGt pd a b c ea eb) s = execVcmpGt pd a b c ea eb s := rfl
@[simp] theorem exec_vcmpGe (pd : BitVec 5) (a : BitVec 7) (b : BitVec 7) (c : BitVec 2) (ea : Bool) (eb : Bool) (s : State) :
    exec (.vcmpGe pd a b c ea eb) s = execVcmpGe pd a b c ea eb s := rfl
@[simp] theorem exec_vcmpLtu (pd : BitVec 5) (a : BitVec 7) (b : BitVec 7) (c : BitVec 2) (ea : Bool) (eb : Bool) (s : State) :
    exec (.vcmpLtu pd a b c ea eb) s = execVcmpLtu pd a b c ea eb s := rfl
@[simp] theorem exec_vcmpLeu (pd : BitVec 5) (a : BitVec 7) (b : BitVec 7) (c : BitVec 2) (ea : Bool) (eb : Bool) (s : State) :
    exec (.vcmpLeu pd a b c ea eb) s = execVcmpLeu pd a b c ea eb s := rfl
@[simp] theorem exec_vcmpGtu (pd : BitVec 5) (a : BitVec 7) (b : BitVec 7) (c : BitVec 2) (ea : Bool) (eb : Bool) (s : State) :
    exec (.vcmpGtu pd a b c ea eb) s = execVcmpGtu pd a b c ea eb s := rfl
@[simp] theorem exec_vcmpGeu (pd : BitVec 5) (a : BitVec 7) (b : BitVec 7) (c : BitVec 2) (ea : Bool) (eb : Bool) (s : State) :
    exec (.vcmpGeu pd a b c ea eb) s = execVcmpGeu pd a b c ea eb s := rfl
@[simp] theorem exec_vfcmpEq (pd : BitVec 5) (a : BitVec 7) (b : BitVec 7) (c : BitVec 2) (ea : Bool) (eb : Bool) (s : State) :
    exec (.vfcmpEq pd a b c ea eb) s = execVfcmpEq pd a b c ea eb s := rfl
@[simp] theorem exec_vfcmpNe (pd : BitVec 5) (a : BitVec 7) (b : BitVec 7) (c : BitVec 2) (ea : Bool) (eb : Bool) (s : State) :
    exec (.vfcmpNe pd a b c ea eb) s = execVfcmpNe pd a b c ea eb s := rfl
@[simp] theorem exec_vfcmpLt (pd : BitVec 5) (a : BitVec 7) (b : BitVec 7) (c : BitVec 2) (ea : Bool) (eb : Bool) (s : State) :
    exec (.vfcmpLt pd a b c ea eb) s = execVfcmpLt pd a b c ea eb s := rfl
@[simp] theorem exec_vfcmpLe (pd : BitVec 5) (a : BitVec 7) (b : BitVec 7) (c : BitVec 2) (ea : Bool) (eb : Bool) (s : State) :
    exec (.vfcmpLe pd a b c ea eb) s = execVfcmpLe pd a b c ea eb s := rfl
@[simp] theorem exec_vfcmpUn (pd : BitVec 5) (a : BitVec 7) (b : BitVec 7) (c : BitVec 2) (ea : Bool) (eb : Bool) (s : State) :
    exec (.vfcmpUn pd a b c ea eb) s = execVfcmpUn pd a b c ea eb s := rfl
@[simp] theorem exec_vfclass (pd : BitVec 5) (a : BitVec 7) (b : BitVec 7) (c : BitVec 2) (ea : Bool) (eb : Bool) (s : State) :
    exec (.vfclass pd a b c ea eb) s = execVfclass pd a b c ea eb s := rfl
@[simp] theorem exec_vtest (pd : BitVec 5) (a : BitVec 7) (b : BitVec 7) (c : BitVec 2) (ea : Bool) (eb : Bool) (s : State) :
    exec (.vtest pd a b c ea eb) s = execVtest pd a b c ea eb s := rfl
@[simp] theorem exec_pand (pd : BitVec 5) (pa : BitVec 5) (pb : BitVec 5) (c : BitVec 2) (s : State) :
    exec (.pand pd pa pb c) s = execPand pd pa pb c s := rfl
@[simp] theorem exec_por (pd : BitVec 5) (pa : BitVec 5) (pb : BitVec 5) (c : BitVec 2) (s : State) :
    exec (.por pd pa pb c) s = execPor pd pa pb c s := rfl
@[simp] theorem exec_pxor (pd : BitVec 5) (pa : BitVec 5) (pb : BitVec 5) (c : BitVec 2) (s : State) :
    exec (.pxor pd pa pb c) s = execPxor pd pa pb c s := rfl
@[simp] theorem exec_pandn (pd : BitVec 5) (pa : BitVec 5) (pb : BitVec 5) (c : BitVec 2) (s : State) :
    exec (.pandn pd pa pb c) s = execPandn pd pa pb c s := rfl
@[simp] theorem exec_pnot (pd : BitVec 5) (pa : BitVec 5) (c : BitVec 2) (s : State) :
    exec (.pnot pd pa c) s = execPnot pd pa c s := rfl
@[simp] theorem exec_pmov (pd : BitVec 5) (pa : BitVec 5) (c : BitVec 2) (s : State) :
    exec (.pmov pd pa c) s = execPmov pd pa c s := rfl
@[simp] theorem exec_pset (pd : BitVec 5) (c : BitVec 2) (s : State) :
    exec (.pset pd c) s = execPset pd c s := rfl
@[simp] theorem exec_pclr (pd : BitVec 5) (c : BitVec 2) (s : State) :
    exec (.pclr pd c) s = execPclr pd c s := rfl
@[simp] theorem exec_ldB (d : BitVec 7) (a : BitVec 7) (reuse : BitVec 3) (order : BitVec 2) (scope : BitVec 3) (s : State) :
    exec (.ldB d a reuse order scope) s = execLdB d a reuse order scope s := rfl
@[simp] theorem exec_ldBExt (d : BitVec 7) (a : BitVec 7) (reuse : BitVec 3) (order : BitVec 2) (scope : BitVec 3) (off : BitVec 32) (s : State) :
    exec (.ldBExt d a reuse order scope off) s = execLdBExt d a reuse order scope off s := rfl
@[simp] theorem exec_ldSb (d : BitVec 7) (a : BitVec 7) (reuse : BitVec 3) (order : BitVec 2) (scope : BitVec 3) (s : State) :
    exec (.ldSb d a reuse order scope) s = execLdSb d a reuse order scope s := rfl
@[simp] theorem exec_ldSbExt (d : BitVec 7) (a : BitVec 7) (reuse : BitVec 3) (order : BitVec 2) (scope : BitVec 3) (off : BitVec 32) (s : State) :
    exec (.ldSbExt d a reuse order scope off) s = execLdSbExt d a reuse order scope off s := rfl
@[simp] theorem exec_ldH (d : BitVec 7) (a : BitVec 7) (reuse : BitVec 3) (order : BitVec 2) (scope : BitVec 3) (s : State) :
    exec (.ldH d a reuse order scope) s = execLdH d a reuse order scope s := rfl
@[simp] theorem exec_ldHExt (d : BitVec 7) (a : BitVec 7) (reuse : BitVec 3) (order : BitVec 2) (scope : BitVec 3) (off : BitVec 32) (s : State) :
    exec (.ldHExt d a reuse order scope off) s = execLdHExt d a reuse order scope off s := rfl
@[simp] theorem exec_ldSh (d : BitVec 7) (a : BitVec 7) (reuse : BitVec 3) (order : BitVec 2) (scope : BitVec 3) (s : State) :
    exec (.ldSh d a reuse order scope) s = execLdSh d a reuse order scope s := rfl
@[simp] theorem exec_ldShExt (d : BitVec 7) (a : BitVec 7) (reuse : BitVec 3) (order : BitVec 2) (scope : BitVec 3) (off : BitVec 32) (s : State) :
    exec (.ldShExt d a reuse order scope off) s = execLdShExt d a reuse order scope off s := rfl
@[simp] theorem exec_ldW (d : BitVec 7) (a : BitVec 7) (reuse : BitVec 3) (order : BitVec 2) (scope : BitVec 3) (s : State) :
    exec (.ldW d a reuse order scope) s = execLdW d a reuse order scope s := rfl
@[simp] theorem exec_ldWExt (d : BitVec 7) (a : BitVec 7) (reuse : BitVec 3) (order : BitVec 2) (scope : BitVec 3) (off : BitVec 32) (s : State) :
    exec (.ldWExt d a reuse order scope off) s = execLdWExt d a reuse order scope off s := rfl
@[simp] theorem exec_ldD (d : BitVec 7) (a : BitVec 7) (reuse : BitVec 3) (order : BitVec 2) (scope : BitVec 3) (s : State) :
    exec (.ldD d a reuse order scope) s = execLdD d a reuse order scope s := rfl
@[simp] theorem exec_ldDExt (d : BitVec 7) (a : BitVec 7) (reuse : BitVec 3) (order : BitVec 2) (scope : BitVec 3) (off : BitVec 32) (s : State) :
    exec (.ldDExt d a reuse order scope off) s = execLdDExt d a reuse order scope off s := rfl
@[simp] theorem exec_ldQ (d : BitVec 7) (a : BitVec 7) (reuse : BitVec 3) (order : BitVec 2) (scope : BitVec 3) (s : State) :
    exec (.ldQ d a reuse order scope) s = execLdQ d a reuse order scope s := rfl
@[simp] theorem exec_ldQExt (d : BitVec 7) (a : BitVec 7) (reuse : BitVec 3) (order : BitVec 2) (scope : BitVec 3) (off : BitVec 32) (s : State) :
    exec (.ldQExt d a reuse order scope off) s = execLdQExt d a reuse order scope off s := rfl
@[simp] theorem exec_ldpk6 (d : BitVec 7) (a : BitVec 7) (reuse : BitVec 3) (order : BitVec 2) (scope : BitVec 3) (s : State) :
    exec (.ldpk6 d a reuse order scope) s = execLdpk6 d a reuse order scope s := rfl
@[simp] theorem exec_ldpk6Ext (d : BitVec 7) (a : BitVec 7) (reuse : BitVec 3) (order : BitVec 2) (scope : BitVec 3) (off : BitVec 32) (s : State) :
    exec (.ldpk6Ext d a reuse order scope off) s = execLdpk6Ext d a reuse order scope off s := rfl
@[simp] theorem exec_ldpk4 (d : BitVec 7) (a : BitVec 7) (reuse : BitVec 3) (order : BitVec 2) (scope : BitVec 3) (s : State) :
    exec (.ldpk4 d a reuse order scope) s = execLdpk4 d a reuse order scope s := rfl
@[simp] theorem exec_ldpk4Ext (d : BitVec 7) (a : BitVec 7) (reuse : BitVec 3) (order : BitVec 2) (scope : BitVec 3) (off : BitVec 32) (s : State) :
    exec (.ldpk4Ext d a reuse order scope off) s = execLdpk4Ext d a reuse order scope off s := rfl
@[simp] theorem exec_stB (d : BitVec 7) (a : BitVec 7) (reuse : BitVec 3) (order : BitVec 2) (scope : BitVec 3) (s : State) :
    exec (.stB d a reuse order scope) s = execStB d a reuse order scope s := rfl
@[simp] theorem exec_stBExt (d : BitVec 7) (a : BitVec 7) (reuse : BitVec 3) (order : BitVec 2) (scope : BitVec 3) (off : BitVec 32) (s : State) :
    exec (.stBExt d a reuse order scope off) s = execStBExt d a reuse order scope off s := rfl
@[simp] theorem exec_stH (d : BitVec 7) (a : BitVec 7) (reuse : BitVec 3) (order : BitVec 2) (scope : BitVec 3) (s : State) :
    exec (.stH d a reuse order scope) s = execStH d a reuse order scope s := rfl
@[simp] theorem exec_stHExt (d : BitVec 7) (a : BitVec 7) (reuse : BitVec 3) (order : BitVec 2) (scope : BitVec 3) (off : BitVec 32) (s : State) :
    exec (.stHExt d a reuse order scope off) s = execStHExt d a reuse order scope off s := rfl
@[simp] theorem exec_stW (d : BitVec 7) (a : BitVec 7) (reuse : BitVec 3) (order : BitVec 2) (scope : BitVec 3) (s : State) :
    exec (.stW d a reuse order scope) s = execStW d a reuse order scope s := rfl
@[simp] theorem exec_stWExt (d : BitVec 7) (a : BitVec 7) (reuse : BitVec 3) (order : BitVec 2) (scope : BitVec 3) (off : BitVec 32) (s : State) :
    exec (.stWExt d a reuse order scope off) s = execStWExt d a reuse order scope off s := rfl
@[simp] theorem exec_stD (d : BitVec 7) (a : BitVec 7) (reuse : BitVec 3) (order : BitVec 2) (scope : BitVec 3) (s : State) :
    exec (.stD d a reuse order scope) s = execStD d a reuse order scope s := rfl
@[simp] theorem exec_stDExt (d : BitVec 7) (a : BitVec 7) (reuse : BitVec 3) (order : BitVec 2) (scope : BitVec 3) (off : BitVec 32) (s : State) :
    exec (.stDExt d a reuse order scope off) s = execStDExt d a reuse order scope off s := rfl
@[simp] theorem exec_stQ (d : BitVec 7) (a : BitVec 7) (reuse : BitVec 3) (order : BitVec 2) (scope : BitVec 3) (s : State) :
    exec (.stQ d a reuse order scope) s = execStQ d a reuse order scope s := rfl
@[simp] theorem exec_stQExt (d : BitVec 7) (a : BitVec 7) (reuse : BitVec 3) (order : BitVec 2) (scope : BitVec 3) (off : BitVec 32) (s : State) :
    exec (.stQExt d a reuse order scope off) s = execStQExt d a reuse order scope off s := rfl
@[simp] theorem exec_ldsW (d : BitVec 7) (a : BitVec 7) (order : BitVec 2) (scope : BitVec 3) (s : State) :
    exec (.ldsW d a order scope) s = execLdsW d a order scope s := rfl
@[simp] theorem exec_ldsWExt (d : BitVec 7) (a : BitVec 7) (order : BitVec 2) (scope : BitVec 3) (off : BitVec 32) (s : State) :
    exec (.ldsWExt d a order scope off) s = execLdsWExt d a order scope off s := rfl
@[simp] theorem exec_ldsD (d : BitVec 7) (a : BitVec 7) (order : BitVec 2) (scope : BitVec 3) (s : State) :
    exec (.ldsD d a order scope) s = execLdsD d a order scope s := rfl
@[simp] theorem exec_ldsDExt (d : BitVec 7) (a : BitVec 7) (order : BitVec 2) (scope : BitVec 3) (off : BitVec 32) (s : State) :
    exec (.ldsDExt d a order scope off) s = execLdsDExt d a order scope off s := rfl
@[simp] theorem exec_ldsQ (d : BitVec 7) (a : BitVec 7) (order : BitVec 2) (scope : BitVec 3) (s : State) :
    exec (.ldsQ d a order scope) s = execLdsQ d a order scope s := rfl
@[simp] theorem exec_ldsQExt (d : BitVec 7) (a : BitVec 7) (order : BitVec 2) (scope : BitVec 3) (off : BitVec 32) (s : State) :
    exec (.ldsQExt d a order scope off) s = execLdsQExt d a order scope off s := rfl
@[simp] theorem exec_stsB (d : BitVec 7) (a : BitVec 7) (order : BitVec 2) (scope : BitVec 3) (s : State) :
    exec (.stsB d a order scope) s = execStsB d a order scope s := rfl
@[simp] theorem exec_stsBExt (d : BitVec 7) (a : BitVec 7) (order : BitVec 2) (scope : BitVec 3) (off : BitVec 32) (s : State) :
    exec (.stsBExt d a order scope off) s = execStsBExt d a order scope off s := rfl
@[simp] theorem exec_stsH (d : BitVec 7) (a : BitVec 7) (order : BitVec 2) (scope : BitVec 3) (s : State) :
    exec (.stsH d a order scope) s = execStsH d a order scope s := rfl
@[simp] theorem exec_stsHExt (d : BitVec 7) (a : BitVec 7) (order : BitVec 2) (scope : BitVec 3) (off : BitVec 32) (s : State) :
    exec (.stsHExt d a order scope off) s = execStsHExt d a order scope off s := rfl
@[simp] theorem exec_stsW (d : BitVec 7) (a : BitVec 7) (order : BitVec 2) (scope : BitVec 3) (s : State) :
    exec (.stsW d a order scope) s = execStsW d a order scope s := rfl
@[simp] theorem exec_stsWExt (d : BitVec 7) (a : BitVec 7) (order : BitVec 2) (scope : BitVec 3) (off : BitVec 32) (s : State) :
    exec (.stsWExt d a order scope off) s = execStsWExt d a order scope off s := rfl
@[simp] theorem exec_stsD (d : BitVec 7) (a : BitVec 7) (order : BitVec 2) (scope : BitVec 3) (s : State) :
    exec (.stsD d a order scope) s = execStsD d a order scope s := rfl
@[simp] theorem exec_stsDExt (d : BitVec 7) (a : BitVec 7) (order : BitVec 2) (scope : BitVec 3) (off : BitVec 32) (s : State) :
    exec (.stsDExt d a order scope off) s = execStsDExt d a order scope off s := rfl
@[simp] theorem exec_stsQ (d : BitVec 7) (a : BitVec 7) (order : BitVec 2) (scope : BitVec 3) (s : State) :
    exec (.stsQ d a order scope) s = execStsQ d a order scope s := rfl
@[simp] theorem exec_stsQExt (d : BitVec 7) (a : BitVec 7) (order : BitVec 2) (scope : BitVec 3) (off : BitVec 32) (s : State) :
    exec (.stsQExt d a order scope off) s = execStsQExt d a order scope off s := rfl
@[simp] theorem exec_atomAdd (d : BitVec 7) (a : BitVec 7) (reuse : BitVec 3) (order : BitVec 2) (scope : BitVec 3) (s : State) :
    exec (.atomAdd d a reuse order scope) s = execAtomAdd d a reuse order scope s := rfl
@[simp] theorem exec_atomAddExt (d : BitVec 7) (a : BitVec 7) (reuse : BitVec 3) (order : BitVec 2) (scope : BitVec 3) (off : BitVec 32) (s : State) :
    exec (.atomAddExt d a reuse order scope off) s = execAtomAddExt d a reuse order scope off s := rfl
@[simp] theorem exec_atomFadd (d : BitVec 7) (a : BitVec 7) (reuse : BitVec 3) (order : BitVec 2) (scope : BitVec 3) (s : State) :
    exec (.atomFadd d a reuse order scope) s = execAtomFadd d a reuse order scope s := rfl
@[simp] theorem exec_atomFaddExt (d : BitVec 7) (a : BitVec 7) (reuse : BitVec 3) (order : BitVec 2) (scope : BitVec 3) (off : BitVec 32) (s : State) :
    exec (.atomFaddExt d a reuse order scope off) s = execAtomFaddExt d a reuse order scope off s := rfl
@[simp] theorem exec_atomHfaddBf (d : BitVec 7) (a : BitVec 7) (reuse : BitVec 3) (order : BitVec 2) (scope : BitVec 3) (s : State) :
    exec (.atomHfaddBf d a reuse order scope) s = execAtomHfaddBf d a reuse order scope s := rfl
@[simp] theorem exec_atomHfaddBfExt (d : BitVec 7) (a : BitVec 7) (reuse : BitVec 3) (order : BitVec 2) (scope : BitVec 3) (off : BitVec 32) (s : State) :
    exec (.atomHfaddBfExt d a reuse order scope off) s = execAtomHfaddBfExt d a reuse order scope off s := rfl
@[simp] theorem exec_atomMin (d : BitVec 7) (a : BitVec 7) (reuse : BitVec 3) (order : BitVec 2) (scope : BitVec 3) (s : State) :
    exec (.atomMin d a reuse order scope) s = execAtomMin d a reuse order scope s := rfl
@[simp] theorem exec_atomMinExt (d : BitVec 7) (a : BitVec 7) (reuse : BitVec 3) (order : BitVec 2) (scope : BitVec 3) (off : BitVec 32) (s : State) :
    exec (.atomMinExt d a reuse order scope off) s = execAtomMinExt d a reuse order scope off s := rfl
@[simp] theorem exec_atomMax (d : BitVec 7) (a : BitVec 7) (reuse : BitVec 3) (order : BitVec 2) (scope : BitVec 3) (s : State) :
    exec (.atomMax d a reuse order scope) s = execAtomMax d a reuse order scope s := rfl
@[simp] theorem exec_atomMaxExt (d : BitVec 7) (a : BitVec 7) (reuse : BitVec 3) (order : BitVec 2) (scope : BitVec 3) (off : BitVec 32) (s : State) :
    exec (.atomMaxExt d a reuse order scope off) s = execAtomMaxExt d a reuse order scope off s := rfl
@[simp] theorem exec_atomMinu (d : BitVec 7) (a : BitVec 7) (reuse : BitVec 3) (order : BitVec 2) (scope : BitVec 3) (s : State) :
    exec (.atomMinu d a reuse order scope) s = execAtomMinu d a reuse order scope s := rfl
@[simp] theorem exec_atomMinuExt (d : BitVec 7) (a : BitVec 7) (reuse : BitVec 3) (order : BitVec 2) (scope : BitVec 3) (off : BitVec 32) (s : State) :
    exec (.atomMinuExt d a reuse order scope off) s = execAtomMinuExt d a reuse order scope off s := rfl
@[simp] theorem exec_atomMaxu (d : BitVec 7) (a : BitVec 7) (reuse : BitVec 3) (order : BitVec 2) (scope : BitVec 3) (s : State) :
    exec (.atomMaxu d a reuse order scope) s = execAtomMaxu d a reuse order scope s := rfl
@[simp] theorem exec_atomMaxuExt (d : BitVec 7) (a : BitVec 7) (reuse : BitVec 3) (order : BitVec 2) (scope : BitVec 3) (off : BitVec 32) (s : State) :
    exec (.atomMaxuExt d a reuse order scope off) s = execAtomMaxuExt d a reuse order scope off s := rfl
@[simp] theorem exec_atomAnd (d : BitVec 7) (a : BitVec 7) (reuse : BitVec 3) (order : BitVec 2) (scope : BitVec 3) (s : State) :
    exec (.atomAnd d a reuse order scope) s = execAtomAnd d a reuse order scope s := rfl
@[simp] theorem exec_atomAndExt (d : BitVec 7) (a : BitVec 7) (reuse : BitVec 3) (order : BitVec 2) (scope : BitVec 3) (off : BitVec 32) (s : State) :
    exec (.atomAndExt d a reuse order scope off) s = execAtomAndExt d a reuse order scope off s := rfl
@[simp] theorem exec_atomOr (d : BitVec 7) (a : BitVec 7) (reuse : BitVec 3) (order : BitVec 2) (scope : BitVec 3) (s : State) :
    exec (.atomOr d a reuse order scope) s = execAtomOr d a reuse order scope s := rfl
@[simp] theorem exec_atomOrExt (d : BitVec 7) (a : BitVec 7) (reuse : BitVec 3) (order : BitVec 2) (scope : BitVec 3) (off : BitVec 32) (s : State) :
    exec (.atomOrExt d a reuse order scope off) s = execAtomOrExt d a reuse order scope off s := rfl
@[simp] theorem exec_atomXor (d : BitVec 7) (a : BitVec 7) (reuse : BitVec 3) (order : BitVec 2) (scope : BitVec 3) (s : State) :
    exec (.atomXor d a reuse order scope) s = execAtomXor d a reuse order scope s := rfl
@[simp] theorem exec_atomXorExt (d : BitVec 7) (a : BitVec 7) (reuse : BitVec 3) (order : BitVec 2) (scope : BitVec 3) (off : BitVec 32) (s : State) :
    exec (.atomXorExt d a reuse order scope off) s = execAtomXorExt d a reuse order scope off s := rfl
@[simp] theorem exec_atomXchg (d : BitVec 7) (a : BitVec 7) (reuse : BitVec 3) (order : BitVec 2) (scope : BitVec 3) (s : State) :
    exec (.atomXchg d a reuse order scope) s = execAtomXchg d a reuse order scope s := rfl
@[simp] theorem exec_atomXchgExt (d : BitVec 7) (a : BitVec 7) (reuse : BitVec 3) (order : BitVec 2) (scope : BitVec 3) (off : BitVec 32) (s : State) :
    exec (.atomXchgExt d a reuse order scope off) s = execAtomXchgExt d a reuse order scope off s := rfl
@[simp] theorem exec_atomCas (d : BitVec 7) (a : BitVec 7) (reuse : BitVec 3) (order : BitVec 2) (scope : BitVec 3) (s : State) :
    exec (.atomCas d a reuse order scope) s = execAtomCas d a reuse order scope s := rfl
@[simp] theorem exec_atomCasExt (d : BitVec 7) (a : BitVec 7) (reuse : BitVec 3) (order : BitVec 2) (scope : BitVec 3) (off : BitVec 32) (s : State) :
    exec (.atomCasExt d a reuse order scope off) s = execAtomCasExt d a reuse order scope off s := rfl
@[simp] theorem exec_atomCasD (d : BitVec 7) (a : BitVec 7) (reuse : BitVec 3) (order : BitVec 2) (scope : BitVec 3) (s : State) :
    exec (.atomCasD d a reuse order scope) s = execAtomCasD d a reuse order scope s := rfl
@[simp] theorem exec_atomCasDExt (d : BitVec 7) (a : BitVec 7) (reuse : BitVec 3) (order : BitVec 2) (scope : BitVec 3) (off : BitVec 32) (s : State) :
    exec (.atomCasDExt d a reuse order scope off) s = execAtomCasDExt d a reuse order scope off s := rfl
@[simp] theorem exec_atomsAdd (d : BitVec 7) (a : BitVec 7) (order : BitVec 2) (scope : BitVec 3) (s : State) :
    exec (.atomsAdd d a order scope) s = execAtomsAdd d a order scope s := rfl
@[simp] theorem exec_atomsAddExt (d : BitVec 7) (a : BitVec 7) (order : BitVec 2) (scope : BitVec 3) (off : BitVec 32) (s : State) :
    exec (.atomsAddExt d a order scope off) s = execAtomsAddExt d a order scope off s := rfl
@[simp] theorem exec_atomsFadd (d : BitVec 7) (a : BitVec 7) (order : BitVec 2) (scope : BitVec 3) (s : State) :
    exec (.atomsFadd d a order scope) s = execAtomsFadd d a order scope s := rfl
@[simp] theorem exec_atomsFaddExt (d : BitVec 7) (a : BitVec 7) (order : BitVec 2) (scope : BitVec 3) (off : BitVec 32) (s : State) :
    exec (.atomsFaddExt d a order scope off) s = execAtomsFaddExt d a order scope off s := rfl
@[simp] theorem exec_atomsMin (d : BitVec 7) (a : BitVec 7) (order : BitVec 2) (scope : BitVec 3) (s : State) :
    exec (.atomsMin d a order scope) s = execAtomsMin d a order scope s := rfl
@[simp] theorem exec_atomsMinExt (d : BitVec 7) (a : BitVec 7) (order : BitVec 2) (scope : BitVec 3) (off : BitVec 32) (s : State) :
    exec (.atomsMinExt d a order scope off) s = execAtomsMinExt d a order scope off s := rfl
@[simp] theorem exec_atomsMax (d : BitVec 7) (a : BitVec 7) (order : BitVec 2) (scope : BitVec 3) (s : State) :
    exec (.atomsMax d a order scope) s = execAtomsMax d a order scope s := rfl
@[simp] theorem exec_atomsMaxExt (d : BitVec 7) (a : BitVec 7) (order : BitVec 2) (scope : BitVec 3) (off : BitVec 32) (s : State) :
    exec (.atomsMaxExt d a order scope off) s = execAtomsMaxExt d a order scope off s := rfl
@[simp] theorem exec_atomsXchg (d : BitVec 7) (a : BitVec 7) (order : BitVec 2) (scope : BitVec 3) (s : State) :
    exec (.atomsXchg d a order scope) s = execAtomsXchg d a order scope s := rfl
@[simp] theorem exec_atomsXchgExt (d : BitVec 7) (a : BitVec 7) (order : BitVec 2) (scope : BitVec 3) (off : BitVec 32) (s : State) :
    exec (.atomsXchgExt d a order scope off) s = execAtomsXchgExt d a order scope off s := rfl
@[simp] theorem exec_atomsCas (d : BitVec 7) (a : BitVec 7) (order : BitVec 2) (scope : BitVec 3) (s : State) :
    exec (.atomsCas d a order scope) s = execAtomsCas d a order scope s := rfl
@[simp] theorem exec_atomsCasExt (d : BitVec 7) (a : BitVec 7) (order : BitVec 2) (scope : BitVec 3) (off : BitVec 32) (s : State) :
    exec (.atomsCasExt d a order scope off) s = execAtomsCasExt d a order scope off s := rfl
@[simp] theorem exec_fence (order : BitVec 2) (scope : BitVec 3) (s : State) :
    exec (.fence order scope) s = execFence order scope s := rfl
@[simp] theorem exec_pref (a : BitVec 7) (reuse : BitVec 3) (s : State) :
    exec (.pref a reuse) s = execPref a reuse s := rfl
@[simp] theorem exec_prefExt (a : BitVec 7) (reuse : BitVec 3) (off : BitVec 32) (s : State) :
    exec (.prefExt a reuse off) s = execPrefExt a reuse off s := rfl
@[simp] theorem exec_sadd (sd : BitVec 5) (sa : BitVec 5) (sb : BitVec 5) (s : State) :
    exec (.sadd sd sa sb) s = execSadd sd sa sb s := rfl
@[simp] theorem exec_ssub (sd : BitVec 5) (sa : BitVec 5) (sb : BitVec 5) (s : State) :
    exec (.ssub sd sa sb) s = execSsub sd sa sb s := rfl
@[simp] theorem exec_smul (sd : BitVec 5) (sa : BitVec 5) (sb : BitVec 5) (s : State) :
    exec (.smul sd sa sb) s = execSmul sd sa sb s := rfl
@[simp] theorem exec_smulhu (sd : BitVec 5) (sa : BitVec 5) (sb : BitVec 5) (s : State) :
    exec (.smulhu sd sa sb) s = execSmulhu sd sa sb s := rfl
@[simp] theorem exec_sand (sd : BitVec 5) (sa : BitVec 5) (sb : BitVec 5) (s : State) :
    exec (.sand sd sa sb) s = execSand sd sa sb s := rfl
@[simp] theorem exec_sor (sd : BitVec 5) (sa : BitVec 5) (sb : BitVec 5) (s : State) :
    exec (.sor sd sa sb) s = execSor sd sa sb s := rfl
@[simp] theorem exec_sxor (sd : BitVec 5) (sa : BitVec 5) (sb : BitVec 5) (s : State) :
    exec (.sxor sd sa sb) s = execSxor sd sa sb s := rfl
@[simp] theorem exec_sshl (sd : BitVec 5) (sa : BitVec 5) (sb : BitVec 5) (s : State) :
    exec (.sshl sd sa sb) s = execSshl sd sa sb s := rfl
@[simp] theorem exec_sshr (sd : BitVec 5) (sa : BitVec 5) (sb : BitVec 5) (s : State) :
    exec (.sshr sd sa sb) s = execSshr sd sa sb s := rfl
@[simp] theorem exec_ssar (sd : BitVec 5) (sa : BitVec 5) (sb : BitVec 5) (s : State) :
    exec (.ssar sd sa sb) s = execSsar sd sa sb s := rfl
@[simp] theorem exec_smin (sd : BitVec 5) (sa : BitVec 5) (sb : BitVec 5) (s : State) :
    exec (.smin sd sa sb) s = execSmin sd sa sb s := rfl
@[simp] theorem exec_smax (sd : BitVec 5) (sa : BitVec 5) (sb : BitVec 5) (s : State) :
    exec (.smax sd sa sb) s = execSmax sd sa sb s := rfl
@[simp] theorem exec_sminu (sd : BitVec 5) (sa : BitVec 5) (sb : BitVec 5) (s : State) :
    exec (.sminu sd sa sb) s = execSminu sd sa sb s := rfl
@[simp] theorem exec_smaxu (sd : BitVec 5) (sa : BitVec 5) (sb : BitVec 5) (s : State) :
    exec (.smaxu sd sa sb) s = execSmaxu sd sa sb s := rfl
@[simp] theorem exec_sseq (sd : BitVec 5) (sa : BitVec 5) (sb : BitVec 5) (s : State) :
    exec (.sseq sd sa sb) s = execSseq sd sa sb s := rfl
@[simp] theorem exec_sslt (sd : BitVec 5) (sa : BitVec 5) (sb : BitVec 5) (s : State) :
    exec (.sslt sd sa sb) s = execSslt sd sa sb s := rfl
@[simp] theorem exec_ssltu (sd : BitVec 5) (sa : BitVec 5) (sb : BitVec 5) (s : State) :
    exec (.ssltu sd sa sb) s = execSsltu sd sa sb s := rfl
@[simp] theorem exec_saddi (sd : BitVec 5) (sa : BitVec 5) (imm : BitVec 13) (s : State) :
    exec (.saddi sd sa imm) s = execSaddi sd sa imm s := rfl
@[simp] theorem exec_sandi (sd : BitVec 5) (sa : BitVec 5) (imm : BitVec 13) (s : State) :
    exec (.sandi sd sa imm) s = execSandi sd sa imm s := rfl
@[simp] theorem exec_sori (sd : BitVec 5) (sa : BitVec 5) (imm : BitVec 13) (s : State) :
    exec (.sori sd sa imm) s = execSori sd sa imm s := rfl
@[simp] theorem exec_sxori (sd : BitVec 5) (sa : BitVec 5) (imm : BitVec 13) (s : State) :
    exec (.sxori sd sa imm) s = execSxori sd sa imm s := rfl
@[simp] theorem exec_smovi (sd : BitVec 5) (imm : BitVec 13) (s : State) :
    exec (.smovi sd imm) s = execSmovi sd imm s := rfl
@[simp] theorem exec_smovhi (sd : BitVec 5) (imm : BitVec 13) (s : State) :
    exec (.smovhi sd imm) s = execSmovhi sd imm s := rfl
@[simp] theorem exec_sshli (sd : BitVec 5) (sa : BitVec 5) (imm : BitVec 5) (s : State) :
    exec (.sshli sd sa imm) s = execSshli sd sa imm s := rfl
@[simp] theorem exec_sshri (sd : BitVec 5) (sa : BitVec 5) (imm : BitVec 5) (s : State) :
    exec (.sshri sd sa imm) s = execSshri sd sa imm s := rfl
@[simp] theorem exec_sldW (sd : BitVec 5) (sa : BitVec 5) (imm : BitVec 13) (s : State) :
    exec (.sldW sd sa imm) s = execSldW sd sa imm s := rfl
@[simp] theorem exec_sldD (sd : BitVec 5) (sa : BitVec 5) (imm : BitVec 13) (s : State) :
    exec (.sldD sd sa imm) s = execSldD sd sa imm s := rfl
@[simp] theorem exec_sstW (sd : BitVec 5) (sa : BitVec 5) (imm : BitVec 13) (s : State) :
    exec (.sstW sd sa imm) s = execSstW sd sa imm s := rfl
@[simp] theorem exec_movsr (sx : BitVec 5) (n : BitVec 6) (s : State) :
    exec (.movsr sx n) s = execMovsr sx n s := rfl
@[simp] theorem exec_movsw (sx : BitVec 5) (n : BitVec 6) (s : State) :
    exec (.movsw sx n) s = execMovsw sx n s := rfl
@[simp] theorem exec_bra (p : BitVec 5) (neg : Bool) (off : BitVec 17) (s : State) :
    exec (.bra p neg off) s = execBra p neg off s := rfl
@[simp] theorem exec_brau (p : BitVec 5) (neg : Bool) (off : BitVec 17) (s : State) :
    exec (.brau p neg off) s = execBrau p neg off s := rfl
@[simp] theorem exec_braany (p : BitVec 5) (neg : Bool) (off : BitVec 17) (s : State) :
    exec (.braany p neg off) s = execBraany p neg off s := rfl
@[simp] theorem exec_braall (p : BitVec 5) (neg : Bool) (off : BitVec 17) (s : State) :
    exec (.braall p neg off) s = execBraall p neg off s := rfl
@[simp] theorem exec_call (p : BitVec 5) (neg : Bool) (off : BitVec 17) (s : State) :
    exec (.call p neg off) s = execCall p neg off s := rfl
@[simp] theorem exec_ret (a : BitVec 7) (ea : Bool) (s : State) :
    exec (.ret a ea) s = execRet a ea s := rfl
@[simp] theorem exec_jmpv (a : BitVec 7) (ea : Bool) (s : State) :
    exec (.jmpv a ea) s = execJmpv a ea s := rfl
@[simp] theorem exec_loop (lc : BitVec 2) (sa : BitVec 5) (len : BitVec 11) (s : State) :
    exec (.loop lc sa len) s = execLoop lc sa len s := rfl
@[simp] theorem exec_loopi (lc : BitVec 2) (n : BitVec 10) (len : BitVec 11) (s : State) :
    exec (.loopi lc n len) s = execLoopi lc n len s := rfl
@[simp] theorem exec_exit (s : State) :
    exec (.exit) s = execExit s := rfl
@[simp] theorem exec_nop (s : State) :
    exec (.nop) s = execNop s := rfl
@[simp] theorem exec_yield (s : State) :
    exec (.yield) s = execYield s := rfl
@[simp] theorem exec_suspend (ec : BitVec 3) (t : BitVec 4) (off : BitVec 16) (s : State) :
    exec (.suspend ec t off) s = execSuspend ec t off s := rfl
@[simp] theorem exec_elect (pd : BitVec 5) (s : State) :
    exec (.elect pd) s = execElect pd s := rfl
@[simp] theorem exec_trap (code : BitVec 16) (s : State) :
    exec (.trap code) s = execTrap code s := rfl
@[simp] theorem exec_tret (s : State) :
    exec (.tret) s = execTret s := rfl
@[simp] theorem exec_tstamp (sd : BitVec 5) (s : State) :
    exec (.tstamp sd) s = execTstamp sd s := rfl
@[simp] theorem exec_cycle (sd : BitVec 5) (s : State) :
    exec (.cycle sd) s = execCycle sd s := rfl
@[simp] theorem exec_mma (sx : BitVec 5) (ec : BitVec 3) (s : State) :
    exec (.mma sx ec) s = execMma sx ec s := rfl
@[simp] theorem exec_acczero (sx : BitVec 5) (ec : BitVec 3) (eng : Bool) (s : State) :
    exec (.acczero sx ec eng) s = execAcczero sx ec eng s := rfl
@[simp] theorem exec_accrd (sx : BitVec 5) (ec : BitVec 3) (eng : Bool) (d : BitVec 7) (s : State) :
    exec (.accrd sx ec eng d) s = execAccrd sx ec eng d s := rfl
@[simp] theorem exec_accwr (sx : BitVec 5) (ec : BitVec 3) (eng : Bool) (d : BitVec 7) (s : State) :
    exec (.accwr sx ec eng d) s = execAccwr sx ec eng d s := rfl
@[simp] theorem exec_accdrain (sx : BitVec 5) (ec : BitVec 3) (s : State) :
    exec (.accdrain sx ec) s = execAccdrain sx ec s := rfl
@[simp] theorem exec_copy (sx : BitVec 5) (ec : BitVec 3) (s : State) :
    exec (.copy sx ec) s = execCopy sx ec s := rfl
@[simp] theorem exec_gather (sx : BitVec 5) (ec : BitVec 3) (s : State) :
    exec (.gather sx ec) s = execGather sx ec s := rfl
@[simp] theorem exec_scatter (sx : BitVec 5) (ec : BitVec 3) (s : State) :
    exec (.scatter sx ec) s = execScatter sx ec s := rfl
@[simp] theorem exec_coll (sx : BitVec 5) (ec : BitVec 3) (s : State) :
    exec (.coll sx ec) s = execColl sx ec s := rfl
@[simp] theorem exec_cbload (sx : BitVec 5) (ec : BitVec 3) (eng : Bool) (s : State) :
    exec (.cbload sx ec eng) s = execCbload sx ec eng s := rfl
@[simp] theorem exec_actload (sx : BitVec 5) (ec : BitVec 3) (s : State) :
    exec (.actload sx ec) s = execActload sx ec s := rfl
@[simp] theorem exec_objdecl (sx : BitVec 5) (sd : BitVec 5) (s : State) :
    exec (.objdecl sx sd) s = execObjdecl sx sd s := rfl
@[simp] theorem exec_objfree (sx : BitVec 5) (ec : BitVec 3) (s : State) :
    exec (.objfree sx ec) s = execObjfree sx ec s := rfl
@[simp] theorem exec_tokreq (sx : BitVec 5) (ec : BitVec 3) (s : State) :
    exec (.tokreq sx ec) s = execTokreq sx ec s := rfl
@[simp] theorem exec_tokrel (sx : BitVec 5) (ec : BitVec 3) (s : State) :
    exec (.tokrel sx ec) s = execTokrel sx ec s := rfl
@[simp] theorem exec_launch (sx : BitVec 5) (sd : BitVec 5) (s : State) :
    exec (.launch sx sd) s = execLaunch sx sd s := rfl
@[simp] theorem exec_waitchild (s : State) :
    exec (.waitchild) s = execWaitchild s := rfl
@[simp] theorem exec_succok (s : State) :
    exec (.succok) s = execSuccok s := rfl
@[simp] theorem exec_waitpred (s : State) :
    exec (.waitpred) s = execWaitpred s := rfl
@[simp] theorem exec_tbar (b : BitVec 2) (s : State) :
    exec (.tbar b) s = execTbar b s := rfl
@[simp] theorem exec_tarrive (b : BitVec 2) (s : State) :
    exec (.tarrive b) s = execTarrive b s := rfl
@[simp] theorem exec_gbar (s : State) :
    exec (.gbar) s = execGbar s := rfl
@[simp] theorem exec_evinc (ec : BitVec 3) (n : BitVec 8) (s : State) :
    exec (.evinc ec n) s = execEvinc ec n s := rfl
@[simp] theorem exec_evdec (ec : BitVec 3) (n : BitVec 8) (s : State) :
    exec (.evdec ec n) s = execEvdec ec n s := rfl
@[simp] theorem exec_phaseend (sx : BitVec 5) (ec : BitVec 3) (s : State) :
    exec (.phaseend sx ec) s = execPhaseend sx ec s := rfl
@[simp] theorem exec_ensure (sx : BitVec 5) (s : State) :
    exec (.ensure sx) s = execEnsure sx s := rfl
@[simp] theorem exec_elseby (s : State) :
    exec (.elseby) s = execElseby s := rfl
@[simp] theorem exec_elseerr (code : BitVec 15) (s : State) :
    exec (.elseerr code) s = execElseerr code s := rfl
@[simp] theorem exec_accept (p : BitVec 5) (s : State) :
    exec (.accept p) s = execAccept p s := rfl
@[simp] theorem exec_reject (s : State) :
    exec (.reject) s = execReject s := rfl
@[simp] theorem exec_convjoin (sx : BitVec 5) (s : State) :
    exec (.convjoin sx) s = execConvjoin sx s := rfl
@[simp] theorem exec_convleave (sx : BitVec 5) (s : State) :
    exec (.convleave sx) s = execConvleave sx s := rfl
@[simp] theorem exec_rbegin (s : State) :
    exec (.rbegin) s = execRbegin s := rfl
@[simp] theorem exec_rend (s : State) :
    exec (.rend) s = execRend s := rfl
@[simp] theorem exec_rstat (sd : BitVec 5) (sel : BitVec 3) (s : State) :
    exec (.rstat sd sel) s = execRstat sd sel s := rfl
@[simp] theorem exec_telect (pd : BitVec 5) (s : State) :
    exec (.telect pd) s = execTelect pd s := rfl
@[simp] theorem exec_meter (sd : BitVec 5) (s : State) :
    exec (.meter sd) s = execMeter sd s := rfl
@[simp] theorem exec_vfma3 (d : BitVec 7) (a : BitVec 7) (b : BitVec 7) (c : BitVec 7) (ea : Bool) (eb : Bool) (pg : BitVec 5) (neg : Bool) (rm : BitVec 3) (st : BitVec 4) (dt : BitVec 4) (s : State) :
    exec (.vfma3 d a b c ea eb pg neg rm st dt) s = execVfma3 d a b c ea eb pg neg rm st dt s := rfl
@[simp] theorem exec_vsel (d : BitVec 7) (a : BitVec 7) (b : BitVec 7) (ea : Bool) (eb : Bool) (pg : BitVec 5) (neg : Bool) (s : State) :
    exec (.vsel d a b ea eb pg neg) s = execVsel d a b ea eb pg neg s := rfl
@[simp] theorem exec_vcvt (d : BitVec 7) (a : BitVec 7) (ea : Bool) (pg : BitVec 5) (neg : Bool) (rm : BitVec 3) (st : BitVec 4) (dt : BitVec 4) (js : BitVec 3) (jd : BitVec 3) (s : State) :
    exec (.vcvt d a ea pg neg rm st dt js jd) s = execVcvt d a ea pg neg rm st dt js jd s := rfl
@[simp] theorem exec_vcvti (d : BitVec 7) (a : BitVec 7) (ea : Bool) (pg : BitVec 5) (neg : Bool) (rm : BitVec 3) (st : BitVec 4) (dt : BitVec 4) (js : BitVec 3) (jd : BitVec 3) (s : State) :
    exec (.vcvti d a ea pg neg rm st dt js jd) s = execVcvti d a ea pg neg rm st dt js jd s := rfl
@[simp] theorem exec_vcvtf (d : BitVec 7) (a : BitVec 7) (ea : Bool) (pg : BitVec 5) (neg : Bool) (rm : BitVec 3) (st : BitVec 4) (dt : BitVec 4) (js : BitVec 3) (jd : BitVec 3) (s : State) :
    exec (.vcvtf d a ea pg neg rm st dt js jd) s = execVcvtf d a ea pg neg rm st dt js jd s := rfl
@[simp] theorem exec_vpack (d : BitVec 7) (a : BitVec 7) (b : BitVec 7) (ea : Bool) (eb : Bool) (pg : BitVec 5) (neg : Bool) (rm : BitVec 3) (st : BitVec 4) (dt : BitVec 4) (h : Bool) (s : State) :
    exec (.vpack d a b ea eb pg neg rm st dt h) s = execVpack d a b ea eb pg neg rm st dt h s := rfl
@[simp] theorem exec_vunpack (d : BitVec 7) (a : BitVec 7) (ea : Bool) (pg : BitVec 5) (neg : Bool) (st : BitVec 4) (dt : BitVec 4) (j : BitVec 3) (s : State) :
    exec (.vunpack d a ea pg neg st dt j) s = execVunpack d a ea pg neg st dt j s := rfl
@[simp] theorem exec_vdeq (d : BitVec 7) (a : BitVec 7) (b : BitVec 7) (c : BitVec 7) (ea : Bool) (eb : Bool) (pg : BitVec 5) (neg : Bool) (rm : BitVec 3) (st : BitVec 4) (dt : BitVec 4) (j : BitVec 5) (set : Bool) (s : State) :
    exec (.vdeq d a b c ea eb pg neg rm st dt j set) s = execVdeq d a b c ea eb pg neg rm st dt j set s := rfl
@[simp] theorem exec_vperm (d : BitVec 7) (a : BitVec 7) (b : BitVec 7) (c : BitVec 7) (ea : Bool) (eb : Bool) (pg : BitVec 5) (s : State) :
    exec (.vperm d a b c ea eb pg) s = execVperm d a b c ea eb pg s := rfl
@[simp] theorem exec_vshuf (d : BitVec 7) (a : BitVec 7) (c : BitVec 7) (ea : Bool) (pg : BitVec 5) (off : BitVec 8) (s : State) :
    exec (.vshuf d a c ea pg off) s = execVshuf d a c ea pg off s := rfl
@[simp] theorem exec_vlogred (d : BitVec 7) (a : BitVec 7) (c : BitVec 7) (ea : Bool) (pg : BitVec 5) (rm : BitVec 3) (op : BitVec 4) (s : State) :
    exec (.vlogred d a c ea pg rm op) s = execVlogred d a c ea pg rm op s := rfl
@[simp] theorem exec_vscan (d : BitVec 7) (a : BitVec 7) (c : BitVec 7) (ea : Bool) (pg : BitVec 5) (rm : BitVec 3) (op : BitVec 4) (excl : Bool) (s : State) :
    exec (.vscan d a c ea pg rm op excl) s = execVscan d a c ea pg rm op excl s := rfl
@[simp] theorem exec_vbcast (d : BitVec 7) (a : BitVec 7) (c : BitVec 7) (ea : Bool) (pg : BitVec 5) (lane : BitVec 8) (s : State) :
    exec (.vbcast d a c ea pg lane) s = execVbcast d a c ea pg lane s := rfl
@[simp] theorem exec_vvote (d : BitVec 7) (pa : BitVec 5) (c : BitVec 7) (pg : BitVec 5) (mode : BitVec 2) (s : State) :
    exec (.vvote d pa c pg mode) s = execVvote d pa c pg mode s := rfl
@[simp] theorem exec_vbfe (d : BitVec 7) (a : BitVec 7) (b : BitVec 7) (ea : Bool) (eb : Bool) (pg : BitVec 5) (neg : Bool) (sx : Bool) (s : State) :
    exec (.vbfe d a b ea eb pg neg sx) s = execVbfe d a b ea eb pg neg sx s := rfl
@[simp] theorem exec_vbfi (d : BitVec 7) (a : BitVec 7) (b : BitVec 7) (c : BitVec 7) (ea : Bool) (eb : Bool) (pg : BitVec 5) (neg : Bool) (s : State) :
    exec (.vbfi d a b c ea eb pg neg) s = execVbfi d a b c ea eb pg neg s := rfl
@[simp] theorem exec_vfrcp (d : BitVec 7) (a : BitVec 7) (ea : Bool) (pg : BitVec 5) (neg : Bool) (s : State) :
    exec (.vfrcp d a ea pg neg) s = execVfrcp d a ea pg neg s := rfl
@[simp] theorem exec_vfrsq (d : BitVec 7) (a : BitVec 7) (ea : Bool) (pg : BitVec 5) (neg : Bool) (s : State) :
    exec (.vfrsq d a ea pg neg) s = execVfrsq d a ea pg neg s := rfl
@[simp] theorem exec_vfsqrt (d : BitVec 7) (a : BitVec 7) (ea : Bool) (pg : BitVec 5) (neg : Bool) (rm : BitVec 3) (s : State) :
    exec (.vfsqrt d a ea pg neg rm) s = execVfsqrt d a ea pg neg rm s := rfl
@[simp] theorem exec_vfexp2 (d : BitVec 7) (a : BitVec 7) (ea : Bool) (pg : BitVec 5) (neg : Bool) (s : State) :
    exec (.vfexp2 d a ea pg neg) s = execVfexp2 d a ea pg neg s := rfl
@[simp] theorem exec_vflog2 (d : BitVec 7) (a : BitVec 7) (ea : Bool) (pg : BitVec 5) (neg : Bool) (s : State) :
    exec (.vflog2 d a ea pg neg) s = execVflog2 d a ea pg neg s := rfl
@[simp] theorem exec_vfsin (d : BitVec 7) (a : BitVec 7) (ea : Bool) (pg : BitVec 5) (neg : Bool) (s : State) :
    exec (.vfsin d a ea pg neg) s = execVfsin d a ea pg neg s := rfl
@[simp] theorem exec_vfcos (d : BitVec 7) (a : BitVec 7) (ea : Bool) (pg : BitVec 5) (neg : Bool) (s : State) :
    exec (.vfcos d a ea pg neg) s = execVfcos d a ea pg neg s := rfl
@[simp] theorem exec_vfdiv (d : BitVec 7) (a : BitVec 7) (b : BitVec 7) (ea : Bool) (eb : Bool) (pg : BitVec 5) (neg : Bool) (rm : BitVec 3) (s : State) :
    exec (.vfdiv d a b ea eb pg neg rm) s = execVfdiv d a b ea eb pg neg rm s := rfl
@[simp] theorem exec_vact (d : BitVec 7) (a : BitVec 7) (ea : Bool) (pg : BitVec 5) (neg : Bool) (s : State) :
    exec (.vact d a ea pg neg) s = execVact d a ea pg neg s := rfl
@[simp] theorem exec_dropm (a : BitVec 7) (b : BitVec 7) (c : BitVec 7) (ea : Bool) (eb : Bool) (pg : BitVec 5) (s : State) :
    exec (.dropm a b c ea eb pg) s = execDropm a b c ea eb pg s := rfl
@[simp] theorem exec_vrand (d : BitVec 7) (a : BitVec 7) (b : BitVec 7) (ea : Bool) (eb : Bool) (pg : BitVec 5) (neg : Bool) (s : State) :
    exec (.vrand d a b ea eb pg neg) s = execVrand d a b ea eb pg neg s := rfl
@[simp] theorem exec_ldIdx (d : BitVec 7) (a : BitVec 7) (b : BitVec 7) (ea : Bool) (eb : Bool) (pg : BitVec 5) (neg : Bool) (st : BitVec 4) (order : BitVec 2) (scope : BitVec 3) (reuse : BitVec 3) (s : State) :
    exec (.ldIdx d a b ea eb pg neg st order scope reuse) s = execLdIdx d a b ea eb pg neg st order scope reuse s := rfl
@[simp] theorem exec_stIdx (d : BitVec 7) (a : BitVec 7) (b : BitVec 7) (ea : Bool) (eb : Bool) (pg : BitVec 5) (neg : Bool) (st : BitVec 4) (order : BitVec 2) (scope : BitVec 3) (reuse : BitVec 3) (s : State) :
    exec (.stIdx d a b ea eb pg neg st order scope reuse) s = execStIdx d a b ea eb pg neg st order scope reuse s := rfl
@[simp] theorem exec_lread (d : BitVec 7) (a : BitVec 7) (b : BitVec 7) (ea : Bool) (eb : Bool) (pg : BitVec 5) (neg : Bool) (s : State) :
    exec (.lread d a b ea eb pg neg) s = execLread d a b ea eb pg neg s := rfl
@[simp] theorem exec_lreadScalar (d : BitVec 7) (a : BitVec 7) (ea : Bool) (lane : BitVec 8) (s : State) :
    exec (.lreadScalar d a ea lane) s = execLreadScalar d a ea lane s := rfl
@[simp] theorem exec_lwrite (d : BitVec 7) (a : BitVec 7) (ea : Bool) (lane : BitVec 8) (s : State) :
    exec (.lwrite d a ea lane) s = execLwrite d a ea lane s := rfl
@[simp] theorem exec_vpcrd (d : BitVec 7) (field : BitVec 4) (lane : BitVec 8) (s : State) :
    exec (.vpcrd d field lane) s = execVpcrd d field lane s := rfl
@[simp] theorem exec_vpcwr (a : BitVec 7) (ea : Bool) (field : BitVec 4) (lane : BitVec 8) (s : State) :
    exec (.vpcwr a ea field lane) s = execVpcwr a ea field lane s := rfl
@[simp] theorem exec_vidiv (d : BitVec 7) (a : BitVec 7) (b : BitVec 7) (ea : Bool) (eb : Bool) (pg : BitVec 5) (neg : Bool) (st : BitVec 4) (dt : BitVec 4) (s : State) :
    exec (.vidiv d a b ea eb pg neg st dt) s = execVidiv d a b ea eb pg neg st dt s := rfl
@[simp] theorem exec_virem (d : BitVec 7) (a : BitVec 7) (b : BitVec 7) (ea : Bool) (eb : Bool) (pg : BitVec 5) (neg : Bool) (st : BitVec 4) (dt : BitVec 4) (s : State) :
    exec (.virem d a b ea eb pg neg st dt) s = execVirem d a b ea eb pg neg st dt s := rfl
@[simp] theorem exec_runStart (cl : Nat) (sl : Nat) (s : State) :
    exec (.runStart cl sl) s = execRunStart cl sl s := rfl
@[simp] theorem exec_deferredTrapTaken (g : Nat) (s : State) :
    exec (.deferredTrapTaken g) s = execDeferredTrapTaken g s := rfl
@[simp] theorem exec_loadResult (acc : AccessAt) (s : State) :
    exec (.loadResult acc) s = execLoadResult acc s := rfl
@[simp] theorem exec_sfuResult (prod : Nat) (s : State) :
    exec (.sfuResult prod) s = execSfuResult prod s := rfl
@[simp] theorem exec_lreadResult (prod : Nat) (s : State) :
    exec (.lreadResult prod) s = execLreadResult prod s := rfl
@[simp] theorem exec_atomicCompletion (acc : AccessAt) (s : State) :
    exec (.atomicCompletion acc) s = execAtomicCompletion acc s := rfl
@[simp] theorem exec_storePerformed (acc : StoreAt) (s : State) :
    exec (.storePerformed acc) s = execStorePerformed acc s := rfl
@[simp] theorem exec_objdeclResult (prod : Nat) (s : State) :
    exec (.objdeclResult prod) s = execObjdeclResult prod s := rfl
@[simp] theorem exec_launchResult (prod : Nat) (s : State) :
    exec (.launchResult prod) s = execLaunchResult prod s := rfl
@[simp] theorem exec_meterResult (prod : Nat) (s : State) :
    exec (.meterResult prod) s = execMeterResult prod s := rfl
@[simp] theorem exec_engineCommandStart (cmd : Nat) (s : State) :
    exec (.engineCommandStart cmd) s = execEngineCommandStart cmd s := rfl
@[simp] theorem exec_engineCommandCompletion (cmd : Nat) (s : State) :
    exec (.engineCommandCompletion cmd) s = execEngineCommandCompletion cmd s := rfl
@[simp] theorem exec_translationWalkEnd (cl : Nat) (part : Nat) (page : Nat) (s : State) :
    exec (.translationWalkEnd cl part page) s = execTranslationWalkEnd cl part page s := rfl
@[simp] theorem exec_pfansWrite (part : Nat) (value : BitVec 64) (s : State) :
    exec (.pfansWrite part value) s = execPfansWrite part value s := rfl
@[simp] theorem exec_tlbInvalidationStart (part : Nat) (value : BitVec 64) (s : State) :
    exec (.tlbInvalidationStart part value) s = execTlbInvalidationStart part value s := rfl
@[simp] theorem exec_tlbInvalidationComplete (part : Nat) (s : State) :
    exec (.tlbInvalidationComplete part) s = execTlbInvalidationComplete part s := rfl
@[simp] theorem exec_tokenRequestArrival (cl : Nat) (part : Nat) (obj : Nat) (s : State) :
    exec (.tokenRequestArrival cl part obj) s = execTokenRequestArrival cl part obj s := rfl
@[simp] theorem exec_tokenGrant (part : Nat) (obj : Nat) (s : State) :
    exec (.tokenGrant part obj) s = execTokenGrant part obj s := rfl
@[simp] theorem exec_lineMigrationComplete (line : Nat) (dest : Nat) (s : State) :
    exec (.lineMigrationComplete line dest) s = execLineMigrationComplete line dest s := rfl
@[simp] theorem exec_wayPairGating (slice : Nat) (s : State) :
    exec (.wayPairGating slice) s = execWayPairGating slice s := rfl
@[simp] theorem exec_wayPairEnable (slice : Nat) (s : State) :
    exec (.wayPairEnable slice) s = execWayPairEnable slice s := rfl
@[simp] theorem exec_gbarClusterRelease (grid : Nat) (cl : Nat) (s : State) :
    exec (.gbarClusterRelease grid cl) s = execGbarClusterRelease grid cl s := rfl
@[simp] theorem exec_regionCommit (die : Nat) (slot : Nat) (s : State) :
    exec (.regionCommit die slot) s = execRegionCommit die slot s := rfl
@[simp] theorem exec_regionReservationLapse (die : Nat) (slot : Nat) (s : State) :
    exec (.regionReservationLapse die slot) s = execRegionReservationLapse die slot s := rfl
@[simp] theorem exec_recoveryTickLimitExpiry (team : Nat) (s : State) :
    exec (.recoveryTickLimitExpiry team) s = execRecoveryTickLimitExpiry team s := rfl
@[simp] theorem exec_rollback (team : Nat) (s : State) :
    exec (.rollback team) s = execRollback team s := rfl
@[simp] theorem exec_undoAreaLost (team : Nat) (s : State) :
    exec (.undoAreaLost team) s = execUndoAreaLost team s := rfl
@[simp] theorem exec_lqptrTailWrite (q : Nat) (tail : BitVec 32) (s : State) :
    exec (.lqptrTailWrite q tail) s = execLqptrTailWrite q tail s := rfl
@[simp] theorem exec_launchRecordRead (q : Nat) (s : State) :
    exec (.launchRecordRead q) s = execLaunchRecordRead q s := rfl
@[simp] theorem exec_childRingTransfer (grid : Nat) (s : State) :
    exec (.childRingTransfer grid) s = execChildRingTransfer grid s := rfl
@[simp] theorem exec_teamAdmission (s : State) :
    exec (.teamAdmission) s = execTeamAdmission s := rfl
@[simp] theorem exec_scratchpadClearDone (team : Nat) (s : State) :
    exec (.scratchpadClearDone team) s = execScratchpadClearDone team s := rfl
@[simp] theorem exec_admissionReservation (grid : Nat) (team : Nat) (s : State) :
    exec (.admissionReservation grid team) s = execAdmissionReservation grid team s := rfl
@[simp] theorem exec_heldOutPreemption (grid : Nat) (s : State) :
    exec (.heldOutPreemption grid) s = execHeldOutPreemption grid s := rfl
@[simp] theorem exec_groupRetirement (g : Nat) (s : State) :
    exec (.groupRetirement g) s = execGroupRetirement g s := rfl
@[simp] theorem exec_prctlGo (part : Nat) (value : BitVec 64) (s : State) :
    exec (.prctlGo part value) s = execPrctlGo part value s := rfl
@[simp] theorem exec_prctlResume (part : Nat) (value : BitVec 64) (s : State) :
    exec (.prctlResume part value) s = execPrctlResume part value s := rfl
@[simp] theorem exec_drainAllowanceExpiry (team : Nat) (s : State) :
    exec (.drainAllowanceExpiry team) s = execDrainAllowanceExpiry team s := rfl
@[simp] theorem exec_teamSave (team : Nat) (s : State) :
    exec (.teamSave team) s = execTeamSave team s := rfl
@[simp] theorem exec_flushToEnsure (team : Nat) (s : State) :
    exec (.flushToEnsure team) s = execFlushToEnsure team s := rfl
@[simp] theorem exec_flushAndRestart (team : Nat) (s : State) :
    exec (.flushAndRestart team) s = execFlushAndRestart team s := rfl
@[simp] theorem exec_teamRestore (team : Nat) (s : State) :
    exec (.teamRestore team) s = execTeamRestore team s := rfl
@[simp] theorem exec_exitStatusWrite (g : Nat) (s : State) :
    exec (.exitStatusWrite g) s = execExitStatusWrite g s := rfl
@[simp] theorem exec_hangWatchdogExpiry (team : Nat) (s : State) :
    exec (.hangWatchdogExpiry team) s = execHangWatchdogExpiry team s := rfl
@[simp] theorem exec_registerFileError (g : Nat) (lane : Nat) (reg : Nat) (s : State) :
    exec (.registerFileError g lane reg) s = execRegisterFileError g lane reg s := rfl
@[simp] theorem exec_moduleShutdown (s : State) :
    exec (.moduleShutdown) s = execModuleShutdown s := rfl
@[simp] theorem exec_dbgHalt (part : Nat) (value : BitVec 64) (s : State) :
    exec (.dbgHalt part value) s = execDbgHalt part value s := rfl
@[simp] theorem exec_dbgResume (part : Nat) (value : BitVec 64) (s : State) :
    exec (.dbgResume part value) s = execDbgResume part value s := rfl
@[simp] theorem exec_dbgStep (part : Nat) (value : BitVec 64) (s : State) :
    exec (.dbgStep part value) s = execDbgStep part value s := rfl
@[simp] theorem exec_haltLimitExpiry (g : Nat) (s : State) :
    exec (.haltLimitExpiry g) s = execHaltLimitExpiry g s := rfl
@[simp] theorem exec_dumpAttach (part : Nat) (s : State) :
    exec (.dumpAttach part) s = execDumpAttach part s := rfl
@[simp] theorem exec_dumpRelease (part : Nat) (s : State) :
    exec (.dumpRelease part) s = execDumpRelease part s := rfl
@[simp] theorem exec_dumpHoldExpiry (cl : Nat) (s : State) :
    exec (.dumpHoldExpiry cl) s = execDumpHoldExpiry cl s := rfl
@[simp] theorem exec_ginghamSample (s : State) :
    exec (.ginghamSample) s = execGinghamSample s := rfl
@[simp] theorem exec_controlInterval (s : State) :
    exec (.controlInterval) s = execControlInterval s := rfl
@[simp] theorem exec_droopAlarm (cl : Nat) (sl : AlarmAt) (s : State) :
    exec (.droopAlarm cl sl) s = execDroopAlarm cl sl s := rfl
@[simp] theorem exec_droopStretchEnd (cl : Nat) (sl : Nat) (s : State) :
    exec (.droopStretchEnd cl sl) s = execDroopStretchEnd cl sl s := rfl
@[simp] theorem exec_halvedWindowEnd (cl : Nat) (sl : Nat) (s : State) :
    exec (.halvedWindowEnd cl sl) s = execHalvedWindowEnd cl sl s := rfl
@[simp] theorem exec_timingReplay (cl : Nat) (sl : Nat) (again : Bool) (s : State) :
    exec (.timingReplay cl sl again) s = execTimingReplay cl sl again s := rfl
@[simp] theorem exec_signPartitionCounters (value : BitVec 64) (s : State) :
    exec (.signPartitionCounters value) s = execSignPartitionCounters value s := rfl
@[simp] theorem exec_signJobRecord (value : BitVec 64) (s : State) :
    exec (.signJobRecord value) s = execSignJobRecord value s := rfl
@[simp] theorem exec_signedReadingWritten (s : State) :
    exec (.signedReadingWritten) s = execSignedReadingWritten s := rfl
@[simp] theorem exec_scrubLine (line : Nat) (half : Nat) (errors : Nat) (bank : Nat) (part : Nat) (s : State) :
    exec (.scrubLine line half errors bank part) s = execScrubLine line half errors bank part s := rfl
@[simp] theorem exec_scrubWindowExpiry (bank : Nat) (s : State) :
    exec (.scrubWindowExpiry bank) s = execScrubWindowExpiry bank s := rfl
@[simp] theorem exec_bankReencode (bank : Nat) (s : State) :
    exec (.bankReencode bank) s = execBankReencode bank s := rfl
@[simp] theorem exec_errctlClr (part : Nat) (s : State) :
    exec (.errctlClr part) s = execErrctlClr part s := rfl
@[simp] theorem exec_classignWrite (cl : Nat) (value : BitVec 64) (s : State) :
    exec (.classignWrite cl value) s = execClassignWrite cl value s := rfl
@[simp] theorem exec_hostWindowRead (part : Nat) (win : Nat) (off : Nat) (len : Nat) (s : State) :
    exec (.hostWindowRead part win off len) s = execHostWindowRead part win off len s := rfl
@[simp] theorem exec_hostWindowWrite (part : Nat) (win : Nat) (off : Nat) (bytes : List (BitVec 8)) (s : State) :
    exec (.hostWindowWrite part win off bytes) s = execHostWindowWrite part win off bytes s := rfl
@[simp] theorem exec_fabricAccess (port : Nat) (flit : List (BitVec 8)) (s : State) :
    exec (.fabricAccess port flit) s = execFabricAccess port flit s := rfl
@[simp] theorem exec_keyRevocation (part : Nat) (s : State) :
    exec (.keyRevocation part) s = execKeyRevocation part s := rfl
@[simp] theorem exec_coldReset (s : State) :
    exec (.coldReset) s = execColdReset s := rfl
@[simp] theorem exec_warmReset (s : State) :
    exec (.warmReset) s = execWarmReset s := rfl
@[simp] theorem exec_registerWrite (off : RegAt) (value : BitVec 64) (s : State) :
    exec (.registerWrite off value) s = execRegisterWrite off value s := rfl
@[simp] theorem exec_ringHeadWrite (off : Nat) (value : BitVec 32) (s : State) :
    exec (.ringHeadWrite off value) s = execRingHeadWrite off value s := rfl
@[simp] theorem exec_fabricLinkFailure (member : Nat) (s : State) :
    exec (.fabricLinkFailure member) s = execFabricLinkFailure member s := rfl
@[simp] theorem exec_flitLinkCheckFailure (port : Nat) (s : State) :
    exec (.flitLinkCheckFailure port) s = execFlitLinkCheckFailure port s := rfl
@[simp] theorem exec_killRequest (target : BitVec 64) (s : State) :
    exec (.killRequest target) s = execKillRequest target s := rfl
@[simp] theorem exec_partitionTeardown (part : Nat) (s : State) :
    exec (.partitionTeardown part) s = execPartitionTeardown part s := rfl

end Sys2Proof.Machine
end

