-- ==== Sys2Proof/Laws/Words.lean ====
section
/-! SUPPORT. One law for each shape of word: what the word does once its operands are ready (Operands.lean). -/
namespace Sys2Proof.Machine

/-! ### Gates -/

theorem Group.emptyIn_full {g : Group} {m : LaneSet} {o : Nat} (h : g.full m o) : g.emptyIn m o = false := by
  unfold Group.emptyIn
  split_ifs with h1 h2
  · rw [List.any_eq_false]
    intro l hl
    simpa using h.1 h1 l ((mem_lanesIn m l).1 hl)
  · exact h.2 h2.1 h2.2
  · rfl

/-- A word whose operands are ready passes its gate, whatever its empty actions. -/
theorem Group.gateOn_ready {g : Group} {srcs : List (LaneSet × Nat × Bool)} {dsts : List (LaneSet × Nat)}
    (hs : ∀ p ∈ srcs, g.full p.1 p.2.1 ∧ (p.2.1 = 72 → ∀ l, inSet p.1 l = true → (g.lane l).lrValid = true))
    (hd : ∀ p ∈ dsts, g.full p.1 p.2) : g.gateOn srcs dsts = .go := by
  have e1 : ((srcs.filter (fun p => !p.2.2)).map (fun p => (p.1, p.2.1)) ++ dsts).filter (fun p => g.emptyIn p.1 p.2) = [] := by
    rw [List.filter_eq_nil_iff]
    intro p hp
    rcases List.mem_append.1 hp with hp | hp
    · obtain ⟨q, hq, rfl⟩ := List.mem_map.1 hp
      simp [Group.emptyIn_full (hs q (List.mem_filter.1 hq).1).1]
    · simp [Group.emptyIn_full (hd p hp)]
  have e2 : srcs.find? (fun p => p.2.2 && g.emptyIn p.1 p.2.1) = none := by
    rw [List.find?_eq_none]
    intro p hp
    simp [Group.emptyIn_full (hs p hp).1]
  have e3 : srcs.any (fun p => p.2.1 == 72 && (lanesIn p.1).any (fun l => !(g.lane l).lrValid)) = false := by
    rw [List.any_eq_false]
    intro p hp
    by_cases h72 : p.2.1 = 72
    · have := (hs p hp).2 h72
      simp only [h72, beq_self_eq_true, Bool.true_and, List.any_eq_true, not_exists, not_and, Bool.not_eq_true]
      intro l hl
      simp [this l ((mem_lanesIn _ l).1 hl)]
    · simp [h72]
  unfold Group.gateOn
  simp only [e1, e2, e3, List.isEmpty_nil, if_true, Bool.false_eq_true, if_false]

theorem Group.gate_ready {g : Group} {srcs : List (Nat × Bool)} {dsts : List Nat} (h : g.ready g.run.act (srcs.map (·.1)) dsts) :
    g.gate srcs dsts = .go := by
  refine Group.gateOn_ready (fun p hp => ?_) (fun p hp => ?_)
  · obtain ⟨q, hq, rfl⟩ := List.mem_map.1 hp
    exact h.1 q.1 (List.mem_map_of_mem hq)
  · obtain ⟨q, hq, rfl⟩ := List.mem_map.1 hp
    exact h.2 q hq

@[simp] theorem State.gated_go (s k : State) : s.gated .go k = k := rfl

/-! ### Committing a group -/

@[simp] theorem State.commit_cur (s : State) (k : Nat) (g : Group) (w : Nat → Writes) : (s.commit k g w).cur = s.cur := by
  unfold State.commit; dsimp only; split
  · rfl
  · split_ifs <;> rfl

theorem State.group_commit (s : State) (k j : Nat) (g : Group) (w : Nat → Writes) : (s.commit k g w).group j = if j = k then g else s.group j := by
  unfold State.commit; dsimp only; split
  · exact State.group_setGroup _ _ _ _
  · split_ifs <;> simp_all [State.group_setGroup]

@[simp] theorem State.group_commit_self (s : State) (k : Nat) (g : Group) (w : Nat → Writes) : (s.commit k g w).group k = g := by simp [State.group_commit]

@[simp] theorem State.cluster_commit (s : State) (k j : Nat) (g : Group) (w : Nat → Writes) : (s.commit k g w).cluster j = s.cluster j := by
  unfold State.commit; dsimp only; split
  · rfl
  · split_ifs <;> rfl

/-- A group committed changes nothing outside the groups and the teams. -/
theorem State.commit_world (s : State) (k : Nat) (g : Group) (w : Nat → Writes) : SameWorld s (s.commit k g w) := by
  unfold SameWorld State.commit; dsimp only; split
  · rfl
  · split_ifs <;> rfl

@[simp] theorem State.commit_time (s : State) (k : Nat) (g : Group) (w : Nat → Writes) : (s.commit k g w).time = s.time := by
  unfold State.commit; dsimp only; split
  · rfl
  · split_ifs <;> rfl

@[simp] theorem State.commit_clusters (s : State) (k : Nat) (g : Group) (w : Nat → Writes) : (s.commit k g w).clusters = s.clusters := by
  unfold State.commit; dsimp only; split
  · rfl
  · split_ifs <;> rfl

theorem State.commit_teams (s : State) (g : Group) (w : Nat → Writes) : TeamsButLogs s (s.commit s.cur g w) := by
  unfold State.commit
  dsimp only
  split
  · exact ⟨fun _ _ => rfl, rfl, rfl⟩
  · rename_i lv hlv
    split_ifs
    · exact ⟨fun _ _ => rfl, rfl, rfl⟩
    · have hne : (s.team s.me.team).levels ≠ [] := by intro h; rw [show (s.group s.cur).team = s.me.team from rfl, h] at hlv; cases hlv
      have hlast : (s.team s.me.team).levels.getLast? = some lv := hlv
      refine ⟨fun k hk => ?_, ?_, ?_⟩
      · simp only [State.team_setGroup, State.team_onTeam]
        exact if_neg hk
      · simp only [State.team_setGroup]
        rw [show (s.group s.cur).team = s.me.team from rfl, State.team_onTeam_self]
        unfold Team.onLevel
        rw [hlast]
      · simp only [State.team_setGroup]
        rw [show (s.group s.cur).team = s.me.team from rfl, State.team_onTeam_self]
        unfold Team.onLevel
        rw [hlast]
        simp only [List.map_append, List.map_cons, List.map_nil]
        have hb : (s.team s.me.team).levels = (s.team s.me.team).levels.dropLast ++ [lv] := by
          rw [List.getLast?_eq_some_getLast hne] at hlast
          rw [← Option.some.inj hlast, List.dropLast_append_getLast hne]
        conv_rhs => rw [hb, List.map_append]
        rfl

/-! ### The issue of a word -/

/-- After a change that touches only the issuing group's lanes and registers, the issue of the word leaves the frame of a slice. -/
theorem State.advance_slice {s u : State} (n c : Nat) (hw : ∀ k, k ≠ s.cur → u.group k = s.group k) (hc : u.cur = s.cur)
    (hcl : u.clusters = s.clusters) (h1 : u.me.cluster = s.me.cluster) (h2 : u.me.slice = s.me.slice) : OwnSlice s (u.advance n c) := by
  obtain ⟨x, hx⟩ := State.cluster_advance u n c
  have e : u.cluster = s.cluster := by funext j; simp [State.cluster, hcl]
  rw [h1, h2, e] at hx
  refine ⟨fun k => ?_, fun k j hne => ?_, fun k hk => ?_, by simpa using hc⟩
  · rw [hx]
    split_ifs with h
    · subst h; rfl
    · rfl
  · rw [hx]
    split_ifs with h
    · subst h
      rw [Cluster.slice_onSlice, if_neg]
      exact fun hj => hne ⟨rfl, hj⟩
    · rfl
  · rw [State.group_advance _ _ _ _ (by rw [hc]; exact hk), hw k hk]

/-- The issue of a word leaves the world as it is. -/
theorem State.advance_world {s u : State} (n c : Nat) (h : SameWorld s u) : SameWorld s (u.advance n c) := h

/-- A vector word whose gate is open (R105): `f` changes the active lanes for which `on` holds, all else is as it was. -/
theorem State.vecGated_go (s : State) {gt : Gate} (hg : gt = .go) (n cost : Nat) (on : Group → Nat → Bool) (f : Group → Nat → Lane → Lane)
    (regs : List Nat) (preds : Bool) : Gives (s.vecGated gt n cost on f regs preds) (fun t => VecFrame n s t ∧ ∀ l, l < 64 → t.me.lane l =
      if inSet s.me.run.act l = true ∧ on s.me l = true then f s.me l (s.me.lane l) else s.me.lane l) := by
  subst hg
  let w : Nat → Writes := fun l => if inSet s.me.run.act l && on s.me l then (f s.me l (s.me.lane l).probe).written regs preds else {}
  refine ⟨_, rfl, ?_, ?_⟩
  · refine ⟨?_, ?_, ?_, ?_⟩
    · rw [State.gated_go]
      exact State.advance_world _ _ (State.commit_world _ _ _ _)
    · refine State.advance_slice n cost (fun k hk => ?_) (by simp) (by simp) ?_ ?_
      · rw [State.group_commit, if_neg hk]
      · simp [State.me, Group.mapLanes]
      · simp [State.me, Group.mapLanes]
    · have h := State.commit_teams s (s.me.mapLanes s.me.run.act (fun l x => if on s.me l then f s.me l x else x)) w
      exact ⟨h.other, h.own, h.levels⟩
    · rw [State.gated_go, State.me_advance]
      simp [State.me, Run.after, Group.mapLanes]
  · intro l hl
    rw [State.gated_go, State.me_advance]
    have : (s.commit s.cur (s.me.mapLanes s.me.run.act (fun l x => if on s.me l then f s.me l x else x)) w).me =
        s.me.mapLanes s.me.run.act (fun l x => if on s.me l then f s.me l x else x) := by simp [State.me]
    rw [this]
    show (s.me.mapLanes _ _).lane l = _
    rw [Group.lane_mapLanes _ _ _ hl]
    by_cases h1 : inSet s.me.run.act l = true <;> by_cases h2 : on s.me l = true <;> simp [h1, h2]

/-- A short-latency result in a lane (R17). -/
theorem Lane.result_law (n : Lane) (d : BitVec 7) (r : Word × FpFlags) : LaneResult d.toNat r.1 r.2 n (n.result d r) := by
  unfold Lane.result Lane.writeShort Lane.writeDest
  split_ifs with h1 h2
  · refine ⟨fun _ => ?_, fun k hk hne => ?_, ⟨rfl, rfl⟩, rfl, rfl⟩
    · simp [Lane.reg_setReg, Lane.isEmpty_setReg, h1]
    · simp [Lane.reg_setReg, Lane.isEmpty_setReg, hk, hne]
  · exact ⟨fun h => absurd h h1, fun k _ _ => ⟨rfl, rfl⟩, ⟨rfl, rfl⟩, rfl, rfl⟩
  · exact ⟨fun h => absurd h h1, fun k _ _ => ⟨rfl, rfl⟩, ⟨rfl, rfl⟩, rfl, rfl⟩

/-- A vector word with a short-latency result, its gate open (R17, R105). -/
theorem State.vecResult_go (s : State) {gt : Gate} (hg : gt = .go) (n cost : Nat) (d : BitVec 7) (on : Group → Nat → Bool)
    (r : Group → Nat → Word × FpFlags) (regs : List Nat) (preds : Bool) :
    Gives (s.vecGated gt n cost on (fun g l x => x.result d (r g l)) regs preds)
      (Wrote n d.toNat (on s.me) (fun l => (r s.me l).1) (fun l => (r s.me l).2) s) := by
  obtain ⟨t, ht, hf, hl⟩ := State.vecGated_go s hg n cost on (fun g l x => x.result d (r g l)) regs preds
  refine ⟨t, ht, hf, fun l h1 h2 => ?_, fun l h1 h2 => ?_⟩
  · rw [hl l (inSet_lt h1), if_pos ⟨h1, h2⟩]
    exact Lane.result_law _ _ _
  · rw [hl l h1, if_neg h2]

/-- A compare or predicate-logic word, its gate open (R113 to R115). -/
theorem State.vecPred_go (s : State) {gt : Gate} (hg : gt = .go) (n cost : Nat) (p : Nat) (hp : p < 24) (r : Group → Nat → Lane → Bool × FpFlags) (regs : List Nat)
    (preds : Bool) : Gives (s.vecGated gt n cost always (fun g l x => (x.setPred p (r g l x).1).orFlags (r g l x).2) regs preds)
      (WrotePred n p (fun l => (r s.me l (s.me.lane l)).1) (fun l => (r s.me l (s.me.lane l)).2) s) := by
  obtain ⟨t, ht, hf, hl⟩ := State.vecGated_go s hg n cost always (fun g l x => (x.setPred p (r g l x).1).orFlags (r g l x).2) regs preds
  refine ⟨t, ht, hf, fun l h1 => ?_, fun l h1 h2 => ?_⟩
  · rw [hl l (inSet_lt h1), if_pos ⟨h1, rfl⟩]
    refine ⟨?_, fun q hq hne => ?_, rfl, rfl⟩
    · show (Lane.setPred _ _ _).pred p = _
      rw [Lane.pred_setPred _ _ _ _ hp hp, if_pos rfl]
    · show (Lane.setPred _ _ _).pred q = _
      rw [Lane.pred_setPred _ _ _ _ hp hq, if_neg hne]
  · rw [hl l h1, if_neg (by simp [h2])]

/-- The issue of a scalar word that changes its group's scalar registers with `f`. -/
theorem State.scalar_frame (s : State) (n cost : Nat) (f : Group → Group)
    (hf : { f s.me with sregs := s.me.sregs, sEmpty := s.me.sEmpty } = s.me) : ScalarFrame n s ((s.onMe f).advance n cost) := by
  have hc : (f s.me).cluster = s.me.cluster := by have h := congrArg (fun g => g.cluster) hf; exact h
  have hs : (f s.me).slice = s.me.slice := by have h := congrArg (fun g => g.slice) hf; exact h
  refine ⟨rfl, State.advance_slice n cost (fun k hk => ?_) rfl rfl ?_ ?_, rfl, ?_⟩
  · rw [State.group_onMe, if_neg hk]
  · rw [State.me_onMe, hc]
  · rw [State.me_onMe, hs]
  · rw [State.me_advance, State.me_onMe]
    have h1 := congrArg (fun g : Group => { g with run := { g.run with idx := g.run.idx + n, used := g.run.used + n } }) hf
    exact h1

/-- A scalar word with one destination, its gate open (R83, R85, R86). -/
theorem State.scalarWord_go (s : State) {srcs dsts : List Nat} (h : s.ready srcs dsts) (n r : Nat) (v : Group → Word) :
    Gives (s.scalarWord srcs dsts n (·.onMe (fun g => g.setS r (v g)))) (WroteS n r (v s.me) s) := by
  have hg : s.me.gate (srcs.map (fun r => (r, false))) dsts = .go :=
    Group.gate_ready (by rw [List.map_map]; simpa [Function.comp_def, State.ready] using h)
  refine ⟨_, rfl, ?_⟩
  rw [hg, State.gated_go]
  refine ⟨State.scalar_frame s n 1 _ rfl, ?_, fun k hk hne => ?_⟩
  · rw [State.me_advance, State.me_onMe]
    refine ⟨?_, ?_⟩
    · show (Group.setS _ _ _).s r = _
      rw [Group.s_setS, if_pos rfl]
    · show (Group.setS s.me r (v s.me)).sIsEmpty r = false
      by_cases hr : r < 32
      · rw [Group.sIsEmpty_setS _ _ _ _ hr, if_pos rfl]
      · exact BitVec.getLsbD_of_ge (Group.setS s.me r (v s.me)).sEmpty r (by omega)
  · rw [State.me_advance, State.me_onMe]
    refine ⟨?_, ?_⟩
    · show (Group.setS _ _ _).s k = _
      rw [Group.s_setS, if_neg hne]
    · show (Group.setS s.me r (v s.me)).sIsEmpty k = _
      rw [Group.sIsEmpty_setS _ _ _ _ hk, if_neg hne]

end Sys2Proof.Machine
end

