-- ==== Sys2Proof/Laws/MemIssue.lean ====
section
/-! SUPPORT. What a memory word does when nothing holds it back (MemIssue.lean). -/
namespace Sys2Proof.Machine

/-- Agreement but for cached translations and the counters that translation leaves alone. -/
structure TlbOnly (s t : State) : Prop where
  world : { t with clusters := s.clusters, dies := s.dies } = s
  cluster : ∀ c, { t.cluster c with tlb := (s.cluster c).tlb } = s.cluster c
  die : ∀ d, { t.die d with tlb := (s.die d).tlb } = s.die d

theorem TlbOnly.refl (s : State) : TlbOnly s s := ⟨rfl, fun _ => rfl, fun _ => rfl⟩

theorem TlbOnly.trans {s t u : State} (h : TlbOnly s t) (k : TlbOnly t u) : TlbOnly s u := by
  refine ⟨?_, fun c => ?_, fun d => ?_⟩
  · have := congrArg (fun x : State => { x with clusters := s.clusters, dies := s.dies }) k.world
    exact this.trans h.world
  · have := congrArg (fun x : Cluster => { x with tlb := (s.cluster c).tlb }) (k.cluster c)
    exact this.trans (h.cluster c)
  · have := congrArg (fun x : Die => { x with tlb := (s.die d).tlb }) (k.die d)
    exact this.trans (h.die d)

/-- Caching a translation changes nothing else (R225). -/
theorem State.putTlb_only (s : State) (cl : Nat) (x : Nat × DWord × Nat) : TlbOnly s (s.putTlb cl x) := by
  refine ⟨rfl, fun c => ?_, fun d => ?_⟩
  · unfold State.putTlb
    rw [State.cluster_onDie, State.cluster_onCluster]; split_ifs with h
    · subst h; rfl
    · rfl
  · unfold State.putTlb
    rw [State.die_onDie, State.die_onCluster]; split_ifs with h
    · subst h; rfl
    · rfl

theorem TlbOnly.foldl {α : Type} (f : State → α → State) (xs : List α) (h : ∀ x ∈ xs, ∀ s, TlbOnly s (f s x)) (s : State) : TlbOnly s (xs.foldl f s) := by
  induction xs generalizing s with
  | nil => exact TlbOnly.refl s
  | cons x xs ih => exact (h x (by simp) s).trans (ih (fun y hy => h y (by simp [hy])) _)

/-! ### Translation depends on the page only -/

theorem walkFrom_congr (m : Mem) (poison : FMap Unit) (va va' : Nat) (ls : List (Nat × Nat × Nat × Nat))
    (h : ∀ x ∈ ls, va / 2 ^ x.2.1 % 2 ^ x.2.2.1 = va' / 2 ^ x.2.1 % 2 ^ x.2.2.1) (base : Nat) :
    walkFrom m poison va ls base = walkFrom m poison va' ls base := by
  induction ls generalizing base with
  | nil => rfl
  | cons x xs ih =>
    obtain ⟨lv, sh, w, al⟩ := x
    have e := h _ List.mem_cons_self
    dsimp only at e
    unfold walkFrom
    simp only [e, ih (fun y hy => h y (List.mem_cons_of_mem _ hy))]

/-- Addresses of one page walk alike (R222). -/
theorem State.walk_page (s : State) (part va va' : Nat) (h : va / 2 ^ 16 % 2 ^ 40 = va' / 2 ^ 16 % 2 ^ 40) : s.walk part va = s.walk part va' := by
  unfold State.walk
  refine walkFrom_congr _ _ _ _ _ (fun x hx => ?_) _
  simp only [walkLevels, List.mem_cons, List.not_mem_nil, or_false] at hx
  rcases hx with rfl | rfl | rfl | rfl <;> dsimp only <;> omega

theorem State.translate_page (s : State) (cl part va va' : Nat) (h : va / 2 ^ 16 % 2 ^ 40 = va' / 2 ^ 16 % 2 ^ 40) :
    s.translate cl part va = s.translate cl part va' := by
  unfold State.translate tlbKey
  rw [s.walk_page part va va' h, h]

/-- Pages none of whose walks is in error are cached and no error is counted (R224, R225, R388). -/
theorem State.cachePages_only (cl part : Nat) (use : Access1) (pages : List Nat) (s : State)
    (h : ∀ pg ∈ pages, s.tableError cl part (pg * 2 ^ 16) = false) : TlbOnly s (s.cachePages cl part use pages) := by
  have h0 : (pages.filter (fun pg => s.tableError cl part (pg * 2 ^ 16))).length = 0 := by
    rw [List.length_eq_zero_iff, List.filter_eq_nil_iff]; intro pg hpg; exact (h pg hpg) ▸ Bool.false_ne_true
  unfold State.cachePages State.countErr
  simp only [h0, if_true]
  exact TlbOnly.foldl _ _ (fun x _ s => s.putTlb_only cl x) s

/-! ### Issue -/

theorem lanesIn_ne {m : LaneSet} (h : m ≠ 0) : ∃ l, inSet m l = true := by
  by_contra hc
  apply h
  apply BitVec.eq_of_getLsbD_eq
  intro i hi
  rw [show BitVec.getLsbD (0 : LaneSet) i = false by simp]
  by_contra h2
  exact hc ⟨i, by simpa [inSet] using h2⟩

theorem State.resolveAll_plain (s : State) (now : Bool) (n : Nat) (h : ∀ a, FMap.look s.accesses n = some a → ∀ p ∈ a.parts, p.region = none) :
    s.resolveAll now n = s := by
  unfold State.resolveAll
  cases ha : FMap.look s.accesses n with
  | none => rfl
  | some a =>
    have key : ∀ xs : List Nat, xs.foldl (fun s i => s.resolvePart now n i) s = s := by
      intro xs
      induction xs with
      | nil => rfl
      | cons i xs ih =>
        have : s.resolvePart now n i = s := by
          unfold State.resolvePart
          rw [ha]
          dsimp only
          cases hp : a.parts[i]? with
          | none => rfl
          | some p => dsimp only; rw [h a ha p (List.mem_of_getElem? hp)]
        rw [List.foldl_cons, this]; exact ih
    exact key _

theorem Group.quitIfNone_of {g : Group} (h : g.run.act ≠ 0) : g.quitIfNone = g := by
  have e : (g.run.quit || decide (g.run.act = 0)) = g.run.quit := by simp only [h, decide_false, Bool.or_false]
  unfold Group.quitIfNone
  rw [e]

/-- The start of an access put together: lanes changed, the access listed, the word issued. -/
theorem Issued.intro (s s1 : State) (n c : Nat) (on : Nat → Bool) (regs : List Nat) (a : Access) (f : Nat → Lane → Lane)
    (hT : TlbOnly s s1) (hact : s.me.run.act ≠ 0) (hp : a.parts ≠ []) (hf : ∀ l n, f l n = regs.foldl Lane.emptyReg n) :
    Issued n on regs a s ((((s1.setGroup s.cur (s.me.mapLanes (setOf on) f)).addAccess a).onMe (·.quitIfNone)).advance n c) := by
  have hgrp : s1.groups = s.groups := by have h := congrArg (fun x : State => x.groups) hT.world; exact h
  have hcur : s1.cur = s.cur := by have h := congrArg (fun x : State => x.cur) hT.world; exact h
  have hfr : s1.fresh = s.fresh := by have h := congrArg (fun x : State => x.fresh) hT.world; exact h
  have hacc : s1.accesses = s.accesses := by have h := congrArg (fun x : State => x.accesses) hT.world; exact h
  have he : a.parts.isEmpty = false := by simpa [List.isEmpty_iff] using hp
  obtain ⟨G, hG⟩ : ∃ G, s.me.mapLanes (setOf on) f = G := ⟨_, rfl⟩
  rw [hG]
  obtain ⟨u, hu⟩ : ∃ u, (s1.setGroup s.cur G).addAccess a = u := ⟨_, rfl⟩
  have hu' : u = { s1 with groups := FMap.put s1.groups s.cur G, accesses := FMap.put s1.accesses s1.fresh a, fresh := s1.fresh + 1 } := by
    rw [← hu]; unfold State.addAccess; rw [he]; rfl
  rw [hu]
  have hucur : u.cur = s.cur := by rw [hu']; exact hcur
  have hugrp : ∀ k, u.group k = if k = s.cur then G else s.group k := by
    intro k
    rw [hu']
    show FMap.at {} (FMap.put s1.groups s.cur G) k = _
    rw [FMap.at_put, hgrp]; rfl
  have hume : u.me = G := by
    unfold State.me; rw [hucur, hugrp, if_pos rfl]
  have hq : (u.onMe (·.quitIfNone)).me = G := by
    rw [State.me_onMe, hume]
    exact Group.quitIfNone_of (by rw [← hG]; exact hact)
  obtain ⟨x, hx⟩ := State.cluster_advance (u.onMe (·.quitIfNone)) n c
  have hucl : ∀ j, (u.onMe (·.quitIfNone)).cluster j = s1.cluster j := by
    intro j; rw [State.cluster_onMe, hu']; rfl
  obtain ⟨t, cl, gs, e⟩ := State.advance_eq (u.onMe (·.quitIfNone)) n c
  refine ⟨?_, fun k => ?_, fun d => ?_, fun k hk => ?_, ?_, fun l hl => ?_, ?_, fun k hk => ?_, ?_⟩
  · rw [e, hu']
    have h := congrArg (fun x : State => { x with time := s.time, groups := s.groups, accesses := s.accesses, fresh := s.fresh }) hT.world
    exact h
  · have h := hT.cluster k
    have h2 := congrArg (fun x : Cluster => { x with slices := (s.cluster k).slices }) h
    rw [hx, hucl, hucl]
    split_ifs with hk
    · rw [← hk]; exact h2
    · exact h2
  · rw [e, hu']; exact hT.die d
  · rw [State.group_advance _ _ _ _ (by show k ≠ u.cur; rw [hucur]; exact hk), State.group_onMe, if_neg (by rw [hucur]; exact hk), hugrp, if_neg hk]
  · rw [State.me_advance, hq, ← hG]; rfl
  · rw [State.me_advance, hq]
    show G.lane l = _
    rw [← hG, Group.lane_mapLanes _ _ _ hl, inSet_setOf]
    simp only [hl, decide_true, Bool.true_and]
    split_ifs
    · exact hf l _
    · rfl
  · rw [e, hu']
    show FMap.look (FMap.put s1.accesses s1.fresh a) s.fresh = _
    rw [hfr, FMap.look_put_self]
  · rw [e, hu']
    show FMap.look (FMap.put s1.accesses s1.fresh a) k = _
    rw [hfr, FMap.look_put_ne _ _ hk, hacc]
  · rw [e, hu']; show s1.fresh + 1 = _; rw [hfr]

/-- The start of an access whose lanes all lead somewhere, in a group that nothing holds back (R19, R144). -/
theorem State.startAccess_free (s : State) (m : MemWord) (on : Nat → Bool) (ea : Nat → Nat) (data : Nat → List (BitVec 8)) (ps : Nat → List Part)
    (hf : s.memFree) (hne : ∃ l, inSet s.me.run.act l = true ∧ on l = true)
    (hreq : m.reqs = ((lanesIn s.me.run.act).filter on).map (fun l => { lane := l, ea := ea l, data := data l }))
    (hres : ∀ l, inSet s.me.run.act l = true → on l = true → s.laneRes m s.me { lane := l, ea := ea l, data := data l } = .parts (ps l))
    (hps : ∀ l, inSet s.me.run.act l = true → on l = true → ps l ≠ [] ∧ ∀ p ∈ ps l, p.region = none)
    (hpg : m.scratch = false → ∀ l, inSet s.me.run.act l = true → on l = true → ∀ p ∈ pieces m (ea l),
      s.tableError s.me.cluster (s.partOf s.me) ((ea l + p.1) / 2 ^ 16 * 2 ^ 16) = false) :
    Issued m.words (fun l => inSet s.me.run.act l && on l) (match m.dest with | some d => (List.range m.nregs).map (d + ·) | none => [])
      (s.accessHere m.kind m.order m.scope m.reuse m.words m.dest m.nregs m.width m.sext (((lanesIn s.me.run.act).filter on).flatMap ps))
      s (s.startAccess m) := by
  obtain ⟨hact, -, -, hlev, hlane⟩ := hf
  have hmem : ∀ q ∈ m.reqs, inSet s.me.run.act q.lane = true ∧ on q.lane = true ∧ q = { lane := q.lane, ea := ea q.lane, data := data q.lane } := by
    intro q hq
    rw [hreq] at hq
    obtain ⟨l, hl, rfl⟩ := List.mem_map.1 hq
    exact ⟨(mem_lanesIn _ _).1 (List.mem_filter.1 hl).1, (List.mem_filter.1 hl).2, rfl⟩
  have hgone : m.reqs.filter (fun q => (s.me.lane q.lane).aborting) = [] := by
    rw [List.filter_eq_nil_iff]; intro q hq; simp [(hlane q.lane (hmem q hq).1).2]
  have hreqs : m.reqs.filter (fun q => !(s.me.lane q.lane).aborting) = m.reqs := by
    rw [List.filter_eq_self]; intro q hq; simp [(hlane q.lane (hmem q hq).1).2]
  have hres' : m.reqs.map (fun q => (q.lane, s.laneRes m s.me q)) = m.reqs.map (fun q => (q.lane, LaneRes.parts (ps q.lane))) := by
    refine List.map_congr_left (fun q hq => ?_)
    have h := hmem q hq
    rw [h.2.2]; rw [hres _ h.1 h.2.1]
  have hbad : (m.reqs.map (fun q => (q.lane, LaneRes.parts (ps q.lane)))).filterMap (fun x => x.2.fault x.1) = ([] : List (Nat × Nat × Nat × Nat)) := by
    rw [List.filterMap_eq_nil_iff]; intro x hx; obtain ⟨q, -, rfl⟩ := List.mem_map.1 hx; rfl
  have hparts : (m.reqs.map (fun q => (q.lane, LaneRes.parts (ps q.lane)))).flatMap (fun x => x.2.found) =
      ((lanesIn s.me.run.act).filter on).flatMap ps := by
    rw [List.flatMap_map, hreq, List.flatMap_map]; rfl
  have hp0 : ((lanesIn s.me.run.act).filter on).flatMap ps ≠ [] := by
    obtain ⟨l, hl, hol⟩ := hne
    intro h0
    rw [List.flatMap_eq_nil_iff] at h0
    exact (hps l hl hol).1 (h0 l (List.mem_filter.2 ⟨(mem_lanesIn _ _).2 hl, hol⟩))
  have hT : TlbOnly s (s.cachePages s.me.cluster (s.partOf s.me) (if m.kind = .load then .read else .write)
      (if m.scratch then [] else (m.reqs.flatMap (fun q => (pieces m q.ea).map (fun p => (q.ea + p.1) / 2 ^ 16))).dedup)) := by
    refine State.cachePages_only _ _ _ _ _ (fun pg hin => ?_)
    by_cases hs : m.scratch = true
    · simp [hs] at hin
    · have hs' : m.scratch = false := by simpa using hs
      rw [hs', if_neg (by simp), List.mem_dedup] at hin
      obtain ⟨q, hq, hin⟩ := List.mem_flatMap.1 hin
      obtain ⟨p, hp, rfl⟩ := List.mem_map.1 hin
      have h := hmem q hq
      rw [h.2.2] at hp ⊢
      exact hpg hs' _ h.1 h.2.1 p hp
  have hlive : (setOf (fun l => m.reqs.any (fun q => q.lane == l)) ||| setOf (fun l => ([] : List Req).any (fun q => q.lane == l))) =
      setOf (fun l => inSet s.me.run.act l && on l) := by
    apply BitVec.eq_of_getLsbD_eq
    intro i hi
    have e1 : ∀ p : Nat → Bool, (setOf p).getLsbD i = (decide (i < 64) && p i) := fun p => inSet_setOf p i
    rw [BitVec.getLsbD_or, e1, e1, e1, hreq]
    simp only [hi, decide_true, Bool.true_and, List.any_nil, Bool.or_false, List.any_map, List.any_filter]
    rw [Bool.eq_iff_iff, List.any_eq_true]
    constructor
    · rintro ⟨l, hl, h⟩
      simp only [Function.comp, Bool.and_eq_true, beq_iff_eq] at h
      obtain ⟨h1, rfl⟩ := h
      simp [h1, (mem_lanesIn _ _).1 hl]
    · intro h
      simp only [Bool.and_eq_true] at h
      exact ⟨i, (mem_lanesIn _ _).2 h.1, by simp [h.2]⟩
  have hzero : ∀ l, inSet (setOf (fun l => ([] : List Req).any (fun q => q.lane == l))) l = false := by intro l; simp
  unfold State.startAccess
  dsimp only
  rw [hgone, hreqs, hres', hbad, hparts, hlive]
  generalize s.cachePages s.me.cluster (s.partOf s.me) _ _ = s1 at hT
  have hteam : s1.teams = s.teams := by have h := congrArg (fun x : State => x.teams) hT.world; exact h
  have hgrp : s1.groups = s.groups := by have h := congrArg (fun x : State => x.groups) hT.world; exact h
  have hcur : s1.cur = s.cur := by have h := congrArg (fun x : State => x.cur) hT.world; exact h
  have hl1 : (s1.team s.me.team).levels = [] := by
    unfold State.team; rw [hteam]; exact hlev
  have hme : s1.group s.cur = s.me := by unfold State.group; rw [hgrp]; rfl
  have hr : (s1.team s.me.team).rlevel = 0 := by unfold Team.rlevel; rw [hl1]; rfl
  rw [if_neg (by rw [hr]; simp)]
  have hcom : ∀ (g' : Group) (w : Nat → Writes), s1.commit s.cur g' w = s1.setGroup s.cur g' := by
    intro g' w
    unfold State.commit
    rw [hme]
    dsimp only
    rw [hl1]
    rfl
  simp only [hcom, List.isEmpty_nil, if_true, State.setGroup_cur, hcur]
  have hreg : ∀ a : Access, a.parts = ((lanesIn s.me.run.act).filter on).flatMap ps → ∀ u : State, (u.addAccess a).resolveAll true u.fresh = u.addAccess a := by
    intro a ha u
    refine State.resolveAll_plain _ _ _ (fun b hb p hp => ?_)
    have he : a.parts.isEmpty = false := by rw [ha]; simpa [List.isEmpty_iff] using hp0
    simp only [State.addAccess, he, Bool.false_eq_true, if_false, FMap.look_put_self, Option.some.injEq] at hb
    rw [← hb, ha] at hp
    obtain ⟨l, hl, hp⟩ := List.mem_flatMap.1 hp
    rw [List.mem_filter] at hl
    exact (hps l ((mem_lanesIn _ _).1 hl.1) hl.2).2 p hp
  rw [hreg _ rfl]
  refine Issued.intro s s1 _ _ _ _ (s.accessHere m.kind m.order m.scope m.reuse m.words m.dest m.nregs m.width m.sext
    (((lanesIn s.me.run.act).filter on).flatMap ps)) _ hT hact hp0 (fun l n => ?_)
  simp only [hzero, Bool.false_eq_true, if_false]
  try rfl

theorem State.passFences_none (s : State) (k : Nat) (kind : AccKind) (m : LaneSet) (h : (s.group k).fences = []) : s.passFences k kind m = s := by
  unfold State.passFences
  simp only [h, List.filter_nil, List.isEmpty_nil, if_true]

theorem State.fenced_none (s : State) (k : Nat) (kind : AccKind) (m : LaneSet) (h : (s.group k).fences = []) : s.fenced k kind m = false := by
  unfold State.fenced; rw [h]; rfl

theorem pieces_eq (m : MemWord) (ea : Nat) : pieces m ea = lanePieces m.packed m.bytes ea := by
  unfold pieces lanePieces
  cases m.packed <;> simp

theorem State.translate_base (s : State) (cl part va : Nat) : s.translate cl part (va / 2 ^ 16 * 2 ^ 16) = s.translate cl part va :=
  s.translate_page cl part _ _ (by omega)

/-- An address that leads somewhere is no error of the tables (R224). -/
theorem State.target_noError (s : State) (cl part va : Nat) (use : Access1) (sp : Space) (pa : Nat) (h : s.target cl part use va = .ok sp pa) :
    s.tableError cl part (va / 2 ^ 16 * 2 ^ 16) = false := by
  unfold State.tableError
  rw [s.translate_base]
  unfold State.target at h
  cases ht : s.translate cl part va with
  | leaf e lv => exact Bool.and_false _
  | bad c l b =>
    rw [ht] at h
    split_ifs at h

/-- A memory word outside the scratchpad that nothing holds back (R143, R149, R163). -/
theorem State.memBody_free (s : State) (m : MemWord) (on : Nat → Bool) (ea : Nat → Nat) (data : Nat → List (BitVec 8)) (loc : Nat → Nat → Space × Nat)
    (hs : m.scratch = false) (hf : s.memFree) (hne : ∃ l, inSet s.me.run.act l = true ∧ on l = true)
    (hreq : m.reqs = ((lanesIn s.me.run.act).filter on).map (fun l => { lane := l, ea := ea l, data := data l }))
    (hal : ∀ l, inSet s.me.run.act l = true → on l = true → ea l % m.align = 0)
    (hmap : s.mapped (decide (m.kind ≠ .load)) m.kind.isAtomic m.packed m.bytes
      (fun l => inSet s.me.run.act l && on l) ea loc)
    (hlog : m.kind.isAtomic = true → s.logStalls s.myTeam.grid = false) :
    Issued m.words (fun l => inSet s.me.run.act l && on l) (match m.dest with | some d => (List.range m.nregs).map (d + ·) | none => [])
      (s.accessHere m.kind m.order m.scope m.reuse m.words m.dest m.nregs m.width m.sext (s.partsOf m.packed m.bytes on ea loc data)) s (s.memBody m) := by
  have hact := hf.1
  have hfen : (s.group s.cur).fences = [] := hf.2.1
  have hroll : (s.team s.me.team).rollback = none := hf.2.2.1
  have hlane := hf.2.2.2.2
  have hmem : ∀ q ∈ m.reqs, inSet s.me.run.act q.lane = true ∧ on q.lane = true ∧ q = { lane := q.lane, ea := ea q.lane, data := data q.lane } := by
    intro q hq
    rw [hreq] at hq
    obtain ⟨l, hl, rfl⟩ := List.mem_map.1 hq
    exact ⟨(mem_lanesIn _ _).1 (List.mem_filter.1 hl).1, (List.mem_filter.1 hl).2, rfl⟩
  have hodd : m.reqs.filter (fun q => q.ea % m.align != 0) = [] := by
    rw [List.filter_eq_nil_iff]; intro q hq
    have h := hmem q hq
    rw [h.2.2]; simp [hal _ h.1 h.2.1]
  have hbody : s.memBody m = s.startAccess m := by
    unfold State.memBody
    dsimp only
    have ha : s.absentLines s.me m = [] := by unfold State.absentLines; rw [hs]; rfl
    rw [State.fenced_none _ _ _ _ hfen, ha, hodd, hs, hroll, State.passFences_none _ _ _ _ hfen]
    simp only [List.isEmpty_nil, Bool.not_true, Bool.false_eq_true, if_false, Option.isSome_none, Bool.false_and]
    refine if_neg (fun h => ?_)
    rw [Bool.and_eq_true] at h
    rw [show s.logStalls (s.team s.me.team).grid = s.logStalls s.myTeam.grid from rfl, hlog h.1] at h
    exact absurd h.2 (by simp)
  rw [hbody]
  have hpiece : ∀ l, inSet s.me.run.act l = true → on l = true → ∀ p ∈ lanePieces m.packed m.bytes (ea l), ∀ b : Bool,
      s.pieceOf m s.me { lane := l, ea := ea l, data := data l } b p.1 p.2 = .parts [s.partAt l (ea l) p (loc l p.1) (data l)] := by
    intro l hl ho p hp b
    obtain ⟨h1, h2⟩ := hmap l (by simp [hl, ho]) p hp
    have hr := (hlane l hl).1
    unfold State.pieceOf
    dsimp only
    have hu : (if m.kind = .load then Access1.read else Access1.write) = (if decide (m.kind ≠ .load) = true then Access1.write else Access1.read) := by
      by_cases hk : m.kind = .load <;> simp [hk]
    rw [hu, h1, hr]
    dsimp only
    unfold State.partAt
    by_cases hh : (loc l p.1).1 = .host
    · obtain ⟨ha, hpk, he⟩ := h2 hh
      rw [ha, hpk, hh]
      by_cases hk : m.kind = .load
      · have hw := he (by simp [hk])
        have hany : (wordsIn (loc l p.1).2 p.2).any (fun w => FMap.has s.hostErr w) = false := by
          rw [List.any_eq_false]; intro w hw'; rw [hw w hw']; simp
        simp [hk, hany]
      · simp [hk]
    · simp [hh]
  refine State.startAccess_free s m on ea data (fun l => (lanePieces m.packed m.bytes (ea l)).map (fun p =>
    s.partAt l (ea l) p (loc l p.1) (data l))) hf hne hreq
    (fun l hl ho => ?_) (fun l hl ho => ⟨?_, fun p hp => ?_⟩) (fun _ l hl ho p hp => ?_)
  · have h := hpiece l hl ho
    unfold State.laneRes
    rw [hs]
    simp only [Bool.false_eq_true, if_false, pieces_eq]
    unfold lanePieces at h ⊢
    split_ifs at h ⊢ with hc
    · simp only [h _ (List.mem_cons_self) false, h _ (List.mem_cons_of_mem _ List.mem_cons_self) true, List.map_cons, List.map_nil, List.cons_append,
        List.nil_append]
    · simp only [h (0, m.bytes) (List.mem_cons_self) false, List.map_cons, List.map_nil]
  · unfold lanePieces; split_ifs <;> simp
  · obtain ⟨q, -, rfl⟩ := List.mem_map.1 hp; rfl
  · rw [pieces_eq] at hp
    obtain ⟨h1, -⟩ := hmap l (by simp [hl, ho]) p hp
    exact State.target_noError _ _ _ _ _ _ _ h1

/-- A scratchpad word that nothing holds back (R143, R151, R163). -/
theorem State.memBody_scratch (s : State) (m : MemWord) (ea : Nat → Nat) (data : Nat → List (BitVec 8))
    (hs : m.scratch = true) (hf : s.memFree)
    (hreq : m.reqs = (lanesIn s.me.run.act).map (fun l => { lane := l, ea := ea l, data := data l }))
    (hal : ∀ l, inSet s.me.run.act l = true → ea l % m.align = 0) (hin : s.inScratch m.bytes ea)
    (hlog : m.kind.isAtomic = true → s.logStalls s.myTeam.grid = false) :
    Issued m.words (fun l => inSet s.me.run.act l) (match m.dest with | some d => (List.range m.nregs).map (d + ·) | none => [])
      (s.accessHere m.kind m.order m.scope m.reuse m.words m.dest m.nregs m.width m.sext (s.scratchParts m.bytes ea data)) s (s.memBody m) := by
  have hact := hf.1
  have hfen : (s.group s.cur).fences = [] := hf.2.1
  have hroll : (s.team s.me.team).rollback = none := hf.2.2.1
  have hlane := hf.2.2.2.2
  have hmem : ∀ q ∈ m.reqs, inSet s.me.run.act q.lane = true ∧ q = { lane := q.lane, ea := ea q.lane, data := data q.lane } := by
    intro q hq
    rw [hreq] at hq
    obtain ⟨l, hl, rfl⟩ := List.mem_map.1 hq
    exact ⟨(mem_lanesIn _ _).1 hl, rfl⟩
  have hodd : m.reqs.filter (fun q => q.ea % m.align != 0) = [] := by
    rw [List.filter_eq_nil_iff]; intro q hq
    have h := hmem q hq
    rw [h.2]; simp [hal _ h.1]
  have hbey : m.reqs.filter (fun q => decide ((s.team s.me.team).scrSize ≤ q.ea)) = [] := by
    rw [List.filter_eq_nil_iff]; intro q hq
    have h := hmem q hq
    rw [h.2]; have h1 : ea q.lane < (s.team s.me.team).scrSize := (hin _ h.1).1
    simpa using h1
  have hreg : m.reqs.filter (fun q => (s.me.lane q.lane).region.isSome) = [] := by
    rw [List.filter_eq_nil_iff]; intro q hq
    have h := hmem q hq
    simp [(hlane _ h.1).1]
  have habs : s.absentLines s.me m = [] := by
    unfold State.absentLines
    rw [hs]
    simp only [if_true]
    rw [List.filter_eq_nil_iff]
    intro ln hl
    rw [List.mem_dedup] at hl
    obtain ⟨q, hq, hl⟩ := List.mem_flatMap.1 hl
    have h := hmem q (List.mem_filter.1 hq).1
    rw [h.2] at hl
    simpa using (hin _ h.1).2 ln hl
  have hbody : s.memBody m = s.startAccess m := by
    unfold State.memBody
    dsimp only
    have hsp : (m.kind.isAtomic && s.logStalls (s.team s.me.team).grid) = false := by
      rcases hk : m.kind.isAtomic with _ | _
      · rfl
      · exact (Bool.true_and _).trans (hlog hk)
    rw [State.fenced_none _ _ _ _ hfen, habs, hodd, hs, hbey, hreg, hroll, hsp, State.passFences_none _ _ _ _ hfen]
    simp
  rw [hbody]
  have hfil : (lanesIn s.me.run.act).filter (fun _ => true) = lanesIn s.me.run.act := by simp
  have h := State.startAccess_free s m (fun _ => true) ea data (fun l => [{ lane := l, space := .scratch, addr := s.myTeam.scrBase + ea l, len := m.bytes, va := ea l, data := data l }]) hf (by obtain ⟨l, hl⟩ := lanesIn_ne hact; exact ⟨l, hl, rfl⟩) (by rw [hfil]; exact hreq)
    (fun l hl ho => ?_) (fun l hl ho => ⟨by simp, fun p hp => ?_⟩) (fun h => ?_)
  · rw [hfil] at h
    simp only [Bool.and_true] at h
    rw [show (lanesIn s.me.run.act).flatMap (fun l => [({ lane := l, space := .scratch, addr := s.myTeam.scrBase + ea l, len := m.bytes, va := ea l, data := data l } : Part)]) = s.scratchParts m.bytes ea data from ?_] at h
    · exact h
    · unfold State.scratchParts; exact List.map_eq_flatMap.symm
  · unfold State.laneRes; rw [hs]; rfl
  · rw [List.mem_singleton.1 hp]
  · rw [hs] at h; cases h

/-- The gate of a memory word whose address and data are full. -/
theorem State.gate_addr {s : State} {a : BitVec 7} {rs ds : List Nat} (h : s.ready ([a.toNat, a.toNat + 1] ++ rs) ds) :
   s.me.gateOn (addrSrcs s.me.run.act a.toNat ++ rs.map (fun r => (s.me.run.act, r, false))) (ds.map (fun r => (s.me.run.act, r))) = .go := by
  refine Group.gateOn_ready (fun p hp => ?_) (fun p hp => ?_)
  · have : p.1 = s.me.run.act ∧ p.2.1 ∈ [a.toNat, a.toNat + 1] ++ rs := by
      simp only [addrSrcs, List.mem_append, List.mem_cons, List.not_mem_nil, or_false, List.mem_map] at hp ⊢
      rcases hp with (rfl | rfl) | ⟨r, hr, rfl⟩ <;> simp_all
    rw [this.1]; exact h.1 _ this.2
  · obtain ⟨r, hr, rfl⟩ := List.mem_map.1 hp
    exact h.2 r hr

/-- A vector load that nothing holds back (R143, R149). -/
theorem State.loadWord_free {s : State} {d a : BitVec 7} {loc} (hf : s.memFree) (n : Nat) (o : BitVec 32) (order : BitVec 2) (scope reuse : BitVec 3) (bytes align nregs width : Nat) (sext packed : Bool)
   (hr : s.ready [a.toNat, a.toNat + 1] (regRun d.toNat nregs)) 
   (ha : ∀ l, inSet s.me.run.act l = true → (s.me.src64 l a.toNat + o.signExtend 64).toNat % align = 0)
   (hm : s.mapped false false packed bytes (inSet s.me.run.act) (fun l => (s.me.src64 l a.toNat + o.signExtend 64).toNat) loc) :
   Gives (s.loadWord d a o n order scope reuse { kind := .load, scratch := false, bytes := bytes, align := align, nregs := nregs, width := width, sext := sext, packed := packed, reqs := [] })
    (Issued n (inSet s.me.run.act) ((List.range nregs).map (d.toNat + ·)) (s.accessHere .load order.toNat scope.toNat reuse.toNat n (some d.toNat) nregs width sext 
      (s.partsOf packed bytes (fun _ => true) (fun l => (s.me.src64 l a.toNat + o.signExtend 64).toNat) loc (fun _ => []))) s) := by
  have hg := State.gate_addr (rs := []) (by simpa using hr)
  simp only [List.map_nil, List.append_nil] at hg
  refine ⟨_, rfl, ?_⟩
  dsimp only
  rw [hg]
  have ea : ∀ l, eaOf (s.me.addrOf l a.toNat) o = (s.me.src64 l a.toNat + o.signExtend 64).toNat := by
    intro l; unfold eaOf Group.addrOf; simp
  simp only [ea]
  have h := State.memBody_free s { kind := .load, scratch := false, bytes := bytes, align := align, nregs := nregs, width := width, sext := sext, packed := packed, dest := some d.toNat, order := order.toNat, scope := scope.toNat, reuse := reuse.toNat, words := n, reqs := (lanesIn s.me.run.act).map (fun l => { lane := l, ea := (s.me.src64 l a.toNat + o.signExtend 64).toNat}) }
    (fun _ => true) (fun l => (s.me.src64 l a.toNat + o.signExtend 64).toNat) (fun _ => []) loc rfl hf (by obtain ⟨l, hl⟩ := lanesIn_ne hf.1; exact ⟨l, hl, rfl⟩)
    (by dsimp only; rw [show (lanesIn s.me.run.act).filter (fun _ => true) = lanesIn s.me.run.act by simp]) (fun l hl _ => ha l hl) (by simpa [AccKind.isAtomic] using hm) (by intro h; cases h)
  simpa using h

end Sys2Proof.Machine
end

