-- ==== Sys2Proof/Laws/Policy.lean ====
section
/-! SUPPORT. What the operations around a word's issue can do: the interlock of R106 and what a word leaves for it. -/
namespace Sys2Proof.Machine

theorem le_foldl_max (f : Nat → Nat) (l : List Nat) (m : Nat) : m ≤ l.foldl (fun m k => max m (f k)) m := by
  induction l generalizing m with
  | nil => exact le_rfl
  | cons a l ih => exact (le_max_left _ _).trans (ih _)

theorem mem_le_foldl_max (f : Nat → Nat) (l : List Nat) (m : Nat) {k : Nat} (h : k ∈ l) : f k ≤ l.foldl (fun m k => max m (f k)) m := by
  induction l generalizing m with
  | nil => cases h
  | cons a l ih =>
    rcases List.mem_cons.mp h with rfl | h
    · exact (le_max_right _ _).trans (le_foldl_max f l _)
    · exact ih _ h

theorem foldl_max_le (f : Nat → Nat) (l : List Nat) {m n : Nat} (hm : m ≤ n) (h : ∀ k ∈ l, f k ≤ n) : l.foldl (fun m k => max m (f k)) m ≤ n := by
  induction l generalizing m with
  | nil => exact hm
  | cons a l ih => exact ih (max_le hm (h a (by simp))) (fun k hk => h k (by simp [hk]))

theorem FMap.at_putAll (d : Nat) (ks : List Nat) (m : FMap Nat) (v k : Nat) :
    FMap.at d (ks.foldl (fun m k => FMap.put m k v) m) k = if k ∈ ks then v else FMap.at d m k := by
  induction ks generalizing m with
  | nil => simp
  | cons a ks ih => rw [List.foldl_cons, ih, FMap.at_put]; by_cases h1 : k ∈ ks <;> by_cases h2 : k = a <;> simp [h1, h2]

@[simp] theorem Slice.stall_cycle (c : Slice) (r n : Nat) : (c.stall r n).cycle = c.cycle := rfl

@[simp] theorem Slice.wait_cycle (c : Slice) (m : Nat) : (c.wait m).cycle = c.cycle + m := rfl

@[simp] theorem Slice.alarmed_cycle (c : Slice) : c.alarmed.cycle = c.cycle := by unfold Slice.alarmed; split <;> rfl

theorem Slice.cycle_le_passQuiet (c : Slice) (e : Nat) : c.cycle ≤ (c.passQuiet e).cycle := Nat.le_add_right _ _

/-- Time that passes never takes a cycle back. -/
theorem Slice.cycle_le_passOver (ks : List Nat) (c : Slice) (e : Nat) : c.cycle ≤ (c.passOver ks e).cycle := by
  induction ks generalizing c e with
  | nil => exact c.cycle_le_passQuiet e
  | cons k ks ih =>
    simp only [Slice.passOver]; split
    · exact c.cycle_le_passQuiet e
    · exact le_trans (by simp) (ih _ _)

theorem Slice.cycle_le_catchUp (c : Slice) (t : Nat) : c.cycle ≤ (c.catchUp t).cycle := c.cycle_le_passOver _ _

/-- A wait counts every cycle (R370). -/
theorem Slice.idleOver_cycle (ks : List Nat) (c : Slice) (n : Nat) : (c.idleOver ks n).1.cycle = c.cycle + n := by
  induction ks generalizing c n with
  | nil => rfl
  | cons k ks ih =>
    simp only [Slice.idleOver]; split
    · rfl
    · rw [ih]; simp; omega

/-- The slice after a pause counts at least the cycles of the pause (R366). -/
theorem State.pause_cycle (s : State) (cl sl n r : Nat) :
    (((s.cluster cl).slice sl).catchUp s.time).cycle + n ≤ (((s.pause cl sl n r).cluster cl).slice sl).cycleAt (s.pause cl sl n r).time := by
  have h : (((s.pause cl sl n r).cluster cl).slice sl).cycle = (((s.cluster cl).slice sl).catchUp s.time).cycle + n := by
    simp [State.pause, State.cluster, State.onCluster, State.setCluster, Cluster.slice, Cluster.onSlice, Slice.idleOver_cycle]
  rw [← h]; exact Slice.cycle_le_catchUp _ _

theorem State.pause_same (s : State) (cl sl n r : Nat) : { s.pause cl sl n r with time := s.time, clusters := s.clusters } = s := rfl

theorem State.pause_clusters (s : State) (cl sl n r c : Nat) :
    { (s.pause cl sl n r).cluster c with slices := (s.cluster c).slices } = s.cluster c := by
  by_cases h : c = cl
  · subst h; simp [State.pause, State.cluster, State.onCluster, State.setCluster, Cluster.onSlice]
  · simp [State.pause, State.cluster, State.onCluster, State.setCluster, FMap.at_put_ne _ _ _ h]

/-- What the interlock can do: it changes the time and the slices alone, nothing where every register the word reads may be read, and after it each of
them may (R106). -/
theorem State.interlock_spec (s : State) :
    let r := s.me.run
    let ks := readKeys (r.words.getD r.idx 0) (r.words.getD (r.idx + 1) 0)
    { s.interlock with time := s.time, clusters := s.clusters } = s ∧
    (∀ c, { s.interlock.cluster c with slices := (s.cluster c).slices } = s.cluster c) ∧
    ((∀ k ∈ ks, FMap.at 0 r.ready k ≤ ((s.sliceOf s.me).catchUp s.time).cycle) → s.interlock = s) ∧
    (∀ k ∈ ks, FMap.at 0 r.ready k ≤ (s.interlock.sliceOf s.me).cycleAt s.interlock.time) := by
  intro r ks
  unfold State.interlock
  dsimp only
  split
  · next h =>
    refine ⟨rfl, State.pause_clusters _ _ _ _ _, fun hk => ?_, fun k hk => ?_⟩
    · exact absurd h (Nat.not_lt.mpr (foldl_max_le _ _ (Nat.zero_le _) hk))
    · refine le_trans ?_ (State.pause_cycle s _ _ _ _)
      have := mem_le_foldl_max (FMap.at 0 r.ready) ks 0 hk
      change _ ≤ ((s.sliceOf s.me).catchUp s.time).cycle + (ks.foldl (fun m k => max m (FMap.at 0 r.ready k)) 0 - ((s.sliceOf s.me).catchUp s.time).cycle)
      omega
  · next h =>
    refine ⟨rfl, fun _ => rfl, fun _ => rfl, fun k hk => ?_⟩
    exact (mem_le_foldl_max (FMap.at 0 r.ready) ks 0 hk).trans (Nat.not_lt.mp h)

/-- What noting a word's results can do: it writes `Run.ready` of the issuing group alone; each register that the word has written may be read four cycles
after its last pass (R106, R131). -/
theorem State.noteWritten_spec (s : State) (w x : Word) :
    { s.noteWritten w x with groups := s.groups } = s ∧ (∀ k, k ≠ s.cur → (s.noteWritten w x).group k = s.group k) ∧
    { (s.noteWritten w x).me with run := { (s.noteWritten w x).me.run with ready := s.me.run.ready } } = s.me ∧
    (shortKeys w x = [] → s.noteWritten w x = s) ∧
    (s.me.run.active = true → s.me.run.stopped = false → s.me.run.quit = false → ∀ k, FMap.at 0 (s.noteWritten w x).me.run.ready k =
      if k ∈ shortKeys w x then (s.sliceOf s.me).cycleAt s.time + 3 else FMap.at 0 s.me.run.ready k) := by
  unfold State.noteWritten
  dsimp only
  split
  · next h =>
    refine ⟨rfl, fun _ _ => rfl, rfl, fun _ => rfl, fun h1 h2 h3 k => ?_⟩
    simp only [h1, h2, h3, Bool.not_true, Bool.false_or, List.isEmpty_iff] at h
    simp [h]
  · next h =>
    refine ⟨rfl, fun k hk => ?_, ?_, fun h0 => ?_, fun _ _ _ k => ?_⟩
    · simp [State.onMe, State.onGroup, State.setGroup, State.group, FMap.at_put_ne _ _ _ hk]
    · simp [State.me, State.onMe, State.onGroup, State.setGroup, State.group]
    · simp [h0] at h
    · rw [← FMap.at_putAll]
      simp [State.me, State.onMe, State.onGroup, State.setGroup, State.group]

end Sys2Proof.Machine
end

