-- ==== Sys2Proof/Tests/Slice0.lean ====
section
/-! SUPPORT. Tests: words decoded bit by bit, ill-formed instructions refused, one step of each family on small states, and, for every statement with
hypotheses, a state and operands that meet them. Expected values are worked out from the spec's tables and worked examples. -/
namespace Sys2Proof.Tests
open Sys2Proof.Machine
set_option Elab.async false

/-! ### Small states -/

/-- A launch record of one team of 64 lanes. -/
def rec0 : LaunchRec := { words := 100, teamX := 64 }
/-- A run in a latched clause of one word at address 0. -/
def run0 : Run :=
  { active := true, first := false, head := placeHeader 1, words := [0], act := BitVec.allOnes 64, passDiv := 1, ratio := 8 }
/-- A group of 64 live lanes, all registers full. -/
def g0 : Group := { launchGroup 2 0 0 0 0 64 rec0 with run := run0, ran := true }
/-- Virtual page 0 of partition 0 at physical 0x10000. -/
def mem0 : Mem := placeTable.foldl (fun m e => Mem.writeBytes m e.1 (leBytes 8 e.2)) []
/-- One team of one group on cluster 0, about to issue a word; virtual page 0 is mapped. -/
def s0 : State :=
  { State.reset with
    mem := mem0, parts := [(0, { root := 0x1000 })], clusters := [(0, { enabled := true })]
    grids := [(1, { record := rec0, next := 1, live := [2] })]
    teams := [(2, { grid := 1, groups := [3], lanes := 64, place := .resident 0 })], groups := [(3, g0)], cur := 3, fresh := 4 }
/-- The same with its group changed. -/
def withG (f : Group → Group) : State := s0.onMe f
/-- The same with its run changed. -/
def withRun (f : Run → Run) : State := withG (fun g => { g with run := f g.run })
/-- The same with every lane changed. -/
def withLanes (f : Nat → Lane → Lane) : State := withG (fun g => g.mapLanes (BitVec.allOnes 64) f)
/-- The same with its team changed. -/
def withT (f : Team → Team) : State := s0.onTeam 2 f
/-- The same with its grid changed. -/
def withGrid (f : Grid → Grid) : State := s0.onGrid 1 f

/-- Every register of the issuing group is full. -/
def Full (s : State) : Prop := (∀ l, l < 64 → (s.me.lane l).empty = 0) ∧ s.me.sEmpty = 0

theorem full_ready {s : State} (h : Full s) (srcs dsts : List Nat) (hl : 72 ∉ srcs) : s.ready srcs dsts := by
  have e : ∀ m o, s.me.full m o := fun m o => ⟨fun _ l hm => by
    have := h.1 l (inSet_lt hm)
    simp [Lane.isEmpty, this], fun _ _ => by simp [Group.sIsEmpty, h.2]⟩
  exact ⟨fun o ho => ⟨e _ o, fun x => absurd (x ▸ ho) hl⟩, fun d _ => e _ d⟩

theorem full_ready_lr {s : State} (h : Full s) (hv : ∀ l, l < 64 → (s.me.lane l).lrValid = true) (srcs dsts : List Nat) : s.ready srcs dsts := by
  have e : ∀ m o, s.me.full m o := fun m o => ⟨fun _ l hm => by
    have := h.1 l (inSet_lt hm)
    simp [Lane.isEmpty, this], fun _ _ => by simp [Group.sIsEmpty, h.2]⟩
  exact ⟨fun o _ => ⟨e _ o, fun _ l hl => hv l (inSet_lt hl)⟩, fun d _ => e _ d⟩

theorem full_s0 : Full s0 := by unfold Full; decide +kernel

/-- A change of the issuing group that leaves the full/empty bits leaves it full. -/
theorem full_onMe {s : State} (h : Full s) (f : Group → Group) (hl : ∀ g l, l < 64 → ((f g).lane l).empty = (g.lane l).empty)
    (hs : ∀ g, (f g).sEmpty = g.sEmpty) : Full (s.onMe f) :=
  ⟨fun l k => by rw [State.me_onMe, hl _ _ k]; exact h.1 l k, by rw [State.me_onMe, hs]; exact h.2⟩

/-- What holds of every lane below 64 holds of the lanes of a set. -/
theorem in_set {m : LaneSet} {P : Nat → Prop} (h : ∀ l, l < 64 → P l) (l : Nat) (hl : inSet m l = true) : P l := h l (inSet_lt hl)

theorem s0_ready (srcs dsts : List Nat) (hl : 72 ∉ srcs) : s0.ready srcs dsts := full_ready full_s0 srcs dsts hl

/-! ### Words decoded bit by bit (R24, R32 to R38; the opcodes of R68 to R74) -/

theorem test_decode_vr : decodeTableWord 32 0x0D840308 = some (.vfma 4 1 66 false false) := by decide +kernel
theorem test_decode_vr_lr : decodeTableWord 32 0x004391C4 = some (.viadd 67 72 0x71 false false) := by decide +kernel
theorem test_decode_vr_unary : decodeTableWord 32 (0x28 * 2 ^ 23 + 5 * 2 ^ 16 + 6 * 2 ^ 9 + 0x70 * 2 ^ 2) = some (.vmov 5 6 false false) := by decide +kernel
theorem test_decode_vi : decodeTableWord 32 0x2006FFFE = some (.viaddi 3 false 0xFFFE) := by decide +kernel
theorem test_decode_vi_const : decodeTableWord 32 0x2C0A3FC0 = some (.vmovfi 5 0x3FC0) := by decide +kernel
theorem test_decode_vp : decodeTableWord 32 0x46083078 = some (.vfcmpLt 2 6 7 2 false false) := by decide +kernel
theorem test_decode_vp_logic : decodeTableWord 32 (2 * 2 ^ 29 + 0x17 * 2 ^ 23 + 23 * 2 ^ 18 + 3 * 2 ^ 2) = some (.pset 23 3) := by decide +kernel
theorem test_decode_m : decodeTableWord 64 (0x62070899 + 0x10 * 2 ^ 32) = some (.ldWExt 7 4 2 1 4 16) := by decide +kernel
theorem test_decode_m_atomic :
    decodeTableWord 32 (3 * 2 ^ 29 + 0x16 * 2 ^ 23 + 72 * 2 ^ 16 + 4 * 2 ^ 9 + 3 * 2 ^ 4 + 5 * 2) = none ∧
    decodeTableWord 32 (3 * 2 ^ 29 + 0x16 * 2 ^ 23 + 9 * 2 ^ 16 + 4 * 2 ^ 9 + 3 * 2 ^ 4 + 5 * 2) = some (.atomAdd 9 4 0 3 5) := by decide +kernel
theorem test_decode_s_register : decodeTableWord 32 (4 * 2 ^ 29 + 0x01 * 2 ^ 23 + 31 * 2 ^ 18 + 4 * 2 ^ 13 + 5 * 2 ^ 8) = some (.ssub 31 4 5) := by decide +kernel
theorem test_decode_s_branch : decodeTableWord 32 (4 * 2 ^ 29 + 0x24 * 2 ^ 23 + 2 * 2 ^ 18 + 2 ^ 17 + 0x10000) = some (.call 2 true 0x10000) := by decide +kernel
theorem test_decode_s_jump : decodeTableWord 32 (4 * 2 ^ 29 + 0x25 * 2 ^ 23 + 71 * 2 ^ 16 + 2 ^ 15) = some (.ret 71 true) := by decide +kernel
theorem test_decode_s_special : decodeTableWord 32 (4 * 2 ^ 29 + 0x1C * 2 ^ 23 + 7 * 2 ^ 18 + 0x1F * 2 ^ 12) = some (.movsr 7 0x1F) := by decide +kernel
theorem test_decode_e : decodeTableWord 32 (5 * 2 ^ 29 + 0x02 * 2 ^ 23 + 4 * 2 ^ 18 + 2 * 2 ^ 15 + 2 ^ 7 + 9) = some (.accrd 4 2 true 9) := by decide +kernel
theorem test_decode_e_recovery : decodeTableWord 32 (5 * 2 ^ 29 + 0x1C * 2 ^ 23 + 0x7FFF) = some (.elseerr 0x7FFF) := by decide +kernel
theorem test_decode_x : decodeTableWord 64 (6 * 2 ^ 29 + 0x09 * 2 ^ 23 + 5 * 2 ^ 16 + 6 * 2 ^ 9 + (84 * 2 ^ 25 + 3 * 2 ^ 20 + 0xFF) * 2 ^ 32) =
    some (.vshuf 5 6 84 false 3 0xFF) := by decide +kernel
theorem test_decode_x_scalar : decodeTableWord 64 (6 * 2 ^ 29 + 0x1D * 2 ^ 23 + 81 * 2 ^ 16 + 9 * 2 ^ 9 + 0x70 * 2 ^ 2 + (31 * 2 ^ 20 + 63) * 2 ^ 32) =
    some (.lreadScalar 81 9 false 63) := by decide +kernel
theorem test_decode_header : decodeTableWord 32 0xE4302080 = none := by decide +kernel
theorem test_decode_reserved_opcode : decodeTableWord 32 (0x3F * 2 ^ 23) = none ∧ decodeTableWord 32 (5 * 2 ^ 29 + 0x18 * 2 ^ 23) = none := by decide +kernel
theorem test_decode_unused_field : decodeTableWord 32 (4 * 2 ^ 29 + 0x2A * 2 ^ 23 + 1) = none ∧ decodeTableWord 32 (4 * 2 ^ 29 + 0x2A * 2 ^ 23) = some .nop := by
  decide +kernel

/-! ### Ill-formed instructions, one for each check of R43 and the chapters -/

theorem test_ill_formed_operands : ([
    .viadd 1 73 2 false false, .viadd 79 1 2 false false, .viadd 80 1 2 false false, .viadd 112 1 2 false false,
    .vcmpEq 24 1 2 0 false false, .pand 31 1 2 0, .pand 1 24 2 0, .elect 24, .tstamp 1, .sldW 0 1 0, .mma 3 0,
    .ret 72 false, .ldW 1 3 0 0 0, .ldW 1 72 0 0 0, .ldD 3 4 0 0 0, .ldQ 62 4 0 0 0] : List Instr).all (fun i => !wellFormedB i) = true := by decide +kernel
theorem test_ill_formed_fields : ([
    .stW 1 4 0 1 1, .ldW 1 4 0 2 1, .ldW 1 4 0 0 2, .ldW 1 4 0 1 6, .loopi 3 1 1, .loopi 0 1 0, .movsr 1 0x3F, .movsw 1 0x00,
    .vfma3 1 2 3 4 false false 31 false 6 0 0, .vfma3 1 2 3 4 false false 31 false 0 3 0, .vfma3 1 2 3 4 false false 24 false 0 0 0,
    .vidiv 1 2 3 false false 31 false 0 0, .vdeq 1 2 3 4 false false 31 false 0 3 0 0 false, .vdeq 1 2 0 4 false false 31 false 0 5 0 0 false,
    .vperm 1 2 3 4 false false 3, .vperm 1 2 3 81 false false 3, .vlogred 1 2 80 false 3 0 11, .vbcast 1 2 80 false 3 64, .vvote 1 2 80 3 0,
    .vcvt 1 2 false 31 false 0 8 0 0 0, .vcvt 1 2 false 31 false 0 0 1 1 0, .vpcrd 81 3 0, .lwrite 1 2 false 64] : List Instr).all
      (fun i => !wellFormedB i) = true := by decide +kernel

/-! ### Hypotheses met: vector words -/

theorem witness_VectorIntegerWords :
    s0.ready [(1 : BitVec 7).toNat, (72 : BitVec 7).toNat - 1] (destRegs 71) ∧ s0.ready [(1 : BitVec 7).toNat] (destRegs 72) ∧
    s0.ready [(1 : BitVec 7).toNat, (127 : BitVec 7).toNat, (0 : BitVec 7).toNat] (destRegs 0) :=
  ⟨s0_ready _ _ (by decide), s0_ready _ _ (by decide), s0_ready _ _ (by decide)⟩

/-- R17: lr as a source, valid. -/
theorem witness_lr_source : (withLanes (fun _ n => { n with lr := 5, lrValid := true })).ready [72] (destRegs 67) :=
  full_ready_lr (by unfold Full; decide +kernel) (by decide +kernel) _ _

theorem witness_VectorFloatAndPackedWords :
    s0.ready [(1 : BitVec 7).toNat, (2 : BitVec 7).toNat] (destRegs 3) ∧ s0.ready [(80 : BitVec 7).toNat] (destRegs 63) ∧
    s0.ready [(1 : BitVec 7).toNat, (111 : BitVec 7).toNat, (71 : BitVec 7).toNat] (destRegs 71) :=
  ⟨s0_ready _ _ (by decide), s0_ready _ _ (by decide), s0_ready _ _ (by decide)⟩

theorem witness_VectorImmediateWords : s0.ready [(71 : BitVec 7).toNat] (destRegs 71) ∧ s0.ready [] (destRegs 72) :=
  ⟨s0_ready _ _ (by decide), s0_ready _ _ (by decide)⟩

theorem witness_VectorCompareWords : (23 : BitVec 5).toNat < 24 ∧ s0.ready [(0 : BitVec 7).toNat, (112 : BitVec 7).toNat] [] :=
  ⟨by decide, s0_ready _ _ (by decide)⟩

theorem witness_PredicateLogicWords : (0 : BitVec 5).toNat < 24 ∧ (23 : BitVec 5).toNat < 24 := by decide

theorem witness_ExtendedVectorWords :
    s0.ready [(1 : BitVec 7).toNat, (2 : BitVec 7).toNat, (3 : BitVec 7).toNat] (destRegs 4) ∧ s0.ready [(1 : BitVec 7).toNat, (80 : BitVec 7).toNat] (destRegs 71) :=
  ⟨s0_ready _ _ (by decide), s0_ready _ _ (by decide)⟩

theorem witness_ConversionWords :
    s0.ready ((1 : BitVec 7).toNat :: if typeWidth (1 : BitVec 4).toNat = 32 then [] else [(3 : BitVec 7).toNat]) (destRegs 3) ∧
    s0.ready ((1 : BitVec 7).toNat :: (2 : BitVec 7).toNat :: if typeWidth (3 : BitVec 4).toNat = 16 then [] else [(3 : BitVec 7).toNat]) (destRegs 3) :=
  ⟨s0_ready _ _ (by decide), s0_ready _ _ (by decide)⟩

theorem witness_UnpackDequantiseAndDropMask :
    (70 : BitVec 7).toNat + 1 < 72 ∧ s0.ready [(1 : BitVec 7).toNat] [(70 : BitVec 7).toNat, (70 : BitVec 7).toNat + 1] ∧
    (∀ p ∈ s0.me.deqSrcs (BitVec.toNat 1#7) (BitVec.toNat 2#7) (BitVec.toNat 4#7) (BitVec.toNat 15#4) false false false,
      s0.me.full p.1 p.2.1 ∧ (p.2.1 = 72 → ∀ l, inSet p.1 l = true → (s0.me.lane l).lrValid = true)) ∧
    (∀ r ∈ destRegs 10, s0.me.full s0.me.run.act r) ∧
    (23 : BitVec 5).toNat < 24 ∧ s0.ready [(1 : BitVec 7).toNat, (2 : BitVec 7).toNat, (3 : BitVec 7).toNat] [] := by
  have f : ∀ m o, s0.me.full m o := fun m o => ⟨fun _ l hm => by
    have := full_s0.1 l (inSet_lt hm)
    simp [Lane.isEmpty, this], fun _ _ => by simp [Group.sIsEmpty, full_s0.2]⟩
  refine ⟨by decide, s0_ready _ _ (by decide), fun p hp => ⟨f _ _, fun h => ?_⟩, fun _ _ => f _ _, by decide, s0_ready _ _ (by decide)⟩
  exact absurd hp (by have : ∀ q ∈ s0.me.deqSrcs (BitVec.toNat 1#7) (BitVec.toNat 2#7) (BitVec.toNat 4#7) (BitVec.toNat 15#4) false false false, q.2.1 ≠ 72 := by
                        decide +kernel
                      exact fun hp => this p hp h)

theorem witness_SpecialFunctionWords :
    s0.ready [(1 : BitVec 7).toNat] (destRegs 2) ∧ (withT (fun t => { t with act := true })).myTeam.act = true ∧
    (withT (fun t => { t with act := true })).ready [(1 : BitVec 7).toNat] (destRegs 72) ∧ s0.ready [(1 : BitVec 7).toNat, (2 : BitVec 7).toNat] (destRegs 2) :=
  ⟨s0_ready _ _ (by decide), by decide +kernel, full_ready (by unfold Full; decide +kernel) _ _ (by decide), s0_ready _ _ (by decide)⟩

theorem witness_SpecialFunctionSpecialValues :
    (asF32 0x7FC00000).isNan = true ∧ (asF32 0x7F800001).isSnan = true ∧ asF32 0xFF800000 = .inf true ∧ (∃ e, asF32 0x80000000 = .fin true 0 e) ∧
    ∃ n e, n ≠ 0 ∧ asF32 0x80000001 = .fin true n e := by
  refine ⟨by decide +kernel, by decide +kernel, by decide +kernel, ⟨-149, by decide +kernel⟩, ⟨1, -149, by decide, by decide +kernel⟩⟩

/-! ### Hypotheses met: producers, lanes, memory words -/

/-- What holds of every lane of a set below 64 holds of the lanes of the set. -/
theorem in_set' {m : LaneSet} {P : Nat → Prop} (h : ∀ l, l < 64 → inSet m l = true → P l) (l : Nat) (hl : inSet m l = true) : P l := h l (inSet_lt hl) hl

/-- A producer at number 9 for the group. -/
def withProd (k : ProdKind) (r : Nat) : State :=
  { s0 with producers := [(9, { kind := k, group := 3, dests := ([(0, (1 : Word)), (63, 2)]).map (fun x => (x.1, r, x.2)) })] }
/-- A scalar producer at number 9, in a partition of some object share. -/
def withSProd (p : Producer) (share : Nat) (objs : FMap Obj) : State :=
  { s0 with producers := [(9, p)], objects := objs, parts := [(0, { root := 0x1000, partcfg := BitVec.ofNat 64 (share * 2 ^ 17) })] }
/-- A shape record of one dimension (R261). -/
def shapeBytes (base flags n : Nat) : List (BitVec 8) :=
  leBytes 8 base ++ leBytes 4 flags ++ leBytes 4 0 ++ [n, 1, 1, 1, 1].flatMap (leBytes 4) ++ leBytes 36 0 ++ [n, 1, 1, 1, 1].flatMap (leBytes 4) ++ leBytes 36 0
/-- OBJDECL in flight for s31. -/
def decl (base : Nat) : Producer := { kind := .objdecl, group := 3, sdests := [(31, 0)], block := shapeBytes base 64 64 }

theorem witness_ProducerResultsArrive :
    ([(0, (1 : Word)), (63, 2)].map (·.1)).Nodup ∧
    (∀ r ∈ [0, 72], ∀ k ∈ [ProdKind.sfu, .lread], FMap.look (withProd k r).producers 9 =
      some { kind := k, group := 3, dests := ([(0, (1 : Word)), (63, 2)]).map (fun x => (x.1, r, x.2)) }) ∧
    FMap.look (withSProd { kind := .launch, group := 3, sdests := [(31, 3)] } 0 []).producers 9 = some { kind := .launch, group := 3, sdests := [(31, 3)] } ∧
    FMap.look (withSProd { kind := .meter, group := 3, sdests := [(30, 0), (31, 0)] } 0 []).producers 9 =
      some { kind := .meter, group := 3, sdests := [(30, 0), (31, 0)] } := by decide +kernel

theorem witness_ObjdeclResult :
    let lines (s : State) (base : Nat) := s.footLines 0 0 (shapeOf (shapeBytes base 64 64)).footprint.1 (shapeOf (shapeBytes base 64 64)).footprint.2
    let o : Obj := { part := 0, first := 0x201, lines := [0x201], holder := none }
    (∀ a ∈ (withSProd (decl 0) 1 []).accesses, ∀ q ∈ a.2.parts, q.entered = none) ∧ lines (withSProd (decl 0x10000) 1 []) 0x10000 = none ∧
    lines (withSProd (decl 0) 0 []) 0 = some [0x200, 0x201] ∧
    lines (withSProd (decl 0) 2 [(5, o)]) 0 = some [0x200, 0x201] ∧
    lines (withSProd (decl 0) 1 []) 0 = some [0x200, 0x201] := by decide +kernel

/-- Eight lanes are active and members; in `open_` four of them have arrived before, at the gathering that is open here. -/
def gathS (open_ : Bool) : State :=
  let parked (l : Nat) (n : Lane) : Lane := if l < 4 then { n with cond := .parked .convergence, place := .gathering 0 0 } else n
  let s := (withLanes (fun l n => if l < 8 then (if open_ then parked l n else n) else { n with cond := .exited })).onMe (fun g => { g with sregs := [(0, 0xFF)] })
  s.onMe (fun g => { g with run := { g.run with act := if open_ then 0xF0 else 0xFF }, gatherings := if open_ then [⟨0, 0, 0xFF, 0x0F⟩] else [] })
theorem full_gathS (b : Bool) : Full (gathS b) := by revert b; unfold Full; decide +kernel
theorem witness_CrossLaneWords : ∀ b : Bool,
    let s := gathS b
    let open_ := s.me.gatherings.find? (fun w => w.hdr == s.me.run.hdr && w.word == s.me.run.idx)
    let members : LaneSet := open_.elim (s.me.sPair ((80 : BitVec 7).toNat - 80)) (·.members)
    let arrived : LaneSet := open_.elim 0 (·.arrived) ||| (s.me.run.act &&& members)
    open_.isSome = b ∧ (∀ l, inSet members l = true → (s.me.lane l).counts = true → inSet arrived l = true) ∧
    (∀ x : Bool, s.ready ([(1 : BitVec 7).toNat, (2 : BitVec 7).toNat] ++ if x then [] else [(80 : BitVec 7).toNat, (80 : BitVec 7).toNat + 1]) (destRegs 71)) ∧
    (∀ x : Bool, s.ready ([(1 : BitVec 7).toNat] ++ if x then [] else [(80 : BitVec 7).toNat, (80 : BitVec 7).toNat + 1]) (destRegs 71)) ∧
    ∀ x : Bool, s.ready ([] ++ if x then [] else [(80 : BitVec 7).toNat, (80 : BitVec 7).toNat + 1]) [(70 : BitVec 7).toNat, (70 : BitVec 7).toNat + 1] := by
  intro b
  refine ⟨by revert b; decide +kernel, in_set' (by revert b; decide +kernel), ?_, ?_, ?_⟩ <;> intro x <;>
    exact full_ready (full_gathS b) _ _ (by revert x; decide)
theorem witness_CrossLaneWellFormed : ([.vperm 71 1 2 80 false false 3, .vshuf 71 1 80 false 3 0xFF, .vbcast 71 1 80 false 3 63, .vlogred 71 1 80 false 3 0 0,
    .vscan 71 1 80 false 3 0 0 true, .vvote 70 5 80 3 0, .vvote 71 5 80 3 3] : List Instr).all wellFormedB = true := by decide +kernel

/-- Lanes 0 to 7 are active; lane 63 is a member, live and not active. In `open_` the gathering is open, with lane 62 arrived. -/
def gathW (open_ : Bool) : State :=
  (withRun (fun r => { r with act := 0xFF })).onMe (fun g => { g with
    sregs := [(0, 0xFF), (1, 0x80000000)], gatherings := if open_ then [⟨0, 0, 0xC0000000000000FF, 0x4000000000000000⟩] else [] })
theorem full_gathW (b : Bool) : Full (gathW b) := by revert b; unfold Full; decide +kernel
theorem witness_CrossLaneWait : ∀ b : Bool,
    let s := gathW b
    let open_ := s.me.gatherings.find? (fun w => w.hdr == s.me.run.hdr && w.word == s.me.run.idx)
    let members : LaneSet := open_.elim (s.me.sPair ((80 : BitVec 7).toNat - 80)) (·.members)
    let arrived : LaneSet := open_.elim 0 (·.arrived) ||| (s.me.run.act &&& members)
    open_.isSome = b ∧ (∃ l, inSet members l = true ∧ (s.me.lane l).counts = true ∧ inSet arrived l = false) ∧
    (∀ x : Bool, s.ready ([(1 : BitVec 7).toNat, (2 : BitVec 7).toNat] ++ if x then [] else [(80 : BitVec 7).toNat, (80 : BitVec 7).toNat + 1]) (destRegs 71)) ∧
    ∀ x : Bool, s.ready ([] ++ if x then [] else [(80 : BitVec 7).toNat, (80 : BitVec 7).toNat + 1]) [(70 : BitVec 7).toNat, (70 : BitVec 7).toNat + 1] := by
  intro b
  refine ⟨by revert b; decide +kernel, ⟨63, by revert b; decide +kernel⟩, ?_, ?_⟩ <;> intro x <;>
    exact full_ready (full_gathW b) _ _ (by revert x; decide)

theorem witness_LaneRegisterWords :
    s0.ready [(1 : BitVec 7).toNat] [(71 : BitVec 7).toNat] ∧ s0.ready [] [(111 : BitVec 7).toNat] ∧ s0.ready [(80 : BitVec 7).toNat] [] ∧
    (∀ l, l < 64 → (s0.me.lane ((s0.me.src .int l 1).toNat % 64)).isEmpty 71 = false) ∧
    ¬ ((s0.me.lane 63).isEmpty 71 = true ∧ s0.inFlight s0.cur 63 71 = true) :=
  ⟨s0_ready _ _ (by decide), s0_ready _ _ (by decide), s0_ready _ _ (by decide), by decide +kernel, by decide +kernel⟩

/-- VPCWR: s0 holds the value written; lane 63 is named. -/
def wcr (v : Word) (h : Bool) (c : LaneCond) (p : Place) (r : Option Nat) : State :=
  (withLanes (fun l n => if l = 63 then { n with cond := c, place := p, region := r } else n)).onMe (fun g =>
    { g with sregs := [(0, v)], run := { g.run with handler := h } })
theorem full_wcr (v : Word) (h : Bool) (c : LaneCond) (p : Place) (r : Option Nat) : Full (wcr v h c p r) := by
  unfold wcr withLanes withG
  apply full_onMe
  · apply full_onMe
    · exact full_s0
    · intro g l hl
      have h0 : inSet (BitVec.allOnes 64) l = true := by revert l; decide
      rw [Group.lane_mapLanes _ _ _ hl, if_pos h0]; split <;> rfl
    · intro _; rfl
  · intro _ _ _; rfl
  · intro _; rfl
theorem witness_LaneStatusWords :
    (∀ (v : Word) (h : Bool) (c : LaneCond) (p : Place) (r : Option Nat), (wcr v h c p r).ready [(80 : BitVec 7).toNat] []) ∧
    (let x (v : Word) : Word := (wcr v true .live .none none).me.src .int 0 (80 : BitVec 7).toNat
     x 0 = 0 ∧ x 1 = 1 ∧ x 2 = 2) ∧
    (∀ h : Bool, let s := wcr 1 h .live .none none
      (s.me.lane 63).counts = true ∧ (s.me.lane 63).cond = .live ∧ (s.me.lane 63).region = none ∧ s.me.run.handler = h ∧ s.me.deferred = []) ∧
    (∀ p ∈ [Place.none, .gathering 0 0, .barrier 3, .gridBarrier, .slotWait], let s := wcr 0 true (.parked .convergence) p none
      s.me.run.handler = true ∧ s.me.deferred = [] ∧ (s.me.lane 63).cond = .parked .convergence ∧ (s.me.lane 63).place = p ∧ (s.me.lane 63).region = none ∧ s.me.cluster < 160) ∧
    ((wcr 0 true .exited .none none).me.lane 63).counts = false ∧ ((wcr 0 true .live .none (some 0)).me.lane 63).region.isSome = true ∧
    (((wcr 0 true (.parked .convergence) (.recovery 0x1C) none).me.lane 63).isParked = true ∧
      ((wcr 0 true (.parked .convergence) (.recovery 0x1C) none).me.lane 63).place = .recovery 0x1C) ∧
    s0.ready [] [(80 : BitVec 7).toNat] ∧ [Instr.vpcwr 80 false 0 63, .vpcwr 80 false 1 63, .vpcwr 80 false 2 63, .vpcrd 80 0 63, .vpcrd 111 2 63].all wellFormedB = true :=
  ⟨fun _ _ _ _ _ => full_ready (full_wcr _ _ _ _ _) _ _ (by decide), by decide +kernel, by decide +kernel, by decide +kernel, by decide +kernel, by decide +kernel,
    by decide +kernel, s0_ready _ _ (by decide), by decide +kernel⟩

/-- Lanes 0, 5 and 63 are active; lane l has address k × l in v2 and v3, and its team 2048 bytes of scratchpad. -/
def memS (k : Nat) : State :=
  (((withLanes (fun l n => { n with regs := [(2, BitVec.ofNat 32 (k * l))] })).onTeam 2 (fun t => { t with scrSize := 2048 })).onGrid 1
    (fun g => { g with record := { g.record with handler := 0x100 } })).onMe (fun g => { g with run := { g.run with act := 0x8000000000000021 } })
/-- Where the addresses lie. -/
def memLoc (k : Nat) (l o : Nat) : Space × Nat := (.global, 0x10000 + k * l + o)
/-- The address of a lane. -/
def memEa (k : Nat) (l : Nat) : Nat := ((memS k).me.src64 l (2 : BitVec 7).toNat + (0 : BitVec 32).signExtend 64).toNat

theorem memS_full : Full (memS 16) ∧ Full (memS 24) ∧ Full (memS 1) := by unfold Full; decide +kernel
theorem memS_free : (memS 16).memFree ∧ (memS 24).memFree ∧ (memS 1).memFree := by
  refine ⟨⟨?_, ?_, ?_, ?_, in_set' ?_⟩, ⟨?_, ?_, ?_, ?_, in_set' ?_⟩, ⟨?_, ?_, ?_, ?_, in_set' ?_⟩⟩ <;> decide +kernel
theorem memS_mapped (w a : Bool) (n : Nat) : (memS 16).mapped w a false n (inSet (memS 16).me.run.act) (memEa 16) (memLoc 16) := by
  have h : ∀ w : Bool, ∀ l, l < 64 → inSet (memS 16).me.run.act l = true →
      (memS 16).target (memS 16).me.cluster ((memS 16).partOf (memS 16).me) (if w then .write else .read) (memEa 16 l + 0) = .ok .global (0x10000 + 16 * l + 0) := by
    decide +kernel
  intro l hl p hp
  have hp : p = (0, n) := by simpa [lanePieces] using hp
  subst hp
  exact ⟨h w l (inSet_lt hl) hl, fun x => by cases x⟩
theorem memS_packed : (memS 24).mapped false false true 24 (inSet (memS 24).me.run.act) (memEa 24) (memLoc 24) := by
  have h : ∀ l, l < 64 → inSet (memS 24).me.run.act l = true → ∀ p ∈ lanePieces true 24 (memEa 24 l),
      (memS 24).target (memS 24).me.cluster ((memS 24).partOf (memS 24).me) .read (memEa 24 l + p.1) = .ok .global (0x10000 + 24 * l + p.1) := by
    decide +kernel
  exact fun l hl p hp => ⟨h l (inSet_lt hl) hl p hp, fun x => by cases x⟩
theorem memS_packed4 : (memS 16).mapped false false true 16 (inSet (memS 16).me.run.act) (memEa 16) (memLoc 16) := by
  have h : ∀ l, l < 64 → inSet (memS 16).me.run.act l = true → ∀ p ∈ lanePieces true 16 (memEa 16 l),
      (memS 16).target (memS 16).me.cluster ((memS 16).partOf (memS 16).me) .read (memEa 16 l + p.1) = .ok .global (0x10000 + 16 * l + p.1) := by
    decide +kernel
  exact fun l hl p hp => ⟨h l (inSet_lt hl) hl p hp, fun x => by cases x⟩
theorem memS_aligned : (∀ l, inSet (memS 16).me.run.act l = true → memEa 16 l % 16 = 0 ∧ memEa 16 l % 1 = 0 ∧ memEa 16 l % 2 = 0 ∧ memEa 16 l % 4 = 0 ∧ memEa 16 l % 8 = 0) ∧
    ∀ l, inSet (memS 24).me.run.act l = true → memEa 24 l % 8 = 0 := ⟨in_set' (by decide +kernel), in_set' (by decide +kernel)⟩
theorem memS_scratch : ∀ n ∈ [1, 2, 4, 8, 16], (memS 16).inScratch n (memEa 16) := by
  intro n hn
  have h : ∀ n ∈ [1, 2, 4, 8, 16], ∀ l, l < 64 → inSet (memS 16).me.run.act l = true → memEa 16 l < (memS 16).myTeam.scrSize ∧
      ∀ ln ∈ linesOf ((memS 16).myTeam.scrBase + memEa 16 l) n, FMap.has ((memS 16).cluster (memS 16).me.cluster).absent ln = false := by decide +kernel
  exact in_set' (h n hn)

theorem witness_LoadWords :
    (memS 16).ready [2, 3] (regRun 4 4) ∧ (memS 24).ready [2, 3] (regRun 66 6) ∧ (memS 16).ready [2, 3] (regRun 0 1) :=
  ⟨full_ready memS_full.1 _ _ (by decide), full_ready memS_full.2.1 _ _ (by decide), full_ready memS_full.1 _ _ (by decide)⟩
theorem witness_StoreWords : (memS 16).ready ([2, 3] ++ regRun 68 4) [] ∧ (memS 16).ready ([2, 3] ++ regRun 80 1) [] :=
  ⟨full_ready memS_full.1 _ _ (by decide), full_ready memS_full.1 _ _ (by decide)⟩
theorem witness_AtomicWords : (memS 16).logStalls (memS 16).myTeam.grid = false ∧
    (memS 16).ready ([2, 3] ++ regRun 4 4) (regRun 4 2) ∧ (memS 16).ready ([2, 3] ++ regRun 80 2) [] :=
  ⟨by decide +kernel, full_ready memS_full.1 _ _ (by decide), full_ready memS_full.1 _ _ (by decide)⟩
theorem witness_IndexedWords :
    let s := memS 16
    let on (l : Nat) : Bool := inSet s.me.run.act l && ((s.me.lane l).pred 31 != false)
    let addr (l : Nat) : Nat := (s.me.src64 l (2 : BitVec 7).toNat + (s.me.src .int l (9 : BitVec 7).toNat).signExtend 64 * BitVec.ofNat 64 4).toNat
    (∃ l, on l = true) ∧ (∀ l, l < 64 → on l = true → addr l % 4 = 0) ∧ (∀ l, l < 64 → on l = true → s.target s.me.cluster (s.partOf s.me) .write (addr l + 0) =
      .ok .global (0x10000 + 16 * l + 0)) ∧ s.ready [2, 3, 9, 8] [8] :=
  ⟨⟨63, by decide +kernel⟩, by decide +kernel, by decide +kernel, full_ready memS_full.1 _ _ (by decide)⟩
/-- Lane 5's address is 5, lane 0's is 0, and lane 63's 63; the pair s0:s1 holds 5 + 3. -/
theorem witness_MisalignedWordsTrap :
    let s := memS 1
    let odd (w l : Nat) : Bool := inSet s.me.run.act l && decide (memEa 1 l % w ≠ 0)
    s.ready [2, 3] (regRun 8 6) ∧ s.ready ([2, 3] ++ regRun 8 4) (regRun 8 2) ∧ s.ready ([2, 3] ++ [9, 8]) [] ∧ s.ready [80, 81, 82] [82, 83] ∧
    (s.gridOf s.me).record.handler ≠ 0xFFFFFFFF ∧ s.me.handler = false ∧ (∀ w ∈ [2, 4, 8, 16], odd w 5 = true ∧ ∀ l, l < 5 → odd w l = false) ∧
    (∀ w ∈ [2, 4, 8, 16], ∀ l, l < 64 → inSet s.me.run.act l = true → ∀ ln ∈ linesOf (s.myTeam.scrBase + memEa 1 l) w,
      FMap.has (s.cluster s.me.cluster).absent ln = false) ∧
    (s.me.src64 5 (2 : BitVec 7).toNat + (s.me.src .int 5 (9 : BitVec 7).toNat).signExtend 64 * BitVec.ofNat 64 2).toNat % 2 = 1 ∧
    inSet s.me.run.act 0 = true ∧ (s.me.sPair (0 : BitVec 5).toNat + (5 : BitVec 13).signExtend 64).toNat % 4 ≠ 0 :=
  ⟨full_ready memS_full.2.2 _ _ (by decide), full_ready memS_full.2.2 _ _ (by decide), full_ready memS_full.2.2 _ _ (by decide),
    full_ready memS_full.2.2 _ _ (by decide), by decide +kernel⟩
/-- Held back by a fence of some order and scope that the active lanes have issued, over an access of lane 5 not performed. -/
def fenceS (order scope : Nat) (kind : AccKind) : State :=
  { ((memS 16).onMe (fun g => { g with fences := [{ order := order, scope := scope, lanes := g.run.act, upto := 2 }] })) with
    accesses := [(1, { kind := kind, group := 3, cluster := 0, team := 2, order := 0, scope := 0, parts := [{ lane := 5, space := .global, addr := 0x10000, len := 4, va := 0 }] })] }
theorem witness_FenceAndPrefetch :
    (memS 16).ready [2, 3] [] ∧ (∀ order scope kind, let s := fenceS order scope kind
      s.ready [2, 3] (regRun 8 6) ∧ s.ready ([2, 3] ++ regRun 8 4) (regRun 8 2) ∧ s.ready ([2, 3] ++ [9, 8]) [] ∧ s.ready [80, 81, 82] [82, 83]) ∧
    (∀ f ∈ [(1, 1, AccKind.load), (3, 4, .atomic 0x16), (2, 1, .store), (2, 4, .store)], let s := fenceS f.1 f.2.1 f.2.2
      s.me.run.handler = false ∧ s.myTeam.rollback = none ∧ inSet s.me.run.act 5 = true ∧ ((s.me.lane 5).pred 31 != false) = true ∧
      (∃ h ∈ s.me.fences, h.order = f.1 ∧ h.scope = f.2.1 ∧ inSet h.lanes 5 = true ∧ inSet h.lanes 0 = true ∧
        ∃ x ∈ s.accesses, x.1 < h.upto ∧ x.2.group = s.cur ∧ x.2.kind = f.2.2 ∧ ∃ p ∈ x.2.parts, p.lane = 5 ∧ (p.done || p.entered.isSome) = false)) := by
  refine ⟨full_ready memS_full.1 _ _ (by decide), fun o c k => ?_, by decide +kernel⟩
  have h : Full (fenceS o c k) := memS_full.1
  exact ⟨full_ready h _ _ (by decide), full_ready h _ _ (by decide), full_ready h _ _ (by decide), full_ready h _ _ (by decide)⟩
/-- At die scope a release also waits for what stands in the L1; a scalar word issues in the name of the lowest active lane, here lane 5. -/
theorem witness_FenceElsewhere :
    let s := (fenceS 2 4 .store).onMe (fun g => { g with run := { g.run with act := 0x20 } })
    let e : State := { s with accesses := s.accesses.map (fun x => (x.1, { x.2 with parts := x.2.parts.map (fun p => { p with entered := some 1 }) })) }
    inSet s.me.run.act 5 = true ∧ (∀ k, k < 5 → inSet s.me.run.act k = false) ∧
    ∃ x ∈ e.accesses, x.2.cluster = e.me.cluster ∧ ∃ p ∈ x.2.parts, ¬ (p.entered = none ∨ p.done = true) := by decide +kernel
theorem witness_ScalarMemoryWords :
    let s := s0
    s.me.fences = [] ∧ s.myTeam.rollback = none ∧ s.myTeam.levels = [] ∧ (∀ l, inSet s.me.run.act l = true → (s.me.lane l).region = none) ∧
    inSet s.me.run.act 0 = true ∧ (∀ l, l < 0 → inSet s.me.run.act l = false) ∧
    (s.me.sPair 30 + (0x1000 : BitVec 13).signExtend 64 + 0x1000).toNat % 8 = 0 ∧
    s.target s.me.cluster (s.partOf s.me) .read (s.me.sPair 30 + (8 : BitVec 13).signExtend 64).toNat = .ok .global 0x10008 ∧
    s.target s.me.cluster (s.partOf s.me) .write (s.me.sPair 30 + (8 : BitVec 13).signExtend 64).toNat = .ok .global 0x10008 ∧
    s.ready [80 + 30, 80 + 30 + 1] [80 + 28, 80 + 28 + 1] ∧ s.ready [80 + 30, 80 + 30 + 1, 80 + 31] [] :=
  ⟨by decide +kernel, by decide +kernel, by decide +kernel, in_set (by decide +kernel), by decide +kernel, by omega, by decide +kernel, by decide +kernel,
    by decide +kernel, s0_ready _ _ (by decide), s0_ready _ _ (by decide)⟩

/-! ### Hypotheses met: scalar and control words -/

theorem witness_ScalarArithmeticWords : s0.ready [80 + (0 : BitVec 5).toNat, 80 + (31 : BitVec 5).toNat] [80 + (31 : BitVec 5).toNat] := s0_ready _ _ (by decide)

/-- s0 with one scalar register set. -/
def withS (r : Nat) (v : Word) : State := withG (fun g => { g with sregs := [(r, v)] })
theorem full_withS : Full (withS 31 5) ∧ Full (withS 31 6) ∧ Full (withS 31 0x85) := by unfold Full; decide +kernel

theorem witness_SpecialRegisterWords :
    s0.ready [] [80 + (31 : BitVec 5).toNat] ∧ s0.myTeam.levels = [] ∧
    (withT (fun t => { t with levels := [{}, { fcode := 0x7FFF, phase := 3 }] })).myTeam.levels = [({} : Level)] ++ [{ fcode := 0x7FFF, phase := 3 }] ∧ ((withS 31 5).ready [111] [] ∧ (withS 31 6).ready [111] [] ∧ (withS 31 0x85).ready [111] []) ∧
    ((withS 31 5).me.s 31).toNat % 8 < 6 ∧ ((withS 31 5).me.s 31).toNat / 8 % 32 = 0 ∧ 6 ≤ ((withS 31 6).me.s 31).toNat % 8 ∧
    ((withS 31 0x85).me.s 31).toNat % 8 < 6 ∧ ((withS 31 0x85).me.s 31).toNat / 8 % 32 ≠ 0 :=
  ⟨s0_ready _ _ (by decide), by decide +kernel, by decide +kernel, ⟨full_ready full_withS.1 _ _ (by decide), full_ready full_withS.2.1 _ _ (by decide), full_ready full_withS.2.2 _ _ (by decide)⟩, by decide +kernel⟩

theorem witness_ElectionAndTime :
    (23 : BitVec 5).toNat < 24 ∧ s0.cur ∈ s0.myTeam.groups ∧ (∀ l, inSet s0.me.run.act l = true → (s0.me.lane l).counts = true) ∧
    (22 : BitVec 5).toNat % 2 = 0 ∧ s0.ready [] [80 + (22 : BitVec 5).toNat, 80 + (22 : BitVec 5).toNat + 1] :=
  ⟨by decide, by decide +kernel, in_set (by decide +kernel), by decide, s0_ready _ _ (by decide)⟩

/-- Lanes 3 to 63 are active; in a handler or not. -/
theorem witness_Branches (h : Bool) :
    let s := withRun (fun r => { r with act := BitVec.allOnes 64 <<< 3, handler := h })
    inSet s.me.run.act 3 = true ∧ (∀ l, l < 3 → inSet s.me.run.act l = false) ∧ s.me.run.handler = h := by
  revert h; decide +kernel

theorem witness_CallsAndReturns :
    (∀ l, l < 64 → (s0.me.lane l).isEmpty 71 = false) ∧ s0.me.loops = [] ∧
    (withG (fun g => { g with loops := [⟨0, 5, 0⟩] })).me.loops ≠ [] ∧ (71 : BitVec 7).toNat < 72 ∧ s0.ready [(71 : BitVec 7).toNat] [] :=
  ⟨by decide +kernel, by decide +kernel, by decide +kernel, by decide, s0_ready _ _ (by decide)⟩

theorem witness_HardwareLoops :
    let s (l : List LoopEntry) := withG (fun g => { g with loops := l })
    let held (l : List LoopEntry) : Prop := ∃ e ∈ (s l).me.loops, e.lc = (3 : BitVec 2).toNat
    let within (l : List LoopEntry) : Prop := ∀ e ∈ (s l).me.loops.head?, e.start.toNat ≤ (s l).nextHdr.toNat ∧ ((s l).nextHdr + BitVec.ofNat 32 (9 : BitVec 11).toNat).toNat ≤ e.stop.toNat
    s0.ready [80 + (5 : BitVec 5).toNat] [] ∧ ((withS 5 7).me.s 5).toNat ≠ 0 ∧ (s0.me.s 5).toNat = 0 ∧
    (∃ l, inSet (withLanes (fun _ n => { n with region := some 0 })).me.run.act l = true ∧ ((withLanes (fun _ n => { n with region := some 0 })).me.lane l).region ≠ none) ∧
    (¬ ∃ l, inSet s0.me.run.act l = true ∧ (s0.me.lane l).region ≠ none) ∧
    3 ≤ (s [⟨2, 11, 2⟩, ⟨1, 20, 1⟩, ⟨0, 30, 0⟩]).me.loops.length ∧
    held [⟨2, 11, 3⟩] ∧ ¬ held [⟨2, 11, 2⟩] ∧ ¬ within [⟨2, 10, 2⟩] ∧ within [⟨2, 11, 2⟩] ∧ within [] := by
  refine ⟨s0_ready _ _ (by decide), by decide +kernel, by decide +kernel, ⟨63, by decide +kernel⟩, fun ⟨l, h, hr⟩ => hr (in_set (P := fun l => (s0.me.lane l).region = none) (by decide +kernel) l h), ?_⟩
  decide +kernel

/-- Lane 63 is in a region; and a level is open, no lane in a region. -/
theorem witness_StopsInRegionsAndLevels :
    let r := withLanes (fun l n => { n with region := if l = 63 then some 0 else none })
    let v := withT (fun t => { t with levels := [{}] })
    inSet r.me.run.act 63 = true ∧ (r.me.lane 63).region.isSome = true ∧ r.myTeam.rollback = none ∧
    (∀ l, l < 64 → inSet v.me.run.act l = true → (v.me.lane l).region = none) ∧ v.myTeam.levels ≠ [] ∧ v.myTeam.rollback = none := by decide +kernel
theorem witness_StopsOperands :
    let r := withLanes (fun l n => { n with region := if l = 63 then some 0 else none })
    let v := withT (fun t => { t with levels := [{}] })
    r.ready [80 + (2 : BitVec 5).toNat, 80 + (2 : BitVec 5).toNat + 1] [80 + (31 : BitVec 5).toNat] ∧ v.ready [80 + (2 : BitVec 5).toNat, 80 + (2 : BitVec 5).toNat + 1] [80 + (31 : BitVec 5).toNat] :=
  ⟨full_ready (by unfold Full; decide +kernel) _ _ (by decide), full_ready (by unfold Full; decide +kernel) _ _ (by decide)⟩

theorem witness_WordsThatEndTheRun : (∀ l, inSet s0.me.run.act l = true → (s0.me.lane l).region = none) ∧ s0.myTeam.levels = [] ∧ s0.myTeam.succok = false :=
  ⟨in_set (by decide +kernel), by decide +kernel, by decide +kernel⟩
theorem witness_ExitLeavesTheSets : (∀ l, inSet s0.me.run.act l = true → (s0.me.lane l).region = none) ∧ s0.myTeam.levels = [] :=
  ⟨in_set (by decide +kernel), by decide +kernel⟩

/-! ### Hypotheses met: engine words -/

/-- Bytes at virtual address 0, and a team that holds both accumulator stores and the activation banks, with 4096 bytes of scratchpad. -/
def blkS (bs : List (BitVec 8)) : State :=
  (({ s0 with mem := Mem.writeBytes mem0 0x10000 bs }).onTeam 2 (fun t => { t with acc0 := true, acc1 := true, act := true, scrSize := 4096 }))

/-- An MMA of BF16, m = n = 1, k = 8, on engine e, with A from the store of engine a - 1 or, for 0, the scratchpad (R249). -/
def mmaBytes (e a : Nat) : List (BitVec 8) :=
  leBytes 4 (e + a * 4 + 16 + 256) ++ [1, 1, 8, 0, 0, 0, 100, 0] ++ leBytes 4 0 ++ leBytes 4 16 ++ leBytes 4 16 ++ leBytes 4 16 ++ leBytes 36 0
/-- A drain of one element of engine 1 to the scratchpad (R257). -/
def drainBytes : List (BitVec 8) := leBytes 4 (1 + 2 ^ 15) ++ leBytes 44 0 ++ leBytes 4 4 ++ leBytes 12 0
/-- A copy of one row of four elements, records at 128 and 256 (R263). -/
def copyBytes : List (BitVec 8) := leBytes 8 128 ++ leBytes 8 256 ++ leBytes 16 0 ++ leBytes 96 0 ++ shapeBytes 0x8000 64 4 ++ shapeBytes 0x9000 64 4
/-- A two-dimensional record of one row of four elements. -/
def rowShape (base : Nat) : List (BitVec 8) :=
  leBytes 8 base ++ leBytes 4 128 ++ leBytes 4 0 ++ [4, 8, 1, 1, 1].flatMap (leBytes 4) ++ leBytes 4 0 ++ leBytes 8 16 ++ leBytes 24 0 ++
    [4, 1, 1, 1, 1].flatMap (leBytes 4) ++ leBytes 36 0
/-- A gather or a scatter of one row. -/
def rowBlock : List (BitVec 8) := leBytes 8 128 ++ leBytes 8 256 ++ leBytes 12 0 ++ leBytes 4 1 ++ leBytes 96 0 ++ rowShape 0x8000 ++ rowShape 0x9000
/-- A collective of one element over two members, its communicator at 64 (R265). -/
def collBytes : List (BitVec 8) :=
  leBytes 8 64 ++ leBytes 8 0x8000 ++ leBytes 8 0x9000 ++ leBytes 4 1 ++ leBytes 36 0 ++ leBytes 4 2 ++ leBytes 4 1 ++ leBytes 8 0x100 ++ leBytes 2 0 ++ [2] ++ leBytes 13 0

theorem blkS_nil : ∀ p ∈ [(0, 16), (1, 16), (2, 32), (3, 8), (4, 16), (5, 2)], (blkS []).commandFree 7 p.1 p.2 := by
  intro p h
  exact ⟨in_set (by decide +kernel), by decide +kernel, by decide +kernel, (by decide +kernel : ∀ p ∈ [(0, 16), (1, 16), (2, 32), (3, 8), (4, 16), (5, 2)],
    ((blkS []).commands.filter (fun c => c.2.cluster == (blkS []).me.cluster && c.2.unit == p.1 && !c.2.started)).length < p.2) p h⟩

theorem full_blkS (bs : List (BitVec 8)) : Full (blkS bs) := (by unfold Full; decide +kernel : Full (blkS []))
theorem blkS_free (bs : List (BitVec 8)) : ∀ p ∈ [(0, 16), (1, 16), (2, 32), (3, 8), (4, 16), (5, 2)], (blkS bs).commandFree 7 p.1 p.2 := blkS_nil

theorem witness_BlockCommandWords (bs : List (BitVec 8)) :
    (blkS bs).ready [80 + (2 : BitVec 5).toNat, 80 + (2 : BitVec 5).toNat + 1] [] ∧ ∀ p ∈ [(0, 16), (1, 16), (2, 32), (3, 8), (4, 16), (5, 2)], (blkS bs).commandFree 7 p.1 p.2 :=
  ⟨full_ready (full_blkS bs) _ _ (by decide), blkS_free bs⟩

/-- A block can be read and holds bytes, as a check. -/
def isBlock (s : State) (va n align : Nat) (b : List (BitVec 8)) : Bool :=
  va % align == 0 && (match s.readBlock va n with | .bytes _ _ => true | _ => false) && decide ((s.checkBlock va n).readBlock va n = .bytes b 0)
theorem isBlock_is {s : State} {va n align : Nat} {b : List (BitVec 8)} (h : isBlock s va n align b = true) : s.blockIs va n align b := by
  unfold isBlock at h
  simp only [Bool.and_eq_true, beq_iff_eq, decide_eq_true_eq] at h
  refine ⟨h.1.1, ?_, h.2⟩
  cases e : s.readBlock va n with
  | bytes x k => exact ⟨x, k, rfl⟩
  | wait _ => rw [e] at h; cases h.1.2
  | page _ _ => rw [e] at h; cases h.1.2
  | bad _ _ _ => rw [e] at h; cases h.1.2

theorem witness_Mma : ∀ e ∈ [0, 1], ∀ a ∈ [0, 1, 2],
    let b := mmaBytes e a
    let s := blkS b
    (s.me.sPair (2 : BitVec 5).toNat).toNat = 0 ∧ s.me.fences = [] ∧ isBlock s 0 64 64 b = true ∧ fieldAt b 0 4 % 2 = e ∧ (∀ f ∈ mmaFields b s.myTeam.scrSize, f.1 = false) ∧
    (mmaBlk b).rects = none ∧ (mmaBlk b).status % 8 = 0 ∧ s.myTeam.claims e = true ∧ ((mmaBlk b).asrc ≠ 0 → s.myTeam.claims ((mmaBlk b).asrc - 1) = true) := by
  decide +kernel
theorem witness_Accdrain :
    let b := drainBytes
    let s := blkS b
    isBlock s 0 64 64 b = true ∧ (∀ f ∈ drainFields b s.myTeam.scrSize, f.1 = false) ∧
    rectFail (drainBlk b).row0 (drainBlk b).rows (drainBlk b).col0 (drainBlk b).cols false = none ∧ (drainBlk b).status % 8 = 0 ∧
    s.myTeam.claims (drainBlk b).eng = true := by decide +kernel
/-- A read of a block gave bytes, none poisoned. -/
def gotBytes : SyncRead → Bool
  | .bytes _ p => p == 0
  | _ => false
theorem gotBytes_bytes {r : SyncRead} (h : gotBytes r = true) : ∃ b, r = .bytes b 0 := by
  cases r <;> simp_all [gotBytes]
theorem blockIs_of {s : State} {va n align : Nat} (h0 : va % align = 0) (h1 : gotBytes (s.readBlock va n) = true)
    (h2 : gotBytes ((s.checkBlock va n).readBlock va n) = true) : ∃ b, s.blockIs va n align b :=
  let ⟨b, hb⟩ := gotBytes_bytes h2
  ⟨b, h0, let ⟨x, hx⟩ := gotBytes_bytes h1; ⟨x, 0, hx⟩, hb⟩
theorem witness_Tables :
    (∃ b, (blkS []).blockIs 0 1024 128 b) ∧ (∃ b, (blkS []).blockIs 0 3088 128 b) ∧ (blkS []).myTeam.claims 1 = true ∧ (blkS []).myTeam.act = true :=
  ⟨blockIs_of (by decide) (by decide +kernel) (by decide +kernel), blockIs_of (by decide) (by decide +kernel) (by decide +kernel), by decide +kernel⟩
theorem witness_Copies :
    let ok (b : List (BitVec 8)) (own : List (Bool × Nat)) (rel : Shape → Shape → List (Bool × Nat)) : Prop :=
      let x := (b.drop 128).take 128
      let y := (b.drop 256).take 128
      let u := (blkS b).afterBlock 0 32
      (blkS b).me.fences = [] ∧ isBlock (blkS b) 0 32 32 (b.take 32) = true ∧ isBlock u (fieldAt b 0 8) 128 128 x = true ∧
      isBlock (u.afterBlock (fieldAt b 0 8) 128) (fieldAt b 8 8) 128 128 y = true ∧ (∀ f ∈ own, f.1 = false) ∧
      (∀ f ∈ shapeFields x, f.1 = false) ∧ (∀ f ∈ shapeFields y ++ rel (shapeOf x) (shapeOf y), f.1 = false) ∧ (shapeOf x).obj = 0 ∧ (shapeOf y).obj = 0 ∧
      (shapeOf x).accFail = none ∧ (shapeOf y).accFail = none ∧ fieldAt b 16 8 % 8 = 0 ∧ shapeClaims (blkS b).myTeam (shapeOf x) (shapeOf y) = none
    ok copyBytes [(decide (fieldAt copyBytes 24 4 / 8 ≠ 0 ∨ fieldAt copyBytes 24 4 % 8 = 4 ∨ 6 ≤ fieldAt copyBytes 24 4 % 8), 24), (!zeroAt copyBytes 28 4, 28)] copyRelations ∧
    ok rowBlock (listFields rowBlock) (rowRelations true (fieldAt rowBlock 28 4)) ∧ ok rowBlock (listFields rowBlock) (rowRelations false (fieldAt rowBlock 28 4)) := by
  decide +kernel
theorem witness_CollAndPhaseend :
    let b := collBytes
    let x := (b.drop 64).take 32
    let s := blkS b
    isBlock s 0 64 64 (b.take 64) = true ∧ isBlock (s.afterBlock 0 64) (collBlk b).comm 32 8 x = true ∧ s.myTeam.levels = [] ∧ (∀ f ∈ collFields b (fieldAt x 0 4), f.1 = false) ∧
    (∀ f ∈ commFields x, f.1 = false) ∧ (collBlk b).status % 8 = 0 ∧ isBlock (blkS x) 0 32 8 x = true := by decide +kernel

/-- Both engines claimed, an object of the partition at number 31, rectangle of one element at the corner 255 and the lanes 0 to 63 from column 192. -/
theorem witness_RegisterCommandWords :
    let s (v : Word) : State := { blkS [] with objects := [(31, { part := 0, first := 0, lines := [0], holder := none })] }.onMe (fun g => { g with sregs := [(31, v)] })
    let byte (v : Word) (i : Nat) : Nat := v.toNat / 2 ^ (8 * i) % 256
    (s 0xFFFF).myTeam.claims 0 = true ∧ (s 0xFFFF).myTeam.claims 1 = true ∧ (s 0xFFFF).me.s 31 = 0xFFFF ∧ byte 0xFFFF 0 + byte 0xFFFF 2 ≤ 255 ∧ byte 0xFFFF 1 + byte 0xFFFF 3 ≤ 255 ∧
    byte 0xC0FF 2 = 0 ∧ byte 0xC0FF 3 = 0 ∧ (∀ l, l < 64 → byte 0xC0FF 1 + l ≤ 255) ∧ (∃ o, FMap.look (s 31).objects 31 = some o ∧ o.part = (s 31).partOf (s 31).me) := by
  refine ⟨by decide +kernel, by decide +kernel, by decide +kernel, by decide, by decide, by decide, by decide, by decide, ⟨_, rfl, by decide +kernel⟩⟩

/-! ### Hypotheses met: results, barriers, regions, recovery -/

/-- What is proved of lanes 0 to 63 and of a lane that was never launched holds of every lane. -/
theorem all_lanes {g : Group} (h : g.lanes.all (fun p => decide (p.1 < 64)) = true) {P : Nat → Lane → Prop} (h1 : ∀ l, l < 64 → P l (g.lane l))
    (h2 : ∀ l, P l {}) : ∀ l, P l (g.lane l) := by
  intro l
  by_cases hl : l < 64
  · exact h1 l hl
  · have : ∀ m : FMap Lane, m.all (fun p => decide (p.1 < 64)) = true → FMap.look m l = none := by
      intro m
      induction m with
      | nil => intro _; rfl
      | cons p m ih =>
        intro hm
        simp only [List.all_cons, Bool.and_eq_true, decide_eq_true_eq] at hm
        unfold FMap.look
        rw [if_neg (by omega), ih hm.2]
    have e : g.lane l = {} := by unfold Group.lane FMap.at; rw [this _ h]; rfl
    rw [e]; exact h2 l

theorem witness_ScalarResultWords :
    let b := shapeBytes 0 64 64
    let s := blkS b
    s0.ready [] [80 + (30 : BitVec 5).toNat, 80 + (30 : BitVec 5).toNat + 1] ∧ s.ready [80 + (2 : BitVec 5).toNat, 80 + (2 : BitVec 5).toNat + 1] [80 + (31 : BitVec 5).toNat] ∧
    isBlock s (s.me.sPair 2).toNat 128 128 b = true ∧ (∀ l, inSet s.me.run.act l = true → (s.me.lane l).region = none) ∧ s.me.fences = [] ∧
    ∀ f ∈ shapeFields b ++ [((shapeOf b).space != 0, 8)], f.1 = false :=
  ⟨s0_ready _ _ (by decide), full_ready (full_blkS _) _ _ (by decide), by decide +kernel, in_set (by decide +kernel), by decide +kernel, by decide +kernel⟩

/-- A launch record of one team of 64 lanes (R313). -/
def recBytes (flags : Nat) : List (BitVec 8) :=
  leBytes 8 0 ++ leBytes 4 100 ++ leBytes 4 0 ++ leBytes 4 0xFFFFFFFF ++ leBytes 4 flags ++ leBytes 4 1 ++ leBytes 4 1 ++ leBytes 4 1 ++ leBytes 2 64 ++ leBytes 2 1 ++ leBytes 2 1 ++
    leBytes 86 0

theorem witness_LaunchWord :
    let b := recBytes 0
    let r := parseRecord b
    let s := blkS b
    let deep := s.onGrid 1 (fun g => { g with depth := 10 })
    let full := s.onDie 0 (fun d => { d with childQueues := [(0, List.replicate 32 1)] })
    s.me.cluster < 160 ∧ s.ready [80 + (2 : BitVec 5).toNat, 80 + (2 : BitVec 5).toNat + 1] [80 + (31 : BitVec 5).toNat] ∧ isBlock s (s.me.sPair 2).toNat 128 128 b = true ∧
    (∀ l, inSet s.me.run.act l = true → (s.me.lane l).region = none) ∧ s.myTeam.levels = [] ∧ s.myTeam.rollback = none ∧ s.me.fences = [] ∧ s.childPred s.me.team r = none ∧
    (recordFault r (s.partClusters 0).length).isSome = false ∧ (s.gridOf s.me).depth < 10 ∧ (FMap.at [] (s.die 0).childQueues r.prio).length < 32 ∧
    (recordFault (parseRecord (List.replicate 128 0)) ((blkS []).partClusters 0).length).isSome = true ∧ isBlock (blkS []) 0 128 128 (List.replicate 128 0) = true ∧
    10 ≤ (deep.gridOf deep.me).depth ∧ 32 ≤ (FMap.at [] (full.die 0).childQueues r.prio).length ∧ (full.gridOf full.me).record.ringCap ≤ (full.gridOf full.me).ringIds.length :=
  ⟨by decide +kernel, full_ready (full_blkS _) _ _ (by decide), by decide +kernel, in_set (by decide +kernel), by decide +kernel⟩

/-- The child queue is full and the ring, at virtual page 1, has room; that page maps host memory or nothing. -/
def ringS (mapped : Bool) : State :=
  let s := (blkS (recBytes 0)).onDie 0 (fun d => { d with childQueues := [(0, List.replicate 32 1)] })
  let s := s.onGrid 1 (fun g => { g with record := { g.record with ring := 0x10000, ringCap := 2 }, ringTail := 3, ringIds := [7] })
  { s with mem := if mapped then Mem.writeBytes s.mem 0x3108 (leBytes 8 0x1001F) else s.mem }
theorem witness_LaunchRing : ∀ m : Bool,
    let s := ringS m
    isBlock s 0 128 128 (recBytes 0) = true ∧ 32 ≤ (FMap.at [] (s.die 0).childQueues 0).length ∧ (s.gridOf s.me).ringIds.length < (s.gridOf s.me).record.ringCap ∧
      s.fresh ≠ s.myTeam.grid ∧ ((s.afterBlock 0 128).hostStyleWrite 0 (0x10000 + 128 * (3 % 2)) (recBytes 0)).2 = m := by
  intro m; revert m; decide +kernel

theorem witness_EventCounterAndBarrierWords :
    let s (v : BitVec 16) := withG (fun g => { g with ec := [(7, v)] })
    (s 0xFFFD).me.counter 7 + (1 : BitVec 8).toNat < 0xFFFF ∧ 0xFFFF ≤ (s 0xFFFE).me.counter 7 + (1 : BitVec 8).toNat ∧
    (255 : BitVec 8).toNat ≤ (s 255).me.counter 7 ∧ (s 254).me.counter 7 < (255 : BitVec 8).toNat ∧
    (∀ l, inSet s0.me.run.act l = true → (s0.me.lane l).region = none) ∧ s0.myTeam.levels = [] ∧ (s0.gridOf s0.me).record.flags.getLsbD 7 = false ∧
    let c := withGrid (fun g => { g with record := { g.record with flags := 0x80 } })
    (c.gridOf c.me).record.flags.getLsbD 7 = true :=
  ⟨by decide +kernel, by decide +kernel, by decide +kernel, by decide +kernel, in_set (by decide +kernel), by decide +kernel⟩

/-- Barrier 3; all lanes have arrived, or all but lane 63. -/
theorem witness_BarrierCompletes :
    let s (m : LaneSet) := withT (fun t => { t with arrivals := [(48, m)] })
    let arr (s : State) (k : Nat) : LaneSet := FMap.at 0 (s.team 2).arrivals (3 * 16 + (s.group k).gid)
    let a := s (BitVec.allOnes 64)
    let b := s 0x7FFFFFFFFFFFFFFF
    (a.team 2).groups = [3] ∧ (∀ k ∈ (a.team 2).groups, ∀ l, ((a.group k).lane l).counts = true → inSet (arr a k) l = true) ∧ (∃ k ∈ (a.team 2).groups, arr a k ≠ 0) ∧
    a.accesses = [] ∧ (a.grid (a.team 2).grid).record.flags.toNat / 2 ^ 8 % 4 = 0 ∧
    ∃ k ∈ (b.team 2).groups, ∃ l, l < 64 ∧ ((b.group k).lane l).counts = true ∧ inSet (arr b k) l = false := by
  refine ⟨by decide +kernel, ?_, ⟨3, by decide +kernel⟩, by decide +kernel, by decide +kernel, ⟨3, by decide +kernel, 63, by decide +kernel⟩⟩
  intro k hk
  obtain rfl : k = 3 := (by decide +kernel : ∀ k ∈ ((withT (fun t => { t with arrivals := [(48, BitVec.allOnes 64)] })).team 2).groups, k = 3) k hk
  exact all_lanes (g := (withT (fun t => { t with arrivals := [(48, BitVec.allOnes 64)] })).group 3) (by decide +kernel)
    (P := fun l n => n.counts = true → inSet _ l = true) (by decide +kernel) (fun l h => by cases h)

theorem witness_RegionWords :
    let r := withLanes (fun l n => { n with region := some l })
    (∀ l, inSet s0.me.run.act l = true → (s0.me.lane l).cond = .live ∧ (s0.me.lane l).region = none ∧ (s0.me.lane l).reserved = none) ∧ s0.me.run.act ≠ 0 ∧
    s0.me.cluster < 160 ∧ (s0.die 0).waiters = [] ∧ 64 ≤ ((List.range 4096).filter (fun n => (s0.slot (0 * 4096 + n)).phase == 0)).length ∧
    (∃ l, inSet r.me.run.act l = true ∧ (r.me.lane l).region.isSome = true) ∧ (∀ l, inSet r.me.run.act l = true → (r.me.lane l).region.isSome = true) ∧
    (∃ l, inSet s0.me.run.act l = true ∧ (s0.me.lane l).region = none) ∧ s0.ready [] [80 + (31 : BitVec 5).toNat] :=
  ⟨in_set (P := fun l => (s0.me.lane l).cond = .live ∧ (s0.me.lane l).region = none ∧ (s0.me.lane l).reserved = none) (by decide +kernel), by decide +kernel,
    by decide +kernel, by decide +kernel, by decide +kernel, ⟨63, by decide +kernel⟩, in_set (by decide +kernel), ⟨0, by decide +kernel⟩, s0_ready _ _ (by decide)⟩

/-- s0 with recovery levels open. -/
def withLevels (ls : List Level) : State := withT (fun t => { t with levels := ls })

theorem witness_RecoveryWords :
    s0.ready [80 + (30 : BitVec 5).toNat, 80 + (30 : BitVec 5).toNat + 1] [] ∧ (withLevels (List.replicate 5 {})).myTeam.levels.length < 6 ∧
    6 ≤ (withLevels (List.replicate 6 {})).myTeam.levels.length ∧ (withLevels [{}]).myTeam.levels ≠ [] ∧ s0.myTeam.levels = [] ∧
    (∀ l, inSet (withLevels [{}]).me.run.act l = true → ((withLevels [{}]).me.lane l).region = none) ∧ (withLevels [{}]).myTeam.levels = [] ++ [({} : Level)] ∧
    ({} : Level).conv = 0 ∧ (withLevels [{}]).myTeam.rollback = none :=
  ⟨s0_ready _ _ (by decide), by decide +kernel, by decide +kernel, by decide +kernel, by decide +kernel, in_set (by decide +kernel), by decide +kernel, rfl, by decide +kernel⟩

theorem witness_LevelsOpenAndPass :
    (s0.team 2).groups.Nodup ∧ ((withLevels [{}, { test := 5 }]).team 2).levels = [({} : Level)] ++ [{ test := 5 }] ∧
    ((withLevels [{}, { test := 5 }]).grid ((withLevels [{}, { test := 5 }]).team 2).grid).record.flags.toNat / 2 ^ 8 % 4 = 0 ∧ [({} : Level)].getLast? = some {} := by
  decide +kernel

/-- A conversation object of 16 teams at virtual address 0, and a partition with room for one; joined or not. -/
def convBytes : List (BitVec 8) := leBytes 4 16 ++ leBytes 60 0
def convS (j : Bool) : State :=
  { blkS convBytes with parts := [(0, { root := 0x1000, partcfg := 0x80000000 })], convs := if j then [(convKey 0 .global 0x10000, { part := 0, teams := 16, members := [2] })] else [] }
theorem full_convS : Full (convS false) := by unfold Full; decide +kernel

theorem witness_ConversationWords :
    let s := convS false
    (∀ l, l < 64 → inSet s.me.run.act l = true → (s.me.lane l).region = none) ∧
    s.me.fences = [] ∧ isBlock s (s.me.sPair 2).toNat 64 64 convBytes = true ∧ (s.afterBlock 0 64).target s.me.cluster 0 .read (s.me.sPair 2).toNat = .ok .global 0x10000 ∧ fieldAt convBytes 0 4 = 16 ∧
    (∀ x ∈ convBytes.drop 4, x.toNat = 0) ∧
    FMap.look s.convs (convKey 0 .global 0x10000) = none ∧ (s.convs.filter (fun c => c.2.part == 0)).length < (s.part 0).partcfg.toNat / 2 ^ 31 % 2 ^ 10 ∧ s.myTeam.levels = [] ∧
    (FMap.look (convS true).convs (convKey 0 .global 0x10000)).isSome = true := by decide +kernel
theorem witness_ConversationOperands : (convS false).ready [80 + (2 : BitVec 5).toNat, 80 + (2 : BitVec 5).toNat + 1] [] := full_ready full_convS _ _ (by decide)

/-! ### Hypotheses met: exceptions, runs, accesses, commands -/

/-- s0 under a handler at 0x100, its group changed. -/
def hS (f : Group → Group) : State := (s0.onGrid 1 (fun g => { g with record := { g.record with handler := 0x100 } })).onMe f

theorem witness_TrapAndReturn :
    let h (c : Word) (r : Option ResumePt) (cond : LaneCond) : State := hS (fun g => { g.mapLanes (BitVec.allOnes 64) (fun _ n => { n with cond := cond }) with
      handler := true, run := { g.run with handler := true }, trap := { cause := c, lanes := BitVec.allOnes 64 }, trapAt := r })
    let back (s : State) (l : Nat) : Bool := inSet s.me.trap.lanes l && decide ((s.me.lane l).vpc = s.me.trap.pc ∧ ((s.me.lane l).cond = .parked .deferred ∨ (s.me.lane l).cond = .parked .split))
    let r (i : Nat) : ResumePt := { hdr := 0, idx := i, act := BitVec.allOnes 64, wait := .ready, start := i == 0 }
    (hS id).me.handler = false ∧ ((hS id).gridOf (hS id).me).record.handler ≠ 0xFFFFFFFF ∧ (h 0 none .live).me.run.handler = true ∧
    (h 0 none .live).me.trap.cause.getLsbD 8 = false ∧ (h 0 none .live).me.trapAt = none ∧
    (let s := h 0 (some (r 1)) .live; s.me.trapAt = some (r 1) ∧ s.me.issueAddr = some (r 1).hdr ∧ s.me.lanesAt 0 = (r 1).act) ∧
    (h 0 (some (r 0)) .live).me.trapAt = some (r 0) ∧ (h 0x100 none .live).me.trap.cause.getLsbD 8 = true ∧
    (∃ l, l < 64 ∧ back (h 0x100 none (.parked .deferred)) l = true) ∧ (∀ l, l < 64 → back (h 0x100 none .live) l = false) ∧ s0.me.run.handler = false :=
  ⟨by decide +kernel, by decide +kernel, by decide +kernel, by decide +kernel, by decide +kernel, by decide +kernel, by decide +kernel, by decide +kernel,
    ⟨63, by decide +kernel⟩, by decide +kernel, by decide +kernel⟩

/-- A fault of an absent page, answered. -/
def fault0 (ok : Bool) : Deferred :=
  { code := 0x31, detail := 0, hdr := 0, word := 0, lanes := BitVec.allOnes 64, addr := 0x10000, pages := [(0, 1)], age := 1, answers := [(1, ok)], regs := [] }
/-- Its group at a run boundary, with or without a handler. -/
def faultS (h ok : Bool) : State :=
  (if h then hS id else s0).onMe (fun g => { g.mapLanes (BitVec.allOnes 64) (fun _ n => { n with cond := .parked .deferred }) with run := {}, deferred := [fault0 ok] })

theorem witness_TakingAnException :
    let x : Trap := { code := 0x30, detail := 0, hdr := 0, word := 0, lanes := 1 }
    let soft : Trap := { x with code := 0x0E }
    let exit (x : Trap) : Prop := x.code ∈ [0x19, 0x1A, 0x1B, 0x3B, 0x71, 0x93, 0x94, 0xA3, 0xA4, 0xB0, 0xB1, 0xB2]
    let excepted (x : Trap) : Prop := x.code = 0x0E ∨ x.code = 0x31 ∨ x.code = 0x35 ∨ x.code = 0xA0 ∨ x.code = 0xA1 ∨ x.code = 0xA2
    let lv := withLevels [{}]
    let busy := hS (fun g => { g with handler := true })
    (s0.team (s0.group 3).team).levels = [] ∧ ((hS id).group 3).handler = false ∧ ((hS id).grid ((hS id).team ((hS id).group 3).team).grid).record.handler ≠ 0xFFFFFFFF ∧
    s0.openSlots = [] ∧ (s0.group 3).contained = none ∧ (busy.group 3).handler = true ∧ busy.openSlots = [] ∧ (s0.grid (s0.team (s0.group 3).team).grid).record.handler = 0xFFFFFFFF ∧
    (lv.team (lv.group 3).team).levels = [] ++ [({} : Level)] ∧ (lv.team (lv.group 3).team).rollback = none ∧ ¬ excepted x ∧ excepted soft ∧ ¬ exit x ∧ ¬ exit soft := by decide +kernel
theorem witness_DeferredTrap : (∀ h ok : Bool, let s := faultS h ok
      let g := s.group 3
      g.resident = true ∧ g.retired = false ∧ g.contained = none ∧ g.handler = false ∧ g.trapPending = false ∧ g.run.active = false ∧ g.isHalted = false ∧
      (s.team g.team).rollback = none ∧ (s.team g.team).preempt = .no ∧ s.nextFault 3 = some (fault0 ok)) ∧
    (∀ ok, (fault0 ok).code ∉ [0x19, 0x1A, 0x1B, 0x3B, 0x71, 0x93, 0x94, 0xA3, 0xA4, 0xB0, 0xB1, 0xB2] ∧ (fault0 ok).regs = []) ∧
    ((faultS true true).onTeam 2 (fun t => { t with preempt := .drain 7 })).nextFault 3 = some (fault0 true) ∧
    (faultS false true).openSlots = [] ∧
    ((faultS true false).gridOf ((faultS true false).group 3)).record.handler ≠ 0xFFFFFFFF ∧ ((faultS true false).team ((faultS true false).group 3).team).levels = [] ∧
    ((faultS false true).gridOf ((faultS false true).group 3)).record.handler = 0xFFFFFFFF ∧ (fault0 true).granted = true ∧
    (((faultS false true).group 3).lane 63).vpc = (fault0 true).hdr ∧ (((faultS false true).group 3).lane 63).cond = .parked .deferred := by decide +kernel

theorem witness_RunStart :
    let idle := withRun (fun _ => {})
    let pend (m : LaneSet) := hS (fun g => { g with run := {}, trapPending := true, trap := { lanes := m } })
    s0.sliceBusy 0 0 = true ∧ idle.sliceBusy 0 0 = false ∧ idle.nextGroup 0 0 = some 3 ∧
    (∀ m ∈ [(0 : Nat), 2 ^ 63], (pend (BitVec.ofNat 64 m)).sliceBusy 0 0 = false ∧ (pend (BitVec.ofNat 64 m)).nextGroup 0 0 = some 3 ∧ ((pend (BitVec.ofNat 64 m)).group 3).trapPending = true) ∧
    ((pend 0).group 3).trap.lanes = 0 ∧ (((pend 0).group 3).lane 0).counts = true ∧ inSet ((pend 0x8000000000000000).group 3).trap.lanes 63 = true ∧
    (∀ l, l < 63 → inSet ((pend 0x8000000000000000).group 3).trap.lanes l = false) ∧
    (idle.group 3).trapPending = false ∧ (idle.group 3).handler = false ∧ (idle.group 3).resumes = [] ∧ (idle.group 3).gatherings = [] ∧ (idle.group 3).loops = [] ∧
    (idle.group 3).issue = .ready ∧ (idle.group 3).runCount < 64 ∧ (∀ l, l < 64 → ((idle.group 3).lane l).cond = .live → ((idle.group 3).lane l).aborting = false) ∧
    (idle.group 3).issueAddr = some 0 := by decide +kernel
/-- The running handler; a resume point whose wait is over; a gathering that is ready; no group to run. -/
theorem witness_RunStartElsewhere :
    let free (s : State) : Prop := s.sliceBusy 0 0 = false ∧ s.nextGroup 0 0 = some 3 ∧ (s.group 3).trapPending = false ∧ (s.group 3).loops = [] ∧ (s.group 3).issue = .ready ∧
      (∀ l, l < 64 → ((s.group 3).lane l).cond = .live → ((s.group 3).lane l).aborting = false)
    let h := hS (fun g => { g with run := {}, handler := true, hpc := 0x100 })
    let p : ResumePt := { hdr := 0, idx := 2, act := 0xF0, wait := .ready }
    let r := withG (fun g => { g with run := {}, resumes := [p] })
    let w : Gathering := ⟨5, 1, 0xFF, 0xFF⟩
    let q := (withLanes (fun l n => if l < 8 then { n with cond := .parked .convergence, place := .gathering 5 1 } else n)).onMe (fun g => { g with run := {}, gatherings := [w] })
    let none_ := withG (fun g => { g with run := {}, issue := .pred })
    free h ∧ (h.group 3).handler = true ∧ ((h.group 3).lane 0).counts = true ∧ (h.group 3).trap.lanes = 0 ∧
    free r ∧ (r.group 3).handler = false ∧ (r.group 3).gatherings = [] ∧ (r.group 3).pageHeld = false ∧ (r.group 3).runCount < 64 ∧ (r.group 3).resumes.find? (fun x => r.waitOver 3 x.wait) = some p ∧
    Sys2Proof.Machine.setOf (fun l => inSet p.act l && ((r.group 3).lane l).isLive && ((r.group 3).lane l).vpc == p.hdr) ≠ 0 ∧
    free q ∧ (q.group 3).handler = false ∧ (q.group 3).resumes = [] ∧ (∀ v ∈ (q.group 3).gatherings, v.arrived ≠ 0) ∧ (q.group 3).readyGathering = some w ∧
    ({ none_ with grids := [(1, { record := rec0, next := 1, live := [2], pred := some 7 }), (7, {})] } : State).nextGroup 0 0 = none := by decide +kernel

/-- An access of one word of lane 63 under way, at its place in some space. -/
def acc0 (k : AccKind) (dest : Option Nat) (sp : Space) (n : Nat) : Access :=
  { kind := k, group := 3, cluster := 0, team := 2, order := 0, scope := 0, dest := dest, nregs := if dest.isSome then 1 else 0
    parts := [{ lane := 63, space := sp, addr := 0x10000, len := n, data := [1, 2, 3, 4] }] }
/-- The access at number 1. -/
def accS (a : Access) : State := { s0 with accesses := [(1, a)] }

theorem performs_acc0 (k : AccKind) (dest : Option Nat) (sp : Space) (h : sp = .global ∨ sp = .scratch ∨ sp = .host)
    (hr : (accS (acc0 k dest sp 4)).partReady 1 (acc0 k dest sp 4) { lane := 63, space := sp, addr := 0x10000, len := 4, data := [1, 2, 3, 4] } = true) :
    (accS (acc0 k dest sp 4)).Performs 1 (acc0 k dest sp 4) { lane := 63, space := sp, addr := 0x10000, len := 4, data := [1, 2, 3, 4] } where
  listed := rfl
  parts := rfl
  pending := ⟨rfl, rfl, hr⟩
  team := by show (s0.group 3).team = 2; decide +kernel
  levels := by show (s0.team 2).levels = []; decide +kernel
  log := by show (s0.grid (s0.team 2).grid).record.flags.toNat / 2 ^ 8 % 4 = 0; decide +kernel
  lane := by show ((s0.group 3).lane 63).region = none; decide +kernel
  global := fun _ w _ => rfl
  scratch := fun _ => ⟨Nat.zero_le _, fun w _ => ⟨rfl, rfl⟩⟩
  dram := fun _ _ _ _ => ⟨rfl, rfl⟩
  settled := fun _ _ _ _ => rfl
  fabric := fun e => by rcases h with h | h | h <;> rw [h] at e <;> cases e

theorem witness_AccessesEnd :
    (∀ sp ∈ [Space.global, .scratch, .host], ∀ p ∈ [(AccKind.load, some 71), (.load, some 111), (.store, none), (.atomic 0x16, none), (.atomic 0x21, some 4)],
      (accS (acc0 p.1 p.2 sp 4)).partReady 1 (acc0 p.1 p.2 sp 4) { lane := 63, space := sp, addr := 0x10000, len := 4, data := [1, 2, 3, 4] } = true) ∧
    (s0.cluster 0).stale = [] ∧
    (let a := acc0 .store none .global 4
     (accS a).mayEnter 1 a { lane := 63, space := .global, addr := 0x10000, len := 4, data := [1, 2, 3, 4] } = true) := by decide +kernel

/-- A command at number 1: fresh from issue, or started. -/
def cmdS (c : Command) (f : Cluster → Cluster) : State :=
  ({ s0 with commands := [(1, c)], objects := [(31, { part := 0, first := 0, lines := [0], holder := some 0 })] }.onCluster 0 f).onMe (fun g => { g with ec := [(7, 1)] })
/-- ACCZERO of the whole store of engine 1. -/
def zero1 (started : Bool) : Command :=
  { unit := 1, op := 1, cluster := 0, part := 0, team := 2, group := 3, hdr := 0, ec := 7, operand := 0xFFFF0000, eng := 1, started := started }

theorem witness_CommandsStartAndComplete :
    let s := cmdS (zero1 false) id
    let t := cmdS (zero1 true) id
    FMap.look s.commands 1 = some (zero1 false) ∧ s.canStart 1 (zero1 false) = true ∧ (zero1 false).listLoc = [] ∧ FMap.look t.commands 1 = some (zero1 true) ∧
    t.canComplete 1 (zero1 true) = true ∧ (zero1 true).op ≠ 0x19 ∧ (zero1 true).status = 0 ∧ (zero1 true).operand.toNat / 2 ^ 24 % 256 = 255 := by decide +kernel
/-- What an object command does needs no rectangle. -/
theorem witness_CommandCompletes :
    let c : Command := { zero1 true with unit := 4, op := 0x0C, operand := 31, objs := [31] }
    let t := cmdS c id
    t.canComplete 1 c = true ∧ (c.perform t).fault.isNone = true ∧ ((c.perform t).s.group c.group).counter c.ec ≠ 0 ∧ c.status = 0 := by decide +kernel

/-! ### Hypotheses met: events -/

/-- A map whose only key is c lists nothing for another. -/
theorem look_other {α : Type} {c : Nat} (k : Nat) (hk : k ≠ c) : ∀ m : FMap α, m.all (fun p => decide (p.1 = c)) = true → FMap.look m k = none := by
  intro m
  induction m with
  | nil => intro _; rfl
  | cons p m ih =>
    intro h
    simp only [List.all_cons, Bool.and_eq_true, decide_eq_true_eq] at h
    unfold FMap.look
    rw [if_neg (by omega), ih h.2]
theorem all_groups {s : State} (h : s.groups.all (fun p => decide (p.1 = 3)) = true) {P : Group → Prop} (h1 : P (s.group 3)) (h2 : P {}) (k : Nat) : P (s.group k) := by
  by_cases hk : k = 3
  · rw [hk]; exact h1
  · have e : s.group k = {} := by unfold State.group FMap.at; rw [look_other k hk _ h]; rfl
    rw [e]; exact h2
theorem all_teams {s : State} (h : s.teams.all (fun p => decide (p.1 = 2)) = true) {P : Team → Prop} (h1 : P (s.team 2)) (h2 : P {}) (k : Nat) : P (s.team k) := by
  by_cases hk : k = 2
  · rw [hk]; exact h1
  · have e : s.team k = {} := by unfold State.team FMap.at; rw [look_other k hk _ h]; rfl
    rw [e]; exact h2

theorem witness_TranslationEvents :
    let t : State := { s0 with mem := Mem.writeBytes s0.mem 0x1000 [3] }
    let p : State := { s0 with pages := [{ part := 0, page := 1, sent := false, cause := 0x35 }], parts := [(0, { root := 0x1000, pfq := { size := 2 } })] }
    let i (v : DWord) : State := { s0 with parts := [(0, { root := 0x1000, tlbinvn := v })] }
    s0.translate 0 0 (0 % 2 ^ 40 * 2 ^ 16) = .leaf 0x1000F 3 ∧ s0.target 0 0 .read (0 % 2 ^ 40 * 2 ^ 16) = .ok .global 0x10000 ∧ (s0.cluster 0).tlb.length < 256 ∧
    (s0.die (dieOf 0)).tlb.length < 32768 ∧ (∀ r ∈ s0.pages, r.part = 0 → r.sent = true) ∧ t.translate 0 0 0 = .bad 0x32 0 true ∧
    s0.target 0 0 .read (1 % 2 ^ 40 * 2 ^ 16) = .bad 0x32 none ∧ s0.tableError 0 0 (1 % 2 ^ 40 * 2 ^ 16) = false ∧
    p.translate 0 0 (1 % 2 ^ 40 * 2 ^ 16) = .bad 0x32 3 false ∧ (p.part 0).pfq.full = false ∧ (i 0x2000000).tlbQuiet 0 = true ∧
    (((i 0x2000000).part 0).tlbinvn.getLsbD 25 = true ∧ ((i 0).part 0).tlbinvn.getLsbD 25 = false) ∧
    { i 0x2000001 with accesses := [(0, acc0 .load (some 4) .global 4)], parts := [(0, { root := 0x1000, tlbinvn := 0x2000001, tlbUpto := 1 })] }.tlbQuiet 0 = false := by
  decide +kernel
/-- The scalar word at a resume point, or one of the running handler, waits for page 1. -/
theorem witness_PageAnswers :
    let r : ResumePt := { hdr := 0, idx := 0, act := BitVec.allOnes 64, wait := .page 1 0x10000 0x10B none }
    let w := hS (fun g => { g with run := {}, resumes := [r] })
    let n := withG (fun g => { g with run := {}, resumes := [r] })
    let h := hS (fun g => { g with run := {}, handler := true, hwait := .page 1 0x10000 0x10B none })
    (∀ s ∈ [w, n], (s.group 3).deferred = [] ∧ (s.group 3).trapPending = false ∧ (s.group 3).run.active = false ∧ (s.group 3).contained = none ∧
      (s.group 3).isHalted = false ∧ ((s.group 3).lane 63).counts = true ∧ (s.group 3).handler = false ∧ (s.group 3).hwait = .ready ∧ (s.group 3).resumes = [r]) ∧
    (w.gridOf (w.group 3)).record.handler ≠ 0xFFFFFFFF ∧ (n.gridOf (n.group 3)).record.handler = 0xFFFFFFFF ∧
    (h.group 3).handler = true ∧ (h.group 3).resumes = [] ∧ (h.group 3).hwait = .page 1 0x10000 0x10B none ∧ (h.group 3).run.active = false := by decide +kernel
theorem witness_PfansWrite :
    (FMap.keys s0.groups).Nodup ∧ (∀ k, (s0.group k).resumes = [] ∧ (s0.group k).hwait = .ready ∧ ∀ d ∈ (s0.group k).deferred, d.quiet = false) ∧ (∀ t, (s0.team t).recArrivals = []) ∧
    ∀ r ∈ s0.pages, r.part = 0 → r.page = 1 ∨ r.sent = true :=
  ⟨by decide +kernel, all_groups (P := fun g => g.resumes = [] ∧ g.hwait = .ready ∧ ∀ d ∈ g.deferred, d.quiet = false) (by decide +kernel) (by decide +kernel) (by decide +kernel),
    all_teams (P := fun t => t.recArrivals = []) (by decide +kernel) (by decide +kernel) rfl, by decide +kernel⟩

theorem witness_TokenAndCacheEvents :
    let o (r : List Nat) (h : Option Nat) : Obj := { part := 0, first := 0x200, lines := [0x200], holder := h, requests := r }
    let s (r : List Nat) (h : Option Nat) : State := { accS (acc0 .store none .global 4) with objects := [(5, o r h)] }
    FMap.look (s [] none).objects 5 = some (o [] none) ∧ (s [] none).needsToken 0 0 5 = true ∧ (s [] none).needsToken 1 0 5 = false ∧ (0 : Nat) ∉ (o [] none).requests ∧
    (0 : Nat) ∈ (o [0] none).requests ∧ (s [0, 1] none).grantable 5 (o [0, 1] none) = true ∧ (s [0, 1] (some 7)).grantable 5 (o [0, 1] (some 7)) = true ∧
    (s [160, 1] (some 7)).grantable 5 (o [160, 1] (some 7)) = true ∧ (s [160] none).grantable 5 (o [160] none) = true ∧ (s [] none).grantable 5 (o [] none) = false := by
  decide +kernel
/-- Line 0x200 has been used eight times in a row, with forwards of its home slice; slice 0 holds line 0x300 in its highest pair. -/
theorem witness_Migration :
    let m (fs : List (Nat × Nat)) : State := { s0 with llc := [(homeOf 0x200, { lastUse := [(0x200, (0, 8))], forwards := fs })] }
    let w (ways n : Nat) : State := { s0 with llc := [(0, { ways := ways, lines := [(16 * llcSet 0x300 + 15, (0x300, 0))], missed := List.replicate n 1 })] }
    let lv : State := { (w 16 0) with teams := [(2, { grid := 1, levels := [{ lines := [(0x300, ([], []))] }] })] }
    (∀ fs ∈ [[], [(0x200, 47)], [(1, 2)]], (m fs).pinned 0x200 = false ∧ 8 ≤ (FMap.at (0, 0) ((m fs).slice (homeOf 0x200)).lastUse 0x200).2) ∧
    homeOf 0x200 ≠ 46 ∧ 46 ≠ (m [(0x200, 47)]).holdOf 0x200 ∧ homeOf 0x200 ≠ (m [(0x200, 47)]).holdOf 0x200 ∧ (m []).pinned 1 = false ∧
    16384 ≤ (List.replicate 16384 (1, 2)).length ∧
    6 ≤ ((w 16 0).slice 0).ways ∧ ((w 16 0).slice 0).topPair = [0x300] ∧ (∀ ln ∈ ((w 16 0).slice 0).topPair, (w 16 0).pinned ln = false) ∧
    (lv.slice 0).topPair = [0x300] ∧ lv.pinned 0x300 = true ∧ ((w 4 0).slice 0).ways < 6 ∧ 14 < ((w 16 0).slice 0).ways ∧ ((w 14 0).slice 0).ways ≤ 14 ∧
    8 * ((w 14 0).slice 0).missed.length ≤ 65536 := by decide +kernel
theorem witness_WayPairEnable (x : LlcSlice) : let y := { x with ways := 14, missed := List.replicate 8193 1 }
    ({ s0 with llc := [(0, y)] } : State).slice 0 = y ∧ y.ways ≤ 14 ∧ 65536 < 8 * y.missed.length := ⟨rfl, Nat.le_refl _, by show 65536 < 8 * (List.replicate 8193 1).length; rw [List.length_replicate]; decide⟩

/-- A region in slot 4095 of die 0, lane 5 of the group in it, in some phase. -/
def regS (phase since : Nat) (inval : Bool) : State :=
  { ((s0.onDie 0 (fun d => { d with slots := [(4095, { phase := phase, group := 3, lane := 5, inval := inval, since := since })] })).onGroup 3
      (fun g => g.onLane 5 (fun n => { n with region := if phase = 2 then some 4095 else none, reserved := if phase = 5 then some 4095 else none }))) with time := 840 * 2 ^ 20 }

theorem witness_BarrierRegionAndRecoveryEvents :
    let g := withGrid (fun g => { g with releases := [(0, 0), (1, 0)] })
    (0, 0) ∈ (g.grid 1).releases ∧ 0 ≤ g.tick ∧ (g.grid 1).record.flags.toNat / 2 ^ 8 % 4 = 0 ∧
    (∀ i : Bool, ((regS 2 0 i).slot (0 * 4096 + 4095)).phase = 2 ∧ ((regS 2 0 i).slot 4095).preds = [] ∧ (regS 2 0 i).farDone 3 (oneLane 5) (regS 2 0 i).fresh = true ∧
      (regS 2 0 i).l1Drained ((regS 2 0 i).group 3).cluster = true ∧ (regS 1 0 i).canCommit 4095 = false ∧
      ((regS 2 0 i).team ((regS 2 0 i).group 3).team).levels = [] ∧ ((regS 2 0 i).slot 4095).inval = i) ∧
    (let s := regS 5 0 false
     (s.slot 4095).phase = 5 ∧ ((s.group 3).lane 5).reserved = some 4095 ∧ ¬ (((s.group 3).lane 5).place = .slotWait ∧ ((s.group 3).lane 5).isParked = true) ∧
      (s.slot 4095).since + 2 ^ 20 ≤ s.tick) := by decide +kernel
/-- The region of lane 5 has written into line 0x200, which is tentative at a level of another team, or of none. -/
theorem witness_ForeignLine :
    let s (ls : List Level) : State :=
      let u := (regS 2 0 false).onDie 0 (fun d => { d with slots := d.slots.map (fun p => (p.1, { p.2 with bytes := [(0x10020, 7)] })) })
      { u with teams := u.teams ++ [(9, { grid := 1, levels := ls })] }
    ((s []).slot 4095).bytes = [(0x10020, 7)] ∧ (s []).foreignLine ((s []).group 3).team (0x10020 / 128) = false ∧
    ((s [{ lines := [(0x200, ([], []))] }]).slot 4095).bytes = [(0x10020, 7)] ∧
    (s [{ lines := [(0x200, ([], []))] }]).foreignLine ((s [{ lines := [(0x200, ([], []))] }]).group 3).team (0x10020 / 128) = true := by decide +kernel
theorem witness_UndoAreaLost : let s := withLevels [{}, {}]
    (s.team 2).levels.getLast? = some ({} : Level) ∧ ({} : Level).conv = 0 ∧ s.openSlots = [] ∧ (s.grid (s.team 2).grid).record.flags.toNat / 2 ^ 8 % 4 = 0 := by decide +kernel

theorem witness_TickLimit :
    let s := withLevels [{ ticks := 9, used := 8 }, { ticks := 5, used := 5 }]
    (s.team 2).rollback = none ∧ (s.team 2).levels.getLast? = some { ticks := 5, used := 5 } ∧ (s.team 2).levels[1]? = some { ticks := 5, used := 5 } ∧ s.openSlots = [] ∧
    ∀ (j : Nat) (x : Level), j < 1 → (s.team 2).levels[j]? = some x → x.ticks = 0 ∨ x.used < x.ticks := by
  refine ⟨by decide +kernel, by decide +kernel, by decide +kernel, by decide +kernel, fun j x hj h => ?_⟩
  obtain rfl : j = 0 := by omega
  have e : ((withLevels [{ ticks := 9, used := 8 }, { ticks := 5, used := 5 }]).team 2).levels[0]? = some { ticks := 9, used := 8 } := by decide +kernel
  rw [e] at h
  cases h; right; decide

/-- A level with so many alternates used of one, and lines logged; a rollback of the innermost level has begun. -/
def lv1 (routine : Nat) : Level := { routine := routine, nalt := 1, alts := [7], lines := [(0x200, (List.replicate 128 1, []))] }
def rollS (ls : List Level) : State :=
  (withT (fun t => { t with levels := ls, rollback := some { level := ls.length, last := 0x63 } })).onMe (fun g => { g with run := {} })

theorem witness_Rollback :
    let ok (ls below : List Level) (lv : Level) : Prop := (rollS ls).canRollback 2 = true ∧ ((rollS ls).team 2).levels = below ++ [lv] ∧ lv.conv = 0 ∧
      ((rollS ls).team 2).rollback = some { level := below.length + 1, last := 0x63 } ∧ (rollS ls).openSlots = [] ∧ ((rollS ls).team 2).groups = [3] ∧
      ((rollS ls).group 3).deferred = [] ∧ ((rollS ls).group 3).faultRegs = [] ∧ ((rollS ls).grid ((rollS ls).team 2).grid).record.flags.toNat / 2 ^ 8 % 4 = 0 ∧
      (FMap.keys lv.lines).Nodup ∧ (∀ p ∈ lv.lines, p.2.1.length = 128)
    ok [lv1 0] [] (lv1 0) ∧ (lv1 0).routine < (lv1 0).nalt ∧ ok [{}, lv1 1] [{}] (lv1 1) ∧ (lv1 1).nalt ≤ (lv1 1).routine ∧ ok [lv1 1] [] (lv1 1) ∧
    ((rollS [lv1 1]).team 2).convs = [] ∧ ((rollS [lv1 1]).group 3).team = 2 ∧ ((rollS [lv1 1]).group 3).retired = false ∧ ((rollS [lv1 1]).group 3).contained = none := by
  decide +kernel

/-! ### Hypotheses met: queues, admission, pre-emption -/

/-- Memory with bytes at virtual address 0 and virtual page 1 mapped to host memory at 0x10000. -/
def hostMap (bs : List (BitVec 8)) : Mem := Mem.writeBytes (Mem.writeBytes mem0 0x3108 (leBytes 8 0x1001F)) 0x10000 bs
/-- A queue of partition 0 with one record to read. -/
def queueS (b : List (BitVec 8)) : State := { s0 with mem := hostMap b, queues := [(31, { ctl := 0x80, tail := 1 })] }
/-- An invalid record that asks for a completion word at an address. -/
def badRec (done : Nat) : List (BitVec 8) := leBytes 96 0 ++ leBytes 8 done ++ leBytes 24 0

theorem witness_QueuesAndEndsOfGroups :
    let read (b : List (BitVec 8)) : Prop :=
      let s := queueS b
      let x := FMap.at ({} : HostQueue) s.queues 31
      x.ctl.getLsbD 7 = true ∧ x.head ≠ x.tail ∧ x.lastGrid = none ∧ s.hostStyleRead 0 ((x.base.toNat / 128 * 128 + 128 * (x.head % 2 ^ (x.ctl.toNat % 16))) % 2 ^ 64) 128 = some b
    read (recBytes 0) ∧ recordFault (parseRecord (recBytes 0)) ((queueS []).partClusters 0).length = none ∧
    read (badRec 0) ∧ recordFault (parseRecord (badRec 0)) 1 = some 8 ∧ (parseRecord (badRec 0)).done = 0 ∧
    read (badRec 0x10000) ∧ (parseRecord (badRec 0x10000)).done = 0x10000 ∧ (queueS []).target 0 0 .write 0x10000 = .ok .host 0x10000 := by decide +kernel
/-- The page of a queue's records is mapped nowhere, and by a broken table. -/
theorem witness_QueueUnreadable : let s (bad : Bool) : State :=
      { queueS [] with mem := if bad then Mem.writeBytes mem0 0x1000 [3] else mem0, queues := [(31, { ctl := 0x80, tail := 1, base := if bad then 0 else 0x10000 })] }
    let x (s : State) : HostQueue := FMap.at {} s.queues 31
    ∀ b : Bool, (x (s b)).ctl.getLsbD 7 = true ∧ (x (s b)).head ≠ (x (s b)).tail ∧ (x (s b)).lastGrid = none ∧
      (s b).hostStyleRead 0 (((x (s b)).base.toNat / 128 * 128 + 128 * ((x (s b)).head % 2 ^ ((x (s b)).ctl.toNat % 16))) % 2 ^ 64) 128 = none ∧
      (s b).tableError 0 0 (if b then 0 else 0x10000) = b := by intro s x b; revert b; decide +kernel

theorem witness_ChildRing :
    let s (q : List Nat) : State :=
      { (((queueS (recBytes 0)).onGrid 1 (fun g => { g with ringIds := [7], record := { g.record with ringCap := 1 } })).onDie 0 (fun d => { d with childQueues := [(0, q)] })) with queues := [] }
    ((s []).grid 1).ringIds = [7] ∧ (s []).hostStyleRead 0 0 128 = some (recBytes 0) ∧ recordFault (parseRecord (recBytes 0)) ((s []).partClusters 0).length = none ∧
    (s []).hostStyleRead 0 0x20000 128 = none ∧
    (FMap.at [] ((s []).die ((s []).grid 7).die).childQueues 0).length < 32 ∧ 32 ≤ (FMap.at [] ((s (List.replicate 32 9)).die 0).childQueues 0).length := by decide +kernel
theorem witness_EndsOfGroups :
    let r := withG (fun g => { g.mapLanes (BitVec.allOnes 64) (fun _ n => { n with cond := .exited }) with run := {} })
    let e : Exit := { cause := 0x30, detail := 0, lanes := 64, defer := false, ord := 0xFFFFFFFF, pc := 0 }
    let x (area : Nat) : State := { ((withG (fun g => { g with contained := some e })).onGrid 1 (fun g => { g with record := { g.record with exitArea := area, exitCap := 1 } })) with mem := hostMap [] }
    r.canRetire 3 = true ∧ (∀ n ∈ (r.team 2).groups, n = 3) ∧ ((x 0).group 3).contained = some e ∧ (x 0).accesses = [] ∧ (x 0).producers = [] ∧ e.dump = false ∧ ((x 0).cluster 0).frozen = none ∧
    ((x 0).grid ((x 0).team ((x 0).group 3).team).grid).record.exitArea = 0 ∧
    (x 0x10000).target 0 0 .read 0x10000 = .ok .host 0x10000 ∧ (x 0x10000).target 0 0 .write 0x10000 = .ok .host 0x10000 ∧
    (let d := (x 0).onMe (fun g => { g with contained := some { e with dump := true } })
     let f (k : Nat) := d.onCluster 0 (fun c => { c with frozen := some 1, frozenGroup := k })
     (d.group 3).contained = some { e with dump := true } ∧ (d.cluster 0).frozen = none ∧ ((f 3).group 3).contained = some { e with dump := true } ∧
      ((f 3).cluster 0).frozen ≠ none ∧ ((f 3).cluster 0).frozenGroup = 3 ∧ ((f 8).cluster 0).frozenGroup ≠ 3) ∧
    leNat (Mem.readBytes (x 0x10000).hostMem 0x10000 8) < ((x 0x10000).grid 1).record.exitCap ∧ (x 0x10000).target 0 0 .write (0x10000 + 64 + 32 * 0) = .ok .host 0x10040 := by decide +kernel

/-- A grid with a team to place on cluster 0, and no team there. -/
def admS : State :=
  { s0 with teams := [], groups := [], grids := [(1, { record := rec0, readyAt := some 0, passed := some 0 })], time := 840 * 2 ^ 22 }
/-- Its one team saved in slot 0. -/
def savedS : State :=
  (((s0.onGrid 1 (fun g => { g with saved := [2], live := [2], readyAt := some 0 })).onTeam 2 (fun t => { t with place := .saved 0 0 }))).onGroup 3 (fun g => { g with resident := false, run := {} })

theorem some_of_map {α β : Type} {o : Option (α × β)} {f : α → Nat} {n : Nat} (h : o.map (fun p => f p.1) = some n) : ∃ c u, o = some (c, u) ∧ f c = n := by
  cases o with
  | none => cases h
  | some p => exact ⟨p.1, p.2, rfl, by simpa using h⟩
theorem witness_AdmissionAndRestore :
    (∃ c u, admS.choose = some (c, u) ∧ c.kind = 2) ∧ (∃ c u, savedS.choose = some (c, u) ∧ c.kind = 0) ∧ (∃ u, admS.admitOn 1 0 = some u) ∧ (admS.grid 1).again = [] ∧
    (savedS.team 2).place = .saved 0 0 ∧ (∃ u, savedS.restoreOn 2 0 = some u) ∧ savedS.poison = [] :=
  ⟨some_of_map (f := Cand.kind) (by decide +kernel), some_of_map (f := Cand.kind) (by decide +kernel), Option.isSome_iff_exists.1 (by decide +kernel), by decide +kernel,
    by decide +kernel, Option.isSome_iff_exists.1 (by decide +kernel), by decide +kernel⟩
/-- Nothing to admit. -/
theorem witness_NoCandidate : s0.choose.isSome = false ∧ s0.candidates = [] := by decide +kernel
theorem witness_ClearAndReserve :
    let c (time : Nat) : State := { (withT (fun t => { t with clearing := true, scrSize := 1280 })) with time := time }
    let free (x : Nat) : Nat := (admS.cluster x).budget - admS.clusterWeight x
    let may (x : Nat) : Bool := decide ((admS.grid 1).record.weight ≤ (admS.cluster x).budget) && (admS.cluster x).held.isNone
    ((c 8400).team 2).clearing = true ∧ ((c 8400).team 2).since + ((c 8400).team 2).scrSize / 128 ≤ (c 8400).tick ∧
    (c 8399).tick < ((c 8399).team 2).since + ((c 8399).team 2).scrSize / 128 ∧
    (∃ c ∈ admS.candidates, c.grid = 1 ∧ c.kind ≠ 0 ∧ (∀ d ∈ admS.candidates, d ≠ c → False)) ∧ (admS.grid 1).passed = some 0 ∧ 0 + 2 ^ 22 ≤ admS.tick ∧ (admS.part (admS.grid 1).part).reservation = none ∧ (admS.grid 1).record.flags.getLsbD 7 = false ∧
    admS.partClusters 0 = [0] ∧ may 0 = true ∧ (∀ x ∈ admS.partClusters 0, may x = true → free x < free 0 ∨ (free x = free 0 ∧ 0 ≤ x)) := by decide +kernel
theorem witness_HeldOut :
    let s : State := { (s0.onTeam 2 (fun t => { t with scrSize := 2 ^ 20 })).onGroup 3 (fun g => { g with run := {}, issue := .children [5] }) with
      grids := [(1, { record := rec0, next := 1, live := [2] }), (5, { record := { rec0 with shared := 2 ^ 20 }, parent := some 2, readyAt := some 0, qorder := some 1 })], time := 840 * 2 ^ 20 }
    let ts := sortBy (fun t => (s.team t).since) (s.residents.filter (fun t => s.suspended t Wait.isChildren && (s.team t).preempt == .no))
    let fits (m : Nat) : Bool := (s.without (ts.take m)).admits 0 0 (s.grid 5).record (s.grid 5).record.groups 5 0
    (∃ c ∈ s.candidates, c.grid = 5 ∧ c.kind = 1 ∧ c.since + 2 ^ 20 ≤ s.tick ∧ (∀ d ∈ s.candidates, d = c) ∧ s.heldOutFor c = some [2]) ∧
    (∀ t ∈ s.residents, (s.team t).preempt.saves = false) ∧ (s.grid 5).record.flags.getLsbD 7 = false ∧
    (s.grid 5).parent.isSome = true ∧ (s.grid 5).dispatched = false ∧ (s.grid 5).readyAt = some 0 ∧ 0 + 2 ^ 20 ≤ s.tick ∧ s.partClusters 0 = [0] ∧
    (∀ t ∈ ts, (s.team t).place = .resident 0) ∧ 1 ≤ ts.length ∧ fits 1 = true ∧ (∀ m, m < 1 → fits m = false) := by decide +kernel

/-- The team stopped between runs, under a pre-emption. -/
def preS (p : Preempt) (used : List Nat) (ls : List Level) : State :=
  { (withT (fun t => { t with preempt := p, levels := ls })).onMe (fun g => { g with run := {} }) with
    parts := [(0, { root := 0x1000, savebase := 0x0200000000000000, slotsUsed := used })] }

theorem witness_PreemptionEvents :
    s0.remaining 0 = [] ∧ (withT (fun t => { t with preempt := .save })).remaining 0 ≠ [] ∧
    (∀ t ∈ s0.residents, (s0.grid (s0.team t).grid).record.flags.getLsbD 7 = false) ∧ s0.residents = [2] ∧ s0.neverRan 2 = false ∧
    (let s := (preS .no [] []).onMe (fun g => { g with ran := false })
     s.residents = [2] ∧ (s.team 2).preempt = .no ∧ s.neverRan 2 = true ∧ s.remaining 0 = []) ∧
    (preS (.drain 0) [] []).tick = 0 ∧ (preS (.drain 1) [] []).tick < 1 ∧
    (let s := preS .save [0] []
     let v := s.abortStopped [2]
     s.teamHalted 2 = false ∧ v.canStop 2 = true ∧ (s.team 2).levels = [] ∧ (s.team 2).place = .resident 0 ∧ 1 ∉ (v.part 0).slotsUsed ∧
      1 < (v.part 0).savebase.toNat / 2 ^ 56 ∧ (∀ m, m < 1 → m ∈ (v.part 0).slotsUsed) ∧ (∀ k ∈ (s.team 2).groups, s.groupSlots k = [])) ∧
    (let s := preS .flush [] [{}, {}]
     (s.team 2).levels = [{}, {}] ∧ s.teamDrained 2 = true ∧ s.commands = [] ∧ (s.group 3).run.active = false ∧ s.teamHalted 2 = false ∧ s.openSlots = [] ∧ (s.team 2).groups = [3]) ∧
    (let v := (preS .restart [] []).abortStopped [2]
     (preS .restart [] []).teamHalted 2 = false ∧ v.canStop 2 = true ∧ (v.team 2).levels = []) := by decide +kernel
/-- A stopped team with a region open: once no run goes on the region aborts, and then the save may come. -/
theorem witness_StoppedRegion :
    let s := (preS .save [] []).onDie 0 (fun d => { d with slots := [(7, { phase := 1, group := 3, lane := 5 })] })
    let s := s.onGroup 3 (fun g => g.onLane 5 (fun n => { n with region := some 7 }))
    s.groupSlots 3 = [7] ∧ s.teamHalted 2 = false ∧ (s.abortStopped [2]).canStop 2 = true ∧ (s.abortStopped [2]).groupSlots 3 = [] := by decide +kernel
/-- A co-resident grid of one team, its barrier's release over or under way; a level open under a save. -/
theorem witness_PreemptionOfAGrid :
    let c (rs : List (Nat × Nat)) (p : Preempt) : State := (preS p [] []).onGrid 1 (fun g => { g with releases := rs, record := { g.record with flags := 0x80 } })
    let ran (rs : List (Nat × Nat)) : State := c rs .no
    let lv := preS .save [] [{}]
    (∀ rs ∈ [[], [(0, 9)]], (ran rs).remaining 0 = [] ∧ (ran rs).residents = [2] ∧ ((ran rs).part 0).goWait = none ∧
      (((ran rs).onPart 0 (fun p => { p with goWait := some 1, goTick := 5 })).part 0).goWait = some 1 ∧ ((ran rs).grid ((ran rs).team 2).grid).releases = rs ∧
      ((ran rs).grid ((ran rs).team 2).grid).record.flags.getLsbD 7 = true ∧ 2 ∈ ((ran rs).grid 1).live) ∧
    (ran []).neverRan 2 = false ∧
    (let s := c [] .restart
     let mates := (s.grid (s.team 2).grid).live.filter (fun t => (s.team t).place.onCluster)
     let w := s.abortStopped mates
     (s.team 2).preempt = .restart ∧ mates = [2] ∧ mates.Nodup ∧
      ∀ t ∈ mates, s.teamHalted t = false ∧ w.canStop t = true ∧ (w.team t).levels = [] ∧ (w.team t).grid = (s.team 2).grid) ∧
    (lv.team 2).preempt = .save ∧ (lv.team 2).levels = [{}] ∧ lv.teamDrained 2 = true ∧ (lv.group 3).run.active = false ∧ lv.teamHalted 2 = false ∧ lv.openSlots = [] := by
  decide +kernel

/-! ### Hypotheses met: ends, debug, power, the module -/

theorem witness_EndsFromOutside :
    let lv := withLevels [{}, { conv := 0 }]
    let w (ls : List Level) := (withT (fun t => { t with levels := ls, wdcount := 0x40000 * 2 ^ 16 }))
    s0.openSlots = [] ∧ (∃ tm, FMap.look s0.teams 2 = some tm ∧ ((∃ cl, tm.place = .resident cl) ∨ ∃ p n, tm.place = .saved p n)) ∧ (s0.team 2).groups = [3] ∧
    (s0.group 3).retired = false ∧ (s0.group 3).contained = none ∧ (s0.group 3).resident = true ∧
    lv.openSlots = [] ∧ (lv.team 2).levels.getLast? = some { conv := 0 } ∧ (lv.team 2).rollback = none ∧
    ((w []).part ((w []).grid ((w []).team 2).grid).part).wdlimit.toNat ≠ 0 ∧ (w []).charged 2 = true ∧
    ((w []).onMe (fun g => { g with halt := .stopped 0xA2 false })).charged 2 = false ∧
    ((w []).part ((w []).grid ((w []).team 2).grid).part).wdlimit.toNat * 2 ^ 16 ≤ ((w []).team 2).wdcount ∧ ((w []).team 2).levels = [] ∧
    (w [{}]).charged 2 = true ∧ ((w [{}]).part ((w [{}]).grid ((w [{}]).team 2).grid).part).wdlimit.toNat * 2 ^ 16 ≤ ((w [{}]).team 2).wdcount ∧
    ((w [{}]).team 2).levels.getLast? = some {} ∧ ((w [{}]).team 2).rollback = none :=
  ⟨by decide +kernel, ⟨_, rfl, .inl ⟨0, rfl⟩⟩, by decide +kernel, by decide +kernel, by decide +kernel, by decide +kernel, by decide +kernel⟩
theorem witness_NoLevels (t : Nat) : (s0.team t).levels = [] := all_teams (P := fun t => t.levels = []) (by decide +kernel) (by decide +kernel) rfl t

theorem witness_DebugEvents :
    let h (time : Nat) : State := { (withG (fun g => { g with run := {}, halt := .asked 0 false })) with time := time }
    let f : State := { s0.onCluster 0 (fun c => { c with frozen := some 0, frozenGroup := 3 }) with time := 840 * (30000 * 1500000) }
    let gs (ctl : DWord) (size time : Nat) : State := { s0 with module := { gsctl := ctl, gs := { base := 0x100000, size := size } }, time := time }
    (FMap.keys s0.groups).Nodup ∧ ((h 0).group 3).halt = .asked 0 false ∧ 0 + ((h (840 * 0x100000)).part ((h 0).partOf ((h 0).group 3))).haltlim.toNat ≤ (h (840 * 0x100000)).tick ∧
    ((h 0).group 3).resident = true ∧ ((h 0).group 3).retired = false ∧ ((h 0).group 3).contained = none ∧ ((h 0).group 3).handler = false ∧ ((h 0).group 3).trapPending = false ∧
    ((h 0).group 3).run.active = false ∧ ((h 0).cluster ((h 0).group 3).cluster).frozen = none ∧ (h 0).tick < 0 + ((h 0).part ((h 0).partOf ((h 0).group 3))).haltlim.toNat ∧
    (let p := (h (840 * 0x100000)).onMe (fun g => { g with trapPending := true, trap := { lanes := 0xC000000000000000 } })
     let q := (h 0).onMe (fun g => { g with handler := true, trap := { lanes := 0 } })
     let r := (h 0).onMe (fun g => { g with resumes := [{ hdr := 8, idx := 2, act := 0xF0, wait := .ready }] })
     (p.group 3).halt = .asked 0 false ∧ (p.group 3).handler = false ∧ (p.group 3).run.active = false ∧ (p.group 3).trapPending = true ∧
      inSet (p.group 3).trap.lanes 62 = true ∧ (∀ l, l < 62 → inSet (p.group 3).trap.lanes l = false) ∧
      (q.group 3).trapPending = false ∧ (q.group 3).handler = true ∧ (q.group 3).trap.lanes = 0 ∧ ((q.group 3).lane 0).counts = true ∧
      (r.group 3).trapPending = false ∧ (r.group 3).handler = false ∧ ∃ x rest, (r.group 3).resumes = x :: rest) ∧
    f.frozenOf 0 ≠ [] ∧ (f.cluster 0).frozen = some 0 ∧ (f.cluster 0).attached = false ∧ (f.part (f.cluster 0).part).dumpHold ≠ 0 ∧
    0 + (f.part (f.cluster 0).part).dumpHold * 1500000 ≤ f.tick ∧ (f.team (f.group (f.cluster 0).frozenGroup).team).levels = [] ∧ f.openSlots = [] ∧
    (gs 0 4 0).module.gsctl.getLsbD 0 = false ∧ (gs 33 4 0).tick / 2 ^ 16 * 2 ^ 16 ≤ (gs 33 4 0).module.gsLast ∧
    (let s := gs 33 4 (840 * 2 ^ 16); s.module.gsctl.getLsbD 0 = true ∧ s.module.gsctl.toNat / 2 % 2 ^ 5 = 16 ∧ s.module.gsLast < s.tick / 2 ^ 16 * 2 ^ 16 ∧ s.module.gs.full = false) ∧
    (gs 33 1 (840 * 2 ^ 16)).module.gs.full = true := by
  refine ⟨by decide +kernel, by decide +kernel, by decide +kernel, by decide +kernel, by decide +kernel, by decide +kernel, by decide +kernel, by decide +kernel,
    by decide +kernel, by decide +kernel, by decide +kernel, ?_, by decide +kernel⟩
  refine ⟨by decide +kernel, by decide +kernel, by decide +kernel, by decide +kernel, by decide +kernel, by decide +kernel, by decide +kernel, by decide +kernel,
    by decide +kernel, by decide +kernel, by decide +kernel, by decide +kernel, ⟨_, _, rfl⟩⟩
/-- No answer of a page stands for a stopped group. -/
theorem witness_Unanswered (k : Nat) : (s0.group k).resumes = [] ∧ (s0.group k).hwait = .ready :=
  all_groups (P := fun g => g.resumes = [] ∧ g.hwait = .ready) (by decide +kernel) (by decide +kernel) (by decide +kernel) k

theorem witness_PowerEvents :
    let sl (x : Slice) (time : Nat) : State := { s0.onCluster 159 (fun c => { c with slices := [(5, x)] }) with time := time }
    let x (s : State) : Slice := (s.cluster 159).slice 5
    ({ s0 with time := 840 * 2 ^ 16 } : State).module.ctlLast + 2 ^ 16 ≤ ({ s0 with time := 840 * 2 ^ 16 } : State).tick ∧ s0.tick < s0.module.ctlLast + 2 ^ 16 ∧
    (x (sl { droopThr := 3 } 0)).droopThr ≠ 0 ∧ ((x (sl { droopThr := 3 } 0)).catchUp 0).cycleFrac = 0 ∧ ((x (sl { droopThr := 3 } 0)).catchUp 0).slow = false ∧
    ((x (sl { droopThr := 3, slow := true } 0)).catchUp 0).slow = true ∧ (x (sl { droopThr := 3 } 840)).droopThr ≠ 0 ∧
    ((x (sl { droopThr := 3 } 840)).catchUp 840).cycleFrac ≠ 0 ∧ (x (sl {} 0)).droopThr = 0 ∧
    (x (sl { stretch := 6 } (840 * 100))).stretch ≠ 0 ∧ ((x (sl { stretch := 6 } (840 * 100))).catchUp (840 * 100)).stretch = 0 ∧
    (x (sl { halved := 2 } (840 * 100))).halved ≠ 0 ∧ ((x (sl { halved := 2 } (840 * 100))).catchUp (840 * 100)).halved = 0 ∧
    (sl {} 0).sliceBusy 159 5 = false ∧ ((s0.sliceGroups 0 0).find? (fun p => p.2.run.active) = some (3, s0.group 3)) ∧ (s0.group 3).contained = none ∧
    (s0.team (s0.group 3).team).levels = [] ∧ s0.openSlots = [] := by decide +kernel
theorem witness_SignedReadings :
    let m : State := { s0 with module := { sigjob := 7 }, parts := [(0, { jobs := [leBytes 24 0 ++ leBytes 4 7 ++ leBytes 4 0] })] }
    s0.module.sigData = none ∧ (1 : BitVec 64).getLsbD 0 = true ∧ (1 : BitVec 64).getLsbD 1 = false ∧ (3 : BitVec 64).getLsbD 1 = true ∧
    (m.part 0).jobs.find? (fun b => fieldAt b 24 4 == m.module.sigjob.toNat % 2 ^ 32) = some (leBytes 24 0 ++ leBytes 4 7 ++ leBytes 4 0) ∧
    (s0.part 0).jobs.find? (fun b => fieldAt b 24 4 == s0.module.sigjob.toNat % 2 ^ 32) = none ∧
    ({ s0 with module := { sigData := some [1] } } : State).module.sigData = some [1] := by decide +kernel

/-- A window of one 64 KiB unit for host and fabric, under key 9. -/
def winS (fenced : Bool) : State :=
  { s0 with parts := [(0, { partcfg := 19, hwin := [(15, 1)], fwin := [(15, 1)], fenced := fenced })] }
/-- A flit for the last window: key, kind, opcode, length, offset (log entry 52). -/
def flitOf (key kind off len : Nat) : List (BitVec 8) :=
  leBytes 2 key ++ leBytes 1 kind ++ leBytes 1 0x16 ++ leBytes 4 len ++ leBytes 8 (7 * 2 ^ 35 + off) ++ List.replicate 4 1

theorem witness_MemoryHealth :
    let e (n : Nat) : State := { s0 with module := { scrubEn := true, corrected := [(5, n)], strong := if n = 0 then [(5, ())] else [], bankQueue := [5] }, time := 840 * 2 ^ 36 }
    ({ s0 with module := { scrubEn := false } } : State).module.scrubEn = false ∧ (e 63).module.scrubEn = true ∧ FMap.has (e 63).module.strong 5 = false ∧ FMap.has (e 0).module.strong 5 = true ∧
    FMap.at 0 (e 0).module.window 5 + 2 ^ 36 ≤ (e 0).tick ∧ (e 63).module.bankQueue = [5] := by decide +kernel
theorem witness_HostAndFabric :
    let reg (i : Nat) : Nat := (FMap.at (0 : DWord) ((winS false).part 0).hwin i).toNat
    let served (s : State) (p k : Nat) : Prop := (s.part p).partcfg.getLsbD 0 = true ∧ (s.part p).partcfg.toNat / 2 % 2 ^ 16 = fieldAt (flitOf k 0 0 4) 0 2
    (2 ^ 36 * (8 * 0 + 7) + 0xFFFC) / 2 ^ 39 = 0 ∧ (2 ^ 36 * (8 * 0 + 7) + 0xFFFC) / 2 ^ 36 % 8 = 7 ∧ 2 ^ 42 ≤ 2 ^ 36 * (8 * 7 + 7) + 2 ^ 36 ∧
    0xFFFC + 4 ≤ reg 15 % 2 ^ 20 * 2 ^ 16 ∧ ¬ (0xFFFD + 4 ≤ reg 15 % 2 ^ 20 * 2 ^ 16) ∧ (winS false).outside = [] ∧ (∀ k ∈ [(0 : Nat), 1], (winS false).outsideReady { num := 4, port := none, part := 0, kind := k, addr := 0xFFFC, len := 4 } = true) ∧
    (let o : Outside := { num := 4, port := some 17, part := 0, kind := 0, addr := 0xFFFC, len := 4 }
     (winS false).outsideReady o = true ∧ ({ winS false with commands := [(1, { zero1 true with owned := [511] })] } : State).outsideReady o = false) ∧
    (let two : State := { winS false with parts := [(0, { partcfg := 19 }), (7, { partcfg := 19 })] }
     served two 0 9 ∧ served two 7 9 ∧ (0 : Nat) ≠ 7) ∧
    (∀ p, p < 8 → ¬ served (winS false) p 8) ∧ served (winS false) 0 9 ∧ (∀ q, q < 8 → served (winS false) q 9 → q = 0) ∧ ((winS true).part 0).fenced = true ∧ ((winS false).part 0).fenced = false ∧
    (∀ k, k < 3 → fieldAt (flitOf 9 k 0xFFFC 4) 2 1 = k ∧ fieldAt (flitOf 9 k 0xFFFC 4) 8 8 % 2 ^ 35 + fieldAt (flitOf 9 k 0xFFFC 4) 4 1 ≤
      (FMap.at (0 : DWord) ((winS false).part 0).fwin (2 * (fieldAt (flitOf 9 k 0xFFFC 4) 8 8 / 2 ^ 35 % 8) + 1)).toNat % 2 ^ 20 * 2 ^ 16) ∧
    ((atomBytes (fieldAt (flitOf 9 2 0xFFFC 4) 3 1) [0, 0, 0, 0] ((flitOf 9 2 0xFFFC 4).drop 16)).1 = some [1, 1, 1, 1]) := by decide +kernel
/-- One access from outside waits; its half-lines are sound. -/
theorem witness_Outside :
    let o (k : Nat) : Outside := { num := 4, port := some 17, part := 0, kind := k, op := 0x16, addr := 0xFFFC, len := 4, data := [1, 1, 1, 1] }
    let s (k : Nat) (bad : Bool) : State := { winS false with outside := [o k], poison := if bad then [(0x3FFF, ())] else [] }
    let idle (s : State) : State := { s with accesses := [], commands := [], sectors := [], teams := [] }
    (∀ k, k < 3 → ∀ b : Bool, (s k b).outsideReady (o k) = true ∧ (o k).reg = none ∧ (s k b).dramErr = [] ∧
      (wordsIn (o k).addr (o k).len).any (fun w => FMap.has (s k b).poison w) = b) ∧
    { s 0 false with commands := [(1, { zero1 true with owned := [511] })] }.outsideReady (o 0) = false ∧
    (∀ ln ∈ linesOf 0xFFFC 4, (idle (winS false)).llcRoom ln = true) ∧ (idle (winS false)).outside = [] := by decide +kernel
/-- A packet of a collective of the future, of one under way, and of one that has ended. -/
theorem witness_Packets :
    let m : CommRec := { size := 0, rank := 0, members := 0x100, key := 9, fan := 0 }
    let ended : State := { winS false with colls := [{ part := 0, members := 0x100, key := 9, next := 3 }] }
    let c : Command := { zero1 true with unit := 3, op := 0x08, seq := 2, src := leBytes 4 2 ++ leBytes 4 0 ++ leBytes 8 0x100 ++ leBytes 2 9 ++ [2] ++ leBytes 13 0 }
    (winS false).collsOf 0 m ≤ 5 ∧ (5 : Nat) < 2 ^ 31 ∧ (commOf c.src).members = 0x100 ∧ (commOf c.src).key = 9 ∧ c.part = 0 ∧ c.seq % 2 ^ 32 = 2 ∧
    2 < ended.collsOf 0 m ∧ ended.collsOf 0 m ≤ 2 ^ 31 ∧ ended.commands = [] := by decide +kernel

theorem witness_ResetsAndRegisterWrites :
    (∀ r ∈ s0.pages, r.part = 7 → r.sent = true) ∧ ((FMap.at ({} : HostQueue) s0.queues 31).ctl.getLsbD 7 = false) ∧
    (let b (n : Nat) : State := { State.reset with module := { State.reset.module with bootstat := n } }
     ∀ n ∈ [0, 3, 5], (b n).dueErrors = [] ∧ (b n).nextReg = none ∧ (b n).agenda = [] ∧ (∀ g ∈ (b n).groups, g.2.run.active = false) ∧ (b n).me.run.active = false ∧
       (b n).module.bootstat < 6) := by decide +kernel

/-! ### Hypotheses met: the step -/

/-- The state after reset with one word placed where the next step fetches (log entry 19). -/
noncomputable def placed (w : Nat) : State := State.reset.withFetchWord 32 w

/-- An event stands first on the agenda. -/
theorem witness_AgendaStep : ∃ t, exec .moduleShutdown { State.reset with agenda := [] } = .next t := ⟨_, rfl⟩
/-- A write of the control space waits behind a host write; once that has been performed it is the next step. Before step 5 of bring-up it does not arrive. -/
theorem witness_HostStep :
    let i : Instr := .registerWrite { off := 0x1000 } 5
    let w : Outside := { num := 4, port := none, part := 0, kind := 1, addr := 0x20000, len := 4, data := [1, 1, 1, 1] }
    let r : Outside := { num := 5, port := none, part := 0, kind := 3, reg := some i, addr := 0, len := 0 }
    let s : State := { s0 with agenda := [i], outside := [w], fresh := 9 }
    let b (n : Nat) : State := { s0 with agenda := [i], module := { bootstat := n } }
    s.dueErrors = [] ∧ s.nextReg = none ∧ isRegWrite i = true ∧ isBarAccess i = true ∧ s.regWaits s.fresh = true ∧ 5 ≤ s.module.bootstat % 16 ∧ s.outsideReady w = true ∧
    { s0 with outside := [r] }.nextReg = some (r, i) ∧ { s0 with outside := [r] }.dueErrors = [] ∧ { s0 with outside := [w, r] }.nextReg = none ∧
    (b 4).module.bootstat % 16 < 5 ∧ (b 4).nextReg = none ∧ (b 5).regWaits (b 5).fresh = false ∧ isRegWrite .moduleShutdown = false ∧ isBarAccess .moduleShutdown = false ∧
    (let t : State := { withG (fun g => { g with run := {} }) with outside := [w] }
     t.dueErrors = [] ∧ t.agenda = [] ∧ t.me.run.active = false ∧ (∀ g ∈ t.groups, g.2.run.active = false) ∧ 6 ≤ t.module.bootstat ∧ t.outsideReady w = true) := by decide +kernel
/-- A latched word: VIADD v4, v1, v2. -/
theorem witness_LatchedStep :
    let s := s0.onMe (fun g => { g with run := { g.run with words := [0x00040404] } })
    s.dueErrors = [] ∧ s.nextReg = none ∧ s.agenda = [] ∧ s.me.run.active = true ∧ s.me.run.stopped = false ∧ s.me.contained = none ∧ s.me.resident = true ∧ s.me.retired = false ∧
    s.me.run.words.drop s.me.run.idx = [0x00040404] ∧ s.me.run.handler = false ∧ decodeWord s.me.run.idx 0x00040404 0 = .ok (.viadd 4 2 1 false false) := by decide +kernel
/-- A word that a handler may not execute: VIADD. -/
theorem witness_HandlerStep :
    let s := s0.onMe (fun g => { g with run := { g.run with words := [0x00040404], handler := true } })
    s.me.run.handler = true ∧ handlerAllows 0x00040404 = false ∧ s.me.run.words.drop s.me.run.idx = [0x00040404] := by decide +kernel
/-- A clause that is fetched: the placed word is its only one. -/
theorem witness_FetchedStep :
    let s := placed 0x00040404
    let g := s.me
    let r := g.run
    let s1 : State := { s with fresh := s.fresh + 1 }
    s.dueErrors = [] ∧ s.nextReg = none ∧ s.agenda = [] ∧ r.active = true ∧ r.stopped = false ∧ g.contained = none ∧ g.resident = true ∧ g.retired = false ∧ r.words = [] ∧ r.handler = false ∧
    s1.fetchWord s.cur r.hdr 0 = .word (placeHeader 1) ∧ headerFault (placeHeader 1) = none ∧ s1.fetchWords s.cur r.hdr (hdrCount (placeHeader 1)) 0 = .ok [0x00040404] ∧
    clauseFault (placeHeader 1) [0x00040404] = none ∧ g.countersMet (hdrMask (placeHeader 1)) (hdrT (placeHeader 1)) = true ∧ hdrFull (placeHeader 1) = false ∧
    r.used + (hdrCount (placeHeader 1) - r.idx) ≤ 24 ∧ hdrSafe (placeHeader 1) = false ∧ r.rot = none ∧ (s.sliceOf g).lastGroup = none ∧ r.idx = 0 := by decide +kernel

theorem witness_EncodingRoundTrip : WellFormed (.viadd 4 2 1 false false) ∧ encode (.viadd 4 2 1 false false) = [0x00040404] ∧
    WellFormed (.vshuf 5 6 84 false 3 0xFF) ∧ encode (.vshuf 5 6 84 false 3 0xFF) = [0xC4850C00, 0xA83000FF] ∧
    WellFormed .moduleShutdown ∧ encode .moduleShutdown = [] ∧ isEvent .moduleShutdown = true ∧ isEvent .nop = false := by
  unfold WellFormed; decide +kernel
theorem witness_MemoryStaysCanonical : MemoryCanonical (placed 0x00040404) ∧ ∃ t, step (placed 0x00040404) = .next t := by
  refine ⟨by unfold MemoryCanonical; decide +kernel, ?_⟩
  have h : (match step (placed 0x00040404) with | .next _ => true | _ => false) = true := by decide +kernel
  match e : step (placed 0x00040404) with
  | .next t => exact ⟨t, rfl⟩
  | .fault _ => rw [e] at h; cases h
  | .refused _ => rw [e] at h; cases h

/-! ### The spec's worked examples -/

/-- 03, worked clause; 05, worked narrowing; 07, worked encodings. -/
theorem test_worked_encodings :
    decodeTableWord 64 (0xC1031000 + 0x00210100 * 2 ^ 32) = some (.vcvt 3 8 false 2 false 1 0 1 0 0) ∧ decodeTableWord 32 0x9007FFFD = some (.bra 1 true 0x1FFFD) ∧
    decodeTableWord 64 (0xC2890208 + 0x01F00301 * 2 ^ 32) = some (.vpack 9 1 2 false false 31 false 0 0 3 true) ∧
    decodeTableWord 32 0x71080818 = some (.atomCasD 8 4 0 1 4) ∧ decodeTableWord 64 (0x6B71A839 + 0x40 * 2 ^ 32) = some (.atomAddExt 0x71 84 0 3 4 64) ∧
    decodeTableWord 32 0x74800018 = some (.fence 1 4) ∧ decodeTableWord 64 (0xCD87A80C + 0x0020B060 * 2 ^ 32) = some (.ldIdx 7 84 3 false false 2 false 11 0 0 3) := by
  decide +kernel

/-- The outcome of a word as a state; the state before where it gives none. -/
def after (i : Instr) (s : State) : State := match exec i s with | .next t => t | _ => s

/-- 04, R86: the constant 0x9E3779B9 built in s6. -/
theorem test_smovi_smovhi :
    let s := after (.smovi 6 0x27) (withS 6 0)
    let t := after (.smovhi 6 0x11BB) s
    s.me.s 6 = 0x27 ∧ t.me.s 6 = 0x4F1BB ∧ (after (.smovhi 6 0x19B9) t).me.s 6 = 0x9E3779B9 := by decide +kernel
/-- 02, worked decode under R59, R60, and 05: VDEQ of elements 0, 1, 2, 5 and 7 to BF16. -/
theorem test_worked_vdeq :
    let s := withLanes (fun _ n => { n with regs := [(1, 0x05A7), (2, 0x21037A54), (3, 0x7E800)] })
    let e (j : BitVec 5) : Word := ((after (.vdeq 4 1 2 3 false false 31 false 0 15 1 j false) s).me.lane 9).reg 4
    e 0 = 0xBF58 ∧ e 1 = 0xBF84 ∧ e 2 = 0x3FFC ∧ e 5 = 0x3DC0 ∧ e 7 = 0x3EF0 := by decide +kernel
/-- 05, worked narrowing: VPACK of 500.0 and -3.3 to E4M3 in the upper half. -/
theorem test_worked_vpack :
    let n := (after (.vpack 9 1 2 false false 31 false 0 0 3 true) (withLanes (fun _ n => { n with regs := [(1, 0x43FA0000), (2, 0xC0533333), (9, 0x12345678)] }))).me.lane 63
    n.reg 9 = 0xC57E5678 ∧ n.lr = 0xC57E5678 ∧ n.fpflags = flagOF ||| flagNX := by decide +kernel
/-- 07, R155: four additions to one F32 location. -/
theorem test_worked_atom_fadd :
    atomNew 0x17 0 0x4B800000 0 = (some 0x4B800000, 0) ∧ atomNew 0x17 0x4B800000 0x3F800000 0 = (some 0x4B800000, flagNX) ∧
    atomNew 0x17 0x4B800000 0xCB800000 0 = (some 0, 0) := by decide +kernel
/-- 10, R106: passes of a fused slice, and of the lanes 56 to 63. -/
theorem test_worked_passes :
    passCount 0xFFFFFFFF 1 = 2 ∧ passCount 0xF7FFBFDF 1 = 3 ∧ passCount 0xFFFFFFFF 4 = 8 ∧ passCount 0xF7FFBFDF 4 = 10 ∧
    passOf 0xFFFFFFFF 4 56 = 7 ∧ passOf 0xF7FFBFDF 4 62 = 8 ∧ passOf 0xF7FFBFDF 4 63 = 9 ∧ passOf 0xF7FFBFDF 1 56 = 1 ∧ passOf 0xF7FFBFDF 1 63 = 2 := by decide +kernel
/-- 17, R94: LOOPI 0 sends the lanes behind the body; a fourth entry takes cause 0x0B. -/
theorem test_loop :
    ((after (.loopi 0 0 5) s0).me.lane 7).vpc = 7 ∧
    (after (.loopi 3 2 1) (withG (fun g => { g with loops := [⟨2, 11, 2⟩, ⟨1, 20, 1⟩, ⟨0, 30, 0⟩], handler := false }))).me.run.stopped = true := by decide +kernel
/-- R101: TRAP under a handler. -/
theorem test_trap : let g := (after (.trap 0x1234) (hS id)).me
    g.trap.cause = 0x2340000E ∧ g.trap.addr = 0x1234 ∧ g.trap.lanes = 0xFFFFFFFFFFFFFFFF ∧ g.trapPending = true ∧ (g.lane 5).vpc = 2 := by decide +kernel
/-- R107, R125: wrap, high product, shift amounts, and division corners. -/
theorem test_integer_corners :
    let s := withLanes (fun _ n => { n with regs := [(1, 0x80000000), (2, 0xFFFFFFFF), (3, 33)] })
    let v (i : Instr) : Word := ((after i s).me.lane 0).reg 9
    v (.viadd 9 1 2 false false) = 0x7FFFFFFF ∧ v (.viadds 9 1 2 false false) = 0x80000000 ∧ v (.vimulh 9 1 2 false false) = 0 ∧ v (.vumulh 9 1 2 false false) = 0x7FFFFFFF ∧
    v (.vshl 9 2 3 false false) = 0xFFFFFFFE ∧ v (.vsar 9 1 3 false false) = 0xC0000000 ∧ v (.vidiv 9 1 0 false false 31 false 8 8) = 0xFFFFFFFF := by decide +kernel
/-- 26, R376: the budgets of three partitions at 3,200 W and at 2,200 W. -/
theorem test_worked_budgets :
    let s (cap : Nat) : State := { s0 with
      module := { modcap := cap, idleFloor := 700 }
      parts := [(0, { pfloor := 1000 + 2 * 2 ^ 16, partcfg := 1 }), (1, { pfloor := 600 + 1 * 2 ^ 16, partcfg := 1 }), (2, { pfloor := 400 + 1 * 2 ^ 16, partcfg := 1 })] }
    let b (cap p : Nat) : Nat := ((s cap).budgetOf p).1 / ((s cap).budgetOf p).2
    b 3200 0 = 1250 ∧ b 3200 1 = 725 ∧ b 3200 2 = 525 ∧ b 2200 0 = 750 ∧ b 2200 1 = 450 ∧ b 2200 2 = 300 := by decide +kernel

/-! ### Engine corners -/

/-- R51, R63: 0x4091_2000 lies an eighth of the way from 0x4091 to 0x4092. For key 65, NQMIX of 260 has low half at or above 0xE000, that of 258 below. -/
theorem test_down_converter :
    let p : MmaBlk := { mmaBlk [] with afmt := 1, stoch := true, key := 65 }
    (downConvert p 1 4 0x40912000).bits = 0x4092 ∧ (downConvert p 1 2 0x40912000).bits = 0x4091 := by decide +kernel

/-- R171, R348: a CBLOAD whose table was poisoned faults with 0x92 and leaves its banks. -/
theorem test_poisoned_table :
    let c : Command := { zero1 true with op := 0x09, failed := some 0x92 }
    c.failed = some 0x92 ∧ (c.perform s0).fault = some 0x92 ∧ ((c.perform s0).s.cluster 0).book1 = (s0.cluster 0).book1 := by decide +kernel

/-- R106: the worked pair `vfadd v2, v0, v1`, `vfmul v3, v2, v2`: the second word reads what the first has written. -/
theorem test_interlock_pair :
    shortKeys (0x18 * 2 ^ 23 + 2 * 2 ^ 16 + 0 * 2 ^ 9 + 1 * 2 ^ 2) 0 = [2, 72] ∧
    readKeys (0x1A * 2 ^ 23 + 3 * 2 ^ 16 + 2 * 2 ^ 9 + 2 * 2 ^ 2) 0 = [2, 2] := by decide

/-- R106, R113, R115: `pand.or p1, p2, p3` reads both sources and its destination; a load is no short-latency word. -/
theorem test_interlock_predicates :
    readKeys (2 * 2 ^ 29 + 0x11 * 2 ^ 23 + 1 * 2 ^ 18 + 2 * 2 ^ 11 + 3 * 2 ^ 4 + 2 * 2 ^ 2) 0 = [102, 103, 101] ∧
    shortKeys (2 * 2 ^ 29 + 0x11 * 2 ^ 23 + 1 * 2 ^ 18 + 2 * 2 ^ 11 + 3 * 2 ^ 4 + 2 * 2 ^ 2) 0 = [101] ∧
    shortKeys (3 * 2 ^ 29 + 0x01 * 2 ^ 23 + 2 * 2 ^ 16) 0 = [] := by decide

end Sys2Proof.Tests
end

section
/-! SUPPORT. Resets, bring-up and the control space: what a reset leaves of clusters, partitions and queues, which register a write reaches, what a step of
bring-up does. -/
namespace Sys2Proof.Machine

/-! ### What a reset leaves -/

/-- A map changed in place, read at any key, where the change keeps the default. -/
theorem FMap.at_mapVals {α : Type} (f : Nat → α → α) (d : α) (m : FMap α) (k : Nat) (hd : f k d = d) :
    FMap.at d (FMap.mapVals f m) k = f k (FMap.at d m k) := by
  unfold FMap.at
  rw [FMap.look_mapVals]
  cases FMap.look m k with
  | none => exact hd.symm
  | some v => rfl

/-- A tabulated map, read at any key. -/
theorem FMap.at_tab {α : Type} (f : Nat → α) (d : α) (n k : Nat) :
    FMap.at d ((List.range n).map (fun l => (l, f l))) k = if k < n then f k else d := by
  unfold FMap.at
  rw [FMap.look_tab]
  split_ifs <;> rfl

section
variable {s t : State} {f : Slice → Slice} {g : Cluster → Cluster} (h : t.clusters = s.resetClusters f g)
include h

/-- The clusters after a reset (R398): each of the 160 is rebuilt from what it was. -/
theorem State.cluster_reset (c : Nat) : t.cluster c = if c < 160 then { g (s.cluster c) with
    slices := (List.range 6).map (fun i => (i, { f ((s.cluster c).slice i) with cycleTime := s.time })) } else {} := by
  unfold State.cluster
  rw [h]
  exact FMap.at_tab _ _ _ _

/-- The slices after a reset: what `f` keeps, with the cycle counter from now on (R13, R398). -/
theorem State.slice_reset {c i : Nat} (hc : c < 160) (hi : i < 6) :
    (t.cluster c).slice i = { f ((s.cluster c).slice i) with cycleTime := s.time } := by
  rw [State.cluster_reset h, if_pos hc]
  exact (FMap.at_tab _ _ _ _).trans (if_pos hi)

end

section
variable {s t : State} (h : t.clusters = s.resetClusters (fun x => { laneMap := x.laneMap }) (fun _ => {})) (c : Nat)
include h

/-- A cold reset returns what is outside the slices to its reset values. -/
theorem State.cluster_cold : { t.cluster c with slices := [] } = ({} : Cluster) := by
  rw [State.cluster_reset h]
  split_ifs <;> rfl

/-- A cold reset keeps the fuses of a slice alone. -/
theorem State.slice_cold (i : Nat) (hc : c < 160) (hi : i < 6) :
    (t.cluster c).slice i = { laneMap := ((s.cluster c).slice i).laneMap, cycleTime := s.time } :=
  State.slice_reset h hc hi

end

section
variable {s t : State} (h : t.clusters = s.resetClusters (fun x => x.warm)
  (fun c => { (({} : Cluster)) with engBusy := c.engBusy, l1Hits := c.l1Hits, l1Misses := c.l1Misses })) (c : Nat)
include h

/-- A warm reset disables every cluster and empties its memories (R389, R398). -/
theorem State.cluster_warm : (t.cluster c).enabled = false ∧ (t.cluster c).step = 28 ∧ (t.cluster c).scratch = [] ∧ (t.cluster c).l1 = [] := by
  rw [State.cluster_reset h]
  split_ifs <;> exact ⟨rfl, rfl, rfl, rfl⟩

/-- A warm reset keeps the fuses of a slice. -/
theorem State.slice_warm_laneMap (i : Nat) (hc : c < 160) (hi : i < 6) : ((t.cluster c).slice i).laneMap = ((s.cluster c).slice i).laneMap := by
  rw [State.slice_reset h hc hi]
  rfl

end

/-- The partitions after a warm reset. -/
theorem FMap.at_warmParts (m : FMap Partition) (p : Nat) : FMap.at {} (FMap.mapVals (fun _ q => q.warm) m) p = (FMap.at {} m p).warm :=
  FMap.at_mapVals _ _ _ _ rfl

/-- The host queues after a warm reset: LQCTL.EN clear. -/
theorem FMap.at_warmQueues (m : FMap HostQueue) (k : Nat) :
    (FMap.at ({} : HostQueue) (FMap.mapVals (fun _ (q : HostQueue) => { q with ctl := q.ctl &&& ~~~(0x80#64), lastGrid := none }) m) k).ctl =
      (FMap.at ({} : HostQueue) m k).ctl &&& ~~~(0x80#64) :=
  congrArg HostQueue.ctl (FMap.at_mapVals (fun _ (q : HostQueue) => { q with ctl := q.ctl &&& ~~~(0x80#64), lastGrid := none }) {} m k (by decide))

/-! ### The register that a write reaches -/

/-- An offset in the page of a partition (R391). -/
theorem pageOf_page {p o : Nat} (hp : p < 8) (ho : o < 0x100000) : pageOf (0x1000000 + p * 0x100000 + o) = some (p, o) := by
  unfold pageOf
  rw [if_pos (by omega), show (0x1000000 + p * 0x100000 + o - 0x1000000) / 0x100000 = p by omega,
    show (0x1000000 + p * 0x100000 + o) % 0x100000 = o by omega]

/-- An offset below the pages of the partitions. -/
theorem pageOf_module {off : Nat} (h : off < 0x1000000) : pageOf off = none := if_neg (by omega)

section
variable (s : State) (v : DWord) {t : State}

theorem exec_registerWrite_page {p o : Nat} (hp : p < 8) (ho : o < 0x100000) (h : s.writePage p o v = t) :
    exec (.registerWrite { off := 0x1000000 + p * 0x100000 + o } v) s = .next t := by
  simp [execRegisterWrite, pageOf_page hp ho, h]

theorem exec_registerWrite_module {off : Nat} (hoff : off < 0x1000000) (h : s.writeModule off v = t) :
    exec (.registerWrite { off := off } v) s = .next t := by
  simp [execRegisterWrite, pageOf_module hoff, h]

/-- Half of an 8-byte register is written by a write of the whole, the other half as it reads (R391). -/
theorem exec_registerWrite_half {p o : Nat} (hp : p < 8) (ho : o < 0x100000)
    (h : s.writePage p (o / 8 * 8) (s.halfWritten (0x1000000 + p * 0x100000 + o) v) = t) :
    exec (.registerWrite { off := 0x1000000 + p * 0x100000 + o, half := true } v) s = .next t := by
  have hbase : (0x1000000 + p * 0x100000 + o) / 8 * 8 = 0x1000000 + p * 0x100000 + o / 8 * 8 := by omega
  simp [execRegisterWrite, hbase, pageOf_page hp (show o / 8 * 8 < 0x100000 by omega), h]

end

/-- A register of a partition page as the host reads it (R391). -/
theorem State.register_page (s : State) {off p o : Nat} (h : pageOf off = some (p, o)) : s.register off = s.readPage p o := by
  unfold State.register
  split
  · next e => rw [h] at e; cases e; rfl
  · next e => rw [h] at e; cases e

/-- What a four-byte write of a register of a partition page, other than RLSTAT, writes to the whole of it (R391). -/
theorem State.halfWritten_page (s : State) {off p o : Nat} (v : DWord) (h : pageOf (off / 8 * 8) = some (p, o)) (ho : o ≠ 0x210) :
    s.halfWritten off v = BitVec.ofNat 64 (if off % 8 = 4 then s.readPage p o % 2 ^ 32 + v.toNat % 2 ^ 32 * 2 ^ 32
      else s.readPage p o / 2 ^ 32 * 2 ^ 32 + v.toNat % 2 ^ 32) := by
  unfold State.halfWritten
  dsimp only
  rw [s.register_page h]
  split_ifs <;>
  · split
    · next e => rw [h] at e; cases e; exact absurd rfl ho
    · rfl

/-- What a four-byte write of half of SAVEBASE writes to the whole of it (R391). -/
theorem State.halfWritten_savebase (s : State) {p o : Nat} (v : DWord) (hp : p < 8) (ho : o / 8 = 1) :
    s.halfWritten (0x1000000 + p * 0x100000 + o) v = BitVec.ofNat 64 (if o % 8 = 4 then (s.part p).savebase.toNat % 2 ^ 32 + v.toNat % 2 ^ 32 * 2 ^ 32
      else (s.part p).savebase.toNat / 2 ^ 32 * 2 ^ 32 + v.toNat % 2 ^ 32) := by
  have hbase : (0x1000000 + p * 0x100000 + o) / 8 * 8 = 0x1000000 + p * 0x100000 + 8 := by omega
  have hread : s.readPage p 8 = (s.part p).savebase.toNat := by simp [State.readPage]
  rw [s.halfWritten_page v (hbase ▸ pageOf_page hp (by norm_num)) (by norm_num), hread,
    show (0x1000000 + p * 0x100000 + o) % 8 = o % 8 by omega]

/-! ### Numbered registers of a partition page -/

/-- What a register of a window keeps, as one number (R394). -/
theorem winField_eq (i : Nat) (v : DWord) :
    winField i v = BitVec.ofNat 64 (if i % 2 = 0 then v.toNat / 2 ^ 16 % 2 ^ 40 * 2 ^ 16 else v.toNat % 2 ^ 20) :=
  (apply_ite (BitVec.ofNat 64) _ _ _).symm

section
variable (s : State) (p : Nat) (v : DWord) {i : Nat} (hi : i < 16)
include hi

theorem State.writePage_bpaddr : s.writePage p (0x100 + 16 * i) v = s.onPart p (fun q => { q with bpaddr := FMap.put q.bpaddr i v }) := by
  unfold State.writePage
  dsimp only
  iterate 7 rw [if_neg (by omega)]
  rw [if_pos (by omega), show (0x100 + 16 * i - 0x100) / 16 = i by omega]

theorem State.writePage_bpctl :
    s.writePage p (0x108 + 16 * i) v = s.onPart p (fun q => { q with bpctl := FMap.put q.bpctl i (BitVec.ofNat 32 (v.toNat % 2 ^ 20)) }) := by
  unfold State.writePage
  dsimp only
  iterate 8 rw [if_neg (by omega)]
  rw [if_pos (by omega), show (0x108 + 16 * i - 0x100) / 16 = i by omega]

theorem State.writePage_hwin :
    s.writePage p (0x400 + 8 * i) v = s.onPart p (fun q => { q with
      hwin := FMap.put q.hwin i (BitVec.ofNat 64 (if i % 2 = 0 then v.toNat / 2 ^ 16 % 2 ^ 40 * 2 ^ 16 else v.toNat % 2 ^ 20)) }) := by
  unfold State.writePage
  dsimp only
  iterate 17 rw [if_neg (by omega)]
  rw [if_pos (by omega), show (0x400 + 8 * i - 0x400) / 8 = i by omega, winField_eq]

theorem State.writePage_fwin :
    s.writePage p (0x500 + 8 * i) v = s.onPart p (fun q => { q with
      fwin := FMap.put q.fwin i (BitVec.ofNat 64 (if i % 2 = 0 then v.toNat / 2 ^ 16 % 2 ^ 40 * 2 ^ 16 else v.toNat % 2 ^ 20)) }) := by
  unfold State.writePage
  dsimp only
  iterate 18 rw [if_neg (by omega)]
  rw [if_pos (by omega), show (0x500 + 8 * i - 0x500) / 8 = i by omega, winField_eq]

end

/-! ### Registers of a host queue (R318) -/

/-- A queue that is disabled or empty takes writes of its registers. -/
theorem HostQueue.writable {q : HostQueue} (h : q.ctl.getLsbD 7 = false ∨ q.head = q.tail) : (q.en && q.head != q.tail) = false := by
  unfold HostQueue.en
  rcases h with h | h
  · rw [h, Bool.false_and]
  · rw [h, bne_self_eq_false, Bool.and_false]

/-- Two changes of a queue that agree on what it holds are one. -/
theorem State.onQueue_congr (s : State) (k : Nat) {f g : HostQueue → HostQueue} (h : f (FMap.at {} s.queues k) = g (FMap.at {} s.queues k)) :
    s.onQueue k f = s.onQueue k g := by
  unfold State.onQueue
  rw [h]

section
variable (s : State) (v : DWord) {k : Nat} (hk : k < 32)
  (hidle : (FMap.at ({} : HostQueue) s.queues k).ctl.getLsbD 7 = false ∨ (FMap.at ({} : HostQueue) s.queues k).head = (FMap.at ({} : HostQueue) s.queues k).tail)
include hk hidle

theorem State.writeModule_lqbase :
    s.writeModule (0x30000 + 0x20 * k) v = s.onQueue k (fun q => { q with base := BitVec.ofNat 64 (v.toNat / 128 * 128) }) := by
  unfold State.writeModule
  dsimp only
  iterate 5 rw [if_neg (by omega)]
  rw [if_pos (by omega), show (0x30000 + 0x20 * k - 0x30000) / 0x20 = k by omega]
  refine s.onQueue_congr k ?_
  rw [HostQueue.writable hidle, if_neg Bool.false_ne_true, if_pos (by omega)]

theorem State.writeModule_lqctl :
    s.writeModule (0x30000 + 0x20 * k + 8) v = s.onQueue k (fun q => { q with
      ctl := BitVec.ofNat 64 (v.toNat % (if s.module.bootstat % 16 < 6 then 2 ^ 7 else 2 ^ 8) +
        if q.ctl.getLsbD 8 = true ∧ v.getLsbD 8 = false then 2 ^ 8 else 0) }) := by
  unfold State.writeModule
  dsimp only
  iterate 5 rw [if_neg (by omega)]
  rw [if_pos (by omega), show (0x30000 + 0x20 * k + 8 - 0x30000) / 0x20 = k by omega]
  refine s.onQueue_congr k ?_
  rw [HostQueue.writable hidle, if_neg Bool.false_ne_true, if_neg (by omega), apply_ite (v.toNat % ·)]
  simp only [Bool.and_eq_true, Bool.not_eq_true']

end

/-! ### Bring-up (R398) -/

theorem step_of_act {s t : State} (h : s.act = .next t) :
    step s = .next (State.noteCode s (State.takeSamples s (State.charge s (s.settleAfter t)))) := by
  simp [step, h]

/-- With nothing due, nothing of the host and no word to issue, the machine goes on by itself. -/
theorem State.act_idle {s : State} (herr : s.dueErrors = []) (hreg : s.nextReg = none) (hag : s.agenda = []) (hrun : s.me.run.active = false) :
    s.act = .next s.idleStep := by
  simp [State.act, herr, hreg, hag, hrun]

/-- Bring-up goes on where no run has been left. -/
theorem State.idleStep_booting {s : State} (hleft : ∀ g ∈ s.groups, g.2.run.active = false) (hboot : s.module.bootstat < 6) : s.idleStep = s.bootStep := by
  have hnone : s.groups.find? (fun p => p.2.run.active) = none := by simpa using hleft
  simp [State.idleStep, hnone, State.booting, hboot]

/-- A step of bring-up moves BOOTSTAT to the next step, or puts a failure code beside the step that stands there. -/
theorem State.bootStep_spec (s : State) :
    ∃ n, s.bootStep = { s with time := s.time + 840, fresh := s.fresh + 1, module := { s.module with bootstat := n } } ∧
      (n = s.module.bootstat % 16 + 1 ∨ ∃ code : Nat, 0 < code ∧ n = s.module.bootstat % 16 + code * 2 ^ 16) := by
  refine ⟨_, rfl, ?_⟩
  split_ifs with hbad
  · exact .inl rfl
  · exact .inr ⟨_, Nat.pos_of_ne_zero fun h => hbad (BitVec.eq_of_toNat_eq h), rfl⟩

/-- An offset that cannot be read yet reads 0. -/
theorem State.readControl_unreadable {s : State} {off : Nat} (h : s.readable off = false) : s.readControl off = 0 := by
  simp [State.readControl, h]

/-! ### HEAD of a ring (R364, R369, R394) -/

/-- A fold that no element of the list moves ends where it began. -/
theorem foldl_eq_self {α β : Type} (f : β → α → β) (b : β) (l : List α) (h : ∀ a ∈ l, f b a = b) : l.foldl f b = b := by
  induction l with
  | nil => rfl
  | cons a l ih =>
    rw [List.foldl_cons, h a (by simp)]
    exact ih fun x hx => h x (by simp [hx])

/-- Where every request of a partition has been sent, none is written to its ring. -/
theorem State.sendPages_sent (s : State) (p : Nat) (h : ∀ r ∈ s.pages, r.part = p → r.sent = true) : s.sendPages p = s :=
  foldl_eq_self _ _ _ fun r hr => if_neg fun ⟨hp, hs, _⟩ => by simp [h r hr hp] at hs

section
variable (s : State) {p : Nat} (v : BitVec 32) (hp : p < 8)
include hp

theorem exec_ringHeadWrite_rl : exec (.ringHeadWrite (0x1000000 + p * 0x100000 + 0x208) v) s =
    .next (s.onPart p (fun q => { q with rl := { q.rl with head := v.toNat % 2 ^ 16 } })).settleAll := by
  simp [execRingHeadWrite, pageOf_page hp (show 0x208 < 0x100000 by norm_num)]

theorem exec_ringHeadWrite_jr : exec (.ringHeadWrite (0x1000000 + p * 0x100000 + 0x228) v) s =
    .next (s.onPart p (fun q => { q with jr := { q.jr with head := v.toNat % 2 ^ 16 } })).settleAll := by
  simp [execRingHeadWrite, pageOf_page hp (show 0x228 < 0x100000 by norm_num)]

theorem exec_ringHeadWrite_pfq (hsent : ∀ r ∈ s.pages, r.part = p → r.sent = true) : exec (.ringHeadWrite (0x1000000 + p * 0x100000 + 0x308) v) s =
    .next (s.onPart p (fun q => { q with pfq := { q.pfq with head := v.toNat % 2 ^ 16 } })).settleAll := by
  have hexec : exec (.ringHeadWrite (0x1000000 + p * 0x100000 + 0x308) v) s =
      .next ((s.onPart p (fun q => { q with pfq := { q.pfq with head := v.toNat % 2 ^ 16 } })).sendPages p).settleAll := by
    simp [execRingHeadWrite, pageOf_page hp (show 0x308 < 0x100000 by norm_num)]
  rw [hexec, State.sendPages_sent (s.onPart p _) p hsent]

end

/-! ### The statement -/

/-- Settles O55: a reset is one state whose tables the laws above read; a register write is the law of its register at the offset that `pageOf` finds;
bring-up goes on because nothing comes before it in an idle step. -/
theorem resetsAndRegisterWrites : Obligations.ResetsAndRegisterWrites := by
  unfold Obligations.ResetsAndRegisterWrites
  refine ⟨fun s => ⟨?cold, ?warm⟩, fun s p value hp => ?page, fun s k value hk hidle => ?queue, fun s value => ?module,
    fun s herr hreg hag hleft hrun hboot => ?bringUp, fun s off => ?readable, fun s p value hp => ?ring⟩
  case cold =>
    exact ⟨_, rfl, ⟨rfl, rfl, rfl, rfl, rfl, rfl, rfl, rfl⟩, ⟨rfl, rfl, rfl, rfl, rfl, rfl, rfl, rfl, rfl, rfl, rfl, rfl, rfl, rfl⟩,
      rfl, rfl, rfl, rfl, rfl, rfl, rfl, State.cluster_cold rfl, State.slice_cold rfl, rfl⟩
  case warm =>
    refine ⟨_, rfl, ⟨rfl, rfl, rfl, rfl, rfl, rfl, rfl, rfl⟩, ⟨rfl, rfl, rfl, rfl, rfl, rfl, rfl, rfl, rfl, rfl, rfl, rfl, rfl, rfl⟩,
      rfl, rfl, rfl, rfl, fun p => ?_, State.cluster_warm rfl, State.slice_warm_laneMap rfl, fun q => FMap.at_warmQueues _ q⟩
    simp only [State.part, FMap.at_warmParts]
    exact ⟨rfl, rfl, rfl, rfl, rfl, rfl⟩
  case page =>
    have whole {o : Nat} {t : State} (ho : o < 0x100000) (h : s.writePage p o value = t) := exec_registerWrite_page s value hp ho h
    have half {o : Nat} (ho : o < 0x100000) (h8 : o / 8 = 1) := exec_registerWrite_half s value hp ho (by rw [s.halfWritten_savebase value hp h8])
    refine ⟨whole (by norm_num) rfl, whole (by norm_num) rfl, whole (by norm_num) rfl, whole (by norm_num) rfl, whole (by norm_num) rfl,
      whole (by norm_num) rfl, whole (by norm_num) rfl, fun i hi => ⟨?_, ?_, ?_, ?_⟩, half (by norm_num) (by norm_num), half (by norm_num) (by norm_num), ?_⟩
    · exact whole (by omega) (s.writePage_bpaddr p value hi)
    · exact whole (by omega) (s.writePage_bpctl p value hi)
    · exact whole (by omega) (s.writePage_hwin p value hi)
    · exact whole (by omega) (s.writePage_fwin p value hi)
    · simp only [List.forall_mem_cons, List.not_mem_nil, false_imp_iff, implies_true, and_true]
      exact ⟨whole (by norm_num) rfl, whole (by norm_num) rfl, whole (by norm_num) rfl, whole (by norm_num) rfl⟩
  case queue =>
    exact ⟨exec_registerWrite_module s value (by omega) (s.writeModule_lqbase value hk hidle),
      exec_registerWrite_module s value (by omega) (s.writeModule_lqctl value hk hidle)⟩
  case module =>
    have whole {off : Nat} {t : State} (hoff : off < 0x1000000) (h : s.writeModule off value = t) := exec_registerWrite_module s value hoff h
    refine ⟨whole (by norm_num) rfl, whole (by norm_num) rfl, whole (by norm_num) rfl, whole (by norm_num) rfl, whole (by norm_num) rfl, ?_⟩
    simp only [List.forall_mem_cons, List.not_mem_nil, false_imp_iff, implies_true, and_true]
    exact ⟨whole (by norm_num) rfl, whole (by norm_num) rfl, whole (by norm_num) rfl, whole (by norm_num) rfl, whole (by norm_num) rfl,
      whole (by norm_num) rfl, whole (by norm_num) rfl⟩
  case bringUp =>
    obtain ⟨n, hstep, hn⟩ := s.bootStep_spec
    refine ⟨n, step_of_act ?_, hn⟩
    rw [State.act_idle herr hreg hag hrun, State.idleStep_booting hleft hboot, hstep]
  case readable =>
    refine ⟨fun h => State.readControl_unreadable ?_, fun h hlo hne => State.readControl_unreadable ?_⟩
    · simp [State.readable, h]
    · have h4 : ¬ 4 ≤ s.module.bootstat % 16 := by omega
      have hoff : ¬ (off < 0x10 ∨ off = 0x18) := by omega
      simp only [State.readable, h4, hoff, decide_false, Bool.and_false, Bool.or_false]
  case ring =>
    exact ⟨exec_ringHeadWrite_rl s value hp, exec_ringHeadWrite_jr s value hp, rfl, exec_ringHeadWrite_pfq s value hp⟩

end Sys2Proof.Machine
end

section
/-! SUPPORT. The encodings: words that decode as the formats give, and a well-formed instruction that its encoding loses. -/
namespace Sys2Proof

/-- Settles O57: the decoder evaluated at each word. -/
theorem decodedWords : Obligations.DecodedWords := by
  unfold Obligations.DecodedWords
  decide

/-- Refutes O58: VCLZ with EB set. No cause stands in its own fields (`instrCauses` passes EB by), so it is well formed, and the encoder writes EB at
bit 0; the decoder refuses that word with cause 0x09, since a word of one source leaves EB unused (R31, R32). -/
theorem not_encodingRoundTrip : ¬ Obligations.EncodingRoundTrip := by
  unfold Obligations.EncodingRoundTrip
  intro h
  have hwf : WellFormed (.vclz 0 0 false true) := by unfold WellFormed; decide
  have hword : encode (.vclz 0 0 false true) = [0x0A0001C1] := by decide
  have hnone : decodeTableWord 32 (0x0A0001C1 : Word).toNat = none := by decide
  have hback := (h _ hwf).1 _ hword
  exact Option.some_ne_none _ (hback.symm.trans hnone)

end Sys2Proof
end

