-- ==== Sys2Proof/Proofs/ProducerResults.lean ====
section
/-! SUPPORT. Results that arrive at a producer's registers (Ends.lean, R19, R136, R175, R176, R188), and obligation O11. -/
namespace Sys2Proof.Machine

/-! ### A result written to a lane -/

/-- A result of a lane changes its group and the checkpoint of an open region alone. -/
theorem State.writeResult_eq (s : State) (k l r : Nat) (v : Word) (b : Bool) :
    ∃ ds, s.writeResult k l r v b = { s.onGroup k (fun g => g.onLane l (fun n => n.setReg r v)) with dies := ds } := by
  cases e : ((s.group k).lane l).region with
  | none => exact ⟨s.dies, by unfold State.writeResult; simp only [e]; rfl⟩
  | some id =>
    unfold State.writeResult
    simp only [e]
    split_ifs
    · exact ⟨s.dies, rfl⟩
    · exact ⟨_, rfl⟩

theorem State.lane_writeResult (s : State) (k l r : Nat) (v : Word) (b : Bool) (i j : Nat) :
    ((s.writeResult k l r v b).group i).lane j =
      if i = k ∧ j = l then ((s.group k).lane l).setReg r v else (s.group i).lane j := by
  obtain ⟨ds, e⟩ := s.writeResult_eq k l r v b
  have e2 : (s.writeResult k l r v b).group i = (s.onGroup k (fun g => g.onLane l (fun n => n.setReg r v))).group i := by
    rw [e]; rfl
  rw [e2, State.group_onGroup]
  by_cases hi : i = k
  · rw [if_pos hi, Group.lane_onLane]; simp [hi]
  · simp [hi]

/-- Results of lanes of one group, each to register `r`. -/
def State.writeLanes (s : State) (k r : Nat) (ds : List (Nat × Word)) : State :=
  ds.foldl (fun s x => s.writeResult k x.1 r x.2 false) s

theorem State.writeLanes_cons (s : State) (k r : Nat) (x : Nat × Word) (ds : List (Nat × Word)) :
    s.writeLanes k r (x :: ds) = (s.writeResult k x.1 r x.2 false).writeLanes k r ds := rfl

/-- Results of lanes leave everything but groups and checkpoints. -/
theorem State.writeLanes_eq (k r : Nat) (ds : List (Nat × Word)) (s : State) :
    ∃ gs di, s.writeLanes k r ds = { s with groups := gs, dies := di } := by
  induction ds generalizing s with
  | nil => exact ⟨s.groups, s.dies, rfl⟩
  | cons x ds ih =>
    obtain ⟨di, e⟩ := s.writeResult_eq k x.1 r x.2 false
    obtain ⟨gs, di', e'⟩ := ih (s.writeResult k x.1 r x.2 false)
    exact ⟨gs, di', by rw [State.writeLanes_cons, e', e]; rfl⟩

theorem State.lane_writeLanes_miss (k r : Nat) (ds : List (Nat × Word)) (s : State) (i j : Nat)
    (h : ¬ (i = k ∧ j ∈ ds.map (·.1))) : ((s.writeLanes k r ds).group i).lane j = (s.group i).lane j := by
  induction ds generalizing s with
  | nil => rfl
  | cons x ds ih =>
    simp only [List.map_cons, List.mem_cons] at h
    rw [State.writeLanes_cons, ih _ (fun c => h ⟨c.1, .inr c.2⟩), State.lane_writeResult, if_neg (fun c => h ⟨c.1, .inl c.2⟩)]

theorem State.lane_writeLanes_hit (k r : Nat) (ds : List (Nat × Word)) (s : State) (hn : (ds.map (·.1)).Nodup) (x : Nat × Word) (hx : x ∈ ds) :
    ((s.writeLanes k r ds).group k).lane x.1 = ((s.group k).lane x.1).setReg r x.2 := by
  induction ds generalizing s with
  | nil => simp at hx
  | cons y ds ih =>
    rw [List.map_cons, List.nodup_cons] at hn
    rw [State.writeLanes_cons]
    rcases List.mem_cons.1 hx with rfl | hx
    · rw [State.lane_writeLanes_miss _ _ _ _ _ _ (fun c => hn.1 c.2), State.lane_writeResult, if_pos ⟨rfl, rfl⟩]
    · have ne : x.1 ≠ y.1 := fun c => hn.1 (c ▸ List.mem_map_of_mem hx)
      rw [ih _ hn.2 hx, State.lane_writeResult, if_neg (fun c => ne c.2)]

/-- A lane after results of lanes: as it was, or with one register set. -/
theorem State.lane_writeLanes (k r : Nat) (ds : List (Nat × Word)) (s : State) (hn : (ds.map (·.1)).Nodup) (i j : Nat) :
    ((s.writeLanes k r ds).group i).lane j = (s.group i).lane j ∨
    (i = k ∧ j ∈ ds.map (·.1)) ∧ ∃ v, ((s.writeLanes k r ds).group i).lane j = ((s.group i).lane j).setReg r v := by
  by_cases h : i = k ∧ j ∈ ds.map (·.1)
  · obtain ⟨rfl, hj⟩ := h
    obtain ⟨x, hx, rfl⟩ := List.mem_map.1 hj
    exact .inr ⟨⟨rfl, hj⟩, x.2, State.lane_writeLanes_hit _ _ _ _ hn _ hx⟩
  · exact .inl (State.lane_writeLanes_miss _ _ _ _ _ _ h)

/-! ### What a producer's results do -/

/-- A producer's results in its registers. -/
def State.fillFrom (s : State) (p : Producer) : State :=
  (p.dests.foldl (fun s d => if d.2.1 = 72 then s else s.writeResult p.group d.1 d.2.1 d.2.2 false) s).onGroup p.group
    (fun g => p.sdests.foldl (fun g d => g.setS d.1 d.2) g)

theorem State.produce_eq (s : State) (n : Nat) (p : Producer) (kind : ProdKind) (value : Producer → State → Producer × State)
    (h : FMap.look s.producers n = some p) (hk : p.kind = kind) :
    s.produce n kind value =
      .next (({ (value p s).2 with producers := FMap.del (value p s).2.producers n }).fillFrom (value p s).1).settleAll := by
  unfold State.produce
  simp only [h, hk, if_true]
  rfl

/-- A producer of one vector register fills it in its lanes; destination 72 is written nowhere (R17). -/
theorem State.fillFrom_lanes (s : State) (kind : ProdKind) (g r : Nat) (ds : List (Nat × Word)) :
    s.fillFrom { kind := kind, group := g, dests := ds.map (fun x => (x.1, r, x.2)) } =
      (if r = 72 then s else s.writeLanes g r ds).onGroup g id := by
  unfold State.fillFrom State.writeLanes
  simp only [List.foldl_map]
  split_ifs with h
  · rw [List.foldl_fixed]; rfl
  · rfl

/-- A producer of scalars sets them. -/
theorem State.fillFrom_scalars (s : State) (kind : ProdKind) (g : Nat) (ds : List (Nat × Word)) (b : List (BitVec 8)) :
    s.fillFrom { kind := kind, group := g, sdests := ds, block := b } = s.onGroup g (fun g => ds.foldl (fun g d => g.setS d.1 d.2) g) := rfl

theorem State.group_onGroup_id (s : State) (k j : Nat) : (s.onGroup k id).group j = s.group j := by
  rw [State.group_onGroup]; split_ifs with h
  · rw [h]; rfl
  · rfl

/-- The clause of O11 about results in lanes. -/
theorem State.produce_lanes (s : State) (n g r : Nat) (ds : List (Nat × Word)) (kind : ProdKind) (hr : r ≤ 72) (hn : (ds.map (·.1)).Nodup)
    (h : FMap.look s.producers n = some { kind := kind, group := g, dests := ds.map (fun x => (x.1, r, x.2)) }) :
    Settles (s.produce n kind (fun p s => (p, s))) (fun u =>
      (r < 72 → ∀ x ∈ ds, ((u.group g).lane x.1).reg r = x.2 ∧ ((u.group g).lane x.1).isEmpty r = false) ∧
      (∀ k j, ((u.group k).lane j).lr = ((s.group k).lane j).lr ∧ ((u.group k).lane j).lrValid = ((s.group k).lane j).lrValid) ∧
      (∀ k j q, q < 72 → ¬ (k = g ∧ j ∈ ds.map (·.1) ∧ q = r) →
        ((u.group k).lane j).reg q = ((s.group k).lane j).reg q ∧ ((u.group k).lane j).isEmpty q = ((s.group k).lane j).isEmpty q) ∧
      u.producers = FMap.del s.producers n ∧ u.mem = s.mem ∧ u.accesses = s.accesses) := by
  refine ⟨_, s.produce_eq n _ kind _ h rfl, ?_⟩
  rw [State.fillFrom_lanes]
  simp only [State.group_onGroup_id]
  rcases Nat.lt_or_eq_of_le hr with hlt | rfl
  · rw [if_neg (by omega)]
    generalize hs' : ({ s with producers := FMap.del s.producers n } : State) = s'
    have hg : ∀ k, s'.group k = s.group k := fun k => by rw [← hs']; rfl
    obtain ⟨gs, di, e⟩ := s'.writeLanes_eq g r ds
    refine ⟨fun _ x hx => ?_, fun k j => ?_, fun k j q hq hne => ?_, ?_⟩
    · rw [State.lane_writeLanes_hit _ _ _ _ hn x hx, Lane.reg_setReg, Lane.isEmpty_setReg _ _ _ _ hlt]; simp
    · rcases State.lane_writeLanes g r ds s' hn k j with e | ⟨-, v, e⟩
      · rw [e, hg]; exact ⟨rfl, rfl⟩
      · rw [e, hg]; exact ⟨rfl, rfl⟩
    · rcases State.lane_writeLanes g r ds s' hn k j with e | ⟨⟨hk, hj⟩, v, e⟩
      · rw [e, hg]; exact ⟨rfl, rfl⟩
      · have hqr : q ≠ r := fun c => hne ⟨hk, hj, c⟩
        rw [e, hg, Lane.reg_setReg, Lane.isEmpty_setReg _ _ _ _ hq, if_neg hqr, if_neg hqr]; exact ⟨rfl, rfl⟩
    · rw [e, ← hs']; exact ⟨rfl, rfl, rfl⟩
  · rw [if_pos rfl]
    exact ⟨fun c => absurd c (by omega), fun _ _ => ⟨rfl, rfl⟩, fun _ _ _ _ _ => ⟨rfl, rfl⟩, rfl, rfl, rfl⟩

/-! ### Results in scalar registers -/

/-- The state after a producer's end, as O11 says it: the producer is gone, and of all groups only the scalars named by `w` of group `k` have changed. -/
def State.ScalarsFilled (s : State) (n k : Nat) (w : Nat → Option Word) (u : State) : Prop :=
  u.producers = FMap.del s.producers n ∧ s.othersSame u k ∧
  { u.group k with sregs := (s.group k).sregs, sEmpty := (s.group k).sEmpty } = s.group k ∧
  ∀ q, q < 32 → match w q with
    | some x => (u.group k).s q = x ∧ (u.group k).sIsEmpty q = false
    | none => (u.group k).s q = (s.group k).s q ∧ (u.group k).sIsEmpty q = (s.group k).sIsEmpty q

/-- The result of a producer of scalars, on a state `t` that has the groups and producers of `s`. -/
theorem State.scalarsFilled_onGroup (s t : State) (n k : Nat) (w : Nat → Option Word) (f : Group → Group) (ht : ∀ j, t.group j = s.group j)
    (hp : t.producers = s.producers) (hf : ∀ g : Group, { f g with sregs := g.sregs, sEmpty := g.sEmpty } = g)
    (hw : ∀ g : Group, ∀ q, q < 32 → match w q with
      | some x => (f g).s q = x ∧ (f g).sIsEmpty q = false
      | none => (f g).s q = g.s q ∧ (f g).sIsEmpty q = g.sIsEmpty q) :
    s.ScalarsFilled n k w (({ t with producers := FMap.del t.producers n } : State).onGroup k f) := by
  have hk : (({ t with producers := FMap.del t.producers n } : State).onGroup k f).group k = f (s.group k) := by
    rw [State.group_onGroup_self]; exact congrArg f (ht k)
  refine ⟨by rw [← hp]; rfl, fun j hj => ?_, ?_, fun q hq => ?_⟩
  · rw [State.group_onGroup, if_neg hj]; exact ht j
  · rw [hk]; exact hf _
  · rw [hk]; exact hw _ q hq

/-- One scalar register set. -/
theorem Group.setS_one (g : Group) (r q : Nat) (x : Word) (hq : q < 32) :
    match (if q = r then some x else none) with
    | some z => (g.setS r x).s q = z ∧ (g.setS r x).sIsEmpty q = false
    | none => (g.setS r x).s q = g.s q ∧ (g.setS r x).sIsEmpty q = g.sIsEmpty q := by
  rw [Group.s_setS, Group.sIsEmpty_setS _ _ _ _ hq]
  by_cases h : q = r <;> simp [h]

/-- A pair of scalar registers set. -/
theorem Group.setS_pair (g : Group) (r q : Nat) (x y : Word) (hq : q < 32) :
    match (if q = r then some x else if q = r + 1 then some y else none) with
    | some z => ((g.setS r x).setS (r + 1) y).s q = z ∧ ((g.setS r x).setS (r + 1) y).sIsEmpty q = false
    | none => ((g.setS r x).setS (r + 1) y).s q = g.s q ∧ ((g.setS r x).setS (r + 1) y).sIsEmpty q = g.sIsEmpty q := by
  rw [Group.s_setS, Group.sIsEmpty_setS _ _ _ _ hq, Group.s_setS, Group.sIsEmpty_setS _ _ _ _ hq]
  by_cases h : q = r
  · subst h; simp
  · by_cases h' : q = r + 1 <;> simp [h, h']

/-- LAUNCH_RESULT (R176). -/
theorem State.launchResult_settles (s : State) (n k r : Nat) (v : Word)
    (h : FMap.look s.producers n = some { kind := .launch, group := k, sdests := [(r, v)] }) :
    Settles (exec (.launchResult n) s) (fun u => { u with groups := s.groups, producers := s.producers } = s ∧
      s.ScalarsFilled n k (fun q => if q = r then some v else none) u) := by
  rw [exec_launchResult]
  refine ⟨_, s.produce_eq n _ .launch _ h rfl, ?_⟩
  rw [State.fillFrom_scalars]
  exact ⟨rfl, s.scalarsFilled_onGroup s n k _ (fun g => g.setS r v) (fun _ => rfl) rfl (fun _ => rfl) (fun g q hq => g.setS_one r q v hq)⟩

/-- An earlier METER of the group is still to be answered (R188). -/
def State.meterEarlier (s : State) (n k : Nat) : Prop := ∃ q ∈ s.producers, q.1 < n ∧ q.2.kind = .meter ∧ q.2.group = k

theorem State.meterEarlier_iff (s : State) (n k : Nat) :
    s.meterEarlier n k ↔ s.producers.all (fun q => !(decide (q.1 < n) && q.2.kind == .meter && q.2.group == k)) = false := by
  rw [List.all_eq_false]
  unfold State.meterEarlier
  refine exists_congr fun q => and_congr_right fun _ => ?_
  simp [and_assoc]

/-- METER_RESULT while an earlier one is open. -/
theorem State.meterResult_earlier (s : State) (n k : Nat) (p : Producer) (h : FMap.look s.producers n = some p) (hk : p.group = k)
    (he : s.meterEarlier n k) : exec (.meterResult n) s = .next s := by
  rw [exec_meterResult]
  unfold execMeterResult
  rw [State.meterEarlier_iff] at he
  simp only [h, Option.any_some, hk, he, Bool.not_false, if_true]

/-- METER_RESULT (R188, R381). -/
theorem State.meterResult_settles (s : State) (n k r : Nat)
    (h : FMap.look s.producers n = some { kind := .meter, group := k, sdests := [(r, 0), (r + 1, 0)] }) (he : ¬ s.meterEarlier n k) :
    Settles (exec (.meterResult n) s) (fun u => { u with groups := s.groups, producers := s.producers } = s ∧
      s.ScalarsFilled n k (fun q => if q = r then some (BitVec.ofNat 32 (s.part (s.partOf (s.group k))).pmeter)
        else if q = r + 1 then some (BitVec.ofNat 32 ((s.part (s.partOf (s.group k))).pmeter / 2 ^ 32)) else none) u) := by
  have e : exec (.meterResult n) s = s.produce n .meter (fun p s =>
      ({ p with sdests := p.sdests.mapIdx (fun i d => (d.1, BitVec.ofNat 32 ((s.part (s.partOf (s.group p.group))).pmeter / 2 ^ (32 * i)))) }, s)) := by
    rw [exec_meterResult]
    unfold execMeterResult
    rw [State.meterEarlier_iff, Bool.not_eq_false] at he
    simp only [h, Option.any_some, he, Bool.not_true, Bool.false_eq_true, if_false]
  rw [e]
  refine ⟨_, s.produce_eq n _ .meter _ h rfl, ?_⟩
  simp only [List.mapIdx_cons, List.mapIdx_nil, Nat.mul_zero, pow_zero, Nat.div_one, zero_add, Nat.mul_one]
  rw [State.fillFrom_scalars]
  exact ⟨rfl, s.scalarsFilled_onGroup s n k _ (fun g => (g.setS r _).setS (r + 1) _) (fun _ => rfl) rfl (fun _ => rfl)
    (fun g q hq => g.setS_pair r q _ _ hq)⟩

/-! ### Objects declared -/

theorem TlbOnly.caches {s t : State} (h : TlbOnly s t) : CachesOnly s t :=
  ⟨congrArg (fun x : State => { x with llc := s.llc, parts := s.parts }) h.world,
    fun c => congrArg (fun x : Cluster => { x with
      l1 := (s.cluster c).l1, stale := (s.cluster c).stale, dirty := (s.cluster c).dirty, l1Hits := (s.cluster c).l1Hits,
      l1Misses := (s.cluster c).l1Misses }) (h.cluster c),
    h.die, fun p => congrArg (fun x : State => { x.part p with errcnt := (s.part p).errcnt }) h.world⟩

theorem State.countErr_caches (s : State) (part k n : Nat) : CachesOnly s (s.countErr part k n) := by
  unfold State.countErr
  split_ifs
  · exact CachesOnly.refl s
  · refine ⟨rfl, fun _ => rfl, fun _ => rfl, fun p => ?_⟩
    rw [State.part_onPart]; split_ifs with h
    · rw [h]
    · rfl

/-- What an access leaves behind of translations, errors of the tables among it (R224, R225, R388). -/
theorem State.cachePages_caches (s : State) (cl part : Nat) (use : Access1) (pages : List Nat) : CachesOnly s (s.cachePages cl part use pages) :=
  (s.countErr_caches _ _ _).trans (CachesOnly.foldl _ _ (fun x _ t => (t.putTlb_only cl x).caches) _)

/-- What a producer's end takes back leaves what only caches differ in. -/
theorem CachesOnly.settled {s t : State} (h : CachesOnly s t) : CachesOnly s { t with groups := s.groups, producers := s.producers } :=
  ⟨congrArg (fun x : State => { x with groups := s.groups, producers := s.producers }) h.world, h.cluster, h.die, h.part⟩

/-! #### Lines dropped from an L1 -/

theorem FMap.mem_of_look {α : Type} (m : FMap α) (k : Nat) (v : α) (h : FMap.look m k = some v) : (k, v) ∈ m := by
  induction m with
  | nil => simp at h
  | cons p m ih =>
    obtain ⟨k', v'⟩ := p
    unfold FMap.look at h
    split_ifs at h with hk
    · cases h; rw [hk]; exact List.mem_cons_self
    · exact List.mem_cons_of_mem _ (ih h)

/-- A line that no entry of a cache names is in no way of it. -/
theorem wayOf_eq_none (m : FMap (Nat × Nat)) (set line : Nat) (h : ∀ p ∈ m, p.2.1 ≠ line) : wayOf m set line = none := by
  unfold wayOf setWays
  rw [Option.map_eq_none_iff, List.find?_eq_none]
  intro x hx
  simp only [List.mem_filterMap, Option.map_eq_some_iff] at hx
  obtain ⟨w, -, e, he, rfl⟩ := hx
  have := h _ (FMap.mem_of_look _ _ _ he)
  simpa using this

/-- A key that no entry has is not listed. -/
theorem FMap.look_eq_none {α : Type} (m : FMap α) (k : Nat) (h : ∀ p ∈ m, p.1 ≠ k) : FMap.look m k = none := by
  cases e : FMap.look m k with
  | none => rfl
  | some v => exact absurd rfl (h _ (FMap.mem_of_look _ _ _ e))

/-- Lines dropped from an L1, one after the other. -/
def Cluster.dropLines (c : Cluster) (lines : List Nat) : Cluster := lines.foldl (fun c ln => c.dropLine ln) c

theorem Cluster.dropLines_rest (lines : List Nat) (c : Cluster) :
    { c.dropLines lines with l1 := c.l1, stale := c.stale, dirty := c.dirty, l1Hits := c.l1Hits, l1Misses := c.l1Misses, tlb := c.tlb } = c := by
  induction lines generalizing c with
  | nil => rfl
  | cons ln lines ih =>
    exact congrArg (fun x : Cluster => { x with l1 := c.l1, stale := c.stale, dirty := c.dirty }) (ih (c.dropLine ln))

/-- After lines have been dropped the L1 lists what it listed before, but for those lines. -/
theorem Cluster.mem_dropLines (lines : List Nat) (c : Cluster) :
    (∀ p ∈ (c.dropLines lines).l1, p ∈ c.l1 ∧ p.2.1 ∉ lines) ∧ (∀ p ∈ (c.dropLines lines).stale, p ∈ c.stale ∧ p.1 / 128 ∉ lines) := by
  induction lines generalizing c with
  | nil => exact ⟨fun p hp => ⟨hp, List.not_mem_nil⟩, fun p hp => ⟨hp, List.not_mem_nil⟩⟩
  | cons ln lines ih =>
    obtain ⟨h1, h2⟩ := ih (c.dropLine ln)
    constructor
    · intro p hp
      obtain ⟨hm, hn⟩ := h1 p hp
      obtain ⟨hc, hne⟩ := List.mem_filter.1 (show p ∈ c.l1.filter (fun p => p.2.1 != ln) from hm)
      exact ⟨hc, by simp only [List.mem_cons, not_or]; exact ⟨by simpa using hne, hn⟩⟩
    · intro p hp
      obtain ⟨hm, hn⟩ := h2 p hp
      obtain ⟨hc, hne⟩ := List.mem_filter.1 (show p ∈ c.stale.filter (fun p => p.1 / 128 != ln) from hm)
      exact ⟨hc, by simp only [List.mem_cons, not_or]; exact ⟨by simpa using hne, hn⟩⟩

theorem Cluster.dropLines_gone (lines : List Nat) (c : Cluster) (ln : Nat) (h : ln ∈ lines) :
    (c.dropLines lines).hasLine ln = false ∧ ∀ x, x / 128 = ln → FMap.look (c.dropLines lines).stale x = none := by
  obtain ⟨h1, h2⟩ := c.mem_dropLines lines
  refine ⟨?_, fun x hx => FMap.look_eq_none _ _ (fun p hp e => (h2 p hp).2 (by rw [e, hx]; exact h))⟩
  unfold Cluster.hasLine
  rw [wayOf_eq_none _ _ _ (fun p hp e => (h1 p hp).2 (e ▸ h))]
  rfl

/-! #### The four ends of a declaration -/

section
variable (s : State) (cl part : Nat) (b : List (BitVec 8))

/-- The machine once the pages of a footprint have been walked. -/
def State.walked : State := s.cachePages cl part .read (pagesOf (shapeOf b).footprint.1 (shapeOf b).footprint.2)

theorem State.walked_caches : CachesOnly s (s.walked cl part b) := s.cachePages_caches _ _ _ _

/-- The lines of the footprint, once its pages have been walked. -/
def State.walkedLines : Option (List Nat) := (s.walked cl part b).footLines cl part (shapeOf b).footprint.1 (shapeOf b).footprint.2

/-- The objects that a partition has declared. -/
def State.objectsOf (part : Nat) : FMap Obj := s.objects.filter (fun o => o.2.part == part)

/-- The partition's share of objects (R175). -/
def State.objShare (part : Nat) : Nat := (s.part part).partcfg.toNat / 2 ^ 17 % 2 ^ 14

/-- The object that a declaration of these lines makes. -/
def objDeclared (cl part : Nat) (b : List (BitVec 8)) (lines : List Nat) : Obj :=
  { part := part, first := lines.headD 0, lines := lines.dedup, holder := some cl, head := 128 * lines.headD 0 + (shapeOf b).footprint.1 % 128
    tail := 128 * lines.getLastD 0 + ((shapeOf b).footprint.1 + (shapeOf b).footprint.2 - 1) % 128 }

/-- The machine with a new object declared. -/
def State.withObject (lines : List Nat) : State :=
  ({ s with objects := FMap.put s.objects (objId part (s.objPlace part)) (objDeclared cl part b lines) }.onPart part
    (fun q => { q with objNext := (s.objPlace part + 1) % (2 ^ 29 - 1) })).onCluster cl (fun c => c.dropLines lines)

theorem State.walked_objects : (s.walked cl part b).objects = s.objects := by
  have e := congrArg State.objects (s.walked_caches cl part b).world
  exact e

theorem State.walked_objNext (p : Nat) : ((s.walked cl part b).part p).objNext = (s.part p).objNext := by
  have e := congrArg Partition.objNext ((s.walked_caches cl part b).part p)
  exact e

theorem State.walked_objPlace : (s.walked cl part b).objPlace part = s.objPlace part := by
  unfold State.objPlace
  rw [State.walked_objects, State.walked_objNext]

theorem State.walked_objShare : (s.walked cl part b).objShare part = s.objShare part := by
  have e := congrArg (fun q : Partition => q.partcfg.toNat / 2 ^ 17 % 2 ^ 14) ((s.walked_caches cl part b).part part)
  exact e

theorem State.walked_objectsOf : (s.walked cl part b).objectsOf part = s.objectsOf part := by
  unfold State.objectsOf
  rw [State.walked_objects]

theorem State.declare_noLines (h : s.walkedLines cl part b = none) : s.declare cl part b = (s.walked cl part b, 0xFFFFFFFE) := by
  unfold State.walkedLines State.walked at h
  unfold State.declare State.walked
  simp only [h]

theorem State.declare_lines (lines : List Nat) (h : s.walkedLines cl part b = some lines) :
    s.declare cl part b =
      if s.objShare part ≤ (s.objectsOf part).length then (s.walked cl part b, 0)
      else if (s.objectsOf part).any (fun o => o.2.lines.any (fun ln => lines.contains ln)) then (s.walked cl part b, 0xFFFFFFFF)
      else ((s.walked cl part b).withObject cl part b lines, BitVec.ofNat 32 (objId part (s.objPlace part))) := by
  rw [← s.walked_objShare cl part b, ← s.walked_objectsOf cl part b, ← s.walked_objPlace cl part b]
  unfold State.walkedLines State.walked at h
  unfold State.declare State.walked
  simp only [h]
  rfl

end

/-! #### OBJDECL_RESULT -/

/-- A line of the footprint is busy (R238, R244). -/
def State.footBusy (s : State) (k : Nat) (b : List (BitVec 8)) : Prop :=
  ∃ ln ∈ (s.footLines (s.group k).cluster (s.partOf (s.group k)) (shapeOf b).footprint.1 (shapeOf b).footprint.2).getD [],
    s.lineBusy (s.group k).cluster (s.group k).team ln = true

section
variable (s : State) (n k r : Nat) (b : List (BitVec 8))
  (h : FMap.look s.producers n = some { kind := .objdecl, group := k, sdests := [(r, 0)], block := b })
include h

/-- A declaration waits while a line is busy. -/
theorem State.objdeclResult_busy (hb : s.footBusy k b) : exec (.objdeclResult n) s = .next s := by
  rw [exec_objdeclResult]
  unfold execObjdeclResult
  have hb : (((s.footLines (s.group k).cluster (s.partOf (s.group k)) (shapeOf b).footprint.1 (shapeOf b).footprint.2).getD []).any
      (fun ln => s.lineBusy (s.group k).cluster (s.group k).team ln)) = true := List.any_eq_true.2 hb
  simp only [h, Option.any_some, hb, if_true]

/-- A declaration of which no line is busy gives its value, on the machine that it leaves. -/
theorem State.objdeclResult_free (hb : ¬ s.footBusy k b) (t : State) (x : Word)
    (hd : s.declare (s.group k).cluster (s.partOf (s.group k)) b = (t, x)) :
    exec (.objdeclResult n) s =
      .next ((({ t with producers := FMap.del t.producers n } : State).onGroup k (fun g => g.setS r x)).settleAll) := by
  rw [exec_objdeclResult]
  unfold execObjdeclResult
  have hb : (((s.footLines (s.group k).cluster (s.partOf (s.group k)) (shapeOf b).footprint.1 (shapeOf b).footprint.2).getD []).any
      (fun ln => s.lineBusy (s.group k).cluster (s.group k).team ln)) = false := by
    rw [← Bool.not_eq_true]; exact fun c => hb (List.any_eq_true.1 c)
  simp only [h, Option.any_some, hb, Bool.false_eq_true, if_false]
  rw [s.produce_eq n _ .objdecl _ h rfl]
  simp only [hd]
  rfl

/-- A declaration that makes no object. -/
theorem State.objdeclResult_refused (hb : ¬ s.footBusy k b) (x : Word)
    (hd : s.declare (s.group k).cluster (s.partOf (s.group k)) b = (s.walked (s.group k).cluster (s.partOf (s.group k)) b, x)) :
    Settles (exec (.objdeclResult n) s) (fun u =>
      CachesOnly s { u with groups := s.groups, producers := s.producers } ∧ s.ScalarsFilled n k (fun q => if q = r then some x else none) u) := by
  have hc := s.walked_caches (s.group k).cluster (s.partOf (s.group k)) b
  obtain ⟨-, -, -, -, hg, -, -, -, -, hp, -⟩ := hc.kept
  refine ⟨_, s.objdeclResult_free n k r b h hb _ _ hd, hc.settled, ?_⟩
  exact s.scalarsFilled_onGroup _ n k _ (fun g => g.setS r x) (fun j => congrArg (fun m => FMap.at ({} : Group) m j) hg) hp (fun _ => rfl)
    (fun g q hq => g.setS_one r q x hq)

/-- A declaration that makes an object (R175, R214, R237). -/
theorem State.objdeclResult_declared (hb : ¬ s.footBusy k b) (lines : List Nat)
    (hd : s.declare (s.group k).cluster (s.partOf (s.group k)) b =
      ((s.walked (s.group k).cluster (s.partOf (s.group k)) b).withObject (s.group k).cluster (s.partOf (s.group k)) b lines,
        BitVec.ofNat 32 (objId (s.partOf (s.group k)) (s.objPlace (s.partOf (s.group k)))))) :
    Settles (exec (.objdeclResult n) s) (fun u =>
      CachesOnly s { u with groups := s.groups, producers := s.producers, objects := s.objects, parts := s.parts } ∧
      (∀ p, { u.part p with errcnt := (s.part p).errcnt } = { s.part p with
        objNext := if p = s.partOf (s.group k) then (s.objPlace (s.partOf (s.group k)) + 1) % (2 ^ 29 - 1) else (s.part p).objNext }) ∧
      (∀ ln ∈ lines, (u.cluster (s.group k).cluster).hasLine ln = false ∧
        ∀ x, x / 128 = ln → FMap.look (u.cluster (s.group k).cluster).stale x = none) ∧
      s.ScalarsFilled n k (fun q => if q = r then some (BitVec.ofNat 32 (objId (s.partOf (s.group k)) (s.objPlace (s.partOf (s.group k))))) else none) u ∧
      u.objects = FMap.put s.objects (objId (s.partOf (s.group k)) (s.objPlace (s.partOf (s.group k))))
        (objDeclared (s.group k).cluster (s.partOf (s.group k)) b lines)) := by
  generalize hcl : (s.group k).cluster = cl at hd ⊢
  generalize hpart : s.partOf (s.group k) = part at hd ⊢
  have hc := s.walked_caches cl part b
  have hobj := s.walked_objects cl part b
  have hplace := s.walked_objPlace cl part b
  generalize s.walked cl part b = t at hc hd hobj hplace
  obtain ⟨-, -, -, -, hg, -, -, -, -, hp, -⟩ := hc.kept
  rw [← hcl, ← hpart] at hd
  have hx := s.objdeclResult_free n k r b h hb _ _ hd
  rw [hcl, hpart] at hx
  refine ⟨_, hx, ?_, fun p => ?_, fun ln hln => ?_, ?_, ?_⟩
  · have hd : CachesOnly t (t.onCluster cl (fun c => c.dropLines lines)) := t.onCluster_caches _ _ (fun c => c.dropLines_rest lines)
    have hs := hc.trans hd
    exact ⟨congrArg (fun x : State => { x with groups := s.groups, producers := s.producers, objects := s.objects }) hs.world, hs.cluster,
      hs.die, fun _ => rfl⟩
  · change { ((t.withObject cl part b lines).part p) with errcnt := (s.part p).errcnt } = _
    have e : (t.withObject cl part b lines).part p =
        if p = part then { t.part part with objNext := (t.objPlace part + 1) % (2 ^ 29 - 1) } else t.part p := FMap.at_put _ _ _ _ _
    rw [e, hplace]
    have hp := hc.part p
    split_ifs with c
    · rw [← c]; exact congrArg (fun q : Partition => { q with objNext := (s.objPlace p + 1) % (2 ^ 29 - 1) }) hp
    · exact hp
  · have e : (t.withObject cl part b lines).cluster cl = (t.cluster cl).dropLines lines := State.cluster_onCluster_self _ _ _
    change ((t.withObject cl part b lines).cluster cl).hasLine ln = false ∧
      ∀ x, x / 128 = ln → FMap.look ((t.withObject cl part b lines).cluster cl).stale x = none
    rw [e]
    exact Cluster.dropLines_gone lines _ ln hln
  · exact s.scalarsFilled_onGroup (t.withObject cl part b lines) n k _ (fun g => g.setS r _)
      (fun j => congrArg (fun m => FMap.at ({} : Group) m j) hg) hp (fun _ => rfl) (fun g q hq => g.setS_one r q _ hq)
  · change FMap.put t.objects (objId part (t.objPlace part)) (objDeclared cl part b lines) = _
    rw [hobj, hplace]

end

/-- A share that is full, or lines that an object holds already. -/
theorem State.overlap_iff (s : State) (part : Nat) (lines : List Nat) :
    (∃ o ∈ s.objectsOf part, ∃ ln ∈ o.2.lines, ln ∈ lines) ↔
      (s.objectsOf part).any (fun o => o.2.lines.any (fun ln => lines.contains ln)) = true := by
  simp only [List.any_eq_true, List.contains_iff_mem]

/-- Settles O11: results of producers are written register by register; a declaration differs from its state by caches until it makes an object. -/
theorem producerResultsArrive : Obligations.ProducerResultsArrive := by
  unfold Obligations.ProducerResultsArrive
  refine ⟨fun s n g r ds hr hn => ⟨fun h => ?_, fun h => ?_⟩, fun s n k r v b _ => ⟨fun h => ?_, fun _ h => ⟨fun he => ?_, fun he => ?_⟩, fun h => ?_⟩⟩
  · show Settles (exec (.sfuResult n) s) _
    rw [exec_sfuResult]; exact s.produce_lanes n g r ds _ hr hn h
  · show Settles (exec (.lreadResult n) s) _
    rw [exec_lreadResult]; exact s.produce_lanes n g r ds _ hr hn h
  · exact s.launchResult_settles n k r v h
  · exact s.meterResult_earlier n k _ h rfl he
  · exact s.meterResult_settles n k r h he
  · refine ⟨fun hb => s.objdeclResult_busy n k r b h hb, fun hb hl => ?_, fun lines hb hl => ?_⟩
    · exact s.objdeclResult_refused n k r b h hb _ (s.declare_noLines _ _ _ hl)
    · have hd := s.declare_lines (s.group k).cluster (s.partOf (s.group k)) b lines hl
      refine ⟨fun hs => ?_, fun hs ho => ?_, fun hs ho => ?_⟩
      · exact s.objdeclResult_refused n k r b h hb _ (hd.trans (if_pos hs))
      · exact s.objdeclResult_refused n k r b h hb _ (hd.trans ((if_neg (Nat.not_le.2 hs)).trans (if_pos ((s.overlap_iff _ _).1 ho))))
      · exact s.objdeclResult_declared n k r b h hb lines
          (hd.trans ((if_neg (Nat.not_le.2 hs)).trans (if_neg (fun c => ho ((s.overlap_iff _ _).2 c)))))

end Sys2Proof.Machine
end

