-- ==== Sys2Proof/Proofs/Exceptions.lean ====
section
/-! SUPPORT. Taking an exception (Control.lean, R300, R337 to R345; Ends.lean, R338 to R340), and obligation O41. -/
namespace Sys2Proof.Machine

/-! ### Containment where no region is open -/

/-- With no region open the abort of no region drops empty entries of the sectors' versions, nothing else. -/
theorem State.abortRegions_nil (s : State) (sel : Nat) (keep : Bool) (h : s.openSlots = []) :
    ∃ x, s.abortRegions [] sel keep = { s with sectors := x } := by
  have hc : s.cascade 16 [] = [] := by
    unfold State.cascade
    simp only [h, List.filter_nil, List.isEmpty_nil, if_true]
  unfold State.abortRegions
  simp only [hc]
  have ho (x) : ({ s with sectors := x } : State).openSlots = [] := h
  unfold State.refreshSlots
  simp only [ho, List.foldl_nil]
  exact ⟨_, rfl⟩

/-- Two states agree but for the slots, the versions of sectors, and for the slot that each lane of group `k` keeps for its retry. -/
structure Unreserved (k : Nat) (s t : State) : Prop where
  world : { t with groups := s.groups, dies := s.dies, sectors := s.sectors } = s
  group : { t.group k with lanes := (s.group k).lanes } = s.group k
  lane : ∀ l, { (t.group k).lane l with reserved := ((s.group k).lane l).reserved } = (s.group k).lane l

theorem Unreserved.refl (k : Nat) (s : State) : Unreserved k s s := ⟨rfl, rfl, fun _ => rfl⟩

theorem Unreserved.trans {k : Nat} {s t u : State} (h : Unreserved k s t) (h' : Unreserved k t u) : Unreserved k s u :=
  ⟨(congrArg (fun x : State => { x with groups := s.groups, dies := s.dies, sectors := s.sectors }) h'.world).trans h.world,
    (congrArg (fun x : Group => { x with lanes := (s.group k).lanes }) h'.group).trans h.group,
    fun l => (congrArg (fun x : Lane => { x with reserved := ((s.group k).lane l).reserved }) (h'.lane l)).trans (h.lane l)⟩

theorem State.freeReserved_step (s : State) (k l : Nat) (id : Nat) :
    Unreserved k s ((s.onSlot id (fun _ => {})).onGroup k (fun g => g.onLane l (fun n => { n with reserved := none }))) := by
  have e : ((s.onSlot id (fun _ => {})).onGroup k (fun g => g.onLane l (fun n => { n with reserved := none }))).group k =
      (s.group k).onLane l (fun n => { n with reserved := none }) := State.group_onGroup_self _ _ _
  refine ⟨rfl, by rw [e]; rfl, fun j => ?_⟩
  rw [e, Group.lane_onLane]
  split_ifs with h
  · rw [h]
  · rfl

/-- The slots kept for lanes of a group given back (R281). -/
theorem State.freeReserved_unreserved (s : State) (k : Nat) (m : LaneSet) : Unreserved k s (s.freeReserved k m) := by
  unfold State.freeReserved
  generalize lanesIn m = ls
  induction ls generalizing s with
  | nil => exact Unreserved.refl k s
  | cons l ls ih =>
    rw [List.foldl_cons]
    refine Unreserved.trans ?_ (ih _)
    split
    · exact s.freeReserved_step k l _
    · exact Unreserved.refl k s

theorem Unreserved.counts {k : Nat} {s t : State} (h : Unreserved k s t) (l : Nat) : ((t.group k).lane l).counts = ((s.group k).lane l).counts := by
  have e := congrArg Lane.counts (h.lane l)
  exact e

theorem Unreserved.countSet {k : Nat} {s t : State} (h : Unreserved k s t) : (t.group k).countSet = (s.group k).countSet := by
  unfold Group.countSet
  simp only [h.counts]

/-- A lane exited by containment. -/
def Lane.exited (n : Lane) : Lane := { n with cond := .exited, place := .none, region := none, aborting := false }

/-- What containment makes of a group: every live or parked lane is exited, and issue stops (R345). -/
def Group.stopAll (g : Group) (e : Option Exit) : Group :=
  { g.mapLanes g.countSet (fun _ n => n.exited) with
    gatherings := [], deferred := [], run := { g.run with stopped := true }, halt := .no, contained := e }

theorem Group.lane_stopAll (g : Group) (e : Option Exit) {l : Nat} (h : l < 64) : (g.stopAll e).lane l =
    if (g.lane l).counts then (g.lane l).exited else g.lane l := by
  have : inSet g.countSet l = (g.lane l).counts := by simp [Group.countSet, h]
  rw [← this]
  exact g.lane_mapLanes g.countSet (fun _ n => n.exited) h

/-- Dumps are enabled for the partition of a team (R362). -/
def State.dumpsOf (s : State) (team : Nat) : Bool := (s.part (s.grid (s.team team).grid).part).dumpEn

/-- The exit status of a containment (R345, R362). -/
def State.exitOf (s : State) (k code detail : Nat) (defer : Bool) (pc : Word) : Exit :=
  { cause := code, detail := detail, lanes := (lanesIn (s.group k).countSet).length, defer := defer, ord := (s.group k).safeord, pc := pc
    dump := code != 0xA3 && code != 0xA4 && decide (code < 0xB0) && s.dumpsOf (s.group k).team }

theorem Unreserved.exitOf {k : Nat} {s t : State} (h : Unreserved k s t) (code detail : Nat) (defer : Bool) (pc : Word) :
    t.exitOf k code detail defer pc = s.exitOf k code detail defer pc := by
  have ord : (t.group k).safeord = (s.group k).safeord := by
    have e := congrArg Group.safeord h.group
    exact e
  have team : (t.group k).team = (s.group k).team := by
    have e := congrArg Group.team h.group
    exact e
  have dumps (j) : t.dumpsOf j = s.dumpsOf j := by
    have e := congrArg (fun v : State => v.dumpsOf j) h.world
    exact e
  unfold State.exitOf
  rw [h.countSet, ord, team, dumps]

/-- A contained group, and what stands of it for a dump (R345, R362). -/
structure Contained (s : State) (k code detail : Nat) (defer : Bool) (pc : Word) (tr : TrapRegs) (u : State) : Prop where
  exit : (u.group k).contained = some (s.exitOf k code detail defer pc)
  counts : ∀ l, l < 64 → ((u.group k).lane l).counts = false
  exited : ∀ l, l < 64 → ((s.group k).lane l).counts = true → ((u.group k).lane l).cond = .exited
  pending : (u.group k).trapPending = (s.group k).trapPending
  handler : (u.group k).handler = (s.group k).handler
  stopped : (u.group k).run.stopped = true
  trap : (u.group k).trap = tr
  mem : u.mem = s.mem

/-- Containment told from an earlier state in which the group differs by its run, its trap registers and its deferred faults. -/
theorem Contained.earlier {s v u : State} {k code detail : Nat} {defer : Bool} {pc : Word} {tr : TrapRegs} (h : Contained v k code detail defer pc tr u)
    (hw : { v with groups := s.groups } = s)
    (hg : { v.group k with run := (s.group k).run, trap := (s.group k).trap, deferred := (s.group k).deferred } = s.group k) :
    Contained s k code detail defer pc tr u := by
  have lane (l) : (v.group k).lane l = (s.group k).lane l := by
    have e := congrArg (fun g : Group => g.lane l) hg
    exact e
  have exitOf : v.exitOf k code detail defer pc = s.exitOf k code detail defer pc := by
    have count : (v.group k).countSet = (s.group k).countSet := by
      have e := congrArg Group.countSet hg
      exact e
    have ord : (v.group k).safeord = (s.group k).safeord := by
      have e := congrArg Group.safeord hg
      exact e
    have team : (v.group k).team = (s.group k).team := by
      have e := congrArg Group.team hg
      exact e
    have dumps (j) : v.dumpsOf j = s.dumpsOf j := by
      have e := congrArg (fun v : State => v.dumpsOf j) hw
      exact e
    unfold State.exitOf
    rw [count, ord, team, dumps]
  have pending := congrArg Group.trapPending hg
  have handler := congrArg Group.handler hg
  have mem := congrArg State.mem hw
  exact ⟨by rw [← exitOf]; exact h.exit, h.counts, fun l hl hc => h.exited l hl (by rw [lane]; exact hc), h.pending.trans pending,
    h.handler.trans handler, h.stopped, h.trap, h.mem.trans mem⟩

theorem State.group_dropWaiters (s : State) (gs : List Nat) (j : Nat) : (s.dropWaiters gs).group j = s.group j := rfl

/-- Containment of a group, once its regions have aborted and its slots are given back. -/
theorem State.contain_stopAll (s a t : State) (k code detail : Nat) (defer : Bool) (pc : Word) (ha : s.abortRegions (s.groupSlots k) 1 false = a)
    (ht : a.freeReserved k (a.group k).countSet = t) (hc : (t.group k).contained = none) :
    (s.contain k code detail defer pc).group k = (t.group k).stopAll (some (t.exitOf k code detail defer pc)) ∧
    (s.contain k code detail defer pc).mem = t.mem := by
  unfold State.contain
  simp only [ha, ht, State.group_onTeam, State.group_dropWaiters, State.group_onGroup_self, hc]
  exact ⟨rfl, rfl⟩

/-- Containment of a group with no region open (R345). -/
theorem State.contain_contained (s : State) (k code detail : Nat) (defer : Bool) (pc : Word) (ho : s.openSlots = [])
    (hc : (s.group k).contained = none) : Contained s k code detail defer pc (s.group k).trap (s.contain k code detail defer pc) := by
  obtain ⟨x, hx⟩ := s.abortRegions_nil 1 false ho
  have hg : s.groupSlots k = [] := by unfold State.groupSlots; rw [ho]; rfl
  have hf : Unreserved k s (({ s with sectors := x } : State).freeReserved k (s.group k).countSet) := by
    have h0 : Unreserved k s { s with sectors := x } := ⟨rfl, rfl, fun _ => rfl⟩
    exact h0.trans (State.freeReserved_unreserved _ _ _)
  have hu : ∃ t, Unreserved k s t ∧
      (s.contain k code detail defer pc).group k = (t.group k).stopAll (some (t.exitOf k code detail defer pc)) ∧
      (s.contain k code detail defer pc).mem = t.mem := by
    have hcont := congrArg Group.contained hf.group
    exact ⟨_, hf, s.contain_stopAll _ _ k code detail defer pc (by rw [hg]; exact hx) rfl (hcont.trans hc)⟩
  obtain ⟨t, hf, hu, hm⟩ := hu
  rw [hf.exitOf] at hu
  refine ⟨by rw [hu]; rfl, fun l hl => ?_, fun l hl h => ?_, ?_, ?_, by rw [hu]; rfl, ?_, ?_⟩
  · rw [hu, Group.lane_stopAll _ _ hl]
    split_ifs with h
    · rfl
    · simpa using h
  · rw [hu, Group.lane_stopAll _ _ hl, if_pos (by rw [hf.counts]; exact h)]; rfl
  · have e := congrArg Group.trapPending hf.group
    rw [hu]; exact e
  · have e := congrArg Group.handler hf.group
    rw [hu]; exact e
  · have e := congrArg Group.trap hf.group
    rw [hu]; exact e
  · have e := congrArg State.mem hf.world
    rw [hm]; exact e

/-! ### The branches of an exception -/

section
variable (s : State) (k : Nat) (x : Trap) (resume : Option ResumePt)

/-- The state in which the run of a group has ended at a word that traps. -/
def State.stopRun : State := s.onGroup k (fun g => { g with run := { g.run with stopped := true } })

/-- The cause becomes a fault of the level (R300). -/
def State.faultsLevel : Prop := (s.team (s.group k).team).rlevel ≠ 0 ∧ ((s.group k).handler = true ∨ (!passesLevel x.code) = true)

theorem State.raise_level (h : s.faultsLevel k x) : s.raise k x resume = (s.stopRun k).levelFault (s.group k).team x.code := by
  unfold State.faultsLevel at h
  unfold State.raise State.stopRun
  simp only [if_pos h]

theorem State.raise_inHandler (h : ¬ s.faultsLevel k x) (hh : (s.group k).handler = true) :
    s.raise k x resume = (s.stopRun k).contain k 0x19 x.code false (s.group k).trap.pc := by
  unfold State.faultsLevel at h
  unfold State.raise State.stopRun
  simp only [if_neg h, if_pos hh]

theorem State.raise_noHandler (h : ¬ s.faultsLevel k x) (hh : (s.group k).handler = false)
    (hn : (s.grid (s.team (s.group k).team).grid).record.handler = 0xFFFFFFFF) :
    s.raise k x resume = ((s.stopRun k).onGroup k (fun g => { g with trap := x.regs })).contain k x.code x.detail x.defer x.hdr := by
  unfold State.faultsLevel at h
  unfold State.raise State.stopRun
  simp only [if_neg h, if_neg (Bool.eq_false_iff.1 hh)]
  exact if_pos hn

theorem State.raise_pending (h : ¬ s.faultsLevel k x) (hh : (s.group k).handler = false)
    (hn : (s.grid (s.team (s.group k).team).grid).record.handler ≠ 0xFFFFFFFF) :
    s.raise k x resume = (s.stopRun k).onGroup k (fun g => { g with trap := x.regs, trapPending := true, trapAt := resume, faultRegs := [] }) := by
  unfold State.faultsLevel at h
  unfold State.raise State.stopRun
  simp only [if_neg h, if_neg (Bool.eq_false_iff.1 hh)]
  exact if_neg hn

/-- A cause excepted by R300 from those that become a fault of the level. -/
def excepted (code : Nat) : Prop := code = 0x0E ∨ code = 0x31 ∨ code = 0x35 ∨ code = 0xA0 ∨ code = 0xA1 ∨ code = 0xA2

theorem passesLevel_iff (code : Nat) : passesLevel code = true ↔ excepted code := by
  unfold passesLevel excepted
  simp [or_assoc]

theorem State.not_faultsLevel_of_noLevel (h : (s.team (s.group k).team).levels = []) : ¬ s.faultsLevel k x := by
  unfold State.faultsLevel Team.rlevel
  rw [h]
  exact fun c => c.1 rfl

theorem State.not_faultsLevel_of_excepted (h : excepted x.code) (hh : (s.group k).handler = false) : ¬ s.faultsLevel k x := by
  unfold State.faultsLevel
  rw [hh, (passesLevel_iff _).2 h]
  simp

theorem State.faultsLevel_of_level (below : List Level) (lv : Level) (h : (s.team (s.group k).team).levels = below ++ [lv])
    (he : ¬ excepted x.code ∨ (s.group k).handler = true) : s.faultsLevel k x := by
  unfold State.faultsLevel Team.rlevel
  refine ⟨by rw [h]; simp, he.symm.imp id (fun c => ?_)⟩
  rw [Bool.not_eq_true', ← Bool.not_eq_true, passesLevel_iff]
  exact c

/-- What the trap registers hold for a cause (R15), field by field. -/
def Trap.fields (x : Trap) : TrapRegs :=
  { cause := BitVec.ofNat 32 (x.code % 256 + (if x.defer then 2 ^ 8 else 0) + x.word % 16 * 2 ^ 16 + x.detail % 2 ^ 12 * 2 ^ 20)
    pc := x.hdr, addr := x.addr, lanes := x.lanes }

theorem Trap.regs_eq_fields (x : Trap) : x.regs = x.fields := by
  unfold Trap.regs Trap.fields trapCause
  simp only [Bool.false_eq_true, if_false, Nat.add_zero]
  rfl

/-- A handler is to run (R337). -/
theorem State.raise_handled (h : ¬ s.faultsLevel k x) (hh : (s.group k).handler = false)
    (hn : (s.grid (s.team (s.group k).team).grid).record.handler ≠ 0xFFFFFFFF) :
    { s.raise k x resume with groups := s.groups } = s ∧ s.othersSame (s.raise k x resume) k ∧
    (s.raise k x resume).group k = { s.group k with
      run := { (s.group k).run with stopped := true }, trapPending := true, trapAt := resume, faultRegs := [], trap := x.fields } := by
  rw [s.raise_pending k x resume h hh hn, Trap.regs_eq_fields]
  unfold State.stopRun
  refine ⟨rfl, fun j hj => ?_, ?_⟩
  · rw [State.group_onGroup, if_neg hj, State.group_onGroup, if_neg hj]
  · rw [State.group_onGroup_self, State.group_onGroup_self]

/-- A cause in a handler (R339). -/
theorem State.raise_contained_inHandler (h : ¬ s.faultsLevel k x) (hh : (s.group k).handler = true) (ho : s.openSlots = [])
    (hc : (s.group k).contained = none) :
    Contained s k 0x19 x.code false (s.group k).trap.pc (s.group k).trap (s.raise k x resume) := by
  have e : (s.stopRun k).group k = { s.group k with run := { (s.group k).run with stopped := true } } := State.group_onGroup_self _ _ _
  rw [s.raise_inHandler k x resume h hh]
  have hd := (s.stopRun k).contain_contained k 0x19 x.code false (s.group k).trap.pc ho (by rw [e]; exact hc)
  rw [show ((s.stopRun k).group k).trap = (s.group k).trap by rw [e]] at hd
  exact hd.earlier rfl (by rw [e])

/-- A cause with no handler named (R343). -/
theorem State.raise_contained_noHandler (h : ¬ s.faultsLevel k x) (hh : (s.group k).handler = false)
    (hn : (s.grid (s.team (s.group k).team).grid).record.handler = 0xFFFFFFFF) (ho : s.openSlots = []) (hc : (s.group k).contained = none) :
    Contained s k x.code x.detail x.defer x.hdr x.fields (s.raise k x resume) := by
  rw [s.raise_noHandler k x resume h hh hn, Trap.regs_eq_fields]
  have e : ((s.stopRun k).onGroup k (fun g => { g with trap := x.fields })).group k =
      { s.group k with run := { (s.group k).run with stopped := true }, trap := x.fields } := by
    rw [State.group_onGroup_self, State.stopRun, State.group_onGroup_self]
  have hd := ((s.stopRun k).onGroup k (fun g => { g with trap := x.fields })).contain_contained k x.code x.detail x.defer x.hdr ho
    (by rw [e]; exact hc)
  rw [show (((s.stopRun k).onGroup k (fun g => { g with trap := x.fields })).group k).trap = x.fields by rw [e]] at hd
  exact hd.earlier rfl (by rw [e])

/-- A fault of a level that no conversation joins to others (R300, R301). -/
theorem State.raise_rollsBack (h : s.faultsLevel k x) (below : List Level) (lv : Level)
    (hl : (s.team (s.group k).team).levels = below ++ [lv]) (hconv : lv.conv = 0) (hr : (s.team (s.group k).team).rollback = none) :
    s.rollsBack (s.raise k x resume) (s.group k).team x.code ∧
    { s.raise k x resume with teams := s.teams, groups := s.groups } = s ∧ s.othersSame (s.raise k x resume) k ∧
    (s.raise k x resume).group k = { s.group k with run := { (s.group k).run with stopped := true } } := by
  rw [s.raise_level k x resume h]
  generalize htm : (s.group k).team = t at hl hr ⊢
  have hlast : (s.team t).levels.getLast? = some lv := by rw [hl]; simp
  have hp : (s.stopRun k).parties t = [t] := by
    unfold State.parties
    rw [show (s.stopRun k).team t = s.team t from rfl, hlast]
    simp only [hconv, if_true]
  have hlen : ((s.stopRun k).team t).rlevel = below.length + 1 := by
    rw [show (s.stopRun k).team t = s.team t from rfl, Team.rlevel, hl]; simp
  unfold State.levelFault State.beginRollback
  rw [hp, hlen, List.foldl_cons, List.foldl_nil]
  refine ⟨⟨below, lv, hl, fun j => ?_⟩, rfl, fun j hj => ?_, ?_⟩
  · rw [State.team_onTeam, show (s.stopRun k).team t = s.team t from rfl, hr, hlast, hl]
    split_ifs with hj
    · rw [hj]; simp
    · rfl
  · rw [State.group_onTeam, State.stopRun, State.group_onGroup, if_neg hj]
  · rw [State.group_onTeam, State.stopRun, State.group_onGroup_self]

end

/-! ### Deferred traps -/

section
variable (s : State) (k : Nat) (d : Deferred)

/-- A deferred fault whose pages the service made present. -/
def Deferred.present (d : Deferred) : Bool := (d.code == 0x31 || d.code == 0x35) && d.granted

/-- The trap of a deferred fault (R338, R340). -/
def Deferred.trap (d : Deferred) : Trap :=
  { code := d.code, detail := d.detail + (if d.present then 2 ^ 11 else 0), hdr := d.hdr, word := d.word, lanes := d.lanes, addr := d.addr, defer := true }

/-- The trap registers of a deferred fault, field by field. -/
def Deferred.fields (d : Deferred) : TrapRegs :=
  { cause := BitVec.ofNat 32 (d.code % 256 + 2 ^ 8 + d.word % 16 * 2 ^ 16 + (d.detail + (if d.present then 2 ^ 11 else 0)) % 2 ^ 12 * 2 ^ 20)
    pc := d.hdr, addr := d.addr, lanes := d.lanes }

theorem Deferred.trap_fields (d : Deferred) : d.trap.fields = d.fields := by
  unfold Trap.fields Deferred.trap Deferred.fields
  simp only [if_true]

/-- A fault taken off the list of its group. -/
def State.forget : State := s.onGroup k (fun g => { g with deferred := g.deferred.erase d })

/-- A fault with a handler to run, or with pages that were refused. -/
theorem State.takeFault_raise (h : ¬ (d.present = true ∧ (s.gridOf (s.group k)).record.handler = 0xFFFFFFFF)) :
    s.takeFault k d = ((s.forget k d).raise k d.trap none).onGroup k (fun g => if g.trapPending then { g with faultRegs := d.regs } else g) := by
  have hb : (d.present && (s.gridOf (s.group k)).record.handler == 0xFFFFFFFF) = false := by
    rw [← Bool.not_eq_true, Bool.and_eq_true, beq_iff_eq]; exact h
  unfold Deferred.present at hb
  unfold State.takeFault State.forget Deferred.trap Deferred.present
  simp only [hb, Bool.false_eq_true, if_false]

/-- A fault whose pages are present where no handler is named. -/
theorem State.takeFault_resume (h : d.present = true) (hn : (s.gridOf (s.group k)).record.handler = 0xFFFFFFFF) :
    s.takeFault k d = (s.onGroup k (fun g => { g with trap := d.trap.regs })).resumeFault k d := by
  have hb : (d.present && (s.gridOf (s.group k)).record.handler == 0xFFFFFFFF) = true := by simp [h, hn]
  unfold Deferred.present at hb
  unfold State.takeFault Deferred.trap Deferred.present
  simp only [hb, if_true]

theorem State.deferredTrapTaken_eq (hb : s.trapBoundary k = true) (hd : s.nextFault k = some d) :
    exec (.deferredTrapTaken k) s = .next (s.takeFault k d).settleAll := by
  rw [exec_deferredTrapTaken]
  unfold execDeferredTrapTaken
  simp only [hb, hd, if_true]

theorem State.group_forget : (s.forget k d).group k = { s.group k with deferred := (s.group k).deferred.erase d } := State.group_onGroup_self _ _ _

theorem State.forget_team : ((s.forget k d).group k).team = (s.group k).team := by rw [State.group_forget]

/-- A deferred trap with a handler named (R338 to R340). -/
theorem State.takeFault_handled (hl : (s.team (s.group k).team).levels = []) (hh : (s.group k).handler = false)
    (hn : (s.gridOf (s.group k)).record.handler ≠ 0xFFFFFFFF) :
    { s.takeFault k d with groups := s.groups } = s ∧ s.othersSame (s.takeFault k d) k ∧
    (s.takeFault k d).group k = { s.group k with
      deferred := (s.group k).deferred.erase d, run := { (s.group k).run with stopped := true }, trapPending := true, trapAt := none,
      faultRegs := d.regs, trap := d.fields } := by
  rw [s.takeFault_raise k d (fun c => hn c.2)]
  have hf : ¬ (s.forget k d).faultsLevel k d.trap := State.not_faultsLevel_of_noLevel _ _ _ (by rw [State.forget_team]; exact hl)
  obtain ⟨hw, ho, hg⟩ := (s.forget k d).raise_handled k d.trap none hf (by rw [State.group_forget]; exact hh) (by rw [State.forget_team]; exact hn)
  refine ⟨congrArg (fun v : State => { v with groups := s.groups }) hw, fun j hj => ?_, ?_⟩
  · rw [State.group_onGroup, if_neg hj, ho j hj, State.forget, State.group_onGroup, if_neg hj]
  · rw [State.group_onGroup_self, hg, State.group_forget, Deferred.trap_fields]; rfl

/-- A deferred trap with no handler named and pages refused (R343). -/
theorem State.takeFault_contained (hl : (s.team (s.group k).team).levels = []) (hh : (s.group k).handler = false)
    (hn : (s.gridOf (s.group k)).record.handler = 0xFFFFFFFF) (hg : d.present = false) (ho : s.openSlots = []) (hc : (s.group k).contained = none)
    (hp : (s.group k).trapPending = false) :
    Contained s k d.code d.detail true d.hdr d.fields (s.takeFault k d) := by
  rw [s.takeFault_raise k d (fun c => by simp [hg] at c)]
  have hf : ¬ (s.forget k d).faultsLevel k d.trap := State.not_faultsLevel_of_noLevel _ _ _ (by rw [State.forget_team]; exact hl)
  have hcon := (s.forget k d).raise_contained_noHandler k d.trap none hf (by rw [State.group_forget]; exact hh) (by rw [State.forget_team]; exact hn)
    ho (by rw [State.group_forget]; exact hc)
  have hcon := hcon.earlier (s := s) rfl (by rw [State.group_forget])
  have hdet : d.trap.detail = d.detail := by simp [Deferred.trap, hg]
  rw [hdet, Deferred.trap_fields] at hcon
  generalize (s.forget k d).raise k d.trap none = u at hcon ⊢
  have he : (u.onGroup k (fun g => if g.trapPending then { g with faultRegs := d.regs } else g)).group k = u.group k := by
    rw [State.group_onGroup_self, hcon.pending, hp]; rfl
  have hm : (u.onGroup k (fun g => if g.trapPending then { g with faultRegs := d.regs } else g)).mem = u.mem := rfl
  exact ⟨by rw [he]; exact hcon.exit, by rw [he]; exact hcon.counts, by rw [he]; exact hcon.exited, by rw [he]; exact hcon.pending,
    by rw [he]; exact hcon.handler, by rw [he]; exact hcon.stopped, by rw [he]; exact hcon.trap, hm.trans hcon.mem⟩

/-- A lane that goes on when its fault has been answered (R340). -/
def Deferred.back (d : Deferred) (g : Group) (l : Nat) : Bool :=
  inSet d.lanes l && decide ((g.lane l).vpc = d.hdr ∧ ((g.lane l).cond = .parked .deferred ∨ (g.lane l).cond = .parked .split))

theorem Deferred.back_setTrap (g : Group) (t : TrapRegs) : d.back { g with trap := t } = d.back g := by
  unfold Deferred.back
  rfl

theorem Group.lane_setTrap (g : Group) (t : TrapRegs) (l : Nat) : ({ g with trap := t } : Group).lane l = g.lane l := rfl

theorem Group.lane_resuming (g : Group) (ds : List Deferred) (rs : List ResumePt) (l : Nat) :
    ({ g with deferred := ds, resumes := rs } : Group).lane l = g.lane l := rfl

/-- Lanes whose fault has been answered go on with their word (R165, R340); no register waits for them. -/
theorem State.group_resumeFault (hr : d.regs = []) (hb : ∃ l, l < 64 ∧ d.back (s.group k) l = true) :
    (s.resumeFault k d).group k = { (s.group k).wake (setOf (d.back (s.group k))) with
      deferred := (s.group k).deferred.erase d, resumes := resumeAt d.hdr d.word (setOf (d.back (s.group k))) .ready :: (s.group k).resumes } := by
  have hne : setOf (d.back (s.group k)) ≠ 0 := by
    obtain ⟨l, hl, h⟩ := hb
    intro c
    have hin : inSet (setOf (d.back (s.group k))) l = true := by simp [hl, h]
    rw [c] at hin
    simp [inSet] at hin
  have hset : setOf (fun l => inSet d.lanes l && ((s.group k).lane l).vpc == d.hdr &&
      (((s.group k).lane l).cond == .parked .deferred || ((s.group k).lane l).cond == .parked .split)) = setOf (d.back (s.group k)) := by
    congr 1
    funext l
    rw [Bool.eq_iff_iff]
    simp [Deferred.back, and_assoc]
  unfold State.resumeFault
  rw [State.group_onGroup_self]
  simp only [hr, List.filter_nil, List.foldl_nil, hset, if_neg hne]
  rfl

/-- A deferred trap whose pages are present where no handler is named (R165, R340). -/
theorem State.takeFault_resumed (hn : (s.gridOf (s.group k)).record.handler = 0xFFFFFFFF) (hg : d.present = true) (hr : d.regs = [])
    (hb : ∃ l, l < 64 ∧ d.back (s.group k) l = true) :
    { s.takeFault k d with groups := s.groups } = s ∧ s.othersSame (s.takeFault k d) k ∧
    { (s.takeFault k d).group k with lanes := (s.group k).lanes } = { s.group k with
      deferred := (s.group k).deferred.erase d, resumes := resumeAt d.hdr d.word (setOf (d.back (s.group k))) .ready :: (s.group k).resumes,
      trap := d.fields } ∧
    ∀ l, l < 64 → ((s.takeFault k d).group k).lane l =
      if d.back (s.group k) l then { (s.group k).lane l with cond := .live, place := .none } else (s.group k).lane l := by
  rw [s.takeFault_resume k d hg hn, Trap.regs_eq_fields, Deferred.trap_fields]
  have e : (s.onGroup k (fun g => { g with trap := d.fields })).group k = { s.group k with trap := d.fields } :=
    State.group_onGroup_self _ _ _
  have he := (s.onGroup k (fun g => { g with trap := d.fields })).group_resumeFault k d hr (by rw [e, Deferred.back_setTrap]; exact hb)
  rw [e, Deferred.back_setTrap] at he
  refine ⟨rfl, fun j hj => ?_, ?_, fun l hl => ?_⟩
  · unfold State.resumeFault
    rw [State.group_onGroup, if_neg hj, State.group_onGroup, if_neg hj]
  · rw [he]; rfl
  · rw [he, Group.lane_resuming, Group.wake, Group.lane_mapLanes _ _ _ hl, inSet_setOf, decide_eq_true hl, Bool.true_and, Group.lane_setTrap]

end

/-- Settles O41: each branch of an exception by its own law; a deferred trap is such an exception once its fault is off the list. -/
theorem takingAnException : Obligations.TakingAnException := by
  unfold Obligations.TakingAnException
  refine ⟨fun s k x resume _ => ⟨fun hl hh hn => ?_, fun hl ho hc => ⟨fun hh => ?_, fun hh hn => ?_⟩, fun below lv hl hv hr he => ?_⟩,
    fun s k d hres hret hcon hh hp hrun hhalt hroll hpre hd _ => ?_⟩
  · have hf : ¬ s.faultsLevel k x := hl.elim (s.not_faultsLevel_of_noLevel k x) (fun c => s.not_faultsLevel_of_excepted k x c hh)
    exact s.raise_handled k x resume hf hh hn
  · have h := s.raise_contained_inHandler k x resume (s.not_faultsLevel_of_noLevel k x hl) hh ho hc
    exact ⟨⟨h.exit, h.counts, h.exited, h.pending, h.handler, h.stopped, h.mem⟩, h.trap⟩
  · have h := s.raise_contained_noHandler k x resume (s.not_faultsLevel_of_noLevel k x hl) hh hn ho hc
    exact ⟨⟨h.exit, h.counts, h.exited, h.pending, h.handler, h.stopped, h.mem⟩, h.trap⟩
  · exact s.raise_rollsBack k x resume (s.faultsLevel_of_level k x below lv hl he) below lv hl hv hr
  · have hb : s.trapBoundary k = true := by
      unfold State.trapBoundary
      rcases hpre with hpre | ⟨y, hpre⟩ <;> simp [hres, hret, hcon, hh, hp, hrun, hhalt, hroll, hpre]
    have htaken := s.deferredTrapTaken_eq k d hb hd
    refine ⟨fun hn hl => ⟨_, htaken, s.takeFault_handled k d hl hh hn⟩, fun hn hg hl ho => ⟨_, htaken, ?_⟩,
      fun hn hg hr hback => ⟨_, htaken, s.takeFault_resumed k d hn hg hr hback⟩⟩
    have h := s.takeFault_contained k d hl hh hn hg ho hcon hp
    exact ⟨h.trap, h.exit, h.counts⟩

end Sys2Proof.Machine
end

