-- ==== Sys2Proof/Proofs/AccessParts.lean ====
section
/-! SUPPORT. What performing a piece of an access does to the caches, to the memories and to the lanes (Access.lean, Memory.lean, R214, R219, R269). -/
namespace Sys2Proof.Machine

/-! ### Cached lines -/

/-- Agreement but for cached lines and the counts of their use: less than what `CachesOnly` lets a read leave behind. -/
structure LinesOnly (s t : State) : Prop where
  world : { t with clusters := s.clusters, llc := s.llc } = s
  cluster : ∀ c, { t.cluster c with
    l1 := (s.cluster c).l1, stale := (s.cluster c).stale, dirty := (s.cluster c).dirty, l1Hits := (s.cluster c).l1Hits, l1Misses := (s.cluster c).l1Misses } = s.cluster c

theorem LinesOnly.refl (s : State) : LinesOnly s s := ⟨rfl, fun _ => rfl⟩

theorem LinesOnly.trans {s t u : State} (h : LinesOnly s t) (k : LinesOnly t u) : LinesOnly s u :=
  ⟨(congrArg (fun x : State => { x with clusters := s.clusters, llc := s.llc }) k.world).trans h.world,
    fun c => (congrArg (fun x : Cluster => { x with
      l1 := (s.cluster c).l1, stale := (s.cluster c).stale, dirty := (s.cluster c).dirty, l1Hits := (s.cluster c).l1Hits, l1Misses := (s.cluster c).l1Misses })
      (k.cluster c)).trans (h.cluster c)⟩

theorem LinesOnly.foldl {α : Type} (f : State → α → State) (h : ∀ s x, LinesOnly s (f s x)) (xs : List α) (s : State) : LinesOnly s (xs.foldl f s) := by
  induction xs generalizing s with
  | nil => exact LinesOnly.refl s
  | cons x xs ih => exact (h s x).trans (ih _)

theorem State.onLlc_lines (s : State) (k : Nat) (f : LlcSlice → LlcSlice) : LinesOnly s (s.onLlc k f) := ⟨rfl, fun _ => rfl⟩

theorem State.onCluster_lines (s : State) (cl : Nat) (f : Cluster → Cluster)
    (h : ∀ c : Cluster, { f c with l1 := c.l1, stale := c.stale, dirty := c.dirty, l1Hits := c.l1Hits, l1Misses := c.l1Misses } = c) :
    LinesOnly s (s.onCluster cl f) := by
  refine ⟨rfl, fun c => ?_⟩
  rw [State.cluster_onCluster]
  split_ifs with e
  · rw [e]; exact h _
  · rfl

theorem State.llcAccess_lines (s : State) (who : Option Nat) (line v : Nat) : LinesOnly s (s.llcAccess who line v) := by
  unfold State.llcAccess
  cases who with
  | none => exact s.onLlc_lines _ _
  | some cl => exact ((s.onLlc_lines _ _).trans (State.onLlc_lines _ _ _)).trans (State.onLlc_lines _ _ _)

theorem State.evictLine_lines (s : State) (cl line : Nat) : LinesOnly s (s.evictLine cl line) := by
  unfold State.evictLine
  refine LinesOnly.trans ?_ (State.onCluster_lines _ _ _ (fun _ => rfl))
  split_ifs
  · exact s.onLlc_lines _ _
  · exact LinesOnly.refl s

theorem State.l1Fill_lines (s : State) (cl line v : Nat) : LinesOnly s (s.l1Fill cl line v) := by
  unfold State.l1Fill
  split
  · exact LinesOnly.refl s
  · split
    · exact LinesOnly.refl s
    · refine LinesOnly.trans ?_ (State.onCluster_lines _ _ _ (fun _ => rfl))
      split
      · exact s.evictLine_lines _ _
      · exact LinesOnly.refl s

theorem State.l1Use_lines (s : State) (cl line v : Nat) : LinesOnly s (s.l1Use cl line v) := by
  unfold State.l1Use
  split_ifs
  · exact s.onCluster_lines _ _ (fun _ => rfl)
  · exact (s.l1Fill_lines _ _ _).trans (State.onCluster_lines _ _ _ (fun _ => rfl))

theorem State.fetchLine_lines (s : State) (cl line v : Nat) : LinesOnly s (s.fetchLine cl line v) := by
  unfold State.fetchLine
  split
  · exact s.l1Use_lines _ _ _
  · split
    · refine LinesOnly.trans ?_ (State.l1Use_lines _ _ _ _)
      split_ifs
      · exact s.llcAccess_lines _ _ _
      · exact s.l1Use_lines _ _ _
    · exact (s.llcAccess_lines _ _ _).trans (State.l1Use_lines _ _ _ _)

theorem State.cacheWrite_lines (s : State) (cl : Option Nat) (v line : Nat) : LinesOnly s (s.cacheWrite cl v line) := by
  unfold State.cacheWrite
  split
  · refine (s.l1Use_lines _ _ _).trans (State.onCluster_lines _ _ _ (fun c => ?_))
    split_ifs <;> rfl
  · refine LinesOnly.trans ?_ (State.llcAccess_lines _ _ _ _)
    split
    · split_ifs
      · exact s.l1Use_lines _ _ _
      · exact LinesOnly.refl s
    · exact LinesOnly.refl s

theorem State.dropCopies_lines (s : State) (cl : Nat) : LinesOnly s (s.dropCopies cl) := s.onCluster_lines _ _ (fun _ => rfl)

/-- Copies that keep what a write overwrites (R214, R240). -/
theorem State.markStale_lines (s : State) (cl : Option Nat) (a n : Nat) : LinesOnly s (s.markStale cl a n) := by
  refine ⟨rfl, fun c => ?_⟩
  unfold State.markStale State.cluster FMap.at
  rw [FMap.look_mapVals]
  cases FMap.look s.clusters c with
  | none => rfl
  | some x =>
    simp only [Option.map_some, Option.getD_some]
    split_ifs <;> rfl

/-- What leaves all but cached lines leaves the scratchpads. -/
theorem LinesOnly.scratch {s t : State} (h : LinesOnly s t) (c : Nat) :
    (t.cluster c).scratch = (s.cluster c).scratch ∧ (t.cluster c).scrPoison = (s.cluster c).scrPoison ∧ (t.cluster c).scrErr = (s.cluster c).scrErr := by
  have e := congrArg (fun x : Cluster => (x.scratch, x.scrPoison, x.scrErr)) (h.cluster c)
  simpa only [Prod.mk.injEq] using e

/-- What leaves all but cached lines leaves what any function of the rest says. -/
theorem LinesOnly.of_rest {s t : State} {α : Type} (h : LinesOnly s t) (f : State → α) (hf : ∀ x c l, f { x with clusters := c, llc := l } = f x) :
    f t = f s := (hf t _ _).symm.trans (congrArg f h.world)

theorem LinesOnly.setUnsettled {s t : State} (h : LinesOnly s t) (un : FMap (Nat × BitVec 8)) :
    LinesOnly { s with unsettled := un } { t with unsettled := un } :=
  ⟨congrArg (fun x : State => { x with unsettled := un }) h.world, h.cluster⟩

/-! ### Writing at the performing point -/

/-- Marks of regions change slots alone. -/
theorem State.markInval_dies (s : State) (a n : Nat) (but : List Nat) : ∃ ds, s.markInval a n but = { s with dies := ds } := by
  unfold State.markInval
  dsimp only
  generalize List.filter _ s.openSlots = ids
  induction ids generalizing s with
  | nil => exact ⟨s.dies, rfl⟩
  | cons id ids ih =>
    obtain ⟨ds, e⟩ := ih (s.onSlot id (fun sl => { sl with inval := true }))
    exact ⟨ds, by rw [List.foldl_cons, e]; rfl⟩

/-- A write at the performing point: bytes, poison that they end, and what caches, marks of regions and bytes under way become. -/
theorem State.writePhys_spec (s : State) (cl : Option Nat) (a : Nat) (bs : List (BitVec 8)) (but : List Nat) (v : Nat) :
    ∃ t ds un, LinesOnly s t ∧ s.writePhys cl a bs but v =
      { t with dies := ds, mem := Mem.writeBytes s.mem a bs, poison := clearPoison s.poison a bs.length, unsettled := un } := by
  have h := (LinesOnly.foldl (fun (s : State) ln => s.cacheWrite cl v ln) (fun s ln => s.cacheWrite_lines cl v ln) (linesOf a bs.length) s).trans
    (State.markStale_lines _ cl a bs.length)
  generalize ht : ((linesOf a bs.length).foldl (fun (s : State) ln => s.cacheWrite cl v ln) s).markStale cl a bs.length = t at h
  obtain ⟨ds, hd⟩ := t.markInval_dies a bs.length but
  have hm : t.mem = s.mem := h.of_rest State.mem (fun _ _ _ => rfl)
  have hp : t.poison = s.poison := h.of_rest State.poison (fun _ _ _ => rfl)
  refine ⟨t, ds, t.unsettled.filter (fun p => !decide (a ≤ p.1 ∧ p.1 < a + bs.length)), h, ?_⟩
  unfold State.writePhys
  simp only [ht, hd, hm, hp]

/-- A team with no level open logs no line. -/
theorem State.logLines_none (s : State) (t : Nat) (lines : List Nat) (h : (s.team t).levels = []) : s.logLines t lines = some s := by
  have hr : (s.team t).rlevel = 0 := by rw [Team.rlevel, h]; rfl
  unfold State.logLines State.newLines
  simp only [hr, if_true, List.isEmpty_nil]

theorem State.writeGlobal_eq (s : State) (t : Nat) (cl : Option Nat) (a : Nat) (bs : List (BitVec 8)) (but : List Nat) (v : Nat)
    (h : (s.team t).levels = []) : s.writeGlobal t cl a bs but v = s.writePhys cl a bs but v := by
  unfold State.writeGlobal
  rw [s.logLines_none t _ h]

/-- A team with no level open logs no scratchpad word. -/
theorem State.logWords_none (s : State) (t cl : Nat) (ws : List Nat) (h : (s.team t).levels = []) : s.logWords t cl ws = some s := by
  unfold State.logWords State.newWords
  simp only [h, List.getLast?_nil, List.isEmpty_nil, if_true]

/-! ### Scratchpads -/

/-- Agreement but for the scratchpads, their poison and their errors, and the counters of the partitions. -/
structure ScratchOnly (s t : State) : Prop where
  world : { t with parts := s.parts, clusters := s.clusters } = s
  cluster : ∀ c, { t.cluster c with
    scratch := (s.cluster c).scratch, scrPoison := (s.cluster c).scrPoison, scrErr := (s.cluster c).scrErr } = s.cluster c

theorem ScratchOnly.refl (s : State) : ScratchOnly s s := ⟨rfl, fun _ => rfl⟩

theorem ScratchOnly.trans {s t u : State} (h : ScratchOnly s t) (k : ScratchOnly t u) : ScratchOnly s u :=
  ⟨(congrArg (fun x : State => { x with parts := s.parts, clusters := s.clusters }) k.world).trans h.world,
    fun c => (congrArg (fun x : Cluster => { x with
      scratch := (s.cluster c).scratch, scrPoison := (s.cluster c).scrPoison, scrErr := (s.cluster c).scrErr }) (k.cluster c)).trans (h.cluster c)⟩

/-- What leaves all but scratchpads and counters leaves what any function of the rest says. -/
theorem ScratchOnly.of_rest {s t : State} {α : Type} (h : ScratchOnly s t) (f : State → α) (hf : ∀ x ps c, f { x with parts := ps, clusters := c } = f x) :
    f t = f s := (hf t _ _).symm.trans (congrArg f h.world)

theorem ScratchOnly.onCluster (s : State) (cl : Nat) (f : Cluster → Cluster)
    (h : ∀ c : Cluster, { f c with scratch := c.scratch, scrPoison := c.scrPoison, scrErr := c.scrErr } = c) : ScratchOnly s (s.onCluster cl f) := by
  refine ⟨rfl, fun c => ?_⟩
  rw [State.cluster_onCluster]
  split_ifs with e
  · rw [e]; exact h _
  · rfl

theorem ScratchOnly.countErr (s : State) (part k n : Nat) : ScratchOnly s (s.countErr part k n) := by
  unfold State.countErr
  split_ifs
  · exact ScratchOnly.refl s
  · exact ⟨rfl, fun _ => rfl⟩

/-- Words that come to light change no byte (R212). -/
theorem State.checkScratch_only (s : State) (part cl a n : Nat) :
    ScratchOnly s (s.checkScratch part cl a n) ∧ ∀ c, ((s.checkScratch part cl a n).cluster c).scratch = (s.cluster c).scratch := by
  unfold State.checkScratch
  dsimp only
  split_ifs
  · exact ⟨ScratchOnly.refl s, fun _ => rfl⟩
  · refine ⟨(ScratchOnly.countErr s part 0 _).trans (ScratchOnly.onCluster _ _ _ (fun _ => rfl)), fun c => ?_⟩
    have hc (n : Nat) : (s.countErr part 0 n).cluster c = s.cluster c := by
      unfold State.countErr
      split_ifs <;> rfl
    rw [State.cluster_onCluster]
    split_ifs with e
    · rw [← e, hc]
    · rw [hc]

theorem filter_has_eq_nil {α : Type} (m : FMap α) (ws : List Nat) (h : ∀ w ∈ ws, FMap.has m w = false) : ws.filter (fun w => FMap.has m w) = [] := by
  rw [List.filter_eq_nil_iff]
  exact fun w hw => by rw [h w hw]; exact Bool.false_ne_true

/-- Words without errors are left as they are. -/
theorem State.checkScratch_clean (s : State) (part cl a n : Nat) (h : ∀ w ∈ wordsIn a n, FMap.has (s.cluster cl).scrErr w = false) :
    s.checkScratch part cl a n = s := by
  have hb := filter_has_eq_nil _ _ h
  unfold State.checkScratch
  simp only [hb, List.isEmpty_nil, if_true]

theorem FMap.has_del {α : Type} (m : FMap α) (k j : Nat) (h : FMap.has m j = false) : FMap.has (FMap.del m k) j = false := by
  unfold FMap.has at *
  by_cases e : j = k
  · rw [e, FMap.look_del_self]; rfl
  · rw [FMap.look_del_ne m e]; exact h

theorem FMap.has_foldl_del {α : Type} (ks : List Nat) (m : FMap α) (j : Nat) (h : FMap.has m j = false) : FMap.has (ks.foldl FMap.del m) j = false := by
  induction ks generalizing m with
  | nil => exact h
  | cons k ks ih => exact ih _ (FMap.has_del m k j h)

/-- A write of a scratchpad: its bytes, and of the rest what reading words for the merge brings to light. -/
theorem State.writeScratch_spec (s : State) (t cl off : Nat) (bs : List (BitVec 8)) (h : (s.team t).levels = []) :
    ScratchOnly s (s.writeScratch t cl off bs) ∧
    (∀ c, ((s.writeScratch t cl off bs).cluster c).scratch =
      if c = cl then Mem.writeBytes (s.cluster c).scratch ((s.team t).scrBase + off) bs else (s.cluster c).scratch) ∧
    ((∀ w ∈ wordsIn ((s.team t).scrBase + off) bs.length, FMap.has (s.cluster cl).scrErr w = false) →
      (s.writeScratch t cl off bs).parts = s.parts) := by
  generalize hs1 : s.onCluster cl (fun c => { c with scrErr := (wholeWords ((s.team t).scrBase + off) bs.length).foldl FMap.del c.scrErr }) = s1
  generalize hs2 : s1.checkScratch (s1.grid (s1.team t).grid).part cl ((s.team t).scrBase + off) bs.length = s2
  have h1 : ScratchOnly s s1 := by rw [← hs1]; exact ScratchOnly.onCluster s _ _ (fun _ => rfl)
  have h2 := s1.checkScratch_only (s1.grid (s1.team t).grid).part cl ((s.team t).scrBase + off) bs.length
  rw [hs2] at h2
  have hteam : s2.team t = s.team t := (h1.trans h2.1).of_rest (fun x => x.team t) (fun _ _ _ => rfl)
  have hscr (c) : (s2.cluster c).scratch = (s.cluster c).scratch := by
    rw [h2.2 c, ← hs1, State.cluster_onCluster]
    split_ifs with e
    · rw [e]
    · rfl
  have e : s.writeScratch t cl off bs = s2.onCluster cl (fun c => { c with
      scratch := Mem.writeBytes c.scratch ((s.team t).scrBase + off) bs
      scrPoison := clearPoison c.scrPoison ((s.team t).scrBase + off) bs.length }) := by
    unfold State.writeScratch
    simp only [hs1, hs2, s2.logWords_none t cl _ (by rw [hteam]; exact h)]
  rw [e]
  refine ⟨(h1.trans h2.1).trans (ScratchOnly.onCluster _ _ _ (fun _ => rfl)), fun c => ?_, fun hc => ?_⟩
  · rw [State.cluster_onCluster]
    split_ifs with hcl
    · rw [← hcl, hscr]
    · exact hscr c
  · have hclean : s2 = s1 := by
      rw [← hs2]
      refine s1.checkScratch_clean _ _ _ _ (fun w hw => ?_)
      rw [← hs1, State.cluster_onCluster_self]
      exact FMap.has_foldl_del _ _ _ (hc w hw)
    rw [hclean, ← hs1]
    rfl

/-! ### Bytes that land where a piece lies -/

/-- A memory after bytes were written at an address, or not. -/
def Mem.put? (m : Mem) (addr : Nat) (new : Option (List (BitVec 8))) : Mem :=
  match new with
  | some bs => Mem.writeBytes m addr bs
  | none => m

theorem State.stored_iff (s t : State) (a : Access) (p : Part) (new : Option (List (BitVec 8))) : s.Stored t a p new ↔
    (t.mem = if p.space = .global then Mem.put? s.mem p.addr new else s.mem) ∧
    (t.hostMem = if p.space = .host then Mem.put? s.hostMem p.addr new else s.hostMem) ∧
    (t.remote = if p.space = .fabric then Mem.put? s.remote (s.keyed (s.grid (s.team a.team).grid).part p.addr) new else s.remote) ∧
    ∀ c, (t.cluster c).scratch = if p.space = .scratch ∧ c = a.cluster then Mem.put? (s.cluster c).scratch p.addr new else (s.cluster c).scratch := by
  cases new with
  | none => exact ⟨fun h => ⟨h.mem, h.host, h.remote, h.scratch⟩, fun ⟨h1, h2, h3, h4⟩ => ⟨h1, h2, h3, h4⟩⟩
  | some bs => exact ⟨fun h => ⟨h.mem, h.host, h.remote, h.scratch⟩, fun ⟨h1, h2, h3, h4⟩ => ⟨h1, h2, h3, h4⟩⟩

/-- A write of an access has reached its memory: the bytes stand there, and nothing changed but memories, caches, what they count and bytes under way. -/
structure Landed (s : State) (a : Access) (p : Part) (new : Option (List (BitVec 8))) (t : State) : Prop where
  world : { t with clusters := s.clusters, llc := s.llc, dies := s.dies, mem := s.mem, poison := s.poison, hostMem := s.hostMem, remote := s.remote
                   parts := s.parts, module := s.module, unsettled := s.unsettled } = s
  cluster : ∀ c, { t.cluster c with
    l1 := (s.cluster c).l1, stale := (s.cluster c).stale, dirty := (s.cluster c).dirty, l1Hits := (s.cluster c).l1Hits, l1Misses := (s.cluster c).l1Misses, scratch := (s.cluster c).scratch
    scrPoison := (s.cluster c).scrPoison, scrErr := (s.cluster c).scrErr } = s.cluster c
  flits : { t.module with flits := s.module.flits } = s.module
  stored : s.Stored t a p new
  poison : p.space = .global → ∀ bs, new = some bs → t.poison = clearPoison s.poison p.addr bs.length

/-- Lines and bytes under way changed, and no byte with them. -/
theorem Landed.nothing {s t : State} (a : Access) (p : Part) (h : LinesOnly s { t with unsettled := s.unsettled }) : Landed s a p none t := by
  have mem : t.mem = s.mem := h.of_rest State.mem (fun _ _ _ => rfl)
  have host : t.hostMem = s.hostMem := h.of_rest State.hostMem (fun _ _ _ => rfl)
  have remote : t.remote = s.remote := h.of_rest State.remote (fun _ _ _ => rfl)
  have module : t.module = s.module := h.of_rest State.module (fun _ _ _ => rfl)
  refine ⟨?_, fun c => ?_, by rw [module],
    (State.stored_iff _ _ _ _ _).2 ⟨by simp [mem, Mem.put?], by simp [host, Mem.put?], by simp [remote, Mem.put?], fun c => ?_⟩, fun _ bs e => (by cases e)⟩
  · exact congrArg (fun x : State => { x with dies := s.dies, mem := s.mem, poison := s.poison, hostMem := s.hostMem, remote := s.remote
                                              parts := s.parts, module := s.module }) h.world
  · exact congrArg (fun x : Cluster => { x with scratch := (s.cluster c).scratch, scrPoison := (s.cluster c).scrPoison, scrErr := (s.cluster c).scrErr })
      (h.cluster c)
  · have e : (t.cluster c).scratch = (s.cluster c).scratch := (h.scratch c).1
    simp [e, Mem.put?]

/-- Bytes written at the performing point of global memory. -/
theorem Landed.global {s t : State} (a : Access) (p : Part) (cl : Option Nat) (bs : List (BitVec 8)) (v : Nat) (hp : p.space = .global)
    (h : LinesOnly s { t with unsettled := s.unsettled }) : Landed s a p (some bs) (t.writePhys cl p.addr bs [] v) ∧ (t.writePhys cl p.addr bs [] v).parts = s.parts := by
  obtain ⟨w, ds, un, hw, e⟩ := t.writePhys_spec cl p.addr bs [] v
  have hs : LinesOnly s { w with unsettled := s.unsettled } :=
    h.trans (hw.setUnsettled s.unsettled)
  have mem : t.mem = s.mem := h.of_rest State.mem (fun _ _ _ => rfl)
  have poison : t.poison = s.poison := h.of_rest State.poison (fun _ _ _ => rfl)
  have host : w.hostMem = s.hostMem := hs.of_rest State.hostMem (fun _ _ _ => rfl)
  have remote : w.remote = s.remote := hs.of_rest State.remote (fun _ _ _ => rfl)
  have parts : w.parts = s.parts := hs.of_rest State.parts (fun _ _ _ => rfl)
  have module : w.module = s.module := hs.of_rest State.module (fun _ _ _ => rfl)
  rw [e, mem, poison]
  refine ⟨⟨?_, fun c => ?_, by dsimp only; rw [module], ⟨by simp [hp], by simp [hp, host], by simp [hp, remote], fun c => ?_⟩,
    fun _ bs' e => (by cases e; rfl)⟩, parts⟩
  · exact congrArg (fun x : State => { x with dies := s.dies, mem := s.mem, poison := s.poison, hostMem := s.hostMem, remote := s.remote
                                              parts := s.parts, module := s.module }) hs.world
  · exact congrArg (fun x : Cluster => { x with scratch := (s.cluster c).scratch, scrPoison := (s.cluster c).scrPoison, scrErr := (s.cluster c).scrErr })
      (hs.cluster c)
  · have e : (w.cluster c).scratch = (s.cluster c).scratch := (hs.scratch c).1
    rw [if_neg (by rw [hp]; exact fun c => absurd c.1 (by decide))]
    exact e

/-- Bytes that may still be under way land no less. -/
theorem Landed.unsettled {s t : State} {a : Access} {p : Part} {new : Option (List (BitVec 8))} (h : Landed s a p new t) (un : FMap (Nat × BitVec 8)) :
    Landed s a p new { t with unsettled := un } := by
  obtain ⟨hm, hh, hr, hs⟩ := (State.stored_iff _ _ _ _ _).1 h.stored
  exact ⟨h.world, h.cluster, h.flits, (State.stored_iff _ _ _ _ _).2 ⟨hm, hh, hr, hs⟩, h.poison⟩

/-- What lands after lines have changed lands told from before. -/
theorem Landed.before {s v t : State} {a : Access} {p : Part} {new : Option (List (BitVec 8))} (h : LinesOnly s v) (hl : Landed v a p new t) :
    Landed s a p new t := by
  have mem : v.mem = s.mem := h.of_rest State.mem (fun _ _ _ => rfl)
  have poison : v.poison = s.poison := h.of_rest State.poison (fun _ _ _ => rfl)
  have host : v.hostMem = s.hostMem := h.of_rest State.hostMem (fun _ _ _ => rfl)
  have remote : v.remote = s.remote := h.of_rest State.remote (fun _ _ _ => rfl)
  have module : v.module = s.module := h.of_rest State.module (fun _ _ _ => rfl)
  have key : v.keyed (v.grid (v.team a.team).grid).part p.addr = s.keyed (s.grid (s.team a.team).grid).part p.addr :=
    h.of_rest (fun x => x.keyed (x.grid (x.team a.team).grid).part p.addr) (fun _ _ _ => rfl)
  obtain ⟨hw, hc, hf, hst, hp⟩ := hl
  obtain ⟨hm, hh, hr, hs⟩ := (State.stored_iff _ _ _ _ _).1 hst
  rw [mem] at hm
  rw [host] at hh
  rw [key, remote] at hr
  refine ⟨?_, fun c => ?_, by rw [← module]; exact hf, (State.stored_iff _ _ _ _ _).2 ⟨hm, hh, hr, fun c => ?_⟩, fun hg bs e => by rw [hp hg bs e, poison]⟩
  · exact (congrArg (fun x : State => { x with
      clusters := s.clusters, llc := s.llc, dies := s.dies, mem := s.mem, poison := s.poison, hostMem := s.hostMem, remote := s.remote
      parts := s.parts, module := s.module, unsettled := s.unsettled }) hw).trans
      (congrArg (fun x : State => { x with
        dies := s.dies, mem := s.mem, poison := s.poison, hostMem := s.hostMem, remote := s.remote, parts := s.parts, module := s.module
        unsettled := s.unsettled }) h.world)
  · exact (congrArg (fun x : Cluster => { x with
      l1 := (s.cluster c).l1, stale := (s.cluster c).stale, dirty := (s.cluster c).dirty, l1Hits := (s.cluster c).l1Hits, l1Misses := (s.cluster c).l1Misses, scratch := (s.cluster c).scratch
      scrPoison := (s.cluster c).scrPoison, scrErr := (s.cluster c).scrErr }) (hc c)).trans
      (congrArg (fun x : Cluster => { x with
        scratch := (s.cluster c).scratch, scrPoison := (s.cluster c).scrPoison, scrErr := (s.cluster c).scrErr }) (h.cluster c))
  · rw [hs c, (h.scratch c).1]

/-- Bytes written to host memory. -/
theorem Landed.host (s : State) (a : Access) (p : Part) (bs : List (BitVec 8)) (hp : p.space = .host) :
    Landed s a p (some bs) { s with hostMem := Mem.writeBytes s.hostMem p.addr bs } :=
  ⟨rfl, fun _ => rfl, rfl, ⟨by simp [hp], by simp [hp], by simp [hp], fun c => by simp [hp]; rfl⟩, fun c => by rw [hp] at c; cases c⟩

/-- Bytes written to another module or not, with the flits and the counters of the partition that this takes. -/
theorem Landed.fabric (s : State) (a : Access) (p : Part) (new : Option (List (BitVec 8))) (ps : FMap Partition) (m : Module) (hp : p.space = .fabric)
    (hm : { m with flits := s.module.flits } = s.module) :
    Landed s a p new { s with
      parts := ps, module := m, remote := Mem.put? s.remote (s.keyed (s.grid (s.team a.team).grid).part p.addr) new } :=
  ⟨rfl, fun _ => rfl, hm, (State.stored_iff _ _ _ _ _).2 ⟨by simp [hp], by simp [hp], by simp [hp], fun c => by simp [hp]; rfl⟩,
    fun c => by rw [hp] at c; cases c⟩

/-- Bytes written to a scratchpad. -/
theorem Landed.scratch (s : State) (a : Access) (p : Part) (bs : List (BitVec 8)) (hp : p.space = .scratch) (hl : (s.team a.team).levels = [])
    (hb : (s.team a.team).scrBase ≤ p.addr) :
    Landed s a p (some bs) (s.writeScratch a.team a.cluster (p.addr - (s.team a.team).scrBase) bs) ∧
    ((∀ w ∈ wordsIn p.addr bs.length, FMap.has (s.cluster a.cluster).scrErr w = false) →
      (s.writeScratch a.team a.cluster (p.addr - (s.team a.team).scrBase) bs).parts = s.parts) := by
  obtain ⟨ho, hs, hpt⟩ := s.writeScratch_spec a.team a.cluster (p.addr - (s.team a.team).scrBase) bs hl
  rw [Nat.add_sub_cancel' hb] at hs hpt
  refine ⟨⟨?_, fun c => ?_, ?_, (State.stored_iff _ _ _ _ _).2 ⟨?_, ?_, ?_, fun c => ?_⟩, fun c => by rw [hp] at c; cases c⟩, hpt⟩
  · exact congrArg (fun x : State => { x with
      llc := s.llc, dies := s.dies, mem := s.mem, poison := s.poison, hostMem := s.hostMem, remote := s.remote, module := s.module
      unsettled := s.unsettled }) ho.world
  · exact congrArg (fun x : Cluster => { x with
      l1 := (s.cluster c).l1, stale := (s.cluster c).stale, dirty := (s.cluster c).dirty, l1Hits := (s.cluster c).l1Hits, l1Misses := (s.cluster c).l1Misses }) (ho.cluster c)
  · exact congrArg (fun x : State => { x.module with flits := s.module.flits }) ho.world
  · rw [hp]; exact ho.of_rest State.mem (fun _ _ _ => rfl)
  · rw [hp]; exact ho.of_rest State.hostMem (fun _ _ _ => rfl)
  · rw [hp]; exact ho.of_rest State.remote (fun _ _ _ => rfl)
  · rw [hs c, hp]; simp [Mem.put?]

/-! ### Stores and atomics -/

/-- The partition whose traffic an access is. -/
def State.partOfAccess (s : State) (a : Access) : Nat := (s.grid (s.team a.team).grid).part

/-- Traffic sent by a partition closes no window. -/
theorem State.remoteOpen_sent (s : State) (part pa n : Nat) (f : Partition → Partition) (m : Module)
    (hf : ∀ q : Partition, (f q).partcfg = q.partcfg ∧ (f q).fenced = q.fenced) :
    ({ s.onPart part f with module := m } : State).remoteOpen part pa n = s.remoteOpen part pa n ∧
    ({ s.onPart part f with module := m } : State).keyed part pa = s.keyed part pa := by
  have hp (j) : ({ s.onPart part f with module := m } : State).part j = if j = part then f (s.part part) else s.part j := s.part_onPart part j f
  have hkey (j) : (({ s.onPart part f with module := m } : State).part j).netKey = (s.part j).netKey := by
    rw [hp]; split_ifs with h
    · rw [h]; unfold Partition.netKey; rw [(hf _).1]
    · rfl
  have hen (j) : (({ s.onPart part f with module := m } : State).part j).en = (s.part j).en := by
    rw [hp]; split_ifs with h
    · rw [h]; unfold Partition.en; rw [(hf _).1]
    · rfl
  have hfen (j) : (({ s.onPart part f with module := m } : State).part j).fenced = (s.part j).fenced := by
    rw [hp]; split_ifs with h
    · rw [h, (hf _).2]
    · rfl
  unfold State.remoteOpen State.closed State.keyHolders State.keyed
  simp only [hkey, hen, hfen]
  exact ⟨rfl, trivial⟩

/-- A store that a window of another module takes (R267, R395). -/
theorem State.fabricStore_open (s : State) (part pa : Nat) (bs : List (BitVec 8)) (h : s.remoteOpen part pa bs.length = true) :
    ∃ ps m, { m with flits := s.module.flits } = s.module ∧
      s.fabricStore part pa bs = { s with parts := ps, module := m, remote := Mem.writeBytes s.remote (s.keyed part pa) bs } := by
  obtain ⟨ho, hk⟩ := s.remoteOpen_sent part pa bs.length (fun q => { q with sent := q.sent + 1 }) (s.flit part 1).module (fun _ => ⟨rfl, rfl⟩)
  refine ⟨(s.onPart part (fun q => { q with sent := q.sent + 1 })).parts, (s.flit part 1).module, rfl, ?_⟩
  unfold State.fabricStore
  refine (if_pos (ho.trans h)).trans ?_
  unfold State.remoteWrite
  refine Eq.trans ?_ (congrArg (fun k => ({ s.onPart part (fun q => { q with sent := q.sent + 1 }) with
    module := (s.flit part 1).module, remote := Mem.writeBytes s.remote k bs } : State)) hk)
  rfl

theorem leBytes_length (n v : Nat) : (leBytes n v).length = n := by
  induction n generalizing v with
  | zero => rfl
  | succ n ih => simp [leBytes, ih]

/-- An atomic writes as many bytes as it finds. -/
theorem atomBytes_length {op : Nat} {old data bs : List (BitVec 8)} (h : (atomBytes op old data).1 = some bs) : bs.length = old.length := by
  unfold atomBytes at h
  obtain ⟨v, -, rfl⟩ := Option.map_eq_some_iff.1 h
  exact leBytes_length _ _

section
variable (s : State) (n i : Nat) (a : Access) (p : Part) (hl : (s.team a.team).levels = [])
include hl

/-- A store of an access has its effect (R146, R152, R267). -/
theorem State.doStore_landed (hb : p.space = .scratch → (s.team a.team).scrBase ≤ p.addr)
    (hf : p.space = .fabric → s.remoteOpen (s.partOfAccess a) p.addr p.data.length = true) :
    ∃ t, Landed s a p (some p.data) t ∧ s.doStore n i a p = t.onPartOf n i (fun p => { p with done := true }) := by
  cases hp : p.space with
  | global =>
    refine ⟨_, (Landed.global a p (some a.cluster) p.data a.reuse hp (LinesOnly.refl s)).1, ?_⟩
    unfold State.doStore
    simp only [hp, s.writeGlobal_eq a.team _ _ _ _ _ hl]
  | host =>
    refine ⟨_, Landed.host s a p p.data hp, ?_⟩
    unfold State.doStore
    simp only [hp]
  | scratch =>
    refine ⟨_, (Landed.scratch s a p p.data hp hl (hb hp)).1, ?_⟩
    unfold State.doStore
    simp only [hp]
  | fabric =>
    obtain ⟨ps, m, hm, e⟩ := s.fabricStore_open _ _ _ (hf hp)
    refine ⟨_, Landed.fabric s a p (some p.data) ps m hp hm, ?_⟩
    unfold State.doStore
    simp only [hp]
    rw [show s.fabricStore (s.grid (s.team a.team).grid).part p.addr p.data = _ from e]
    rfl

/-- The bytes that an atomic finds where its piece lies. -/
def State.atomOld (s : State) (a : Access) (p : Part) : List (BitVec 8) :=
  if p.space = .global then Mem.readBytes s.mem p.addr p.len else s.spaceBytes a p

/-- A part whose value has been taken. -/
def Part.taken (p : Part) (bs : List (BitVec 8)) : Part := { p with val := some bs, pois := [], done := true }

/-- An atomic at the performing point of global memory: the writer's copy is dropped, the bytes are met, and new ones are written, which other clusters
need not see yet, or the line alone is used. -/
theorem State.doAtomic_global (op : Nat) (hp : p.space = .global) (hw : ∀ w ∈ wordsIn p.addr p.len, FMap.has s.poison w = false) :
    ∃ t, Landed s a p (atomBytes op (s.atomOld a p) p.data).1 t ∧ t.parts = s.parts ∧ s.doAtomic n i a p op =
      (t.onPartOf n i (·.taken (s.atomOld a p))).joinFlags a.group p.lane (atomBytes op (s.atomOld a p) p.data).2 := by
  have hold : s.atomOld a p = Mem.readBytes s.mem p.addr p.len := if_pos hp
  have hbad := filter_has_eq_nil s.poison _ hw
  rw [hold]
  generalize hs1 : (if s.holderOf (p.addr / 128) = some a.cluster then s else s.onCluster a.cluster (·.dropLine (p.addr / 128))).settleBytes
    (some a.cluster) p.addr p.len = s1
  have h1 : LinesOnly s { s1 with unsettled := s.unsettled } := by
    rw [← hs1]
    split_ifs
    · exact LinesOnly.refl s
    · exact s.onCluster_lines a.cluster (·.dropLine (p.addr / 128)) (fun _ => rfl)
  have hl1 : (s1.team a.team).levels = [] := by
    have e : ({ s1 with unsettled := s.unsettled } : State).team a.team = s.team a.team := h1.of_rest (fun x => x.team a.team) (fun _ _ _ => rfl)
    rw [show s1.team a.team = s.team a.team from e]; exact hl
  generalize hr : atomBytes op (Mem.readBytes s.mem p.addr p.len) p.data = r
  unfold State.doAtomic
  simp only [hp, hbad, List.isEmpty_nil, if_true, hs1, hr]
  obtain ⟨new, fl⟩ := r
  cases new with
  | some bs =>
    obtain ⟨hland, hparts⟩ := Landed.global a p (some a.cluster) bs a.reuse hp h1
    dsimp only
    rw [s1.writeGlobal_eq a.team _ _ _ _ _ hl1]
    refine ⟨_, ?_, ?_, rfl⟩
    · split_ifs
      · exact hland
      · exact hland.unsettled _
    · split_ifs
      · exact hparts
      · exact hparts
  | none =>
    have h2 : LinesOnly s1 (match s1.holderOf (p.addr / 128) with
        | some h => s1.l1Use h (p.addr / 128) a.reuse
        | none => s1.llcAccess (some a.cluster) (p.addr / 128) a.reuse) := by
      split
      · exact s1.l1Use_lines _ _ _
      · exact s1.llcAccess_lines _ _ _
    have h3 := h1.trans (h2.setUnsettled s.unsettled)
    exact ⟨_, Landed.nothing a p h3, h3.of_rest State.parts (fun _ _ _ => rfl), rfl⟩

/-- An atomic on a scratchpad. -/
theorem State.doAtomic_scratch (op : Nat) (hp : p.space = .scratch) (hb : (s.team a.team).scrBase ≤ p.addr)
    (hw : ∀ w ∈ wordsIn p.addr p.len, FMap.has (s.cluster a.cluster).scrPoison w = false ∧ FMap.has (s.cluster a.cluster).scrErr w = false) :
    ∃ t, Landed s a p (atomBytes op (s.atomOld a p) p.data).1 t ∧ t.parts = s.parts ∧ s.doAtomic n i a p op =
      (t.onPartOf n i (·.taken (s.atomOld a p))).joinFlags a.group p.lane (atomBytes op (s.atomOld a p) p.data).2 := by
  have hold : s.atomOld a p = Mem.readBytes (s.cluster a.cluster).scratch p.addr p.len := by
    unfold State.atomOld State.spaceBytes
    simp [hp]
  have hbad := filter_has_eq_nil _ _ (fun w hw' => (hw w hw').1)
  have hclean := s.checkScratch_clean (s.grid (s.team a.team).grid).part a.cluster p.addr p.len (fun w hw' => (hw w hw').2)
  rw [hold]
  generalize hr : atomBytes op (Mem.readBytes (s.cluster a.cluster).scratch p.addr p.len) p.data = r
  unfold State.doAtomic
  simp only [hp, hclean, hbad, List.isEmpty_nil, if_true, hr]
  obtain ⟨new, fl⟩ := r
  cases new with
  | none => exact ⟨s, Landed.nothing a p (LinesOnly.refl s), rfl, rfl⟩
  | some bs =>
    have hlen : bs.length = p.len := by
      rw [atomBytes_length (congrArg Prod.fst hr), Mem.readBytes_length]
    obtain ⟨hland, hparts⟩ := Landed.scratch s a p bs hp hl hb
    exact ⟨_, hland, hparts (fun w hw' => (hw w (by rw [← hlen]; exact hw')).2), rfl⟩

end

/-- An atomic on another module. -/
theorem State.doAtomic_fabric (s : State) (n i : Nat) (a : Access) (p : Part) (op : Nat) (hp : p.space = .fabric) (ho : s.remoteOpen (s.partOfAccess a) p.addr p.len = true) :
    ∃ t, Landed s a p (atomBytes op (s.atomOld a p) p.data).1 t ∧ t.parts = s.parts ∧ s.doAtomic n i a p op =
      (t.onPartOf n i (·.taken (s.atomOld a p))).joinFlags a.group p.lane (atomBytes op (s.atomOld a p) p.data).2 := by
  have hold : s.atomOld a p = s.remoteRead (s.grid (s.team a.team).grid).part p.addr p.len := by
    unfold State.atomOld State.spaceBytes
    simp [hp]
  have ho' : (s.flit (s.grid (s.team a.team).grid).part 1).remoteOpen (s.grid (s.team a.team).grid).part p.addr p.len = true := ho
  have hread : (s.flit (s.grid (s.team a.team).grid).part 1).remoteRead (s.grid (s.team a.team).grid).part p.addr p.len =
    s.remoteRead (s.grid (s.team a.team).grid).part p.addr p.len := rfl
  have hland := Landed.fabric s a p (atomBytes op (s.atomOld a p) p.data).1 s.parts (s.flit (s.grid (s.team a.team).grid).part 1).module hp rfl
  rw [hold] at hland ⊢
  generalize hr : atomBytes op (s.remoteRead (s.grid (s.team a.team).grid).part p.addr p.len) p.data = r at hland
  refine ⟨_, hland, rfl, ?_⟩
  unfold State.doAtomic
  simp only [hp, ho', hread, if_true, hr]
  obtain ⟨new, fl⟩ := r
  cases new with
  | none => rfl
  | some bs => rfl

/-! ### Loads -/

theorem mem_wordsIn (addr len i : Nat) (h : i < len) : (addr + i) / 4 ∈ wordsIn addr len := by
  unfold wordsIn
  rw [if_neg (by omega), List.mem_map]
  exact ⟨(addr + i) / 4 - addr / 4, List.mem_range.2 (by omega), by omega⟩

/-- Words without poison give no poisoned byte. -/
theorem poisonedAt_eq_nil (m : FMap Unit) (addr len base : Nat) (h : ∀ w ∈ wordsIn addr len, FMap.has m w = false) :
    poisonedAt m addr len base = [] := by
  unfold poisonedAt
  rw [List.filterMap_eq_nil_iff]
  intro i hi
  rw [h _ (mem_wordsIn addr len i (List.mem_range.1 hi)), if_neg Bool.false_ne_true]

theorem FMap.has_of_mem {α : Type} (m : FMap α) (p : Nat × α) (h : p ∈ m) : FMap.has m p.1 = true := by
  unfold FMap.has
  cases e : FMap.look m p.1 with
  | some v => rfl
  | none =>
    induction m with
    | nil => cases h
    | cons q m ih =>
      unfold FMap.look at e
      split_ifs at e with hq
      rcases List.mem_cons.1 h with rfl | h
      · exact absurd rfl hq
      · exact ih h e

/-- Bytes none of which is under way are settled already. -/
theorem State.settleBytes_none (s : State) (cl : Option Nat) (a n : Nat) (h : ∀ i < n, FMap.has s.unsettled (a + i) = false) :
    s.settleBytes cl a n = s := by
  have hf : s.unsettled.filter (fun p => !(decide (a ≤ p.1 ∧ p.1 < a + n) && cl != some p.2.1)) = s.unsettled := by
    rw [List.filter_eq_self]
    intro p hp
    by_cases hr : a ≤ p.1 ∧ p.1 < a + n
    · have hno := h (p.1 - a) (by omega)
      rw [show a + (p.1 - a) = p.1 by omega, FMap.has_of_mem _ p hp] at hno
      cases hno
    · simp [hr]
  unfold State.settleBytes
  rw [hf]

/-- A load of bytes none of which is under way meets what its cluster sees. -/
theorem State.loadBytes_settled (s : State) (k cl a n : Nat) (h : ∀ i < n, FMap.has s.unsettled (a + i) = false) :
    s.loadBytes k cl a n = s.viewBytes cl a n := by
  unfold State.loadBytes State.viewBytes
  refine List.map_congr_left (fun i hi => ?_)
  have hno := h i (List.mem_range.1 hi)
  unfold FMap.has at hno
  unfold State.loadByte
  rw [Option.isSome_eq_false_iff, Option.isNone_iff_eq_none] at hno
  rw [hno]

/-- What a load leaves behind: lines, and a flit. -/
structure LoadTrace (s t : State) : Prop where
  lines : LinesOnly s { t with module := s.module }
  flits : { t.module with flits := s.module.flits } = s.module

theorem LinesOnly.loadTrace {s t : State} (h : LinesOnly s t) : LoadTrace s t := by
  have e : t.module = s.module := h.of_rest State.module (fun _ _ _ => rfl)
  exact ⟨⟨congrArg (fun x : State => { x with module := s.module }) h.world, h.cluster⟩, by rw [e]⟩

theorem LoadTrace.before {s v t : State} (h : LinesOnly s v) (k : LoadTrace v t) : LoadTrace s t := by
  have e : v.module = s.module := h.of_rest State.module (fun _ _ _ => rfl)
  obtain ⟨hl, hf⟩ := k
  rw [e] at hl hf
  exact ⟨h.trans hl, hf⟩

/-- A load takes the bytes it finds (R19, R144, R146). -/
theorem State.takeLoad_taken (s : State) (n i : Nat) (a : Access) (p : Part)
    (hg : p.space = .global → ∀ w ∈ wordsIn p.addr p.len, FMap.has s.poison w = false)
    (hu : p.space = .global → ∀ i < p.len, FMap.has s.unsettled (p.addr + i) = false)
    (hs : p.space = .scratch → ∀ w ∈ wordsIn p.addr p.len,
      FMap.has (s.cluster a.cluster).scrPoison w = false ∧ FMap.has (s.cluster a.cluster).scrErr w = false)
    (hf : p.space = .fabric → s.remoteOpen (s.partOfAccess a) p.addr p.len = true) :
    ∃ t, LoadTrace s t ∧ s.takeLoad s n i a p = t.onPartOf n i (·.taken (s.spaceBytes a p)) := by
  cases hp : p.space with
  | global =>
    have hlines := LinesOnly.foldl (fun (s : State) ln => s.fetchLine a.cluster ln a.reuse) (fun s ln => s.fetchLine_lines _ ln _) (linesOf p.addr p.len) s
    refine ⟨_, hlines.loadTrace, ?_⟩
    generalize ht : (linesOf p.addr p.len).foldl (fun (s : State) ln => s.fetchLine a.cluster ln a.reuse) s = t at hlines
    have hun : t.unsettled = s.unsettled := hlines.of_rest State.unsettled (fun _ _ _ => rfl)
    have hset := t.settleBytes_none (some a.cluster) p.addr p.len (by rw [hun]; exact hu hp)
    unfold State.takeLoad State.spaceBytes State.poisonRead
    simp only [hp, ht, s.loadBytes_settled n a.cluster p.addr p.len (hu hp), hset, if_true, poisonedAt_eq_nil _ _ _ p.base (hg hp),
      filter_has_eq_nil _ _ (hg hp), List.length_nil]
    rfl
  | host =>
    refine ⟨s, (LinesOnly.refl s).loadTrace, ?_⟩
    unfold State.takeLoad State.spaceBytes
    simp only [hp]
    rfl
  | fabric =>
    refine ⟨s.flit (s.partOfAccess a) 1, ⟨LinesOnly.refl s, rfl⟩, ?_⟩
    have ho : (s.flit (s.grid (s.team a.team).grid).part 1).remoteOpen (s.grid (s.team a.team).grid).part p.addr p.len = true := hf hp
    unfold State.takeLoad State.spaceBytes
    simp only [hp, ho, if_true]
    rfl
  | scratch =>
    refine ⟨s, (LinesOnly.refl s).loadTrace, ?_⟩
    have hclean := s.checkScratch_clean (s.grid (s.team a.team).grid).part a.cluster p.addr p.len (fun w hw => (hs hp w hw).2)
    unfold State.takeLoad State.spaceBytes State.poisonRead
    simp only [hp, hclean, poisonedAt_eq_nil _ _ _ p.base (fun w hw => (hs hp w hw).1), filter_has_eq_nil _ _ (fun w hw => (hs hp w hw).1),
      List.length_nil, if_true]
    rfl

end Sys2Proof.Machine
end

