-- ==== Sys2Proof/Proofs/Accesses.lean ====
section
/-! SUPPORT. An access of one piece taken as far as it goes (Access.lean, R19, R144 to R156), and obligation O43. -/
namespace Sys2Proof.Machine

/-! ### A lane changed -/

/-- One lane of one group changed by `f`, and nothing else. -/
structure LaneChanged (k l : Nat) (f : Lane → Lane) (s t : State) : Prop where
  world : { t with groups := s.groups } = s
  rest : s.onlyLanes t
  lane : ∀ j m, (t.group j).lane m = if j = k ∧ m = l then f ((s.group k).lane l) else (s.group j).lane m

theorem LaneChanged.id (k l : Nat) (s : State) : LaneChanged k l (fun n => n) s s :=
  ⟨rfl, fun _ => rfl, fun j m => by
    split_ifs with h
    · rw [h.1, h.2]
    · rfl⟩

theorem LaneChanged.trans {k l : Nat} {f g : Lane → Lane} {s t u : State} (h : LaneChanged k l f s t) (h' : LaneChanged k l g t u) :
    LaneChanged k l (fun n => g (f n)) s u := by
  refine ⟨(congrArg (fun x : State => { x with groups := s.groups }) h'.world).trans h.world,
    fun j => (congrArg (fun x : Group => { x with lanes := (s.group j).lanes }) (h'.rest j)).trans (h.rest j), fun j m => ?_⟩
  rw [h'.lane, h.lane, h.lane]
  simp only [and_self, if_true]
  split_ifs <;> rfl

theorem State.onLane_changed (s : State) (k l : Nat) (f : Lane → Lane) : LaneChanged k l f s (s.onGroup k (fun g => g.onLane l f)) := by
  refine ⟨rfl, fun j => ?_, fun j m => ?_⟩
  · rw [State.group_onGroup]
    split_ifs with h
    · rw [h]; rfl
    · rfl
  · rw [State.group_onGroup]
    by_cases hj : j = k
    · rw [if_pos hj, Group.lane_onLane]; simp [hj]
    · simp [hj]

theorem Lane.orFlags_zero (n : Lane) : n.orFlags 0 = n := by
  unfold Lane.orFlags
  simp

/-- Flags of an atomic where no level is open (R156). -/
theorem State.joinFlags_changed (s : State) (k l : Nat) (f : FpFlags) (h : (s.team (s.group k).team).levels = []) :
    LaneChanged k l (·.orFlags f) s (s.joinFlags k l f) := by
  unfold State.joinFlags
  split_ifs with hf
  · subst hf
    simp only [Lane.orFlags_zero]
    exact LaneChanged.id k l s
  · unfold State.commit
    simp only [h, List.getLast?_nil]
    exact s.onLane_changed k l (·.orFlags f)

/-- A result of a lane outside regions. -/
theorem State.writeResult_changed (s : State) (k l r : Nat) (v : Word) (b : Bool) (h : ((s.group k).lane l).region = none) :
    LaneChanged k l (·.setReg r v) s (s.writeResult k l r v b) := by
  unfold State.writeResult
  simp only [h]
  exact s.onLane_changed k l (·.setReg r v)

/-- Results in a run of registers of a lane. -/
theorem State.writeResults_changed (k l d : Nat) (v : Nat → Word) (b : Bool) (is : List Nat) (s : State) (h : ((s.group k).lane l).region = none) :
    LaneChanged k l (fun n => is.foldl (fun x i => x.setReg (d + i) (v i)) n) s (is.foldl (fun s i => s.writeResult k l (d + i) (v i) b) s) := by
  induction is generalizing s with
  | nil => exact LaneChanged.id k l s
  | cons i is ih =>
    have h1 := s.writeResult_changed k l (d + i) (v i) b h
    have hr : (((s.writeResult k l (d + i) (v i) b).group k).lane l).region = none := by
      rw [h1.lane, if_pos ⟨rfl, rfl⟩]; exact h
    exact h1.trans (ih _ hr)

/-! ### Results delivered -/

/-- An access whose one part has taken its value. -/
def Access.takenAs (a : Access) (p : Part) (bs : List (BitVec 8)) : Access := { a with parts := [p.taken bs] }

/-- The access as the delivery of its one part finds it. -/
theorem State.deliver_eq (s : State) (a : Access) (p : Part) (bs : List (BitVec 8)) (d : Nat) (hd : a.dest = some d) (hp : p.region = none) :
    s.deliver (a.takenAs p bs) p.lane = (List.range a.nregs).foldl (fun s i =>
      if 80 ≤ d then s.onGroup a.group (fun g => g.setS (d - 80 + i) (a.regValue bs i)) else s.writeResult a.group p.lane (d + i) (a.regValue bs i) false) s := by
  have hdest : (a.takenAs p bs).dest = some d := hd
  have hps : (a.takenAs p bs).parts.filter (fun q => q.lane == p.lane) = [p.taken bs] := by
    unfold Access.takenAs
    rw [List.filter_cons_of_pos (by exact beq_self_eq_true _)]
    rfl
  have hval : (p.taken bs).val.getD [] = bs := rfl
  have hpois : (p.taken bs).pois = [] := rfl
  have hreg : (p.taken bs).region = none := hp
  have hbad (i : Nat) : Access.regPoisoned [] i = false := rfl
  unfold State.deliver
  simp only [hdest, hps, List.flatMap_cons, List.flatMap_nil, List.append_nil, hval, hpois, List.any_cons, List.any_nil, hreg, hbad,
    List.isEmpty_nil, Bool.not_true, Bool.false_and, Bool.false_eq_true, if_false, Option.isSome_none, Bool.or_self]
  rfl

theorem State.deliver_none (s : State) (a : Access) (l : Nat) (h : a.dest = none) : s.deliver a l = s := by
  unfold State.deliver
  simp only [h]

/-- Results of vector registers (R143, R149). -/
theorem State.deliver_lanes (s : State) (a : Access) (p : Part) (bs : List (BitVec 8)) (d : Nat) (hd : a.dest = some d) (hd72 : d < 72)
    (hp : p.region = none) (hl : ((s.group a.group).lane p.lane).region = none) :
    LaneChanged a.group p.lane (a.filled d bs) s (s.deliver (a.takenAs p bs) p.lane) := by
  rw [s.deliver_eq a p bs d hd hp]
  simp only [if_neg (show ¬ 80 ≤ d by omega)]
  exact State.writeResults_changed a.group p.lane d (a.regValue bs) false _ s hl

/-- A run of scalar registers set. -/
def Group.setRun (g : Group) (b : Nat) (v : Nat → Word) (n : Nat) : Group := (List.range n).foldl (fun g i => g.setS (b + i) (v i)) g

theorem Group.setRun_succ (g : Group) (b : Nat) (v : Nat → Word) (n : Nat) : g.setRun b v (n + 1) = (g.setRun b v n).setS (b + n) (v n) := by
  unfold Group.setRun
  rw [List.range_succ, List.foldl_append]
  rfl

theorem Group.setRun_lanes (g : Group) (b : Nat) (v : Nat → Word) (n : Nat) : (g.setRun b v n).lanes = g.lanes := by
  induction n with
  | zero => rfl
  | succ n ih => rw [Group.setRun_succ]; exact ih

theorem Group.s_setRun (g : Group) (b : Nat) (v : Nat → Word) (n r : Nat) :
    (g.setRun b v n).s r = if b ≤ r ∧ r < b + n then v (r - b) else g.s r := by
  induction n with
  | zero => rw [if_neg (by omega)]; rfl
  | succ n ih =>
    rw [Group.setRun_succ, Group.s_setS, ih]
    by_cases h : r = b + n
    · rw [if_pos h, if_pos (by omega), h, Nat.add_sub_cancel_left]
    · rw [if_neg h]
      by_cases h2 : b ≤ r ∧ r < b + n
      · rw [if_pos h2, if_pos (by omega)]
      · rw [if_neg h2, if_neg (by omega)]

theorem Group.sIsEmpty_setRun (g : Group) (b : Nat) (v : Nat → Word) (n r : Nat) (hr : r < 32) :
    (g.setRun b v n).sIsEmpty r = (g.sIsEmpty r && !decide (b ≤ r ∧ r < b + n)) := by
  induction n with
  | zero => simp only [Group.setRun, List.range_zero, List.foldl_nil, decide_eq_false (show ¬ (b ≤ r ∧ r < b + 0) by omega), Bool.not_false, Bool.and_true]
  | succ n ih =>
    rw [Group.setRun_succ, Group.sIsEmpty_setS _ _ _ _ hr, ih]
    by_cases h : r = b + n
    · simp [h]
    · have : (b ≤ r ∧ r < b + n) ↔ (b ≤ r ∧ r < b + (n + 1)) := by omega
      simp [h, this]

/-- Results of scalar registers (R143). -/
theorem State.deliver_scalars (s : State) (a : Access) (p : Part) (bs : List (BitVec 8)) (d : Nat) (hd : a.dest = some d) (hd80 : 80 ≤ d)
    (hp : p.region = none) :
    { s.deliver (a.takenAs p bs) p.lane with groups := s.groups } = s ∧
    ∀ j, (s.deliver (a.takenAs p bs) p.lane).group j =
      if j = a.group then (s.group a.group).setRun (d - 80) (a.regValue bs) a.nregs else s.group j := by
  rw [s.deliver_eq a p bs d hd hp]
  simp only [if_pos hd80]
  generalize a.nregs = n
  induction n with
  | zero =>
    refine ⟨rfl, fun j => ?_⟩
    split_ifs with h
    · rw [h]; rfl
    · rfl
  | succ n ih =>
    obtain ⟨hw, hg⟩ := ih
    rw [List.range_succ, List.foldl_append, List.foldl_cons, List.foldl_nil]
    refine ⟨hw, fun j => ?_⟩
    rw [State.group_onGroup, hg, hg, if_pos rfl, Group.setRun_succ]
    split_ifs <;> rfl

/-! ### An access of one part run -/

theorem FMap.del_put {α : Type} (m : FMap α) (k : Nat) (v : α) : FMap.del (FMap.put m k v) k = FMap.del m k := by
  induction m with
  | nil => simp [FMap.put, FMap.del]
  | cons q m ih =>
    obtain ⟨k', v'⟩ := q
    unfold FMap.put
    split_ifs with h h2
    · simp [FMap.del, h]
    · simp [FMap.del]
    · simp [FMap.del, h, ih]

/-- The one part of a listed access changed. -/
theorem State.onPartOf_one (t : State) (n : Nat) (a : Access) (p : Part) (f : Part → Part) (h : FMap.look t.accesses n = some a) (hp : a.parts = [p]) :
    t.onPartOf n 0 f = { t with accesses := FMap.put t.accesses n { a with parts := [f p] } } := by
  unfold State.onPartOf
  simp only [h, hp, List.mapIdx_cons, List.mapIdx_nil, if_true]

/-- A part of an access that may be performed now in the lanes named. -/
def State.goes (s : State) (n : Nat) (a : Access) (only : Option Nat) (i : Nat) : Bool :=
  match a.parts[i]? with
  | some p => !p.done && a.chosen only i && (p.region.isSome || s.partsReady n a State.partReady i)
  | none => false

/-- The parts of an access named by `go` performed, and what they return delivered. -/
def State.runParts (s : State) (n : Nat) (a : Access) (go : List Nat) : State :=
  let plain := (go.filterMap (fun i => a.parts[i]?)).filter (fun p => p.region.isNone && p.space != .scratch && a.kind != .store)
  let s := s.checkDram (s.grid (s.team a.team).grid).part ((plain.filter (fun p => p.space == .global)).flatMap (fun p => linesOf p.addr p.len))
  let v := if !plain.isEmpty && acquires a.order && decide (2 ≤ a.scope) then s.dropCopies a.cluster else s
  let s := go.foldl (fun s i => s.performPart v n i) v
  match FMap.look s.accesses n with
  | none => s
  | some a' =>
    let s := (Access.finished a a').foldl (fun s l => s.deliver a' l) s
    if a'.parts.all (·.done) then { s with accesses := FMap.del s.accesses n } else s

theorem State.runAccess_listed (s : State) (n : Nat) (a : Access) (only : Option Nat) (h : FMap.look s.accesses n = some a) :
    s.runAccess n only = s.runParts n a ((List.range a.parts.length).filter (s.goes n a only)) := by
  unfold State.runAccess
  rw [h]
  rfl

section
variable (s : State) (n : Nat) (a : Access) (p : Part)

/-- The state that the lanes of an access read: an acquire at cluster scope or wider has dropped the copies (R214). -/
def State.acquired : State :=
  if p.space ≠ .scratch ∧ a.kind ≠ .store ∧ acquires a.order = true ∧ 2 ≤ a.scope then s.dropCopies a.cluster else s

theorem State.acquired_lines : LinesOnly s (s.acquired a p) := by
  unfold State.acquired
  split_ifs
  · exact s.dropCopies_lines _
  · exact LinesOnly.refl s

/-- A part alone in its access is joined to no other (R145). -/
theorem Access.joined_one (hp : a.parts = [p]) : a.joined a.parts.length [0] = [0] := by
  rw [hp]
  unfold Access.joined
  simp [hp]

/-- Lines without errors of device memory are left as they are (R385). -/
theorem State.checkDram_clean (part : Nat) (lines : List Nat)
    (h : ∀ ln ∈ lines, FMap.has s.dramErr (2 * ln) = false ∧ FMap.has s.dramErr (2 * ln + 1) = false) : s.checkDram part lines = s := by
  have hb : ((lines.filter (fun ln => (wayOf (s.slice (s.holdOf ln)).lines (llcSet ln) ln).isNone)).flatMap (fun ln => [2 * ln, 2 * ln + 1])).filter
      (fun h => FMap.has s.dramErr h) = [] := by
    rw [List.filter_eq_nil_iff]
    intro x hx
    obtain ⟨ln, hln, hx⟩ := List.mem_flatMap.1 hx
    obtain ⟨he, ho⟩ := h ln (List.mem_filter.1 hln).1
    rcases List.mem_cons.1 hx with rfl | hx
    · rw [he]; exact Bool.false_ne_true
    · rw [List.mem_singleton.1 hx, ho]; exact Bool.false_ne_true
  unfold State.checkDram
  simp only [hb, List.isEmpty_nil, if_true]

variable (h : s.Performs n a p)
include h

theorem State.Performs.ready : s.partsReady n a State.partReady 0 = true := by
  obtain ⟨-, -, hr⟩ := h.pending
  unfold State.partsReady
  rw [a.joined_one p h.parts]
  simp [h.parts, hr]

/-- An access of one part that may be performed: the part is performed, what it returns is delivered, and the access is gone (R145, R19). -/
theorem State.runAccess_one (t : State) (q : Part) (ht : (s.acquired a p).performPart (s.acquired a p) n 0 = t)
    (hlook : FMap.look t.accesses n = some { a with parts := [q] }) (hdone : q.done = true) (hlane : q.lane = p.lane) :
    s.runAccess n none = { t.deliver { a with parts := [q] } p.lane with
      accesses := FMap.del (t.deliver { a with parts := [q] } p.lane).accesses n } := by
  obtain ⟨hpd, hreg, -⟩ := h.pending
  have hgo : (List.range a.parts.length).filter (s.goes n a none) = [0] := by
    rw [h.parts]
    simp [State.goes, h.parts, hpd, Access.chosen, h.ready]
  have hdram : s.checkDram (s.grid (s.team a.team).grid).part (((([0].filterMap (fun i => a.parts[i]?)).filter (fun p =>
      p.region.isNone && p.space != .scratch && a.kind != .store)).filter (fun p => p.space == .global)).flatMap (fun p => linesOf p.addr p.len)) = s := by
    refine s.checkDram_clean _ _ (fun ln hln => ?_)
    rw [h.parts] at hln
    simp only [List.filterMap_cons, List.getElem?_cons_zero, List.filterMap_nil, List.mem_flatMap, List.mem_filter, List.mem_singleton] at hln
    obtain ⟨x, ⟨⟨rfl, hk⟩, hsp⟩, hln⟩ := hln
    exact h.dram (by simp at hk; exact hk.2) (by simpa using hsp) ln hln
  have hacq : (if (!(([0].filterMap (fun i => a.parts[i]?)).filter (fun p => p.region.isNone && p.space != .scratch && a.kind != .store)).isEmpty &&
      acquires a.order && decide (2 ≤ a.scope)) = true then s.dropCopies a.cluster else s) = s.acquired a p := by
    unfold State.acquired
    rw [h.parts]
    simp only [List.filterMap_cons, List.getElem?_cons_zero, List.filterMap_nil]
    congr 1
    simp only [eq_iff_iff, List.filter_cons, List.filter_nil, hreg]
    by_cases h1 : p.space = .scratch <;> by_cases h2 : a.kind = .store <;> simp [h1, h2]
  have hfin : Access.finished a { a with parts := [q] } = [p.lane] := by
    unfold Access.finished
    rw [h.parts]
    simp [hpd, hdone]
  rw [s.runAccess_listed n a none h.listed, hgo]
  unfold State.runParts
  simp only [hdram, hacq, List.foldl_cons, List.foldl_nil, ht, hlook, hfin, List.all_cons, List.all_nil, hdone, Bool.and_self, if_true]

end

/-! ### The ends of an access of one part -/

/-- What the end of an access leaves of the state `t0` in which its part has had its effect: the access is gone, and groups may have changed. -/
structure Ended (s t0 : State) (n : Nat) (u : State) : Prop where
  accesses : u.accesses = FMap.del s.accesses n
  world : { u with groups := t0.groups, accesses := t0.accesses } = t0

theorem Ended.of_rest {s t0 u : State} {n : Nat} {α : Type} (h : Ended s t0 n u) (f : State → α)
    (hf : ∀ x g c, f { x with groups := g, accesses := c } = f x) : f u = f t0 := (hf u _ _).symm.trans (congrArg f h.world)

section
variable (s : State) (n : Nat) (a : Access) (p : Part) (h : s.Performs n a p)
include h

/-- An access ends once its part, as `q`, has its value, and what it returns is delivered. -/
theorem State.runAccess_ended (t0 t : State) (q : Part) (ht : (s.acquired a p).performPart (s.acquired a p) n 0 = t)
    (hw : { t with groups := t0.groups, accesses := t0.accesses } = t0) (hacc : t.accesses = FMap.put s.accesses n { a with parts := [q] })
    (hdone : q.done = true) (hlane : q.lane = p.lane)
    (hd : { t.deliver { a with parts := [q] } p.lane with groups := t.groups } = t) :
    Ended s t0 n (s.runAccess n none) ∧ ∀ j, (s.runAccess n none).group j = (t.deliver { a with parts := [q] } p.lane).group j := by
  rw [s.runAccess_one n a p h t q ht (by rw [hacc, FMap.look_put_self]) hdone hlane]
  generalize t.deliver { a with parts := [q] } p.lane = w at hd
  have hwacc : w.accesses = t.accesses := by
    have e := congrArg State.accesses hd
    exact e
  refine ⟨⟨?_, ?_⟩, fun j => rfl⟩
  · change FMap.del w.accesses n = _
    rw [hwacc, hacc, FMap.del_put]
  · exact (congrArg (fun x : State => { x with groups := t0.groups, accesses := t0.accesses }) hd).trans hw

/-- The acquired state still has what the access needs. -/
theorem State.Performs.acquired_listed : FMap.look (s.acquired a p).accesses n = some a := by
  rw [(s.acquired_lines a p).of_rest State.accesses (fun _ _ _ => rfl)]
  exact h.listed

theorem State.performPart_load (hk : a.kind = .load) :
    (s.acquired a p).performPart (s.acquired a p) n 0 = (s.acquired a p).takeLoad (s.acquired a p) n 0 a p := by
  obtain ⟨hpd, hreg, -⟩ := h.pending
  have hlist := h.acquired_listed
  unfold State.performPart
  simp [hlist, h.parts, hpd, hreg, hk]

theorem State.performPart_store (hk : a.kind = .store) : (s.acquired a p).performPart (s.acquired a p) n 0 = (s.acquired a p).doStore n 0 a p := by
  obtain ⟨hpd, hreg, -⟩ := h.pending
  have hlist := h.acquired_listed
  unfold State.performPart
  simp [hlist, h.parts, hpd, hreg, hk]

theorem State.performPart_atomic (op : Nat) (hk : a.kind = .atomic op) :
    (s.acquired a p).performPart (s.acquired a p) n 0 = ((s.acquired a p).doAtomic n 0 a p op).logAtomic n 0 a p := by
  obtain ⟨hpd, hreg, -⟩ := h.pending
  have hlist := h.acquired_listed
  have hrec : ((s.acquired a p).grid ((s.acquired a p).team a.team).grid).recordMode = 0 :=
    ((s.acquired_lines a p).of_rest (fun x => (x.grid (x.team a.team).grid).recordMode) (fun _ _ _ => rfl)).trans h.log
  have hstall : (s.acquired a p).logStalls ((s.acquired a p).team a.team).grid = false := by
    unfold State.logStalls
    simp [hrec]
  unfold State.performPart
  simp [hlist, h.parts, hpd, hreg, hk, hstall]

end

/-- An order point of a grid that is not recorded leaves the state as it is (R367). -/
theorem State.logAtomic_none (t : State) (n : Nat) (a : Access) (p : Part) (hrec : (t.grid (t.team a.team).grid).recordMode = 0) :
    t.logAtomic n 0 a p = t := by
  unfold State.logAtomic State.logPoint
  simp [hrec]

/-! ### Loads -/

section
variable (s : State) (n : Nat) (a : Access) (p : Part) (h : s.Performs n a p)

/-- The bytes that the access meets: after an acquire those at the performing point (R214). -/
def State.found : List (BitVec 8) :=
  if acquires a.order && decide (2 ≤ a.scope) then (s.dropCopies a.cluster).spaceBytes a p else s.spaceBytes a p

theorem State.spaceBytes_acquired (hk : a.kind = .load) : (s.acquired a p).spaceBytes a p = s.found a p := by
  unfold State.acquired State.found
  rw [hk]
  by_cases hs : p.space = .scratch
  · have hd : (s.dropCopies a.cluster).spaceBytes a p = s.spaceBytes a p := by
      have e := ((s.dropCopies_lines a.cluster).scratch a.cluster).1
      unfold State.spaceBytes
      simp only [hs, e]
    rw [hd]
    simp [hs]
  · simp only [ne_eq, hs, not_false_eq_true, reduceCtorEq, true_and, Bool.and_eq_true, decide_eq_true_eq]
    split_ifs <;> rfl

include h

/-- A load of an access of one part takes its value (R144, R146). -/
theorem State.Performs.load (hk : a.kind = .load) :
    ∃ t0, LoadTrace s t0 ∧ (s.acquired a p).performPart (s.acquired a p) n 0 =
      { t0 with accesses := FMap.put s.accesses n { a with parts := [p.taken (s.found a p)] } } := by
  have hL := s.acquired_lines a p
  have hpoison : (s.acquired a p).poison = s.poison := hL.of_rest State.poison (fun _ _ _ => rfl)
  have huns : (s.acquired a p).unsettled = s.unsettled := hL.of_rest State.unsettled (fun _ _ _ => rfl)
  obtain ⟨-, hsp, hse⟩ := hL.scratch a.cluster
  have hopen : (s.acquired a p).remoteOpen ((s.acquired a p).partOfAccess a) p.addr p.len = s.remoteOpen (s.partOfAccess a) p.addr p.len :=
    hL.of_rest (fun x => x.remoteOpen (x.partOfAccess a) p.addr p.len) (fun _ _ _ => rfl)
  obtain ⟨t0, htrace, ht⟩ := (s.acquired a p).takeLoad_taken n 0 a p (by rw [hpoison]; exact h.global) (by rw [huns]; exact h.settled hk)
    (by rw [hsp, hse]; exact fun c => (h.scratch c).2) (by rw [hopen]; exact fun c => (h.fabric c).1)
  have htr := LoadTrace.before hL htrace
  have hacc : t0.accesses = s.accesses := htr.lines.of_rest State.accesses (fun _ _ _ => rfl)
  refine ⟨t0, htr, ?_⟩
  rw [s.performPart_load n a p h hk, ht, s.spaceBytes_acquired a p hk, t0.onPartOf_one n a p _ (by rw [hacc]; exact h.listed) h.parts, hacc]

/-- What the end of a load leaves unchanged. -/
structure LoadEnd (s : State) (n : Nat) (u : State) : Prop where
  world : { u with clusters := s.clusters, llc := s.llc, module := s.module, groups := s.groups, accesses := s.accesses } = s
  accesses : u.accesses = FMap.del s.accesses n
  cluster : ∀ c, { u.cluster c with
    l1 := (s.cluster c).l1, stale := (s.cluster c).stale, dirty := (s.cluster c).dirty, l1Hits := (s.cluster c).l1Hits, l1Misses := (s.cluster c).l1Misses } = s.cluster c
  flits : { u.module with flits := s.module.flits } = s.module

omit h in
theorem LoadTrace.ended {s t0 u : State} {n : Nat} (ht : LoadTrace s t0) (he : Ended s t0 n u) : LoadEnd s n u := by
  have hc (c) : u.cluster c = t0.cluster c := he.of_rest (fun x => x.cluster c) (fun _ _ _ => rfl)
  have hm : u.module = t0.module := he.of_rest State.module (fun _ _ _ => rfl)
  refine ⟨?_, he.accesses, fun c => by rw [hc]; exact ht.lines.cluster c, by rw [hm]; exact ht.flits⟩
  exact (congrArg (fun x : State => { x with clusters := s.clusters, llc := s.llc, module := s.module, groups := s.groups, accesses := s.accesses })
    he.world).trans (congrArg (fun x : State => { x with groups := s.groups, accesses := s.accesses }) ht.lines.world)

/-- A load into vector registers ends. -/
theorem State.Performs.load_lanes (hk : a.kind = .load) (d : Nat) (hd : a.dest = some d) (hd72 : d < 72) :
    LoadEnd s n (s.runAccess n none) ∧ s.onlyLanes (s.runAccess n none) ∧ ∀ k l, ((s.runAccess n none).group k).lane l =
      if k = a.group ∧ l = p.lane then a.filled d (s.found a p) ((s.group k).lane l) else (s.group k).lane l := by
  obtain ⟨-, hreg, -⟩ := h.pending
  obtain ⟨t0, htr, hperf⟩ := h.load s n a p hk
  have hgr (j) : t0.group j = s.group j := htr.lines.of_rest (fun x => x.group j) (fun _ _ _ => rfl)
  generalize ht : ({ t0 with accesses := FMap.put s.accesses n { a with parts := [p.taken (s.found a p)] } } : State) = t at hperf
  have htg (j) : t.group j = s.group j := by rw [← ht]; exact hgr j
  have hdel := t.deliver_lanes a p (s.found a p) d hd hd72 hreg (by rw [htg]; exact h.lane)
  obtain ⟨he, hg⟩ := s.runAccess_ended n a p h t0 t (p.taken (s.found a p)) hperf (by rw [← ht]) (by rw [← ht]) rfl rfl hdel.world
  refine ⟨htr.ended he, fun j => ?_, fun k l => ?_⟩
  · rw [hg, ← htg]; exact hdel.rest j
  · rw [hg]
    refine (hdel.lane k l).trans ?_
    rw [htg, htg]
    split_ifs with c
    · rw [c.1, c.2]
    · rfl

/-- A load into scalar registers ends. -/
theorem State.Performs.load_scalars (hk : a.kind = .load) (d : Nat) (hd : a.dest = some d) (hd80 : 80 ≤ d) :
    LoadEnd s n (s.runAccess n none) ∧ ∀ j, (s.runAccess n none).group j =
      if j = a.group then (s.group a.group).setRun (d - 80) (a.regValue (s.found a p)) a.nregs else s.group j := by
  obtain ⟨-, hreg, -⟩ := h.pending
  obtain ⟨t0, htr, hperf⟩ := h.load s n a p hk
  have hgr (j) : t0.group j = s.group j := htr.lines.of_rest (fun x => x.group j) (fun _ _ _ => rfl)
  generalize ht : ({ t0 with accesses := FMap.put s.accesses n { a with parts := [p.taken (s.found a p)] } } : State) = t at hperf
  have htg (j) : t.group j = s.group j := by rw [← ht]; exact hgr j
  obtain ⟨hdw, hdg⟩ := t.deliver_scalars a p (s.found a p) d hd hd80 hreg
  obtain ⟨he, hg⟩ := s.runAccess_ended n a p h t0 t (p.taken (s.found a p)) hperf (by rw [← ht]) (by rw [← ht]) rfl rfl hdw
  refine ⟨htr.ended he, fun j => ?_⟩
  rw [hg]
  refine (hdg j).trans ?_
  rw [htg, htg]

end

/-! ### Stores and atomics -/

/-- What the end of a store or an atomic leaves: its bytes stand, and nothing else changed but caches, what they count, and groups. -/
structure WriteEnd (s : State) (n : Nat) (a : Access) (p : Part) (new : Option (List (BitVec 8))) (u : State) : Prop where
  world : { u with clusters := s.clusters, llc := s.llc, dies := s.dies, mem := s.mem, poison := s.poison, hostMem := s.hostMem, remote := s.remote
                   parts := s.parts, module := s.module, unsettled := s.unsettled, groups := s.groups, accesses := s.accesses } = s
  accesses : u.accesses = FMap.del s.accesses n
  cluster : ∀ c, { u.cluster c with
    l1 := (s.cluster c).l1, stale := (s.cluster c).stale, dirty := (s.cluster c).dirty, l1Hits := (s.cluster c).l1Hits, l1Misses := (s.cluster c).l1Misses, scratch := (s.cluster c).scratch
    scrPoison := (s.cluster c).scrPoison, scrErr := (s.cluster c).scrErr } = s.cluster c
  flits : { u.module with flits := s.module.flits } = s.module
  stored : s.Stored u a p new
  poison : p.space = .global → ∀ bs, new = some bs → u.poison = clearPoison s.poison p.addr bs.length

theorem Landed.ended {s t0 u : State} {n : Nat} {a : Access} {p : Part} {new : Option (List (BitVec 8))} (ht : Landed s a p new t0)
    (he : Ended s t0 n u) : WriteEnd s n a p new u := by
  have hc (c) : u.cluster c = t0.cluster c := he.of_rest (fun x => x.cluster c) (fun _ _ _ => rfl)
  have hm : u.module = t0.module := he.of_rest State.module (fun _ _ _ => rfl)
  have hmem : u.mem = t0.mem := he.of_rest State.mem (fun _ _ _ => rfl)
  have hhost : u.hostMem = t0.hostMem := he.of_rest State.hostMem (fun _ _ _ => rfl)
  have hrem : u.remote = t0.remote := he.of_rest State.remote (fun _ _ _ => rfl)
  have hpo : u.poison = t0.poison := he.of_rest State.poison (fun _ _ _ => rfl)
  obtain ⟨h1, h2, h3, h4⟩ := (State.stored_iff _ _ _ _ _).1 ht.stored
  refine ⟨?_, he.accesses, fun c => by rw [hc]; exact ht.cluster c, by rw [hm]; exact ht.flits,
    (State.stored_iff _ _ _ _ _).2 ⟨hmem.trans h1, hhost.trans h2, hrem.trans h3, fun c => by rw [hc]; exact h4 c⟩,
    fun hg bs e => hpo.trans (ht.poison hg bs e)⟩
  exact (congrArg (fun x : State => { x with
    clusters := s.clusters, llc := s.llc, dies := s.dies, mem := s.mem, poison := s.poison, hostMem := s.hostMem, remote := s.remote
    parts := s.parts, module := s.module, unsettled := s.unsettled, groups := s.groups, accesses := s.accesses }) he.world).trans
    (congrArg (fun x : State => { x with groups := s.groups, accesses := s.accesses }) ht.world)

/-- Bytes outside the piece stay. -/
theorem WriteEnd.outside {s u : State} {n : Nat} {a : Access} {p : Part} {new : Option (List (BitVec 8))} (h : WriteEnd s n a p new u) (len : Nat)
    (hlen : ∀ bs, new = some bs → bs.length = len) (x : Nat) (hx : x < p.addr ∨ p.addr + len ≤ x) : Mem.read u.mem x = Mem.read s.mem x := by
  rw [((State.stored_iff _ _ _ _ _).1 h.stored).1]
  split_ifs
  · cases new with
    | none => rfl
    | some bs =>
      have e := hlen bs rfl
      exact (Mem.read_writeBytes _ _ _ _).trans (if_neg (by omega))
  · rfl

section
variable (s : State) (n : Nat) (a : Access) (p : Part) (h : s.Performs n a p)
include h

/-- A store ends (R146, R152). -/
theorem State.Performs.store (hk : a.kind = .store) (hd : a.dest = none) :
    WriteEnd s n a p (some p.data) (s.runAccess n none) ∧ (s.runAccess n none).groups = s.groups := by
  have hv : s.acquired a p = s := if_neg (fun c => c.2.1 hk)
  obtain ⟨t0, hland, ht⟩ := s.doStore_landed n 0 a p h.levels (fun c => (h.scratch c).1) (fun c => (h.fabric c).2 hk)
  have hacc : t0.accesses = s.accesses := by
    have e := congrArg State.accesses hland.world
    exact e
  have hgr : t0.groups = s.groups := by
    have e := congrArg State.groups hland.world
    exact e
  have hperf := s.performPart_store n a p h hk
  rw [hv, ht, t0.onPartOf_one n a p _ (by rw [hacc]; exact h.listed) h.parts, hacc] at hperf
  generalize hm : ({ t0 with accesses := FMap.put s.accesses n { a with parts := [{ p with done := true }] } } : State) = m at hperf
  have hnone (t : State) : t.deliver { a with parts := [{ p with done := true }] } p.lane = t := State.deliver_none _ _ _ hd
  obtain ⟨he, -⟩ := s.runAccess_ended n a p h t0 m { p with done := true } (by rw [hv]; exact hperf) (by rw [← hm]) (by rw [← hm]) rfl rfl (by rw [hnone])
  have hrun := s.runAccess_one n a p h m { p with done := true } (by rw [hv]; exact hperf) (by rw [← hm]; exact FMap.look_put_self _ _ _) rfl rfl
  rw [hnone] at hrun
  exact ⟨hland.ended he, by rw [hrun, ← hm]; exact hgr⟩

/-- An atomic has its effect (R152, R155), and its flags are joined (R156). -/
theorem State.Performs.atomic (op : Nat) (hk : a.kind = .atomic op) (hs : p.space ≠ .host) :
    ∃ t0 t, Landed s a p (atomBytes op (s.atomOld a p) p.data).1 t0 ∧ t0.parts = s.parts ∧
      (s.acquired a p).performPart (s.acquired a p) n 0 = t ∧
      LaneChanged a.group p.lane (·.orFlags (atomBytes op (s.atomOld a p) p.data).2)
        { t0 with accesses := FMap.put s.accesses n (a.takenAs p (s.atomOld a p)) } t := by
  have hL := s.acquired_lines a p
  have hpoison : (s.acquired a p).poison = s.poison := hL.of_rest State.poison (fun _ _ _ => rfl)
  have hlev : ((s.acquired a p).team a.team).levels = [] := (hL.of_rest (fun x => (x.team a.team).levels) (fun _ _ _ => rfl)).trans h.levels
  have hbase : ((s.acquired a p).team a.team).scrBase = (s.team a.team).scrBase := hL.of_rest (fun x => (x.team a.team).scrBase) (fun _ _ _ => rfl)
  obtain ⟨hscr, hsp, hse⟩ := hL.scratch a.cluster
  have hopen : (s.acquired a p).remoteOpen ((s.acquired a p).partOfAccess a) p.addr p.len = s.remoteOpen (s.partOfAccess a) p.addr p.len :=
    hL.of_rest (fun x => x.remoteOpen (x.partOfAccess a) p.addr p.len) (fun _ _ _ => rfl)
  have hold : (s.acquired a p).atomOld a p = s.atomOld a p := by
    have hmem : (s.acquired a p).mem = s.mem := hL.of_rest State.mem (fun _ _ _ => rfl)
    have hrem : (s.acquired a p).remoteRead ((s.acquired a p).partOfAccess a) p.addr p.len = s.remoteRead (s.partOfAccess a) p.addr p.len :=
      hL.of_rest (fun x => x.remoteRead (x.partOfAccess a) p.addr p.len) (fun _ _ _ => rfl)
    unfold State.atomOld State.spaceBytes
    cases hp : p.space with
    | global => simp only [if_true, hmem]
    | host => exact absurd hp hs
    | scratch => simp only [hscr, hmem]
    | fabric => exact hrem
  have heff : ∃ t0, Landed (s.acquired a p) a p (atomBytes op (s.atomOld a p) p.data).1 t0 ∧ t0.parts = (s.acquired a p).parts ∧
      (s.acquired a p).doAtomic n 0 a p op =
        (t0.onPartOf n 0 (·.taken (s.atomOld a p))).joinFlags a.group p.lane (atomBytes op (s.atomOld a p) p.data).2 := by
    rw [← hold]
    cases hp : p.space with
    | global => exact (s.acquired a p).doAtomic_global n 0 a p hlev op hp (by rw [hpoison]; exact h.global hp)
    | host => exact absurd hp hs
    | scratch =>
      exact (s.acquired a p).doAtomic_scratch n 0 a p hlev op hp (by rw [hbase]; exact (h.scratch hp).1) (by rw [hsp, hse]; exact (h.scratch hp).2)
    | fabric => exact (s.acquired a p).doAtomic_fabric n 0 a p op hp (by rw [hopen]; exact (h.fabric hp).1)
  obtain ⟨t0, hland, hparts, heff⟩ := heff
  have hland := hland.before hL
  have hacc : t0.accesses = s.accesses := by
    have e := congrArg State.accesses hland.world
    exact e
  rw [t0.onPartOf_one n a p _ (by rw [hacc]; exact h.listed) h.parts, hacc] at heff
  generalize hm : ({ t0 with accesses := FMap.put s.accesses n { a with parts := [p.taken (s.atomOld a p)] } } : State) = m at heff
  have hteam : (m.team (m.group a.group).team).levels = [] := by
    have e := congrArg (fun x : State => (x.team (x.group a.group).team).levels) hland.world
    rw [← hm]
    refine e.trans ?_
    rw [h.team]
    exact h.levels
  have hflags := m.joinFlags_changed a.group p.lane (atomBytes op (s.atomOld a p) p.data).2 hteam
  have hrec : ((m.joinFlags a.group p.lane (atomBytes op (s.atomOld a p) p.data).2).grid
      ((m.joinFlags a.group p.lane (atomBytes op (s.atomOld a p) p.data).2).team a.team).grid).recordMode = 0 := by
    have e1 := congrArg (fun x : State => (x.grid (x.team a.team).grid).recordMode) hflags.world
    have e2 := congrArg (fun x : State => (x.grid (x.team a.team).grid).recordMode) hland.world
    refine Eq.trans e1 ?_
    rw [← hm]
    exact Eq.trans e2 h.log
  refine ⟨t0, m.joinFlags a.group p.lane (atomBytes op (s.atomOld a p) p.data).2, hland, hparts.trans (hL.of_rest State.parts (fun _ _ _ => rfl)), ?_,
    by unfold Access.takenAs; rw [hm]; exact hflags⟩
  rw [s.performPart_atomic n a p h op hk, heff, State.logAtomic_none _ _ _ _ hrec]

/-- An atomic ends: its lane has its flags, and what `g` makes of a delivery (R145, R156). -/
theorem State.Performs.atomic_end (op : Nat) (hk : a.kind = .atomic op) (hs : p.space ≠ .host) (g : Lane → Lane)
    (hg : ∀ t : State, ((t.group a.group).lane p.lane).region = none →
      LaneChanged a.group p.lane g t (t.deliver (a.takenAs p (s.atomOld a p)) p.lane)) :
    WriteEnd s n a p (atomBytes op (s.atomOld a p) p.data).1 (s.runAccess n none) ∧ (s.runAccess n none).parts = s.parts ∧
    s.onlyLanes (s.runAccess n none) ∧ ∀ k l, ((s.runAccess n none).group k).lane l =
      if k = a.group ∧ l = p.lane then g (((s.group k).lane l).orFlags (atomBytes op (s.atomOld a p) p.data).2) else (s.group k).lane l := by
  obtain ⟨t0, t, hland, hparts, hperf, hflags⟩ := h.atomic s n a p op hk hs
  have hgr (j) : t0.group j = s.group j := by
    have e := congrArg (fun x : State => x.group j) hland.world
    exact e
  generalize hm : ({ t0 with accesses := FMap.put s.accesses n (a.takenAs p (s.atomOld a p)) } : State) = m at hflags
  have hmg (j) : m.group j = s.group j := by rw [← hm]; exact hgr j
  have hreg : ((t.group a.group).lane p.lane).region = none := by
    rw [hflags.lane, if_pos ⟨rfl, rfl⟩, hmg]
    exact h.lane
  have hboth := hflags.trans (hg t hreg)
  have hworld : { t with groups := t0.groups, accesses := t0.accesses } = t0 := by
    have e := congrArg (fun x : State => { x with groups := t0.groups, accesses := t0.accesses }) hflags.world
    rw [← hm] at e
    exact e
  have hacc : t.accesses = FMap.put s.accesses n (a.takenAs p (s.atomOld a p)) := by
    have e := congrArg State.accesses hflags.world
    rw [← hm] at e
    exact e
  obtain ⟨he, hgs⟩ := s.runAccess_ended n a p h t0 t (p.taken (s.atomOld a p)) hperf hworld hacc rfl rfl (hg t hreg).world
  refine ⟨hland.ended he, (he.of_rest State.parts (fun _ _ _ => rfl)).trans hparts, fun j => ?_, fun k l => ?_⟩
  · rw [hgs, ← hmg]; exact hboth.rest j
  · rw [hgs]
    refine (hboth.lane k l).trans ?_
    rw [hmg, hmg]
    split_ifs with c
    · rw [c.1, c.2]
    · rfl

end

/-! ### The events -/

/-- An event of an access of its kind runs it. -/
theorem State.accessEvent_runs (s : State) (n : Nat) (a : Access) (lane : Option Nat) (is : AccKind → Bool) (h : FMap.look s.accesses n = some a)
    (hk : is a.kind = true) : s.accessEvent n lane is = .next (s.runAccess n lane).settleAll := by
  unfold State.accessEvent
  simp only [h, hk, if_true]

/-- An event of an access that is not of its kind changes nothing. -/
theorem State.accessEvent_other (s : State) (n : Nat) (a : Access) (lane : Option Nat) (is : AccKind → Bool) (h : FMap.look s.accesses n = some a)
    (hk : is a.kind = false) : s.accessEvent n lane is = .next s := by
  unfold State.accessEvent
  simp only [h, hk, Bool.false_eq_true, if_false]

theorem exec_loadResult_eq (s : State) (acc : AccessAt) : exec (.loadResult acc) s = s.accessEvent acc.num acc.lane (fun k => k == .load) := by
  rw [exec_loadResult]
  rfl

theorem exec_atomicCompletion_eq (s : State) (acc : AccessAt) : exec (.atomicCompletion acc) s =
    s.accessEvent acc.num acc.lane (fun k => match k with | .atomic _ => true | _ => false) := by
  rw [exec_atomicCompletion]
  rfl

theorem exec_storePerformed_far (s : State) (n : Nat) (lane : Option Nat) :
    exec (.storePerformed ⟨n, lane, false⟩) s = s.accessEvent n lane (fun k => k == .store) := by
  rw [exec_storePerformed]
  rfl

/-- A store that enters the L1 of its cluster, near its lanes (R214). -/
theorem exec_storePerformed_near (s : State) (n : Nat) (a : Access) (lane : Option Nat) (h : FMap.look s.accesses n = some a) :
    exec (.storePerformed ⟨n, lane, true⟩) s = .next (if a.kind = .store then (s.enterStores n lane).settleAll else s) := by
  rw [exec_storePerformed]
  unfold execStorePerformed
  simp only [h, if_true]

/-- An event of an access that is not of its kind changes nothing. -/
theorem events_of_other_kind (s : State) (n : Nat) (a : Access) (h : FMap.look s.accesses n = some a) (lane : Option Nat) (near : Bool) :
    (a.kind ≠ .load → exec (.loadResult ⟨n, lane⟩) s = .next s) ∧ (a.kind ≠ .store → exec (.storePerformed ⟨n, lane, near⟩) s = .next s) ∧
    ((∀ op, a.kind ≠ .atomic op) → exec (.atomicCompletion ⟨n, lane⟩) s = .next s) := by
  refine ⟨fun hk => ?_, fun hk => ?_, fun hk => ?_⟩
  · rw [exec_loadResult_eq]
    exact s.accessEvent_other n a lane _ h (beq_false_of_ne hk)
  · cases near
    · rw [exec_storePerformed_far]
      exact s.accessEvent_other n a lane _ h (beq_false_of_ne hk)
    · rw [exec_storePerformed_near s n a lane h, if_neg hk]
  · rw [exec_atomicCompletion_eq]
    refine s.accessEvent_other n a lane _ h ?_
    cases e : a.kind with
    | load => rfl
    | store => rfl
    | atomic op => exact absurd e (hk op)

/-- A store of one part that may enters the L1 of its cluster. -/
theorem State.enterStores_one (s : State) (n : Nat) (a : Access) (p : Part) (h : FMap.look s.accesses n = some a) (hp : a.parts = [p])
    (hd : p.done = false) (hm : s.mayEnter n a p = true) :
    s.enterStores n none =
      { s with fresh := s.fresh + 1, accesses := FMap.put s.accesses n { a with parts := [{ p with entered := some s.fresh }] } } := by
  have hready : s.partsReady n a State.mayEnter 0 = true := by
    unfold State.partsReady
    rw [a.joined_one p hp]
    simp [hp, hm]
  have hgo : ∀ go, go = [0] → go.foldl (fun (s : State) i => { s with fresh := s.fresh + 1 }.onPartOf n i (fun p => { p with entered := some s.fresh })) s =
      { s with fresh := s.fresh + 1, accesses := FMap.put s.accesses n { a with parts := [{ p with entered := some s.fresh }] } } := by
    rintro go rfl
    exact State.onPartOf_one { s with fresh := s.fresh + 1 } n a p _ h hp
  unfold State.enterStores
  rw [h]
  refine hgo _ ?_
  rw [hp]
  simp [hd, Access.chosen, hready]

/-- A store that may stand in the L1 of its cluster enters it (R214). -/
theorem storePerformed_enters (s : State) (n : Nat) (a : Access) (p : Part) (h : FMap.look s.accesses n = some a) (hk : a.kind = .store)
    (hp : a.parts = [p]) (hd : p.done = false) (hm : s.mayEnter n a p = true) :
    Settles (exec (.storePerformed { num := n, near := true }) s) (fun u => u =
      { s with fresh := s.fresh + 1, accesses := FMap.put s.accesses n { a with parts := [{ p with entered := some s.fresh }] } }) := by
  refine ⟨_, ?_, rfl⟩
  rw [exec_storePerformed_near s n a none h, if_pos hk, s.enterStores_one n a p h hp hd hm]

/-! ### What atomics write (R154, R156) -/

theorem min_signed (a b : Word) : (minS a b).toNat = if a.toInt ≤ b.toInt then a.toNat else b.toNat := by
  simp only [minS, BitVec.slt_iff_toInt_lt]
  by_cases h : b.toInt < a.toInt
  · rw [if_pos h, if_neg (by omega)]
  · rw [if_neg h, if_pos (by omega)]

theorem max_signed (a b : Word) : (maxS a b).toNat = if a.toInt ≤ b.toInt then b.toNat else a.toNat := by
  simp only [maxS, BitVec.slt_iff_toInt_lt]
  by_cases h : a.toInt < b.toInt
  · rw [if_pos h, if_pos (by omega)]
  · rw [if_neg h]
    by_cases h2 : a.toInt ≤ b.toInt
    · rw [if_pos h2, BitVec.eq_of_toInt_eq (show a.toInt = b.toInt by omega)]
    · rw [if_neg h2]

theorem min_unsigned (a b : Word) : (minU a b).toNat = min a.toNat b.toNat := by
  simp only [minU, BitVec.ult_iff_lt, BitVec.lt_def]
  split_ifs <;> omega

theorem max_unsigned (a b : Word) : (maxU a b).toNat = max a.toNat b.toNat := by
  simp only [maxU, BitVec.ult_iff_lt, BitVec.lt_def]
  split_ifs <;> omega

theorem add_words (m d : Nat) : ((BitVec.ofNat 32 m : Word) + BitVec.ofNat 32 d).toNat = (m + d) % 2 ^ 32 := by
  rw [← BitVec.ofNat_add, BitVec.toNat_ofNat]

/-- The signed minimum and maximum among atomics. -/
theorem atomNew_signed (m d x : Nat) :
    (∀ op ∈ [0x19, 0x25], atomNew op m d x = (some (if (BitVec.ofNat 32 m : Word).toInt ≤ (BitVec.ofNat 32 d : Word).toInt
      then (BitVec.ofNat 32 m : Word).toNat else (BitVec.ofNat 32 d : Word).toNat), 0)) ∧
    (∀ op ∈ [0x1A, 0x26], atomNew op m d x = (some (if (BitVec.ofNat 32 m : Word).toInt ≤ (BitVec.ofNat 32 d : Word).toInt
      then (BitVec.ofNat 32 d : Word).toNat else (BitVec.ofNat 32 m : Word).toNat), 0)) := by
  rw [← min_signed, ← max_signed]
  simp only [List.forall_mem_cons, List.not_mem_nil, false_imp_iff, implies_true, and_true]
  exact ⟨⟨rfl, rfl⟩, rfl, rfl⟩

/-! ### O43 -/

/-- A load ends, as O43 says it. -/
theorem loadResult_settles (s : State) (n : Nat) (a : Access) (p : Part) (h : s.Performs n a p) (hk : a.kind = .load) (P : State → Prop)
    (hP : P (s.runAccess n none)) : Settles (exec (.loadResult { num := n }) s) P := by
  refine ⟨_, ?_, hP⟩
  rw [exec_loadResult_eq]
  exact s.accessEvent_runs n a none _ h.listed (by rw [hk]; rfl)

theorem State.atomOld_length (s : State) (a : Access) (p : Part) : (s.atomOld a p).length = p.len := by
  unfold State.atomOld State.spaceBytes State.viewBytes State.remoteRead
  cases p.space <;> simp

/-- An atomic ends, as O43 says it; `g` is what its delivery makes of its lane. -/
theorem atomicCompletion_settles (s : State) (n : Nat) (a : Access) (p : Part) (h : s.Performs n a p) (op : Nat) (hk : a.kind = .atomic op)
    (hs : p.space ≠ .host) (g : Lane → Lane)
    (hg : ∀ t : State, ((t.group a.group).lane p.lane).region = none →
      LaneChanged a.group p.lane g t (t.deliver (a.takenAs p (s.atomOld a p)) p.lane)) :
    Settles (exec (.atomicCompletion { num := n }) s) (fun u =>
      { u with clusters := s.clusters, llc := s.llc, dies := s.dies, mem := s.mem, poison := s.poison, remote := s.remote
               module := s.module, unsettled := s.unsettled, groups := s.groups, accesses := s.accesses } = s ∧
      (u.accesses = FMap.del s.accesses n ∧ ∀ c, { u.cluster c with
        l1 := (s.cluster c).l1, stale := (s.cluster c).stale, dirty := (s.cluster c).dirty, l1Hits := (s.cluster c).l1Hits, l1Misses := (s.cluster c).l1Misses, scratch := (s.cluster c).scratch
        scrPoison := (s.cluster c).scrPoison, scrErr := (s.cluster c).scrErr } = s.cluster c) ∧
      { u.module with flits := s.module.flits } = s.module ∧ s.onlyLanes u ∧ s.Stored u a p (atomBytes op (s.atomOld a p) p.data).1 ∧
      (∀ k l, l < 64 → (u.group k).lane l =
        if k = a.group ∧ l = p.lane then g (((s.group k).lane l).orFlags (atomBytes op (s.atomOld a p) p.data).2) else (s.group k).lane l) ∧
      ∀ x, (x < p.addr ∨ p.addr + p.len ≤ x) → Mem.read u.mem x = Mem.read s.mem x) := by
  obtain ⟨he, hparts, ho, hl⟩ := h.atomic_end s n a p op hk hs g hg
  have hhost : (s.runAccess n none).hostMem = s.hostMem := ((State.stored_iff _ _ _ _ _).1 he.stored).2.1.trans (if_neg hs)
  refine ⟨_, ?_, ?_, ⟨he.accesses, he.cluster⟩, he.flits, ho, he.stored, fun k l _ => hl k l,
    he.outside p.len (fun bs e => (atomBytes_length e).trans (s.atomOld_length a p))⟩
  · rw [exec_atomicCompletion_eq]
    exact s.accessEvent_runs n a none _ h.listed (by rw [hk])
  · have e := he.world
    rw [← hhost, ← hparts] at e
    exact e

/-- Settles O43: the part has its effect on a state that differs by cached lines, what it returns is delivered register by register, and the access goes. -/
theorem accessesEnd : Obligations.AccessesEnd := by
  unfold Obligations.AccessesEnd
  refine ⟨fun s n a p h => ⟨fun hk _ => ⟨fun d hd hd72 => ?_, fun d hd hd80 hd112 => ?_⟩, fun hk hd => ?_, fun op hk hs => ?_⟩,
    fun s n a h lane near => events_of_other_kind s n a h lane near, fun s n a p h hk hp hd hm => storePerformed_enters s n a p h hk hp hd hm, fun m d x => ?_⟩
  · obtain ⟨he, ho, hl⟩ := h.load_lanes s n a p hk d hd hd72
    exact loadResult_settles s n a p h hk _ ⟨⟨he.world, ⟨he.accesses, he.cluster⟩, he.flits⟩, ho, fun k l _ => hl k l⟩
  · obtain ⟨he, hg⟩ := h.load_scalars s n a p hk d hd hd80
    refine loadResult_settles s n a p h hk _ ⟨⟨he.world, ⟨he.accesses, he.cluster⟩, he.flits⟩, fun j hj => ?_, ?_, fun r hr => ?_⟩
    · rw [hg, if_neg hj]
    · rw [hg, if_pos rfl, Group.setRun_lanes]
    · have hin : (d - 80 ≤ r ∧ r < d - 80 + a.nregs) ↔ (d ≤ 80 + r ∧ 80 + r < d + a.nregs) := by omega
      rw [hg, if_pos rfl, Group.s_setRun, Group.sIsEmpty_setRun _ _ _ _ _ hr, if_congr hin rfl rfl, decide_eq_decide.2 hin,
        show r - (d - 80) = 80 + r - d by omega]
      exact ⟨rfl, rfl⟩
  · obtain ⟨he, hg⟩ := h.store s n a p hk hd
    refine ⟨_, ?_, ?_, ⟨he.accesses, he.cluster⟩, he.flits, he.stored, fun hsp => he.poison hsp _ rfl,
      fun x hx => he.outside p.data.length (fun bs e => by cases e; rfl) x hx⟩
    · exact (exec_storePerformed_far s n none).trans (s.accessEvent_runs n a none _ h.listed (by rw [hk]; rfl))
    · have e := he.world
      rw [← hg] at e
      exact e
  · refine ⟨fun hd => atomicCompletion_settles s n a p h op hk hs (fun m => m) (fun t _ => ?_),
      fun d hd hd72 => atomicCompletion_settles s n a p h op hk hs (a.filled d (s.atomOld a p)) (fun t ht => ?_)⟩
    · rw [t.deliver_none (a.takenAs p (s.atomOld a p)) p.lane hd]
      exact LaneChanged.id _ _ _
    · obtain ⟨-, hreg, -⟩ := h.pending
      exact t.deliver_lanes a p (s.atomOld a p) d hd hd72 hreg ht
  · obtain ⟨hmin, hmax⟩ := atomNew_signed m d x
    refine ⟨?_, ?_, rfl, rfl, rfl, hmin, hmax, ?_, ?_, rfl, rfl, rfl, ?_, ?_⟩
    · exact congrArg (fun v => (some v, 0)) (add_words m d)
    · exact congrArg (fun v => (some v, 0)) (add_words m d)
    · exact congrArg (fun v => (some v, 0)) (min_unsigned _ _)
    · exact congrArg (fun v => (some v, 0)) (max_unsigned _ _)
    · simp only [List.forall_mem_cons, List.not_mem_nil, false_imp_iff, implies_true, and_true]
      exact ⟨rfl, rfl⟩
    · simp only [List.forall_mem_cons, List.not_mem_nil, false_imp_iff, implies_true, and_true]
      exact ⟨rfl, rfl, rfl⟩

end Sys2Proof.Machine
end

