-- ==== Sys2Proof/Proofs/StepRuns.lean ====
section
/-! SUPPORT. What a step runs: errors of arrays that act first, the agenda, writes of the control space and accesses from outside, and the word that stands
next in a run (R24, R25, R36, R106, R131, R202, R242, R342, R387, R391, R398). -/
namespace Sys2Proof.Machine

/-! ### Errors of arrays (R387) -/

/-- Agreement in what decides which errors of arrays have come to light. -/
structure SameErrors (s t : State) : Prop where
  errors : t.errors = s.errors
  time : t.time = s.time

theorem SameErrors.refl (s : State) : SameErrors s s := ⟨rfl, rfl⟩

theorem SameErrors.trans {s t u : State} (h : SameErrors s t) (k : SameErrors t u) : SameErrors s u :=
  ⟨k.errors.trans h.errors, k.time.trans h.time⟩

theorem SameErrors.foldl {α : Type} (f : State → α → State) (h : ∀ s x, SameErrors s (f s x)) (xs : List α) (s : State) : SameErrors s (xs.foldl f s) := by
  induction xs generalizing s with
  | nil => exact .refl s
  | cons x xs ih => exact (h s x).trans (ih _)

theorem SameErrors.countErr (s : State) (part k n : Nat) : SameErrors s (s.countErr part k n) := by
  unfold State.countErr
  split
  · exact .refl s
  · exact ⟨rfl, rfl⟩

theorem SameErrors.refreshSlots (s : State) : SameErrors s s.refreshSlots :=
  .foldl (fun t id => t.onSlot id (fun sl => { sl with anc := s.ancestors 8 id, depth := s.slotDepth 8 id })) (fun _ _ => ⟨rfl, rfl⟩) _ _

theorem SameErrors.ite {s a b : State} (c : Prop) [Decidable c] (ha : SameErrors s a) (hb : SameErrors s b) : SameErrors s (if c then a else b) := by
  split
  · exact ha
  · exact hb

theorem SameErrors.onGroup (s : State) (k : Nat) (f : Group → Group) : SameErrors s (s.onGroup k f) := ⟨rfl, rfl⟩

theorem SameErrors.onCluster (s : State) (k : Nat) (f : Cluster → Cluster) : SameErrors s (s.onCluster k f) := ⟨rfl, rfl⟩

theorem SameErrors.onSlot (s : State) (id : Nat) (f : Slot → Slot) : SameErrors s (s.onSlot id f) := ⟨rfl, rfl⟩

theorem SameErrors.applyAbort (s : State) (id : Nat) (keep : Bool) : SameErrors s (s.applyAbort id keep) := by
  constructor <;> simp [State.applyAbort, State.dropRegionParts]

theorem SameErrors.returnToken (s : State) (id : Nat) : SameErrors s (s.returnToken id) := ⟨rfl, rfl⟩

theorem SameErrors.abortRegions (s : State) (ids : List Nat) (sel : Nat) (keep : Bool) : SameErrors s (s.abortRegions ids sel keep) := by
  unfold State.abortRegions
  dsimp only
  refine .trans ?_ (.refreshSlots _)
  refine .trans ?_ (.foldl _ (fun t id => ?_) _ _)
  · refine .trans ?_ (.foldl _ (fun t id => ?_) _ _)
    · exact ⟨rfl, rfl⟩
    · exact .onSlot ..
  · generalize hm : State.onSlot _ id _ = m
    have hmarked : SameErrors t m := hm ▸ .trans (.trans (.ite _ (.refl t) (.onGroup ..)) (.returnToken _ id)) (.onSlot ..)
    exact .ite _ (.trans hmarked (.applyAbort ..)) (.trans hmarked (.onGroup ..))

/-- An error of an array makes no other come to light and lets no time pass. -/
theorem SameErrors.arrayError (s : State) (e : ArrayError) : SameErrors s (s.arrayError e) := by
  cases e with
  | corrected p => exact .countErr ..
  | codebook cl key => exact .trans (.onCluster ..) (.countErr ..)
  | activation cl e => exact .trans (.onCluster ..) (.countErr ..)
  | accumulator cl key => exact ⟨rfl, rfl⟩
  | slot id => exact .ite _ (.abortRegions ..) (.refl s)
  | object k =>
    rw [State.arrayError]
    cases FMap.look s.objects k with
    | none => exact .refl s
    | some o =>
      cases hold : o.holder with
      | none => simp only [hold]; exact ⟨rfl, rfl⟩
      | some h => simp only [hold]; exact ⟨rfl, rfl⟩
  | cached k => exact ⟨rfl, rfl⟩

/-- Once the errors that have come to light have taken effect, none is due. -/
theorem State.dueErrors_settleErrors (s : State) : s.settleErrors.dueErrors = [] := by
  have h : SameErrors { s with errors := s.errors.filter (fun e => !decide (e.1 ≤ s.tick)) } s.settleErrors :=
    .foldl _ (fun s _ => .arrayError s _) _ _
  unfold State.dueErrors State.tick
  rw [h.errors, h.time]
  simp +contextual [State.tick]

theorem State.settleErrors_eq_self {s : State} (h : s.dueErrors = []) : s.settleErrors = s := by
  have hkeep : s.errors.filter (fun e => !decide (e.1 ≤ s.tick)) = s.errors := by
    unfold State.dueErrors at h
    simpa using h
  unfold State.settleErrors
  rw [h, hkeep]
  rfl

theorem State.act_settleErrors (s : State) : s.act = s.settleErrors.act := by
  by_cases h : s.dueErrors = []
  · rw [State.settleErrors_eq_self h]
  · simp [State.act, h, State.dueErrors_settleErrors]

/-! ### The agenda and what comes from outside (R242, R391, R398) -/

section
variable {s t : State} {i : Instr} {rest : List Instr} (herr : s.dueErrors = [])
include herr

/-- With no error and no write of the control space due, the head of the agenda is next. -/
theorem State.act_agenda (hreg : s.nextReg = none) (hag : s.agenda = i :: rest) :
    s.act = if isBarAccess i && decide (s.module.bootstat % 16 < 5) then .next { s with agenda := rest }
      else if isRegWrite i && s.regWaits s.fresh then .next ({ s with agenda := rest }.queueReg i)
      else exec i { s with agenda := rest } := by
  simp [State.act, herr, hreg, hag]

theorem State.act_agenda_exec (hreg : s.nextReg = none) (hag : s.agenda = i :: rest) (hwait : isRegWrite i = false ∨ s.regWaits s.fresh = false)
    (hbar : isBarAccess i = false ∨ 5 ≤ s.module.bootstat % 16) : s.act = exec i { s with agenda := rest } := by
  rw [State.act_agenda herr hreg hag, if_neg, if_neg]
  · rcases hwait with h | h <;> simp [h]
  · rcases hbar with h | h
    · simp [h]
    · simp [Nat.not_lt.mpr h]

theorem State.act_nextReg {o : Outside} (hreg : s.nextReg = some (o, i)) : s.act = exec i { s with outside := s.outside.erase o } := by
  simp [State.act, herr, hreg]

end

/-- The write of the control space that is next waits among the accesses from outside, and no host write before it does (R391). -/
theorem State.nextReg_some {s : State} {o : Outside} {i : Instr} (h : s.nextReg = some (o, i)) :
    o ∈ s.outside ∧ o.reg = some i ∧ ∀ x ∈ s.outside, x.num < o.num → x.port = none → x.kind ≠ 1 ∧ x.reg = none := by
  obtain ⟨p, hp, hsome⟩ := List.exists_of_findSome?_eq_some h
  cases hr : p.reg with
  | none => simp [hr] at hsome
  | some j =>
    simp only [hr, Option.ite_none_left_eq_some, Option.some.injEq, Prod.mk.injEq] at hsome
    obtain ⟨hfree, rfl, rfl⟩ := hsome
    refine ⟨hp, hr, fun x hx hlt hport => ?_⟩
    have hno : ¬ (x.kind == 1 || x.reg.isSome) = true := fun hx' => hfree (List.any_eq_true.mpr ⟨x, hx, by simpa [hlt, hport] using hx'⟩)
    simpa using hno

/-- With nothing else to do, an access from outside that need wait no longer is performed (R242). -/
theorem State.idleStep_outside {s : State} (hleft : ∀ g ∈ s.groups, g.2.run.active = false) (hboot : 6 ≤ s.module.bootstat)
    (hout : ∃ o ∈ s.outside, s.outsideReady o = true) : s.idleStep = s.drainOutside := by
  have hnone : s.groups.find? (fun p => p.2.run.active) = none := by simpa using hleft
  have hany : s.outside.any (fun o => s.outsideReady o) = true := List.any_eq_true.mpr hout
  simp [State.idleStep, hnone, State.booting, Nat.not_lt.mpr hboot, hany]

/-! ### When a word starts (R202) -/

/-- What the spacing of a mix clause can do: it changes the time and the slices alone, the time only where the word before started less than two cycles ago. -/
theorem State.spaced_spec (s : State) :
    let x := (s.sliceOf s.me).catchUp s.time
    { s.spaced with time := s.time, clusters := s.clusters } = s ∧ (hdrEng s.me.run.head ≠ 4 → s.spaced = s) ∧
    (s.me.run.idx = 0 ∨ x.wordAt + 2 ≤ x.cycle → s.spaced.time = s.time) ∧
    (∀ c, { s.spaced.cluster c with slices := (s.cluster c).slices } = s.cluster c) := by
  intro x
  have hslices : ∀ (t : State) (cl sl : Nat) (f : Slice → Slice) (c : Nat),
      { (t.onCluster cl (fun k => k.onSlice sl f)).cluster c with slices := (t.cluster c).slices } = t.cluster c := by
    intro t cl sl f c
    rw [State.cluster_onCluster]; split_ifs with h
    · subst h; rfl
    · rfl
  by_cases hmix : hdrEng s.me.run.head ≠ 4
  · have hs : s.spaced = s := if_pos hmix
    rw [hs]
    exact ⟨rfl, fun _ => rfl, fun _ => rfl, fun _ => rfl⟩
  · unfold State.spaced
    rw [if_neg hmix]
    dsimp only
    split
    · next hlate =>
      refine ⟨rfl, fun h => absurd h hmix, fun h => ?_, fun c => ?_⟩
      · exact absurd h (not_or.mpr ⟨hlate.1, Nat.not_le.mpr hlate.2⟩)
      · have h1 := congrArg (fun k : Cluster => { k with slices := (s.cluster c).slices })
          (hslices (s.pause s.me.cluster s.me.slice (x.wordAt + 2 - x.cycle) 2) s.me.cluster s.me.slice
            (fun y => { y.catchUp (s.pause s.me.cluster s.me.slice (x.wordAt + 2 - x.cycle) 2).time with
              wordAt := ((s.pause s.me.cluster s.me.slice (x.wordAt + 2 - x.cycle) 2).issueTime s.me.cluster s.me.slice).2 }) c)
        exact h1.trans (State.pause_clusters ..)
    · exact ⟨rfl, fun h => absurd h hmix, fun _ => rfl, hslices _ _ _ _⟩

/-! ### The word that stands next (R24, R36, R342, R357) -/

theorem parseWord_of_decodeWord {idx : Nat} {w x : Word} {i : Instr} (h : decodeWord idx w x = .ok i) : parseWord w x = some i := by
  unfold decodeWord at h
  cases hc : worstCause (wordCauses idx w x) with
  | some c => rw [hc] at h; exact absurd h (by simp)
  | none =>
    rw [hc] at h
    cases hp : parseWord w x with
    | none => rw [hp] at h; exact absurd h (by simp)
    | some j => rw [hp] at h; exact congrArg some (Except.ok.inj h)

section
variable {ws rest : List Word} {n : Nat} {w : Word} (h : ws.drop n = w :: rest)
include h

theorem getElem?_of_drop (j : Nat) : ws[n + j]? = (w :: rest)[j]? := by rw [← h, List.getElem?_drop]

theorem getD_of_drop : ws.getD n 0 = w := by
  rw [List.getD_eq_getElem?_getD, show ws[n]? = some w from getElem?_of_drop h 0, Option.getD_some]

theorem getD_succ_of_drop : ws.getD (n + 1) 0 = rest.headD 0 := by
  rw [List.getD_eq_getElem?_getD, getElem?_of_drop h 1]
  cases rest <;> rfl

theorem lt_length_of_drop : n < ws.length := by
  by_contra hlen
  rw [List.drop_eq_nil_of_le (Nat.not_lt.mp hlen)] at h
  exact absurd h (by simp)

theorem isEmpty_of_drop : ws.isEmpty = false := by
  cases ws with
  | nil => exact absurd (lt_length_of_drop h) (Nat.not_lt_zero n)
  | cons => rfl

end

/-- Where the first word of a clause with S set does not stand next, SAFEORD stays. -/
theorem State.markSafe_eq_self {s : State} (h : s.me.run.opensSafe = false) : s.markSafe = s := by
  unfold State.markSafe
  rw [h]
  exact if_neg Bool.false_ne_true

theorem State.keepSafe_eq_self {s : State} (h : s.me.run.opensSafe = false) (t : State) : s.keepSafe t = t := by
  unfold State.keepSafe
  rw [h]
  exact if_neg Bool.false_ne_true

theorem Run.opensSafe_eq_false {r : Run} (h : r.idx ≠ 0 ∨ hdrSafe r.head = false) : r.opensSafe = false := by
  unfold Run.opensSafe
  rcases h with h | h <;> simp [h]

theorem Run.opensSafe_eq_true {r : Run} (h0 : r.idx = 0) (h : hdrSafe r.head = true) : r.opensSafe = true := by
  unfold Run.opensSafe
  simp [h0, h]

/-- A word that has not blocked leaves SAFEORD as it set it (R20). -/
theorem State.keepSafe_issued {s t : State} (hres : t.me.resumes = s.me.resumes) (hwait : t.me.hwait = .ready) : s.keepSafe t = t := by
  unfold State.keepSafe
  simp [hres, hwait]

section
variable {s : State} {w : Word} {rest : List Word} (hdrop : s.me.run.words.drop s.me.run.idx = w :: rest)
include hdrop

/-- A word that decodes and may be executed where it stands issues. -/
theorem State.issueWord_exec {i : Instr} {t : State} (hallow : s.me.run.handler = true → handlerAllows w = true)
    (hdec : decodeWord s.me.run.idx w (rest.headD 0) = .ok i) (hexec : exec i s.markSafe.noteBegin.interlock.spaced = .next t) :
    s.issueWord = .next ((s.keepSafe t).noteWritten w (rest.headD 0)).afterWord := by
  have hinstr : instrAt s.me.run.words s.me.run.idx = some i := by
    unfold instrAt
    rw [hdrop]
    exact parseWord_of_decodeWord hdec
  unfold State.issueWord
  dsimp only
  rw [getD_of_drop hdrop, getD_succ_of_drop hdrop, hinstr, if_neg]
  · dsimp only
    rw [hexec]
  · cases hh : s.me.run.handler with
    | false => simp
    | true => simp [hallow hh]

/-- A word that a handler may not execute is cause 0x0F (R342). -/
theorem State.issueWord_forbidden (hhandler : s.me.run.handler = true) (hallow : handlerAllows w = false) :
    s.issueWord = .next (s.spaced.trapHere 0x0F (classOp w)).afterWord := by
  unfold State.issueWord
  dsimp only
  rw [getD_of_drop hdrop, if_pos (by simp [hhandler, hallow])]

end

/-- The run of the current group goes on: it is neither stopped nor contained, and its group has neither left nor retired. -/
structure State.RunGoesOn (s : State) : Prop where
  active : s.me.run.active = true
  stopped : s.me.run.stopped = false
  contained : s.me.contained = none
  resident : s.me.resident = true
  retired : s.me.retired = false

section
variable {s : State} (hrun : s.RunGoesOn)
include hrun

theorem State.act_run (herr : s.dueErrors = []) (hreg : s.nextReg = none) (hag : s.agenda = []) : s.act = s.runStep := by
  simp [State.act, herr, hreg, hag, hrun.active]

theorem State.runStep_goes : s.runStep =
    (let u := if s.me.run.words.isEmpty then { s with fresh := s.fresh + 1 }.latch else s
     if u.me.run.words.isEmpty || !u.me.run.active then .next u
     else if u.me.run.words.length ≤ u.me.run.idx then .next u.completeClause
     else u.issueWord) := by
  unfold State.runStep
  exact if_neg (by simp [hrun.stopped, hrun.contained, hrun.resident, hrun.retired])

/-- With a clause latched its next word issues. -/
theorem State.runStep_latched {w : Word} {rest : List Word} (hdrop : s.me.run.words.drop s.me.run.idx = w :: rest) : s.runStep = s.issueWord := by
  rw [State.runStep_goes hrun]
  simp [isEmpty_of_drop hdrop, hrun.active, Nat.not_le.mpr (lt_length_of_drop hdrop)]

/-- With no clause latched the clause at the run's address is, and its first word issues. -/
theorem State.runStep_fresh {u : State} {w : Word} {rest : List Word} (hnone : s.me.run.words = []) (hlatch : { s with fresh := s.fresh + 1 }.latch = u)
    (hactive : u.me.run.active = true) (hdrop : u.me.run.words.drop u.me.run.idx = w :: rest) : s.runStep = u.issueWord := by
  rw [State.runStep_goes hrun, hnone, hlatch]
  simp [isEmpty_of_drop hdrop, hactive, Nat.not_le.mpr (lt_length_of_drop hdrop)]

end

/-! ### Latching a clause (R22, R24, R25, R29, R196, R224, R225) -/

/-- Agreement but for cached translations and the counts of errors: what a fetch leaves behind of the pages it walks. -/
structure WalksOnly (s t : State) : Prop where
  world : { t with clusters := s.clusters, dies := s.dies, parts := s.parts } = s
  cluster : ∀ c, { t.cluster c with tlb := (s.cluster c).tlb } = s.cluster c
  die : ∀ d, { t.die d with tlb := (s.die d).tlb } = s.die d
  part : ∀ p, { t.part p with errcnt := (s.part p).errcnt } = s.part p

theorem WalksOnly.trans {s t u : State} (h : WalksOnly s t) (k : WalksOnly t u) : WalksOnly s u := by
  refine ⟨?_, fun c => ?_, fun d => ?_, fun p => ?_⟩
  · have e := congrArg (fun x : State => { x with clusters := s.clusters, dies := s.dies, parts := s.parts }) k.world
    exact e.trans h.world
  · have e := congrArg (fun x : Cluster => { x with tlb := (s.cluster c).tlb }) (k.cluster c)
    exact e.trans (h.cluster c)
  · have e := congrArg (fun x : Die => { x with tlb := (s.die d).tlb }) (k.die d)
    exact e.trans (h.die d)
  · have e := congrArg (fun x : Partition => { x with errcnt := (s.part p).errcnt }) (k.part p)
    exact e.trans (h.part p)

theorem TlbOnly.walks {s t : State} (h : TlbOnly s t) : WalksOnly s t :=
  ⟨congrArg (fun x : State => { x with parts := s.parts }) h.world, h.cluster, h.die,
    fun p => congrArg (fun x : State => { x.part p with errcnt := (s.part p).errcnt }) h.world⟩

theorem State.countErr_walks (s : State) (part k n : Nat) : WalksOnly s (s.countErr part k n) := by
  unfold State.countErr
  split_ifs
  · exact (TlbOnly.refl s).walks
  · refine ⟨rfl, fun _ => rfl, fun _ => rfl, fun p => ?_⟩
    rw [State.part_onPart]; split_ifs with h
    · rw [h]
    · rfl

theorem State.cachePages_walks (s : State) (cl part : Nat) (use : Access1) (pages : List Nat) : WalksOnly s (s.cachePages cl part use pages) :=
  (s.countErr_walks _ _ _).trans (TlbOnly.foldl _ _ (fun x _ t => t.putTlb_only cl x) _).walks

/-- The state in which the translations of the pages of a clause are cached, and errors of the tables counted (R225, R388). -/
def State.clauseWalked (s : State) (h : Word) : State :=
  s.cachePages s.me.cluster (s.partOf s.me) .fetch
    (pagesOf (((s.gridOf s.me).record.code + 4 * (s.me.run.hdr.toNat + 0)) % 2 ^ 64) (4 * (hdrCount h + 1)))

section
variable {s : State} {h : Word} {ws : List Word}

/-- A clause whose header and words are well formed, and whose counters do not hold it back, comes to its remaining conditions. -/
theorem State.latch_wellFormed (hword : s.fetchWord s.cur s.me.run.hdr 0 = .word h) (hhead : headerFault h = none)
    (hmet : s.me.run.start = false ∨ s.me.countersMet (hdrMask h) (hdrT h) = true)
    (hwords : s.fetchWords s.cur s.me.run.hdr (hdrCount h) 0 = .ok ws) (hclause : clauseFault h ws = none) :
    s.latch = (s.clauseWalked h).beginClause h ws := by
  have hclass : wordClass h = 7 := by
    by_contra hne
    unfold headerFault at hhead
    rw [if_pos hne] at hhead
    exact absurd hhead (by simp)
  unfold State.latch
  dsimp only
  rw [hword]
  dsimp only
  rw [if_neg (by simp [hclass]), hhead]
  dsimp only
  rw [if_neg (by rcases hmet with hm | hm <;> simp [hm])]
  unfold State.latchWords
  dsimp only
  rw [hwords]
  dsimp only
  rw [hclause]
  rfl

/-- The run of the group with a clause latched. -/
def Group.latched (g : Group) (h : Word) (ws : List Word) (r : Run) : Group :=
  { g with
    passed := if r.handler then g.passed else g.passed.filter (fun p => p.1 != r.hdr)
    run := { g.run with head := h, words := ws, start := false } }

/-- A clause whose conditions are met and which is no stop site is latched. -/
theorem State.beginClause_starts
    (hmet : s.me.run.start = false ∨ (s.me.countersMet (hdrMask h) (hdrT h) = true ∧ (hdrFull h = false ∨ s.me.fullNeed s.me.run.act ws = [])))
    (hroom : s.me.run.used + (hdrCount h - s.me.run.idx) ≤ 24) (hsafe : hdrSafe h = false) :
    s.beginClause h ws = s.beginRun.onMe (fun g => g.latched h ws s.me.run) := by
  unfold State.beginClause
  dsimp only
  rw [if_neg, if_neg, if_neg (Nat.not_lt.mpr hroom)]
  · simp only [hsafe, Bool.and_false, Bool.false_and, Bool.false_eq_true, if_false]
    rfl
  · rcases hmet with hm | ⟨_, hm | hm⟩ <;> simp [hm]
  · rcases hmet with hm | ⟨hm, _⟩ <;> simp [hm]

end

/-- The time after a slice has let the rest of its cycle pass. -/
theorem State.align_time (s : State) (cl sl : Nat) : (s.align cl sl).time =
    (let c := ((s.cluster cl).slice sl).catchUp s.time
     if c.cycleFrac = 0 then s.time
     else s.time + ((if c.stretch = 0 then 6720 else 13440) - c.cycleFrac + max 1 c.ratio - 1) / max 1 c.ratio) := by
  unfold State.align
  dsimp only
  split <;> rfl

theorem State.align_same (s : State) (cl sl : Nat) : { s.align cl sl with time := s.time } = s := by
  unfold State.align
  dsimp only
  split <;> rfl

/-- A group that has won its slice for a run without a rotation. -/
def Group.won (g : Group) : Group := { g with yielded := false, ran := true, run := { g.run with first := false } }

theorem State.noteRun_plain {s : State} (hfirst : s.me.run.first = true) (hrot : s.me.run.rot = none) : s.noteRun = s.onMe Group.won := by
  unfold State.noteRun
  dsimp only
  rw [if_neg (by simp [hfirst])]
  simp only [hrot, Option.isSome_none, Bool.false_eq_true, if_false]
  rfl

/-- What the start of a run without a rotation can do, on a slice that need not switch to its group: it changes the group alone, and the time where the rest of
a cycle passes (R196). -/
structure State.RunBegun (s t : State) : Prop where
  world : { t with time := s.time, groups := s.groups } = s
  time : t.time = if s.me.run.first then (s.align s.me.cluster s.me.slice).time else s.time
  others : s.othersSame t s.cur
  me : t.me = { s.me with
    yielded := if s.me.run.first then false else s.me.yielded, ran := if s.me.run.first then true else s.me.ran, run := { s.me.run with first := false } }

theorem State.beginRun_begun {s : State}
    (h : s.me.run.first = false ∨ (s.me.run.rot = none ∧ ((s.sliceOf s.me).lastGroup = none ∨ (s.sliceOf s.me).lastGroup = some s.cur))) :
    s.RunBegun s.beginRun := by
  cases hfirst : s.me.run.first with
  | false =>
    have hs : s.beginRun = s := by simp [State.beginRun, hfirst]
    rw [hs]
    refine ⟨rfl, by simp [hfirst], fun _ _ => rfl, ?_⟩
    simp only [hfirst, Bool.false_eq_true, if_false]
    rw [← hfirst]
  | true =>
    obtain ⟨hrot, hlast⟩ := h.resolve_left (by simp [hfirst])
    have hsame := s.align_same s.me.cluster s.me.slice
    have hme : (s.align s.me.cluster s.me.slice).me = s.me := by have e := congrArg State.me hsame; exact e
    have hcur : (s.align s.me.cluster s.me.slice).cur = s.cur := by have e := congrArg State.cur hsame; exact e
    have hs : s.beginRun = (s.align s.me.cluster s.me.slice).onMe Group.won := by
      unfold State.beginRun
      dsimp only
      rw [hfirst, if_neg (by simp), if_neg (by rcases hlast with hl | hl <;> simp [hl, hcur])]
      exact State.noteRun_plain (by rw [hme]; exact hfirst) (by rw [hme]; exact hrot)
    rw [hs]
    generalize hu : s.align s.me.cluster s.me.slice = u at hsame hme hcur
    refine ⟨?_, ?_, fun j hj => ?_, ?_⟩
    · have e := congrArg (fun x : State => { x with groups := s.groups }) hsame
      exact e
    · rw [hfirst, if_pos rfl, hu]
      rfl
    · rw [State.group_onMe, if_neg (hcur ▸ hj)]
      have e := congrArg (fun x : State => x.group j) hsame
      exact e
    · rw [State.me_onMe, hme, hfirst]
      rfl

/-- What latching a clause can do where the run's switch and rotation do not come in: the clause is in the run of its group, the translations of its pages are
cached and errors of their tables counted, and time passes for the rest of a cycle where a run begins. -/
structure State.ClauseLatched (s : State) (h : Word) (ws : List Word) (u : State) : Prop where
  world : { u with clusters := s.clusters, dies := s.dies, groups := s.groups, parts := s.parts, time := s.time } = s
  time : u.time = if s.me.run.first then (s.align s.me.cluster s.me.slice).time else s.time
  part : ∀ p, { u.part p with errcnt := (s.part p).errcnt } = s.part p
  cluster : ∀ c, { u.cluster c with tlb := (s.cluster c).tlb } = s.cluster c
  die : ∀ d, { u.die d with tlb := (s.die d).tlb } = s.die d
  others : s.othersSame u s.cur
  me : u.me = { s.me with
    passed := if s.me.run.handler then s.me.passed else s.me.passed.filter (fun p => p.1 != s.me.run.hdr)
    yielded := if s.me.run.first then false else s.me.yielded, ran := if s.me.run.first then true else s.me.ran
    run := { s.me.run with first := false, head := h, words := ws, start := false } }

/-- A run begun on a state in which only pages have been walked, and the clause put in it. -/
theorem WalksOnly.latched {s v w : State} {h : Word} {ws : List Word} (hv : WalksOnly s v) (hw : v.RunBegun w) :
    s.ClauseLatched h ws (w.onMe (fun g => g.latched h ws v.me.run)) := by
  have hme : v.me = s.me := by have e := congrArg State.me hv.world; exact e
  have hcur : v.cur = s.cur := by have e := congrArg State.cur hv.world; exact e
  have htime : v.time = s.time := by have e := congrArg State.time hv.world; exact e
  have hwcur : w.cur = s.cur := by have e := congrArg State.cur hw.world; exact e.trans hcur
  have hslice : (v.cluster s.me.cluster).slice s.me.slice = (s.cluster s.me.cluster).slice s.me.slice := by
    have e := congrArg (fun c : Cluster => c.slice s.me.slice) (hv.cluster s.me.cluster)
    exact e
  refine ⟨?_, ?_, fun p => ?_, fun c => ?_, fun d => ?_, fun j hj => ?_, ?_⟩
  · have e := congrArg (fun x : State => { x with clusters := s.clusters, dies := s.dies, groups := s.groups, parts := s.parts, time := s.time }) hw.world
    have e' := congrArg (fun x : State => { x with groups := s.groups, time := s.time }) hv.world
    exact e.trans e'
  · have e := hw.time
    rw [hme, htime, State.align_time, hslice, htime, ← State.align_time] at e
    exact e
  · have e := congrArg (fun x : State => { x.part p with errcnt := (s.part p).errcnt }) hw.world
    exact e.trans (hv.part p)
  · have e := congrArg (fun x : State => { x.cluster c with tlb := (s.cluster c).tlb }) hw.world
    exact e.trans (hv.cluster c)
  · have e := congrArg (fun x : State => { x.die d with tlb := (s.die d).tlb }) hw.world
    exact e.trans (hv.die d)
  · rw [State.group_onMe, if_neg (hwcur ▸ hj), hw.others j (hcur ▸ hj)]
    have e := congrArg (fun x : State => x.group j) hv.world
    exact e
  · rw [State.me_onMe, hw.me, hme]
    rfl

/-- A clause that is well formed and whose conditions are met is latched. -/
theorem State.latch_latched {s : State} {h : Word} {ws : List Word}
    (hword : s.fetchWord s.cur s.me.run.hdr 0 = .word h) (hhead : headerFault h = none)
    (hwords : s.fetchWords s.cur s.me.run.hdr (hdrCount h) 0 = .ok ws) (hclause : clauseFault h ws = none)
    (hmet : s.me.run.start = false ∨ (s.me.countersMet (hdrMask h) (hdrT h) = true ∧ (hdrFull h = false ∨ s.me.fullNeed s.me.run.act ws = [])))
    (hroom : s.me.run.used + (hdrCount h - s.me.run.idx) ≤ 24) (hsafe : hdrSafe h = false)
    (hslice : s.me.run.first = false ∨ (s.me.run.rot = none ∧ ((s.sliceOf s.me).lastGroup = none ∨ (s.sliceOf s.me).lastGroup = some s.cur))) :
    s.ClauseLatched h ws s.latch := by
  have hv : WalksOnly s (s.clauseWalked h) := State.cachePages_walks ..
  rw [State.latch_wellFormed hword hhead (hmet.imp_right And.left) hwords hclause]
  generalize s.clauseWalked h = v at hv
  have hme : v.me = s.me := by have e := congrArg State.me hv.world; exact e
  have hcur : v.cur = s.cur := by have e := congrArg State.cur hv.world; exact e
  have hsl : v.sliceOf s.me = s.sliceOf s.me := by
    have e := congrArg (fun c : Cluster => c.slice s.me.slice) (hv.cluster s.me.cluster)
    exact e
  rw [State.beginClause_starts (by rw [hme]; exact hmet) (by rw [hme]; exact hroom) hsafe]
  exact hv.latched (State.beginRun_begun (by rw [hme, hsl, hcur]; exact hslice))

/-! ### The statement -/

/-- Settles O56, by the branches of `State.act` in their order; a clause is latched as `State.latch_latched` says. -/
theorem stepRunsTheDecodedInstruction : Obligations.StepRunsTheDecodedInstruction := by
  unfold Obligations.StepRunsTheDecodedInstruction
  intro after
  refine ⟨fun s => ⟨s.act_settleErrors, fun t h => step_of_act h, State.settleErrors_eq_self⟩, ?_, ?_, ?_, ?_, State.spaced_spec, State.interlock_spec,
    State.noteWritten_spec, ?_⟩
  · intro s t i rest herr hreg hag hwait hbar hexec
    exact step_of_act ((State.act_agenda_exec herr hreg hag hwait hbar).trans hexec)
  · intro s i rest herr hreg hag hbar
    refine ⟨fun hearly => step_of_act ?_, fun hlate hwrite hwaits => step_of_act ?_⟩
    · rw [State.act_agenda herr hreg hag, if_pos (by simp [hbar, hearly])]
    · rw [State.act_agenda herr hreg hag, if_neg (by simp [Nat.not_lt.mpr hlate]), if_pos (by simp [hwrite, hwaits])]
  · intro s t o i herr hreg
    obtain ⟨hmem, hown, hfirst⟩ := State.nextReg_some hreg
    exact ⟨hmem, hown, hfirst, fun hexec => step_of_act ((State.act_nextReg herr hreg).trans hexec)⟩
  · intro s herr hreg hag hrun hleft hboot hout
    exact step_of_act ((State.act_idle herr hreg hag hrun).trans (congrArg _ (State.idleStep_outside hleft hboot hout)))
  · intro s herr hreg hag hactive hstopped hcontained hresident hretired k g r
    have hrun : s.RunGoesOn := ⟨hactive, hstopped, hcontained, hresident, hretired⟩
    have hact := State.act_run hrun herr hreg hag
    refine ⟨fun w rest hdrop => ?_, ?_⟩
    · have hissue := hact.trans (State.runStep_latched hrun hdrop)
      refine ⟨fun i t hallow hdec hexec => step_of_act (hissue.trans (State.issueWord_exec hdrop hallow hdec hexec)), fun hplain => ?_, fun h0 hsafe => ?_,
        fun t => State.keepSafe_issued, rfl, fun hhandler hallow => step_of_act (hissue.trans (State.issueWord_forbidden hdrop hhandler hallow))⟩
      · have hclosed := Run.opensSafe_eq_false hplain
        exact ⟨State.markSafe_eq_self hclosed, State.keepSafe_eq_self hclosed⟩
      · exact if_pos (Run.opensSafe_eq_true h0 hsafe)
    · intro h ws w rest hnone hallow s1 hword hhead hwords hclause hmet hroom hsafe hslice hdrop
      have hl : s1.ClauseLatched h ws s1.latch := State.latch_latched hword hhead hwords hclause hmet hroom hsafe hslice
      have hstep := hact.trans (State.runStep_fresh hrun hnone (u := s1.latch) rfl (by rw [hl.me]; exact hactive) (by rw [hl.me]; exact hdrop))
      generalize s1.latch = u at hl hstep
      have hcur : u.cur = k := by have e := congrArg State.cur hl.world; exact e
      have hclosed : u.me.run.opensSafe = false := by rw [hl.me]; exact Run.opensSafe_eq_false (.inr hsafe)
      refine ⟨u, ?_, ?_, ?_, hl.part, hl.cluster, hl.die, hl.others, ?_, fun i t hdec hexec => step_of_act (hstep.trans ?_)⟩
      · have e := congrArg (fun x : State => { x with fresh := s.fresh }) hl.world
        exact e
      · have e := congrArg State.fresh hl.world
        exact e
      · rw [hl.time, apply_ite State.time, State.align_time, State.align_time]
        rfl
      · rw [← hcur]
        exact hl.me
      · have hissue := State.issueWord_exec (s := u) (w := w) (rest := rest) (i := i) (t := t) (by rw [hl.me]; exact hdrop) (by rw [hl.me]; exact hallow)
          (by rw [hl.me]; exact hdec) (by rw [State.markSafe_eq_self hclosed]; exact hexec)
        rw [State.keepSafe_eq_self hclosed] at hissue
        exact hissue

end Sys2Proof.Machine
end

