-- ==== Sys2Proof/Proofs/RunMoves.lean ====
section
/-! SUPPORT. What a word leaves of the issuing group where it moves its lanes or ends its run, the gate of regions and levels, loops, calls and returns
(R83, R91 to R99, R177, R183, R186, R341). -/
namespace Sys2Proof.Machine

/-! ### Words that change the issuing group alone -/

/-- A word issues after a change of its group, which leaves the world and the other groups as they were. -/
theorem Moved.of_advance {s u : State} {n c : Nat} {g : Group} {lane : Nat → Lane} (hworld : SameWorld s u) (hcur : u.cur = s.cur)
    (hcl : u.clusters = s.clusters) (hother : ∀ k, k ≠ s.cur → u.group k = s.group k)
    (hg : { u.me with lanes := s.me.lanes, run := u.me.run.after n } = { g with lanes := s.me.lanes })
    (hc : g.cluster = s.me.cluster) (hs : g.slice = s.me.slice) (hl : ∀ l, l < 64 → u.me.lane l = lane l) :
    Moved g lane s (u.advance n c) := by
  have hc' := (congrArg Group.cluster hg).trans hc
  have hs' := (congrArg Group.slice hg).trans hs
  refine ⟨State.advance_world n c hworld, State.advance_slice n c hother hcur hcl hc' hs', ?_, ?_⟩
  · rw [State.me_advance]; exact hg
  · rw [State.me_advance]; exact hl

/-- A word that changes the issuing group with `f` and issues: nothing outside the group and its slice's counters moves. -/
theorem Moved.of_onMe {s : State} {n c : Nat} {f : Group → Group} {g : Group} {lane : Nat → Lane}
    (hg : { f s.me with lanes := s.me.lanes, run := (f s.me).run.after n } = { g with lanes := s.me.lanes })
    (hc : g.cluster = s.me.cluster) (hs : g.slice = s.me.slice) (hl : ∀ l, l < 64 → (f s.me).lane l = lane l) :
    Moved g lane s ((s.onMe f).advance n c) := by
  rw [← State.me_onMe s f] at hg hl
  exact Moved.of_advance rfl rfl rfl (fun k hk => by rw [State.group_onMe, if_neg hk]) hg hc hs hl

/-- A lane of a group after the active ones have been sent somewhere (R93). -/
theorem Group.lane_moveTo (g : Group) (v : Nat → Word) {l : Nat} (h : l < 64) :
    (g.moveTo v).lane l = if inSet g.run.act l then { g.lane l with vpc := v l } else g.lane l :=
  g.lane_mapLanes g.run.act (fun l n => { n with vpc := v l }) h

theorem State.lane_moveTo (s : State) (v : Nat → Word) {l : Nat} (h : l < 64) : (s.me.moveTo v).lane l = s.sentTo v l := s.me.lane_moveTo v h

theorem State.sentTo_congr {s : State} {v w : Nat → Word} (h : ∀ l, inSet s.me.run.act l = true → v l = w l) : s.sentTo v = s.sentTo w := by
  funext l
  unfold State.sentTo
  split_ifs with hl
  · rw [h l hl]
  · rfl

/-- A word that sends the active lanes to `v`, its group otherwise changed by `f`. -/
theorem Moved.of_moveTo {s : State} {v : Nat → Word} {f : Group → Group} {g : Group}
    (hg : { f (s.me.moveTo v) with lanes := s.me.lanes, run := (f (s.me.moveTo v)).run.after 1 } = { g with lanes := s.me.lanes })
    (hc : g.cluster = s.me.cluster) (hs : g.slice = s.me.slice) (hl : ∀ g, (f g).lanes = g.lanes) :
    Moved g (s.sentTo v) s ((s.onMe (fun g => f (g.moveTo v))).advance 1 1) := by
  refine Moved.of_onMe hg hc hs (fun l h => ?_)
  rw [← s.lane_moveTo v h]
  unfold Group.lane
  rw [hl]

theorem State.onMe_congr {s : State} {f g : Group → Group} (h : f s.me = g s.me) : s.onMe f = s.onMe g :=
  congrArg (s.setGroup s.cur) h

/-- The lowest lane of a set (R88, R91, R100). -/
theorem lowest_eq {m : LaneSet} {low : Nat} (h : inSet m low = true) (hlow : ∀ l, l < low → inSet m l = false) : lowest m = low := by
  have hfind : (List.range 64).find? (inSet m) = some low := by
    rw [List.find?_range_eq_some]
    exact ⟨h, List.mem_range.2 (inSet_lt h), fun l hl => by simp [hlow l hl]⟩
  unfold lowest lanesIn
  rw [List.headD_eq_head?_getD, List.head?_filter, hfind]
  rfl

/-! ### Branches -/

theorem Group.branchTo_lanes {g : Group} (f : Nat → Word) (h : g.run.handler = false) : g.branchTo f = g.moveTo f := if_neg (by simp [h])

theorem Group.branchTo_handler {g : Group} (f : Nat → Word) (h : g.run.handler = true) :
    g.branchTo f = { g with hpc := f (lowest g.run.act), run := { g.run with moved := true } } := if_pos h

/-- A branch outside a handler sends each active lane its way (R91). -/
theorem State.branch_lanes {s : State} (off : BitVec 17) {t cond : Nat → Bool} (hh : s.me.run.handler = false)
    (ht : ∀ l, inSet s.me.run.act l = true → t l = cond l) :
    Gives (s.branch off t) (fun u => u.teams = s.teams ∧
      Moved (s.afterMove s.me.run.ends) (s.sentTo (fun l => if cond l then s.here + off.signExtend 32 else s.nextHdr)) s u) := by
  refine ⟨_, rfl, rfl, ?_⟩
  rw [← State.sentTo_congr (v := fun l => if t l then s.me.run.target off else s.me.run.next) (fun l hl => by rw [ht l hl]; rfl),
    State.onMe_congr (g := (·.moveTo _)) (Group.branchTo_lanes _ hh)]
  exact Moved.of_moveTo (f := id) rfl rfl rfl (fun _ => rfl)

/-- A branch in a handler moves the handler's program counter (R341). -/
theorem State.branch_handler {s : State} (off : BitVec 17) {t : Nat → Bool} {b : Bool} (hh : s.me.run.handler = true)
    (ht : t (lowest s.me.run.act) = b) :
    Gives (s.branch off t) (fun u => u.teams = s.teams ∧
      Moved { s.afterMove s.me.run.ends with hpc := if b then s.here + off.signExtend 32 else s.nextHdr } s.sameLanes s u) := by
  subst ht
  refine ⟨_, rfl, rfl, ?_⟩
  rw [State.onMe_congr (g := fun g => { g with hpc := _, run := { g.run with moved := true } }) (Group.branchTo_handler _ hh)]
  exact Moved.of_onMe rfl rfl rfl (fun _ _ => rfl)

/-- Settles O25: the four words are one branch under four conditions, of which BRAU asks the lowest active lane. -/
theorem branches : Obligations.Branches := by
  unfold Obligations.Branches
  intro s p neg off low act taken hlow hfirst dest gives
  have hl : lowest s.me.run.act = low := lowest_eq hlow hfirst
  have sends {i : Instr} {t cond : Nat → Bool} (hi : exec i s = s.branch off t) (ht : ∀ l, act l = true → t l = cond l) : gives i cond := by
    simp only [gives]
    rw [hi]
    exact ⟨fun hh => State.branch_lanes off hh ht, fun hh => State.branch_handler off hh (by rw [hl, ht low hlow])⟩
  refine ⟨sends (exec_bra ..) (fun _ _ => rfl), sends (exec_brau ..) (fun _ _ => by rw [hl]; rfl),
    sends (exec_braany ..) (fun _ _ => ?_), sends (exec_braall ..) (fun _ _ => ?_)⟩
  · simp only [lanesIn, List.any_filter]; rfl
  · simp only [lanesIn, List.all_filter]; rfl

/-! ### Sets told lane by lane -/

theorem setOf_ne_zero {f : Nat → Bool} (h : ∃ l, l < 64 ∧ f l = true) : setOf f ≠ 0 := by
  obtain ⟨l, hl, hf⟩ := h
  intro h0
  have hin : inSet (setOf f) l = true := by simp [hl, hf]
  rw [h0] at hin
  simp [inSet] at hin

theorem setOf_eq_zero {f : Nat → Bool} (h : ∀ l, l < 64 → f l = false) : setOf f = 0 := by
  by_contra hne
  obtain ⟨l, hl⟩ := lanesIn_ne hne
  rw [inSet_setOf, Bool.and_eq_true, decide_eq_true_eq] at hl
  simp [h l hl.1] at hl

/-! ### Regions and levels that stop a word -/

/-- An active lane is in a region. -/
theorem Group.regionSet_ne_zero {g : Group} {m : LaneSet} (h : ∃ l, inSet m l = true ∧ (g.lane l).region.isSome = true) : g.regionSet m ≠ 0 := by
  obtain ⟨l, hl, hr⟩ := h
  exact setOf_ne_zero ⟨l, inSet_lt hl, by rw [hl, hr]; rfl⟩

theorem Group.regionSet_eq_zero {g : Group} {m : LaneSet} (h : ∀ l, inSet m l = true → (g.lane l).region = none) : g.regionSet m = 0 := by
  refine setOf_eq_zero (fun l _ => ?_)
  cases hl : inSet m l with
  | true => rw [h l hl]; rfl
  | false => rfl

/-- The gate of a word without operands that no rollback drops (R183, R186). -/
theorem State.eGate_noOperands (s k : State) (inLevel : Bool) : s.eGate [] [] false inLevel false k =
    if s.me.regionSet s.me.run.act ≠ 0 then s.trapHere 0x50 4
    else if inLevel = false ∧ s.myTeam.levels ≠ [] then s.trapHere 0x60 6 else k := by
  unfold State.eGate
  dsimp only
  rw [List.map_nil, show s.me.gate [] [] = .go from rfl, State.gated_go]
  simp [Team.rlevel]

section
variable {s k : State} {inLevel : Bool}

theorem State.eGate_region (h : ∃ l, inSet s.me.run.act l = true ∧ (s.me.lane l).region.isSome = true) :
    s.eGate [] [] false inLevel false k = s.trapHere 0x50 4 := by
  rw [State.eGate_noOperands, if_pos (Group.regionSet_ne_zero h)]

theorem State.eGate_level (h : ∀ l, inSet s.me.run.act l = true → (s.me.lane l).region = none) (hl : s.myTeam.levels ≠ []) :
    s.eGate [] [] false false false k = s.trapHere 0x60 6 := by
  rw [State.eGate_noOperands, if_neg (not_not.2 (Group.regionSet_eq_zero h)), if_pos ⟨rfl, hl⟩]

theorem State.eGate_go (h : ∀ l, inSet s.me.run.act l = true → (s.me.lane l).region = none) (hl : inLevel = true ∨ s.myTeam.levels = []) :
    s.eGate [] [] false inLevel false k = k := by
  rw [State.eGate_noOperands, if_neg (not_not.2 (Group.regionSet_eq_zero h)), if_neg]
  rintro ⟨hf, hne⟩
  exact hl.elim (fun ht => by simp [hf] at ht) hne

end

/-- A wait for other grids (R177). -/
theorem State.waitGrid_moved (s : State) (w : Wait) : (s.waitGrid w).teams = s.teams ∧
    Moved { s.afterMove true with issue := w } (s.sentTo (fun _ => s.nextHdr)) s (s.waitGrid w) := by
  have hw : s.waitGrid w = (s.onMe (fun g => { (g.moveTo (fun _ => s.nextHdr)).endRun with issue := w })).advance 1 1 := rfl
  rw [hw]
  exact ⟨rfl, Moved.of_moveTo (f := fun g => { g.endRun with issue := w }) rfl rfl rfl (fun _ => rfl)⟩

/-- The team, and its grid where it had not yet, once the issuing group has said SUCCOK (R177). -/
def State.signalled (s : State) : State :=
  let u := s.onTeam s.me.team (fun t => { t with succok := true })
  if !s.myTeam.succok then u.onGrid (u.team s.me.team).grid (fun x => { x with signalled := x.signalled + 1 }) else u

theorem execSuccok_eq (s : State) : execSuccok s = .next (s.eGate [] [] false true false (s.signalled.advance 1 1).settleReady) := rfl

section
variable (s : State)

/-- SUCCOK reaches its team and its grid alone. -/
theorem State.signalled_same : ∃ ts gs, s.signalled = { s with teams := ts, grids := gs } := by
  unfold State.signalled
  dsimp only
  split_ifs <;> exact ⟨_, _, rfl⟩

theorem State.team_signalled (k : Nat) : s.signalled.team k = if k = s.me.team then { s.team k with succok := true } else s.team k := by
  have h : s.signalled.team k = (s.onTeam s.me.team (fun t => { t with succok := true })).team k := by
    unfold State.signalled
    dsimp only
    split_ifs <;> rfl
  rw [h, State.team_onTeam]
  split_ifs with hk
  · rw [hk]
  · rfl

@[simp] theorem State.grid_onTeam (k j : Nat) (f : Team → Team) : (s.onTeam k f).grid j = s.grid j := rfl

theorem State.grid_signalled (k : Nat) : s.signalled.grid k =
    if k = s.myTeam.grid ∧ s.myTeam.succok = false then { s.grid k with signalled := (s.grid k).signalled + 1 } else s.grid k := by
  unfold State.signalled State.myTeam
  cases (s.team s.me.team).succok with
  | true => simp
  | false =>
    simp only [Bool.not_false, if_true, State.grid_onGrid, State.team_onTeam_self, State.grid_onTeam, and_true]
    split_ifs with hk
    · rw [hk]
    · rfl

end

/-- SUCCOK issued: beside its team and its grid only the issuing group's run moves. -/
theorem State.signalled_advance (s : State) :
    { s.signalled.advance 1 1 with time := s.time, clusters := s.clusters, groups := s.groups, teams := s.teams, grids := s.grids } = s ∧
    OwnSlice s (s.signalled.advance 1 1) ∧ (s.signalled.advance 1 1).me = { s.me with run := s.me.run.after 1 } := by
  obtain ⟨ts, gs, e⟩ := s.signalled_same
  rw [e]
  exact ⟨rfl, State.advance_slice 1 1 (fun _ _ => rfl) rfl rfl rfl rfl, State.me_advance _ _ _⟩

/-- Settles O28: a word that ends the run moves its group alone; the gate of R183 and R186 stops the words that wait for grids; SUCCOK signals once. -/
theorem wordsThatEndTheRun : Obligations.WordsThatEndTheRun := by
  unfold Obligations.WordsThatEndTheRun
  simp only [exec_waitchild, exec_waitpred, exec_succok, exec_yield, exec_suspend, execSuccok_eq]
  unfold execWaitchild execWaitpred
  refine ⟨fun s => ⟨fun h => ?_, fun h hl => ?_⟩, fun s ec thr off => ⟨⟨_, rfl, rfl, ?_⟩, ⟨_, rfl, rfl, ?_⟩⟩, fun s h => ⟨fun hl => ⟨?_, ?_⟩, ?_⟩⟩
  · simp only [State.eGate_region h, and_self]
  · simp only [State.eGate_level h hl, and_self]
  · exact Moved.of_moveTo (f := fun g => { g.endRun with yielded := true }) rfl rfl rfl (fun _ => rfl)
  · exact Moved.of_moveTo (f := fun g => { g.endRun with issue := .counter ec.toNat thr.toNat }) rfl rfl rfl (fun _ => rfl)
  · rw [State.eGate_go h (.inr hl)]
    exact ⟨_, rfl, s.waitGrid_moved _⟩
  · rw [State.eGate_go h (.inr hl)]
    exact ⟨_, rfl, s.waitGrid_moved _⟩
  · rw [State.eGate_go h (.inl rfl)]
    obtain ⟨hw, hsl, hme⟩ := s.signalled_advance
    exact ⟨_, rfl, _, rfl, hw, hsl, hme, s.team_signalled, s.grid_signalled⟩

/-! ### Hardware loops -/

/-- The header behind the body of a loop of the issuing clause (R94). -/
def State.loopStop (s : State) (len : Nat) : Word := s.nextHdr + BitVec.ofNat 32 len

/-- The body of a loop of the issuing clause lies inside that of the innermost entry (R94). -/
def State.loopWithin (s : State) (len : Nat) : Prop :=
  ∀ e ∈ s.me.loops.head?, e.start.toNat ≤ s.nextHdr.toNat ∧ (s.loopStop len).toNat ≤ e.stop.toNat

section
variable {s : State} {lc n len : Nat}

/-- A loop of trip count 0 goes behind its body. -/
theorem State.loopWord_zero : (s.loopWord lc 0 len).teams = s.teams ∧
    Moved (s.afterMove s.me.run.ends) (s.sentTo (fun _ => s.loopStop len)) s (s.loopWord lc 0 len) :=
  ⟨rfl, Moved.of_moveTo (f := id) rfl rfl rfl (fun _ => rfl)⟩

variable (hn : n ≠ 0)
include hn

theorem State.loopWord_region (h : ∃ l, inSet s.me.run.act l = true ∧ (s.me.lane l).region ≠ none) : s.loopWord lc n len = s.trapHere 0x50 6 :=
  (if_neg hn).trans (if_pos (bne_iff_ne.2 (Group.regionSet_ne_zero (by simpa [Option.isSome_iff_ne_none] using h))))

variable (hr : s.me.regionSet s.me.run.act = 0)
include hr

theorem State.loopWord_full (h : 3 ≤ s.me.loops.length) : s.loopWord lc n len = s.trapHere 0x0B lc :=
  (if_neg hn).trans ((if_neg (by simp [hr])).trans (if_pos h))

variable (hlen : s.me.loops.length < 3)
include hlen

theorem State.loopWord_held (h : ∃ e ∈ s.me.loops, e.lc = lc) : s.loopWord lc n len = s.trapHere 0x0C lc :=
  (if_neg hn).trans ((if_neg (by simp [hr])).trans ((if_neg (Nat.not_le.2 hlen)).trans (if_pos (by simpa using h))))

/-- The last question of a LOOP word: whether its body lies inside that of the innermost entry. -/
theorem State.loopWord_nested (hfree : ¬ ∃ e ∈ s.me.loops, e.lc = lc) : s.loopWord lc n len =
    if s.me.loops.head?.any (fun e => !decide (e.start.toNat ≤ s.nextHdr.toNat ∧ (s.loopStop len).toNat ≤ e.stop.toNat)) then s.trapHere 0x0D 3
    else (s.onMe (fun g => { g.moveTo (fun _ => s.nextHdr) with
      loops := ⟨s.nextHdr, s.loopStop len, lc⟩ :: g.loops, lc := FMap.put g.lc lc (BitVec.ofNat 32 n) })).advance 1 1 :=
  (if_neg hn).trans ((if_neg (by simp [hr])).trans ((if_neg (Nat.not_le.2 hlen)).trans (if_neg (by simpa using hfree))))

variable (hfree : ¬ ∃ e ∈ s.me.loops, e.lc = lc)
include hfree

theorem State.loopWord_outside (h : ¬ s.loopWithin len) : s.loopWord lc n len = s.trapHere 0x0D 3 := by
  rw [State.loopWord_nested hn hr hlen hfree, if_pos]
  simpa [State.loopWithin, Option.any_eq_true, imp_iff_not_or] using h

theorem State.loopWord_pushed (h : s.loopWithin len) : (s.loopWord lc n len).teams = s.teams ∧
    Moved { s.afterMove s.me.run.ends with
        loops := ⟨s.nextHdr, s.loopStop len, lc⟩ :: s.me.loops, lc := FMap.put s.me.lc lc (BitVec.ofNat 32 n) }
      (s.sentTo (fun _ => s.nextHdr)) s (s.loopWord lc n len) := by
  rw [State.loopWord_nested hn hr hlen hfree, if_neg]
  · exact ⟨rfl, Moved.of_moveTo (f := fun g => { g with
      loops := ⟨s.nextHdr, s.loopStop len, lc⟩ :: g.loops, lc := FMap.put g.lc lc (BitVec.ofNat 32 n) }) rfl rfl rfl (fun _ => rfl)⟩
  · simpa [State.loopWithin, Option.any_eq_true] using h

end

/-- Settles O27: the causes of a LOOP word in the order in which they are asked. -/
theorem hardwareLoops : Obligations.HardwareLoops := by
  unfold Obligations.HardwareLoops
  intro s lc sa n len g stop inRegion held within gives
  have asked {i : Instr} {trips : Nat} (hi : exec i s = .next (s.loopWord lc.toNat trips len.toNat)) : gives i trips := by
    simp only [gives]
    rw [hi]
    refine ⟨fun h0 => ?_, fun hn => ⟨fun h => ?_, fun h => ?_⟩⟩
    · subst h0
      exact ⟨_, rfl, State.loopWord_zero⟩
    · rw [State.loopWord_region hn h]
    · have hr : g.regionSet g.run.act = 0 := Group.regionSet_eq_zero (fun l hl => by_contra (fun hreg => h ⟨l, hl, hreg⟩))
      refine ⟨fun hfull => ?_, fun hlen hheld => ?_, fun hlen hfree hout => ?_, fun hlen hfree hin => ⟨_, rfl, State.loopWord_pushed hn hr hlen hfree hin⟩⟩
      · rw [State.loopWord_full hn hr hfull]
      · rw [State.loopWord_held hn hr hlen hheld]
      · rw [State.loopWord_outside hn hr hlen hfree hout]
  refine ⟨fun hready => asked ?_, asked (exec_loopi ..)⟩
  rw [exec_loop, execLoop, Group.gate_ready (srcs := [(sreg sa, false)]) hready, State.gated_go]

/-! ### Calls and returns -/

/-- An empty register in no lane that reads it, and no loop open: the gate of a jump to a register is open (R92, R96). -/
theorem State.jumpV_go {s : State} {a : BitVec 7} (ea : Bool) (hr : s.ready [a.toNat] []) (hl : s.me.loops = []) :
    Gives (s.jumpV a ea) (fun t => t.teams = s.teams ∧
      Moved (s.afterMove s.me.run.ends) (s.sentTo (fun l => (s.me.lane l).reg a.toNat)) s t) := by
  unfold State.jumpV
  dsimp only
  rw [Group.gate_ready (srcs := [(a.toNat, ea)]) hr]
  simp only [hl, List.isEmpty_nil, Bool.not_true, Bool.false_eq_true, if_false, State.gated_go]
  exact ⟨_, rfl, rfl, Moved.of_moveTo (f := id) rfl rfl rfl (fun _ => rfl)⟩

theorem State.jumpV_inLoop {s : State} {a : BitVec 7} (ea : Bool) (hr : s.ready [a.toNat] []) (hl : s.me.loops ≠ []) :
    s.jumpV a ea = .next (s.trapHere 0x0D 2) := by
  unfold State.jumpV
  dsimp only
  rw [Group.gate_ready (srcs := [(a.toNat, ea)]) hr]
  simp [hl, State.gated]

/-- The active lanes whose guard holds (R91). -/
def State.callers (s : State) (p : BitVec 5) (neg : Bool) : LaneSet := setOf (fun l => inSet s.me.run.act l && s.me.taken p neg l)

theorem State.inSet_callers (s : State) (p : BitVec 5) (neg : Bool) (l : Nat) :
    inSet (s.callers p neg) l = (inSet s.me.run.act l && ((s.me.lane l).pred p.toNat != neg)) := by
  unfold State.callers
  rw [inSet_setOf]
  cases h : inSet s.me.run.act l with
  | true => simp [inSet_lt h, Group.taken, Lane.guard]
  | false => simp

/-- A commit of lanes that differ, and a run, and the issue of the word. -/
theorem Moved.of_commit {s : State} {n c : Nat} {g new : Group} {lane : Nat → Lane} {w : Nat → Writes}
    (hg : { new with lanes := s.me.lanes, run := new.run.after n } = { g with lanes := s.me.lanes })
    (hc : g.cluster = s.me.cluster) (hs : g.slice = s.me.slice) (hl : ∀ l, l < 64 → new.lane l = lane l) :
    TeamsButLogs s ((s.commit s.cur new w).advance n c) ∧ Moved g lane s ((s.commit s.cur new w).advance n c) := by
  have hme : (s.commit s.cur new w).me = new := by unfold State.me; rw [State.commit_cur, State.group_commit_self]
  rw [← hme] at hg hl
  obtain ⟨hother, hown, hlevels⟩ := s.commit_teams new w
  exact ⟨⟨hother, hown, hlevels⟩, Moved.of_advance (s.commit_world s.cur new w) (by simp) (by simp)
    (fun k hk => by rw [State.group_commit, if_neg hk]) hg hc hs hl⟩

/-- The group after a CALL that it takes (R91): *next* in o7 of the lanes that go. -/
def State.called (s : State) (p : BitVec 5) (neg : Bool) (off : BitVec 17) : Group :=
  (s.me.mapLanes (s.callers p neg) (fun _ n => n.setReg 71 s.nextHdr)).moveTo
    (fun l => if inSet (s.callers p neg) l then s.here + off.signExtend 32 else s.nextHdr)

theorem State.lane_called (s : State) (p : BitVec 5) (neg : Bool) (off : BitVec 17) {l : Nat} (h : l < 64) : (s.called p neg off).lane l =
    if inSet (s.callers p neg) l then { (s.me.lane l).setReg 71 s.nextHdr with vpc := s.here + off.signExtend 32 }
    else if inSet s.me.run.act l then { s.me.lane l with vpc := s.nextHdr } else s.me.lane l := by
  have hsub : inSet (s.callers p neg) l = true → inSet s.me.run.act l = true := by
    rw [State.inSet_callers, Bool.and_eq_true]; exact And.left
  unfold State.called
  rw [Group.lane_moveTo _ _ h, Group.lane_mapLanes _ _ _ h]
  change (if inSet s.me.run.act l then _ else _) = _
  cases hgo : inSet (s.callers p neg) l with
  | true => simp only [hsub hgo, if_true]
  | false => simp only [Bool.false_eq_true, if_false]

/-- CALL where o7 is full in the lanes that go (R91, R96). -/
theorem State.call_gated {s : State} {p : BitVec 5} {neg : Bool} (off : BitVec 17)
    (hfull : ∀ l, inSet (s.callers p neg) l = true → (s.me.lane l).isEmpty 71 = false) : execCall p neg off s =
    .next (if !s.me.loops.isEmpty then s.trapHere 0x0D 2
      else (s.commit s.cur (s.called p neg off) (Writes.on { regs := [71] } (s.callers p neg))).advance 1 1) := by
  have hgate : s.me.gateOn [] [(s.callers p neg, 71)] = .go :=
    Group.gateOn_ready (fun _ h => by simp at h) (List.forall_mem_singleton.2 ⟨fun _ => hfull, fun h => by simp at h⟩)
  have hcall : execCall p neg off s = .next (s.gated (s.me.gateOn [] [(s.callers p neg, 71)]) (if !s.me.loops.isEmpty then s.trapHere 0x0D 2
      else (s.commit s.cur (s.called p neg off) (Writes.on { regs := [71] } (s.callers p neg))).advance 1 1)) := rfl
  rw [hcall, hgate, State.gated_go]

/-- Settles O26: CALL writes o7 of the callers and sends each active lane its way; RET and JMPV are one jump to a register. -/
theorem callsAndReturns : Obligations.CallsAndReturns := by
  unfold Obligations.CallsAndReturns
  intro s p neg off a ea act go
  refine ⟨fun h => ?_, fun _ hr => ?_⟩
  · have hgo (l : Nat) : inSet (s.callers p neg) l = go l := s.inSet_callers p neg l
    rw [exec_call, State.call_gated off (fun l hl => h l ((hgo l).symm.trans hl))]
    refine ⟨fun hl => ⟨_, rfl, ?_⟩, fun hl => by simp [hl]⟩
    simp only [hl, List.isEmpty_nil, Bool.not_true, Bool.false_eq_true, if_false, ← hgo]
    exact Moved.of_commit rfl rfl rfl (fun l h64 => s.lane_called p neg off h64)
  · intro jumps
    have jumped {i : Instr} (hi : exec i s = s.jumpV a ea) : jumps i := by
      simp only [jumps, hi]
      exact ⟨State.jumpV_go ea hr, State.jumpV_inLoop ea hr⟩
    exact ⟨jumped (exec_ret ..), jumped (exec_jmpv ..)⟩

end Sys2Proof.Machine
end

