-- ==== Sys2Proof/Proofs/ScalarWords.lean ====
section
/-! SUPPORT. Scalar arithmetic, special registers, election and the clocks (R13, R14, R83 to R86, R89, R100, R103, R187, R296, R350). -/
namespace Sys2Proof.Machine

theorem minS_eq (a b : Word) : minS a b = if a.toInt ≤ b.toInt then a else b :=
  BitVec.eq_of_toNat_eq (by rw [min_signed, apply_ite BitVec.toNat])

theorem maxS_eq (a b : Word) : maxS a b = if a.toInt ≤ b.toInt then b else a :=
  BitVec.eq_of_toNat_eq (by rw [max_signed, apply_ite BitVec.toNat])

theorem minU_eq (a b : Word) : minU a b = if a.toNat ≤ b.toNat then a else b :=
  BitVec.eq_of_toNat_eq (by rw [min_unsigned, apply_ite BitVec.toNat, min_def])

theorem maxU_eq (a b : Word) : maxU a b = if a.toNat ≤ b.toNat then b else a :=
  BitVec.eq_of_toNat_eq (by rw [max_unsigned, apply_ite BitVec.toNat, max_def])

theorem boolWord_eq {b : Bool} {p : Prop} [Decidable p] (h : b = true ↔ p) : boolWord b = if p then 1 else 0 := if_congr h rfl rfl

theorem scalarBinary_go {s : State} {sd sa sb : BitVec 5} (h : s.ready [80 + sa.toNat, 80 + sb.toNat] [80 + sd.toNat]) (f : Word → Word → Word) :
    Gives (scalarBinary sd sa sb f s) (WroteS 1 sd.toNat (f (s.me.s sa.toNat) (s.me.s sb.toNat)) s) :=
  s.scalarWord_go h 1 sd.toNat (fun g => f (g.s sa.toNat) (g.s sb.toNat))

theorem scalarImm_go {s : State} {sd sa : BitVec 5} (h : s.ready [80 + sa.toNat] [80 + sd.toNat]) (f : Word → Word) :
    Gives (scalarImm sd sa f s) (WroteS 1 sd.toNat (f (s.me.s sa.toNat)) s) :=
  s.scalarWord_go h 1 sd.toNat (fun g => f (g.s sa.toNat))

/-- SMOVHI reads its destination, which is full where it may be written (R86). -/
theorem State.ready_dest_read {s : State} {r : BitVec 5} (h : s.ready [] [80 + r.toNat]) : s.ready [80 + r.toNat] [80 + r.toNat] := by
  have hfull := h.2 _ (List.mem_singleton.2 rfl)
  exact ⟨List.forall_mem_singleton.2 ⟨hfull, fun h72 => by omega⟩, h.2⟩

/-- Settles O22: every row is `scalarBinary` or `scalarImm` of the function of its row; the model's minima and comparisons are those of the numbers they hold. -/
theorem scalarArithmeticWords : Obligations.ScalarArithmeticWords := by
  unfold Obligations.ScalarArithmeticWords
  refine ⟨fun s sd sa sb h => ?_, fun s sd sa imm sh => ⟨fun h => ?_, fun h => ?_⟩⟩
  · have hslt (x y : Word) : boolWord (x.slt y) = if x.toInt < y.toInt then 1 else 0 := boolWord_eq BitVec.slt_iff_toInt_lt
    have hult (x y : Word) : boolWord (x.ult y) = if x.toNat < y.toNat then 1 else 0 := boolWord_eq BitVec.ult_iff_toNat_lt
    have heq (x y : Word) : boolWord (x == y) = if x = y then 1 else 0 := boolWord_eq beq_iff_eq
    simp only [exec_sadd, exec_ssub, exec_smul, exec_smulhu, exec_sand, exec_sor, exec_sxor, exec_sshl, exec_sshr, exec_ssar, exec_smin,
      exec_smax, exec_sminu, exec_smaxu, exec_sseq, exec_sslt, exec_ssltu, ← minS_eq, ← maxS_eq, ← minU_eq, ← maxU_eq, ← hslt, ← hult, ← heq]
    and_intros <;> exact scalarBinary_go h _
  · simp only [exec_saddi, exec_sandi, exec_sori, exec_sxori, exec_sshli, exec_sshri]
    and_intros <;> exact scalarImm_go h _
  · simp only [exec_smovi, exec_smovhi]
    exact ⟨s.scalarWord_go h 1 sd.toNat (fun _ => imm.signExtend 32),
      s.scalarWord_go (State.ready_dest_read h) 1 sd.toNat (fun g => g.s sd.toNat <<< 13 ||| imm.zeroExtend 32)⟩

/-! ### Special registers -/

/-- Two fields side by side weigh their sum. -/
theorem toNat_append_add {m n : Nat} (x : BitVec m) (y : BitVec n) : (x ++ y).toNat = x.toNat * 2 ^ n + y.toNat := by
  rw [BitVec.toNat_append, ← Nat.shiftLeft_add_eq_or_of_lt y.isLt, Nat.shiftLeft_eq]

/-- The fields of RSTATUS side by side are the sum of their weights (R296). -/
theorem rstatus_fields (fcode last phase routine : Nat) (conv : Bool) :
    (0#1 ++ BitVec.ofNat 15 fcode ++ BitVec.ofNat 8 last ++ 0#2 ++ BitVec.ofBool conv ++ BitVec.ofNat 2 phase ++ BitVec.ofNat 3 routine : Word) =
      BitVec.ofNat 32 (routine % 8 + phase % 4 * 2 ^ 3 + (if conv then 2 ^ 5 else 0) + last % 256 * 2 ^ 8 + fcode % 2 ^ 15 * 2 ^ 16) := by
  apply BitVec.eq_of_toNat_eq
  simp only [toNat_append_add, BitVec.toNat_ofNat, BitVec.toNat_ofBool]
  cases conv <;> simp <;> omega

theorem Team.rstatus_none {t : Team} (h : t.levels = []) : t.rstatus = 0 := by
  unfold Team.rstatus
  rw [h]
  rfl

theorem Team.rstatus_some {t : Team} {below : List Level} {lv : Level} (h : t.levels = below ++ [lv]) : t.rstatus =
    0#1 ++ BitVec.ofNat 15 lv.fcode ++ BitVec.ofNat 8 lv.last ++ 0#2 ++ BitVec.ofBool (decide (lv.conv ≠ 0)) ++ BitVec.ofNat 2 lv.phase ++
      BitVec.ofNat 3 lv.routine := by
  rw [rstatus_fields]
  unfold Team.rstatus
  rw [h, List.getLast?_concat]
  by_cases hc : lv.conv = 0 <;> simp [hc]

/-- MOVSR (R89). -/
theorem execMovsr_go {s : State} {sd : BitVec 5} (h : s.ready [] [80 + sd.toNat]) {n : BitVec 6} {v : Word} (hv : s.special n.toNat = v) :
    Gives (exec (.movsr sd n) s) (WroteS 1 sd.toNat v s) := by
  subst hv
  rw [exec_movsr]
  exact s.scalarWord_go h 1 sd.toNat (fun _ => s.special n.toNat)

section
variable {s : State} {ss : BitVec 5} (h : s.ready [80 + ss.toNat] [])
include h

/-- MOVSW to FPCTL asks for a reserved rounding mode, then for a reserved bit (R14, R399). -/
theorem execMovsw_fpctl : execMovsw ss 0x12 s = .next (s.gated
    (if 6 ≤ (s.me.s ss.toNat).toNat % 8 then .trap 0x09 0 else if (s.me.s ss.toNat).toNat / 8 % 32 ≠ 0 then .trap 0x09 3 else .go)
    ((s.onMe (fun g => { g with fpctl := s.me.s ss.toNat })).advance 1 1)) := by
  unfold execMovsw
  dsimp only
  rw [Group.gate_ready (srcs := [(sreg ss, false)]) h]
  simp

/-- MOVSW to PROGRESS (R89, R350). -/
theorem execMovsw_progress : execMovsw ss 0x11 s =
    .next (((s.onMe (fun g => { g with progress := minU (s.me.s ss.toNat) 255 })).kick s.me.team).advance 1 1) := by
  unfold execMovsw
  dsimp only
  rw [Group.gate_ready (srcs := [(sreg ss, false)]) h]
  simp [State.gated]

end

/-- A value held to 255 (R89). -/
theorem minU_255 (v : Word) : minU v 255 = BitVec.ofNat 32 (min v.toNat 255) := by
  apply BitVec.eq_of_toNat_eq
  rw [min_unsigned, BitVec.toNat_ofNat]
  change min v.toNat 255 = _
  omega

theorem State.team_kick (s : State) (k j : Nat) : (s.kick k).team j = if j = k then { s.team k with wdcount := 0 } else s.team j :=
  State.team_onTeam _ _ _ _

theorem State.kick_advance (s : State) (k n c : Nat) : (s.kick k).advance n c = (s.advance n c).kick k := rfl

/-- What a word leaves of its group and outside it does not tell of watchdog counts (R350). -/
theorem Moved.kick {s t : State} {g : Group} {lane : Nat → Lane} (h : Moved g lane s t) (k : Nat) : Moved g lane s (t.kick k) :=
  ⟨h.world, ⟨h.slice.cluster, h.slice.slice, h.slice.group, h.slice.cur⟩, h.group, h.lanes⟩

/-- Settles O23: a register read is the model's `special`; a write passes its two checks or is none. -/
theorem specialRegisterWords : Obligations.SpecialRegisterWords := by
  unfold Obligations.SpecialRegisterWords
  refine ⟨fun s sd h => ?_, fun s ss h => ?_⟩
  · intro g t gr nat reads
    have read {n : BitVec 6} {v : Word} (hv : s.special n.toNat = v) : reads n v := execMovsr_go h hv
    have high (x : DWord) : (x >>> 32).truncate 32 = x.extractLsb' 32 32 := by ext; simp
    have low (x : DWord) : x.truncate 32 = x.extractLsb' 0 32 := by ext; simp
    exact ⟨read rfl, read rfl, read rfl, read rfl, read rfl, read rfl, read rfl, read rfl, read rfl, read rfl, read rfl, read rfl, read rfl, read rfl,
      read rfl, read rfl, read rfl, read rfl, read rfl, read rfl, read rfl, read (low _), read (high _), read (low _), read (high _), read rfl,
      fun hl => read (Team.rstatus_none hl), fun below lv hl => read (Team.rstatus_some hl), read rfl, read rfl, read rfl, read rfl, read rfl⟩
  · intro v
    simp only [exec_movsw, execMovsw_fpctl h, execMovsw_progress h, minU_255]
    refine ⟨fun hmode hbits => ?_, fun hmode => ?_, fun hmode hbits => ?_, _, rfl, fun k => ?_, ?_⟩
    · rw [if_neg (Nat.not_le.2 hmode), if_neg (not_not.2 hbits), State.gated_go]
      exact ⟨_, rfl, rfl, Moved.of_onMe rfl rfl rfl (fun _ _ => rfl)⟩
    · rw [if_pos hmode]; rfl
    · rw [if_neg (Nat.not_le.2 hmode), if_pos hbits]; rfl
    · rw [State.team_advance, State.team_kick]
      split_ifs with hk
      · rw [hk]; rfl
      · rfl
    · rw [State.kick_advance]
      refine Moved.kick ?_ _
      exact Moved.of_onMe rfl rfl rfl (fun _ _ => rfl)

/-! ### Election and time -/

theorem not_inSet_of_lt_lowest {m : LaneSet} {l k : Nat} (h : inSet m l = true) (hk : k < lowest m) : inSet m k = false := by
  have hex : ∃ j, inSet m j = true := ⟨l, h⟩
  have hmin (j : Nat) (hj : j < Nat.find hex) : inSet m j = false := by simpa using Nat.find_min hex hj
  rw [lowest_eq (Nat.find_spec hex) hmin] at hk
  exact hmin k hk

/-- The lowest lane of a set, told lane by lane (R100). -/
theorem beq_lowest {m : LaneSet} {l : Nat} (h : inSet m l = true) : (l == lowest m) = (inSet m l && (List.range l).all (fun k => !inSet m k)) := by
  rw [h, Bool.true_and, Bool.eq_iff_iff, beq_iff_eq]
  simp only [List.all_eq_true, List.mem_range, Bool.not_eq_true']
  exact ⟨fun hl k hk => not_inSet_of_lt_lowest h (hl ▸ hk), fun hl => (lowest_eq h hl).symm⟩

/-- A word that sets a predicate of the active lanes (R100, R187). -/
theorem State.electing_wrote (s : State) {p : Nat} (hp : p < 24) {v w : Nat → Bool} (hv : ∀ l, inSet s.me.run.act l = true → v l = w l) :
    WrotePred 1 p w (fun _ => 0) s
      ((s.commit s.cur (s.me.mapLanes s.me.run.act (fun l n => n.setPred p (v l))) (Writes.on { preds := true } s.me.run.act)).advance 1 1) := by
  have hl (l : Nat) (h : l < 64) := s.me.lane_mapLanes s.me.run.act (fun l n => n.setPred p (v l)) h
  obtain ⟨hteams, hworld, hslice, hgroup, hlanes⟩ := Moved.of_commit (s := s) (n := 1) (c := 1) (w := Writes.on { preds := true } s.me.run.act)
    (g := { s.me with run := s.me.run.after 1 }) (new := s.me.mapLanes s.me.run.act (fun l n => n.setPred p (v l))) rfl rfl rfl hl
  refine ⟨⟨hworld, hslice, hteams, hgroup⟩, fun l hact => ?_, fun l h64 hact => ?_⟩
  · rw [hlanes l (inSet_lt hact), if_pos hact, ← hv l hact]
    refine ⟨?_, fun q hq hne => ?_, ?_, rfl⟩
    · rw [Lane.pred_setPred _ _ _ _ hp hp, if_pos rfl]
    · rw [Lane.pred_setPred _ _ _ _ hp hq, if_neg hne]
    · simp [Lane.setPred]
  · rw [hlanes l h64, if_neg (by simp [hact])]

/-- A group that still holds a live or parked lane (R187). -/
theorem Group.countSet_ne_zero (g : Group) : g.countSet ≠ 0 ↔ (List.range 64).any (fun l => (g.lane l).counts) = true := by
  rw [List.any_eq_true]
  constructor
  · intro h
    obtain ⟨l, hl⟩ := lanesIn_ne h
    simp only [Group.countSet, inSet_setOf, Bool.and_eq_true, decide_eq_true_eq] at hl
    exact ⟨l, List.mem_range.2 hl.1, hl.2⟩
  · rintro ⟨l, hl, hc⟩
    exact setOf_ne_zero ⟨l, List.mem_range.1 hl, hc⟩

/-- The group numbers of a team's groups that still hold a live or parked lane (R187). -/
def State.holders (s : State) (t : Nat) : List Nat :=
  (((s.team t).groups.map s.group).filter (fun g => g.countSet ≠ 0)).map (·.gid)

/-- TELECT's choice is the smallest of these numbers (R187). -/
theorem State.elected_eq_min (s : State) (t : Nat) : s.elected t = (s.holders t).min? := by
  have fold (gs : List Nat) (m : Option Nat) : (gs.map (fun k => (k, s.group k))).foldl (fun m (x : Nat × Group) =>
      if x.2.countSet = 0 then m else match m with | none => some x.2.gid | some y => some (min y x.2.gid)) m =
      (m.toList ++ ((gs.map s.group).filter (fun g => g.countSet ≠ 0)).map (·.gid)).min? := by
    induction gs generalizing m with
    | nil => cases m <;> rfl
    | cons k gs ih =>
      simp only [List.map_cons, List.foldl_cons]
      rw [ih]
      by_cases h0 : (s.group k).countSet = 0
      · rw [if_pos h0, List.filter_cons_of_neg (by simpa using h0)]
      · rw [if_neg h0, List.filter_cons_of_pos (by simpa using h0)]
        cases m <;> rfl
  exact fold _ none

/-- The issuing group is TELECT's choice where it holds a lane and no group with a lane has a lower number (R187). -/
theorem State.elected_iff (s : State) (hcur : s.cur ∈ s.myTeam.groups) (hme : s.me.countSet ≠ 0) :
    s.elected s.me.team = some s.me.gid ↔ ∀ k ∈ s.myTeam.groups, (s.group k).countSet ≠ 0 → s.me.gid ≤ (s.group k).gid := by
  have hmem : s.me.gid ∈ s.holders s.me.team :=
    List.mem_map_of_mem (List.mem_filter.2 ⟨List.mem_map_of_mem hcur, by simpa using hme⟩)
  rw [State.elected_eq_min, List.min?_eq_some_iff, and_iff_right hmem]
  simp only [State.holders, State.myTeam, List.mem_map, List.mem_filter, decide_eq_true_eq]
  exact ⟨fun h k hk hc => h _ ⟨_, ⟨⟨k, hk, rfl⟩, hc⟩, rfl⟩, fun h _ ⟨_, ⟨⟨k, hk, hg⟩, hc⟩, hb⟩ => by subst hg hb; exact h k hk hc⟩

/-- The two words of a number (R11). -/
theorem ofNat_words (n : Nat) : (BitVec.ofNat 32 (n / 2 ^ 32) ++ BitVec.ofNat 32 n : DWord) = BitVec.ofNat 64 n := by
  apply BitVec.eq_of_toNat_eq
  rw [toNat_append_add]
  simp only [BitVec.toNat_ofNat]
  omega

/-- TSTAMP's pair (R103). -/
theorem State.tstamp_go {s : State} {sd : BitVec 5} (heven : sd.toNat % 2 = 0) (hr : s.ready [] [80 + sd.toNat, 80 + sd.toNat + 1]) :
    Gives (execTstamp sd s) (fun t => ScalarFrame 1 s t ∧
      t.me.sPair sd.toNat = BitVec.ofNat 64 ((s.issueTime s.me.cluster s.me.slice).1 / 840) ∧
      t.me.sIsEmpty sd.toNat = false ∧ t.me.sIsEmpty (sd.toNat + 1) = false ∧
      ∀ k, k < 32 → k ≠ sd.toNat → k ≠ sd.toNat + 1 → t.me.s k = s.me.s k ∧ t.me.sIsEmpty k = s.me.sIsEmpty k) := by
  have hlt : sd.toNat + 1 < 32 := by omega
  obtain ⟨n, hn⟩ : ∃ n, (s.issueTime s.me.cluster s.me.slice).1 / 840 = n := ⟨_, rfl⟩
  have hword : execTstamp sd s = .next (s.gated (s.me.gate [] [80 + sd.toNat, 80 + sd.toNat + 1])
      ((s.onMe (fun g => (g.setS sd.toNat (BitVec.ofNat 32 ((s.issueTime g.cluster g.slice).1 / 840))).setS (sd.toNat + 1)
        (BitVec.ofNat 32 ((s.issueTime g.cluster g.slice).1 / 840 / 2 ^ 32)))).advance 1 1)) := rfl
  rw [hword, Group.gate_ready (srcs := []) hr, State.gated_go]
  have hpair (q : Nat) (hq : q < 32) := s.me.setS_pair sd.toNat q (BitVec.ofNat 32 n) (BitVec.ofNat 32 (n / 2 ^ 32)) hq
  have h0 := hpair sd.toNat (by omega)
  have h1 := hpair (sd.toNat + 1) hlt
  simp only [if_true] at h0
  simp only [show ¬ sd.toNat + 1 = sd.toNat by omega, if_false, if_true] at h1
  refine ⟨_, rfl, s.scalar_frame 1 1 _ rfl, ?_⟩
  rw [State.me_advance, State.me_onMe, hn]
  refine ⟨?_, h0.2, h1.2, fun k hk hne hne1 => ?_⟩
  · change (((s.me.setS sd.toNat _).setS (sd.toNat + 1) _).s (sd.toNat + 1) ++ ((s.me.setS sd.toNat _).setS (sd.toNat + 1) _).s sd.toNat : DWord) = _
    rw [h0.1, h1.1, ofNat_words]
  · have hk' := hpair k hk
    simp only [hne, hne1, if_false] at hk'
    exact hk'

theorem execNop_eq (s : State) : execNop s = .next (s.advance 1 1) := rfl

/-- Settles O24: both elections pick by the lowest active lane, TELECT's further condition being a minimum over the team's groups that hold a lane. -/
theorem electionAndTime : Obligations.ElectionAndTime := by
  unfold Obligations.ElectionAndTime
  intro s p sd hp act low holds first
  simp only [exec_elect, exec_telect, exec_tstamp, exec_cycle, exec_nop, execNop_eq]
  refine ⟨⟨_, rfl, ?_⟩, fun hcur hcount => ⟨_, rfl, ?_⟩, State.tstamp_go, fun hr => ?_, ⟨_, rfl, rfl, ?_⟩⟩
  · exact s.electing_wrote hp (fun l hl => beq_lowest hl)
  · refine s.electing_wrote hp (fun l hl => ?_)
    have hme : holds s.me = true := List.any_eq_true.2 ⟨l, List.mem_range.2 (inSet_lt hl), hcount l hl⟩
    have hfirst : (s.elected s.me.team == some s.me.gid) = first := by
      rw [Bool.eq_iff_iff, beq_iff_eq, s.elected_iff hcur ((Group.countSet_ne_zero _).2 hme)]
      simp only [first, hme, Group.countSet_ne_zero, Bool.true_and, List.all_eq_true, Bool.or_eq_true, Bool.not_eq_true', decide_eq_true_eq, holds]
      refine forall₂_congr (fun k _ => ?_)
      rw [← Bool.not_eq_true, imp_iff_not_or]
    rw [hfirst, beq_lowest hl]
  · exact s.scalarWord_go hr 1 sd.toNat (fun g => BitVec.ofNat 32 (s.issueTime g.cluster g.slice).2)
  · exact Moved.of_advance rfl rfl rfl (fun _ _ => rfl) rfl rfl rfl (fun _ _ => rfl)

end Sys2Proof.Machine
end

