-- ==== Sys2Proof/Proofs/ScalarMemory.lean ====
section
/-! SUPPORT. Scalar loads and stores that nothing holds back (R87, R88, R166, R225). -/
namespace Sys2Proof.Machine

/-! ### A translation that has been cached -/

theorem look_tlbPut (m : FMap (DWord × Nat)) (cap n k : Nat) (v : DWord × Nat) : FMap.look (tlbPut m cap n k v) k = some v := by
  unfold tlbPut
  split_ifs <;> exact FMap.look_put_self _ _ _

theorem State.look_tlb_putTlb (s : State) (cl : Nat) (x : Nat × DWord × Nat) : FMap.look ((s.putTlb cl x).cluster cl).tlb x.1 = some x.2 := by
  unfold State.putTlb
  rw [State.cluster_onDie, State.cluster_onCluster_self]
  exact look_tlbPut _ _ _ _ _

/-- Where cached translations that differ have been evicted, the tables decide (R225). -/
theorem State.translate_evicted {s : State} (cl part va : Nat) (h : Config.tlbEvicted s.fresh = true) : s.translate cl part va = s.walk part va := by
  unfold State.translate
  simp only [h, if_true, ite_self]
  split <;> rfl

/-- A translation put in the caches is the one that an access finds there (R225). -/
theorem State.translate_putTlb {s : State} {cl part va : Nat} {e : DWord} {lv : Nat} (h : s.translate cl part va = .leaf e lv) :
    (s.putTlb cl (tlbKey part va, e, lv)).translate cl part va = .leaf e lv := by
  have hlook := s.look_tlb_putTlb cl (tlbKey part va, e, lv)
  by_cases hev : Config.tlbEvicted s.fresh = true
  · exact (State.translate_evicted (s := s.putTlb cl _) cl part va hev).trans ((s.translate_evicted cl part va hev).symm.trans h)
  · have hheld : ¬ Config.tlbEvicted (s.putTlb cl (tlbKey part va, e, lv)).fresh = true := hev
    unfold State.translate
    simp only [hlook, if_neg hheld]
    split_ifs with hnow
    · exact hnow
    · rfl

/-- An address that leads somewhere has a leaf to cache for its page. -/
theorem State.leafFor_page {s : State} {cl part va pa : Nat} {use : Access1} {sp : Space} (h : s.target cl part use va = .ok sp pa) :
    ∃ e lv, s.translate cl part va = .leaf e lv ∧ s.leafFor cl part use (va / 2 ^ 16 * 2 ^ 16) = some (tlbKey part va, e, lv) := by
  have hkey : tlbKey part (va / 2 ^ 16 * 2 ^ 16) = tlbKey part va := by
    unfold tlbKey
    rw [Nat.mul_div_cancel _ (by norm_num)]
  unfold State.target at h
  cases ht : s.translate cl part va with
  | bad c lv b =>
    rw [ht] at h
    split_ifs at h
  | leaf e lv =>
    have hbase (hva : ¬ 2 ^ 56 ≤ va) (hpart : ¬ e.toNat / 2 ^ 5 % 8 ≠ part) (hwrite : ¬ (use = .write ∧ (!e.getLsbD 2) = true))
        (hfetch : ¬ (use = .fetch ∧ (!e.getLsbD 3) = true)) : s.leafFor cl part use (va / 2 ^ 16 * 2 ^ 16) = some (tlbKey part va, e, lv) := by
      unfold State.leafFor State.target
      rw [s.translate_base, ht, hkey, if_neg (by omega)]
      dsimp only
      rw [if_neg hpart, if_neg hwrite, if_neg hfetch]
    rw [ht] at h
    dsimp only at h
    split_ifs at h with hva hpart hwrite hfetch <;> exact ⟨e, lv, rfl, hbase hva hpart hwrite hfetch⟩

/-- The translation of an address that leads somewhere is cached, and the address leads there still (R225). -/
theorem State.noteWalk_eq {s : State} {cl part va pa : Nat} {use : Access1} {sp : Space} (h : s.target cl part use va = .ok sp pa) :
    TlbOnly s (s.noteWalk cl part use va) ∧ (s.noteWalk cl part use va).target cl part use va = .ok sp pa := by
  have herr := s.target_noError cl part va use sp pa h
  obtain ⟨e, lv, ht, hleaf⟩ := State.leafFor_page h
  have heq : s.noteWalk cl part use va = s.putTlb cl (tlbKey part va, e, lv) := by
    unfold State.noteWalk State.cachePages State.countErr
    simp only [List.filterMap_cons, List.filterMap_nil, hleaf, List.filter_cons, herr, List.filter_nil, Bool.false_eq_true, if_false,
      List.length_nil, if_true, List.foldl_cons, List.foldl_nil]
  rw [heq]
  refine ⟨s.putTlb_only cl _, ?_⟩
  unfold State.target at h ⊢
  rw [State.translate_putTlb ht]
  rw [ht] at h
  exact h

/-! ### Scalar loads and stores -/

theorem Group.sIsEmpty_emptyS (g : Group) (n : Nat) {r : Nat} (h : r < 32) : (g.emptyS n).sIsEmpty r = (g.sIsEmpty r || decide (r = n)) := by
  simp only [Group.sIsEmpty, Group.emptyS, BitVec.getLsbD_or, BitVec.getLsbD_shiftLeft, BitVec.getLsbD_one, h, decide_true]
  by_cases hk : r = n
  · subst hk; simp
  · by_cases h2 : r < n
    · simp [h2, hk]
    · have : r - n ≠ 0 := by omega
      simp [this, hk]

/-- The group with the scalar registers of a list of operands empty (R19, R40). -/
def Group.emptied (g : Group) (dsts : List Nat) : Group := dsts.foldl (fun g o => g.emptyS (o - 80)) g

theorem Group.emptied_same (g : Group) (dsts : List Nat) (x : BitVec 32) : { g.emptied dsts with sEmpty := x } = { g with sEmpty := x } := by
  unfold Group.emptied
  induction dsts generalizing g with
  | nil => rfl
  | cons o dsts ih => exact ih (g.emptyS (o - 80))

theorem Group.sIsEmpty_emptied (g : Group) {dsts : List Nat} (hd : ∀ o ∈ dsts, 80 ≤ o) {r : Nat} (h : r < 32) :
    (g.emptied dsts).sIsEmpty r = (g.sIsEmpty r || dsts.contains (80 + r)) := by
  unfold Group.emptied
  induction dsts generalizing g with
  | nil => simp
  | cons o dsts ih =>
    have ho : decide (r = o - 80) = (80 + r == o) := by
      have := hd o (by simp)
      rw [Bool.eq_iff_iff]; simp only [decide_eq_true_eq, beq_iff_eq]; omega
    rw [List.foldl_cons, ih _ (fun x hx => hd x (by simp [hx])), Group.sIsEmpty_emptyS _ _ h, List.contains_cons, ho, Bool.or_assoc]

/-- What a scalar load or store that goes through does: its destinations are empty and the access `a` is under way (R87). -/
def State.scalarStarted (s : State) (dsts : List Nat) (a : Access) : State :=
  State.advance { s.onMe (·.emptied dsts) with accesses := FMap.put s.accesses s.fresh a, fresh := s.fresh + 1 } 1 1

theorem TlbOnly.eq {s t : State} (h : TlbOnly s t) : ∃ cl di, t = { s with clusters := cl, dies := di } :=
  ⟨t.clusters, t.dies, congrArg (fun v : State => { v with clusters := t.clusters, dies := t.dies }) h.world⟩

section
variable {s : State} {kind : AccKind} {srcs dsts : List Nat} {sa : BitVec 5} {imm : BitVec 13} {bytes low pa : Nat} {data : List (BitVec 8)} {sp : Space}

/-- A scalar load or store that nothing holds back (R87, R88, R166). -/
theorem State.scalarAccess_free (hr : s.ready srcs dsts) (hfen : s.me.fences = []) (hroll : s.myTeam.rollback = none) (hlev : s.myTeam.levels = [])
    (hreg : ∀ l, inSet s.me.run.act l = true → (s.me.lane l).region = none) (hlow : lowest s.me.run.act = low)
    (hal : (s.me.sPair sa.toNat + imm.signExtend 64).toNat % bytes = 0)
    (htgt : s.target s.me.cluster (s.partOf s.me) (if kind = .load then .read else .write) (s.me.sPair sa.toNat + imm.signExtend 64).toNat = .ok sp pa)
    (hhost : sp = .host → kind = .load → ∀ w ∈ wordsIn pa bytes, FMap.has s.hostErr w = false) :
    ∃ u, TlbOnly s u ∧ s.scalarAccess kind srcs dsts sa imm bytes data = .next (u.scalarStarted dsts
      (s.accessHere kind 0 0 0 1 dsts.head? dsts.length 4 false [s.partAt low (s.me.sPair sa.toNat + imm.signExtend 64).toNat (0, bytes) (sp, pa) data])) := by
  obtain ⟨htlb, htgt'⟩ := State.noteWalk_eq htgt
  refine ⟨_, htlb, ?_⟩
  have hgate : s.me.gate (srcs.map (fun o => (o, false))) dsts = .go :=
    Group.gate_ready (by rw [List.map_map]; simpa [Function.comp_def, State.ready] using hr)
  have hmisuse : (!s.me.run.handler && s.me.regionSet s.me.run.act != 0) = false := by simp [Group.regionSet_eq_zero hreg]
  unfold State.scalarAccess Group.scalarLane
  dsimp only
  rw [hgate, State.gated_go, State.fenced_none _ _ _ _ hfen, hroll, hmisuse, htgt', hlow]
  obtain ⟨cl, di, hu⟩ := htlb.eq
  rw [hu]
  have hbad : (decide (sp = .host) && decide (kind = .load) && (wordsIn pa bytes).any (fun w => FMap.has s.hostErr w)) = false := by
    rw [Bool.and_eq_false_iff, Bool.and_eq_false_iff, decide_eq_false_iff_not, decide_eq_false_iff_not, ← not_and_or, or_iff_not_imp_left, not_not]
    intro h
    rw [List.any_eq_false]
    intro w hw
    rw [hhost h.1 h.2 w hw]
    exact Bool.false_ne_true
  have hlevel : s.myTeam.rlevel = 0 := congrArg List.length hlev
  refine congrArg Host.Outcome.next ?_
  refine (if_neg (by simp)).trans <| (if_neg (by simp)).trans <| (if_neg (not_not.2 hal)).trans <| (if_neg (by rw [hbad]; simp)).trans <|
    (if_neg (by simp)).trans <| (if_neg (fun h => h.2.2 hlevel)).trans ?_
  rw [State.passFences_none]
  · rfl
  · exact hfen

end

/-- A scalar word emptied `dsts`, started the access `a`, and changed nothing else but cached translations (R19, R87, R225). -/
structure ScalarIssued (dsts : List Nat) (a : Access) (s t : State) : Prop where
  world : { t with time := s.time, clusters := s.clusters, dies := s.dies, groups := s.groups, accesses := s.accesses, fresh := s.fresh } = s
  cluster : ∀ c, { t.cluster c with slices := (s.cluster c).slices, tlb := (s.cluster c).tlb } = s.cluster c
  die : ∀ d, { t.die d with tlb := (s.die d).tlb } = s.die d
  group : ∀ k, k ≠ s.cur → t.group k = s.group k
  own : { t.me with sEmpty := s.me.sEmpty } = { s.me with run := s.me.run.after 1 }
  emptied : ∀ r, r < 32 → t.me.sIsEmpty r = (s.me.sIsEmpty r || dsts.contains (80 + r))
  access : FMap.look t.accesses s.fresh = some a
  accesses : ∀ k, k ≠ s.fresh → FMap.look t.accesses k = FMap.look s.accesses k
  fresh : t.fresh = s.fresh + 1

theorem TlbOnly.scalarStarted {s u : State} (h : TlbOnly s u) {dsts : List Nat} (hd : ∀ o ∈ dsts, 80 ≤ o) (a : Access) :
    ScalarIssued dsts a s (u.scalarStarted dsts a) := by
  obtain ⟨hworld, hcluster, hdie⟩ := h
  obtain ⟨cl, di, rfl⟩ := TlbOnly.eq ⟨hworld, hcluster, hdie⟩
  obtain ⟨v, hv⟩ : ∃ v : State, v = { ({ s with clusters := cl, dies := di } : State).onMe (·.emptied dsts) with
    accesses := FMap.put s.accesses s.fresh a, fresh := s.fresh + 1 } := ⟨_, rfl⟩
  have hstart : ({ s with clusters := cl, dies := di } : State).scalarStarted dsts a = v.advance 1 1 := by rw [hv]; rfl
  have hme : v.me = s.me.emptied dsts := by rw [hv]; exact s.me_onMe (·.emptied dsts)
  obtain ⟨x, hx⟩ := v.cluster_advance 1 1
  obtain ⟨tm, cl', gs, e⟩ := v.advance_eq 1 1
  rw [hstart]
  refine ⟨?_, fun c => ?_, fun d => ?_, fun k hk => ?_, ?_, fun r hr => ?_, ?_, fun k hk => ?_, ?_⟩
  · rw [e, hv]; rfl
  · have hc : { v.cluster c with tlb := (s.cluster c).tlb } = s.cluster c := by rw [hv]; exact hcluster c
    have hc' := congrArg (fun x : Cluster => { x with slices := (s.cluster c).slices }) hc
    rw [hx]
    split_ifs with hown
    · rw [← hown]; exact hc'
    · exact hc'
  · rw [e, hv]; exact hdie d
  · rw [State.group_advance _ _ _ _ (by rw [hv]; exact hk), hv]
    exact (s.group_onMe k (·.emptied dsts)).trans (if_neg hk)
  · rw [State.me_advance, hme]
    exact congrArg (fun g : Group => { g with run := g.run.after 1 }) (s.me.emptied_same dsts s.me.sEmpty)
  · rw [State.me_advance, hme]
    exact s.me.sIsEmpty_emptied hd hr
  · rw [e, hv]; exact FMap.look_put_self _ _ _
  · rw [e, hv]; exact FMap.look_put_ne _ _ hk
  · rw [e, hv]

/-- Settles O21: nothing holds the access back, so it starts after a walk that touches cached translations alone. -/
theorem scalarMemoryWords : Obligations.ScalarMemoryWords := by
  unfold Obligations.ScalarMemoryWords
  intro s sd sa imm low sp pa ea hfen hroll hlev hreg hlow hfirst part gives
  have issued {i : Instr} {kind : AccKind} {bytes : Nat} {srcs dsts : List Nat} {data : List (BitVec 8)} (hr : s.ready srcs dsts)
      (hi : exec i s = s.scalarAccess kind srcs dsts sa imm bytes data) (hd : ∀ o ∈ dsts, 80 ≤ o) : gives i kind bytes dsts data := by
    intro hal htgt hhost
    obtain ⟨u, hu, e⟩ := State.scalarAccess_free (data := data) hr hfen hroll hlev hreg (lowest_eq hlow hfirst) hal htgt hhost
    obtain ⟨hworld, hcluster, hdie, hgroup, hown, hempty, haccess, haccesses, hfresh⟩ := hu.scalarStarted hd
      (s.accessHere kind 0 0 0 1 dsts.head? dsts.length 4 false [part bytes data])
    exact ⟨_, hi.trans e, hworld, hcluster, hdie, hgroup, hown, hempty, haccess, haccesses, hfresh⟩
  exact ⟨fun hr => issued hr (exec_sldW ..) (by simp), fun hr => issued hr (exec_sldD ..) (by simp; omega),
    fun hr => issued hr (exec_sstW ..) (by simp)⟩

end Sys2Proof.Machine
end

