-- ==== Sys2Proof/Proofs/ExitsAndTraps.lean ====
section
/-! SUPPORT. Lanes that exit and the slots they give back, TRAP and the return from a handler (R23, R98, R101, R102, R165, R281, R337, R350). -/
namespace Sys2Proof.Machine

/-! ### Slots given back -/

theorem State.slot_onSlot (s : State) (i j : Nat) (f : Slot → Slot) : (s.onSlot i f).slot j = if j = i then f (s.slot i) else s.slot j := by
  unfold State.slot State.onSlot
  rw [State.die_onDie]
  by_cases hd : j / 4096 = i / 4096
  · rw [if_pos hd, hd]
    dsimp only
    rw [FMap.at_put]
    exact if_congr (by omega) rfl rfl
  · rw [if_neg hd, if_neg (by rintro rfl; exact hd rfl)]

/-- The slot kept for the retry of a lane given back (R281). -/
def State.freeLane (s : State) (k l : Nat) : State :=
  match ((s.group k).lane l).reserved with
  | some id => (s.onSlot id (fun _ => {})).onGroup k (fun g => g.onLane l (fun n => { n with reserved := none }))
  | none => s

theorem State.freeReserved_eq (s : State) (k : Nat) (m : LaneSet) : s.freeReserved k m = (lanesIn m).foldl (fun s l => s.freeLane k l) s := rfl

/-- The slots kept for the retries of some lanes of a group given back: only these slots, and the lanes that name them, change. -/
structure Freed (k : Nat) (ls : List Nat) (s t : State) : Prop where
  world : ∃ gs di, t = { s with groups := gs, dies := di }
  other : ∀ j, j ≠ k → t.group j = s.group j
  group : ∃ m, t.group k = { s.group k with lanes := m }
  lane : ∀ j, (t.group k).lane j = if j ∈ ls then { (s.group k).lane j with reserved := none } else (s.group k).lane j
  slot : ∀ id, t.slot id = if ls.any (fun l => ((s.group k).lane l).reserved == some id) then {} else s.slot id

theorem Lane.unreserved_eq {n : Lane} (h : n.reserved = none) : { n with reserved := none } = n := by rw [← h]

theorem State.freeLane_freed (s : State) (k l : Nat) : Freed k [l] s (s.freeLane k l) := by
  unfold State.freeLane
  cases hr : ((s.group k).lane l).reserved with
  | none =>
    refine ⟨⟨_, _, rfl⟩, fun _ _ => rfl, ⟨_, rfl⟩, fun j => ?_, fun id => by simp [hr]⟩
    split_ifs with hj
    · rw [List.mem_singleton.1 hj, Lane.unreserved_eq hr]
    · rfl
  | some id =>
    have hgroup : ((s.onSlot id (fun _ => {})).onGroup k (fun g => g.onLane l (fun n => { n with reserved := none }))).group k =
        (s.group k).onLane l (fun n => { n with reserved := none }) := State.group_onGroup_self _ _ _
    refine ⟨⟨_, _, rfl⟩, fun j hj => ?_, ?_, fun j => ?_, fun i => ?_⟩
    · rw [State.group_onGroup, if_neg hj]; rfl
    · exact ⟨_, hgroup⟩
    · rw [hgroup, Group.lane_onLane]
      simp only [List.mem_singleton]
      split_ifs with hj
      · rw [hj]
      · rfl
    · change (s.onSlot id (fun _ => {})).slot i = _
      rw [State.slot_onSlot]
      simp only [List.any_cons, List.any_nil, Bool.or_false, hr, beq_iff_eq, Option.some.injEq]
      exact if_congr eq_comm rfl rfl

theorem Freed.trans {k : Nat} {l : Nat} {ls : List Nat} {s t u : State} (h : Freed k [l] s t) (h' : Freed k ls t u) : Freed k (l :: ls) s u := by
  obtain ⟨⟨gs, di, hw⟩, ho, ⟨m, hg⟩, hl, hs⟩ := h
  obtain ⟨⟨gs', di', hw'⟩, ho', ⟨m', hg'⟩, hl', hs'⟩ := h'
  refine ⟨⟨gs', di', by rw [hw', hw]⟩, fun j hj => (ho' j hj).trans (ho j hj), ⟨m', by rw [hg', hg]⟩, fun j => ?_, fun id => ?_⟩
  · rw [hl', hl]
    by_cases h1 : j = l <;> by_cases h2 : j ∈ ls <;> simp [h1, h2]
  · rw [hs', hs, List.any_cons, List.any_cons, List.any_nil, Bool.or_false]
    by_cases hid : (((s.group k).lane l).reserved == some id) = true
    · simp only [hid, Bool.true_or, if_true, ite_self]
    · have hany : ls.any (fun j => ((t.group k).lane j).reserved == some id) = ls.any (fun j => ((s.group k).lane j).reserved == some id) := by
        refine congrArg ls.any (funext fun j => ?_)
        rw [hl]
        split_ifs with hj
        · rw [List.mem_singleton.1 hj, Bool.eq_false_iff.2 hid]; rfl
        · rfl
      rw [hany, Bool.eq_false_iff.2 hid, Bool.false_or, if_neg Bool.false_ne_true]

theorem State.freeReserved_freed (s : State) (k : Nat) (m : LaneSet) : Freed k (lanesIn m) s (s.freeReserved k m) := by
  rw [State.freeReserved_eq]
  generalize lanesIn m = ls
  induction ls generalizing s with
  | nil => exact ⟨⟨_, _, rfl⟩, fun _ _ => rfl, ⟨_, rfl⟩, fun _ => by simp, fun _ => by simp⟩
  | cons l ls ih => exact (s.freeLane_freed k l).trans (ih _)

/-! ### EXIT -/

/-- The active lanes of the issuing group exited, the slots kept for their retries given back, and the watchdog count reset (R98, R281, R350). -/
def State.exitLanes (s : State) : State :=
  (((s.freeReserved s.cur s.me.run.act).kick s.me.team).onMe (fun g =>
    { g.mapLanes g.run.act (fun _ n => { n with cond := .exited, place := .none }) with run := { g.run with moved := true } })).advance 1 1

theorem execExit_eq (s : State) : execExit s = .next (
    if s.me.regionSet s.me.run.act != 0 then s.trapHere 0x50 5
    else if s.myTeam.rlevel ≠ 0 then s.trapHere 0x60 2
    else ((((s.exitLanes).settleBarriers s.me.team).settleGrid (s.exitLanes.team s.me.team).grid).settleRecovery s.me.team).grantSlots) := rfl

/-- Settles O29: the slots are given back one lane at a time, each change confined to the lane and the slot that it names. -/
theorem exitLeavesTheSets : Obligations.ExitLeavesTheSets := by
  unfold Obligations.ExitLeavesTheSets
  simp only [exec_exit, execExit_eq]
  refine ⟨fun s => ⟨fun h => ?_, fun h hl => ?_⟩, fun s h hl => ?_⟩
  · rw [if_pos (bne_iff_ne.2 (Group.regionSet_ne_zero h))]
  · rw [if_neg (by simp [Group.regionSet_eq_zero h]), if_pos (by simpa [Team.rlevel] using hl)]
  · rw [if_neg (by simp [Group.regionSet_eq_zero h]), if_neg (by simp [Team.rlevel, hl])]
    refine ⟨_, rfl, _, rfl, ?_⟩
    obtain ⟨⟨gs, di, hw⟩, hother, ⟨m, hgroup⟩, hlane, hslot⟩ := s.freeReserved_freed s.cur s.me.run.act
    unfold State.exitLanes
    generalize s.freeReserved s.cur s.me.run.act = w at *
    have hcur : w.cur = s.cur := by rw [hw]
    have hme : w.me = { s.me with lanes := m } := by unfold State.me; rw [hcur]; exact hgroup
    have hcluster : w.me.cluster = s.me.cluster := by rw [hme]
    have hslice : w.me.slice = s.me.slice := by rw [hme]
    have hmelane (l : Nat) : w.me.lane l = (w.group s.cur).lane l := by unfold State.me; rw [hcur]
    refine ⟨by rw [hw]; rfl, ?_, fun k => ?_, ?_, fun l h64 => ?_, fun id => ?_⟩
    · refine State.advance_slice 1 1 (fun k hk => ?_) hcur (by rw [hw]; rfl) ?_ ?_
      · rw [State.group_onMe, if_neg (by rw [State.kick_cur, hcur]; exact hk)]
        exact hother k hk
      · rw [State.me_onMe]; exact hcluster
      · rw [State.me_onMe]; exact hslice
    · rw [State.team_advance, State.team_onMe, State.team_kick, hw]
      split_ifs with hk
      · rw [hk]; rfl
      · rfl
    · rw [State.me_advance, State.me_onMe]
      exact congrArg (fun g : Group => { g with lanes := s.me.lanes, run := { g.run.after 1 with moved := true } }) hme
    · rw [State.me_advance, State.me_onMe]
      refine (w.me.lane_mapLanes w.me.run.act (fun _ n => { n with cond := .exited, place := .none }) h64).trans ?_
      rw [hmelane, hlane, hme]
      simp only [mem_lanesIn]
      split_ifs with hl
      · rfl
      · rfl
    · refine (hslot id).trans ?_
      rw [lanesIn, List.any_filter]
      rfl

/-! ### A change of the issuing group beside a word's issue -/

/-- The issuing group changed again with `f`. -/
theorem Moved.onMe {s v : State} {g g' : Group} {lane lane' : Nat → Lane} (h : Moved g lane s v) {f : Group → Group}
    (hg : { f v.me with lanes := s.me.lanes } = { g' with lanes := s.me.lanes }) (hl : ∀ l, l < 64 → (f v.me).lane l = lane' l) :
    Moved g' lane' s (v.onMe f) := by
  obtain ⟨hworld, ⟨hcluster, hslice, hgroup, hcur⟩, -, -⟩ := h
  refine ⟨hworld, ⟨hcluster, hslice, fun k hk => ?_, hcur⟩, ?_, ?_⟩
  · rw [State.group_onMe, if_neg (by rw [hcur]; exact hk)]
    exact hgroup k hk
  · rw [State.me_onMe]; exact hg
  · rw [State.me_onMe]; exact hl

/-! ### TRAP -/

theorem State.stopRun_cur (v : State) : v.stopRun v.cur = v.onMe (fun g => { g with run := { g.run with stopped := true } }) := rfl

theorem Moved.stopRun {s v : State} {g : Group} {lane : Nat → Lane} (h : Moved g lane s v) :
    Moved { g with run := { g.run with stopped := true } } lane s (v.stopRun v.cur) := by
  rw [State.stopRun_cur]
  exact h.onMe (congrArg (fun g : Group => { g with run := { g.run with stopped := true } }) h.group) h.lanes

/-- The trap registers of a cause set and its handler pending (R337). -/
def Group.trapped (x : TrapRegs) (resume : Option ResumePt) (g : Group) : Group :=
  { g with trap := x, trapPending := true, trapAt := resume, faultRegs := [] }

theorem Moved.trapped {s v : State} {g : Group} {lane : Nat → Lane} (h : Moved g lane s v) (x : TrapRegs) (resume : Option ResumePt) :
    Moved (g.trapped x resume) lane s (v.onMe (Group.trapped x resume)) :=
  h.onMe (congrArg (Group.trapped x resume) h.group) h.lanes

/-- A cause for which a handler is to run, raised by the issuing group (R337). -/
theorem State.raise_cur {v : State} {x : Trap} {resume : Option ResumePt} (hf : ¬ v.faultsLevel v.cur x) (hh : v.me.handler = false)
    (hn : (v.gridOf v.me).record.handler ≠ 0xFFFFFFFF) :
    v.raise v.cur x resume = (v.stopRun v.cur).onMe (Group.trapped x.fields resume) := by
  rw [v.raise_pending v.cur x resume hf hh hn, Trap.regs_eq_fields]
  rfl

/-- TRAP with a handler named and none running (R101, R337). -/
theorem execTrap_pending {s : State} (code : BitVec 16) (hh : s.me.handler = false) (hn : (s.gridOf s.me).record.handler ≠ 0xFFFFFFFF) :
    Gives (execTrap code s) (fun t => t.teams = s.teams ∧
      Moved { s.afterMove s.me.run.ends with
        run := { (s.afterMove s.me.run.ends).run with stopped := true }, trapPending := true, trapAt := none, faultRegs := []
        trap := { cause := BitVec.ofNat 32 (0x0E + s.me.run.idx % 16 * 2 ^ 16 + code.toNat % 2 ^ 12 * 2 ^ 20), pc := s.me.run.hdr
                  addr := code.zeroExtend 64, lanes := s.me.run.act } } (s.sentTo (fun _ => s.nextHdr)) s t) := by
  have hmoved : Moved (s.afterMove s.me.run.ends) (s.sentTo (fun _ => s.nextHdr)) s ((s.onMe (·.moveTo (fun _ => s.me.run.next))).advance 1 1) :=
    Moved.of_moveTo (f := id) rfl rfl rfl (fun _ => rfl)
  have hcur : State.cur ((s.onMe (·.moveTo (fun _ => s.me.run.next))).advance 1 1) = s.cur := rfl
  generalize hv : (s.onMe (·.moveTo (fun _ => s.me.run.next))).advance 1 1 = v at hmoved hcur
  have hgrid : v.gridOf v.me = s.gridOf s.me := by
    have hteam := congrArg Group.team hmoved.group
    change v.me.team = s.me.team at hteam
    unfold State.gridOf
    rw [hteam, ← hv]
    rfl
  have hh' : v.me.handler = false := by
    have e := congrArg Group.handler hmoved.group
    exact e.trans hh
  refine ⟨_, rfl, ?_⟩
  dsimp only
  rw [hv, ← hcur]
  have hx : Trap.fields
      { code := 0x0E, detail := code.toNat % 2 ^ 12, hdr := s.me.run.hdr, word := s.me.run.idx, lanes := s.me.run.act, addr := code.zeroExtend 64 } =
      { cause := BitVec.ofNat 32 (0x0E + s.me.run.idx % 16 * 2 ^ 16 + code.toNat % 2 ^ 12 * 2 ^ 20), pc := s.me.run.hdr
        addr := code.zeroExtend 64, lanes := s.me.run.act } := by
    simp [Trap.fields]
  rw [State.raise_cur (v.not_faultsLevel_of_excepted _ _ (.inl rfl) hh') hh' (by rw [hgrid]; exact hn), hx]
  refine ⟨by rw [← hv]; rfl, ?_⟩
  exact hmoved.stopRun.trapped _ none

/-! ### The return from a handler -/

/-- A register of a lane marked full with the value it has (R23). -/
def Lane.filled (n : Lane) (r : Nat) : Lane := { n with empty := n.empty &&& ~~~(1#72 <<< r) }

/-- Registers of a lane marked full. -/
def Lane.filledAll (n : Lane) (regs : List (Nat × Nat)) : Lane := regs.foldl (fun n p => n.filled p.2) n

theorem Lane.filledAll_same (n : Lane) (regs : List (Nat × Nat)) : (n.filledAll regs).cond = n.cond ∧ (n.filledAll regs).vpc = n.vpc := by
  unfold Lane.filledAll
  induction regs generalizing n with
  | nil => exact ⟨rfl, rfl⟩
  | cons p regs ih => exact ih (n.filled p.2)

/-- The registers that a handled fault left empty marked full (R23). -/
def Group.refilled (g : Group) (regs : List (Nat × Nat)) : Group := regs.foldl (fun g p => g.onLane p.1 (·.filled p.2)) g

theorem Group.refilled_same (g : Group) (regs : List (Nat × Nat)) (x : FMap Lane) : { g.refilled regs with lanes := x } = { g with lanes := x } := by
  unfold Group.refilled
  induction regs generalizing g with
  | nil => rfl
  | cons p regs ih => exact ih (g.onLane p.1 (·.filled p.2))

theorem Group.lane_refilled (g : Group) (regs : List (Nat × Nat)) (l : Nat) :
    (g.refilled regs).lane l = (g.lane l).filledAll (regs.filter (fun p => p.1 == l)) := by
  unfold Group.refilled Lane.filledAll
  induction regs generalizing g with
  | nil => rfl
  | cons p regs ih =>
    rw [List.foldl_cons, ih, Group.lane_onLane]
    by_cases hp : p.1 = l
    · rw [if_pos hp.symm, List.filter_cons_of_pos (by simpa using hp), List.foldl_cons, hp]
    · rw [if_neg (Ne.symm hp), List.filter_cons_of_neg (by simpa using hp)]

/-- The condition and the program counter of each lane decide the issue address and the lanes at an address (R194). -/
structure Group.SameLanes (g h : Group) : Prop where
  cond : ∀ l, (g.lane l).cond = (h.lane l).cond
  vpc : ∀ l, (g.lane l).vpc = (h.lane l).vpc

section
variable {g h : Group} (e : g.SameLanes h)
include e

theorem Group.SameLanes.issueAddr : g.issueAddr = h.issueAddr := by
  unfold Group.issueAddr Group.liveSet Lane.isLive
  simp only [e.cond, e.vpc]

theorem Group.SameLanes.lanesAt (a : Word) : g.lanesAt a = h.lanesAt a := by
  unfold Group.lanesAt Lane.isLive
  simp only [e.cond, e.vpc]

end

theorem Group.wake_same (g : Group) (m : LaneSet) (x : FMap Lane) : { g.wake m with lanes := x } = { g with lanes := x } := rfl

/-- What a return from a handler does wherever the group resumes: the registers are full, and the handler and its run end (R102). -/
def Group.returned (g : Group) : Group :=
  { g.refilled g.faultRegs with
    handler := false, faultRegs := [], hwait := .ready, hidx := 0, hstart := true, run := { (g.refilled g.faultRegs).run with ends := true, moved := true } }

/-- A return from a handler that leaves the resume points `rs`. -/
def Group.returnsTo (g : Group) (rs : List ResumePt) : Group := { g.returned with trapAt := none, resumes := rs }

/-- A lane that is still parked at the word of the handled deferred fault (R165). -/
def Group.stillParked (g : Group) (l : Nat) : Bool :=
  inSet g.trap.lanes l && decide ((g.lane l).vpc = g.trap.pc ∧ ((g.lane l).cond = .parked .deferred ∨ (g.lane l).cond = .parked .split))

/-- The resume points after a deferred fault (R165). -/
def Group.deferredResumes (g : Group) : List ResumePt :=
  if setOf g.stillParked = 0 then g.resumes
  else resumeAt g.trap.pc (g.trap.cause.toNat / 2 ^ 16 % 16) (setOf g.stillParked) .ready :: g.resumes

theorem Group.returnsTo_same (g : Group) (rs : List ResumePt) (x : FMap Lane) : { g.returnsTo rs with lanes := x } =
    { g with
      lanes := x, handler := false, faultRegs := [], hwait := .ready, hidx := 0, hstart := true, run := { g.run with ends := true, moved := true }
      trapAt := none, resumes := rs } :=
  congrArg (fun g : Group => { g with
    handler := false, faultRegs := [], hwait := .ready, hidx := 0, hstart := true, run := { g.run with ends := true, moved := true }
    trapAt := none, resumes := rs }) (g.refilled_same g.faultRegs x)

theorem Group.lane_returned (g : Group) (l : Nat) : g.returned.lane l = (g.lane l).filledAll (g.faultRegs.filter (fun p => p.1 == l)) :=
  g.lane_refilled g.faultRegs l

theorem Group.returned_sameLanes (g : Group) : g.returned.SameLanes g :=
  ⟨fun l => by rw [Group.lane_returned]; exact (Lane.filledAll_same _ _).1, fun l => by rw [Group.lane_returned]; exact (Lane.filledAll_same _ _).2⟩

theorem Group.returned_resumes (g : Group) : g.returned.resumes = g.resumes := by
  have e := congrArg Group.resumes (g.refilled_same g.faultRegs [])
  exact e

theorem Group.returned_trapAt (g : Group) : g.returned.trapAt = g.trapAt := by
  have e := congrArg Group.trapAt (g.refilled_same g.faultRegs [])
  exact e

/-- The issue address and the lanes there are still those of a stopped word (R102). -/
def Group.stillAt (g : Group) (r : ResumePt) : Bool := decide (g.issueAddr = some r.hdr ∧ g.lanesAt r.hdr = r.act ∧ r.idx ≠ 0)

/-- A return after a precise trap (R102). -/
theorem Group.trapReturn_precise {g : Group} (h : g.trap.cause.getLsbD 8 = false) :
    g.trapReturn = g.returnsTo ((g.trapAt.filter g.stillAt).toList ++ g.resumes) := by
  have hat := g.returned_trapAt
  have haddr := g.returned_sameLanes.issueAddr
  have hlanes := g.returned_sameLanes.lanesAt
  rw [← g.returned_resumes]
  unfold Group.trapReturn
  dsimp only
  rw [if_neg (Bool.eq_false_iff.1 h)]
  split
  case h_1 r a hr ha =>
    replace hr : g.trapAt = some r := hat.symm.trans hr
    replace ha : g.issueAddr = some a := haddr.symm.trans ha
    have hc : (r.hdr = a ∧ g.returned.lanesAt a = r.act ∧ r.idx ≠ 0) ↔ g.stillAt r = true := by
      rw [Group.stillAt, ha, hlanes, decide_eq_true_eq, Option.some_inj, eq_comm (a := a)]
      exact and_congr_right (fun e => by rw [e])
    refine (if_congr hc rfl rfl).trans ?_
    rw [hr]
    unfold Group.returnsTo
    split_ifs with hs
    · rw [Option.filter_some_pos hs]; rfl
    · rw [Option.filter_some_neg (Bool.eq_false_iff.2 hs)]; rfl
  case h_2 hnone =>
    have hnot : g.trapAt.filter g.stillAt = none := by
      rw [Option.filter_eq_none_iff]
      intro r hr hs
      simp only [Group.stillAt, decide_eq_true_eq] at hs
      exact hnone r r.hdr (hat.trans hr) (haddr.trans hs.1)
    rw [hnot]
    rfl

/-- The lanes `m` of the deferred fault in `tr` resume at its word, if there are any (R165). -/
def Group.resumesAt (g : Group) (tr : TrapRegs) (m : LaneSet) : Group :=
  let g := g.wake m
  if m = 0 then { g with trapAt := none }
  else { g with trapAt := none, resumes := resumeAt tr.pc (tr.cause.toNat / 2 ^ 16 % 16) m .ready :: g.resumes }

/-- A return after a deferred fault (R165). -/
theorem Group.trapReturn_deferred {g : Group} (h : g.trap.cause.getLsbD 8 = true) :
    g.trapReturn = (g.returnsTo g.deferredResumes).wake (setOf g.stillParked) := by
  calc g.trapReturn
    _ = g.returned.resumesAt g.trap (setOf (fun l => inSet g.trap.lanes l && (g.returned.lane l).vpc == g.trap.pc &&
          ((g.returned.lane l).cond == .parked .deferred || (g.returned.lane l).cond == .parked .split))) := if_pos h
    _ = g.returned.resumesAt g.trap (setOf g.stillParked) := by
      congr 2
      funext l
      rw [Bool.eq_iff_iff, g.returned_sameLanes.cond, g.returned_sameLanes.vpc]
      simp [Group.stillParked, and_assoc]
    _ = (g.returnsTo g.deferredResumes).wake (setOf g.stillParked) := by
      unfold Group.resumesAt Group.returnsTo Group.deferredResumes
      rw [← g.returned_resumes]
      dsimp only
      split_ifs <;> rfl

/-- The issuing group as TRET finds it in a handler: registers with a producer in flight are not to be marked full (R102). -/
def State.returning (s : State) : Group :=
  { s.me with run := s.me.run.after 1, faultRegs := s.me.faultRegs.filter (fun p => !s.inFlight s.cur p.1 p.2) }

/-- A lane of the issuing group once the registers that the handled fault left empty are full (R102, R23). -/
def State.fullLane (s : State) (l : Nat) : Lane := (s.me.lane l).filledAll (s.returning.faultRegs.filter (fun p => p.1 == l))

/-- The issuing group after a return that leaves the resume points `rs` (R102). -/
def State.afterReturn (s : State) (rs : List ResumePt) : Group :=
  { s.afterMove true with handler := false, faultRegs := [], hwait := .ready, hidx := 0, hstart := true, trapAt := none, resumes := rs }

theorem State.returning_returnsTo (s : State) (rs : List ResumePt) (x : FMap Lane) :
    { s.returning.returnsTo rs with lanes := x } = { s.afterReturn rs with lanes := x } :=
  s.returning.returnsTo_same rs x

theorem State.lane_returning (s : State) (rs : List ResumePt) (l : Nat) : (s.returning.returnsTo rs).lane l = s.fullLane l :=
  s.returning.lane_returned l

section
variable {s : State}

/-- TRET in a handler changes the issuing group alone (R102). -/
theorem execTret_moved (hh : s.me.run.handler = true) {rs : List ResumePt} {lane : Nat → Lane}
    (hg : { s.returning.trapReturn with lanes := s.me.lanes } = { s.afterReturn rs with lanes := s.me.lanes })
    (hl : ∀ l, l < 64 → s.returning.trapReturn.lane l = lane l) :
    Gives (execTret s) (fun t => t.teams = s.teams ∧ Moved (s.afterReturn rs) lane s t) := by
  have hissue : Moved { s.me with run := s.me.run.after 1 } s.sameLanes s (s.advance 1 1) :=
    Moved.of_advance rfl rfl rfl (fun _ _ => rfl) rfl rfl rfl (fun _ _ => rfl)
  have hme : (s.advance 1 1).me = { s.me with run := s.me.run.after 1 } := State.me_advance s 1 1
  refine ⟨_, congrArg Host.Outcome.next (if_neg (by simp [hh])), rfl, hissue.onMe ?_ ?_⟩
  · rw [hme]; exact hg
  · rw [hme]; exact hl

theorem execTret_precise (hh : s.me.run.handler = true) (hd : s.me.trap.cause.getLsbD 8 = false) {kept : Option ResumePt}
    (hk : s.me.trapAt.filter s.me.stillAt = kept) :
    Gives (execTret s) (fun t => t.teams = s.teams ∧ Moved (s.afterReturn (kept.toList ++ s.me.resumes)) s.fullLane s t) := by
  subst hk
  have hret : s.returning.trapReturn = s.returning.returnsTo ((s.me.trapAt.filter s.me.stillAt).toList ++ s.me.resumes) := Group.trapReturn_precise hd
  refine execTret_moved hh ?_ (fun l _ => ?_)
  · rw [hret]; exact s.returning_returnsTo _ _
  · rw [hret]; exact s.lane_returning _ _

theorem execTret_deferred (hh : s.me.run.handler = true) (hd : s.me.trap.cause.getLsbD 8 = true) :
    Gives (execTret s) (fun t => t.teams = s.teams ∧ Moved (s.afterReturn s.me.deferredResumes)
      (fun l => if s.me.stillParked l then { s.fullLane l with cond := .live, place := .none } else s.fullLane l) s t) := by
  have hret : s.returning.trapReturn = (s.returning.returnsTo s.me.deferredResumes).wake (setOf s.me.stillParked) := Group.trapReturn_deferred hd
  refine execTret_moved hh ?_ (fun l h64 => ?_)
  · rw [hret]; exact (Group.wake_same _ _ _).trans (s.returning_returnsTo _ _)
  · rw [hret]
    refine (Group.lane_mapLanes _ _ _ h64).trans ?_
    rw [inSet_setOf, decide_eq_true h64, Bool.true_and, State.lane_returning]

end

/-- Settles O40: TRAP is a move of its lanes and a pending cause; TRET fills registers, ends the handler, and leaves the resume points of its kind of fault. -/
theorem trapAndReturn : Obligations.TrapAndReturn := by
  unfold Obligations.TrapAndReturn
  simp only [exec_trap, exec_tret]
  refine ⟨fun s code hh hn => execTrap_pending code hh hn, fun s => ⟨fun hh => ?_, fun hh => ?_⟩⟩
  · refine ⟨fun hd hnone => ?_, fun r hd hr hidx haddr hact => ?_, fun r hd hr hnot => ?_, fun hd hsome => ?_, fun hd hall => ?_⟩
    · exact execTret_precise hh hd (kept := none) (by rw [hnone]; rfl)
    · have hs : s.me.stillAt r = true := decide_eq_true ⟨haddr, hact, hidx⟩
      exact execTret_precise hh hd (kept := some r) (by rw [hr, Option.filter_some_pos hs])
    · have hs : s.me.stillAt r = false := decide_eq_false (fun ⟨haddr, hact, hidx⟩ => hnot.elim hidx (fun hne => hne _ haddr ⟨rfl, hact⟩))
      exact execTret_precise hh hd (kept := none) (by rw [hr, Option.filter_some_neg hs])
    · have h := execTret_deferred hh hd
      have hne : setOf s.me.stillParked ≠ 0 := setOf_ne_zero hsome
      rw [Group.deferredResumes, if_neg hne] at h
      exact h
    · have h := execTret_deferred hh hd
      have hz : setOf s.me.stillParked = 0 := setOf_eq_zero hall
      rw [Group.deferredResumes, if_pos hz] at h
      obtain ⟨t, ht, hteams, hmoved⟩ := h
      exact ⟨t, ht, hteams, hmoved.world, hmoved.slice, hmoved.group, fun l hl => (hmoved.lanes l hl).trans (if_neg (Bool.eq_false_iff.1 (hall l hl)))⟩
  · exact congrArg Host.Outcome.next (if_pos (by simp [hh]))

end Sys2Proof.Machine
end

