-- ==== Sys2Proof/Proofs/VectorValues.lean ====
section
/-! SUPPORT. The functions of words that vector words compute, in the terms of the spec: counts and saturation (R107), I8 products (R111), sign bits (R109),
F32 fields and classes (R44, R46, R114), merges (R113), quotients (R125). -/
namespace Sys2Proof.Machine

theorem satWord_eq (i : Int) : satWord i = BitVec.ofInt 32 (max (-2 ^ 31) (min (2 ^ 31 - 1) i)) := by
  have h : clampInt (-(2 ^ 31), 2 ^ 31 - 1) i = max (-2 ^ 31) (min (2 ^ 31 - 1) i) := by
    unfold clampInt
    split_ifs <;> omega
  rw [satWord, h]

theorem leadingZeros_zero (n : Nat) : leadingZeros 0 n = n := by
  induction n with
  | zero => rfl
  | succ n ih => simpa [leadingZeros] using ih

/-- The zeros above the highest one bit `k`. -/
theorem leadingZeros_of_highest {x : Word} {k n : Nat} (hk : x.getLsbD k = true) (hz : ∀ i, k < i → x.getLsbD i = false) (hn : k < n) :
    leadingZeros x n = n - 1 - k := by
  induction n with
  | zero => omega
  | succ n ih =>
    rcases Nat.lt_succ_iff_lt_or_eq.1 hn with hlt | rfl
    · rw [leadingZeros, hz n hlt, ih hlt]
      simp only [Bool.false_eq_true, if_false]
      omega
    · simp [leadingZeros, hk]

/-- VCLZ's count by the logarithm of the word (R107). -/
theorem leadingZeros_eq (x : Word) :
    BitVec.ofNat 32 (leadingZeros x 32) = if x = 0 then 32 else BitVec.ofNat 32 (31 - Nat.log2 x.toNat) := by
  split_ifs with h
  · rw [h, leadingZeros_zero]; rfl
  · have h0 : x.toNat ≠ 0 := fun hx => h (BitVec.eq_of_toNat_eq hx)
    have hk : x.getLsbD (Nat.log2 x.toNat) = true := Nat.testBit_log2 h0
    rw [leadingZeros_of_highest hk (fun i hi => Nat.testBit_lt_two_pow ((Nat.log2_lt h0).1 hi)) (BitVec.lt_of_getLsbD hk)]

/-- VPOPC's count as a list of bit numbers (R107). -/
theorem oneBits_eq (x : Word) (n : Nat) : oneBits x n = ((List.range n).filter (fun i => x.getLsbD i)).length := by
  induction n with
  | zero => rfl
  | succ n ih =>
    rw [oneBits, ih, List.range_succ, List.filter_append, List.length_append, Nat.add_comm]
    cases h : x.getLsbD n <;> simp [h]

/-- VIABS's corner is the one negative number without a counterpart (R107). -/
theorem satWord_natAbs (x : Word) :
    satWord x.toInt.natAbs = if x = 0x80000000 then 0x7FFFFFFF else if x.toInt < 0 then -x else x := by
  have hlo : -2 ^ 31 ≤ x.toInt := x.le_toInt
  have hhi : x.toInt < 2 ^ 31 := x.toInt_lt
  rw [satWord_eq]
  split_ifs with hmin hneg
  · rw [hmin]; decide
  · have hne : x.toInt ≠ -2 ^ 31 := fun h => hmin (BitVec.eq_of_toInt_eq h)
    rw [show max (-2 ^ 31) (min (2 ^ 31 - 1) (x.toInt.natAbs : Int)) = -x.toInt by omega, BitVec.ofInt_neg, BitVec.ofInt_toInt]
  · rw [show max (-2 ^ 31) (min (2 ^ 31 - 1) (x.toInt.natAbs : Int)) = x.toInt by omega, BitVec.ofInt_toInt]

theorem rotateLeft_shamt (x y : Word) : x.rotateLeft (shamt y) = x <<< (y.toNat % 32) ||| x >>> (32 - y.toNat % 32) := by
  rw [BitVec.rotateLeft_def, shamt, Nat.mod_mod]

/-- Element j of an I8 word (R45, R111). -/
theorem intOfBits_i8 (x : Word) (j : Nat) : intOfBits 12 (elemOf 12 x j) = (x.extractLsb' (8 * j) 8).toInt := by
  have hv : (x.extractLsb' (8 * j) 8).toNat = elemOf 12 x j := by
    rw [BitVec.extractLsb'_toNat, Nat.shiftRight_eq_div_pow]; rfl
  have hlt := (x.extractLsb' (8 * j) 8).isLt
  rw [hv] at hlt
  rw [BitVec.toInt_eq_toNat_cond, hv]
  have hsigned (n : Nat) : intOfBits 12 n =
      if decide (2 ^ 7 ≤ n % 2 ^ 8) = true then ((n % 2 ^ 8 : Nat) : Int) - (2 ^ 8 : Nat) else ((n % 2 ^ 8 : Nat) : Int) := rfl
  simp only [hsigned, decide_eq_true_eq]
  split_ifs <;> omega

/-- VDOT4.I8's sum, the products taken in words (R111). -/
theorem dot4_eq (x y : Word) :
    let byte (x : Word) (j : Nat) : Word := (x.extractLsb' (8 * j) 8).signExtend 32
    dot4 x y = byte x 0 * byte y 0 + byte x 1 * byte y 1 + byte x 2 * byte y 2 + byte x 3 * byte y 3 := by
  have term (j : Nat) : BitVec.ofInt 32 (intOfBits 12 (elemOf 12 x j) * intOfBits 12 (elemOf 12 y j)) =
      (x.extractLsb' (8 * j) 8).signExtend 32 * (y.extractLsb' (8 * j) 8).signExtend 32 := by
    rw [intOfBits_i8, intOfBits_i8, BitVec.ofInt_mul]; rfl
  simp only [dot4, List.foldl_cons, List.foldl_nil, term, zero_add]

/-! ### Sign bits -/

theorem getLsbD_magnitude (i : Nat) : (0x7FFFFFFF#32).getLsbD i = decide (i < 31) := Nat.testBit_two_pow_sub_one 31 i

theorem getLsbD_sign (i : Nat) : (0x80000000#32).getLsbD i = decide (31 = i) := Nat.testBit_two_pow (n := 31) (m := i)

/-- A word told by its sign bit and the bits below. -/
theorem eq_sign_append {x : Word} {b : BitVec 1} {m : BitVec 31} (hb : x.getLsbD 31 = b.getLsbD 0) (hm : ∀ i, i < 31 → x.getLsbD i = m.getLsbD i) :
    x = b ++ m := by
  apply BitVec.eq_of_getLsbD_eq
  intro i hi
  rw [BitVec.getLsbD_append]
  split_ifs with h
  · exact hm i h
  · rw [show i = 31 by omega]; exact hb

theorem and_magnitude (x : Word) : x &&& 0x7FFFFFFF = 0#1 ++ x.extractLsb' 0 31 :=
  eq_sign_append (by simp) (fun i hi => by simp [getLsbD_magnitude, hi])

theorem xor_sign (x : Word) : x ^^^ 0x80000000 = ~~~(x.extractLsb' 31 1) ++ x.extractLsb' 0 31 :=
  eq_sign_append (by simp) (fun i hi => by simp [getLsbD_sign, hi, hi.ne'])

theorem magnitude_or_sign (x y : Word) : (x &&& 0x7FFFFFFF) ||| (y &&& 0x80000000) = y.extractLsb' 31 1 ++ x.extractLsb' 0 31 :=
  eq_sign_append (by simp) (fun i hi => by simp [getLsbD_magnitude, getLsbD_sign, hi, hi.ne'])

/-! ### Classes -/

theorem getLsbD_iff_div (x : Word) (i : Nat) : x.getLsbD i = (x.toNat / 2 ^ i % 2 == 1) := by
  rw [← BitVec.testBit_toNat, Nat.testBit_eq_decide_div_mod_eq, beq_eq_decide]

/-- An F32 value by its fields (R44, R46). -/
theorem asF32_eq (x : Word) : asF32 x =
    if x.toNat / 2 ^ 23 % 2 ^ 8 = 255 then (if x.toNat % 2 ^ 23 = 0 then .inf (x.getLsbD 31) else .nan (!x.getLsbD 22))
    else if x.toNat / 2 ^ 23 % 2 ^ 8 = 0 then .fin (x.getLsbD 31) (x.toNat % 2 ^ 23) (1 - 127 - 23)
    else .fin (x.getLsbD 31) (2 ^ 23 + x.toNat % 2 ^ 23) ((x.toNat / 2 ^ 23 % 2 ^ 8 : Nat) - 127 - 23) := by
  have hexp : x.toNat % 2 ^ 31 / 2 ^ 23 = x.toNat / 2 ^ 23 % 2 ^ 8 := by omega
  have hfrac : x.toNat % 2 ^ 31 % 2 ^ 23 = x.toNat % 2 ^ 23 := by omega
  have hquiet : (!x.getLsbD 22) = decide (x.toNat % 2 ^ 23 < 2 ^ 22) := by
    rw [getLsbD_iff_div, Bool.eq_iff_iff, decide_eq_true_eq, Bool.not_eq_true', beq_eq_false_iff_ne]
    omega
  rw [← hexp, ← hfrac, hquiet, ← hfrac, getLsbD_iff_div]
  rfl

section
variable {x : Word} {neg : Bool}

theorem fpClass_inf (h : asF32 x = .inf neg) : fpClass x = if neg then 2 else 9 := by
  unfold fpClass
  rw [h]
  cases neg <;> rfl

theorem fpClass_nan {signalling : Bool} (h : asF32 x = .nan signalling) : fpClass x = if signalling then 0 else 1 := by
  unfold fpClass
  rw [h]
  cases signalling <;> rfl

theorem fpClass_fin {n : Nat} {e : Int} (h : asF32 x = .fin neg n e) : fpClass x =
    if n = 0 then (if neg then 5 else 6) else if x.toNat / 2 ^ 23 % 2 ^ 8 = 0 then (if neg then 4 else 7) else if neg then 3 else 8 := by
  unfold fpClass
  rw [h]
  simp only [decide_eq_true_eq]

end

/-- The classes of VFCLASS by the fields of the word (R114). -/
theorem fpClass_eq (x : Word) :
    let e := x.toNat / 2 ^ 23 % 2 ^ 8
    let f := x.toNat % 2 ^ 23
    let neg := x.getLsbD 31
    fpClass x =
      if e = 255 then (if f = 0 then (if neg then 2 else 9) else if x.getLsbD 22 then 1 else 0)
      else if e = 0 then (if f = 0 then (if neg then 5 else 6) else if neg then 4 else 7)
      else if neg then 3 else 8 := by
  intro e f neg
  have hval := asF32_eq x
  by_cases he : e = 255
  · rw [if_pos he] at hval ⊢
    by_cases hf : f = 0
    · rw [if_pos hf] at hval ⊢
      exact fpClass_inf hval
    · rw [if_neg hf] at hval ⊢
      rw [fpClass_nan hval]
      cases x.getLsbD 22 <;> rfl
  · rw [if_neg he] at hval ⊢
    by_cases h0 : e = 0
    · rw [if_pos h0] at hval ⊢
      rw [fpClass_fin hval, if_pos h0]
    · rw [if_neg h0] at hval ⊢
      rw [fpClass_fin hval, if_neg (by omega), if_neg h0]

/-! ### Quotients and merges -/

theorem divWord_eq (st : BitVec 4) (p q : Word) : divWord st.toNat p q =
    if q = 0 then 0xFFFFFFFF else if st = 8 then BitVec.ofInt 32 (p.toInt.tdiv q.toInt) else BitVec.ofNat 32 (p.toNat / q.toNat) := by
  have h8 : st.toNat = 8 ↔ st = 8 := BitVec.toNat_inj (y := 8)
  simp only [divWord, h8]
  rw [BitVec.udiv_def]

theorem remWord_eq (st : BitVec 4) (p q : Word) : remWord st.toNat p q =
    if q = 0 then p else if st = 8 then BitVec.ofInt 32 (p.toInt.tmod q.toInt) else BitVec.ofNat 32 (p.toNat % q.toNat) := by
  have h8 : st.toNat = 8 ↔ st = 8 := BitVec.toNat_inj (y := 8)
  simp only [remWord, h8]
  rw [BitVec.umod_def]

/-- The merge by the code itself (R113). -/
theorem combine_eq (c : BitVec 2) (old new : Bool) :
    combine c old new = if c = 0 then new else if c = 1 then old && new else if c = 2 then old || new else !new := by
  match c with
  | 0 => rfl
  | 1 => rfl
  | 2 => rfl
  | 3 => rfl

end Sys2Proof.Machine
end

