-- ==== Sys2Proof/Proofs/VectorWords.lean ====
section
/-! SUPPORT. Vector words with one destination: classes VR, VI, VP and X (R105 to R125, R141). -/
namespace Sys2Proof.Machine

/-! ### One law for each shape of word -/

section
variable {s : State} {c : Col} {d a b : BitVec 7} {ea eb : Bool}

/-- A vector word with a short-latency result, its operands ready (R17, R105). -/
theorem State.vecWord_go {srcs : List (Nat × Bool)} (h : s.ready (srcs.map (·.1)) (destRegs d)) (n cost : Nat) (on : Group → Nat → Bool)
    (r : Group → Nat → Word × FpFlags) : Gives (s.vecWord srcs (destRegs d) n cost on (fun g l x => x.result d (r g l)))
      (Wrote n d.toNat (on s.me) (fun l => (r s.me l).1) (fun l => (r s.me l).2) s) :=
  s.vecResult_go (Group.gate_ready h) n cost d on r _ _

theorem vrBinary_go (h : s.ready [a.toNat, b.toNat] (destRegs d)) (f : Group → Nat → Word → Word → Word × FpFlags) :
    Gives (vrBinary c d a b ea eb f s) (Wrote 1 d.toNat (fun _ => true) (fun l => (f s.me l (s.me.src c l a.toNat) (s.me.src c l b.toNat)).1)
      (fun l => (f s.me l (s.me.src c l a.toNat) (s.me.src c l b.toNat)).2) s) :=
  State.vecWord_go (srcs := [(a.toNat, ea), (b.toNat, eb)]) h 1 _ always (fun g l => f g l (g.src c l a.toNat) (g.src c l b.toNat))

theorem vrTernary_go (h : s.ready [a.toNat, b.toNat, d.toNat] (destRegs d)) (f : Group → Nat → Word → Word → Word → Word × FpFlags) :
    Gives (vrTernary c d a b ea eb f s) (Wrote 1 d.toNat (fun _ => true)
      (fun l => (f s.me l (s.me.src c l a.toNat) (s.me.src c l b.toNat) (s.me.src c l d.toNat)).1)
      (fun l => (f s.me l (s.me.src c l a.toNat) (s.me.src c l b.toNat) (s.me.src c l d.toNat)).2) s) :=
  State.vecWord_go (srcs := [(a.toNat, ea), (b.toNat, eb), (d.toNat, false)]) h 1 _ always
    (fun g l => f g l (g.src c l a.toNat) (g.src c l b.toNat) (g.src c l d.toNat))

theorem vrUnary_go (h : s.ready [a.toNat] (destRegs d)) (f : Word → Word) :
    Gives (vrUnary c d a ea f s) (Wrote 1 d.toNat (fun _ => true) (fun l => f (s.me.src c l a.toNat)) (fun _ => 0) s) :=
  State.vecWord_go (srcs := [(a.toNat, ea)]) h 1 _ always (fun g l => (f (g.src c l a.toNat), 0))

theorem viWord_go (h : s.ready [d.toNat] (destRegs d)) (f : Group → Nat → Word → Word × FpFlags) :
    Gives (viWord d ea f s) (Wrote 1 d.toNat (fun _ => true) (fun l => (f s.me l (s.me.src .int l d.toNat)).1)
      (fun l => (f s.me l (s.me.src .int l d.toNat)).2) s) :=
  State.vecWord_go (srcs := [(d.toNat, ea)]) h 1 _ always (fun g l => f g l (g.src .int l d.toNat))

theorem viConst_go (h : s.ready [] (destRegs d)) (f : Nat → Word) :
    Gives (viConst d f s) (Wrote 1 d.toNat (fun _ => true) f (fun _ => 0) s) :=
  State.vecWord_go (srcs := []) h 1 _ always (fun _ l => (f l, 0))

theorem vpCompare_go {p : BitVec 5} {m : BitVec 2} (hp : p.toNat < 24) (h : s.ready [a.toNat, b.toNat] []) (f : Word → Word → Bool × FpFlags) :
    Gives (vpCompare c p a b m ea eb f s) (WrotePred 1 p.toNat
      (fun l => combine m ((s.me.lane l).pred p.toNat) (f (s.me.src c l a.toNat) (s.me.src c l b.toNat)).1)
      (fun l => (f (s.me.src c l a.toNat) (s.me.src c l b.toNat)).2) s) :=
  s.vecPred_go (Group.gate_ready (srcs := [(a.toNat, ea), (b.toNat, eb)]) h) 1 _ p.toNat hp
    (fun g l n => (combine m (n.pred p.toNat) (f (g.src c l a.toNat) (g.src c l b.toNat)).1, (f (g.src c l a.toNat) (g.src c l b.toNat)).2)) [] true

theorem vpLogic_go {p : BitVec 5} {m : BitVec 2} (hp : p.toNat < 24) (f : Lane → Bool) :
    Gives (vpLogic p m f s) (WrotePred 1 p.toNat (fun l => combine m ((s.me.lane l).pred p.toNat) (f (s.me.lane l))) (fun _ => 0) s) := by
  have hready : s.ready [] [] := ⟨List.forall_mem_nil _, List.forall_mem_nil _⟩
  have h := s.vecPred_go (Group.gate_ready (srcs := []) hready) 1 (s.pa s.me) p.toNat hp (fun _ _ n => (combine m (n.pred p.toNat) (f n), 0)) [] true
  simp only [Lane.orFlags_zero] at h
  exact h

end

/-! ### Words of classes VR and VI -/

/-- Settles O1: every row is the shape of its class over one function of words, which the laws of `VectorValues` put into the terms of R107 and R111. -/
theorem vectorIntegerWords : Obligations.VectorIntegerWords := by
  unfold Obligations.VectorIntegerWords
  refine ⟨fun s d a b ea eb h => ?_, fun s d a ea eb h => ?_, fun s d a b ea eb h => ?_⟩
  · simp only [exec_viadd, exec_visub, exec_viadds, exec_visubs, exec_vimul, exec_vimulh, exec_vumulh, exec_vimin, exec_vimax, exec_vumin, exec_vumax,
      exec_vand, exec_vor, exec_vxor, exec_vandn, exec_vshl, exec_vshr, exec_vsar, exec_vrol, ← satWord_eq, ← minS_eq, ← maxS_eq, ← minU_eq,
      ← maxU_eq, ← rotateLeft_shamt]
    and_intros <;> exact vrBinary_go h _
  · simp only [exec_vclz, exec_vpopc, exec_vbrev, exec_viabs, exec_vmov, ← leadingZeros_eq, ← oneBits_eq, ← satWord_natAbs]
    and_intros <;> exact vrUnary_go h _
  · simp only [exec_vimac, exec_vdot4I8, ← dot4_eq]
    and_intros <;> exact vrTernary_go h _

/-- Settles O2: every row is the shape of its class over the exact result and its one rounding; the sign words of R109 put a sign bit over a magnitude. -/
theorem vectorFloatAndPackedWords : Obligations.VectorFloatAndPackedWords := by
  unfold Obligations.VectorFloatAndPackedWords
  refine ⟨⟨fun s d a b ea eb h => ?_, fun s d a ea eb h => ?_, fun s d a b ea eb h => ?_⟩, fun s d a b ea eb => ⟨fun h => ?_, fun h => ?_⟩⟩
  · simp only [exec_vfadd, exec_vfsub, exec_vfmul, exec_vfmin, exec_vfmax, exec_vfcopysign, ← magnitude_or_sign]
    and_intros <;> exact vrBinary_go h _
  · simp only [exec_vfabs, exec_vfneg, ← and_magnitude, ← xor_sign]
    and_intros <;> exact vrUnary_go h _
  · simp only [exec_vfma, exec_vfnma, exec_vdot2Bf]
    and_intros <;> exact vrTernary_go h _
  · simp only [exec_vhaddBf, exec_vhmulBf, exec_vhaddH, exec_vhmulH]
    and_intros <;> exact vrBinary_go h _
  · simp only [exec_vhfmaBf, exec_vhfmaH]
    and_intros <;> exact vrTernary_go h _

/-- Settles O3: every row that reads D is `viWord` of its function, the other three are `viConst` of theirs. -/
theorem vectorImmediateWords : Obligations.VectorImmediateWords := by
  unfold Obligations.VectorImmediateWords
  refine ⟨fun s d e imm sh h => ?_, fun s d e imm h => ?_, fun s d imm h => ?_⟩
  · simp only [exec_viaddi, exec_vandi, exec_vori, exec_vxori, exec_vmovhi, exec_vshli, exec_vshri, exec_vsari, exec_vimuli]
    and_intros <;> exact viWord_go h _
  · simp only [exec_vfaddi, exec_vfmuli]
    and_intros <;> exact viWord_go h _
  · simp only [exec_vmovi, exec_vmovfi, exec_vlanei]
    and_intros <;> exact viConst_go h _

/-! ### Words of class VP -/

/-- Settles O4: every row is `vpCompare` of its bit and its flag, merged by the code itself; the classes are those of the fields of the word. -/
theorem vectorCompareWords : Obligations.VectorCompareWords := by
  unfold Obligations.VectorCompareWords
  refine ⟨fun s p a b c ea eb hp h => ?_, fpClass_eq⟩
  have hne (x y : Word) : decide (x ≠ y) = (x != y) := decide_not
  simp only [exec_vcmpEq, exec_vcmpNe, exec_vcmpLt, exec_vcmpLe, exec_vcmpGt, exec_vcmpGe, exec_vcmpLtu, exec_vcmpLeu, exec_vcmpGtu, exec_vcmpGeu,
    exec_vfcmpEq, exec_vfcmpNe, exec_vfcmpLt, exec_vfcmpLe, exec_vfcmpUn, exec_vfclass, exec_vtest, ← combine_eq, hne]
  and_intros <;> exact vpCompare_go hp h _

/-- Settles O5: every row is `vpLogic` of its function of the predicates as they stood. -/
theorem predicateLogicWords : Obligations.PredicateLogicWords := by
  unfold Obligations.PredicateLogicWords
  intro s p q r c hp
  simp only [exec_pand, exec_por, exec_pxor, exec_pandn, exec_pnot, exec_pmov, exec_pset, exec_pclr, ← combine_eq]
  and_intros <;> exact vpLogic_go hp _

/-! ### Words of class X -/

section
variable {s : State} {d a b c : BitVec 7} {ea eb neg : Bool} {pg : BitVec 5}

/-- A guarded word with a short-latency result (R17, R105). -/
theorem State.guarded_go {srcs : List (Nat × Bool)} (h : s.ready (srcs.map (·.1)) (destRegs d)) (cost : Nat) (r : Group → Nat → Word × FpFlags) :
    Gives (s.vecWord srcs (destRegs d) 2 cost (guarded pg neg) (fun g l x => x.result d (r g l)))
      (Wrote 2 d.toNat (fun l => (s.me.lane l).pred pg.toNat != neg) (fun l => (r s.me l).1) (fun l => (r s.me l).2) s) :=
  State.vecWord_go h 2 cost (guarded pg neg) r

/-- A guarded word of two integer sources that raises no flag (R124, R125, R141). -/
theorem State.guardedBinary_go (h : s.ready [a.toNat, b.toNat] (destRegs d)) (cost : Nat) (f : Nat → Word → Word → Word) :
    Gives (s.vecWord [(a.toNat, ea), (b.toNat, eb)] (destRegs d) 2 cost (guarded pg neg)
        (fun g l n => n.result d (f l (g.src .int l a.toNat) (g.src .int l b.toNat), 0)))
      (Wrote 2 d.toNat (fun l => (s.me.lane l).pred pg.toNat != neg) (fun l => f l (s.me.src .int l a.toNat) (s.me.src .int l b.toNat)) (fun _ => 0) s) :=
  State.guarded_go (srcs := [(a.toNat, ea), (b.toNat, eb)]) h cost (fun g l => (f l (g.src .int l a.toNat) (g.src .int l b.toNat), 0))

/-- VSEL writes every active lane, of A or of B as its predicate says (R118). -/
theorem execVsel_go (h : s.ready [a.toNat, b.toNat] (destRegs d)) :
    Gives (execVsel d a b ea eb pg neg s) (Wrote 2 d.toNat (fun _ => true)
      (fun l => if (s.me.lane l).pred pg.toNat != neg then s.me.src .int l a.toNat else s.me.src .int l b.toNat) (fun _ => 0) s) := by
  obtain ⟨t, ht, hframe, hlanes⟩ := s.vecGated_go (Group.gate_ready (srcs := [(a.toNat, ea), (b.toNat, eb)]) h) 2 (s.pa s.me) always
    (fun g l n => n.result d (if n.guard pg neg then g.src .int l a.toNat else g.src .int l b.toNat, 0)) (destRegs d) false
  refine ⟨t, ht, hframe, fun l hact _ => ?_, fun l h64 hmiss => (hlanes l h64).trans (if_neg hmiss)⟩
  rw [(hlanes l (inSet_lt hact)).trans (if_pos ⟨hact, rfl⟩)]
  exact Lane.result_law _ _ (_, 0)

end

/-- Settles O6: every row but VSEL is one guarded word with a short-latency result; VSEL writes every active lane. -/
theorem extendedVectorWords : Obligations.ExtendedVectorWords := by
  unfold Obligations.ExtendedVectorWords
  intro s d a b c ea eb pg neg rm st dt
  simp only [exec_vfma3, exec_vbfi, exec_vsel, exec_vbfe, exec_vidiv, exec_virem, exec_vrand, ← divWord_eq, ← remWord_eq]
  refine ⟨fun h => ⟨?_, ?_⟩, fun h => ⟨execVsel_go h, fun sx => ?_, ?_, ?_, ?_⟩⟩
  · exact State.guarded_go (srcs := [(a.toNat, ea), (b.toNat, eb), (c.toNat, false)]) h _ (fun g l =>
      fma3Word st.toNat (RMode.ofCode rm.toNat) g.fpKey l (g.src (colOfType st) l a.toNat) (g.src (colOfType st) l b.toNat) (g.src (colOfType st) l c.toNat))
  · exact State.guarded_go (srcs := [(a.toNat, ea), (b.toNat, eb), (c.toNat, false)]) h _
      (fun g l => (insertField (g.src .int l a.toNat) (g.src .int l b.toNat) (g.src .int l c.toNat), 0))
  · exact State.guardedBinary_go h _ (fun _ => extractField sx)
  · exact State.guardedBinary_go h _ (fun _ => divWord st.toNat)
  · exact State.guardedBinary_go h _ (fun _ => remWord st.toNat)
  · exact State.guardedBinary_go h _ (fun l x y => nqmix x (y + BitVec.ofNat 32 l))

/-- A conversion word, D read where part of it is kept (R120). -/
theorem cvtOp_go {s : State} {d a : BitVec 7} {ea neg : Bool} {pg : BitVec 5} {dt : BitVec 4}
    (h : s.ready (a.toNat :: if typeWidth dt.toNat = 32 then [] else [d.toNat]) (destRegs d)) (rm : BitVec 3) (st : BitVec 4) (js jd : BitVec 3) :
    let r (l : Nat) := cvtWord st.toNat dt.toNat js.toNat jd.toNat (RMode.ofCode rm.toNat) s.me.fpKey l (s.me.src (colOfType st) l a.toNat)
      (s.me.src .int l d.toNat)
    Gives (cvtOp d a ea pg neg rm st dt js jd s)
      (Wrote 2 d.toNat (fun l => (s.me.lane l).pred pg.toNat != neg) (fun l => (r l).1) (fun l => (r l).2) s) :=
  State.guarded_go (by simpa [apply_ite] using h) _ (fun g l => cvtWord st.toNat dt.toNat js.toNat jd.toNat (RMode.ofCode rm.toNat) g.fpKey l
    (g.src (colOfType st) l a.toNat) (g.src .int l d.toNat))

/-- Settles O7: the three conversions are one guarded word, which reads D where part of it is kept; VPACK is another. -/
theorem conversionWords : Obligations.ConversionWords := by
  unfold Obligations.ConversionWords
  intro s d a b ea eb pg neg rm st dt js jd half
  simp only [exec_vcvt, exec_vcvti, exec_vcvtf, exec_vpack]
  refine ⟨fun h => ⟨cvtOp_go h rm st js jd, cvtOp_go h rm st js jd, cvtOp_go h rm st js jd⟩, fun h => ?_⟩
  exact State.guarded_go (by simpa [apply_ite] using h) _ (fun g l => packWord st.toNat dt.toNat half.toNat (RMode.ofCode rm.toNat) g.fpKey l
    (g.src (colOfType st) l a.toNat) (g.src (colOfType st) l b.toNat) (g.src .int l d.toNat))

end Sys2Proof.Machine
end

