-- ==== Sys2Proof/Proofs/SpecialFunctions.lean ====
section
/-! SUPPORT. The special-function unit: the values of its functions at zeros, infinities and NaNs (R137), and what its words start (R19, R136, R138,
R140). -/
namespace Sys2Proof.Machine

/-! ### Special values -/

theorem nanF32_eq (invalid : Bool) : nanF32 invalid = ⟨0x7FC00000, if invalid then flagNV else 0⟩ := rfl

theorem infF32_eq (neg : Bool) (fl : FpFlags) : infF32 neg fl = ⟨if neg then 0xFF800000 else 0x7F800000, fl⟩ := by
  cases neg <;> rfl

theorem zeroF32_eq (neg : Bool) : zeroF32 neg = ⟨if neg then 0x80000000 else 0, 0⟩ := by
  cases neg <;> rfl

theorem FVal.exists_eq_nan {v : FVal} (h : v.isNan = true) : ∃ signalling, v = .nan signalling := by
  cases v with
  | nan signalling => exact ⟨signalling, rfl⟩
  | inf neg => cases h
  | fin neg n e => cases h

/-- Settles O10: each function is a split over the kinds of its argument's value, and the table of R137 names one kind after the other. -/
theorem specialFunctionSpecialValues : Obligations.SpecialFunctionSpecialValues := by
  unfold Obligations.SpecialFunctionSpecialValues
  intro nan inf zero a mode r16
  refine ⟨fun f hf hnan => ?_, fun neg h => ?_, fun neg e h => ?_, fun n e hn h => ?_⟩
  · obtain ⟨signalling, h⟩ := FVal.exists_eq_nan hnan
    have hquiet : f a = nanF32 signalling := by
      simp only [List.mem_cons, List.not_mem_nil, or_false] at hf
      rcases hf with rfl | rfl | rfl | rfl | rfl | rfl | rfl <;> simp only [rcpF32, rsqF32, sqrtF32, exp2F32, log2F32, trigF32, h]
    rw [hquiet, nanF32_eq, h]
    rfl
  · simp [rcpF32, rsqF32, sqrtF32, exp2F32, log2F32, trigF32, h, nanF32_eq, infF32_eq, zeroF32_eq, nan, inf, zero]
  · simp [rcpF32, rsqF32, sqrtF32, log2F32, trigF32, h, infF32_eq, zeroF32_eq, inf, zero]
  · simp [rsqF32, sqrtF32, log2F32, h, hn, nanF32_eq, nan]

/-! ### The frame of a committed group -/

/-- A word of `n` words that has moved nothing of its group but the lanes and the run (R29). -/
theorem Moved.vecFrame {s t : State} {n : Nat} {lane : Nat → Lane} (h : Moved { s.me with run := s.me.run.after n } lane s t)
    (hteams : TeamsButLogs s t) : VecFrame n s t :=
  ⟨h.world, h.slice, hteams, h.group⟩

/-- Lanes of the issuing group committed, and the issue of the word (R29). -/
theorem VecFrame.of_commit {s : State} {n c : Nat} {new : Group} {w : Nat → Writes} (h : { new with lanes := s.me.lanes } = s.me) :
    VecFrame n s ((s.commit s.cur new w).advance n c) ∧ ∀ l, l < 64 → ((s.commit s.cur new w).advance n c).me.lane l = new.lane l := by
  have hg : { new with lanes := s.me.lanes, run := new.run.after n } = { s.me with run := s.me.run.after n } :=
    congrArg (fun g : Group => { g with run := g.run.after n }) h
  obtain ⟨hteams, hmoved⟩ := Moved.of_commit (g := { s.me with run := s.me.run.after n }) (w := w) (c := c) hg rfl rfl (fun _ _ => rfl)
  exact ⟨hmoved.vecFrame hteams, hmoved.lanes⟩

theorem SameWorld.producers_eq {s t : State} (h : SameWorld s t) : t.producers = s.producers := by
  have hp := congrArg State.producers h
  exact hp

theorem SameWorld.fresh_eq {s t : State} (h : SameWorld s t) : t.fresh = s.fresh := by
  have hf := congrArg State.fresh h
  exact hf

theorem SameWorld.sameUnits {s t : State} (h : SameWorld s t) : t.sameUnits s = t := by
  unfold State.sameUnits
  rw [← h.producers_eq, ← h.fresh_eq]

/-! ### Words that start a producer -/

theorem Group.foldl_onLane_rest (F : Nat → Lane → Lane) (ls : List Nat) (lanes : FMap Lane) (g : Group) :
    { ls.foldl (fun g k => g.onLane k (F k)) g with lanes := lanes } = { g with lanes := lanes } := by
  induction ls generalizing g with
  | nil => rfl
  | cons k ks ih => exact ih _

/-- Lanes changed one after the other, each once. -/
theorem Group.lane_foldl_onLane (F : Nat → Lane → Lane) {ls : List Nat} (hn : ls.Nodup) (g : Group) (l : Nat) :
    (ls.foldl (fun g k => g.onLane k (F k)) g).lane l = if l ∈ ls then F l (g.lane l) else g.lane l := by
  induction ls generalizing g with
  | nil => rfl
  | cons k ks ih =>
    obtain ⟨hk, hks⟩ := List.nodup_cons.1 hn
    rw [List.foldl_cons, ih hks, Group.lane_onLane]
    by_cases hl : l = k
    · subst hl; simp [hk]
    · simp [hl]

/-- A producer started under the next free number (R19). -/
def State.withProducer (u : State) (p : Producer) : State := { u with producers := FMap.put u.producers u.fresh p, fresh := u.fresh + 1 }

theorem State.advance_withProducer (u : State) (p : Producer) (n c : Nat) : (u.withProducer p).advance n c = (u.advance n c).withProducer p := rfl

theorem VecFrame.withProducer {s t : State} {n : Nat} (h : VecFrame n s t) (p : Producer) : VecFrame n s ((t.withProducer p).sameUnits s) := by
  have hsame : (t.withProducer p).sameUnits s = t := h.world.sameUnits
  rw [hsame]
  exact h

/-- The active lanes for which a guarded word issues (R105). -/
def State.guardHolds (s : State) (pg : BitVec 5) (neg : Bool) (l : Nat) : Bool := inSet s.me.run.act l && ((s.me.lane l).pred pg.toNat != neg)

theorem State.filter_guarded (s : State) (pg : BitVec 5) (neg : Bool) :
    (lanesIn s.me.run.act).filter (guarded pg neg s.me) = (lanesIn s.me.run.act).filter (s.guardHolds pg neg) := by
  refine List.filter_congr (fun l hl => ?_)
  simp [State.guardHolds, (mem_lanesIn _ l).1 hl, guarded, Lane.guard]

theorem State.mem_filter_guardHolds {s : State} {pg : BitVec 5} {neg : Bool} {l : Nat} :
    l ∈ (lanesIn s.me.run.act).filter (s.guardHolds pg neg) ↔ s.guardHolds pg neg l = true := by
  simp only [List.mem_filter, mem_lanesIn, and_iff_right_iff_imp, State.guardHolds, Bool.and_eq_true]
  exact And.left

/-- What a word of the special-function unit leaves that gives `r l` to the active lanes whose guard holds (R136): in those lanes D is empty and the
flags are joined, and a producer holds the results; without such a lane there is no producer. -/
def State.SfuIssued (s : State) (d : BitVec 7) (pg : BitVec 5) (neg : Bool) (bank : Option Nat) (r : Nat → Rounded) (t : State) : Prop :=
  VecFrame 2 s (t.sameUnits s) ∧
  (∀ l, l < 64 → t.me.lane l = if s.guardHolds pg neg l then ((s.me.lane l).emptyReg d.toNat).orFlags (r l).flags else s.me.lane l) ∧
  (if (lanesIn s.me.run.act).any (s.guardHolds pg neg) then
    t.fresh = s.fresh + 1 ∧ (∀ k, k ≠ s.fresh → FMap.look t.producers k = FMap.look s.producers k) ∧
    FMap.look t.producers s.fresh = some
      { kind := .sfu, group := s.cur, bank := bank
        dests := ((lanesIn s.me.run.act).filter (s.guardHolds pg neg)).map (fun l => (l, d.toNat, BitVec.ofNat 32 (r l).bits)) }
  else t.fresh = s.fresh ∧ t.producers = s.producers)

/-- A word of the special-function unit whose gate is open (R136). -/
theorem State.sfuWord_go (s : State) {gt : Gate} (hg : gt = .go) (d : BitVec 7) (pg : BitVec 5) (neg : Bool) (cost : Nat) (bank : Option Nat)
    (f : Group → Nat → Rounded) : Gives (s.sfuWord gt d pg neg cost bank f) (s.SfuIssued d pg neg bank (f s.me)) := by
  subst hg
  let change (l : Nat) (n : Lane) : Lane := (n.emptyReg d.toNat).orFlags (f s.me l).flags
  let ls := (lanesIn s.me.run.act).filter (s.guardHolds pg neg)
  let p : Producer := { kind := .sfu, group := s.cur, dests := ls.map (fun l => (l, d.toNat, BitVec.ofNat 32 (f s.me l).bits)), bank := bank }
  obtain ⟨w, hw⟩ : ∃ w, s.sfuWord .go d pg neg cost bank f = .next (State.advance
      (let s1 := s.commit s.cur (ls.foldl (fun g l => g.onLane l (change l)) s.me) w
       if ls.isEmpty then s1 else s1.withProducer p) 2 cost) :=
    ⟨_, by unfold State.sfuWord; simp only [State.gated_go, State.filter_guarded, List.foldl_map, List.map_map, Function.comp_def]; rfl⟩
  refine ⟨_, hw, ?_⟩
  obtain ⟨hframe, hcommit⟩ := VecFrame.of_commit (n := 2) (c := cost) (w := w) (Group.foldl_onLane_rest change ls s.me.lanes s.me)
  generalize s.commit s.cur (ls.foldl (fun g l => g.onLane l (change l)) s.me) w = s1 at hframe hcommit
  have hlanes (l : Nat) (h64 : l < 64) : (s1.advance 2 cost).me.lane l = if s.guardHolds pg neg l then change l (s.me.lane l) else s.me.lane l := by
    rw [hcommit l h64, Group.lane_foldl_onLane change (ls := ls) ((List.nodup_range.filter _).filter _)]
    exact if_congr State.mem_filter_guardHolds rfl rfl
  have hfresh : (s1.advance 2 cost).fresh = s.fresh := hframe.world.fresh_eq
  have hprod : (s1.advance 2 cost).producers = s.producers := hframe.world.producers_eq
  unfold State.SfuIssued
  by_cases hany : (lanesIn s.me.run.act).any (s.guardHolds pg neg) = true
  · have hne : ls.isEmpty = false := by simpa [ls] using hany
    rw [hne, if_pos hany, if_neg (by decide), State.advance_withProducer]
    refine ⟨hframe.withProducer p, hlanes, congrArg (· + 1) hfresh, fun k hk => ?_, ?_⟩
    · rw [← hfresh] at hk
      exact (FMap.look_put_ne _ _ hk).trans (congrArg (FMap.look · k) hprod)
    · rw [← hfresh]
      exact FMap.look_put_self _ _ _
  · have he : ls.isEmpty = true := by simpa [ls] using hany
    rw [he, if_neg hany]
    exact ⟨hframe.world.sameUnits.symm ▸ hframe, hlanes, hfresh, hprod⟩

/-- A one-source word of the special-function unit, its operands full. -/
theorem sfuUnary_go {s : State} {d a : BitVec 7} (h : s.ready [a.toNat] (destRegs d)) (ea : Bool) (pg : BitVec 5) (neg : Bool) (slow : Nat)
    (f : Group → Nat → Word → Rounded) :
    Gives (sfuUnary d a ea pg neg slow f s) (s.SfuIssued d pg neg none (fun l => f s.me l (s.me.src .f32 l a.toNat))) :=
  s.sfuWord_go (Group.gate_ready (srcs := [(a.toNat, ea)]) h) d pg neg _ none (fun g l => f g l (g.src .f32 l a.toNat))

/-- VACT in a team that holds the activation banks (R138, R140). -/
theorem execVact_go {s : State} {d a : BitVec 7} (h : s.ready [a.toNat] (destRegs d)) (hbanks : s.myTeam.act = true) (ea : Bool) (pg : BitVec 5) (neg : Bool) :
    Gives (execVact d a ea pg neg s) (s.SfuIssued d pg neg (some (s.cluster s.me.cluster).actBank)
      (fun l => (s.cluster s.me.cluster).activate (s.cluster s.me.cluster).actBank (s.me.src .f32 l a.toNat))) := by
  refine s.sfuWord_go ?_ d pg neg _ _ (fun g l => (s.cluster s.me.cluster).activate (s.cluster s.me.cluster).actBank (g.src .f32 l a.toNat))
  rw [Group.gate_ready (srcs := [(a.toNat, ea)]) h]
  exact if_pos hbanks

/-- Settles O9: every word is `State.sfuWord` of its function behind an open gate. -/
theorem specialFunctionWords : Obligations.SpecialFunctionWords := by
  unfold Obligations.SpecialFunctionWords
  intro s d a b ea eb pg neg rm
  simp only [exec_vfrcp, exec_vfrsq, exec_vfsqrt, exec_vfexp2, exec_vflog2, exec_vfsin, exec_vfcos, exec_vfdiv, exec_vact]
  refine ⟨fun h => ⟨?_, ?_, ?_, ?_, ?_, ?_, ?_, fun hbanks => execVact_go h hbanks ea pg neg⟩, fun h => ?_⟩
  · exact sfuUnary_go h ea pg neg 1 (fun _ _ x => rcpF32 x)
  · exact sfuUnary_go h ea pg neg 1 (fun _ _ x => rsqF32 x)
  · exact sfuUnary_go h ea pg neg 4 (fun g l x => sqrtF32 (RMode.ofCode rm.toNat) (r16Of g.fpKey x l 0) x)
  · exact sfuUnary_go h ea pg neg 1 (fun _ _ x => exp2F32 x)
  · exact sfuUnary_go h ea pg neg 1 (fun _ _ x => log2F32 x)
  · exact sfuUnary_go h ea pg neg 1 (fun _ _ x => trigF32 0x15 false x)
  · exact sfuUnary_go h ea pg neg 1 (fun _ _ x => trigF32 0x16 true x)
  · exact s.sfuWord_go (Group.gate_ready (srcs := [(a.toNat, ea), (b.toNat, eb)]) h) d pg neg _ none
      (fun g l => divF32 (RMode.ofCode rm.toNat) (r16Of g.fpKey (g.src .f32 l a.toNat) l 0) (g.src .f32 l a.toNat) (g.src .f32 l b.toNat))

end Sys2Proof.Machine
end

