-- ==== Sys2Proof/Proofs/CrossLane.lean ====
section
/-! SUPPORT. Gatherings: the lanes that a cross-lane word waits for, what it leaves when it executes and when it waits (R126 to R130, R350). -/
namespace Sys2Proof.Machine

/-! ### Members and arrivals -/

theorem inSet_and (m n : LaneSet) (l : Nat) : inSet (m &&& n) l = (inSet m l && inSet n l) := BitVec.getLsbD_and

theorem inSet_diff (m n : LaneSet) (l : Nat) : inSet (m &&& ~~~n) l = (inSet m l && !inSet n l) := by
  unfold inSet
  rw [BitVec.getLsbD_and, BitVec.getLsbD_not]
  by_cases hl : l < 64
  · simp [hl]
  · simp [BitVec.getLsbD_of_ge m l (by omega)]

theorem setOf_congr {p q : Nat → Bool} (h : ∀ l, l < 64 → p l = q l) : setOf p = setOf q := by
  refine BitVec.eq_of_getLsbD_eq (fun l hl => ?_)
  have hp := inSet_setOf p l
  have hq := inSet_setOf q l
  rw [h l hl, ← hq] at hp
  exact hp

/-- The lanes still awaited at a gathering (R127). -/
theorem Group.inSet_pend (g : Group) (members arrived : LaneSet) (l : Nat) :
    inSet (g.pend members arrived) l = (inSet members l && (g.lane l).counts && !inSet arrived l) := by
  unfold Group.pend Group.countSet
  rw [inSet_diff, inSet_and, inSet_setOf]
  cases hl : inSet members l with
  | true => simp [inSet_lt hl]
  | false => rfl

theorem Group.pend_eq_zero {g : Group} {members arrived : LaneSet}
    (h : ∀ l, inSet members l = true → (g.lane l).counts = true → inSet arrived l = true) : g.pend members arrived = 0 := by
  by_contra hne
  obtain ⟨l, hl⟩ := lanesIn_ne hne
  rw [Group.inSet_pend] at hl
  simp only [Bool.and_eq_true, Bool.not_eq_true'] at hl
  obtain ⟨⟨hm, hc⟩, ha⟩ := hl
  rw [h l hm hc] at ha
  cases ha

theorem Group.pend_ne_zero {g : Group} {members arrived : LaneSet}
    (h : ∃ l, inSet members l = true ∧ (g.lane l).counts = true ∧ inSet arrived l = false) : g.pend members arrived ≠ 0 := by
  obtain ⟨l, hm, hc, ha⟩ := h
  intro h0
  have hl := g.inSet_pend members arrived l
  rw [h0, hm, hc, ha] at hl
  simp [inSet] at hl

/-- The members of the gathering at the issuing word: those it was opened with, else those of the mask (R127). -/
def State.gatherMembers (s : State) (c : BitVec 7) : LaneSet := s.me.gatheringHere.elim (s.me.sPair (c.toNat - 80)) (·.members)

/-- The lanes that arrived there in earlier runs (R127). -/
def State.gatherEarlier (s : State) : LaneSet := s.me.gatheringHere.elim 0 (·.arrived)

/-- The lanes that have arrived there, the active members among them (R127). -/
def State.gatherArrived (s : State) (c : BitVec 7) : LaneSet := s.gatherEarlier ||| (s.me.run.act &&& s.gatherMembers c)

/-- The active lanes that are no members (R127). -/
def State.gatherRest (s : State) (c : BitVec 7) : LaneSet := s.me.run.act &&& ~~~s.gatherMembers c

/-- A lane once the predicate of the word has been cleared where it is active and no member (R127). -/
def State.gatherLeft (s : State) (c : BitVec 7) (pg : BitVec 5) (l : Nat) : Lane :=
  if inSet s.me.run.act l && !inSet (s.gatherMembers c) l then (s.me.lane l).setValid pg false else s.me.lane l

/-- The gatherings open at other words. -/
def State.gatherOthers (s : State) : List Gathering := s.me.gatherings.filter (fun w => !(w.hdr == s.me.run.hdr && w.word == s.me.run.idx))

/-- The registers of the mask, read where no gathering is open (R127). -/
def State.gatherMask (s : State) (c : BitVec 7) : List Nat := if s.me.gatheringHere.isSome then [] else [c.toNat, c.toNat + 1]

/-- The group as the execution of a gathering finds it: the arrived lanes live, the gathering closed (R127, R128). -/
def State.gathered (s : State) (c : BitVec 7) (pg : BitVec 5) : Group :=
  { (s.me.mapLanes (s.gatherRest c) (fun _ n => n.setValid pg false)).wake (s.gatherArrived c) with
    gatherings := s.gatherOthers, run := { s.me.run with act := s.gatherArrived c ||| s.gatherRest c } }

/-- The group whose active members have parked at the word (R127). -/
def State.gatherParked (s : State) (c : BitVec 7) (pg : BitVec 5) : Group :=
  { (s.me.mapLanes (s.gatherRest c) (fun _ n => n.setValid pg false)).mapLanes (s.me.run.act &&& s.gatherMembers c)
      (fun _ n => { n with cond := .parked .convergence, place := .gathering s.me.run.hdr.toNat s.me.run.idx }) with
    gatherings := s.gatherOthers ++ [⟨s.me.run.hdr, s.me.run.idx, s.gatherMembers c, s.gatherArrived c⟩]
    run := { s.me.run with act := s.gatherRest c, quit := decide (s.gatherRest c = 0) } }

theorem State.gatherArrived_or_rest (s : State) (c : BitVec 7) : s.gatherArrived c ||| s.gatherRest c = s.gatherEarlier ||| s.me.run.act := by
  unfold State.gatherArrived State.gatherRest
  rw [BitVec.or_assoc, ← BitVec.and_or_distrib_left, BitVec.or_not_self, BitVec.and_allOnes]

theorem Group.lane_congr {g g' : Group} (h : g.lanes = g'.lanes) (l : Nat) : g.lane l = g'.lane l := by
  unfold Group.lane
  rw [h]

theorem State.gathered_rest (s : State) (c : BitVec 7) (pg : BitVec 5) (f : Nat → Lane → Lane) :
    { (s.gathered c pg).mapLanes (s.gatherArrived c) f with lanes := s.me.lanes } =
      { s.me with gatherings := s.gatherOthers, run := { s.me.run with act := s.gatherEarlier ||| s.me.run.act } } := by
  rw [← s.gatherArrived_or_rest c]
  unfold State.gathered Group.wake Group.mapLanes
  rfl

theorem State.gatherParked_rest (s : State) (c : BitVec 7) (pg : BitVec 5) : { s.gatherParked c pg with lanes := s.me.lanes } = { s.me with
    gatherings := s.gatherOthers ++ [⟨s.me.run.hdr, s.me.run.idx, s.gatherMembers c, s.gatherArrived c⟩]
    run := { s.me.run with act := s.gatherRest c, quit := decide (s.gatherRest c = 0) } } := by
  unfold State.gatherParked Group.mapLanes
  rfl

theorem State.lane_cleared (s : State) (c : BitVec 7) (pg : BitVec 5) {l : Nat} (h : l < 64) :
    (s.me.mapLanes (s.gatherRest c) (fun _ n => n.setValid pg false)).lane l = s.gatherLeft c pg l := by
  rw [Group.lane_mapLanes _ _ _ h, State.gatherRest, inSet_diff]
  rfl

theorem State.lane_gathered (s : State) (c : BitVec 7) (pg : BitVec 5) {l : Nat} (h : l < 64) : (s.gathered c pg).lane l =
    if inSet (s.gatherArrived c) l then { s.gatherLeft c pg l with cond := .live, place := .none } else s.gatherLeft c pg l := by
  rw [← State.lane_cleared s c pg h]
  exact (Group.lane_congr (g' := Group.wake _ _) rfl l).trans (Group.lane_mapLanes _ _ _ h)

theorem State.lane_gatherParked (s : State) (c : BitVec 7) (pg : BitVec 5) {l : Nat} (h : l < 64) : (s.gatherParked c pg).lane l =
    if inSet s.me.run.act l && inSet (s.gatherMembers c) l then
      { s.me.lane l with cond := .parked .convergence, place := .gathering s.me.run.hdr.toNat s.me.run.idx }
    else if inSet s.me.run.act l then (s.me.lane l).setValid pg false else s.me.lane l := by
  have hparked : (s.gatherParked c pg).lanes = ((s.me.mapLanes (s.gatherRest c) (fun _ n => n.setValid pg false)).mapLanes
      (s.me.run.act &&& s.gatherMembers c)
      (fun _ n => { n with cond := .parked .convergence, place := .gathering s.me.run.hdr.toNat s.me.run.idx })).lanes := rfl
  rw [Group.lane_congr hparked, Group.lane_mapLanes _ _ _ h, State.lane_cleared s c pg h, inSet_and, State.gatherLeft]
  cases inSet s.me.run.act l <;> cases inSet (s.gatherMembers c) l <;> rfl

/-! ### What an exchange reads -/

theorem Lane.regs_setValid (n : Lane) (pg : BitVec 5) (v : Bool) : (n.setValid pg v).regs = n.regs ∧ (n.setValid pg v).lr = n.lr := by
  unfold Lane.setValid
  split_ifs <;> exact ⟨rfl, rfl⟩

theorem State.regs_gatherLeft (s : State) (c : BitVec 7) (pg : BitVec 5) (l : Nat) :
    (s.gatherLeft c pg l).regs = (s.me.lane l).regs ∧ (s.gatherLeft c pg l).lr = (s.me.lane l).lr := by
  unfold State.gatherLeft
  split_ifs
  · exact Lane.regs_setValid _ _ _
  · exact ⟨rfl, rfl⟩

/-- The sources of the word are those from before it (R129). -/
theorem State.src_gathered (s : State) (c : BitVec 7) (pg : BitVec 5) (k : Col) {l : Nat} (h : l < 64) (o : Nat) :
    (s.gathered c pg).src k l o = s.me.src k l o := by
  obtain ⟨hregs, hlr⟩ := s.regs_gatherLeft c pg l
  have hlane : ((s.gathered c pg).lane l).regs = (s.me.lane l).regs ∧ ((s.gathered c pg).lane l).lr = (s.me.lane l).lr := by
    rw [State.lane_gathered s c pg h]
    split_ifs <;> exact ⟨hregs, hlr⟩
  have hscalars : (s.gathered c pg).sregs = s.me.sregs := rfl
  unfold Group.src Group.s Lane.reg
  rw [hlane.1, hlane.2, hscalars]

theorem State.reduce_gathered (s : State) (c : BitVec 7) (pg : BitVec 5) (scan : Bool) (op : Nat) (mode : RMode) (a : Nat) (members arrived : LaneSet) :
    (s.gathered c pg).reduce scan op mode a members arrived = s.me.reduce scan op mode a members arrived := by
  unfold Group.reduce
  refine congrArg (List.foldl (redStep scan op mode) · redDistances) (List.map_congr_left (fun l hl => ?_))
  rw [State.src_gathered s c pg _ (List.mem_range.1 hl)]

/-! ### The two ways of a cross-lane word -/

/-- A cross-lane word by whether a member is still awaited (R127). -/
theorem State.gatherWord_eq (s : State) (srcs : List (Nat × Bool)) (dsts : List Nat) (c : BitVec 7) (pg : BitVec 5)
    (body : Group → LaneSet → LaneSet → Group × Nat) : ∃ w w' : Nat → Writes, s.gatherWord srcs dsts c pg body =
      .next (s.gated (s.me.gate (srcs ++ (s.gatherMask c).map (fun r => (r, false))) dsts) (
        let done := body (s.gathered c pg) (s.gatherMembers c) (s.gatherArrived c)
        if s.me.pend (s.gatherMembers c) (s.gatherArrived c) = 0 then ((s.commit s.cur done.1 w).kick s.me.team).advance 2 done.2
        else (s.commit s.cur (s.gatherParked c pg) w').advance 2 (s.pa s.me))) := by
  have hmask : (if s.me.gatheringHere.isSome then [] else [(c.toNat, false), (c.toNat + 1, false)]) = (s.gatherMask c).map (fun r => (r, false)) := by
    unfold State.gatherMask
    split_ifs <;> rfl
  rw [← hmask]
  unfold State.gatherWord State.gathered State.gatherParked State.gatherRest State.gatherArrived State.gatherEarlier State.gatherMembers
  dsimp only
  generalize s.me.gatheringHere = held
  cases held with
  | none => exact ⟨_, _, rfl⟩
  | some g => exact ⟨_, _, rfl⟩

theorem State.gatherGate_go {s : State} {srcs : List (Nat × Bool)} {dsts : List Nat} {c : BitVec 7}
    (h : s.ready (srcs.map (·.1) ++ s.gatherMask c) dsts) : s.me.gate (srcs ++ (s.gatherMask c).map (fun r => (r, false))) dsts = .go :=
  Group.gate_ready (by simpa [Function.comp_def, State.ready] using h)

theorem TeamsButLogs.kick {s u : State} (h : TeamsButLogs s u) : TeamsKicked s (u.kick s.me.team) := by
  obtain ⟨hother, hown, hlevels⟩ := h
  have hteam : (u.kick s.me.team).team s.me.team = { u.team s.me.team with wdcount := 0 } := State.team_onTeam_self _ _ _
  refine ⟨fun k hk => ?_, ?_, ?_, ?_⟩
  · rw [← hother k hk]
    exact (State.team_onTeam _ _ _ _).trans (if_neg hk)
  · rw [hteam]
    exact congrArg (fun tm : Team => { tm with wdcount := (s.team s.me.team).wdcount }) hown
  · rw [hteam]
  · rw [hteam]
    exact hlevels

/-- A gathering for which no member is awaited executes: the arrived lanes are changed by `f` (R128, R129, R350). -/
theorem State.gatherWord_executes {s : State} {srcs : List (Nat × Bool)} {dsts : List Nat} {c : BitVec 7} {pg : BitVec 5}
    {body : Group → LaneSet → LaneSet → Group × Nat} {f : Nat → Lane → Lane} (h : s.ready (srcs.map (·.1) ++ s.gatherMask c) dsts)
    (hall : ∀ l, inSet (s.gatherMembers c) l = true → (s.me.lane l).counts = true → inSet (s.gatherArrived c) l = true)
    (hbody : (body (s.gathered c pg) (s.gatherMembers c) (s.gatherArrived c)).1 = (s.gathered c pg).mapLanes (s.gatherArrived c) f) :
    Gives (s.gatherWord srcs dsts c pg body) (fun t => GatherFrame s.gatherEarlier s t ∧ ∀ l, l < 64 → t.me.lane l =
      if inSet (s.gatherArrived c) l then f l { s.gatherLeft c pg l with cond := .live, place := .none } else s.gatherLeft c pg l) := by
  obtain ⟨w, w', hw⟩ := s.gatherWord_eq srcs dsts c pg body
  refine ⟨_, hw, ?_⟩
  rw [State.gatherGate_go h, State.gated_go]
  dsimp only
  rw [if_pos (Group.pend_eq_zero hall), hbody]
  set new := (s.gathered c pg).mapLanes (s.gatherArrived c) f
  have hme : ((s.commit s.cur new w).kick s.me.team).me = new := by
    unfold State.kick
    rw [State.me_onTeam, State.me, State.commit_cur, State.group_commit_self]
  have hrest : { new with lanes := s.me.lanes, run := new.run.after 2 } =
      { s.me with gatherings := s.gatherOthers, run := { s.me.run.after 2 with act := s.gatherEarlier ||| s.me.run.act } } :=
    congrArg (fun g : Group => { g with run := g.run.after 2 }) (s.gathered_rest c pg f)
  have hmoved := Moved.of_advance (n := 2) (c := (body (s.gathered c pg) (s.gatherMembers c) (s.gatherArrived c)).2)
    (u := (s.commit s.cur new w).kick s.me.team) (lane := new.lane)
    (g := { s.me with gatherings := s.gatherOthers, run := { s.me.run.after 2 with act := s.gatherEarlier ||| s.me.run.act } })
    (s.commit_world s.cur new w) (by simp [State.kick]) (by simp) (fun k hk => (s.group_commit s.cur k new w).trans (if_neg hk))
    (by rw [hme]; exact hrest) rfl rfl (fun l hl => by rw [hme])
  refine ⟨⟨hmoved.world, hmoved.slice, ?_, hmoved.group⟩, fun l hl => ?_⟩
  · obtain ⟨hother, hown, hcount, hlevels⟩ := (s.commit_teams new w).kick
    exact ⟨hother, hown, hcount, hlevels⟩
  · rw [hmoved.lanes l hl, Group.lane_mapLanes _ _ _ hl, s.lane_gathered c pg hl]
    split_ifs <;> rfl

/-- A gathering at which a member is still awaited: the active members park there, the others go on (R127). -/
theorem State.gatherWord_waits {s : State} {srcs : List (Nat × Bool)} {dsts : List Nat} {c : BitVec 7} {pg : BitVec 5}
    (body : Group → LaneSet → LaneSet → Group × Nat) (h : s.ready (srcs.map (·.1) ++ s.gatherMask c) dsts)
    (hawaited : ∃ l, inSet (s.gatherMembers c) l = true ∧ (s.me.lane l).counts = true ∧ inSet (s.gatherArrived c) l = false) :
    Gives (s.gatherWord srcs dsts c pg body) (fun t => SameWorld s t ∧ OwnSlice s t ∧ TeamsButLogs s t ∧
      { t.me with lanes := s.me.lanes } = { s.me with
        gatherings := s.gatherOthers ++ [⟨s.me.run.hdr, s.me.run.idx, s.gatherMembers c, s.gatherArrived c⟩]
        run := { s.me.run.after 2 with act := s.gatherRest c, quit := decide (s.gatherRest c = 0) } } ∧
      ∀ l, l < 64 → t.me.lane l =
        if inSet s.me.run.act l && inSet (s.gatherMembers c) l then
          { s.me.lane l with cond := .parked .convergence, place := .gathering s.me.run.hdr.toNat s.me.run.idx }
        else if inSet s.me.run.act l then (s.me.lane l).setValid pg false else s.me.lane l) := by
  obtain ⟨w, w', hw⟩ := s.gatherWord_eq srcs dsts c pg body
  refine ⟨_, hw, ?_⟩
  rw [State.gatherGate_go h, State.gated_go]
  dsimp only
  rw [if_neg (Group.pend_ne_zero hawaited)]
  obtain ⟨hteams, hmoved⟩ := Moved.of_commit (s := s) (new := s.gatherParked c pg) (w := w') (n := 2) (c := s.pa s.me)
    (g := { s.me with
      gatherings := s.gatherOthers ++ [⟨s.me.run.hdr, s.me.run.idx, s.gatherMembers c, s.gatherArrived c⟩]
      run := { s.me.run.after 2 with act := s.gatherRest c, quit := decide (s.gatherRest c = 0) } })
    (congrArg (fun g : Group => { g with run := g.run.after 2 }) (s.gatherParked_rest c pg)) rfl rfl (fun l hl => s.lane_gatherParked c pg hl)
  exact ⟨hmoved.world, hmoved.slice, hteams, hmoved.group, hmoved.lanes⟩

/-! ### The rows -/

theorem Group.mapLanes_congr (g : Group) {m : LaneSet} {f f' : Nat → Lane → Lane} (h : ∀ l n, inSet m l = true → f l n = f' l n) :
    g.mapLanes m f = g.mapLanes m f' := by
  unfold Group.mapLanes
  rw [List.map_congr_left (fun l _ => ?_)]
  split_ifs with hl
  · rw [h l _ hl]
  · rfl

/-- What a lane that reads lane `m l` takes (R129, R130). -/
def State.routed (s : State) (c d a : BitVec 7) (pg : BitVec 5) (m : Nat → Option Nat) (l : Nat) (n : Lane) : Lane :=
  match m l with
  | none => n.setValid pg false
  | some k =>
    if inSet (s.gatherArrived c) k then (n.crossDest d.toNat (s.me.src .int k a.toNat)).setValid pg true
    else if inSet (s.gatherMembers c) k then (n.crossDest d.toNat 0).setValid pg false
    else n.setValid pg false

theorem State.routeWord_gathered (s : State) (c d a : BitVec 7) (pg : BitVec 5) {from_ : Group → Nat → Option Nat} {m : Nat → Option Nat}
    (hfrom : ∀ l, l < 64 → from_ (s.gathered c pg) l = m l) :
    (s.routeWord d a pg from_ (s.gathered c pg) (s.gatherMembers c) (s.gatherArrived c)).1 =
      (s.gathered c pg).mapLanes (s.gatherArrived c) (s.routed c d a pg m) := by
  unfold State.routeWord
  dsimp only
  refine Group.mapLanes_congr _ (fun l n hl => ?_)
  unfold State.routed Group.fetchLane
  rw [hfrom l (inSet_lt hl)]
  cases m l with
  | none => rfl
  | some k =>
    dsimp only
    split_ifs with harrived hmember
    · rw [s.src_gathered c pg .int (inSet_lt harrived)]
    · rfl
    · rfl

/-- The ballot of VVOTE: the arrived lanes whose predicate is set (R130). -/
def State.ballot (s : State) (c : BitVec 7) (pg q : BitVec 5) : LaneSet :=
  setOf (fun l => inSet (s.gatherArrived c) l && (s.gatherLeft c pg l).pred q.toNat)

theorem State.ballot_gathered (s : State) (c : BitVec 7) (pg q : BitVec 5) :
    setOf (fun l => inSet (s.gatherArrived c) l && ((s.gathered c pg).lane l).pred q.toNat) = s.ballot c pg q := by
  refine setOf_congr (fun l hl => ?_)
  rw [s.lane_gathered c pg hl]
  split_ifs <;> rfl

/-- What VVOTE gives a lane under a mode (R130). -/
def State.voted (s : State) (d c : BitVec 7) (pg q : BitVec 5) (mode : BitVec 2) (n : Lane) : Lane :=
  if mode = 0 then (n.crossDest d.toNat ((s.ballot c pg q).extractLsb' 0 32)).crossDest (d.toNat + 1) ((s.ballot c pg q).extractLsb' 32 32)
  else n.crossDest d.toNat
    (if mode = 1 then (if s.ballot c pg q = s.gatherMembers c then 1 else 0)
     else if mode = 2 then (if s.ballot c pg q = 0 then 0 else 1) else BitVec.ofNat 32 (lanesIn (s.ballot c pg q)).length)

/-- VVOTE as a cross-lane word. -/
theorem execVvote_eq (s : State) (d c : BitVec 7) (pg q : BitVec 5) (mode : BitVec 2) : ∃ body,
    execVvote d q c pg mode s = s.gatherWord [] (if mode = 0 then [d.toNat, d.toNat + 1] else destRegs d) c pg body ∧
    (body (s.gathered c pg) (s.gatherMembers c) (s.gatherArrived c)).1 = (s.gathered c pg).mapLanes (s.gatherArrived c)
      (fun _ n => (s.voted d c pg q mode n).setValid pg (decide (s.gatherMembers c &&& ~~~s.gatherArrived c = 0))) := by
  have hlow (x : LaneSet) : x.truncate 32 = x.extractLsb' 0 32 := by ext i; simp
  have hhigh (x : LaneSet) : (x >>> 32).truncate 32 = x.extractLsb' 32 32 := by ext i; simp
  have hmode : mode.toNat = 0 ↔ mode = 0 := BitVec.toNat_inj (y := 0)
  refine ⟨_, by unfold execVvote; simp only [hmode]; rfl, ?_⟩
  dsimp only
  rw [State.ballot_gathered, hlow, hhigh]
  refine Group.mapLanes_congr _ (fun l n _ => congrArg (Lane.setValid · pg _) ?_)
  unfold State.voted
  generalize s.ballot c pg q = ballot
  match mode with
  | 0 => rfl
  | 1 => rfl
  | 2 => rfl
  | 3 => rfl

/-- Settles O12: every word is `State.gatherWord` of its exchange, and reads the group as it stood before it. -/
theorem crossLaneWords : Obligations.CrossLaneWords := by
  unfold Obligations.CrossLaneWords
  refine ⟨fun s d a b c ea eb pg q rm => ?_, fun s d a b c ea eb pg q rm => ?_⟩
  · intro act open_ members earlier arrived here left hall full gives route absent
    have executes {srcs : List (Nat × Bool)} {dsts : List Nat} {i : Instr} {body : Group → LaneSet → LaneSet → Group × Nat} {f : Nat → Lane → Lane}
        (hexec : exec i s = s.gatherWord srcs dsts c pg body)
        (hbody : (body (s.gathered c pg) (s.gatherMembers c) (s.gatherArrived c)).1 = (s.gathered c pg).mapLanes (s.gatherArrived c) f)
        (h : full (srcs.map (·.1)) dsts) : gives i f := by
      simp only [gives]
      rw [hexec]
      exact State.gatherWord_executes h hall hbody
    clear_value gives
    have routes {srcs : List (Nat × Bool)} {i : Instr} {from_ : Group → Nat → Option Nat} {m : Nat → Option Nat}
        (hexec : exec i s = s.gatherWord srcs (destRegs d) c pg (s.routeWord d a pg from_))
        (hfrom : ∀ l, l < 64 → from_ (s.gathered c pg) l = m l) (h : full (srcs.map (·.1)) (destRegs d)) : gives i (route m) :=
      executes hexec (s.routeWord_gathered c d a pg hfrom) h
    refine ⟨fun h => ?_, fun h => ⟨fun off => ?_, fun lane => ?_, fun op => ?_, fun op excl => ?_⟩, fun mode h => ?_⟩
    · exact routes (srcs := [(a.toNat, ea), (b.toNat, eb)]) (exec_vperm ..) (fun l hl => by rw [s.src_gathered c pg .int hl]) h
    · exact routes (srcs := [(a.toNat, ea)]) (exec_vshuf ..) (fun _ _ => rfl) h
    · exact routes (srcs := [(a.toNat, ea)]) (exec_vbcast ..) (fun _ _ => rfl) h
    · exact executes (srcs := [(a.toNat, ea)]) (exec_vlogred ..) (by dsimp only; rw [s.reduce_gathered]; rfl) h
    · refine executes (srcs := [(a.toNat, ea)]) (exec_vscan ..) ?_ h
      dsimp only
      rw [s.reduce_gathered]
      cases excl <;> rfl
    · obtain ⟨body, hvote, hbody⟩ := execVvote_eq s d c pg q mode
      exact executes (srcs := []) ((exec_vvote ..).trans hvote) hbody h
  · intro act here open_ members arrived rest hawaited waits
    have parks {srcs : List (Nat × Bool)} {dsts : List Nat} {i : Instr} {body : Group → LaneSet → LaneSet → Group × Nat}
        (hexec : exec i s = s.gatherWord srcs dsts c pg body) : waits (srcs.map (·.1)) dsts i := by
      intro h
      rw [hexec]
      exact State.gatherWord_waits body h hawaited
    refine ⟨parks (srcs := [(a.toNat, ea), (b.toNat, eb)]) (exec_vperm ..), fun off => parks (srcs := [(a.toNat, ea)]) (exec_vshuf ..),
      fun lane => parks (srcs := [(a.toNat, ea)]) (exec_vbcast ..), fun op => parks (srcs := [(a.toNat, ea)]) (exec_vlogred ..),
      fun op excl => parks (srcs := [(a.toNat, ea)]) (exec_vscan ..), fun mode => ?_⟩
    obtain ⟨body, hvote, -⟩ := execVvote_eq s d c pg q mode
    exact parks (srcs := []) ((exec_vvote ..).trans hvote)

end Sys2Proof.Machine
end

