-- ==== Sys2Proof/Proofs/LaneStatus.lean ====
section
/-! SUPPORT. VPCRD and VPCWR: the condition of a lane as a word, what VPCWR does behind its gate, and the arrivals and requests that it takes back (R134,
R135, R344). -/
namespace Sys2Proof.Machine

/-! ### VPCRD -/

/-- REASON of a parked lane as a number (R135). -/
def ParkReason.code : ParkReason → Word
  | .deferred => 1 | .convergence => 2 | .handler => 3 | .regionWait => 4 | .refused => 5 | .split => 6

/-- COND with REASON in bits [15:8] (R135). -/
def LaneCond.code : LaneCond → Word
  | .live => 0 | .parked r => 1 + r.code * 256 | .exited => 2 | .never => 3

theorem Lane.condWord_eq (n : Lane) : n.condWord = n.cond.code := by
  unfold Lane.condWord
  cases n.cond with
  | live => rfl
  | parked r => cases r <;> rfl
  | exited => rfl
  | never => rfl

/-- VPCRD with its destination full (R134). -/
theorem execVpcrd_go {s : State} {d : BitVec 7} (h : s.ready [] [d.toNat]) (field : BitVec 4) (lane : BitVec 8) :
    let n := s.me.lane (lane.toNat % 64)
    Gives (execVpcrd d field lane s) (WroteS 2 (d.toNat - 80)
      (if field = 0 then n.vpc else if field = 1 then n.fpflags.zeroExtend 32 else n.cond.code) s) := by
  intro n
  have hword : execVpcrd d field lane s = s.scalarWord [] [d.toNat] 2 (·.onMe (fun g => g.setS (d.toNat - 80)
      (if field = 0 then n.vpc else if field = 1 then n.fpflags.zeroExtend 32 else n.cond.code))) := by
    rw [← Lane.condWord_eq]
    have h0 : field.toNat = 0 ↔ field = 0 := BitVec.toNat_inj (y := 0)
    have h1 : field.toNat = 1 ↔ field = 1 := BitVec.toNat_inj (y := 1)
    simp only [← h0, ← h1]
    unfold execVpcrd
    generalize field.toNat = f
    match f with
    | 0 => rfl
    | 1 => rfl
    | _ + 2 => rfl
  rw [hword]
  exact s.scalarWord_go h 2 (d.toNat - 80) (fun _ => _)

/-! ### Lanes that VPCWR leaves alone -/

theorem Lane.fixed_eq_true {n : Lane} (h : n.counts = false ∨ n.region.isSome = true ∨ (n.isParked = true ∧ ∃ c, n.place = .recovery c)) :
    n.fixed = true := by
  unfold Lane.fixed
  rcases h with h | h | ⟨h, c, hc⟩
  · simp [h]
  · simp [h]
  · simp [h, hc]

theorem Lane.fixed_live {n : Lane} (hc : n.cond = .live) (hr : n.region = none) : n.fixed = false := by
  unfold Lane.fixed Lane.counts Lane.isLive Lane.isParked
  cases n.place <;> simp [hc, hr]

theorem Lane.fixed_parked {n : Lane} {r : ParkReason} (hc : n.cond = .parked r) (hr : n.region = none) (hp : ∀ c, n.place ≠ .recovery c) :
    n.fixed = false := by
  unfold Lane.fixed Lane.counts Lane.isLive Lane.isParked
  cases hplace : n.place with
  | recovery c => exact absurd hplace (hp c)
  | _ => simp [hc, hr]

/-! ### One lane changed -/

theorem TeamsButLogs.of_eq {s t : State} (h : t.teams = s.teams) : TeamsButLogs s t := by
  have hteam (k : Nat) : t.team k = s.team k := by unfold State.team; rw [h]
  exact ⟨fun k _ => hteam k, by rw [hteam], by rw [hteam]⟩

/-- The issue of a word of two words that changes one lane of its group. -/
theorem VecFrame.of_onLane (s : State) (k : Nat) (f : Lane → Lane) :
    VecFrame 2 s ((s.onMe (fun g => g.onLane k f)).advance 2 1) ∧
    ∀ l, l < 64 → ((s.onMe (fun g => g.onLane k f)).advance 2 1).me.lane l = if l = k then f (s.me.lane k) else s.me.lane l := by
  have hmoved := Moved.of_onMe (s := s) (n := 2) (c := 1) (f := fun g => g.onLane k f) (g := { s.me with run := s.me.run.after 2 }) rfl rfl rfl
    (fun l _ => s.me.lane_onLane k l f)
  exact ⟨hmoved.vecFrame (TeamsButLogs.of_eq rfl), hmoved.lanes⟩

/-- The issue of a word of two words that changes nothing. -/
theorem VecFrame.of_advance (s : State) : VecFrame 2 s (s.advance 2 1) ∧ ∀ l, l < 64 → (s.advance 2 1).me.lane l = s.me.lane l := by
  have hmoved := Moved.of_advance (s := s) (u := s) (n := 2) (c := 1) (g := { s.me with run := s.me.run.after 2 }) rfl rfl rfl (fun _ _ => rfl)
    rfl rfl rfl (fun _ _ => rfl)
  exact ⟨hmoved.vecFrame (TeamsButLogs.of_eq rfl), hmoved.lanes⟩

/-- A meaning answers a state with a property in which one lane of the issuing group is `n'` and the others are as they were. -/
def State.GivesLane (s : State) (k : Nat) (n' : Lane) (P : State → Prop) (o : Host.Outcome State Fault Refusal) : Prop :=
  Gives o (fun t => P t ∧ ∀ l, l < 64 → t.me.lane l = if l = k then n' else s.me.lane l)

section
variable {s t : State} {k : Nat} {o : Host.Outcome State Fault Refusal}

theorem State.givesLane_same (ho : o = .next (t.advance 2 1)) (ht : t = s) : s.GivesLane k (s.me.lane k) (VecFrame 2 s) o := by
  subst ht
  obtain ⟨hframe, hlanes⟩ := VecFrame.of_advance t
  refine ⟨_, ho, hframe, fun l h64 => (hlanes l h64).trans ?_⟩
  split_ifs with hl
  · rw [hl]
  · rfl

theorem State.givesLane_onLane {f : Lane → Lane} (ho : o = .next (t.advance 2 1)) (ht : t = s.onMe (fun g => g.onLane k f)) :
    s.GivesLane k (f (s.me.lane k)) (VecFrame 2 s) o := by
  subst ht
  exact ⟨_, ho, VecFrame.of_onLane s k f⟩

end

/-! ### Arrivals and requests taken back -/

theorem oneLane_eq {k : Nat} (h : k < 64) : oneLane k = 1#64 <<< k := by
  refine BitVec.eq_of_getLsbD_eq (fun l hl => ?_)
  have hin : (oneLane k).getLsbD l = (decide (l < 64) && (l == k)) := inSet_setOf (fun j => j == k) l
  rw [hin, BitVec.getLsbD_shiftLeft, BitVec.getLsbD_one]
  by_cases hlk : l = k
  · subst hlk; simp [hl]
  · have : l < k ∨ l - k ≠ 0 := by omega
    rcases this with hlt | hne
    · simp [hlk, hlt]
    · simp [hlk, hne]

/-- What taking back an arrival leaves as it was: all but the gatherings of the group, the teams and the dies (R344). -/
structure Withdrawn (s w : State) : Prop where
  world : SameWorld s { w with dies := s.dies }
  cur : w.cur = s.cur
  clusters : w.clusters = s.clusters
  other : ∀ j, j ≠ s.cur → w.group j = s.group j
  me : ∃ gs, w.group s.cur = { s.me with gatherings := gs }

theorem State.withdraw_withdrawn (s : State) (l : Nat) : Withdrawn s (s.withdraw s.cur l) := by
  unfold State.withdraw
  dsimp only
  split
  · exact ⟨rfl, rfl, rfl, fun j hj => (State.group_onGroup _ _ _ _).trans (if_neg hj), ⟨_, State.group_onGroup_self _ _ _⟩⟩
  all_goals exact ⟨rfl, rfl, rfl, fun _ _ => rfl, ⟨s.me.gatherings, rfl⟩⟩

/-- A lane of the issuing group freed: its arrival or request taken back, and the lane changed by `f` (R344). -/
def State.freed (s : State) (k : Nat) (f : Lane → Lane) : State := (s.withdraw s.cur k).onGroup s.cur (fun g => g.onLane k f)

/-- The frame of a lane freed: `g`, `teams` and `dies` are what is left of its group and of the tables in which it waited (R344). -/
def State.FreedFrom (s : State) (g : Group) (teams : FMap Team) (dies : FMap Die) (t : State) : Prop :=
  SameWorld s { t with dies := s.dies } ∧ t.teams = teams ∧ t.dies = dies ∧ OwnSlice s t ∧
  { t.me with lanes := s.me.lanes } = { g with lanes := s.me.lanes, run := s.me.run.after 2 }

/-- The issue of a word of two words that changes one lane of a group from which an arrival has been taken back. -/
theorem Withdrawn.freed_frame {s w : State} (h : Withdrawn s w) (k : Nat) (f : Lane → Lane) :
    s.FreedFrom (w.group s.cur) w.teams w.dies ((w.onGroup s.cur (fun g => g.onLane k f)).advance 2 1) ∧
    ∀ l, l < 64 → ((w.onGroup s.cur (fun g => g.onLane k f)).advance 2 1).me.lane l = if l = k then f (s.me.lane k) else s.me.lane l := by
  obtain ⟨hworld, hcur, hclusters, hother, gs, hme⟩ := h
  let u : State := { w.onGroup s.cur (fun g => g.onLane k f) with dies := s.dies }
  have hume : u.me = ({ s.me with gatherings := gs } : Group).onLane k f := by
    rw [← hme, State.me, show u.cur = s.cur from hcur]
    exact State.group_onGroup_self w s.cur (fun g => g.onLane k f)
  have huother (j : Nat) (hj : j ≠ s.cur) : u.group j = s.group j :=
    ((State.group_onGroup w s.cur j (fun g => g.onLane k f)).trans (if_neg hj)).trans (hother j hj)
  have hmoved := Moved.of_advance (s := s) (u := u) (n := 2) (c := 1) (g := { s.me with gatherings := gs, run := s.me.run.after 2 })
    (lane := (s.me.onLane k f).lane) hworld hcur hclusters huother (by rw [hume]; rfl) rfl rfl (fun l _ => by rw [hume]; rfl)
  have hdies : u.advance 2 1 = { (w.onGroup s.cur (fun g => g.onLane k f)).advance 2 1 with dies := s.dies } := rfl
  have hteams' : ((w.onGroup s.cur (fun g => g.onLane k f)).advance 2 1).teams = w.teams := rfl
  have hdies' : ((w.onGroup s.cur (fun g => g.onLane k f)).advance 2 1).dies = w.dies := rfl
  rw [hdies] at hmoved
  rw [hme]
  generalize (w.onGroup s.cur (fun g => g.onLane k f)).advance 2 1 = t at *
  obtain ⟨hworld', ⟨hcluster, hslice, hgroup, hcur'⟩, hrest, hlanes⟩ := hmoved
  exact ⟨⟨hworld', hteams', hdies', ⟨hcluster, hslice, hgroup, hcur'⟩, hrest⟩, fun l h64 => (hlanes l h64).trans (Group.lane_onLane _ _ _ _)⟩

/-- A lane freed, by what the withdrawal leaves of its group, of the teams and of the dies. -/
theorem State.freed_from {s : State} {k : Nat} {g : Group} {teams : FMap Team} {dies : FMap Die} (hg : (s.withdraw s.cur k).group s.cur = g)
    (hteams : (s.withdraw s.cur k).teams = teams) (hdies : (s.withdraw s.cur k).dies = dies) (f : Lane → Lane) :
    s.FreedFrom g teams dies ((s.freed k f).advance 2 1) := by
  subst hg hteams hdies
  exact ((s.withdraw_withdrawn k).freed_frame k f).1

section
variable {s : State} {k : Nat}

/-- Every other lane's arrival stays (R127, R344). -/
theorem State.withdraw_gathering {h w : Nat} (hp : (s.me.lane k).place = .gathering h w) : s.withdraw s.cur k = s.onMe (fun g => { g with
    gatherings := g.gatherings.map (fun x => if x.hdr.toNat = h ∧ x.word = w then { x with arrived := x.arrived &&& ~~~oneLane k } else x) }) := by
  have hplace : ((s.group s.cur).lane k).place = .gathering h w := hp
  unfold State.withdraw
  simp only [hplace]
  rfl

theorem State.withdraw_barrier {b : Nat} (hp : (s.me.lane k).place = .barrier b) : s.withdraw s.cur k = s.onTeam s.me.team (fun t => { t with
    arrivals := FMap.put t.arrivals (b * 16 + s.me.gid) (FMap.at 0 t.arrivals (b * 16 + s.me.gid) &&& ~~~oneLane k) }) := by
  have hplace : ((s.group s.cur).lane k).place = .barrier b := hp
  unfold State.withdraw
  simp only [hplace]
  rfl

theorem State.withdraw_gridBarrier (hp : (s.me.lane k).place = .gridBarrier) : s.withdraw s.cur k = s.onTeam s.me.team (fun t => { t with
    gridArr := FMap.put t.gridArr s.me.gid (FMap.at 0 t.gridArr s.me.gid &&& ~~~oneLane k) }) := by
  have hplace : ((s.group s.cur).lane k).place = .gridBarrier := hp
  unfold State.withdraw
  simp only [hplace]
  rfl

theorem State.withdraw_slotWait (hp : (s.me.lane k).place = .slotWait) : s.withdraw s.cur k = s.onDie (dieOf s.me.cluster) (fun d => { d with
    waiters := d.waiters.filter (fun w => !(w.group == s.cur && w.lane == k))
    tokenWaiters := d.tokenWaiters.filter (fun w => !(w.group == s.cur && w.lane == k)) }) := by
  have hplace : ((s.group s.cur).lane k).place = .slotWait := hp
  unfold State.withdraw
  simp only [hplace]
  rfl

theorem State.withdraw_none (hp : (s.me.lane k).place = .none) : s.withdraw s.cur k = s := by
  have hplace : ((s.group s.cur).lane k).place = .none := hp
  unfold State.withdraw
  simp only [hplace]

end

theorem dieOf_eq {cl : Nat} (h : cl < 160) : dieOf cl = if cl < 80 then 0 else 1 := by
  unfold dieOf
  split_ifs <;> omega

/-! ### What VPCWR does to a lane -/

theorem State.writeVpc_waits {s : State} {k : Nat} (h : (s.me.lane k).waits = true) (v : Word) :
    s.writeVpc s.cur k v = s.freed k (fun m => { m with vpc := v, cond := .parked .handler, place := .none }) := by
  have hw : ((s.group s.cur).lane k).waits = true := h
  unfold State.writeVpc
  simp only [hw, if_true]
  rfl

theorem State.writeVpc_plain {s : State} {k : Nat} (h : (s.me.lane k).waits = false) (v : Word) :
    s.writeVpc s.cur k v = s.onMe (fun g => g.onLane k (fun m => { m with vpc := v })) := by
  have hw : ((s.group s.cur).lane k).waits = false := h
  unfold State.writeVpc
  simp only [hw, Bool.false_eq_true, if_false]
  rfl

/-- A group without pending deferred faults has none to drop for a lane (R344). -/
theorem Group.dropFaultLane_nil {g : Group} (h : g.deferred = []) (l : Nat) :
    Group.dropFaultLane { g with faultRegs := g.faultRegs ++ g.faultRegsOf l } l = g := by
  unfold Group.dropFaultLane Group.faultRegsOf
  simp only [h, List.flatMap_nil, List.filter_nil, List.append_nil, List.map_nil]
  rw [← h]

theorem State.unpark_parked {s : State} {k : Nat} (h : (s.me.lane k).isParked = true) (hd : s.me.deferred = []) :
    s.unpark s.cur k = s.freed k (fun m => { m with cond := .live, place := .none }) := by
  have hp : ((s.group s.cur).lane k).isParked = true := h
  have hdeferred : ((s.withdraw s.cur k).group s.cur).deferred = [] := by
    obtain ⟨gs, hme⟩ := (s.withdraw_withdrawn k).me
    rw [hme]
    exact hd
  unfold State.unpark
  simp only [hp, Bool.not_true, Bool.false_eq_true, if_false]
  unfold State.freed State.onGroup
  dsimp only
  rw [Group.dropFaultLane_nil hdeferred]

theorem State.unpark_live {s : State} {k : Nat} (h : (s.me.lane k).isParked = false) : s.unpark s.cur k = s := by
  have hp : ((s.group s.cur).lane k).isParked = false := h
  unfold State.unpark
  simp only [hp, Bool.not_false, if_true]

/-- The places at which a lane waits (R344). -/
theorem Lane.waits_eq_true {n : Lane} {r : ParkReason} (hc : n.cond = .parked r)
    (hp : (∃ h w, n.place = .gathering h w) ∨ (∃ b, n.place = .barrier b) ∨ n.place = .gridBarrier ∨ n.place = .slotWait) : n.waits = true := by
  unfold Lane.waits Lane.isParked
  rcases hp with ⟨h, w, hp⟩ | ⟨b, hp⟩ | hp | hp <;> simp only [hp, hc]

theorem Lane.waits_of_not_parked {n : Lane} (h : n.isParked = false) : n.waits = false := by
  unfold Lane.waits
  cases n.place <;> simp [h]

theorem Lane.waits_parked {n : Lane} (h : n.waits = true) : n.isParked = true := by
  unfold Lane.waits at h
  cases hp : n.place <;> simp_all

theorem Lane.waits_fixed {n : Lane} (h : n.waits = true) (hr : n.region = none) : n.fixed = false := by
  have hparked := n.waits_parked h
  unfold Lane.waits at h
  unfold Lane.fixed Lane.counts
  cases hp : n.place <;> simp_all

/-! ### VPCWR behind its gate -/

section
variable {s : State} {a : BitVec 7} {ea : Bool} {field : BitVec 4} {lane : BitVec 8} {k : Nat}

theorem vpcwr_gate_go (h : s.ready [a.toNat] []) : s.me.gateOn [(s.me.run.act, a.toNat, ea)] [] = .go :=
  Group.gate_ready (srcs := [(a.toNat, ea)]) h

/-- Field 2 takes only the values 0 and 1 (R134). -/
theorem execVpcwr_value (h : s.ready [a.toNat] []) (hv : 2 ≤ (s.me.src .int 0 a.toNat).toNat) :
    execVpcwr a ea 2 lane s = .next (s.trapHere 0x09 9) := by
  unfold execVpcwr
  simp [vpcwr_gate_go h, hv, State.gated]

/-- Fields other than 1 are for handlers (R134). -/
theorem execVpcwr_outside (h : s.ready [a.toNat] []) (hh : s.me.run.handler = false) (hf : field ≠ 1)
    (hv : ¬ (field = 2 ∧ 2 ≤ (s.me.src .int 0 a.toNat).toNat)) : execVpcwr a ea field lane s = .next (s.trapHere 0x0F s.me.run.classOp) := by
  have h1 : field.toNat ≠ 1 := fun c => hf (BitVec.toNat_inj.1 c)
  have h2 : ¬ (field.toNat = 2 ∧ 2 ≤ (s.me.src .int 0 a.toNat).toNat) := fun c => hv ⟨BitVec.toNat_inj.1 c.1, c.2⟩
  unfold execVpcwr
  simp [vpcwr_gate_go h, h1, h2, hh, State.gated]

theorem execVpcwr_vpc (hk : lane.toNat % 64 = k) (h : s.ready [a.toNat] []) (hh : s.me.run.handler = true) : execVpcwr a ea 0 lane s =
    .next ((if (s.me.lane k).fixed then s else s.writeVpc s.cur k (s.me.src .int 0 a.toNat)).advance 2 1) := by
  subst hk
  unfold execVpcwr
  simp [vpcwr_gate_go h, hh]

theorem execVpcwr_flags (hk : lane.toNat % 64 = k) (h : s.ready [a.toNat] []) : ∃ w, execVpcwr a ea 1 lane s =
    .next ((if (s.me.lane k).counts then
      s.commit s.cur (s.me.onLane k (fun m => { m with fpflags := (s.me.src .int 0 a.toNat).truncate 5 })) w else s).advance 2 1) := by
  subst hk
  unfold execVpcwr
  simp only [vpcwr_gate_go h]
  exact ⟨_, rfl⟩

theorem execVpcwr_cond (hk : lane.toNat % 64 = k) (h : s.ready [a.toNat] []) (hh : s.me.run.handler = true) (hv : (s.me.src .int 0 a.toNat).toNat < 2) :
    execVpcwr a ea 2 lane s = .next (State.advance
      (if (s.me.lane k).fixed then s
       else if s.me.src .int 0 a.toNat = 0 then s.unpark s.cur k
       else if (s.me.lane k).isLive then
         s.onMe (fun g => g.onLane k (fun m => { m with cond := .parked .handler, place := .none }))
       else s) 2 1) := by
  subst hk
  unfold execVpcwr
  simp [vpcwr_gate_go h, hh, Nat.not_le.2 hv]

theorem execVpcwr_flags_written (hk : lane.toNat % 64 = k) (h : s.ready [a.toNat] []) (hcounts : (s.me.lane k).counts = true) :
    s.GivesLane k { s.me.lane k with fpflags := (s.me.src .int 0 a.toNat).truncate 5 } (VecFrame 2 s) (execVpcwr a ea 1 lane s) := by
  obtain ⟨w, hw⟩ := execVpcwr_flags (ea := ea) hk h
  rw [if_pos hcounts] at hw
  obtain ⟨hframe, hlanes⟩ := VecFrame.of_commit (n := 2) (c := 1) (w := w) (s := s)
    (new := s.me.onLane k (fun m => { m with fpflags := (s.me.src .int 0 a.toNat).truncate 5 })) rfl
  exact ⟨_, hw, hframe, fun l h64 => (hlanes l h64).trans (Group.lane_onLane _ _ _ _)⟩

theorem execVpcwr_flags_gone (hk : lane.toNat % 64 = k) (h : s.ready [a.toNat] []) (hcounts : (s.me.lane k).counts = false) :
    s.GivesLane k (s.me.lane k) (VecFrame 2 s) (execVpcwr a ea 1 lane s) := by
  obtain ⟨w, hw⟩ := execVpcwr_flags (ea := ea) hk h
  exact State.givesLane_same hw (if_neg (by rw [hcounts]; decide))

/-- A lane in a region, one at a recovery word and one that is gone stay as they are (R134, R344). -/
theorem execVpcwr_fixed (hk : lane.toNat % 64 = k) (h : s.ready [a.toNat] []) (hh : s.me.run.handler = true) (hfixed : (s.me.lane k).fixed = true) :
    s.GivesLane k (s.me.lane k) (VecFrame 2 s) (execVpcwr a ea 0 lane s) ∧
    ((s.me.src .int 0 a.toNat).toNat < 2 → s.GivesLane k (s.me.lane k) (VecFrame 2 s) (execVpcwr a ea 2 lane s)) :=
  ⟨State.givesLane_same (execVpcwr_vpc hk h hh) (if_pos hfixed), fun hv => State.givesLane_same (execVpcwr_cond hk h hh hv) (if_pos hfixed)⟩

/-- A live lane outside regions (R134). -/
theorem execVpcwr_live (hk : lane.toNat % 64 = k) (h : s.ready [a.toNat] []) (hh : s.me.run.handler = true) (hlive : (s.me.lane k).cond = .live)
    (hregion : (s.me.lane k).region = none) :
    let v := s.me.src .int 0 a.toNat
    s.GivesLane k { s.me.lane k with vpc := v } (VecFrame 2 s) (execVpcwr a ea 0 lane s) ∧
    (v = 0 → s.GivesLane k (s.me.lane k) (VecFrame 2 s) (execVpcwr a ea 2 lane s)) ∧
    (v = 1 → s.GivesLane k { s.me.lane k with cond := .parked .handler, place := .none } (VecFrame 2 s) (execVpcwr a ea 2 lane s)) := by
  have hfixed := Lane.fixed_live hlive hregion
  have hisLive : (s.me.lane k).isLive = true := by unfold Lane.isLive; rw [hlive]; rfl
  have hparked : (s.me.lane k).isParked = false := by unfold Lane.isParked; rw [hlive]
  refine ⟨State.givesLane_onLane (f := fun m => { m with vpc := _ }) (execVpcwr_vpc hk h hh) ?_,
    fun hv => State.givesLane_same (execVpcwr_cond hk h hh (by rw [hv]; decide)) ?_,
    fun hv => State.givesLane_onLane (f := fun m => { m with cond := .parked .handler, place := .none })
      (execVpcwr_cond hk h hh (by rw [hv]; decide)) ?_⟩
  · rw [hfixed]
    exact State.writeVpc_plain (Lane.waits_of_not_parked hparked) _
  · rw [hfixed, if_pos hv]
    exact State.unpark_live hparked
  · rw [hfixed, hv, hisLive]
    rfl

/-- A parked lane outside regions that waits nowhere (R134, R344). -/
theorem execVpcwr_parked (hk : lane.toNat % 64 = k) (h : s.ready [a.toNat] []) (hh : s.me.run.handler = true) {r : ParkReason}
    (hcond : (s.me.lane k).cond = .parked r) (hregion : (s.me.lane k).region = none) (hplace : (s.me.lane k).place = .none)
    (hdeferred : s.me.deferred = []) :
    let v := s.me.src .int 0 a.toNat
    s.GivesLane k { s.me.lane k with vpc := v } (VecFrame 2 s) (execVpcwr a ea 0 lane s) ∧
    (v = 0 → s.GivesLane k { s.me.lane k with cond := .live } (VecFrame 2 s) (execVpcwr a ea 2 lane s)) ∧
    (v = 1 → s.GivesLane k (s.me.lane k) (VecFrame 2 s) (execVpcwr a ea 2 lane s)) := by
  have hfixed := Lane.fixed_parked hcond hregion (fun c hc => by rw [hplace] at hc; cases hc)
  have hisLive : (s.me.lane k).isLive = false := by unfold Lane.isLive; rw [hcond]; rfl
  have hparked : (s.me.lane k).isParked = true := by unfold Lane.isParked; rw [hcond]
  have hlane : ({ s.me.lane k with cond := .live, place := .none } : Lane) = { s.me.lane k with cond := .live } := by rw [← hplace]
  refine ⟨State.givesLane_onLane (f := fun m => { m with vpc := _ }) (execVpcwr_vpc hk h hh) ?_,
    fun hv => hlane ▸ State.givesLane_onLane (f := fun m => { m with cond := .live, place := .none })
      (execVpcwr_cond hk h hh (by rw [hv]; decide)) ?_,
    fun hv => State.givesLane_same (execVpcwr_cond hk h hh (by rw [hv]; decide)) ?_⟩
  · rw [hfixed]
    exact State.writeVpc_plain (by unfold Lane.waits; rw [hplace]) _
  · rw [hfixed, if_pos hv, State.unpark_parked hparked hdeferred, State.freed, State.withdraw_none hplace]
    rfl
  · rw [hfixed, hv, hisLive]
    rfl

/-- A lane that waits is freed (R344). -/
theorem execVpcwr_frees (hk : lane.toNat % 64 = k) (h : s.ready [a.toNat] []) (hh : s.me.run.handler = true) (hwaits : (s.me.lane k).waits = true)
    (hregion : (s.me.lane k).region = none) (hdeferred : s.me.deferred = []) {P : State → Prop} (hP : ∀ f, P ((s.freed k f).advance 2 1)) :
    let v := s.me.src .int 0 a.toNat
    s.GivesLane k { s.me.lane k with vpc := v, cond := .parked .handler, place := .none } P (execVpcwr a ea 0 lane s) ∧
    (v = 0 → s.GivesLane k { s.me.lane k with cond := .live, place := .none } P (execVpcwr a ea 2 lane s)) := by
  have hfixed := Lane.waits_fixed hwaits hregion
  refine ⟨⟨_, execVpcwr_vpc hk h hh, ?_⟩, fun hv => ⟨_, execVpcwr_cond hk h hh (by rw [hv]; decide), ?_⟩⟩
  · rw [hfixed, State.writeVpc_waits hwaits]
    exact ⟨hP _, ((s.withdraw_withdrawn k).freed_frame k _).2⟩
  · rw [hfixed, if_pos hv, State.unpark_parked (Lane.waits_parked hwaits) hdeferred]
    exact ⟨hP _, ((s.withdraw_withdrawn k).freed_frame k _).2⟩

end

/-- Settles O14: VPCRD is a scalar word; VPCWR is one change behind an open gate, which frees a lane where the lane waits. -/
theorem laneStatusWords : Obligations.LaneStatusWords := by
  unfold Obligations.LaneStatusWords
  refine ⟨fun s d field lane _ _ h => ?_, fun s a ea field lane h => ?_⟩
  · intro n reason cond
    have hcond (x : LaneCond) : cond x = x.code := by
      cases x with
      | parked r => cases r <;> rfl
      | _ => rfl
    rw [exec_vpcrd, hcond]
    exact execVpcrd_go h field lane
  · intro k n v i handler given gives waiting frees but
    have h64 : k < 64 := Nat.mod_lt _ (by norm_num)
    have inField {x : BitVec 4} {n' : Lane} {P : State → Prop} (hx : s.GivesLane k n' P (execVpcwr a ea x lane s)) : field = x → given n' P := by
      rintro rfl
      exact hx
    have releases {w : State} {g : Group} {teams : FMap Team} {dies : FMap Die} (hw : waiting) (hwaits : n.waits = true)
        (hback : s.withdraw s.cur k = w) (hg : w.group s.cur = g) (hteams : w.teams = teams) (hdies : w.dies = dies) : frees (but g teams dies) := by
      obtain ⟨hh, hregion, hdeferred⟩ := hw
      subst hback
      obtain ⟨hvpc, hlive⟩ := execVpcwr_frees (ea := ea) (lane := lane) rfl h hh hwaits hregion hdeferred (State.freed_from hg hteams hdies)
      exact ⟨inField hvpc, fun hf hv => inField (hlive hv) hf⟩
    refine ⟨fun hf hcounts => inField (execVpcwr_flags_written rfl h hcounts) hf, fun hf hcounts => inField (execVpcwr_flags_gone rfl h hcounts) hf,
      fun hh hcond hregion => ?_, fun r hw hcond hplace => ?_, fun r p w hw hcond hplace => ?_, fun r b hw hcond hplace => ?_,
      fun r hw hcond hplace => ?_, fun r hw hcond hplace => ?_, fun hh hfixed => ?_, ?_,
      fun hh hf hv => execVpcwr_outside h hh hf hv⟩
    · obtain ⟨hvpc, hlive, hpark⟩ := execVpcwr_live (ea := ea) (lane := lane) rfl h hh hcond hregion
      exact ⟨inField hvpc, fun hf hv => inField (hlive hv) hf, fun hf hv => inField (hpark hv) hf⟩
    · obtain ⟨hh, hregion, hdeferred⟩ := hw
      obtain ⟨hvpc, hlive, hpark⟩ := execVpcwr_parked (ea := ea) (lane := lane) rfl h hh hcond hregion hplace hdeferred
      exact ⟨inField hvpc, fun hf hv => inField (hlive hv) hf, fun hf hv => inField (hpark hv) hf⟩
    · have hback := State.withdraw_gathering hplace
      rw [oneLane_eq h64] at hback
      exact releases hw (Lane.waits_eq_true hcond (.inl ⟨p, w, hplace⟩)) hback (State.group_onGroup_self _ _ _) rfl rfl
    · have hback := State.withdraw_barrier hplace
      rw [oneLane_eq h64] at hback
      exact releases hw (Lane.waits_eq_true hcond (.inr (.inl ⟨b, hplace⟩))) hback rfl rfl rfl
    · have hback := State.withdraw_gridBarrier hplace
      rw [oneLane_eq h64] at hback
      exact releases hw (Lane.waits_eq_true hcond (.inr (.inr (.inl hplace)))) hback rfl rfl rfl
    · intro die others hcluster
      have hback := State.withdraw_slotWait hplace
      rw [dieOf_eq hcluster] at hback
      exact releases hw (Lane.waits_eq_true hcond (.inr (.inr (.inr hplace)))) hback rfl rfl rfl
    · obtain ⟨hvpc, hcond⟩ := execVpcwr_fixed (ea := ea) (lane := lane) rfl h hh (Lane.fixed_eq_true hfixed)
      exact ⟨inField hvpc, fun hf hv => inField (hcond hv) hf⟩
    · rintro rfl hv
      exact execVpcwr_value h hv

end Sys2Proof.Machine
end

