-- ==== Sys2Proof/Proofs/MemoryWords.lean ====
section
/-! SUPPORT. Memory words behind an open gate: the requests of a set of lanes, and the word that each form issues (R142, R143, R149, R154, R160). -/
namespace Sys2Proof.Machine

/-! ### Sets of lanes as lists -/

theorem lanesIn_filter (m : LaneSet) (p : Nat → Bool) : (lanesIn m).filter p = lanesIn (setOf (fun l => inSet m l && p l)) := by
  unfold lanesIn
  rw [List.filter_filter]
  refine List.filter_congr (fun l hl => ?_)
  rw [inSet_setOf, decide_eq_true (List.mem_range.1 hl), Bool.true_and, Bool.and_comm]

/-- The lanes of a set, from the lowest on. -/
theorem lanesIn_eq_cons {m : LaneSet} {low : Nat} (h : inSet m low = true) (hlow : ∀ l, l < low → inSet m l = false) :
    ∃ ls, lanesIn m = low :: ls := by
  have hhead := lowest_eq h hlow
  unfold lowest at hhead
  cases hls : lanesIn m with
  | nil => exact absurd ((mem_lanesIn m low).2 h) (by rw [hls]; exact List.not_mem_nil)
  | cons k ls =>
    rw [hls] at hhead
    exact ⟨ls, congrArg (· :: ls) hhead⟩

theorem setOf_inSet (m : LaneSet) : setOf (inSet m) = m := by
  refine BitVec.eq_of_getLsbD_eq (fun l hl => ?_)
  exact (inSet_setOf (inSet m) l).trans (by rw [decide_eq_true hl, Bool.true_and]; rfl)

theorem inSet_oneLane {l low : Nat} (h : low < 64) : inSet (oneLane low) l = (l == low) := by
  unfold oneLane
  rw [inSet_setOf]
  by_cases hl : l = low
  · simp [hl, h]
  · simp [hl]

/-! ### Requests of a set of lanes -/

/-- One request for each lane of a set, ascending. -/
def reqsOf (m : LaneSet) (ea : Nat → Nat) (data : Nat → List (BitVec 8)) : List Req :=
  (lanesIn m).map (fun l => { lane := l, ea := ea l, data := data l })

theorem mem_reqsOf {m : LaneSet} {ea : Nat → Nat} {data : Nat → List (BitVec 8)} {q : Req} :
    q ∈ reqsOf m ea data ↔ ∃ l, inSet m l = true ∧ { lane := l, ea := ea l, data := data l } = q := by
  simp [reqsOf]

theorem reqsOf_filter (m : LaneSet) (ea : Nat → Nat) (data : Nat → List (BitVec 8)) (p : Nat → Bool) :
    (reqsOf m ea data).filter (fun q => p q.ea) = reqsOf (setOf (fun l => inSet m l && p (ea l))) ea data := by
  unfold reqsOf
  rw [List.filter_map, ← lanesIn_filter]
  rfl

theorem setOf_reqsOf (m : LaneSet) (ea : Nat → Nat) (data : Nat → List (BitVec 8)) :
    setOf (fun l => (reqsOf m ea data).any (fun q => q.lane == l)) = m := by
  rw [← setOf_inSet m]
  congr 1
  funext l
  rw [Bool.eq_iff_iff, List.any_eq_true, setOf_inSet]
  constructor
  · rintro ⟨q, hq, hl⟩
    obtain ⟨k, hk, rfl⟩ := mem_reqsOf.1 hq
    rwa [← eq_of_beq hl]
  · exact fun hl => ⟨_, mem_reqsOf.2 ⟨l, hl, rfl⟩, beq_self_eq_true l⟩

/-! ### The gate -/

/-- The gate of a word whose operands are ready and whose sources have no empty action. -/
theorem State.gate_plain {s : State} {srcs dsts : List Nat} (h : s.ready srcs dsts) : s.me.gate (srcs.map (fun o => (o, false))) dsts = .go :=
  Group.gate_ready (by rw [List.map_map]; simpa [Function.comp_def, State.ready] using h)

/-- A memory word whose operands are ready in the active lanes goes on, whatever its empty actions. -/
theorem State.memWord_ready {s : State} {srcs : List (Nat × Bool)} {dsts : List Nat} (m : MemWord) (h : s.ready (srcs.map (·.1)) dsts) :
    s.memWord (srcs.map (fun p => (s.me.run.act, p))) (dsts.map (fun r => (s.me.run.act, r))) m = .next (s.memBody m) :=
  congrArg (fun gt => Host.Outcome.next (s.gated gt (s.memBody m))) (Group.gate_ready h)

/-- The same where no source has an empty action, the operands of the address first. -/
theorem State.memWord_full {s : State} {a : BitVec 7} {rs dsts : List Nat} (m : MemWord) (h : s.ready ([a.toNat, a.toNat + 1] ++ rs) dsts) :
    s.memWord (addrSrcs s.me.run.act a.toNat ++ rs.map (fun r => (s.me.run.act, r, false))) (dsts.map (fun r => (s.me.run.act, r))) m =
      .next (s.memBody m) :=
  congrArg (fun gt => Host.Outcome.next (s.gated gt (s.memBody m))) (State.gate_addr h)

/-- The effective address of a lane: an even pair and an offset (R142). -/
def Group.ea (g : Group) (a : BitVec 7) (off : BitVec 32) (l : Nat) : Nat := (g.src64 l a.toNat + off.signExtend 64).toNat

theorem Group.eaOf_addrOf (g : Group) (a : BitVec 7) (off : BitVec 32) (l : Nat) : eaOf (g.addrOf l a.toNat) off = g.ea a off l := by
  unfold eaOf Group.addrOf Group.ea
  rw [BitVec.ofNat_toNat, BitVec.setWidth_eq]

/-! ### The forms -/

section
variable {s : State} {d a : BitVec 7} {off : BitVec 32} {n : Nat} {order : BitVec 2} {scope reuse : BitVec 3}

/-- The word that a vector load issues. -/
def Group.loadOf (g : Group) (d a : BitVec 7) (off : BitVec 32) (n : Nat) (order : BitVec 2) (scope reuse : BitVec 3) (m : MemWord) : MemWord :=
  { m with
    dest := some d.toNat, order := order.toNat, scope := scope.toNat, reuse := reuse.toNat, words := n
    reqs := reqsOf g.run.act (g.ea a off) (fun _ => []) }

theorem State.loadWord_ready {m : MemWord} (h : s.ready [a.toNat, a.toNat + 1] (regRun d.toNat m.nregs)) :
    s.loadWord d a off n order scope reuse m = .next (s.memBody (s.me.loadOf d a off n order scope reuse m)) := by
  unfold State.loadWord
  simp only [Group.eaOf_addrOf]
  exact State.memWord_full (rs := []) _ h

/-- The word that a vector store issues. -/
def Group.storeOf (g : Group) (d a : BitVec 7) (off : BitVec 32) (n : Nat) (order : BitVec 2) (scope reuse : BitVec 3) (m : MemWord) : MemWord :=
  { m with
    order := order.toNat, scope := scope.toNat, reuse := reuse.toNat, words := n
    reqs := reqsOf g.run.act (g.ea a off) (fun l => g.dataOf l d.toNat m.bytes) }

theorem State.storeWord_ready {m : MemWord} (h : s.ready ([a.toNat, a.toNat + 1] ++ regRun d.toNat ((m.bytes + 3) / 4)) []) :
    s.storeWord d a off n order scope reuse m = .next (s.memBody (s.me.storeOf d a off n order scope reuse m)) := by
  unfold State.storeWord
  simp only [Group.eaOf_addrOf]
  exact State.memWord_full (dsts := []) _ h

/-- The bytes of data that an atomic carries: two values for a compare-and-swap (R155). -/
def carried (op bytes : Nat) : Nat := if isCas op then 2 * bytes else bytes

/-- The word that a vector atomic issues. -/
def Group.atomOf (g : Group) (op : Nat) (scratch : Bool) (bytes : Nat) (d a : BitVec 7) (off : BitVec 32) (n : Nat) (order : BitVec 2)
    (scope reuse : BitVec 3) : MemWord :=
  { kind := .atomic op, scratch := scratch, bytes := bytes, align := bytes, dest := if d.toNat < 72 then some d.toNat else none, nregs := bytes / 4
    order := order.toNat, scope := scope.toNat, reuse := reuse.toNat, words := n
    reqs := reqsOf g.run.act (g.ea a off) (fun l => g.dataOf l d.toNat (carried op bytes)) }

theorem State.atomWord_ready {op bytes : Nat} {scratch : Bool} (h : s.ready ([a.toNat, a.toNat + 1] ++ regRun d.toNat (carried op bytes / 4))
    (if d.toNat < 72 then regRun d.toNat (bytes / 4) else [])) :
    s.atomWord op scratch bytes d a off n order scope reuse = .next (s.memBody (s.me.atomOf op scratch bytes d a off n order scope reuse)) := by
  have hdst : (if d.toNat < 72 then (regRun d.toNat (bytes / 4)).map (fun r => (s.me.run.act, r)) else []) =
      (if d.toNat < 72 then regRun d.toNat (bytes / 4) else []).map (fun r => (s.me.run.act, r)) := by
    split_ifs <;> rfl
  unfold State.atomWord
  simp only [Group.eaOf_addrOf, decide_eq_true_eq]
  rw [hdst]
  exact State.memWord_full _ h

end

/-! ### The indexed forms -/

/-- The lanes of an indexed word: active, and their guard holds (R160). -/
def Group.idxOn (g : Group) (pg : BitVec 5) (neg : Bool) (l : Nat) : Bool := inSet g.run.act l && ((g.lane l).pred pg.toNat != neg)

/-- The effective address of an indexed word (R160). -/
def Group.idxEa (g : Group) (a b : BitVec 7) (w l : Nat) : Nat :=
  (g.src64 l a.toNat + (g.src .int l b.toNat).signExtend 64 * BitVec.ofNat 64 w).toNat

theorem idxWidth_eq (st : BitVec 4) :
    (if st.toNat = 8 ∨ st.toNat = 9 then 4 else if st.toNat = 10 ∨ st.toNat = 11 then 2 else 1) = idxWidth st := by
  revert st
  decide

theorem idxWidth_le (st : BitVec 4) : idxWidth st ≤ 4 := by
  revert st
  decide

theorem Group.idxReqs_eq (g : Group) (a b : BitVec 7) (pg : BitVec 5) (neg : Bool) (w : Nat) (data : Nat → List (BitVec 8)) :
    g.idxReqs a b pg neg w data = reqsOf (setOf (g.idxOn pg neg)) (g.idxEa a b w) data :=
  congrArg (List.map (fun l => ({ lane := l, ea := g.idxEa a b w l, data := data l } : Req))) (lanesIn_filter g.run.act (guarded pg neg g))

section
variable {s : State} {d a b : BitVec 7} {ea eb : Bool} {pg : BitVec 5} {neg : Bool} {st : BitVec 4} {order : BitVec 2} {scope reuse : BitVec 3}

/-- The word that LD.IDX issues. -/
def Group.loadIdxOf (g : Group) (d a b : BitVec 7) (pg : BitVec 5) (neg : Bool) (st : BitVec 4) (order : BitVec 2) (scope reuse : BitVec 3) : MemWord :=
  { kind := .load, bytes := idxWidth st, align := idxWidth st, dest := some d.toNat, nregs := 1, width := idxWidth st
    sext := decide (st.toNat = 10 ∨ st.toNat = 12), order := order.toNat, scope := scope.toNat, reuse := reuse.toNat, words := 2
    reqs := reqsOf (setOf (g.idxOn pg neg)) (g.idxEa a b (idxWidth st)) (fun _ => []) }

theorem exec_ldIdx_ready (h : s.ready [a.toNat, a.toNat + 1, b.toNat] [d.toNat]) :
    exec (.ldIdx d a b ea eb pg neg st order scope reuse) s = .next (s.memBody (s.me.loadIdxOf d a b pg neg st order scope reuse)) := by
  rw [exec_ldIdx]
  unfold execLdIdx
  simp only [Group.idxReqs_eq]
  exact State.memWord_ready (srcs := [(a.toNat, false), (a.toNat + 1, false), (b.toNat, eb)]) (dsts := [d.toNat]) _ h

/-- The word that ST.IDX issues. -/
def Group.storeIdxOf (g : Group) (d a b : BitVec 7) (pg : BitVec 5) (neg : Bool) (st : BitVec 4) (order : BitVec 2) (scope reuse : BitVec 3) : MemWord :=
  { kind := .store, bytes := idxWidth st, align := idxWidth st, order := order.toNat, scope := scope.toNat, reuse := reuse.toNat, words := 2
    reqs := reqsOf (setOf (g.idxOn pg neg)) (g.idxEa a b (idxWidth st)) (fun l => g.dataOf l d.toNat (idxWidth st)) }

theorem exec_stIdx_ready (h : s.ready [a.toNat, a.toNat + 1, b.toNat, d.toNat] []) :
    exec (.stIdx d a b ea eb pg neg st order scope reuse) s = .next (s.memBody (s.me.storeIdxOf d a b pg neg st order scope reuse)) := by
  rw [exec_stIdx]
  unfold execStIdx
  simp only [Group.idxReqs_eq]
  exact State.memWord_ready (srcs := [(a.toNat, false), (a.toNat + 1, false), (b.toNat, eb), (d.toNat, false)]) (dsts := []) _ h

end

end Sys2Proof.Machine
end

