-- ==== Sys2Proof/Proofs/MemoryAccesses.lean ====
section
/-! SUPPORT. Memory words that nothing holds back (R142 to R144, R149, R160), and the atomic of the scratchpad that a full record log does hold back (R369). -/
namespace Sys2Proof.Machine

/-- The registers that a word fills: from its destination up. -/
def MemWord.regs (m : MemWord) : List Nat := match m.dest with | some d => (List.range m.nregs).map (d + ·) | none => []

section
variable {s : State} {m : MemWord} {ea : Nat → Nat} {data : Nat → List (BitVec 8)} {loc : Nat → Nat → Space × Nat}

/-- `State.memBody_free` for a word with a request for each active lane. -/
theorem State.memBody_active (hs : m.scratch = false) (hf : s.memFree) (hreq : m.reqs = reqsOf s.me.run.act ea data)
    (hal : ∀ l, inSet s.me.run.act l = true → ea l % m.align = 0)
    (hmap : s.mapped (decide (m.kind ≠ .load)) m.kind.isAtomic m.packed m.bytes (inSet s.me.run.act) ea loc)
    (hlog : m.kind.isAtomic = true → s.logStalls s.myTeam.grid = false) :
    Issued m.words (inSet s.me.run.act) m.regs
      (s.accessHere m.kind m.order m.scope m.reuse m.words m.dest m.nregs m.width m.sext (s.partsOf m.packed m.bytes (fun _ => true) ea loc data))
      s (s.memBody m) := by
  obtain ⟨l, hl⟩ := lanesIn_ne hf.1
  have hbody := s.memBody_free m (fun _ => true) ea data loc hs hf ⟨l, hl, rfl⟩ (by rw [List.filter_true]; exact hreq) (fun l hl _ => hal l hl)
    (by simpa only [Bool.and_true] using hmap) hlog
  simp only [Bool.and_true] at hbody
  exact hbody

/-- `State.memBody_free` for a word with a request for each lane of a part of the active set. -/
theorem State.memBody_guarded {on : Nat → Bool} (hon : ∀ l, on l = true → inSet s.me.run.act l = true) (hs : m.scratch = false) (hf : s.memFree)
    (hne : ∃ l, on l = true) (hreq : m.reqs = reqsOf (setOf on) ea data)
    (hal : ∀ l, on l = true → ea l % m.align = 0)
    (hmap : s.mapped (decide (m.kind ≠ .load)) m.kind.isAtomic m.packed m.bytes on ea loc)
    (hlog : m.kind.isAtomic = true → s.logStalls s.myTeam.grid = false) :
    Issued m.words on m.regs
      (s.accessHere m.kind m.order m.scope m.reuse m.words m.dest m.nregs m.width m.sext (s.partsOf m.packed m.bytes on ea loc data)) s (s.memBody m) := by
  have hand : (fun l => inSet s.me.run.act l && on l) = on := by
    funext l
    rw [Bool.and_eq_right_iff_imp]
    exact hon l
  obtain ⟨l, hl⟩ := hne
  have hbody := s.memBody_free m on ea data loc hs hf ⟨l, hon l hl, hl⟩ (by rw [lanesIn_filter, hand]; exact hreq) (fun l _ ho => hal l ho)
    (by rw [hand]; exact hmap) hlog
  rwa [hand] at hbody

end

/-! ### Loads and stores -/

section
variable {s : State} {d a : BitVec 7} {off : BitVec 32} {n : Nat} {order : BitVec 2} {scope reuse : BitVec 3} {m : MemWord}
  {loc : Nat → Nat → Space × Nat}

/-- A load of the scratchpad that nothing holds back (R143, R151). -/
theorem State.loadWord_scratch (hk : m.kind = .load) (hs : m.scratch = true) (hf : s.memFree) (hr : s.ready [a.toNat, a.toNat + 1] (regRun d.toNat m.nregs))
    (hal : ∀ l, inSet s.me.run.act l = true → s.me.ea a off l % m.align = 0) (hin : s.inScratch m.bytes (s.me.ea a off)) :
    Gives (s.loadWord d a off n order scope reuse m) (Issued n (inSet s.me.run.act) ((List.range m.nregs).map (d.toNat + ·))
      (s.accessHere .load order.toNat scope.toNat reuse.toNat n (some d.toNat) m.nregs m.width m.sext
        (s.scratchParts m.bytes (s.me.ea a off) (fun _ => []))) s) := by
  refine ⟨_, State.loadWord_ready hr, ?_⟩
  rw [← hk]
  exact s.memBody_scratch (s.me.loadOf d a off n order scope reuse m) _ _ hs hf rfl hal hin (fun h => absurd h (by simp [Group.loadOf, hk, AccKind.isAtomic]))

/-- A store that nothing holds back (R143). -/
theorem State.storeWord_global (hk : m.kind = .store) (hs : m.scratch = false) (hd : m.dest = none) (hf : s.memFree)
    (hr : s.ready ([a.toNat, a.toNat + 1] ++ regRun d.toNat ((m.bytes + 3) / 4)) [])
    (hal : ∀ l, inSet s.me.run.act l = true → s.me.ea a off l % m.align = 0)
    (hmap : s.mapped true false m.packed m.bytes (inSet s.me.run.act) (s.me.ea a off) loc) :
    Gives (s.storeWord d a off n order scope reuse m) (Issued n (inSet s.me.run.act) []
      (s.accessHere .store order.toNat scope.toNat reuse.toNat n none m.nregs m.width m.sext
        (s.partsOf m.packed m.bytes (fun _ => true) (s.me.ea a off) loc (fun l => s.me.dataOf l d.toNat m.bytes))) s) := by
  refine ⟨_, State.storeWord_ready hr, ?_⟩
  have hbody := State.memBody_active (m := s.me.storeOf d a off n order scope reuse m) hs hf rfl hal
    (by simpa [Group.storeOf, hk, AccKind.isAtomic] using hmap) (fun h => absurd h (by simp [Group.storeOf, hk, AccKind.isAtomic]))
  simpa only [Group.storeOf, MemWord.regs, hk, hd] using hbody

/-- A store to the scratchpad that nothing holds back (R143, R151). -/
theorem State.storeWord_scratch (hk : m.kind = .store) (hs : m.scratch = true) (hd : m.dest = none) (hf : s.memFree)
    (hr : s.ready ([a.toNat, a.toNat + 1] ++ regRun d.toNat ((m.bytes + 3) / 4)) [])
    (hal : ∀ l, inSet s.me.run.act l = true → s.me.ea a off l % m.align = 0) (hin : s.inScratch m.bytes (s.me.ea a off)) :
    Gives (s.storeWord d a off n order scope reuse m) (Issued n (inSet s.me.run.act) []
      (s.accessHere .store order.toNat scope.toNat reuse.toNat n none m.nregs m.width m.sext
        (s.scratchParts m.bytes (s.me.ea a off) (fun l => s.me.dataOf l d.toNat m.bytes))) s) := by
  refine ⟨_, State.storeWord_ready hr, ?_⟩
  have hbody := s.memBody_scratch (s.me.storeOf d a off n order scope reuse m) _ _ hs hf rfl hal hin
    (fun h => absurd h (by simp [Group.storeOf, hk, AccKind.isAtomic]))
  simpa only [Group.storeOf, hk, hd] using hbody

end

/-- Settles O15: behind the open gate the word of each form starts its access. -/
theorem loadWords : Obligations.LoadWords := by
  unfold Obligations.LoadWords
  intro s d a off order scope reuse loc hf act ea issued one loads two scratch
  have load {i i' : Instr} {bytes align nregs width : Nat} {sext packed : Bool}
      (hi : exec i s = s.loadWord d a 0 1 order scope reuse
        { kind := .load, bytes := bytes, align := align, nregs := nregs, width := width, sext := sext, packed := packed, reqs := [] })
      (hi' : exec i' s = s.loadWord d a off 2 order scope reuse
        { kind := .load, bytes := bytes, align := align, nregs := nregs, width := width, sext := sext, packed := packed, reqs := [] }) :
      loads i i' bytes align nregs width sext packed :=
    ⟨fun hr hal hmap => hi ▸ State.loadWord_free hf 1 0 order scope reuse bytes align nregs width sext packed hr hal hmap,
      fun hr hal hmap => hi' ▸ State.loadWord_free hf 2 off order scope reuse bytes align nregs width sext packed hr hal hmap⟩
  have near {i i' : Instr} {bytes nregs : Nat}
      (hi : exec i s = s.loadWord d a 0 1 order scope 0 { kind := .load, scratch := true, bytes := bytes, align := bytes, nregs := nregs, reqs := [] })
      (hi' : exec i' s = s.loadWord d a off 2 order scope 0
        { kind := .load, scratch := true, bytes := bytes, align := bytes, nregs := nregs, reqs := [] }) :
      scratch i i' bytes nregs :=
    ⟨fun hr hal hin => hi ▸ State.loadWord_scratch rfl rfl hf hr hal hin, fun hr hal hin => hi' ▸ State.loadWord_scratch rfl rfl hf hr hal hin⟩
  exact ⟨load (exec_ldB ..) (exec_ldBExt ..), load (exec_ldSb ..) (exec_ldSbExt ..), load (exec_ldH ..) (exec_ldHExt ..),
    load (exec_ldSh ..) (exec_ldShExt ..), load (exec_ldW ..) (exec_ldWExt ..), load (exec_ldD ..) (exec_ldDExt ..),
    load (exec_ldQ ..) (exec_ldQExt ..), load (exec_ldpk6 ..) (exec_ldpk6Ext ..), load (exec_ldpk4 ..) (exec_ldpk4Ext ..),
    near (exec_ldsW ..) (exec_ldsWExt ..), near (exec_ldsD ..) (exec_ldsDExt ..), near (exec_ldsQ ..) (exec_ldsQExt ..)⟩

/-- Settles O16: a store has no destination, and its requests carry the bytes of its data registers. -/
theorem storeWords : Obligations.StoreWords := by
  unfold Obligations.StoreWords
  intro s d a off order scope reuse loc hf act ea data needs issued one stores two scratch
  have store {i i' : Instr} {bytes : Nat} (hdata : (fun l => s.me.dataOf l d.toNat bytes) = data bytes)
      (hi : exec i s = s.storeWord d a 0 1 order scope reuse { kind := .store, bytes := bytes, align := bytes, reqs := [] })
      (hi' : exec i' s = s.storeWord d a off 2 order scope reuse { kind := .store, bytes := bytes, align := bytes, reqs := [] }) :
      stores i i' bytes :=
    ⟨fun hr hal hmap => hi ▸ hdata ▸ State.storeWord_global rfl rfl rfl hf hr hal hmap,
      fun hr hal hmap => hi' ▸ hdata ▸ State.storeWord_global rfl rfl rfl hf hr hal hmap⟩
  have near {i i' : Instr} {bytes : Nat} (twice : Bool) (hdata : (fun l => s.me.dataOf l d.toNat bytes) = data bytes)
      (hi : exec i s = s.storeWord d a 0 1 order scope 0
        { kind := .store, scratch := true, bytes := bytes, align := bytes, twice := twice, reqs := [] })
      (hi' : exec i' s = s.storeWord d a off 2 order scope 0
        { kind := .store, scratch := true, bytes := bytes, align := bytes, twice := twice, reqs := [] }) :
      scratch i i' bytes :=
    ⟨fun hr hal hin => hi ▸ hdata ▸ State.storeWord_scratch rfl rfl rfl hf hr hal hin,
      fun hr hal hin => hi' ▸ hdata ▸ State.storeWord_scratch rfl rfl rfl hf hr hal hin⟩
  exact ⟨store rfl (exec_stB ..) (exec_stBExt ..), store rfl (exec_stH ..) (exec_stHExt ..), store rfl (exec_stW ..) (exec_stWExt ..),
    store rfl (exec_stD ..) (exec_stDExt ..), store rfl (exec_stQ ..) (exec_stQExt ..),
    near true rfl (exec_stsB ..) (exec_stsBExt ..), near true rfl (exec_stsH ..) (exec_stsHExt ..), near false rfl (exec_stsW ..) (exec_stsWExt ..),
    near false rfl (exec_stsD ..) (exec_stsDExt ..), near false rfl (exec_stsQ ..) (exec_stsQExt ..)⟩

/-! ### Indexed words -/

/-- Settles O18: only the lanes whose guard holds have a request. -/
theorem indexedWords : Obligations.IndexedWords := by
  unfold Obligations.IndexedWords
  intro s d a b ea eb pg neg st order scope reuse loc hf
  rw [idxWidth_eq]
  intro on w addr hne hal
  have hon (l : Nat) (h : on l = true) : inSet s.me.run.act l = true := (Bool.and_eq_true_iff.1 h).1
  have hdata : (fun l => s.me.dataOf l d.toNat w) = fun l => leBytes w (s.me.src .int l d.toNat).toNat := funext fun _ => if_pos (idxWidth_le st)
  refine ⟨fun hr hmap => ⟨_, exec_ldIdx_ready hr, ?_⟩, fun hr hmap => ⟨_, exec_stIdx_ready hr, ?_⟩⟩
  · exact State.memBody_guarded (m := s.me.loadIdxOf d a b pg neg st order scope reuse) hon rfl hf hne rfl hal hmap nofun
  · rw [← hdata]
    exact State.memBody_guarded (m := s.me.storeIdxOf d a b pg neg st order scope reuse) hon rfl hf hne rfl hal hmap nofun

/-! ### Atomics -/

/-- A grid recorded in the waiting mode, its log without a ring, and a group of it with one active lane and four bytes of scratchpad. -/
def atomicStalled : State :=
  { State.reset with
    groups := [(0, { run := { act := 1 } })], teams := [(0, { scrSize := 4 })], grids := [(0, { record := { flags := 0x200 } })] }

/-- Its atomic of the scratchpad waits for the ring: it is an order point of the log like any atomic (R367, R369). -/
theorem exec_atomsAdd_stalled : exec (.atomsAdd 112 112 0 0) atomicStalled = .next (atomicStalled.block .ring) := by
  rw [exec_atomsAdd]
  rfl

theorem atomicStalled_memFree : atomicStalled.memFree := by
  refine ⟨by decide, rfl, rfl, rfl, fun l _ => ?_⟩
  exact ⟨rfl, rfl⟩

/-- The constants that the atomic takes as address and data have no full/empty bit. -/
theorem atomicStalled_ready : atomicStalled.ready [112, 113, 112] [] := by
  refine ⟨fun o ho => ?_, nofun⟩
  have h112 : 112 ≤ o := by
    simp only [List.mem_cons, List.not_mem_nil, or_false] at ho
    omega
  exact ⟨⟨fun h => by omega, fun _ h => by omega⟩, fun h => by omega⟩

/-- Refutes O17: a full log of a grid recorded in the waiting mode holds back an atomic of the scratchpad too (R367, R369), so no access begins; the statement
asks for room in the log of the other atomics only. -/
theorem not_atomicWords : ¬ Obligations.AtomicWords := by
  unfold Obligations.AtomicWords
  intro h
  obtain ⟨-, -, -, -, -, -, -, -, -, -, -, -, -, ⟨hadd, -⟩, -⟩ :=
    h atomicStalled 112 112 0 0 0 0 (fun _ _ => (.global, 0)) atomicStalled_memFree
  have haligned (l : Nat) (_ : inSet atomicStalled.me.run.act l = true) : (0 : Nat) % 4 = 0 := rfl
  have hin : atomicStalled.inScratch 4 (fun _ => 0) := fun l _ => ⟨(by decide : 0 < 4), fun ln _ => rfl⟩
  obtain ⟨t, ht, hissued⟩ := hadd atomicStalled_ready haligned hin
  cases exec_atomsAdd_stalled.symm.trans ht
  exact absurd hissued.access nofun

end Sys2Proof.Machine
end

