-- ==== Sys2Proof/Proofs/MemoryTraps.lean ====
section
/-! SUPPORT. Memory words with a misaligned address (R88, R142, R163). -/
namespace Sys2Proof.Machine

/-- Cause 0x30 was taken at the issuing word: the lanes `odd` stand in TRAPLANES, the address of the lowest of them in TRAPADDR, and nothing was accessed
(R163). -/
def State.Misaligned (odd : Nat → Bool) (addr : Nat) (s t : State) : Prop :=
  SameWorld s t ∧ t.clusters = s.clusters ∧ t.teams = s.teams ∧ t.time = s.time ∧ (∀ k, k ≠ s.cur → t.group k = s.group k) ∧
  t.me.trap.cause = BitVec.ofNat 32 (0x30 + s.me.run.idx % 16 * 2 ^ 16 + s.me.run.classOp % 4096 * 2 ^ 20) ∧ t.me.trap.pc = s.me.run.hdr ∧
  t.me.trap.addr = BitVec.ofNat 64 addr ∧ (∀ l, l < 64 → t.me.trap.lanes.getLsbD l = odd l) ∧ t.me.trapPending = true ∧
  t.me.run.stopped = true ∧ t.me.lanes = s.me.lanes ∧ t.me.sregs = s.me.sregs ∧ t.me.sEmpty = s.me.sEmpty

section
variable {s : State} {m : MemWord} {ea : Nat → Nat} {data : Nat → List (BitVec 8)} {lanes : LaneSet} {on : Nat → Bool} {low : Nat}

/-- Cause 0x30 where a handler is named and none runs. -/
theorem State.trapAddr_misaligned {odd : Nat → Bool} {addr : Nat} (hlev : s.myTeam.levels = []) (hn : (s.gridOf s.me).record.handler ≠ 0xFFFFFFFF)
    (hh : s.me.handler = false) (hodd : ∀ l, l < 64 → inSet lanes l = odd l) :
    s.Misaligned odd addr (s.trapAddr 0x30 s.me.run.classOp lanes (BitVec.ofNat 64 addr)) := by
  unfold State.trapAddr
  obtain ⟨hworld, hother, hown⟩ := s.raise_handled s.cur
    { code := 0x30, detail := s.me.run.classOp, hdr := s.me.run.hdr, word := s.me.run.idx, lanes := lanes, addr := BitVec.ofNat 64 addr }
    (some (resumeAt s.me.run.hdr s.me.run.idx s.me.run.act .ready)) (s.not_faultsLevel_of_noLevel s.cur _ hlev) hh hn
  generalize s.raise s.cur _ _ = t at hworld hother hown
  obtain ⟨gs, rfl⟩ : ∃ gs, t = { s with groups := gs } := ⟨t.groups, congrArg (fun v : State => { v with groups := t.groups }) hworld⟩
  change ({ s with groups := gs } : State).me = _ at hown
  refine ⟨rfl, rfl, rfl, rfl, hother, ?_⟩
  rw [hown]
  exact ⟨rfl, rfl, rfl, hodd, rfl, rfl, rfl, rfl, rfl⟩

/-- No absent line holds back a word outside the scratchpad, nor one whose lines are present (R151). -/
theorem State.absentLines_nil (hreq : m.reqs = reqsOf lanes ea data) (h : m.scratch = true → ∀ l, inSet lanes l = true → ea l < s.myTeam.scrSize →
    ∀ ln ∈ linesOf (s.myTeam.scrBase + ea l) m.bytes, FMap.has (s.cluster s.me.cluster).absent ln = false) : s.absentLines s.me m = [] := by
  unfold State.absentLines
  split_ifs with hs
  · rw [List.filter_eq_nil_iff]
    intro ln hln
    rw [List.mem_dedup, List.mem_flatMap] at hln
    obtain ⟨q, hq, hln⟩ := hln
    rw [hreq, List.mem_filter] at hq
    obtain ⟨⟨l, hl, rfl⟩, hsize⟩ := hq.imp mem_reqsOf.1 of_decide_eq_true
    rw [h hs l hl hsize ln hln]
    exact Bool.false_ne_true
  · rfl

/-- A memory word with a misaligned address in some lane (R163, stage 1). -/
theorem State.memBody_misaligned (hf : s.memFree) (hn : (s.gridOf s.me).record.handler ≠ 0xFFFFFFFF) (hh : s.me.handler = false)
    (hreq : m.reqs = reqsOf lanes ea data) (hon : ∀ l, inSet lanes l = on l) (habs : s.absentLines s.me m = [])
    (hlow : (on low && decide (ea low % m.align ≠ 0)) = true) (hfirst : ∀ l, l < low → (on l && decide (ea l % m.align ≠ 0)) = false) :
    s.Misaligned (fun l => on l && decide (ea l % m.align ≠ 0)) (ea low) (s.memBody m) := by
  obtain ⟨-, hfen, hroll, hlev, -⟩ := hf
  obtain ⟨odd, hset⟩ : ∃ odd : LaneSet, odd = setOf (fun l => inSet lanes l && ea l % m.align != 0) := ⟨_, rfl⟩
  have hodd (l : Nat) : inSet odd l = (on l && decide (ea l % m.align ≠ 0)) := by
    rw [hset, inSet_setOf, hon, Bool.eq_iff_iff]
    simp only [Bool.and_eq_true, decide_eq_true_eq, bne_iff_ne]
    exact ⟨fun h => h.2, fun h => ⟨inSet_lt ((hon l).trans h.1), h⟩⟩
  obtain ⟨ls, hls⟩ := lanesIn_eq_cons ((hodd low).trans hlow) (fun l hl => (hodd l).trans (hfirst l hl))
  have hbad : m.reqs.filter (fun q => q.ea % m.align != 0) = reqsOf odd ea data := by
    rw [hreq, hset]
    exact reqsOf_filter lanes ea data (fun x => x % m.align != 0)
  have hbody : s.memBody m = s.trapAddr 0x30 s.me.run.classOp odd (BitVec.ofNat 64 (ea low)) := by
    unfold State.memBody
    simp only [hbad, setOf_reqsOf, habs, State.fenced_none _ _ _ _ hfen, show (s.team s.me.team).rollback = none from hroll]
    simp [reqsOf, hls]
  rw [hbody]
  exact State.trapAddr_misaligned hlev hn hh (fun l _ => hodd l)

end

/-- A misaligned scalar word: its one lane is the lowest active one (R88, R163). -/
theorem State.scalarAccess_misaligned {s : State} {kind : AccKind} {srcs dsts : List Nat} {sa : BitVec 5} {imm : BitVec 13} {bytes low : Nat}
    {data : List (BitVec 8)} (hf : s.memFree) (hn : (s.gridOf s.me).record.handler ≠ 0xFFFFFFFF) (hh : s.me.handler = false) (hr : s.ready srcs dsts)
    (hlow : inSet s.me.run.act low = true) (hfirst : ∀ l, l < low → inSet s.me.run.act l = false)
    (hodd : (s.me.sPair sa.toNat + imm.signExtend 64).toNat % bytes ≠ 0) :
    Gives (s.scalarAccess kind srcs dsts sa imm bytes data)
      (s.Misaligned (fun l => l == low && decide ((s.me.sPair sa.toNat + imm.signExtend 64).toNat % bytes ≠ 0))
        (s.me.sPair sa.toNat + imm.signExtend 64).toNat) := by
  obtain ⟨-, hfen, hroll, hlev, -⟩ := hf
  have hword : s.scalarAccess kind srcs dsts sa imm bytes data =
      .next (s.trapAddr 0x30 s.me.run.classOp (oneLane low) (BitVec.ofNat 64 (s.me.sPair sa.toNat + imm.signExtend 64).toNat)) := by
    unfold State.scalarAccess Group.scalarLane
    dsimp only
    rw [State.gate_plain hr, State.gated_go, State.fenced_none _ _ _ _ hfen, hroll, lowest_eq hlow hfirst]
    exact congrArg Host.Outcome.next ((if_neg (by simp)).trans ((if_neg (by simp)).trans (if_pos hodd)))
  refine ⟨_, hword, State.trapAddr_misaligned hlev hn hh (fun l _ => ?_)⟩
  rw [inSet_oneLane (inSet_lt hlow), decide_eq_true hodd, Bool.and_true]

/-- Settles O19: behind the open gate stage 1 of R163 comes first, since no fence, rollback or absent line holds the word back. -/
theorem misalignedWordsTrap : Obligations.MisalignedWordsTrap := by
  unfold Obligations.MisalignedWordsTrap
  intro s d a b sd sa imm off order scope reuse ea eb pg neg st hf hn hh act at_ addr traps both load store atomic present
  have traps_of {i : Instr} {m : MemWord} {lanes : LaneSet} {on : Nat → Bool} {va : Nat → Nat} {data : Nat → List (BitVec 8)}
      (hi : exec i s = .next (s.memBody m)) (hreq : m.reqs = reqsOf lanes va data) (hon : ∀ l, inSet lanes l = on l)
      (habs : s.absentLines s.me m = []) : traps on va m.align i :=
    fun low hlow hfirst => ⟨_, hi, State.memBody_misaligned hf hn hh hreq hon habs hlow hfirst⟩
  have loads {i i' : Instr} {r : BitVec 3} {m : MemWord} {w n : Nat} (hi : exec i s = s.loadWord d a 0 1 order scope r m)
      (hi' : exec i' s = s.loadWord d a off 2 order scope r m) (hw : m.align = w) (hregs : m.nregs = n)
      (hpres : m.scratch = true → present m.bytes) : load w n i i' := by
    subst hw hregs
    exact fun hr => ⟨traps_of (m := s.me.loadOf d a 0 1 order scope r m) (hi.trans (State.loadWord_ready hr))
        rfl (fun _ => rfl) (State.absentLines_nil rfl (hpres · 0)),
      traps_of (m := s.me.loadOf d a off 2 order scope r m) (hi'.trans (State.loadWord_ready hr))
        rfl (fun _ => rfl) (State.absentLines_nil rfl (hpres · off))⟩
  have stores {i i' : Instr} {r : BitVec 3} {m : MemWord} {w n : Nat} (hi : exec i s = s.storeWord d a 0 1 order scope r m)
      (hi' : exec i' s = s.storeWord d a off 2 order scope r m) (hw : m.align = w) (hregs : (m.bytes + 3) / 4 = n)
      (hpres : m.scratch = true → present m.bytes) : store w n i i' := by
    subst hw hregs
    exact fun hr => ⟨traps_of (m := s.me.storeOf d a 0 1 order scope r m) (hi.trans (State.storeWord_ready hr))
        rfl (fun _ => rfl) (State.absentLines_nil rfl (hpres · 0)),
      traps_of (m := s.me.storeOf d a off 2 order scope r m) (hi'.trans (State.storeWord_ready hr))
        rfl (fun _ => rfl) (State.absentLines_nil rfl (hpres · off))⟩
  have atomics {i i' : Instr} {r : BitVec 3} {op w c : Nat} {scr : Bool} (hi : exec i s = s.atomWord op scr w d a 0 1 order scope r)
      (hi' : exec i' s = s.atomWord op scr w d a off 2 order scope r) (hcar : carried op w = c) (hpres : scr = true → present w) :
      atomic w c i i' := by
    subst hcar
    exact fun hr => ⟨traps_of (m := s.me.atomOf op scr w d a 0 1 order scope r) (hi.trans (State.atomWord_ready hr))
        rfl (fun _ => rfl) (State.absentLines_nil rfl (hpres · 0)),
      traps_of (m := s.me.atomOf op scr w d a off 2 order scope r) (hi'.trans (State.atomWord_ready hr))
        rfl (fun _ => rfl) (State.absentLines_nil rfl (hpres · off))⟩
  refine ⟨⟨loads (exec_ldH ..) (exec_ldHExt ..) rfl rfl nofun, loads (exec_ldSh ..) (exec_ldShExt ..) rfl rfl nofun,
      loads (exec_ldW ..) (exec_ldWExt ..) rfl rfl nofun, loads (exec_ldD ..) (exec_ldDExt ..) rfl rfl nofun,
      loads (exec_ldQ ..) (exec_ldQExt ..) rfl rfl nofun, loads (exec_ldpk6 ..) (exec_ldpk6Ext ..) rfl rfl nofun,
      loads (exec_ldpk4 ..) (exec_ldpk4Ext ..) rfl rfl nofun⟩,
    ⟨stores (exec_stH ..) (exec_stHExt ..) rfl rfl nofun, stores (exec_stW ..) (exec_stWExt ..) rfl rfl nofun,
      stores (exec_stD ..) (exec_stDExt ..) rfl rfl nofun, stores (exec_stQ ..) (exec_stQExt ..) rfl rfl nofun⟩,
    ⟨atomics (exec_atomAdd ..) (exec_atomAddExt ..) rfl nofun, atomics (exec_atomFadd ..) (exec_atomFaddExt ..) rfl nofun,
      atomics (exec_atomHfaddBf ..) (exec_atomHfaddBfExt ..) rfl nofun, atomics (exec_atomMin ..) (exec_atomMinExt ..) rfl nofun,
      atomics (exec_atomMax ..) (exec_atomMaxExt ..) rfl nofun, atomics (exec_atomMinu ..) (exec_atomMinuExt ..) rfl nofun,
      atomics (exec_atomMaxu ..) (exec_atomMaxuExt ..) rfl nofun, atomics (exec_atomAnd ..) (exec_atomAndExt ..) rfl nofun,
      atomics (exec_atomOr ..) (exec_atomOrExt ..) rfl nofun, atomics (exec_atomXor ..) (exec_atomXorExt ..) rfl nofun,
      atomics (exec_atomXchg ..) (exec_atomXchgExt ..) rfl nofun, atomics (exec_atomCas ..) (exec_atomCasExt ..) rfl nofun,
      atomics (exec_atomCasD ..) (exec_atomCasDExt ..) rfl nofun⟩,
    fun hp => ⟨loads (exec_ldsW ..) (exec_ldsWExt ..) rfl rfl (fun _ => hp), stores (exec_stsW ..) (exec_stsWExt ..) rfl rfl (fun _ => hp),
      atomics (exec_atomsAdd ..) (exec_atomsAddExt ..) rfl (fun _ => hp), atomics (exec_atomsFadd ..) (exec_atomsFaddExt ..) rfl (fun _ => hp),
      atomics (exec_atomsMin ..) (exec_atomsMinExt ..) rfl (fun _ => hp), atomics (exec_atomsMax ..) (exec_atomsMaxExt ..) rfl (fun _ => hp),
      atomics (exec_atomsXchg ..) (exec_atomsXchgExt ..) rfl (fun _ => hp), atomics (exec_atomsCas ..) (exec_atomsCasExt ..) rfl (fun _ => hp)⟩,
    fun hp => stores (exec_stsH ..) (exec_stsHExt ..) rfl rfl (fun _ => hp),
    fun hp => ⟨loads (exec_ldsD ..) (exec_ldsDExt ..) rfl rfl (fun _ => hp), stores (exec_stsD ..) (exec_stsDExt ..) rfl rfl (fun _ => hp)⟩,
    fun hp => ⟨loads (exec_ldsQ ..) (exec_ldsQExt ..) rfl rfl (fun _ => hp), stores (exec_stsQ ..) (exec_stsQExt ..) rfl rfl (fun _ => hp)⟩,
    ?_, fun low hlow hfirst => ?_⟩
  · rw [idxWidth_eq]
    have hon (l : Nat) : inSet (setOf (s.me.idxOn pg neg)) l = s.me.idxOn pg neg l := by
      rw [inSet_setOf, Bool.and_eq_right_iff_imp]
      exact fun h => decide_eq_true (inSet_lt (Bool.and_eq_true_iff.1 h).1)
    exact ⟨fun hr => traps_of (exec_ldIdx_ready hr) rfl hon (State.absentLines_nil rfl nofun),
      fun hr => traps_of (exec_stIdx_ready hr) rfl hon (State.absentLines_nil rfl nofun)⟩
  · intro one va base
    have scalar {i : Instr} {kind : AccKind} {srcs dsts : List Nat} {bytes : Nat} {bs : List (BitVec 8)}
        (hi : exec i s = s.scalarAccess kind srcs dsts sa imm bytes bs) (hr : s.ready srcs dsts) : traps one va bytes i := by
      intro k hk _
      obtain ⟨-, hodd⟩ := Bool.and_eq_true_iff.1 hk
      exact hi ▸ State.scalarAccess_misaligned hf hn hh hr hlow hfirst (of_decide_eq_true hodd)
    exact ⟨scalar (exec_sldW ..), scalar (exec_sldD ..), scalar (exec_sstW ..)⟩

end Sys2Proof.Machine
end

