-- ==== Sys2Proof/Proofs/FencesAndPrefetch.lean ====
section
/-! SUPPORT. What FENCE holds back, and what PREF leaves alone (R158, R159, R214). -/
namespace Sys2Proof.Machine

/-! ### Fences that are not met -/

/-- An access of a kind, earlier than a fence of the issuing group, has a piece in a lane that is not performed in some sense. -/
def State.earlierPending (s : State) (f : FenceHold) (l : Nat) (kind : AccKind → Prop) (done : Part → Bool) : Prop :=
  ∃ x ∈ s.accesses, x.1 < f.upto ∧ x.2.group = s.cur ∧ kind x.2.kind ∧ ∃ p ∈ x.2.parts, p.lane = l ∧ done p = false

/-- No store stands in the L1 of the issuing group's cluster (R214). -/
def State.drainedHere (s : State) : Prop := ∀ x ∈ s.accesses, x.2.cluster = s.me.cluster → ∀ p ∈ x.2.parts, p.entered = none ∨ p.done = true

/-- An acquire that still waits for a lane (R158). -/
def State.acquireWaits (s : State) (f : FenceHold) (l : Nat) : Prop := (f.order = 1 ∨ f.order = 3) ∧ s.earlierPending f l (· ≠ .store) (·.done)

/-- A release that still waits for a lane (R158, R214). -/
def State.releaseWaits (s : State) (f : FenceHold) (l : Nat) : Prop :=
  (f.order = 2 ∨ f.order = 3) ∧ (s.earlierPending f l (fun _ => True) (fun p => p.done || p.entered.isSome) ∨
    (2 < f.scope ∧ (s.earlierPending f l (fun _ => True) (·.done) ∨ ¬ s.drainedHere)))

theorem acquires_iff (n : Nat) : acquires n = true ↔ n = 1 ∨ n = 3 := by simp [acquires]

theorem releases_iff (n : Nat) : releases n = true ↔ n = 2 ∨ n = 3 := by simp [releases]

section
variable {s : State} {f : FenceHold} {l : Nat}

theorem State.drainedHere_of_l1Drained (h : s.l1Drained s.me.cluster = true) : s.drainedHere := by
  intro x hx hcl p hp
  have hparts := List.all_eq_true.1 h x hx
  simp only [hcl, bne_self_eq_false, Bool.false_or] at hparts
  exact (Bool.or_eq_true_iff.1 (List.all_eq_true.1 hparts p hp)).symm.imp Option.isNone_iff_eq_none.1 id

theorem State.nearDone_eq_false (hl : l < 64) (h : s.earlierPending f l (fun _ => True) (fun p => p.done || p.entered.isSome)) :
    s.nearDone s.cur (oneLane l) f.upto = false := by
  obtain ⟨x, hx, hupto, hgroup, -, p, hp, hlane, hdone⟩ := h
  have hnear : p.near = false := hdone
  refine List.all_eq_false.2 ⟨x, hx, fun hall => ?_⟩
  simp only [hupto, hgroup, decide_true, beq_self_eq_true, Bool.and_self, Bool.not_true, Bool.false_or] at hall
  have hpart := List.all_eq_true.1 hall p hp
  rw [hnear, hlane, inSet_oneLane hl, beq_self_eq_true] at hpart
  cases hpart

theorem State.farDone_eq_false (hl : l < 64) (h : s.earlierPending f l (fun _ => True) (·.done)) : s.farDone s.cur (oneLane l) f.upto = false := by
  obtain ⟨x, hx, hupto, hgroup, -, p, hp, hlane, hdone⟩ := h
  change p.done = false at hdone
  have htouches : x.2.touches (oneLane l) = true :=
    List.any_eq_true.2 ⟨p, hp, by rw [hdone, hlane, inSet_oneLane hl, beq_self_eq_true]; rfl⟩
  exact List.all_eq_false.2 ⟨x, hx, by simp [hupto, hgroup, htouches]⟩

/-- What is not performed at team scope is not performed anywhere. -/
theorem State.earlierPending_far (h : s.earlierPending f l (fun _ => True) (fun p => p.done || p.entered.isSome)) :
    s.earlierPending f l (fun _ => True) (·.done) := by
  obtain ⟨x, hx, hupto, hgroup, hkind, p, hp, hlane, hdone⟩ := h
  exact ⟨x, hx, hupto, hgroup, hkind, p, hp, hlane, (Bool.or_eq_false_iff.1 hdone).1⟩

theorem State.fenceMet_acquire (h : s.acquireWaits f l) : s.fenceMet s.cur f l = false := by
  obtain ⟨horder, x, hx, hupto, hgroup, hkind, p, hp, hlane, hdone⟩ := h
  change p.done = false at hdone
  have hreads : (s.accesses.all fun (n, a) => !(decide (n < f.upto) && a.group == s.cur && a.kind != .store) ||
      a.parts.all (fun p => p.done || p.lane != l)) = false := by
    refine List.all_eq_false.2 ⟨x, hx, fun hall => ?_⟩
    simp only [hupto, hgroup, bne_iff_ne.2 hkind, decide_true, beq_self_eq_true, Bool.and_self, Bool.not_true, Bool.false_or] at hall
    have hpart := List.all_eq_true.1 hall p hp
    rw [hdone, hlane, bne_self_eq_false] at hpart
    cases hpart
  unfold State.fenceMet
  simp only [hreads, (acquires_iff _).2 horder, Bool.not_true, Bool.or_self, Bool.false_and]

theorem State.fenceMet_release (hl : l < 64) (h : s.releaseWaits f l) : s.fenceMet s.cur f l = false := by
  obtain ⟨horder, hpending⟩ := h
  have hscope : s.scopeDone s.cur s.me.cluster f.scope (oneLane l) f.upto = false := by
    unfold State.scopeDone
    split_ifs with hnear
    · obtain hearlier | ⟨hfar, -⟩ := hpending
      · exact State.nearDone_eq_false hl hearlier
      · omega
    · rw [Bool.and_eq_false_iff]
      obtain hearlier | ⟨-, hearlier | hdrained⟩ := hpending
      · exact .inl (State.farDone_eq_false hl (State.earlierPending_far hearlier))
      · exact .inl (State.farDone_eq_false hl hearlier)
      · exact .inr (Bool.eq_false_iff.2 (fun h => hdrained (State.drainedHere_of_l1Drained h)))
  unfold State.fenceMet
  dsimp only
  rw [show s.scopeDone s.cur (s.group s.cur).cluster f.scope (oneLane l) f.upto = false from hscope, (releases_iff _).2 horder]
  simp

/-- A fence of a lane of a word holds it back: an acquire any word, a release a store or atomic (R158). -/
theorem State.fenced_of_waits {on : LaneSet} {kind : AccKind} (hf : f ∈ s.me.fences) (hl : inSet f.lanes l = true) (hon : inSet on l = true)
    (h : s.acquireWaits f l ∨ (kind ≠ .load ∧ s.releaseWaits f l)) : s.fenced s.cur kind on = true := by
  have hmet : s.fenceMet s.cur f l = false := h.elim State.fenceMet_acquire (fun h => State.fenceMet_release (inSet_lt hl) h.2)
  have hholds : f.holds kind = true := by
    unfold FenceHold.holds
    obtain ⟨horder, -⟩ | ⟨hkind, horder, -⟩ := h
    · rw [(acquires_iff _).2 horder, Bool.true_or]
    · rw [(releases_iff _).2 horder, bne_iff_ne.2 hkind, Bool.and_self, Bool.or_true]
  have hboth : inSet (f.lanes &&& on) l = true := by
    unfold inSet at hl hon ⊢
    rw [BitVec.getLsbD_and, hl, hon, Bool.and_self]
  refine List.any_eq_true.2 ⟨f, hf, ?_⟩
  rw [hholds, Bool.true_and]
  exact List.any_eq_true.2 ⟨l, (mem_lanesIn _ l).2 hboth, by rw [hmet]; rfl⟩

end

/-! ### Words held back -/

/-- The issuing group stands at its word with its active set, in a wait, and nothing else has changed. -/
def State.WaitsAt (w : Wait) (s t : State) : Prop :=
  { t with groups := s.groups } = s ∧ s.othersSame t s.cur ∧ t.me = { s.me with
    run := { s.me.run with stopped := true }
    resumes := { hdr := s.me.run.hdr, idx := s.me.run.idx, act := s.me.run.act, wait := w, start := s.me.run.start } :: s.me.resumes }

theorem State.block_waitsAt {s : State} (hh : s.me.run.handler = false) (w : Wait) : s.WaitsAt w (s.block w) := by
  refine ⟨rfl, fun k hk => ?_, ?_⟩
  · unfold State.block
    rw [State.group_onMe, if_neg hk]
  · unfold State.block Group.blockAt
    rw [State.me_onMe, hh]
    rfl

theorem MemWord.lanes_eq {m : MemWord} {lanes : LaneSet} {ea : Nat → Nat} {data : Nat → List (BitVec 8)} (h : m.reqs = reqsOf lanes ea data) :
    m.lanes = lanes := by
  unfold MemWord.lanes
  rw [h, setOf_reqsOf]

/-- A memory word that a fence holds back, no rollback under way (R158, R302). -/
theorem State.memBody_fenced {s : State} {m : MemWord} (hroll : s.myTeam.rollback = none) (h : s.fenced s.cur m.kind m.lanes = true) :
    s.memBody m = s.block (.fence m.lanes m.kind) := by
  unfold State.memBody
  simp only [h, if_true, show (s.team s.me.team).rollback = none from hroll]
  exact if_neg (by simp)

/-- A scalar word that a fence holds back, no rollback under way (R88, R158). -/
theorem State.scalarAccess_fenced {s : State} {kind : AccKind} {srcs dsts : List Nat} {sa : BitVec 5} {imm : BitVec 13} {bytes low : Nat}
    {data : List (BitVec 8)} (hroll : s.myTeam.rollback = none) (hr : s.ready srcs dsts) (hlow : lowest s.me.run.act = low)
    (h : s.fenced s.cur kind (oneLane low) = true) :
    s.scalarAccess kind srcs dsts sa imm bytes data = .next (s.block (.fence (oneLane low) kind)) := by
  unfold State.scalarAccess Group.scalarLane
  dsimp only
  rw [State.gate_plain hr, State.gated_go, hlow, h, hroll]
  exact congrArg Host.Outcome.next ((if_neg (by simp)).trans (if_pos rfl))

/-! ### PREF -/

/-- PREF for one line: it is brought into the LLC and, but for reuse 7, into the L1, where there is room (R159, R219). -/
def State.prefetch (cl reuse : Nat) (s : State) (ln : Nat) : State :=
  if reuse = 7 then (if s.llcRoom ln then s.llcAccess (some cl) ln 7 else s)
  else if s.roomFor cl ln then s.fetchLine cl ln reuse else s

theorem State.prefetch_caches (cl reuse : Nat) (s : State) (ln : Nat) : CachesOnly s (s.prefetch cl reuse ln) := by
  unfold State.prefetch
  split_ifs
  · exact s.llcAccess_caches _ _ _
  · exact CachesOnly.refl s
  · exact s.fetchLine_caches _ _ _
  · exact CachesOnly.refl s

/-- With reuse 7 no cluster changes (R159). -/
theorem State.prefetch_clusters (cl : Nat) (s : State) (ln : Nat) : (s.prefetch cl 7 ln).clusters = s.clusters := by
  unfold State.prefetch
  rw [if_pos rfl]
  split_ifs <;> rfl

theorem State.l1_cachePages (s : State) (cl part : Nat) (use : Access1) (pages : List Nat) (c : Nat) :
    ((s.cachePages cl part use pages).cluster c).l1 = (s.cluster c).l1 := by
  have herr (k n : Nat) : ((s.countErr part k n).cluster c).l1 = (s.cluster c).l1 := by
    unfold State.countErr
    split_ifs <;> rfl
  have htlb (u : State) (xs : List (Nat × DWord × Nat)) : ((xs.foldl (fun s x => s.putTlb cl x) u).cluster c).l1 = (u.cluster c).l1 := by
    have hrest := congrArg Cluster.l1 ((TlbOnly.foldl _ xs (fun x _ v => v.putTlb_only cl x) u).cluster c)
    exact hrest
  exact (htlb _ _).trans (herr _ _)

/-- The state in which PREF has fetched lines, the translations of pages cached before. -/
def State.prefetched (s : State) (reuse : Nat) (pages lines : List Nat) : State :=
  lines.foldl (State.prefetch s.me.cluster reuse) (s.cachePages s.me.cluster (s.partOf s.me) .read pages)

section
variable {s : State} {a : BitVec 7} {reuse : BitVec 3} {off : BitVec 32} {n k : Nat} {pages lines : List Nat}

theorem State.prefWord_ready (hr : s.ready [a.toNat, a.toNat + 1] []) :
    ∃ pages lines c, s.prefWord a reuse off n = .next ((s.prefetched reuse.toNat pages lines).advance n c) :=
  ⟨_, _, _, congrArg (fun gt => Host.Outcome.next (s.gated gt _)) (State.gate_addr (rs := []) hr)⟩

theorem State.prefetched_caches : CachesOnly s (s.prefetched k pages lines) :=
  (s.cachePages_caches _ _ _ _).trans (CachesOnly.foldl _ _ (fun _ _ u => u.prefetch_caches _ _ _) _)

theorem State.prefetched_l1 (c : Nat) : ((s.prefetched 7 pages lines).cluster c).l1 = (s.cluster c).l1 := by
  have hlines (u : State) : (lines.foldl (State.prefetch s.me.cluster 7) u).clusters = u.clusters := by
    induction lines generalizing u with
    | nil => rfl
    | cons ln lines ih => exact (ih _).trans (u.prefetch_clusters _ _)
  have hcluster := congrArg (fun m : FMap Cluster => (FMap.at {} m c).l1) (hlines (s.cachePages s.me.cluster (s.partOf s.me) .read pages))
  exact hcluster.trans (s.l1_cachePages _ _ _ _ _)

/-- The issue of PREF moves nothing but its run (R159). -/
theorem State.prefetched_moved (c : Nat) :
    Moved { s.me with run := s.me.run.after n } s.sameLanes (s.prefetched k pages lines) ((s.prefetched k pages lines).advance n c) := by
  have hcaches := s.prefetched_caches (k := k) (pages := pages) (lines := lines)
  generalize s.prefetched k pages lines = v at hcaches ⊢
  obtain ⟨-, -, -, -, hgroups, -, -, -, -, -, -, -, -, -, hcur⟩ := hcaches.kept
  have hme : v.me = s.me := by
    unfold State.me State.group
    rw [hgroups, hcur]
  exact Moved.of_advance rfl rfl rfl (fun _ _ => rfl) (by rw [hme]) (by rw [hme]) (by rw [hme]) (fun l _ => by rw [hme]; rfl)

end

/-- Settles O20: FENCE only adds its hold; a hold that is not met blocks the word behind its open gate; PREF touches caches alone. -/
theorem fenceAndPrefetch : Obligations.FenceAndPrefetch := by
  unfold Obligations.FenceAndPrefetch
  refine ⟨fun s order scope => ?_, ?_, fun s a off reuse hr => ?_⟩
  · rw [exec_fence]
    exact ⟨_, rfl, rfl, Moved.of_onMe rfl rfl rfl (fun _ _ => rfl)⟩
  · intro s d a b sd sa imm off order scope reuse ea eb pg neg st f l hh hroll hf hl earlier drained acquire release waits addr both load store atomic
    have held {on : LaneSet} {kind : AccKind} (hon : inSet on l = true) (h : acquire ∨ (kind ≠ .load ∧ release)) : s.fenced s.cur kind on = true :=
      State.fenced_of_waits hf hl hon h
    have waits_of {i : Instr} {m : MemWord} {on : LaneSet} {va : Nat → Nat} {data : Nat → List (BitVec 8)} {kind : AccKind}
        (hi : exec i s = .next (s.memBody m)) (hreq : m.reqs = reqsOf on va data) (hk : m.kind = kind) : waits on kind i := by
      subst hk
      intro hon h
      have hlanes := MemWord.lanes_eq hreq
      have hbody := State.memBody_fenced hroll (m := m) (by rw [hlanes]; exact held hon h)
      rw [hlanes] at hbody
      exact ⟨_, hi.trans (congrArg _ hbody), State.block_waitsAt hh _⟩
    have loads {i i' : Instr} {r : BitVec 3} {m : MemWord} {n : Nat} (hi : exec i s = s.loadWord d a 0 1 order scope r m)
        (hi' : exec i' s = s.loadWord d a off 2 order scope r m) (hk : m.kind = .load) (hregs : m.nregs = n) : load n i i' := by
      subst hregs
      exact fun hr => ⟨waits_of (m := s.me.loadOf d a 0 1 order scope r m) (hi.trans (State.loadWord_ready hr)) rfl hk,
        waits_of (m := s.me.loadOf d a off 2 order scope r m) (hi'.trans (State.loadWord_ready hr)) rfl hk⟩
    have stores {i i' : Instr} {r : BitVec 3} {m : MemWord} {n : Nat} (hi : exec i s = s.storeWord d a 0 1 order scope r m)
        (hi' : exec i' s = s.storeWord d a off 2 order scope r m) (hk : m.kind = .store) (hregs : (m.bytes + 3) / 4 = n) : store n i i' := by
      subst hregs
      exact fun hr => ⟨waits_of (m := s.me.storeOf d a 0 1 order scope r m) (hi.trans (State.storeWord_ready hr)) rfl hk,
        waits_of (m := s.me.storeOf d a off 2 order scope r m) (hi'.trans (State.storeWord_ready hr)) rfl hk⟩
    have atomics {i i' : Instr} {r : BitVec 3} {op bytes n c : Nat} {scr : Bool} (hi : exec i s = s.atomWord op scr bytes d a 0 1 order scope r)
        (hi' : exec i' s = s.atomWord op scr bytes d a off 2 order scope r) (hregs : bytes / 4 = n) (hcar : carried op bytes / 4 = c) :
        atomic op n c i i' := by
      subst hregs hcar
      exact fun hr => ⟨waits_of (m := s.me.atomOf op scr bytes d a 0 1 order scope r) (hi.trans (State.atomWord_ready hr)) rfl rfl,
        waits_of (m := s.me.atomOf op scr bytes d a off 2 order scope r) (hi'.trans (State.atomWord_ready hr)) rfl rfl⟩
    refine ⟨⟨loads (exec_ldB ..) (exec_ldBExt ..) rfl rfl, loads (exec_ldSb ..) (exec_ldSbExt ..) rfl rfl,
        loads (exec_ldH ..) (exec_ldHExt ..) rfl rfl, loads (exec_ldSh ..) (exec_ldShExt ..) rfl rfl,
        loads (exec_ldW ..) (exec_ldWExt ..) rfl rfl, loads (exec_ldD ..) (exec_ldDExt ..) rfl rfl,
        loads (exec_ldQ ..) (exec_ldQExt ..) rfl rfl, loads (exec_ldpk6 ..) (exec_ldpk6Ext ..) rfl rfl,
        loads (exec_ldpk4 ..) (exec_ldpk4Ext ..) rfl rfl, loads (exec_ldsW ..) (exec_ldsWExt ..) rfl rfl,
        loads (exec_ldsD ..) (exec_ldsDExt ..) rfl rfl, loads (exec_ldsQ ..) (exec_ldsQExt ..) rfl rfl⟩,
      ⟨stores (exec_stB ..) (exec_stBExt ..) rfl rfl, stores (exec_stH ..) (exec_stHExt ..) rfl rfl,
        stores (exec_stW ..) (exec_stWExt ..) rfl rfl, stores (exec_stD ..) (exec_stDExt ..) rfl rfl,
        stores (exec_stQ ..) (exec_stQExt ..) rfl rfl, stores (exec_stsB ..) (exec_stsBExt ..) rfl rfl,
        stores (exec_stsH ..) (exec_stsHExt ..) rfl rfl, stores (exec_stsW ..) (exec_stsWExt ..) rfl rfl,
        stores (exec_stsD ..) (exec_stsDExt ..) rfl rfl, stores (exec_stsQ ..) (exec_stsQExt ..) rfl rfl⟩,
      ⟨atomics (exec_atomAdd ..) (exec_atomAddExt ..) rfl rfl, atomics (exec_atomFadd ..) (exec_atomFaddExt ..) rfl rfl,
        atomics (exec_atomHfaddBf ..) (exec_atomHfaddBfExt ..) rfl rfl, atomics (exec_atomMin ..) (exec_atomMinExt ..) rfl rfl,
        atomics (exec_atomMax ..) (exec_atomMaxExt ..) rfl rfl, atomics (exec_atomMinu ..) (exec_atomMinuExt ..) rfl rfl,
        atomics (exec_atomMaxu ..) (exec_atomMaxuExt ..) rfl rfl, atomics (exec_atomAnd ..) (exec_atomAndExt ..) rfl rfl,
        atomics (exec_atomOr ..) (exec_atomOrExt ..) rfl rfl, atomics (exec_atomXor ..) (exec_atomXorExt ..) rfl rfl,
        atomics (exec_atomXchg ..) (exec_atomXchgExt ..) rfl rfl, atomics (exec_atomCas ..) (exec_atomCasExt ..) rfl rfl,
        atomics (exec_atomCasD ..) (exec_atomCasDExt ..) rfl rfl, atomics (exec_atomsAdd ..) (exec_atomsAddExt ..) rfl rfl,
        atomics (exec_atomsFadd ..) (exec_atomsFaddExt ..) rfl rfl, atomics (exec_atomsMin ..) (exec_atomsMinExt ..) rfl rfl,
        atomics (exec_atomsMax ..) (exec_atomsMaxExt ..) rfl rfl, atomics (exec_atomsXchg ..) (exec_atomsXchgExt ..) rfl rfl,
        atomics (exec_atomsCas ..) (exec_atomsCasExt ..) rfl rfl⟩,
      ⟨fun hr => waits_of (exec_ldIdx_ready hr) rfl rfl, fun hr => waits_of (exec_stIdx_ready hr) rfl rfl⟩, fun low hlow hfirst => ?_⟩
    intro base
    have scalar {i : Instr} {kind : AccKind} {srcs dsts : List Nat} {bytes : Nat} {bs : List (BitVec 8)}
        (hi : exec i s = s.scalarAccess kind srcs dsts sa imm bytes bs) (hr : s.ready srcs dsts) : waits (oneLane low) kind i :=
      fun hon h => ⟨_, hi.trans (State.scalarAccess_fenced hroll hr (lowest_eq hlow hfirst) (held hon h)), State.block_waitsAt hh _⟩
    exact ⟨scalar (exec_sldW ..), scalar (exec_sldD ..), scalar (exec_sstW ..)⟩
  · intro fetched none_
    have fetches {i : Instr} {r : BitVec 3} {o : BitVec 32} {n : Nat} {l1 : State → Prop} (hl1 : ∀ v, (r.toNat = 7 → none_ v) → l1 v)
        (hi : exec i s = s.prefWord a r o n) : fetched n i l1 := by
      obtain ⟨pages, lines, c, hword⟩ := State.prefWord_ready (reuse := r) (off := o) (n := n) hr
      exact ⟨_, hi.trans hword, _, State.prefetched_caches, hl1 _ (fun h => h ▸ State.prefetched_l1), rfl, State.prefetched_moved c⟩
    exact ⟨fetches (fun _ _ => trivial) (exec_pref ..), fetches (fun _ _ => trivial) (exec_prefExt ..),
      fetches (fun _ h => h rfl) (exec_pref ..), fetches (fun _ h => h rfl) (exec_prefExt ..)⟩

end Sys2Proof.Machine
end

