-- ==== Sys2Proof/Proofs/BlockReads.lean ====
section
/-! SUPPORT. The synchronous read of a block (EngIssue.lean, R158, R169, R219, R224, R225, R380, R385): what it leaves behind, and how a word goes on with its bytes. -/
namespace Sys2Proof.Machine

/-! ### What a read of a block leaves behind -/

/-- What a read leaves behind differs in seven tables. -/
theorem BlockRead.eq {s t : State} (h : BlockRead s t) : ∃ cl di ll pa mo dr po,
    t = { s with clusters := cl, dies := di, llc := ll, parts := pa, module := mo, dramErr := dr, poison := po } :=
  ⟨t.clusters, t.dies, t.llc, t.parts, t.module, t.dramErr, t.poison, congrArg (fun v : State => { v with
    clusters := t.clusters, dies := t.dies, llc := t.llc, parts := t.parts, module := t.module, dramErr := t.dramErr, poison := t.poison }) h.world⟩

theorem BlockRead.refl (s : State) : BlockRead s s := ⟨rfl, fun _ => rfl, fun _ => rfl, fun _ => rfl, rfl, fun h => ⟨h, rfl⟩⟩

theorem BlockRead.trans {s t u : State} (h : BlockRead s t) (k : BlockRead t u) : BlockRead s u := by
  refine ⟨?_, fun c => ?_, fun d => ?_, fun p => ?_, ?_, fun hd => ?_⟩
  · exact (congrArg (fun x : State => { x with clusters := s.clusters, dies := s.dies, llc := s.llc, parts := s.parts, module := s.module
                                               dramErr := s.dramErr, poison := s.poison }) k.world).trans h.world
  · exact (congrArg (fun x : Cluster => { x with l1 := (s.cluster c).l1, stale := (s.cluster c).stale, dirty := (s.cluster c).dirty
                                                 l1Hits := (s.cluster c).l1Hits, l1Misses := (s.cluster c).l1Misses
                                                 tlb := (s.cluster c).tlb }) (k.cluster c)).trans (h.cluster c)
  · exact (congrArg (fun x : Die => { x with tlb := (s.die d).tlb }) (k.die d)).trans (h.die d)
  · exact (congrArg (fun x : Partition => { x with errcnt := (s.part p).errcnt }) (k.part p)).trans (h.part p)
  · exact (congrArg (fun x : Module => { x with flits := s.module.flits, corrBank := s.module.corrBank }) k.module).trans h.module
  · obtain ⟨ht, hp⟩ := h.sound hd
    obtain ⟨hu, hq⟩ := k.sound ht
    exact ⟨hu, hq.trans hp⟩

theorem BlockRead.foldl {α : Type} (f : State → α → State) (h : ∀ s x, BlockRead s (f s x)) (xs : List α) (s : State) : BlockRead s (xs.foldl f s) := by
  induction xs generalizing s with
  | nil => exact BlockRead.refl s
  | cons x xs ih => exact (h s x).trans (ih _)

/-- What any read leaves behind, a read of a block may. -/
theorem CachesOnly.blockRead {s t : State} (h : CachesOnly s t) : BlockRead s t :=
  ⟨congrArg (fun x : State => { x with module := s.module, dramErr := s.dramErr, poison := s.poison }) h.world, h.cluster, h.die, h.part,
    congrArg (fun x : State => { x.module with flits := s.module.flits, corrBank := s.module.corrBank }) h.world,
    fun hd => ⟨(congrArg (fun x : State => x.dramErr) h.world).trans hd, h.kept.2.1⟩⟩

/-- Counts of flits and of corrected errors. -/
theorem State.onModule_blockRead (s : State) (f : Module → Module)
    (h : ∀ m : Module, { f m with flits := m.flits, corrBank := m.corrBank } = m) : BlockRead s (s.onModule f) :=
  ⟨rfl, fun _ => rfl, fun _ => rfl, fun _ => rfl, h _, fun hd => ⟨hd, rfl⟩⟩

theorem State.flit_blockRead (s : State) (part n : Nat) : BlockRead s (s.flit part n) := s.onModule_blockRead _ (fun _ => rfl)

theorem State.countErr_blockRead (s : State) (part k n : Nat) : BlockRead s (s.countErr part k n) := (s.countErr_caches part k n).blockRead

/-- Errors of device memory come to light (R385): none where none is there. -/
theorem State.checkDram_blockRead (s : State) (part : Nat) (lines : List Nat) : BlockRead s (s.checkDram part lines) := by
  by_cases hd : s.dramErr = []
  · rw [State.checkDram_clean _ part lines (fun ln _ => by simp [hd, FMap.has])]
    exact BlockRead.refl s
  · unfold State.checkDram
    dsimp only
    split_ifs
    · exact BlockRead.refl s
    · obtain ⟨hw, hc, hdie, hp, hm, -⟩ := BlockRead.foldl (fun (u : State) h => (u.countErr part 0 1).onModule (fun m => { m with
          corrBank := FMap.put m.corrBank (Config.bankOf (h / 2)) (FMap.at 0 m.corrBank (Config.bankOf (h / 2)) + 1) }))
        (fun u h => (u.countErr_blockRead part 0 1).trans (State.onModule_blockRead _ _ (fun _ => rfl)))
        ((((lines.filter (fun ln => (wayOf (s.slice (s.holdOf ln)).lines (llcSet ln) ln).isNone)).flatMap (fun ln => [2 * ln, 2 * ln + 1])).filter
          (fun h => FMap.has s.dramErr h)).filter (fun h =>
            decide (FMap.at 0 s.dramErr h ≤ if FMap.has s.module.strong (Config.bankOf (h / 2)) then 2 else 1))) s
      exact ⟨hw, hc, hdie, hp, hm, fun h => absurd h hd⟩

/-- The lines of a block that lie in other modules leave counts behind. -/
theorem State.noteFabric_blockRead (s : State) (va n : Nat) : BlockRead s (s.noteFabric va n) :=
  BlockRead.foldl _ (fun u _ => (u.flit_blockRead _ _).trans (State.countErr_blockRead _ _ _ _)) _ s

theorem State.noteBlock_blockRead (s : State) (va n : Nat) : BlockRead s (s.noteBlock va n) := by
  unfold State.noteBlock
  exact ((s.cachePages_caches _ _ _ _).trans (CachesOnly.foldl _ _ (fun ln _ u => u.fetchLine_caches _ ln 0) _)).blockRead.trans
    (State.noteFabric_blockRead _ _ _)

/-- The read of a block leaves behind what a read does (R169). -/
theorem State.afterBlock_blockRead (s : State) (va n : Nat) : BlockRead s (s.afterBlock va n) :=
  (s.checkDram_blockRead _ _).trans (State.noteBlock_blockRead _ _ _)

/-! ### Words that read a block -/

section
variable {s : State} {va n align : Nat} {b : List (BitVec 8)}

/-- A word whose block can be read goes on with its bytes (R169). -/
theorem State.withBytes_read (hf : s.me.fences = []) (hb : s.blockIs va n align b) (k : List (BitVec 8) → Nat → State → State) :
    s.withBytes va n align k = k b 0 (s.afterBlock va n) := by
  obtain ⟨hal, ⟨x, p, hread⟩, hbytes⟩ := hb
  unfold State.withBytes
  dsimp only
  rw [if_neg (not_not.2 hal), State.fenced_none _ _ _ _ hf, State.passFences_none _ _ _ _ hf, hread]
  dsimp only
  rw [hbytes]
  rfl

theorem State.withBlock_read (hf : s.me.fences = []) (hb : s.blockIs va n align b) (k : List (BitVec 8) → State → State) :
    s.withBlock va n align k = k b (s.afterBlock va n) := by
  unfold State.withBlock
  rw [State.withBytes_read hf hb, if_neg (fun h => h.1 rfl)]
  rfl

end

/-! ### The gates of engine words -/

section
variable {s k : State} {srcs dsts : List Nat} {inLevel dropped : Bool} (hr : s.ready srcs dsts) (hroll : dropped = true → s.myTeam.rollback = none)
include hr hroll

/-- The gate of an E word with operands that are full and no rollback under way: regions and levels stop it alone (R183, R186, R302). -/
theorem State.eGate_operands : s.eGate srcs dsts false inLevel dropped k = s.eGate [] [] false inLevel false k := by
  have hdrop : (dropped && s.myTeam.rollback.isSome) = false := by
    cases dropped with
    | true => rw [hroll rfl]; rfl
    | false => rfl
  rw [State.eGate_noOperands]
  unfold State.eGate
  dsimp only
  rw [State.gate_plain hr, State.gated_go, hdrop]
  simp [Team.rlevel]

theorem State.eGate_ready (h : ∀ l, inSet s.me.run.act l = true → (s.me.lane l).region = none) (hl : inLevel = true ∨ s.myTeam.levels = []) :
    s.eGate srcs dsts false inLevel dropped k = k := by
  rw [State.eGate_operands hr hroll, State.eGate_go h hl]

end

/-- No check of a word fails (R400). -/
theorem State.checked_none {s : State} {fails : List (Option Fail)} (h : ∀ f ∈ fails, f = none) (k : State) : s.checked fails k = k := by
  have hnil : fails.filterMap id = [] := List.filterMap_eq_nil_iff.2 h
  unfold State.checked
  rw [hnil]
  rfl

/-- A block none of whose fields breaks a rule (R401). -/
theorem fieldFail_none {l : List (Bool × Nat)} (h : ∀ f ∈ l, f.1 = false) (addr : Nat) : fieldFail addr l = none := by
  have hbad : badField l = none := by
    unfold badField
    refine foldl_eq_self _ none l (fun f hf => ?_)
    rw [h f hf]
    rfl
  rw [fieldFail, hbad]
  rfl

theorem failIf_none {p : Bool} (h : p = false) (c d a : Nat) : failIf p c d a = none := by rw [h]; rfl

/-- Every store that a word needs has been claimed (R213). -/
theorem claimFail_none {t : Team} {es : List Nat} (h : ∀ e ∈ es, t.claims e = true) : claimFail t es = none := by
  have hfind : es.find? (fun e => !t.claims e) = none := by
    rw [List.find?_eq_none]
    intro e he
    rw [h e he]
    simp
  rw [claimFail, hfind]
  rfl

end Sys2Proof.Machine
end

