-- ==== Sys2Proof/Proofs/EngineWords.lean ====
section
/-! SUPPORT. Words that put a command into the queue of a unit (EngIssue.lean, R168 to R175, R400), and the scalar results of METER and OBJDECL (R175, R188). -/
namespace Sys2Proof.Machine

/-! ### What a read of a block leaves of the issuing group -/

section
variable {s v : State} (h : BlockRead s v)
include h

theorem BlockRead.me : v.me = s.me := by
  obtain ⟨_, _, _, _, _, _, _, rfl⟩ := h.eq
  rfl

theorem BlockRead.myTeam : v.myTeam = s.myTeam := by
  obtain ⟨_, _, _, _, _, _, _, rfl⟩ := h.eq
  rfl

theorem BlockRead.teams : v.teams = s.teams := by
  obtain ⟨_, _, _, _, _, _, _, rfl⟩ := h.eq
  rfl

theorem BlockRead.partOf : v.partOf v.me = s.partOf s.me := by
  obtain ⟨_, _, _, _, _, _, _, rfl⟩ := h.eq
  rfl

theorem BlockRead.objects : v.objects = s.objects := by
  obtain ⟨_, _, _, _, _, _, _, rfl⟩ := h.eq
  rfl

theorem BlockRead.cur : v.cur = s.cur := by
  obtain ⟨_, _, _, _, _, _, _, rfl⟩ := h.eq
  rfl

theorem BlockRead.fresh : v.fresh = s.fresh := by
  obtain ⟨_, _, _, _, _, _, _, rfl⟩ := h.eq
  rfl

theorem BlockRead.sameLanes : v.sameLanes = s.sameLanes := by
  obtain ⟨_, _, _, _, _, _, _, rfl⟩ := h.eq
  rfl

theorem BlockRead.command (unit : Nat) (ec : BitVec 3) : v.command unit ec = s.command unit ec := by
  obtain ⟨_, _, _, _, _, _, _, rfl⟩ := h.eq
  rfl

theorem BlockRead.queueFull (cl u : Nat) : v.queueFull cl u = s.queueFull cl u := by
  obtain ⟨_, _, _, _, _, _, _, rfl⟩ := h.eq
  rfl

end

/-! ### Queues (R168, R169) -/

theorem State.commandFree.queueFull {s : State} {ec : BitVec 3} {unit depth : Nat} (h : s.commandFree ec unit depth) (hd : unitDepth unit = depth) :
    s.queueFull s.me.cluster unit = false := by
  obtain ⟨-, -, -, hroom⟩ := h
  unfold State.queueFull
  rw [hd]
  exact decide_eq_false (Nat.not_le.2 hroom)

theorem State.commandFree.counter {s : State} {ec : BitVec 3} {unit depth : Nat} (h : s.commandFree ec unit depth) :
    s.me.counterFull ec.toNat = false := by
  obtain ⟨-, -, hcount, -⟩ := h
  exact decide_eq_false (Nat.not_le.2 hcount)

/-- A command that finds room in its queue stands there (R168, R169 step 4). -/
theorem State.enqueue_enqueued {s : State} {c : Command} (h : s.queueFull c.cluster c.unit = false) (cost : Nat) :
    Enqueued c s.sameLanes s (s.enqueue c cost) ∧ (s.enqueue c cost).teams = s.teams := by
  obtain ⟨u, hu⟩ : ∃ u : State, u = { s with
    commands := FMap.put s.commands s.fresh (s.queued c), fresh := s.fresh + 1
    colls := if c.op = 0x08 then (s.countColl c.part (commOf c.src)).colls else s.colls } := ⟨_, rfl⟩
  have heq : s.enqueue c cost = (u.onMe (fun g => g.setCounter c.ec (g.counter c.ec + 1))).advance 1 cost := by
    unfold State.enqueue
    rw [if_neg (by rw [h]; exact Bool.false_ne_true), hu]
    dsimp only
    split_ifs <;> rfl
  rw [heq]
  refine ⟨⟨by rw [hu]; rfl, by rw [hu]; rfl, ?_, ?_, ?_, ?_, ?_, by rw [hu]; rfl⟩, by rw [hu]; rfl⟩
  · refine State.advance_slice 1 cost (fun k hk => ?_) (by rw [hu]; rfl) (by rw [hu]; rfl) ?_ ?_
    · rw [State.group_onMe, if_neg (by rw [hu]; exact hk), hu]
      rfl
    · rw [State.me_onMe, hu]; rfl
    · rw [State.me_onMe, hu]; rfl
  · rw [State.me_advance, State.me_onMe, hu]; rfl
  · intro l _
    rw [State.me_advance, State.me_onMe, hu]; rfl
  · rw [hu]; exact FMap.look_put_self _ _ _
  · intro k hk
    rw [hu]; exact FMap.look_put_ne _ _ hk

/-- A word whose checks all pass, after a read of its blocks, puts its command into the queue. -/
theorem BlockRead.gives_command {s v : State} {i : Instr} {c c' : Command} {fails : List (Option Fail)} {ec : BitVec 3} {depth cost : Nat}
    (hv : BlockRead s v) (hi : exec i s = .next (v.checked fails (v.enqueue c' cost))) (hc : c' = c) (hfails : ∀ f ∈ fails, f = none)
    (hfree : s.commandFree ec c.unit depth) (hd : unitDepth c.unit = depth) (hcl : c.cluster = s.me.cluster) :
    Gives (exec i s) (fun t => BlockRead s v ∧ t.teams = s.teams ∧ Enqueued c s.sameLanes v t) := by
  subst hc
  rw [State.checked_none hfails] at hi
  have hroom : v.queueFull c'.cluster c'.unit = false := by rw [hv.queueFull, hcl, hfree.queueFull hd]
  obtain ⟨hq, ht⟩ := State.enqueue_enqueued hroom cost
  rw [hv.sameLanes] at hq
  exact ⟨_, hi, hv, ht.trans hv.teams, hq⟩

section
variable {s : State} {p : BitVec 5} {ec : BitVec 3} {n align unit depth : Nat} {b : List (BitVec 8)}

/-- An engine word with a block that nothing keeps from its unit (R169). -/
theorem State.engineWord_read {inLevel : Bool} (hr : s.ready [80 + p.toNat, 80 + p.toNat + 1] []) (hf : s.me.fences = [])
    (hb : s.blockIs (s.me.sPair p.toNat).toNat n align b) (hfree : s.commandFree ec unit depth) (hl : inLevel = true ∨ s.myTeam.levels = [])
    (k : Nat → List (BitVec 8) → State → State) : s.engineWord p ec n align inLevel k =
      .next (k (s.me.sPair p.toNat).toNat b (s.afterBlock (s.me.sPair p.toNat).toNat n)) := by
  have hcount := hfree.counter
  obtain ⟨hreg, hroll, -, -⟩ := hfree
  unfold State.engineWord sreg
  dsimp only
  rw [State.eGate_ready hr (fun _ => hroll) hreg hl, hcount, if_neg Bool.false_ne_true, State.withBlock_read hf hb]

/-- An engine word with a table that nothing keeps from its unit: none of its words is poisoned (R169, R348). -/
theorem State.tableWord_read (hr : s.ready [80 + p.toNat, 80 + p.toNat + 1] []) (hf : s.me.fences = [])
    (hb : s.blockIs (s.me.sPair p.toNat).toNat n 128 b) (hfree : s.commandFree ec unit depth)
    (k : Nat → List (BitVec 8) → Nat → State → State) : s.tableWord p ec n k =
      .next (k (s.me.sPair p.toNat).toNat b 0 (s.afterBlock (s.me.sPair p.toNat).toNat n)) := by
  have hcount := hfree.counter
  obtain ⟨hreg, hroll, -, -⟩ := hfree
  unfold State.tableWord sreg
  dsimp only
  rw [State.eGate_ready hr (fun _ => hroll) hreg (.inl rfl), hcount, if_neg Bool.false_ne_true, State.withBytes_read hf hb]

end

/-! ### The checks of R400 -/

theorem unitDepth_matrix {e : Nat} (h : e < 2) : unitDepth e = 16 := by
  interval_cases e <;> rfl

theorem bitsAt_low (v n : Nat) : bitsAt v 0 n = v % 2 ^ n := by rw [bitsAt, pow_zero, Nat.div_one]

theorem engNo_lt (e : Bool) : engNo e < 2 := by cases e <;> decide

theorem claimFail_one {t : Team} {e : Nat} (h : t.claims e = true) : claimFail t [e] = none :=
  claimFail_none (fun n hn => by rw [List.mem_singleton.1 hn]; exact h)

theorem mmaBlk_eng (b : List (BitVec 8)) : (mmaBlk b).eng = fieldAt b 0 4 % 2 := by
  show fieldAt b 0 4 / 2 ^ 0 % 2 ^ 1 = _
  rw [pow_zero, Nat.div_one, pow_one]

theorem drainBlk_eng_lt (b : List (BitVec 8)) : (drainBlk b).eng < 2 := Nat.mod_lt _ (by norm_num)

theorem statusFail_none {s : State} {status : Nat} (h : status % 8 = 0) (block : Nat) : statusFail s status block = none :=
  failIf_none (by rw [h]; rfl) _ _ _

/-- A shape record that keeps its rules, with an object that holds its box or none (R261, R263). -/
theorem State.shapeFail_none {s : State} {x : List (BitVec 8)} {more : List (Bool × Nat)} (h : ∀ f ∈ shapeFields x ++ more, f.1 = false)
    (hobj : (shapeOf x).obj = 0 ∨ s.objBox (shapeOf x) = false) (va : Nat) : s.shapeFail va x more = none := by
  refine fieldFail_none (fun f hf => ?_) va
  rw [List.append_assoc, List.mem_append, List.mem_append] at hf
  rcases hf with hf | hf | hf
  · exact h f (List.mem_append_left _ hf)
  · split_ifs at hf with h0
    · cases hf
    · rw [List.mem_singleton.1 hf]
      exact hobj.resolve_left h0
  · exact h f (List.mem_append_right _ hf)

/-- OBJ names an object of the partition, or none (R263). -/
theorem State.objFail_none {s : State} {id : Nat} (h : id = 0 ∨ ∃ o, FMap.look s.objects id = some o ∧ o.part = s.partOf s.me) : s.objFail id = none := by
  refine failIf_none ?_ _ _ _
  rcases h with h | ⟨o, ho, hp⟩
  · rw [h]; rfl
  · rw [ho, Option.any_some, hp, beq_self_eq_true, Bool.not_true, Bool.and_false]

/-- The word's two records are read behind its block (R400 step 4). -/
theorem State.withShapes_read {s : State} {b x y : List (BitVec 8)} (hf : s.me.fences = []) (hx : s.blockIs (fieldAt b 0 8) 128 128 x)
    (hy : (s.afterBlock (fieldAt b 0 8) 128).blockIs (fieldAt b 8 8) 128 128 y) (k : List (BitVec 8) → List (BitVec 8) → State → State) :
    s.withShapes b k = k x y ((s.afterBlock (fieldAt b 0 8) 128).afterBlock (fieldAt b 8 8) 128) := by
  unfold State.withShapes
  dsimp only
  rw [if_neg (fun h => h.2 hy.1), State.withBlock_read hf hx, State.withBlock_read (by rw [(s.afterBlock_blockRead _ _).me, hf]) hy]

/-! ### Words with a block -/

/-- Settles O30: each word's block, and its records, are read where nothing holds the word back, its checks pass, and its command finds room. -/
theorem blockCommandWords : Obligations.BlockCommandWords := by
  unfold Obligations.BlockCommandWords
  intro s p ec b x y hr hf va addr fine block u32 u64 usrc udst gives e object copies
  have read (n : Nat) : BlockRead s (s.afterBlock va n) := s.afterBlock_blockRead va n
  have copied {i : Instr} {own : List (BitVec 8) → List (Bool × Nat)} {rel : List (BitVec 8) → Shape → Shape → List (Bool × Nat)}
      (hi : exec i s = s.copyWord p ec own rel) : copies (own b) (rel b) i := by
    intro hb hx hy hfree hown hfx hfy hox hoy hax hay hst hcl
    have hv : BlockRead s udst := (read 32).trans ((u32.afterBlock_blockRead _ _).trans (usrc.afterBlock_blockRead _ _))
    have hfound (h : Shape) (ho : object h) : h.obj = 0 ∨ ∃ o, FMap.look udst.objects h.obj = some o ∧ o.part = udst.partOf udst.me := by
      rw [hv.objects, hv.partOf]
      exact ho.imp_right And.right
    refine hv.gives_command (hi.trans ((State.engineWord_read hr hf hb hfree (.inl rfl) _).trans
      (congrArg _ (State.withShapes_read (by rw [(read 32).me, hf]) hx hy _)))) (by rw [hv.command]) ?_ hfree rfl rfl
    simp only [List.mem_cons, List.not_mem_nil, or_false, forall_eq_or_imp, forall_eq]
    exact ⟨fieldFail_none hown _, State.shapeFail_none (by rwa [List.append_nil]) (hox.imp_right And.left) _,
      State.shapeFail_none hfy (hoy.imp_right And.left) _, hax, hay, statusFail_none hst _, by rw [hv.myTeam]; exact hcl,
      State.objFail_none (hfound _ hox), State.objFail_none (hfound _ hoy)⟩
  refine ⟨fun hb hfree hfields hrects hst heng hasrc => ?_, fun hb hfree hfields hrect hst heng => ?_, ?_,
    fun hb hfree hact => ?_, ?_, copied (exec_gather ..), copied (exec_scatter ..), fun hb hm hfree hl hfields hcomm hst => ?_,
    fun hb hfree hl hfields => ?_⟩
  · have he := mmaBlk_eng b
    refine (read 64).gives_command ((exec_mma ..).trans (State.engineWord_read hr hf hb hfree (.inl rfl) _))
      (by rw [(read 64).command, he]) ?_ hfree (unitDepth_matrix (Nat.mod_lt _ (by norm_num))) rfl
    simp only [List.mem_cons, List.not_mem_nil, or_false, forall_eq_or_imp, forall_eq]
    rw [(read 64).myTeam, he]
    refine ⟨fieldFail_none hfields _, hrects, statusFail_none hst _, claimFail_none (fun n hn => ?_)⟩
    rcases List.mem_append.1 hn with hn | hn
    · rw [List.mem_singleton.1 hn]; exact heng
    · split_ifs at hn with h0
      · cases hn
      · rw [List.mem_singleton.1 hn]; exact hasrc h0
  · refine (read 64).gives_command ((exec_accdrain ..).trans (State.engineWord_read hr hf hb hfree (.inl rfl) _))
      (by rw [(read 64).command]) ?_ hfree (unitDepth_matrix (drainBlk_eng_lt b)) rfl
    simp only [List.mem_cons, List.not_mem_nil, or_false, forall_eq_or_imp, forall_eq]
    rw [(read 64).myTeam]
    exact ⟨fieldFail_none hfields _, hrect, statusFail_none hst _, claimFail_one heng⟩
  · intro eng k hb hfree heng
    refine (read 1024).gives_command ((exec_cbload ..).trans (State.tableWord_read hr hf hb hfree _))
      (by rw [(read 1024).command]; rfl) ?_ hfree (unitDepth_matrix (engNo_lt eng)) rfl
    simp only [List.mem_cons, List.not_mem_nil, or_false, forall_eq]
    rw [(read 1024).myTeam]
    exact claimFail_one heng
  · refine (read 3088).gives_command ((exec_actload ..).trans (State.tableWord_read hr hf hb hfree _))
      (by rw [(read 3088).command]; rfl) ?_ hfree rfl rfl
    simp only [List.mem_cons, List.not_mem_nil, or_false, forall_eq]
    rw [(read 3088).myTeam]
    exact failIf_none (by rw [hact]; rfl) _ _ _
  · have h := copied (exec_copy ..)
    rw [bitsAt_low] at h
    exact h
  · have hv : BlockRead s (u64.afterBlock (collBlk b).comm 32) := (read 64).trans (u64.afterBlock_blockRead _ _)
    refine hv.gives_command ((exec_coll ..).trans ((State.engineWord_read hr hf hb hfree (.inr hl) _).trans
      (congrArg _ (State.withBlock_read (by rw [(read 64).me, hf]) hm _)))) (by rw [hv.command]) ?_ hfree rfl rfl
    simp only [List.mem_cons, List.not_mem_nil, or_false, forall_eq_or_imp, forall_eq]
    exact ⟨fieldFail_none hfields _, fieldFail_none hcomm _, statusFail_none hst _⟩
  · refine (read 32).gives_command ((exec_phaseend ..).trans (State.engineWord_read hr hf hb hfree (.inr hl) _))
      (by rw [(read 32).command]) ?_ hfree rfl rfl
    simp only [List.mem_cons, List.not_mem_nil, or_false, forall_eq]
    exact fieldFail_none hfields _

/-! ### ACCRD in a level -/

/-- A team with an open level, which logs registers, and the first accumulator store; one live lane of its group is active. -/
def levelOpen : State :=
  { State.reset with
    groups := [(0, { lanes := [(0, { cond := .live })], run := { act := 1 } })], teams := [(0, { acc0 := true, levels := [{}] })] }

/-- The state once the level has logged v0 of the lane, which ACCRD empties (R297). -/
def levelLogged : State := levelOpen.commit 0 (levelOpen.me.mapLanes 1 (fun _ n => n.emptyReg 0)) (Writes.on { regs := [0] } 1)

theorem levelLogged_teams : levelLogged.teams ≠ levelOpen.teams := by decide +kernel

theorem exec_accrd_levelOpen : exec (.accrd 0 0 false 0) levelOpen = .next (levelLogged.enqueue (levelLogged.command 0 0) (levelOpen.pa levelOpen.me)) := by
  rw [exec_accrd]
  rfl

theorem levelOpen_lane : ∀ l, (levelOpen.me.lane l).empty = 0 ∧ (levelOpen.me.lane l).region = none
  | 0 => ⟨rfl, rfl⟩
  | _ + 1 => ⟨rfl, rfl⟩

theorem levelOpen_ready : levelOpen.ready [80] [0] := by
  have hfull (o : Nat) : levelOpen.me.full levelOpen.me.run.act o := by
    refine ⟨fun _ l _ => ?_, fun _ _ => ?_⟩
    · rw [Lane.isEmpty, (levelOpen_lane l).1]
      exact BitVec.getLsbD_zero
    · exact BitVec.getLsbD_zero
  exact ⟨fun o ho => ⟨hfull o, fun h => by simp [h] at ho⟩, fun o _ => hfull o⟩

theorem levelOpen_free : levelOpen.commandFree 0 0 16 := ⟨fun l _ => (levelOpen_lane l).2, rfl, by decide, by decide⟩

/-- Refutes O31: in an open level that logs registers ACCRD logs the one it empties (R297), so the teams change, which the statement has as they were. -/
theorem not_registerCommandWords : ¬ Obligations.RegisterCommandWords := by
  unfold Obligations.RegisterCommandWords
  intro h
  obtain ⟨-, haccrd, -⟩ := h levelOpen 0 0 false 0
  have hfits (l : Nat) (hl : inSet levelOpen.me.run.act l = true) : 0 + l ≤ 255 := by
    have := inSet_lt hl
    omega
  obtain ⟨t, ht, -, hq⟩ := haccrd levelOpen_ready levelOpen_free rfl ⟨rfl, rfl, hfits⟩
  cases exec_accrd_levelOpen.symm.trans ht
  have hteams := congrArg State.teams hq.world
  exact levelLogged_teams ((State.enqueue_enqueued rfl _).2.symm.trans hteams)

/-! ### Scalar results on their way (R19, R175, R188) -/

theorem Group.emptied_registers (g : Group) (rs : List Nat) : g.emptied (rs.map (80 + ·)) = rs.foldl Group.emptyS g := by
  rw [Group.emptied, List.foldl_map]
  simp only [Nat.add_sub_cancel_left]

/-- A producer for scalar registers has started, and they are empty until its result comes (R19). -/
def State.awaiting (s : State) (rs : List Nat) (q : Producer) : State :=
  State.advance ({ s with producers := FMap.put s.producers s.fresh q, fresh := s.fresh + 1 }.onMe (fun g => rs.foldl Group.emptyS g)) 1 1

theorem State.awaiting_awaits (s : State) (rs : List Nat) (q : Producer) :
    { s.awaiting rs q with time := s.time, clusters := s.clusters, groups := s.groups, producers := s.producers, fresh := s.fresh } = s ∧
    Awaits s.fresh rs q s (s.awaiting rs q) := by
  obtain ⟨u, hu⟩ : ∃ u : State, u = { s with producers := FMap.put s.producers s.fresh q, fresh := s.fresh + 1 } := ⟨_, rfl⟩
  have heq : s.awaiting rs q = (u.onMe (fun g => rs.foldl Group.emptyS g)).advance 1 1 := by rw [hu]; rfl
  have hme : (u.onMe (fun g => rs.foldl Group.emptyS g)).me = s.me.emptied (rs.map (80 + ·)) := by
    rw [State.me_onMe, hu, Group.emptied_registers]; rfl
  have hsame := s.me.emptied_same (rs.map (80 + ·)) s.me.sEmpty
  rw [heq]
  refine ⟨by rw [hu]; rfl, ?_, ?_, fun r hr => ?_, by rw [hu]; exact FMap.look_put_self _ _ _,
    fun k hk => by rw [hu]; exact FMap.look_put_ne _ _ hk, by rw [hu]; rfl⟩
  · refine State.advance_slice 1 1 (fun k hk => ?_) (by rw [hu]; rfl) (by rw [hu]; rfl) ?_ ?_
    · rw [State.group_onMe, if_neg (by rw [hu]; exact hk), hu]
      rfl
    · rw [hme]; have h := congrArg Group.cluster hsame; exact h
    · rw [hme]; have h := congrArg Group.slice hsame; exact h
  · rw [State.me_advance, hme]
    exact congrArg (fun g : Group => { g with run := g.run.after 1 }) hsame
  · rw [State.me_advance, hme]
    refine (s.me.sIsEmpty_emptied (dsts := rs.map (80 + ·)) (fun o ho => ?_) hr).trans ?_
    · obtain ⟨k, -, rfl⟩ := List.mem_map.1 ho
      exact Nat.le_add_right _ _
    · simp [List.contains_eq_mem, List.mem_map]

/-- METER and its open gate (R188). -/
theorem execMeter_ready {s : State} {sd : BitVec 5} (hr : s.ready [] [80 + sd.toNat, 80 + sd.toNat + 1]) : execMeter sd s =
    .next (s.awaiting [sd.toNat, sd.toNat + 1] { kind := .meter, group := s.cur, sdests := [(sd.toNat, 0), (sd.toNat + 1, 0)] }) := by
  unfold execMeter sreg
  rw [Group.gate_ready (srcs := []) hr, State.gated_go]
  rfl

/-- OBJDECL with a record that it can read and that keeps the rules (R175). -/
theorem execObjdecl_read {s : State} {p sd : BitVec 5} {b : List (BitVec 8)} (hr : s.ready [80 + p.toNat, 80 + p.toNat + 1] [80 + sd.toNat])
    (hb : s.blockIs (s.me.sPair p.toNat).toNat 128 128 b) (hreg : ∀ l, inSet s.me.run.act l = true → (s.me.lane l).region = none)
    (hf : s.me.fences = []) (hfields : ∀ f ∈ shapeFields b ++ [((shapeOf b).space != 0, 8)], f.1 = false) : execObjdecl p sd s =
      .next ((s.afterBlock (s.me.sPair p.toNat).toNat 128).awaiting [sd.toNat]
        { kind := .objdecl, group := s.cur, sdests := [(sd.toNat, 0)], block := b }) := by
  rw [← (s.afterBlock_blockRead (s.me.sPair p.toNat).toNat 128).cur]
  unfold execObjdecl sreg
  dsimp only
  rw [State.eGate_ready hr (fun h => by cases h) hreg (.inl rfl), State.withBlock_read hf hb,
    State.checked_none (fun f hfail => (List.mem_singleton.1 hfail).trans (fieldFail_none hfields _))]
  rfl

/-- Settles O32: METER's gate is open; OBJDECL's record is read and keeps its rules; both then wait for their producer. -/
theorem scalarResultWords : Obligations.ScalarResultWords := by
  unfold Obligations.ScalarResultWords
  intro s p sd b va block v
  refine ⟨fun hr => ⟨_, (exec_meter ..).trans (execMeter_ready hr), s.awaiting_awaits _ _⟩, fun hr hb hreg hf hfields => ?_⟩
  have hv : BlockRead s v := s.afterBlock_blockRead va 128
  obtain ⟨hw, ha⟩ := v.awaiting_awaits [sd.toNat] { kind := .objdecl, group := s.cur, sdests := [(sd.toNat, 0)], block := b }
  rw [hv.fresh] at ha
  exact ⟨_, (exec_objdecl ..).trans (execObjdecl_read hr hb hreg hf hfields), hv, hw, ha⟩

end Sys2Proof.Machine
end

