-- ==== Sys2Proof/Proofs/MemoryWrites.lean ====
section
/-! SUPPORT. What the machine's own writes to memory reach (Memory.lean, Sched.lean, R214, R267, R315, R367): the memories, the caches, marks and counts. -/
namespace Sys2Proof.Machine

/-- Agreement but for the memories, the caches, the marks of the dies and the counts of partitions and module. -/
structure WritesOnly (s t : State) : Prop where
  world : { t with
    mem := s.mem, poison := s.poison, hostMem := s.hostMem, remote := s.remote, clusters := s.clusters, dies := s.dies, llc := s.llc
    parts := s.parts, module := s.module, unsettled := s.unsettled } = s

theorem WritesOnly.refl (s : State) : WritesOnly s s := ⟨rfl⟩

theorem WritesOnly.trans {s t u : State} (h : WritesOnly s t) (k : WritesOnly t u) : WritesOnly s u :=
  ⟨(congrArg (fun x : State => { x with
    mem := s.mem, poison := s.poison, hostMem := s.hostMem, remote := s.remote, clusters := s.clusters, dies := s.dies, llc := s.llc
    parts := s.parts, module := s.module, unsettled := s.unsettled }) k.world).trans h.world⟩

/-- A part of the state that no write reaches is as it was. -/
theorem WritesOnly.of_rest {s t : State} {α : Type} (h : WritesOnly s t) (f : State → α)
    (hf : ∀ (x : State) me po ho re cl di ll pa mo un, f { x with
      mem := me, poison := po, hostMem := ho, remote := re, clusters := cl, dies := di, llc := ll, parts := pa, module := mo, unsettled := un } = f x) :
    f t = f s :=
  (hf t _ _ _ _ _ _ _ _ _ _).symm.trans (congrArg f h.world)

section
variable {s t : State} (h : WritesOnly s t)
include h

theorem WritesOnly.grids : t.grids = s.grids := h.of_rest State.grids (fun _ _ _ _ _ _ _ _ _ _ _ => rfl)
theorem WritesOnly.teams : t.teams = s.teams := h.of_rest State.teams (fun _ _ _ _ _ _ _ _ _ _ _ => rfl)
theorem WritesOnly.time : t.time = s.time := h.of_rest State.time (fun _ _ _ _ _ _ _ _ _ _ _ => rfl)
theorem WritesOnly.cur : t.cur = s.cur := h.of_rest State.cur (fun _ _ _ _ _ _ _ _ _ _ _ => rfl)
theorem WritesOnly.fresh : t.fresh = s.fresh := h.of_rest State.fresh (fun _ _ _ _ _ _ _ _ _ _ _ => rfl)
theorem WritesOnly.producers : t.producers = s.producers := h.of_rest State.producers (fun _ _ _ _ _ _ _ _ _ _ _ => rfl)
theorem WritesOnly.groups : t.groups = s.groups := h.of_rest State.groups (fun _ _ _ _ _ _ _ _ _ _ _ => rfl)
theorem WritesOnly.team (k : Nat) : t.team k = s.team k := h.of_rest (fun x => x.team k) (fun _ _ _ _ _ _ _ _ _ _ _ => rfl)
theorem WritesOnly.grid (k : Nat) : t.grid k = s.grid k := h.of_rest (fun x => x.grid k) (fun _ _ _ _ _ _ _ _ _ _ _ => rfl)

end

theorem LinesOnly.writesOnly {s t : State} (h : LinesOnly s t) : WritesOnly s t :=
  ⟨congrArg (fun x : State => { x with
    mem := s.mem, poison := s.poison, hostMem := s.hostMem, remote := s.remote, dies := s.dies, parts := s.parts, module := s.module
    unsettled := s.unsettled }) h.world⟩

theorem State.writePhys_writes (s : State) (cl : Option Nat) (a : Nat) (bs : List (BitVec 8)) (but : List Nat) (v : Nat) :
    WritesOnly s (s.writePhys cl a bs but v) := by
  obtain ⟨t, ds, un, ht, e⟩ := s.writePhys_spec cl a bs but v
  rw [e]
  exact ⟨ht.writesOnly.world⟩

theorem State.countErr_writes (s : State) (part k n : Nat) : WritesOnly s (s.countErr part k n) := by
  unfold State.countErr
  split_ifs <;> exact ⟨rfl⟩

theorem State.fabricStore_writes (s : State) (part pa : Nat) (bs : List (BitVec 8)) : WritesOnly s (s.fabricStore part pa bs) := by
  have h : WritesOnly s ((s.onPart part (fun q => { q with sent := q.sent + 1 })).flit part 1) := ⟨rfl⟩
  unfold State.fabricStore
  dsimp only
  split_ifs
  · exact h.trans ⟨rfl⟩
  · exact h.trans (State.countErr_writes _ _ _ _)

theorem State.noteTable_writes (s : State) (part va : Nat) : WritesOnly s (s.noteTable part va) := by
  unfold State.noteTable
  split_ifs
  · exact s.countErr_writes part 2 1
  · exact WritesOnly.refl s

theorem State.hostStyleWrite_writes (s : State) (part va : Nat) (bs : List (BitVec 8)) : WritesOnly s (s.hostStyleWrite part va bs).1 := by
  unfold State.hostStyleWrite
  split
  · exact s.noteTable_writes part va
  · exact ⟨rfl⟩
  · exact s.fabricStore_writes part _ bs
  · exact s.writePhys_writes none _ bs [] 6

end Sys2Proof.Machine
end

