-- ==== Sys2Proof/Proofs/LaunchWord.lean ====
section
/-! SUPPORT. LAUNCH (Launch.lean, R176, R320 to R322): the record judged, the child grid queued, and what becomes ready. -/
namespace Sys2Proof.Machine

/-! ### Grids that become ready (R322) -/

theorem State.settleReady_eq (s : State) : s.settleReady = { s with grids := s.settleReady.grids } := by
  unfold State.settleReady
  split_ifs <;> rfl

theorem State.grids_settleReady (s : State) : s.settleReady.grids = if s.grids.any (fun p => s.turnsReady p.2) then
    FMap.mapVals (fun _ g => if s.turnsReady g then { g with readyAt := some s.tick } else g) s.grids else s.grids := by
  unfold State.settleReady
  split_ifs <;> rfl

/-- A grid of the state becomes ready where its condition has come to hold; no other grid changes. -/
theorem State.grid_settleReady (s : State) (k : Nat) : s.settleReady.grid k =
    if FMap.has s.grids k && s.turnsReady (s.grid k) then { s.grid k with readyAt := some s.tick } else s.grid k := by
  have hgrid : s.grid k = (FMap.look s.grids k).getD {} := rfl
  have hset : s.settleReady.grid k = (FMap.look s.settleReady.grids k).getD {} := rfl
  rw [hset, hgrid, State.grids_settleReady, FMap.has]
  cases hk : FMap.look s.grids k with
  | none => split_ifs <;> simp_all [FMap.look_mapVals]
  | some g =>
    split_ifs with hany ht ht
    · simp_all [FMap.look_mapVals]
    · simp_all [FMap.look_mapVals]
    · exact absurd (List.any_eq_true.2 ⟨_, FMap.mem_of_look _ _ _ hk, by simpa using ht⟩) hany
    · simp [hk]

/-- Whatever becomes ready, grids keep the rest. -/
theorem State.grid_settleReady_rest (s : State) (k : Nat) (r : Option Nat) :
    { s.settleReady.grid k with readyAt := r } = { s.grid k with readyAt := r } := by
  rw [State.grid_settleReady]
  split_ifs <;> rfl

/-- A child that is not queued does not become ready. -/
theorem State.grid_settleReady_unqueued {s : State} {k : Nat} (h : (s.grid k).parent.isSome = true) (hq : (s.grid k).qorder = none) :
    s.settleReady.grid k = s.grid k := by
  rw [State.grid_settleReady, if_neg]
  cases hp : (s.grid k).parent with
  | none => simp [hp] at h
  | some t => simp [State.turnsReady, hp, hq]

/-- A queued grid of the state that waits for no predecessor becomes ready now. -/
theorem State.grid_settleReady_free {s : State} {k : Nat} (h : FMap.has s.grids k = true) (hq : (s.grid k).qorder.isSome = true)
    (hr : (s.grid k).retired = false) (hn : (s.grid k).readyAt = none) (hp : (s.grid k).pred = none) :
    (s.settleReady.grid k).readyAt = some s.tick := by
  rw [State.grid_settleReady, if_pos (by simp [h, State.turnsReady, State.predMet, hq, hr, hn, hp])]

/-! ### The child of a launch (R176, R320, R321) -/

/-- The child grid that a record gives the issuing team, in the child queue from `at_` on. -/
def State.childOf (s : State) (r : LaunchRec) (at_ : Option Nat) : Grid :=
  { part := (s.gridOf s.me).part, depth := (s.gridOf s.me).depth + 1, parent := some s.me.team, pred := s.childPred s.me.team r
    record := r, die := dieOf s.me.cluster, order := s.fresh, qorder := at_ }

/-- A child grid of number `k` among the grids and the children of a team. -/
def State.born (s : State) (team k : Nat) (g : Grid) : State :=
  { s with grids := FMap.put s.grids k g, fresh := k + 1 }.onTeam team (fun t => { t with children := t.children ++ [k], lastChild := some k })

/-- The child queue that a record of a priority goes to. -/
def State.childQueue (s : State) (prio : Nat) : List Nat := FMap.at [] (s.die (dieOf s.me.cluster)).childQueues prio

/-- A child record that breaks a rule (R314). -/
def State.badChild (s : State) (r : LaunchRec) : Bool := (recordFault r (s.partClusters (s.gridOf s.me).part).length).isSome

/-- The write of a record to the next slot of the overflow ring (R320). -/
def State.ringWrite (s : State) (b : List (BitVec 8)) : State × Bool :=
  let p := s.gridOf s.me
  s.hostStyleWrite p.part (p.record.ring + 128 * (p.ringTail % p.record.ringCap)) b

/-- The issuing team's child queued, in its child queue of its priority. -/
def State.queueChild (s : State) (r : LaunchRec) : State :=
  (s.born s.me.team s.fresh (s.childOf r (some s.fresh))).onDie (dieOf s.me.cluster)
    (fun d => { d with childQueues := FMap.put d.childQueues r.prio (s.childQueue r.prio ++ [s.fresh]) })

/-- The issuing team's child in the overflow ring, whose write left state `w`. -/
def State.ringChild (s w : State) (r : LaunchRec) : State :=
  (w.born s.me.team s.fresh (s.childOf r none)).onGrid s.myTeam.grid
    (fun x => { x with ringTail := x.ringTail + 1, ringIds := x.ringIds ++ [s.fresh] })

section
variable {s : State} {b : List (BitVec 8)}

theorem State.launchChild_bad (h : s.badChild (parseRecord b) = true) : s.launchChild b = (s, 3) := if_pos h

theorem State.launchChild_deep (h : s.badChild (parseRecord b) = false) (hd : 10 ≤ (s.gridOf s.me).depth) : s.launchChild b = (s, 2) :=
  (if_neg (ne_true_of_eq_false h)).trans (if_pos hd)

theorem State.launchChild_queued (h : s.badChild (parseRecord b) = false) (hd : (s.gridOf s.me).depth < 10)
    (hq : (s.childQueue (parseRecord b).prio).length < 32) : s.launchChild b = (s.queueChild (parseRecord b), 0) :=
  (if_neg (ne_true_of_eq_false h)).trans ((if_neg (not_le.2 hd)).trans (if_pos hq))

theorem State.launchChild_noRing (h : s.badChild (parseRecord b) = false) (hd : (s.gridOf s.me).depth < 10)
    (hq : 32 ≤ (s.childQueue (parseRecord b).prio).length) (hr : (s.gridOf s.me).record.ringCap ≤ (s.gridOf s.me).ringIds.length) :
    s.launchChild b = (s, 1) :=
  (if_neg (ne_true_of_eq_false h)).trans ((if_neg (not_le.2 hd)).trans ((if_neg (not_lt.2 hq)).trans (if_neg (not_lt.2 hr))))

theorem State.launchChild_ring (h : s.badChild (parseRecord b) = false) (hd : (s.gridOf s.me).depth < 10)
    (hq : 32 ≤ (s.childQueue (parseRecord b).prio).length) (hr : (s.gridOf s.me).ringIds.length < (s.gridOf s.me).record.ringCap) :
    s.launchChild b = if (s.ringWrite b).2 then (s.ringChild (s.ringWrite b).1 (parseRecord b), 0) else ((s.ringWrite b).1, 1) :=
  (if_neg (ne_true_of_eq_false h)).trans ((if_neg (not_le.2 hd)).trans ((if_neg (not_lt.2 hq)).trans (if_pos hr)))

end

/-! ### LAUNCH and its result -/

/-- The producer of a launch's status. -/
def State.launchAnswer (s : State) (sd : BitVec 5) (status : Nat) : Producer :=
  { kind := .launch, group := s.cur, sdests := [(sd.toNat, BitVec.ofNat 32 status)] }

/-- A launch ends: what has become ready is, and the result is on its way. -/
def State.launched (s : State) (sd : BitVec 5) (status : Nat) : State := s.settleReady.awaiting [sd.toNat] (s.launchAnswer sd status)

theorem State.launched_eq (s : State) (sd : BitVec 5) (status : Nat) :
    s.launched sd status = { s with grids := s.settleReady.grids }.awaiting [sd.toNat] (s.launchAnswer sd status) :=
  congrArg (fun u : State => u.awaiting [sd.toNat] (s.launchAnswer sd status)) s.settleReady_eq

/-- LAUNCH with a record that it can read, outside regions and levels. -/
theorem execLaunch_read {s : State} {p sd : BitVec 5} {b : List (BitVec 8)} (hr : s.ready [80 + p.toNat, 80 + p.toNat + 1] [80 + sd.toNat])
    (hb : s.blockIs (s.me.sPair p.toNat).toNat 128 128 b) (hreg : ∀ l, inSet s.me.run.act l = true → (s.me.lane l).region = none)
    (hl : s.myTeam.levels = []) (hroll : s.myTeam.rollback = none) (hf : s.me.fences = []) {t : State} {status : Nat}
    (h : (s.afterBlock (s.me.sPair p.toNat).toNat 128).launchChild b = (t, status)) :
    exec (.launch p sd) s = .next (t.launched sd status) := by
  have hcur : t.settleReady.cur = t.cur := by have h := congrArg State.cur t.settleReady_eq; exact h
  have hq : { kind := .launch, group := t.settleReady.cur, sdests := [(sd.toNat, BitVec.ofNat 32 status)] } = t.launchAnswer sd status :=
    congrArg (fun c => ({ kind := .launch, group := c, sdests := [(sd.toNat, BitVec.ofNat 32 status)] } : Producer)) hcur
  rw [exec_launch]
  unfold execLaunch sreg
  dsimp only
  rw [State.eGate_ready hr (fun _ => hroll) hreg (.inr hl), State.withBlock_read hf hb, h]
  exact congrArg (fun q => Host.Outcome.next (t.settleReady.awaiting [sd.toNat] q)) hq

/-- What waits for a result does so whatever else two states before it differ in. -/
theorem Awaits.of_same {n : Nat} {rs : List Nat} {q : Producer} {s w t : State} (h : Awaits n rs q s t) (hc : w.clusters = s.clusters)
    (hg : w.groups = s.groups) (hcur : w.cur = s.cur) (hp : w.producers = s.producers) : Awaits n rs q w t := by
  have hcl (c : Nat) : w.cluster c = s.cluster c := congrArg (FMap.at ({} : Cluster) · c) hc
  have hgr (k : Nat) : w.group k = s.group k := congrArg (FMap.at ({} : Group) · k) hg
  have hme : w.me = s.me := (hgr w.cur).trans (congrArg s.group hcur)
  obtain ⟨⟨h1, h2, h3, h4⟩, h5, h6, h7, h8, h9⟩ := h
  refine ⟨⟨?_, ?_, ?_, ?_⟩, ?_, ?_, h7, ?_, h9⟩
  · simpa only [hcl] using h1
  · simpa only [hcl, hme] using h2
  · simpa only [hgr, hcur] using h3
  · rw [h4, hcur]
  · simpa only [hme] using h5
  · simpa only [hme] using h6
  · simpa only [hp] using h8

section
variable (s : State) (sd : BitVec 5) (status : Nat)

/-- Beside the result on its way, a launch that ends changes nothing but what grids are ready. -/
theorem State.launched_world : { s.launched sd status with
    time := s.time, clusters := s.clusters, groups := s.groups, producers := s.producers, fresh := s.fresh } = { s with grids := s.settleReady.grids } := by
  rw [State.launched_eq]
  exact (State.awaiting_awaits { s with grids := s.settleReady.grids } [sd.toNat] (s.launchAnswer sd status)).1

theorem State.launched_awaits : Awaits s.fresh [sd.toNat] (s.launchAnswer sd status) s (s.launched sd status) := by
  rw [State.launched_eq]
  exact (State.awaiting_awaits { s with grids := s.settleReady.grids } [sd.toNat] (s.launchAnswer sd status)).2.of_same rfl rfl rfl rfl

theorem State.grids_launched : (s.launched sd status).grids = s.settleReady.grids := by
  have h := congrArg State.grids (s.launched_world sd status); exact h

theorem State.grid_launched (k : Nat) : (s.launched sd status).grid k = s.settleReady.grid k :=
  congrArg (FMap.at ({} : Grid) · k) (s.grids_launched sd status)

theorem State.team_launched (k : Nat) : (s.launched sd status).team k = s.team k := by
  have h := congrArg (fun x : State => x.team k) (s.launched_world sd status); exact h

theorem State.die_launched (k : Nat) : (s.launched sd status).die k = s.die k := by
  have h := congrArg (fun x : State => x.die k) (s.launched_world sd status); exact h

end

/-- What makes grids ready is the grids, the teams and the tick. -/
theorem State.settleReady_grids_congr {s t : State} (hg : t.grids = s.grids) (ht : t.teams = s.teams) (hk : t.time = s.time) :
    t.settleReady.grids = s.settleReady.grids := by
  have hgr (k : Nat) : t.grid k = s.grid k := congrArg (FMap.at ({} : Grid) · k) hg
  have hte (k : Nat) : t.team k = s.team k := congrArg (FMap.at ({} : Team) · k) ht
  have hm (g : Grid) : t.predMet g = s.predMet g := by simp only [State.predMet, hgr, hte]
  have hr (g : Grid) : t.turnsReady g = s.turnsReady g := by simp only [State.turnsReady, hm]
  have htick : t.tick = s.tick := congrArg (· / 840) hk
  simp only [State.grids_settleReady, hg, hr, htick]

/-! ### The state with its child -/

section
variable (s w : State) (r : LaunchRec) (k : Nat)

theorem State.grid_queueChild : (s.queueChild r).grid k = if k = s.fresh then s.childOf r (some s.fresh) else s.grid k := FMap.at_put _ _ _ _ _

/-- The team whose child is born. -/
def State.withChild (s : State) (t c k : Nat) : Team :=
  if k = t then { s.team k with children := (s.team k).children ++ [c], lastChild := some c } else s.team k

theorem State.team_born (t c : Nat) (g : Grid) : (s.born t c g).team k = s.withChild t c k := by
  unfold State.withChild
  refine (State.team_onTeam _ _ _ _).trans ?_
  split_ifs with h
  · rw [h]; rfl
  · rfl

theorem State.team_queueChild : (s.queueChild r).team k = s.withChild s.me.team s.fresh k := s.team_born k _ _ _

theorem State.die_queueChild : (s.queueChild r).die k = if k = dieOf s.me.cluster then
    { s.die k with childQueues := FMap.put (s.die k).childQueues r.prio (s.childQueue r.prio ++ [s.fresh]) } else s.die k := by
  refine (State.die_onDie _ _ _ _).trans ?_
  split_ifs with h
  · rw [h]; rfl
  · rfl

theorem State.queueChild_awaits (sd : BitVec 5) :
    Awaits (s.fresh + 1) [sd.toNat] (s.launchAnswer sd 0) s ((s.queueChild r).launched sd 0) :=
  ((s.queueChild r).launched_awaits sd 0).of_same rfl rfl rfl rfl

theorem State.launched_queueChild (sd : BitVec 5) : { (s.queueChild r).launched sd 0 with
    time := s.time, clusters := s.clusters, groups := s.groups, producers := s.producers, fresh := s.fresh, grids := s.grids, dies := s.dies
    teams := s.teams } = s := by
  have h : s = { s.queueChild r with fresh := s.fresh, grids := s.grids, dies := s.dies, teams := s.teams } := rfl
  exact (congrArg (fun x : State => { x with fresh := s.fresh, grids := s.grids, dies := s.dies, teams := s.teams })
    ((s.queueChild r).launched_world sd 0)).trans h.symm

/-- A queued child that waits for no predecessor is ready once its launch has ended. -/
theorem State.readyAt_launched_queueChild (sd : BitVec 5) (h : s.childPred s.me.team r = none) :
    (((s.queueChild r).launched sd 0).grid s.fresh).readyAt = some s.tick := by
  have hg : (s.queueChild r).grid s.fresh = s.childOf r (some s.fresh) := by rw [State.grid_queueChild, if_pos rfl]
  have hhas : FMap.has (s.queueChild r).grids s.fresh = true := FMap.has_put_self _ _ _
  rw [State.grid_launched, State.grid_settleReady_free hhas (by rw [hg]; rfl) (by rw [hg]; rfl) (by rw [hg]; rfl) (by rw [hg]; exact h)]
  rfl

theorem State.launched_ringChild (sd : BitVec 5) : { (s.ringChild w r).launched sd 0 with
    time := w.time, clusters := w.clusters, groups := w.groups, producers := w.producers, fresh := w.fresh, grids := w.grids, teams := w.teams } = w := by
  have h : w = { s.ringChild w r with fresh := w.fresh, grids := w.grids, teams := w.teams } := rfl
  exact (congrArg (fun x : State => { x with fresh := w.fresh, grids := w.grids, teams := w.teams }) ((s.ringChild w r).launched_world sd 0)).trans h.symm

theorem State.ringChild_awaits (sd : BitVec 5) (hw : w.cur = s.cur) :
    Awaits (s.fresh + 1) [sd.toNat] (s.launchAnswer sd 0) w ((s.ringChild w r).launched sd 0) := by
  have h := ((s.ringChild w r).launched_awaits sd 0).of_same (w := w) rfl rfl rfl rfl
  have hq : (s.ringChild w r).launchAnswer sd 0 = s.launchAnswer sd 0 := congrArg (fun c => ({ kind := .launch, group := c, sdests := [(sd.toNat, 0)] } : Producer)) hw
  rwa [hq] at h

theorem State.team_ringChild : (s.ringChild w r).team k = w.withChild s.me.team s.fresh k := w.team_born k _ _ _

theorem State.grid_ringChild_self (h : s.fresh ≠ s.myTeam.grid) : (s.ringChild w r).grid s.fresh = s.childOf r none := by
  refine (State.grid_onGrid _ _ _ _).trans ?_
  rw [if_neg h]
  exact FMap.at_put_self _ _ _ _

theorem State.grid_ringChild (h : s.fresh ≠ s.myTeam.grid) (hk : k ≠ s.fresh) : (s.ringChild w r).grid k = if k = s.myTeam.grid then
    { w.grid k with ringTail := (w.grid k).ringTail + 1, ringIds := (w.grid k).ringIds ++ [s.fresh] } else w.grid k := by
  have hborn (j : Nat) (hj : j ≠ s.fresh) : (w.born s.me.team s.fresh (s.childOf r none)).grid j = w.grid j := FMap.at_put_ne _ _ _ hj
  refine (State.grid_onGrid _ _ _ _).trans ?_
  split_ifs with e
  · rw [hborn _ h.symm, e]
  · exact hborn k hk

end

/-! ### What a read of a block leaves of the launch -/

section
variable {s v : State} (h : BlockRead s v)
include h

theorem BlockRead.grid (k : Nat) : v.grid k = s.grid k := by
  obtain ⟨_, _, _, _, _, _, _, rfl⟩ := h.eq
  rfl

theorem BlockRead.grids : v.grids = s.grids := by
  obtain ⟨_, _, _, _, _, _, _, rfl⟩ := h.eq
  rfl

theorem BlockRead.time : v.time = s.time := by
  obtain ⟨_, _, _, _, _, _, _, rfl⟩ := h.eq
  rfl

theorem BlockRead.gridOf : v.gridOf v.me = s.gridOf s.me := by
  obtain ⟨_, _, _, _, _, _, _, rfl⟩ := h.eq
  rfl

theorem BlockRead.childOf (r : LaunchRec) (at_ : Option Nat) : v.childOf r at_ = s.childOf r at_ := by
  obtain ⟨_, _, _, _, _, _, _, rfl⟩ := h.eq
  rfl

theorem BlockRead.withChild (t c k : Nat) : v.withChild t c k = s.withChild t c k := by
  obtain ⟨_, _, _, _, _, _, _, rfl⟩ := h.eq
  rfl

theorem BlockRead.childQueues (d : Nat) : (v.die d).childQueues = (s.die d).childQueues := by
  have hd := congrArg Die.childQueues (h.die d)
  exact hd

theorem BlockRead.childQueue (prio : Nat) : v.childQueue prio = s.childQueue prio := by
  rw [State.childQueue, h.childQueues, h.me]
  rfl

theorem BlockRead.partClusters (p : Nat) : v.partClusters p = s.partClusters p := by
  refine List.filter_congr (fun c _ => ?_)
  have he := congrArg Cluster.enabled (h.cluster c)
  have hp := congrArg Cluster.part (h.cluster c)
  simp only [show (v.cluster c).enabled = (s.cluster c).enabled from he, show (v.cluster c).part = (s.cluster c).part from hp]

theorem BlockRead.badChild (r : LaunchRec) : v.badChild r = s.badChild r := by
  rw [State.badChild, h.gridOf, h.partClusters]
  rfl

end

/-- Settles O33: the record is read, and each answer to it is one branch of the launch; a child becomes ready where it waits for no predecessor. -/
theorem launchWord : Obligations.LaunchWord := by
  unfold Obligations.LaunchWord
  refine ⟨fun s p sd hr hroll => ?_, ?_⟩
  · rw [exec_launch]
    unfold execLaunch sreg
    dsimp only
    rw [State.eGate_operands hr (fun _ => hroll)]
    exact ⟨fun h => congrArg _ (State.eGate_region h), fun h hl => congrArg _ (State.eGate_level h hl)⟩
  intro s p sd b va r parent die queue bad hcluster hr hb hreg hl hroll hf v result plain ring queued family
  have hv : BlockRead s v := s.afterBlock_blockRead va 128
  have hparent : v.gridOf v.me = parent := hv.gridOf
  have hdie : dieOf s.me.cluster = die := dieOf_eq hcluster
  have hqueue : v.childQueue r.prio = queue := by rw [hv.childQueue, State.childQueue, hdie]
  have hbad : v.badChild r = bad := hv.badChild r
  have hring : v.ringWrite b = ring := by rw [State.ringWrite, hparent]
  have hring' : WritesOnly v ring.1 := v.hostStyleWrite_writes _ _ b
  have hchild (at_ : Option Nat) : v.childOf r at_ = queued at_ := by rw [hv.childOf, State.childOf, hdie]
  have hgives {w : State} {status : Nat} (h : v.launchChild b = (w, status)) : exec (.launch p sd) s = .next (w.launched sd status) :=
    execLaunch_read hr hb hreg hl hroll hf h
  have hanswer (status : Nat) : v.launchAnswer sd status = { kind := .launch, group := s.cur, sdests := [(sd.toNat, BitVec.ofNat 32 status)] } :=
    congrArg (fun c => ({ kind := .launch, group := c, sdests := [(sd.toNat, BitVec.ofNat 32 status)] } : Producer)) hv.cur
  have hplain {w : State} {status : Nat} (h : v.launchChild b = (w, status)) (hw : WritesOnly v w) : plain status w := by
    have ha := w.launched_awaits sd status
    rw [State.launchAnswer, hw.cur, hw.fresh, hv.fresh, hv.cur] at ha
    exact ⟨_, hgives h, congrArg (fun x : State => { x with grids := w.grids }) (w.launched_world sd status),
      (w.grids_launched sd status).trans (State.settleReady_grids_congr (hw.grids.trans hv.grids) (hw.teams.trans hv.teams) (hw.time.trans hv.time)),
      hv, ha⟩
  have hfamily {w : State} (h : ∀ k, w.team k = v.withChild v.me.team v.fresh k) : family (w.launched sd 0) := fun k => by
    rw [State.team_launched, h, hv.withChild, hv.me, hv.fresh]
    rfl
  refine ⟨fun h => hplain (State.launchChild_bad (hbad.trans h)) (WritesOnly.refl v),
    fun h hd => hplain (State.launchChild_deep (hbad.trans h) (hparent ▸ hd)) (WritesOnly.refl v),
    fun h hd hq hn => hplain (State.launchChild_noRing (hbad.trans h) (hparent ▸ hd) (hqueue ▸ hq) (hparent ▸ hn)) (WritesOnly.refl v),
    fun h hd hq hn => ?_, fun h hd hq => ?_⟩
  · have hlaunch := State.launchChild_ring (s := v) (b := b) (hbad.trans h) (hparent ▸ hd) (hqueue ▸ hq) (hparent ▸ hn)
    rw [hring] at hlaunch
    refine ⟨fun hw => hplain (hlaunch.trans (if_neg (ne_true_of_eq_false hw))) hring', fun hw hne => ?_⟩
    have hne' : v.fresh ≠ v.myTeam.grid := by rwa [hv.fresh, hv.myTeam]
    have hself : (v.ringChild ring.1 r).grid s.fresh = queued none := by rw [← hv.fresh, v.grid_ringChild_self _ _ hne', hchild]
    have hworld := v.launched_ringChild ring.1 r sd
    refine ⟨_, hgives (hlaunch.trans (if_pos hw)), ?_, ⟨hv, ?_⟩, ?_, fun k hk => ?_, hfamily (fun k => ?_)⟩
    · rw [hring'.time, hring'.groups, hring'.producers, hring'.fresh, hring'.grids, hring'.teams] at hworld
      exact hworld
    · rw [← hanswer, ← hv.fresh]
      exact v.ringChild_awaits ring.1 r sd hring'.cur
    · rw [State.grid_launched, State.grid_settleReady_unqueued (by rw [hself]; rfl) (by rw [hself]), hself]
    · rw [State.grid_launched, State.grid_settleReady_rest, v.grid_ringChild _ _ _ hne' (hv.fresh ▸ hk), hring'.grid, hv.grid, hv.myTeam, hv.fresh]
      split_ifs with hmine
      · rw [hmine]; rfl
      · rfl
    · rw [State.team_ringChild]
      simp only [State.withChild, hring'.team]
  · have hlaunch := State.launchChild_queued (s := v) (b := b) (hbad.trans h) (hparent ▸ hd) (hqueue ▸ hq)
    have hself : (v.queueChild r).grid s.fresh = queued (some s.fresh) := by rw [v.grid_queueChild, hv.fresh, if_pos rfl, hchild]
    refine ⟨_, hgives hlaunch, v.launched_queueChild r sd, ⟨hv, ?_⟩, ?_, fun hp => ?_, fun k hk => ?_, hfamily (v.team_queueChild r), fun k hk => ?_, ?_⟩
    · rw [← hanswer, ← hv.fresh]
      exact v.queueChild_awaits r sd
    · rw [State.grid_launched, State.grid_settleReady_rest, hself]
    · have hready := v.readyAt_launched_queueChild r sd (hp ▸ congrArg Grid.pred (hv.childOf r none))
      rwa [hv.fresh, State.tick, hv.time] at hready
    · rw [State.grid_launched, State.grid_settleReady_rest, State.grid_queueChild, if_neg (hv.fresh ▸ hk), hv.grid]
    · rw [State.die_launched, State.die_queueChild, hv.me, hdie, if_neg hk]
    · rw [State.die_launched, State.die_queueChild, hv.me, hdie, if_pos rfl, hqueue, hv.fresh, hv.childQueues]

end Sys2Proof.Machine
end

