-- ==== Sys2Proof/Proofs/BarrierWords.lean ====
section
/-! SUPPORT. Event counters and the words that arrive at the barriers of teams and grids (Sync.lean, R174, R178, R179). -/
namespace Sys2Proof.Machine

/-- An event counter set by the issuing group (R174). -/
theorem State.setCounter_moved (s : State) (ec n : Nat) :
    Moved { s.me with ec := FMap.put s.me.ec ec (BitVec.ofNat 16 n), run := s.me.run.after 1 } s.sameLanes s
      ((s.onMe (fun g => g.setCounter ec n)).advance 1 1) :=
  Moved.of_onMe rfl rfl rfl (fun _ _ => rfl)

/-! ### Arrivals (R178, R179) -/

theorem Group.lane_parkNext (g : Group) (p : Place) {l : Nat} (h : l < 64) : (g.parkNext p).lane l =
    if inSet g.run.act l then { g.lane l with vpc := g.run.next, cond := .parked .convergence, place := p } else g.lane l := by
  have hmove := g.lane_moveTo (fun _ => g.run.next) h
  refine ((g.moveTo (fun _ => g.run.next)).lane_mapLanes g.run.act (fun _ n => { n with cond := .parked .convergence, place := p }) h).trans ?_
  rw [hmove]
  split_ifs <;> rfl

theorem Group.parkNext_rest (g : Group) (p : Place) : { g.parkNext p with lanes := g.lanes, run := (g.parkNext p).run.after 1 } =
    { g with run := { g.run.after 1 with moved := true, ends := true } } := rfl

/-- The lanes of the issuing group once the active ones have parked at *next*. -/
def State.parkedAt (s : State) (p : Place) (l : Nat) : Lane :=
  if inSet s.me.run.act l then { s.me.lane l with vpc := s.nextHdr, cond := .parked .convergence, place := p } else s.me.lane l

/-- The active lanes park at *next*, and the run ends. -/
theorem State.parkNext_moved (s : State) (p : Place) :
    Moved (s.afterMove true) (s.parkedAt p) s ((s.onMe (·.parkNext p)).advance 1 1) :=
  Moved.of_onMe (s.me.parkNext_rest p) rfl rfl (fun _ h => (s.me.lane_parkNext p h).trans rfl)

section
variable (s : State) (b : Nat)

/-- A team some lanes of which have arrived at one of its barriers. -/
def Team.arriveAt (t : Team) (key : Nat) (act : LaneSet) (n : Nat) : Team :=
  { t with arrivals := FMap.put t.arrivals key (FMap.at 0 t.arrivals key ||| act), arrUpto := FMap.put t.arrUpto key n }

theorem State.team_arrive (k : Nat) :
    (s.arrive b).team k = if k = s.me.team then s.myTeam.arriveAt (b * 16 + s.me.gid) s.me.run.act s.fresh else s.team k :=
  State.team_onTeam _ _ _ _

/-- The state in which the active lanes have arrived at barrier `b` and parked there. -/
def State.arrivedAtBarrier (s : State) (b : Nat) : State := ((s.arrive b).onMe (·.parkNext (.barrier b))).advance 1 1

theorem State.arrivedAtBarrier_moved : Moved (s.afterMove true) (s.parkedAt (.barrier b)) s (s.arrivedAtBarrier b) := by
  obtain ⟨-, hs, hg, hl⟩ := (s.arrive b).parkNext_moved (.barrier b)
  exact ⟨rfl, ⟨hs.cluster, hs.slice, hs.group, hs.cur⟩, hg, hl⟩

/-- The state in which the active lanes have arrived at barrier `b` and go on. -/
theorem State.arrive_moved : Moved { s.me with run := s.me.run.after 1 } s.sameLanes s ((s.arrive b).advance 1 1) :=
  Moved.of_advance rfl rfl rfl (fun _ _ => rfl) rfl rfl rfl (fun _ _ => rfl)

section
variable (h : ∀ l, inSet s.me.run.act l = true → (s.me.lane l).region = none)
include h

theorem execTbar_go (b : BitVec 2) : execTbar b s = .next ((s.arrivedAtBarrier b.toNat).settleBarriers s.me.team) :=
  congrArg Host.Outcome.next (State.eGate_go h (.inl rfl))

theorem execTarrive_go (b : BitVec 2) : execTarrive b s = .next (((s.arrive b.toNat).advance 1 1).settleBarriers s.me.team) :=
  congrArg Host.Outcome.next (State.eGate_go h (.inl rfl))

end

/-- A team some lanes of which have arrived at the barrier of their grid. -/
def Team.arriveGrid (t : Team) (gid : Nat) (act : LaneSet) (n : Nat) : Team :=
  { t with gridArr := FMap.put t.gridArr gid (FMap.at 0 t.gridArr gid ||| act), gridUpto := n }

/-- The state in which the active lanes have arrived at the barrier of their grid, as their team sees it. -/
def State.arriveTeam (s : State) : State := { s with fresh := s.fresh + 1 }.onTeam s.me.team (·.arriveGrid s.me.gid s.me.run.act s.fresh)

/-- The state in which they have arrived as the grid sees it too. -/
def State.arriveGrid (s : State) : State := s.arriveTeam.onGrid s.myTeam.grid (fun x => { x with gbarTick := s.tick, gbarCl := s.me.cluster })

/-- The state in which they have parked there. -/
def State.arrivedAtGrid (s : State) : State := (s.arriveGrid.onMe (·.parkNext .gridBarrier)).advance 1 1

theorem State.arriveGrid_me : s.arriveGrid.me = s.me := rfl

theorem State.arrivedAtGrid_world : { s.arrivedAtGrid with
    time := s.time, clusters := s.clusters, teams := s.teams, groups := s.groups, grids := s.grids, fresh := s.fresh } = s := by
  have h : s = { s.arriveGrid with teams := s.teams, grids := s.grids, fresh := s.fresh } := rfl
  exact (congrArg (fun x : State => { x with teams := s.teams, grids := s.grids, fresh := s.fresh })
    (s.arriveGrid.parkNext_moved .gridBarrier).world).trans h.symm

theorem State.arrivedAtGrid_slice : OwnSlice s s.arrivedAtGrid := by
  obtain ⟨hc, hs, hg, hcur⟩ := (s.arriveGrid.parkNext_moved .gridBarrier).slice
  exact ⟨hc, hs, hg, hcur⟩

theorem State.arrivedAtGrid_group : { s.arrivedAtGrid.me with lanes := s.me.lanes } = s.afterMove true := by
  have h := (s.arriveGrid.parkNext_moved .gridBarrier).group
  rw [State.afterMove, State.arriveGrid_me] at h
  exact h

theorem State.arrivedAtGrid_lane {l : Nat} (hl : l < 64) : s.arrivedAtGrid.me.lane l = s.parkedAt .gridBarrier l :=
  (s.arriveGrid.parkNext_moved .gridBarrier).lanes l hl

theorem State.team_arrivedAtGrid (k : Nat) :
    s.arrivedAtGrid.team k = if k = s.me.team then s.myTeam.arriveGrid s.me.gid s.me.run.act s.fresh else s.team k :=
  State.team_onTeam { s with fresh := s.fresh + 1 } s.me.team k (·.arriveGrid s.me.gid s.me.run.act s.fresh)

theorem State.grid_arrivedAtGrid (k : Nat) :
    s.arrivedAtGrid.grid k = if k = s.myTeam.grid then { s.grid k with gbarTick := s.tick, gbarCl := s.me.cluster } else s.grid k := by
  refine (State.grid_onGrid s s.myTeam.grid k (fun x => { x with gbarTick := s.tick, gbarCl := s.me.cluster })).trans ?_
  split_ifs with h
  · rw [h]
  · rfl

section
variable (h : ∀ l, inSet s.me.run.act l = true → (s.me.lane l).region = none) (hl : s.myTeam.levels = [])
include h hl

theorem execGbar_plain (hc : (s.gridOf s.me).record.flags.getLsbD 7 = false) : execGbar s = .next (s.trapHere 0x70 0) := by
  unfold execGbar
  rw [State.eGate_go h (.inr hl)]
  exact congrArg Host.Outcome.next (if_pos (by rw [LaunchRec.cores, hc]; rfl))

theorem execGbar_cores (hc : (s.gridOf s.me).record.flags.getLsbD 7 = true) : execGbar s = .next (s.arrivedAtGrid.settleGrid s.myTeam.grid) := by
  have hgrid : (s.arriveTeam.team s.me.team).grid = s.myTeam.grid := by
    rw [State.arriveTeam, State.team_onTeam_self]
    rfl
  unfold execGbar
  rw [State.eGate_go h (.inr hl)]
  refine congrArg Host.Outcome.next ((if_neg (by rw [LaunchRec.cores, hc]; decide)).trans ?_)
  exact congrArg (fun k => (((s.arriveTeam.onGrid k (fun x => { x with gbarTick := s.tick, gbarCl := s.me.cluster })).onMe
    (·.parkNext .gridBarrier)).advance 1 1).settleGrid k) hgrid

end

end

/-- Settles O34: the gates of R183 and R186 come first; what arrives is entered in the team, or in the team and its grid, and parks. -/
theorem eventCounterAndBarrierWords : Obligations.EventCounterAndBarrierWords := by
  unfold Obligations.EventCounterAndBarrierWords
  refine ⟨fun s b => ⟨fun h => ?_, fun h hl => ?_⟩, fun s ec n => ?_, fun s b h => ?_, fun s h hl => ?_⟩
  · rw [exec_tbar, exec_tarrive, exec_gbar]
    unfold execTbar execTarrive execGbar
    simp only [State.eGate_region h, and_self]
  · rw [exec_gbar]
    unfold execGbar
    rw [State.eGate_level h hl]
  · intro v sets
    exact ⟨fun hv => ⟨_, (exec_evinc ..).trans (congrArg Host.Outcome.next (if_neg (not_le.2 hv))), rfl, s.setCounter_moved _ _⟩,
        fun hv => (exec_evinc ..).trans (congrArg Host.Outcome.next (if_pos hv)),
      fun hv => ⟨_, (exec_evdec ..).trans (congrArg Host.Outcome.next (if_neg (not_lt.2 hv))), rfl, s.setCounter_moved _ _⟩,
        fun hv => (exec_evdec ..).trans (congrArg Host.Outcome.next (if_pos hv))⟩
  · intro key arrives
    have hteam {u : State} (hu : ∀ k, u.team k = (s.arrive b.toNat).team k) : (∀ k, k ≠ s.me.team → u.team k = s.team k) ∧
          { u.team s.me.team with arrivals := s.myTeam.arrivals, arrUpto := s.myTeam.arrUpto } = s.myTeam ∧
          FMap.at 0 (u.team s.me.team).arrivals key = FMap.at 0 s.myTeam.arrivals key ||| s.me.run.act ∧
          (∀ j, j ≠ key → FMap.at 0 (u.team s.me.team).arrivals j = FMap.at 0 s.myTeam.arrivals j) := by
      have hmine : u.team s.me.team = s.myTeam.arriveAt key s.me.run.act s.fresh := by rw [hu, State.team_arrive, if_pos rfl]
      rw [hmine]
      exact ⟨fun k hk => by rw [hu, State.team_arrive, if_neg hk], rfl, FMap.at_put_self _ _ _ _, fun j hj => FMap.at_put_ne _ _ _ hj⟩
    exact ⟨⟨_, (exec_tbar ..).trans (execTbar_go s h b), s.arrivedAtBarrier b.toNat, rfl, s.arrivedAtBarrier_moved b.toNat, hteam (fun _ => rfl)⟩,
      ⟨_, (exec_tarrive ..).trans (execTarrive_go s h b), (s.arrive b.toNat).advance 1 1, rfl, s.arrive_moved b.toNat, hteam (fun _ => rfl)⟩⟩
  · have hmine : s.arrivedAtGrid.team s.me.team = s.myTeam.arriveGrid s.me.gid s.me.run.act s.fresh := by rw [State.team_arrivedAtGrid, if_pos rfl]
    refine ⟨fun hc => ⟨_, (exec_gbar s).trans (execGbar_cores s h hl hc), s.arrivedAtGrid, rfl, s.arrivedAtGrid_world, s.arrivedAtGrid_slice,
      s.grid_arrivedAtGrid, s.arrivedAtGrid_group, fun l hl => s.arrivedAtGrid_lane hl, fun k hk => by rw [State.team_arrivedAtGrid, if_neg hk], ?_⟩,
      fun hc => (exec_gbar s).trans (execGbar_plain s h hl hc)⟩
    rw [hmine]
    exact FMap.at_put_self _ _ _ _

end Sys2Proof.Machine
end

