-- ==== Sys2Proof/Proofs/BarrierPhases.lean ====
section
/-! SUPPORT. A phase of a team's barrier (Sync.lean, R178): the lanes parked at it wake, and the team goes on to its next phase. -/
namespace Sys2Proof.Machine

/-! ### Waking the lanes parked at a place -/

/-- The lanes of a group that are parked at a place become live. -/
def Group.wakeAt (g : Group) (p : Place) : Group := g.wake (setOf (fun l => (g.lane l).isParked && (g.lane l).place == p))

theorem Group.lane_wakeAt (g : Group) (p : Place) {l : Nat} (h : l < 64) : (g.wakeAt p).lane l =
    if (g.lane l).isParked = true ∧ (g.lane l).place = p then { g.lane l with cond := .live, place := .none } else g.lane l := by
  refine (g.lane_mapLanes _ (fun _ n => { n with cond := .live, place := .none }) h).trans ?_
  simp only [inSet_setOf, h, decide_true, Bool.true_and, Bool.and_eq_true, beq_iff_eq]

/-- No lane is parked there any more. -/
theorem Group.wakeAt_wakeAt (g : Group) (p : Place) : (g.wakeAt p).wakeAt p = g.wakeAt p := by
  have hlive (l : Nat) (h : l < 64) : ((g.wakeAt p).lane l).isParked = true → ((g.wakeAt p).lane l).place ≠ p := by
    rw [g.lane_wakeAt p h]
    split_ifs with hp
    · exact fun hf => absurd hf (by simp [Lane.isParked])
    · exact fun hq he => hp ⟨hq, he⟩
  have hlane (l : Nat) (h : l < 64) : ((g.wakeAt p).wakeAt p).lane l = (g.wakeAt p).lane l := by
    rw [Group.lane_wakeAt _ p h, if_neg (fun hp => hlive l h hp.1 hp.2)]
  have htab (x : Group) : (x.wakeAt p).lanes = (List.range 64).map (fun l => (l, (x.wakeAt p).lane l)) := by
    refine List.map_congr_left (fun l hl => congrArg (l, ·) ?_)
    exact (x.lane_mapLanes _ (fun _ n => { n with cond := .live, place := .none }) (List.mem_range.1 hl)).symm
  have hlanes : ((g.wakeAt p).wakeAt p).lanes = (g.wakeAt p).lanes := by
    rw [htab (g.wakeAt p), htab g]
    exact List.map_congr_left (fun l hl => congrArg (l, ·) (hlane l (List.mem_range.1 hl)))
  exact congrArg (fun m => ({ g with lanes := m } : Group)) hlanes

/-- The lanes of some groups that are parked at a place become live. -/
def State.wakeGroups (s : State) (ks : List Nat) (p : Place) : State := ks.foldl (fun s k => s.onGroup k (·.wakeAt p)) s

theorem State.wakeGroups_eq (s : State) (ks : List Nat) (p : Place) : s.wakeGroups ks p = { s with groups := (s.wakeGroups ks p).groups } := by
  induction ks generalizing s with
  | nil => rfl
  | cons k ks ih => exact (ih (s.onGroup k (·.wakeAt p))).trans rfl

section
variable (s : State) (ks : List Nat) (p : Place) (j : Nat)

theorem State.team_wakeGroups : (s.wakeGroups ks p).team j = s.team j := by rw [State.wakeGroups_eq]; rfl
theorem State.grid_wakeGroups : (s.wakeGroups ks p).grid j = s.grid j := by rw [State.wakeGroups_eq]; rfl

end

theorem State.group_wakeGroups (s : State) (ks : List Nat) (p : Place) (j : Nat) :
    (s.wakeGroups ks p).group j = if j ∈ ks then (s.group j).wakeAt p else s.group j := by
  induction ks generalizing s with
  | nil => rfl
  | cons k ks ih =>
    refine (ih (s.onGroup k (·.wakeAt p))).trans ?_
    rw [State.group_onGroup]
    by_cases hk : j = k
    · subst hk
      simp [Group.wakeAt_wakeAt]
    · simp [hk]

/-- A value put under some keys. -/
theorem FMap.at_foldl_put {α : Type} (d : α) (f : Nat → Nat) (v : α) (ks : List Nat) (m : FMap α) {k : Nat} (h : k ∈ ks) :
    FMap.at d (ks.foldl (fun m k => FMap.put m (f k) v) m) (f k) = v := by
  have hkeep (ks : List Nat) (m : FMap α) (hm : FMap.at d m (f k) = v) : FMap.at d (ks.foldl (fun m k => FMap.put m (f k) v) m) (f k) = v := by
    induction ks generalizing m with
    | nil => exact hm
    | cons a ks ih => exact ih _ (by rw [FMap.at_put]; split_ifs; exacts [rfl, hm])
  induction ks generalizing m with
  | nil => simp at h
  | cons a ks ih =>
    rcases List.mem_cons.1 h with rfl | h
    · exact hkeep ks _ (FMap.at_put_self _ _ _ _)
    · exact ih _ h

/-! ### Complete phases -/

/-- Every lane of a set is in another. -/
theorem diff_eq_zero (m a : LaneSet) : (m &&& ~~~a == 0) = true ↔ ∀ l, inSet m l = true → inSet a l = true := by
  rw [beq_iff_eq]
  refine ⟨fun h l hl => ?_, fun h => ?_⟩
  · have hd := inSet_diff m a l
    rw [h, hl] at hd
    simpa [inSet] using hd.symm
  · by_contra hne
    obtain ⟨l, hl⟩ := lanesIn_ne hne
    rw [inSet_diff, Bool.and_eq_true] at hl
    simp [h l hl.1] at hl

theorem Group.inSet_countSet (g : Group) (l : Nat) : inSet g.countSet l = (decide (l < 64) && (g.lane l).counts) := inSet_setOf _ _

/-- A grid that is not recorded neither waits for its log nor writes it (R367, R369). -/
theorem State.logStalls_off {s : State} {k : Nat} (h : (s.grid k).recordMode = 0) (n : Nat) : s.logStalls k n = false := by
  simp [State.logStalls, h]

theorem State.logPoint_off {s : State} {k : Nat} (h : (s.grid k).recordMode = 0) (g : Group) (type key value : Nat) :
    s.logPoint k g type key value = s := if_pos h

/-- The arrivals of a group's lanes at barrier `b` of its team. -/
def State.arrivals (s : State) (t b k : Nat) : LaneSet := FMap.at 0 (s.team t).arrivals (b * 16 + (s.group k).gid)

/-- A team after a phase of its barrier `b`, the arrivals of some groups being forgotten. -/
def Team.nextPhase (t : Team) (b : Nat) (gids : List Nat) : Team :=
  { t with arrivals := gids.foldl (fun m g => FMap.put m (b * 16 + g) 0) t.arrivals, phases := FMap.put t.phases b (FMap.at 0 t.phases b + 1) }

theorem State.settleBarrier_waits {s : State} {t b k l : Nat} (hk : k ∈ (s.team t).groups) (hl : l < 64) (hc : ((s.group k).lane l).counts = true)
    (h : inSet (s.arrivals t b k) l = false) : s.settleBarrier t b = s := by
  have hcomplete : (s.teamGroups t).all (fun x => x.2.countSet &&& ~~~(FMap.at 0 (s.team t).arrivals (b * 16 + x.2.gid)) == 0) = false := by
    refine List.all_eq_false.2 ⟨(k, s.group k), List.mem_map_of_mem hk, fun hz => ?_⟩
    have harr := (diff_eq_zero _ _).1 hz l (by rw [Group.inSet_countSet, decide_eq_true hl, Bool.true_and]; exact hc)
    exact absurd (h.symm.trans harr) (by decide)
  refine if_neg ?_
  dsimp only
  rw [hcomplete, Bool.and_false, Bool.false_and, Bool.false_and]
  decide

theorem State.settleBarrier_completes {s : State} {t b : Nat}
    (hall : ∀ k ∈ (s.team t).groups, ∀ l, ((s.group k).lane l).counts = true → inSet (s.arrivals t b k) l = true)
    (hsome : ∃ k ∈ (s.team t).groups, s.arrivals t b k ≠ 0) (hacc : s.accesses = []) (hrec : (s.grid (s.team t).grid).recordMode = 0) :
    s.settleBarrier t b =
      ((s.wakeGroups (s.team t).groups (.barrier b)).onTeam t (·.nextPhase b ((s.team t).groups.map (fun k => (s.group k).gid)))).kick t := by
  have harrived : (s.teamGroups t).any (fun x => FMap.at 0 (s.team t).arrivals (b * 16 + x.2.gid) != 0) = true := by
    obtain ⟨k, hk, hne⟩ := hsome
    exact List.any_eq_true.2 ⟨(k, s.group k), List.mem_map_of_mem hk, bne_iff_ne.2 hne⟩
  have hcomplete : (s.teamGroups t).all (fun x => x.2.countSet &&& ~~~(FMap.at 0 (s.team t).arrivals (b * 16 + x.2.gid)) == 0) = true := by
    refine List.all_eq_true.2 (fun x hx => ?_)
    obtain ⟨k, hk, rfl⟩ := List.mem_map.1 hx
    refine (diff_eq_zero _ _).2 (fun l hl => ?_)
    rw [Group.inSet_countSet, Bool.and_eq_true] at hl
    exact hall k hk l hl.2
  have hreleased : (s.teamGroups t).all (fun x => s.nearDone x.1 (FMap.at 0 (s.team t).arrivals (b * 16 + x.2.gid))
      (FMap.at 0 (s.team t).arrUpto (b * 16 + x.2.gid))) = true :=
    List.all_eq_true.2 (fun x _ => by simp [State.nearDone, hacc])
  have hwake : (s.teamGroups t).foldl (fun s x => s.onGroup x.1 (·.wakeAt (.barrier b))) s = s.wakeGroups (s.team t).groups (.barrier b) := List.foldl_map ..
  have harr (m : FMap LaneSet) : (s.teamGroups t).foldl (fun m x => FMap.put m (b * 16 + x.2.gid) 0) m =
      ((s.team t).groups.map (fun k => (s.group k).gid)).foldl (fun m g => FMap.put m (b * 16 + g) 0) m := by
    rw [State.teamGroups, List.foldl_map, List.foldl_map]
  refine (if_pos ?_).trans ?_
  · dsimp only
    rw [harrived, hcomplete, hreleased, State.logStalls_off hrec]
    rfl
  · have hnext : ((s.teamGroups t).foldl (fun s x => s.onGroup x.1 (·.wakeAt (.barrier b))) s).onTeam t (fun tm => { tm with
        arrivals := (s.teamGroups t).foldl (fun m x => FMap.put m (b * 16 + x.2.gid) 0) tm.arrivals
        phases := FMap.put tm.phases b (FMap.at 0 (s.team t).phases b + 1) }) =
        (s.wakeGroups (s.team t).groups (.barrier b)).onTeam t (·.nextPhase b ((s.team t).groups.map (fun k => (s.group k).gid))) := by
      rw [hwake]
      simp only [State.onTeam, State.team_wakeGroups, harr]
      rfl
    rw [← hnext]
    refine State.logPoint_off ?_ _ _ _ _
    have hgrid : ((s.teamGroups t).foldl (fun s x => s.onGroup x.1 (·.wakeAt (.barrier b))) s).grid (s.team t).grid = s.grid (s.team t).grid := by
      rw [hwake, State.grid_wakeGroups]
    exact (congrArg Grid.recordMode hgrid).trans hrec

/-- Settles O35: the lanes at the barrier wake and the arrivals are forgotten once no lane is missing; one that is missing holds the phase back. -/
theorem barrierCompletes : Obligations.BarrierCompletes := by
  unfold Obligations.BarrierCompletes
  intro s t b tm arr
  refine ⟨fun hall hsome hacc hrec => ?_, fun ⟨k, hk, l, hl, hc, h⟩ => State.settleBarrier_waits hk hl hc h⟩
  intro u
  have hu : u = _ := State.settleBarrier_completes hall hsome hacc hrec
  have hgroup (k : Nat) : u.group k = (s.wakeGroups tm.groups (.barrier b)).group k := by rw [hu]; rfl
  have hteam : u.team t = { tm.nextPhase b (tm.groups.map (fun k => (s.group k).gid)) with wdcount := 0 } := by
    rw [hu, State.team_kick, if_pos rfl, State.team_onTeam_self, State.team_wakeGroups]
  refine ⟨fun k hk l hl => ?_, fun k hk => ?_, ?_, ?_, ?_⟩
  · rw [hgroup, State.group_wakeGroups, if_pos hk, Group.lane_wakeAt _ _ hl]
  · rw [hteam]
    exact FMap.at_foldl_put 0 (b * 16 + ·) 0 _ _ (List.mem_map_of_mem hk)
  · rw [hteam]
    exact FMap.at_put_self _ _ _ _
  · rw [hteam]
  · rw [hu]
    have hmem := congrArg State.mem (s.wakeGroups_eq tm.groups (.barrier b))
    exact hmem

end Sys2Proof.Machine
end

