-- ==== Sys2Proof/Proofs/RegionWords.lean ====
section
/-! SUPPORT. RBEGIN and REND (Regions.lean, R180, R181, R272, R273): slots found and taken, and regions that end. -/
namespace Sys2Proof.Machine

/-! ### Free slots (R272) -/

/-- The search for a free slot finds one where there is one. -/
theorem freeSlot_found (d : Die) (fuel k : Nat) (h : ∃ n, k ≤ n ∧ n < k + fuel ∧ (FMap.at ({} : Slot) d.slots n).phase = 0) :
    ∃ n, n < k + fuel ∧ (FMap.at ({} : Slot) d.slots n).phase = 0 ∧ freeSlot d fuel k = some n := by
  induction fuel generalizing k with
  | zero => obtain ⟨n, hk, hn, -⟩ := h; omega
  | succ fuel ih =>
    by_cases hfree : (FMap.at ({} : Slot) d.slots k).phase = 0
    · exact ⟨k, by omega, hfree, if_pos hfree⟩
    · obtain ⟨n, hk, hn, hp⟩ := h
      have hne : n ≠ k := fun e => hfree (e ▸ hp)
      obtain ⟨m, hm, hpm, hs⟩ := ih (k + 1) ⟨n, by omega, by omega, hp⟩
      exact ⟨m, by omega, hpm, (if_neg hfree).trans hs⟩

/-- The free slots of a die. -/
def State.freeSlots (s : State) (die : Nat) : List Nat := (List.range 4096).filter (fun n => (s.slot (die * 4096 + n)).phase == 0)

theorem State.slot_of_die (s : State) (die : Nat) {n : Nat} (h : n < 4096) : s.slot (die * 4096 + n) = FMap.at {} (s.die die).slots n := by
  have hd : (die * 4096 + n) / 4096 = die := by omega
  have hn : (die * 4096 + n) % 4096 = n := by omega
  rw [State.slot, hd, hn]

theorem State.mem_freeSlots (s : State) (die n : Nat) : n ∈ s.freeSlots die ↔ n < 4096 ∧ (s.slot (die * 4096 + n)).phase = 0 := by
  rw [State.freeSlots, List.mem_filter, List.mem_range, beq_iff_eq]

/-- A slot that is taken is one free slot less. -/
theorem State.freeSlots_taken {s t : State} {die n : Nat} (hn : n ∈ s.freeSlots die) (htaken : (t.slot (die * 4096 + n)).phase ≠ 0)
    (hother : ∀ m, m ≠ n → t.slot (die * 4096 + m) = s.slot (die * 4096 + m)) : (t.freeSlots die).length + 1 = (s.freeSlots die).length := by
  have hnodup : (s.freeSlots die).Nodup := List.Nodup.filter _ List.nodup_range
  have he : t.freeSlots die = (s.freeSlots die).erase n := by
    rw [hnodup.erase_eq_filter, State.freeSlots, State.freeSlots, List.filter_filter]
    refine List.filter_congr (fun m _ => ?_)
    by_cases hm : m = n
    · subst hm; simpa using htaken
    · simp [hm, hother m hm]
  have hpos := List.length_pos_of_mem hn
  rw [he, List.length_erase_of_mem hn]
  omega

/-! ### A region opens (R180) -/

/-- What the slot of a region that a lane of the issuing group opens holds. -/
def State.slotOpens (s : State) (l : Nat) (sl : Slot) : Prop :=
  sl.phase = 1 ∧ sl.group = s.cur ∧ sl.lane = l ∧ sl.restart = s.me.run.hdr ∧ sl.preds = [] ∧ sl.reads = [] ∧ sl.writes = [] ∧ sl.bytes = [] ∧
  sl.level = s.myTeam.levels.length ∧ sl.check =
    { regs := (s.me.lane l).regs, empty := (s.me.lane l).empty, preds := (s.me.lane l).preds, fpflags := (s.me.lane l).fpflags }

/-- The slot of a region that a lane of a group opens, what the slot held before being `sl`. -/
def State.newSlot (s : State) (k l : Nat) (hdr : Word) (sl : Slot) : Slot :=
  let n := (s.group k).lane l
  { phase := 1, born := s.fresh, aborts := sl.aborts, ldepth := (s.group k).loops.length, group := k, lane := l, restart := hdr
    check := { regs := n.regs, empty := n.empty, preds := n.preds, fpflags := n.fpflags }, level := (s.team (s.group k).team).rlevel, since := s.tick }

section
variable (s : State) (k l id : Nat) (hdr : Word)

theorem State.dies_openRegion : (s.openRegion k l id hdr false).dies = (s.onSlot id (s.newSlot k l hdr)).dies := rfl

theorem State.die_openRegion (d : Nat) : (s.openRegion k l id hdr false).die d = (s.onSlot id (s.newSlot k l hdr)).die d :=
  congrArg (FMap.at ({} : Die) · d) (s.dies_openRegion k l id hdr)

theorem State.slot_openRegion (j : Nat) :
    (s.openRegion k l id hdr false).slot j = if j = id then s.newSlot k l hdr (s.slot id) else s.slot j :=
  (congrArg (fun d : Die => FMap.at ({} : Slot) d.slots (j % 4096)) (s.die_openRegion k l id hdr (j / 4096))).trans
    (State.slot_onSlot _ _ _ _)

theorem State.waiters_openRegion (d : Nat) : ((s.openRegion k l id hdr false).die d).waiters = (s.die d).waiters := by
  rw [State.die_openRegion, State.onSlot, State.die_onDie]
  split_ifs with hd
  · rw [hd]
  · rfl

theorem State.openRegion_world :
    { s.openRegion k l id hdr false with groups := s.groups, dies := s.dies, fresh := s.fresh } = s := rfl

end

theorem State.group_openRegion (s : State) (k l id : Nat) (hdr : Word) (j : Nat) : (s.openRegion k l id hdr false).group j =
    if j = k then (s.group k).onLane l (fun n => { n with region := some id, reserved := none, aborting := false }) else s.group j :=
  State.group_onGroup _ _ _ _

/-- A lane with no slot kept for it, and none waiting before it, takes a free slot (R180, R272). -/
theorem State.beginLane_opens {s : State} {k l die : Nat} (hdr : Word) (hres : ((s.group k).lane l).reserved = none)
    (hdie : dieOf (s.group k).cluster = die) (hw : (s.die die).waiters = []) (hfree : s.freeSlots die ≠ []) :
    ∃ n, n ∈ s.freeSlots die ∧ s.beginLane k l hdr = s.openRegion k l (die * 4096 + n) hdr false := by
  obtain ⟨m, hm⟩ := List.exists_mem_of_ne_nil _ hfree
  obtain ⟨hm, hp⟩ := (s.mem_freeSlots die m).1 hm
  rw [s.slot_of_die die hm] at hp
  obtain ⟨n, hn, hpn, hs⟩ := freeSlot_found (s.die die) 4096 0 ⟨m, m.zero_le, by omega, hp⟩
  rw [Nat.zero_add] at hn
  refine ⟨n, (s.mem_freeSlots die n).2 ⟨hn, by rwa [s.slot_of_die die hn]⟩, ?_⟩
  unfold State.beginLane
  simp only [hres, hdie, hw, hs, List.isEmpty_nil, if_true]

/-- RBEGIN has opened the regions of lanes `done` of the issuing group: `u` is the state since, `die` where their slots are. -/
structure State.Begun (s : State) (die : Nat) (done : List Nat) (u : State) : Prop where
  world : { u with groups := s.groups, dies := s.dies, fresh := s.fresh } = s
  others : ∀ k, k ≠ s.cur → u.group k = s.group k
  rest : { u.me with lanes := s.me.lanes } = s.me
  waiters : (u.die die).waiters = []
  free : ∀ n, n ∈ u.freeSlots die → n ∈ s.freeSlots die
  room : 64 ≤ (u.freeSlots die).length + done.length
  waiting : ∀ l, l ∉ done → u.me.lane l = s.me.lane l
  begun : ∀ l ∈ done, ∃ n, n ∈ s.freeSlots die ∧ u.me.lane l = { s.me.lane l with region := some (die * 4096 + n), aborting := false } ∧
    s.slotOpens l (u.slot (die * 4096 + n))

theorem State.Begun.next {s u : State} {die l : Nat} {done : List Nat} (h : s.Begun die done u) (hdie : dieOf s.me.cluster = die)
    (hl : l ∉ done) (hlen : done.length < 64) (hres : (s.me.lane l).reserved = none) :
    s.Begun die (l :: done) (u.beginLane u.cur l s.me.run.hdr) := by
  obtain ⟨hw, ho, hr, hwait, hf, hroom, hlanes, hbegun⟩ := h
  have hcur : u.cur = s.cur := by have e := congrArg State.cur hw; exact e
  have hteams : u.teams = s.teams := by have e := congrArg State.teams hw; exact e
  have hlane : u.me.lane l = s.me.lane l := hlanes l hl
  have hcl : u.me.cluster = s.me.cluster := by have e := congrArg Group.cluster hr; exact e
  have hteam : u.me.team = s.me.team := by have e := congrArg Group.team hr; exact e
  obtain ⟨n, hn, he⟩ := State.beginLane_opens (s := u) (k := u.cur) (l := l) s.me.run.hdr (hlane ▸ hres) (hcl ▸ hdie) hwait
    (fun h0 => by rw [h0, List.length_nil] at hroom; omega)
  have hslots (m : Nat) (hm : m ≠ n) : (u.openRegion u.cur l (die * 4096 + n) s.me.run.hdr false).slot (die * 4096 + m) = u.slot (die * 4096 + m) := by
    rw [State.slot_openRegion, if_neg (by omega)]
  have hslot : (u.openRegion u.cur l (die * 4096 + n) s.me.run.hdr false).slot (die * 4096 + n) =
      u.newSlot u.cur l s.me.run.hdr (u.slot (die * 4096 + n)) := by rw [State.slot_openRegion, if_pos rfl]
  have hme : (u.openRegion u.cur l (die * 4096 + n) s.me.run.hdr false).me =
      u.me.onLane l (fun n' => { n' with region := some (die * 4096 + n), reserved := none, aborting := false }) :=
    (State.group_openRegion _ _ _ _ _ _).trans (if_pos rfl)
  rw [he]
  refine ⟨?_, fun k hk => ?_, ?_, ?_, fun m hm => ?_, ?_, fun k hk => ?_, fun k hk => ?_⟩
  · exact (congrArg (fun x : State => { x with groups := s.groups, dies := s.dies, fresh := s.fresh })
      (u.openRegion_world u.cur l (die * 4096 + n) s.me.run.hdr)).trans hw
  · rw [State.group_openRegion, if_neg (hcur ▸ hk), ho k hk]
  · rw [hme]; exact hr
  · rw [State.waiters_openRegion, hwait]
  · obtain ⟨hlt, hp⟩ := (State.mem_freeSlots _ _ _).1 hm
    by_cases hmn : m = n
    · exact hf m (hmn ▸ hn)
    · exact hf m ((State.mem_freeSlots _ _ _).2 ⟨hlt, hslots m hmn ▸ hp⟩)
  · have htaken := State.freeSlots_taken hn (by rw [hslot]; exact Nat.one_ne_zero) hslots
    rw [List.length_cons]
    omega
  · rw [List.mem_cons, not_or] at hk
    rw [hme, Group.lane_onLane, if_neg hk.1, hlanes k hk.2]
  · rcases List.mem_cons.1 hk with rfl | hk
    · refine ⟨n, hf n hn, ?_, ?_⟩
      · rw [hme, Group.lane_onLane, if_pos rfl, hlane]
        exact congrArg (fun r => ({ s.me.lane k with region := some (die * 4096 + n), reserved := r, aborting := false } : Lane)) hres.symm
      · rw [hslot]
        refine ⟨rfl, hcur, rfl, rfl, rfl, rfl, rfl, rfl, ?_, ?_⟩
        · exact (congrArg (fun tm : Team => tm.levels.length) (congrArg₂ (FMap.at ({} : Team)) hteams hteam))
        · exact congrArg (fun n : Lane => ({ regs := n.regs, empty := n.empty, preds := n.preds, fpflags := n.fpflags } : Checkpoint)) hlane
    · obtain ⟨m, hm, hlm, hsm⟩ := hbegun k hk
      have hmn : m ≠ n := by
        rintro rfl
        have hp := ((State.mem_freeSlots _ _ _).1 hn).2
        rw [hsm.1] at hp
        exact absurd hp Nat.one_ne_zero
      refine ⟨m, hm, ?_, ?_⟩
      · rw [hme, Group.lane_onLane, if_neg (fun e : k = l => hl (e ▸ hk)), hlm]
      · rw [hslots m hmn]; exact hsm

/-- RBEGIN opens the region of each lane of a list in turn. -/
theorem State.Begun.fold {s u : State} {die : Nat} {done : List Nat} (ls : List Nat) (h : s.Begun die done u) (hdie : dieOf s.me.cluster = die)
    (hn : ls.Nodup) (hout : ∀ l ∈ ls, l ∉ done) (hlen : done.length + ls.length ≤ 64) (hres : ∀ l ∈ ls, (s.me.lane l).reserved = none) :
    ∃ done', (∀ l, l ∈ done' ↔ l ∈ ls ∨ l ∈ done) ∧ s.Begun die done' (ls.foldl (fun s' l => s'.beginLane s'.cur l s.me.run.hdr) u) := by
  induction ls generalizing u done with
  | nil => exact ⟨done, fun l => by simp, h⟩
  | cons l ls ih =>
    obtain ⟨hl, hls⟩ := List.nodup_cons.1 hn
    rw [List.length_cons] at hlen
    obtain ⟨done', hmem, hdone⟩ := ih (h.next hdie (hout l List.mem_cons_self) (by omega) (hres l List.mem_cons_self)) hls
      (fun k hk hin => (List.mem_cons.1 hin).elim (fun e => hl (e ▸ hk)) (hout k (List.mem_cons_of_mem _ hk)))
      (by rw [List.length_cons]; omega) (fun k hk => hres k (List.mem_cons_of_mem _ hk))
    refine ⟨done', fun k => ?_, hdone⟩
    rw [hmem, List.mem_cons, List.mem_cons]
    tauto

theorem State.Begun.start {s : State} {die : Nat} (hw : (s.die die).waiters = []) (hroom : 64 ≤ (s.freeSlots die).length) : s.Begun die [] s :=
  ⟨rfl, fun _ _ => rfl, rfl, hw, fun _ h => h, hroom.trans (Nat.le_add_right _ _), fun _ _ => rfl, fun l hl => absurd hl (by simp)⟩

/-- The run of a group whose active lanes are all live goes on with them (R180). -/
def Group.keepLive (g : Group) : Group :=
  let act := setOf (fun l => inSet g.run.act l && (g.lane l).isLive)
  { g with run := { g.run with act := act, quit := g.run.quit || decide (act = 0) } }

theorem Group.keepLive_self {g : Group} (h : ∀ l, inSet g.run.act l = true → (g.lane l).cond = .live) (hne : g.run.act ≠ 0) : g.keepLive = g := by
  have hact : setOf (fun l => inSet g.run.act l && (g.lane l).isLive) = g.run.act := by
    rw [← setOf_inSet g.run.act]
    refine setOf_congr (fun l _ => ?_)
    rw [setOf_inSet]
    cases hl : inSet g.run.act l with
    | false => rfl
    | true => simp [Lane.isLive, h l hl]
  unfold Group.keepLive
  simp only [hact, hne, decide_false, Bool.or_false]

/-- RBEGIN with its active lanes live, in no region, and slots for all of them. -/
theorem execRbegin_go (s : State) (die : Nat) (h : ∀ l, inSet s.me.run.act l = true →
      (s.me.lane l).cond = .live ∧ (s.me.lane l).region = none ∧ (s.me.lane l).reserved = none) (hne : s.me.run.act ≠ 0)
    (hdie : dieOf s.me.cluster = die) (hw : (s.die die).waiters = []) (hroom : 64 ≤ (s.freeSlots die).length) :
    ∃ u done, (∀ l, l ∈ done ↔ inSet s.me.run.act l = true) ∧ s.Begun die done u ∧ execRbegin s = .next ((u.onMe Group.keepLive).advance 1 1) ∧
      u.me.keepLive = u.me := by
  have hnodup : (lanesIn s.me.run.act).Nodup := List.Nodup.filter _ List.nodup_range
  have hlen : (lanesIn s.me.run.act).length ≤ 64 := (List.length_filter_le _ _).trans_eq List.length_range
  obtain ⟨done, hmem, hbegun⟩ := (State.Begun.start hw hroom).fold (lanesIn s.me.run.act) hdie hnodup (fun _ _ => List.not_mem_nil)
    (by rw [List.length_nil, Nat.zero_add]; exact hlen) (fun l hl => (h l ((mem_lanesIn _ _).1 hl)).2.2)
  have hdone (l : Nat) : l ∈ done ↔ inSet s.me.run.act l = true := by rw [hmem, mem_lanesIn]; simp
  have hrun := congrArg Group.run hbegun.rest
  refine ⟨_, done, hdone, hbegun, ?_, Group.keepLive_self (fun l hl => ?_) ?_⟩
  · have hreg : s.me.regionSet s.me.run.act = 0 := Group.regionSet_eq_zero (fun l hl => (h l hl).2.1)
    exact congrArg Host.Outcome.next (if_neg (by simp [hreg]))
  · rw [hrun] at hl
    obtain ⟨n, -, hlane, -⟩ := hbegun.begun l ((hdone l).2 hl)
    rw [hlane]
    exact (h l hl).1
  · rw [hrun]
    exact hne

/-! ### Regions that end (R181) -/

/-- The regions of some lanes of a group are ending. -/
def State.endRegions (s : State) (g : Group) (ls : List Nat) : State :=
  ls.foldl (fun s l => match (g.lane l).region with
    | some id => s.onSlot id (fun sl => { sl with phase := 2 })
    | none => s) s

theorem State.endRegions_eq (s : State) (g : Group) (ls : List Nat) : s.endRegions g ls = { s with dies := (s.endRegions g ls).dies } := by
  induction ls generalizing s with
  | nil => rfl
  | cons l ls ih =>
    have hstep (w : State) (hw : s.endRegions g (l :: ls) = w.endRegions g ls) (hd : w = { s with dies := w.dies }) :
        s.endRegions g (l :: ls) = { s with dies := (s.endRegions g (l :: ls)).dies } := by
      rw [hw]
      exact (ih w).trans (congrArg (fun x : State => { x with dies := (w.endRegions g ls).dies }) hd)
    cases hr : (g.lane l).region with
    | none => exact hstep s (by simp only [State.endRegions, List.foldl_cons, hr]) rfl
    | some id => exact hstep (s.onSlot id (fun sl => { sl with phase := 2 })) (by simp only [State.endRegions, List.foldl_cons, hr]) rfl

theorem State.slot_endRegions (s : State) (g : Group) (ls : List Nat) (j : Nat) : (s.endRegions g ls).slot j =
    if ls.any (fun l => (g.lane l).region == some j) then { s.slot j with phase := 2 } else s.slot j := by
  induction ls generalizing s with
  | nil => rfl
  | cons l ls ih =>
    cases hr : (g.lane l).region with
    | none =>
      have hstep : s.endRegions g (l :: ls) = s.endRegions g ls := by simp only [State.endRegions, List.foldl_cons, hr]
      rw [hstep, ih]
      simp [hr]
    | some id =>
      have hstep : s.endRegions g (l :: ls) = (s.onSlot id (fun sl => { sl with phase := 2 })).endRegions g ls := by
        simp only [State.endRegions, List.foldl_cons, hr]
      rw [hstep, ih, State.slot_onSlot]
      by_cases hj : j = id
      · subst hj
        simp [hr]
      · simp [hr, hj, Ne.symm hj]

/-- The lanes of the issuing group whose regions end at REND: those that are not to abort. -/
def State.endingSet (s : State) : LaneSet := setOf (fun l => inSet s.me.run.act l && !(s.me.lane l).aborting)

/-- The issuing group at REND: its lanes park with REASON 4, and its run ends. -/
def Group.parkEnding (m : LaneSet) (g : Group) : Group :=
  (g.mapLanes m (fun _ n => { n with cond := .parked .regionWait, place := .regionEnd })).endRun

theorem execRend_go (s : State) (h : ∀ l, inSet s.me.run.act l = true → (s.me.lane l).region.isSome = true) :
    execRend s = .next (((s.endRegions s.me (lanesIn s.endingSet)).onMe (Group.parkEnding s.endingSet)).advance 1 1) := by
  have hall : s.me.run.act &&& ~~~(s.me.regionSet s.me.run.act) = 0 := by
    rw [← beq_iff_eq, diff_eq_zero]
    intro l hl
    rw [Group.regionSet, inSet_setOf, hl, h l hl, decide_eq_true (inSet_lt hl)]
    rfl
  exact congrArg Host.Outcome.next (if_neg (by simp [hall]))

theorem execRend_outside (s : State) (h : ∃ l, inSet s.me.run.act l = true ∧ (s.me.lane l).region = none) :
    execRend s = .next (s.trapHere 0x50 2) := by
  obtain ⟨l, hl, hr⟩ := h
  refine congrArg Host.Outcome.next (if_pos ?_)
  rw [bne_iff_ne]
  intro hz
  have hin := (diff_eq_zero _ _).1 (beq_iff_eq.2 hz) l hl
  rw [Group.regionSet, inSet_setOf, hr] at hin
  simp at hin

/-- What RBEGIN leaves once its run goes on with lanes that are all live. -/
theorem State.Begun.advanced {s u : State} {die : Nat} {done : List Nat} (h : s.Begun die done u) (hlive : u.me.keepLive = u.me) :
    { (u.onMe Group.keepLive).advance 1 1 with time := s.time, clusters := s.clusters, groups := s.groups, dies := s.dies, fresh := s.fresh } = s ∧
    OwnSlice s ((u.onMe Group.keepLive).advance 1 1) ∧
    ((u.onMe Group.keepLive).advance 1 1).me = { u.me with run := u.me.run.after 1 } := by
  obtain ⟨hworld, hothers, hrest, -, -, -, -, -⟩ := h
  have hcur : u.cur = s.cur := by have e := congrArg State.cur hworld; exact e
  have hclusters : u.clusters = s.clusters := by have e := congrArg State.clusters hworld; exact e
  have hme : (u.onMe Group.keepLive).me = u.me := (State.me_onMe u _).trans hlive
  refine ⟨congrArg (fun x : State => { x with time := s.time, clusters := s.clusters }) hworld, ?_, ?_⟩
  · refine State.advance_slice 1 1 (fun k hk => ?_) hcur hclusters ?_ ?_
    · rw [State.group_onMe, if_neg (hcur.symm ▸ hk), hothers k hk]
    · rw [hme]; have e := congrArg Group.cluster hrest; exact e
    · rw [hme]; have e := congrArg Group.slice hrest; exact e
  · rw [State.me_advance, hme]
    rfl

/-- What REND leaves. -/
theorem State.endRegions_moved (s : State) (m : LaneSet) (ls : List Nat) :
    Moved { s.me with run := { s.me.run.after 1 with ends := true } }
      (fun l => if inSet m l then { s.me.lane l with cond := .parked .regionWait, place := .regionEnd } else s.me.lane l)
      { s with dies := (s.endRegions s.me ls).dies } (((s.endRegions s.me ls).onMe (Group.parkEnding m)).advance 1 1) := by
  rw [State.endRegions_eq]
  refine Moved.of_onMe rfl rfl rfl (fun l hl => ?_)
  exact s.me.lane_mapLanes m (fun _ n => { n with cond := .parked .regionWait, place := .regionEnd }) hl

theorem State.any_endingSet (s : State) (id : Nat) : (lanesIn s.endingSet).any (fun l => (s.me.lane l).region == some id) =
    (List.range 64).any (fun l => inSet s.me.run.act l && !(s.me.lane l).aborting && (s.me.lane l).region == some id) := by
  rw [Bool.eq_iff_iff, List.any_eq_true, List.any_eq_true]
  refine exists_congr (fun l => ?_)
  rw [mem_lanesIn, State.endingSet, inSet_setOf, List.mem_range]
  simp only [Bool.and_eq_true, decide_eq_true_eq]
  tauto

/-- Settles O36: RBEGIN takes a free slot for each lane in turn, REND marks the slots of the lanes that are not to abort. -/
theorem regionWords : Obligations.RegionWords := by
  unfold Obligations.RegionWords
  refine ⟨fun s => ?_, fun s => ⟨fun h => ?_, fun h => (exec_rend s).trans (execRend_outside s h)⟩, fun s sd sel h => ?_⟩
  · intro die
    refine ⟨fun h hne hcl hw hroom => ?_, fun h => ?_⟩
    · obtain ⟨u, done, hdone, hbegun, he, hlive⟩ := execRbegin_go s die h hne (dieOf_eq hcl) hw hroom
      obtain ⟨hworld, hslice, hme⟩ := hbegun.advanced hlive
      refine ⟨_, (exec_rbegin s).trans he, hworld, hslice, ?_, fun l _ hl => ?_, fun l hl => ?_⟩
      · rw [hme]
        exact congrArg (fun g : Group => { g with run := g.run.after 1 }) hbegun.rest
      · rw [hme]
        exact hbegun.waiting l (fun hin => by rw [(hdone l).1 hin] at hl; exact Bool.noConfusion hl)
      · obtain ⟨n, hn, hlane, hslot⟩ := hbegun.begun l ((hdone l).2 hl)
        obtain ⟨hlt, hp⟩ := (s.mem_freeSlots die n).1 hn
        exact ⟨n, hlt, hp, by rw [hme]; exact hlane, hslot⟩
    · exact (exec_rbegin s).trans (congrArg Host.Outcome.next (if_pos (bne_iff_ne.2 (Group.regionSet_ne_zero h))))
  · obtain ⟨-, ⟨hc, hs, hg, hcur⟩, hgroup, hlanes⟩ := s.endRegions_moved s.endingSet (lanesIn s.endingSet)
    refine ⟨_, (exec_rend s).trans (execRend_go s h), ?_, ⟨hc, hs, hg, hcur⟩, hgroup, fun l hl => ?_, fun id => ?_⟩
    · rw [State.endRegions_eq]
      rfl
    · rw [hlanes l hl, State.endingSet, inSet_setOf, decide_eq_true hl, Bool.true_and]
      simp only [Bool.and_eq_true, Bool.not_eq_true']
    · rw [← s.any_endingSet, ← s.slot_endRegions]
      rfl
  · exact (exec_rstat sd sel s).symm ▸ State.scalarWord_go s (srcs := []) h 1 sd.toNat _

end Sys2Proof.Machine
end

