-- ==== Sys2Proof/Proofs/RecoveryWords.lean ====
section
/-! SUPPORT. The recovery words where they issue (Recovery.lean, R184, R301): arrivals, their gate, and the rollback that REJECT begins. -/
namespace Sys2Proof.Machine

/-! ### Words after which the run is stopped -/

/-- A word that changes the teams, issues, and then changes the lanes of the issuing group and its run. -/
theorem Moved.of_advanced {s w : State} {f : Group → Group} {g : Group} {lane : Nat → Lane} (hworld : SameWorld s w) (hcur : w.cur = s.cur)
    (hcl : w.clusters = s.clusters) (hgroups : w.groups = s.groups)
    (hg : { f { s.me with run := s.me.run.after 1 } with lanes := s.me.lanes } = { g with lanes := s.me.lanes })
    (hl : ∀ l, l < 64 → (f { s.me with run := s.me.run.after 1 }).lane l = lane l) : Moved g lane s ((w.advance 1 1).onMe f) := by
  have hgroup (k : Nat) : w.group k = s.group k := congrArg (FMap.at ({} : Group) · k) hgroups
  have hwme : w.me = s.me := (hgroup w.cur).trans (congrArg s.group hcur)
  have hme : ((w.advance 1 1).onMe f).me = f { s.me with run := s.me.run.after 1 } := by
    rw [State.me_onMe, State.me_advance, hwme]
    rfl
  obtain ⟨hc, hs, ho, hcur'⟩ : OwnSlice s (w.advance 1 1) := State.advance_slice 1 1 (fun k _ => hgroup k) hcur hcl (by rw [hwme]) (by rw [hwme])
  refine ⟨State.advance_world 1 1 hworld, ⟨hc, hs, fun k hk => ?_, hcur'⟩, ?_, fun l h => ?_⟩
  · rw [State.group_onMe, if_neg (by rw [hcur']; exact hk), ho k hk]
  · rw [hme]; exact hg
  · rw [hme]; exact hl l h

/-! ### Arrivals (R184) -/

/-- The arrival of the issuing word in its team, with those of its active lanes that have arrived before. -/
def State.arrivalOf (s : State) (addr : DWord) (code : Nat) (pass : Bool) : List RecArrival :=
  let r := s.me.run
  let here (a : RecArrival) : Bool := a.hdr == r.hdr && a.word == r.idx && a.op == r.eop
  s.myTeam.recArrivals.filter (fun a => !here a) ++ [match s.myTeam.recArrivals.find? here with
    | some a => { a with lanes := FMap.put a.lanes s.me.gid (FMap.at 0 a.lanes s.me.gid ||| r.act), pass := a.pass && pass }
    | none => { op := r.eop, addr := addr, code := code, hdr := r.hdr, word := r.idx, lanes := [(s.me.gid, r.act)], pass := pass }]

section
variable (s : State) (addr : DWord) (code : Nat) (pass : Bool)

theorem State.arriveRec_moved : Moved { s.me with run := { s.me.run.after 1 with stopped := true } }
    (fun l => if inSet s.me.run.act l then { s.me.lane l with cond := .parked .convergence, place := .recovery s.me.run.eop } else s.me.lane l) s
    (s.arriveRec addr code pass) :=
  Moved.of_advanced (w := s.onTeam s.me.team (fun t => { t with recArrivals := s.arrivalOf addr code pass })) rfl rfl rfl rfl rfl
    (fun _ h => Group.lane_mapLanes _ _ (fun _ n => { n with cond := .parked .convergence, place := .recovery s.me.run.eop }) h)

theorem State.team_arriveRec (k : Nat) : (s.arriveRec addr code pass).team k =
    if k = s.me.team then { s.myTeam with recArrivals := s.arrivalOf addr code pass } else s.team k :=
  State.team_onTeam s s.me.team k (fun t => { t with recArrivals := s.arrivalOf addr code pass })

end

/-! ### The gate of a word of a level (R183, R184) -/

section
variable {s k : State} (h : ∀ l, inSet s.me.run.act l = true → (s.me.lane l).region = none)
include h

theorem State.levelGate_go (hl : s.myTeam.levels ≠ []) : s.levelGate k = k := by
  rw [State.levelGate, State.eGate_go h (.inl rfl), if_neg]
  rw [Team.rlevel]
  exact fun h0 => hl (List.length_eq_zero_iff.1 h0)

theorem State.levelGate_none (hl : s.myTeam.levels = []) : s.levelGate k = s.trapHere 0x60 1 := by
  rw [State.levelGate, State.eGate_go h (.inl rfl), if_pos]
  rw [Team.rlevel, hl]
  rfl

end

/-! ### A rollback begins (R301) -/

/-- A team whose innermost level stands in no conversation's is its own party. -/
theorem State.parties_alone {s : State} {t : Nat} {below : List Level} {lv : Level} (hl : (s.team t).levels = below ++ [lv]) (hc : lv.conv = 0) :
    s.parties t = [t] := by
  rw [State.parties, hl, List.getLast?_append_cons]
  simp [hc]

/-- A team the rollback of whose innermost level begins. -/
def Team.rollingBack (t : Team) (below : List Level) (lv : Level) (level last detail : Nat) : Team :=
  { t with rollback := some { level := level, last := last }, recArrivals := [], levels := below ++ [{ lv with phase := 3, fdetail := detail }] }

theorem State.beginRollback_alone {s : State} {t : Nat} {below : List Level} {lv : Level} (hl : (s.team t).levels = below ++ [lv]) (hc : lv.conv = 0)
    (hr : (s.team t).rollback = none) (level last detail : Nat) :
    s.beginRollback t level last detail = s.setTeam t ((s.team t).rollingBack below lv level last detail) := by
  rw [State.beginRollback, State.parties_alone hl hc, List.foldl_cons, List.foldl_nil, State.onTeam]
  simp only [hr, hl, List.getLast?_append, List.getLast?_singleton, List.dropLast_concat]
  rfl

/-- The state in which a word has issued and its run has stopped. -/
def State.stopped (s : State) : State := (s.advance 1 1).onMe (fun g => { g with run := { g.run with stopped := true } })

theorem State.stopped_moved (s : State) : Moved { s.me with run := { s.me.run.after 1 with stopped := true } } s.sameLanes s s.stopped :=
  Moved.of_advanced (w := s) rfl rfl rfl rfl rfl (fun _ _ => rfl)

theorem execEnsure_ready {s : State} {p : BitVec 5} (hr : s.ready [80 + p.toNat, 80 + p.toNat + 1] [])
    (h : ∀ l, inSet s.me.run.act l = true → (s.me.lane l).region = none) : execEnsure p s =
      .next (if 6 ≤ s.myTeam.rlevel then s.trapHere 0x60 0 else (s.arriveRec (s.me.sPair p.toNat) 0 true).settleRecovery s.me.team) :=
  congrArg Host.Outcome.next (State.eGate_ready hr (fun hf => by cases hf) h (.inl rfl))

theorem lanesIn_all (m : LaneSet) (p : Nat → Bool) : (lanesIn m).all p = (List.range 64).all (fun l => !inSet m l || p l) := by
  rw [lanesIn, List.all_filter]

/-- Settles O37: outside regions the words of R184 arrive, and REJECT begins the rollback of the one level of its team. -/
theorem recoveryWords : Obligations.RecoveryWords := by
  unfold Obligations.RecoveryWords
  refine ⟨fun s p code h => ?_, fun s below lv h hl hc hr => ?_⟩
  · intro r old op here arrives
    have harrives {i : Instr} {addr : DWord} {code : Nat} {pass : Bool} {passed : State → Nat}
        (hi : exec i s = .next ((s.arriveRec addr code pass).settleRecovery s.me.team (passed (s.arriveRec addr code pass)))) :
        arrives i addr code pass passed :=
      ⟨_, hi, s.arriveRec addr code pass, rfl, s.arriveRec_moved addr code pass, fun k hk => by rw [State.team_arriveRec, if_neg hk],
        by rw [State.team_arriveRec, if_pos rfl]; rfl⟩
    refine ⟨fun hr => ⟨fun hl => harrives ((exec_ensure p s).trans ((execEnsure_ready hr h).trans (congrArg Host.Outcome.next (if_neg (not_le.2 hl))))),
        fun hl => (exec_ensure p s).trans ((execEnsure_ready hr h).trans (congrArg Host.Outcome.next (if_pos hl)))⟩, fun hl => ⟨?_, ?_, ?_⟩, fun hl => ?_⟩
    · exact harrives ((exec_elseby s).trans (congrArg Host.Outcome.next (State.levelGate_go h hl)))
    · exact harrives ((exec_elseerr code s).trans (congrArg Host.Outcome.next (State.levelGate_go h hl)))
    · rw [← lanesIn_all]
      exact harrives ((exec_accept p s).trans (congrArg Host.Outcome.next (State.levelGate_go h hl)))
    · rw [exec_elseby, exec_elseerr, exec_accept, exec_reject]
      unfold execElseby execElseerr execAccept execReject
      simp only [State.levelGate_none h hl, and_self]
  · obtain ⟨-, ⟨hcl, hs, hg, hcur⟩, hgroup, hlanes⟩ := s.stopped_moved
    have hteam (k : Nat) : s.stopped.team k = s.team k := rfl
    have hgate : exec .reject s = .next (s.stopped.beginRollback s.me.team s.myTeam.rlevel 0x67) :=
      (exec_reject s).trans (congrArg Host.Outcome.next (State.levelGate_go h (by rw [hl]; simp)))
    rw [State.beginRollback_alone (s := s.stopped) (t := s.me.team) hl hc hr] at hgate
    refine ⟨_, hgate, ⟨rfl, ⟨hcl, hs, hg, hcur⟩, hgroup, hlanes⟩, fun k => ?_⟩
    rw [State.team_setTeam]
    split_ifs with hk
    · rw [hk, Team.rlevel, hl, List.length_append]
      rfl
    · rfl

end Sys2Proof.Machine
end

