-- ==== Sys2Proof/Proofs/LevelsOpenAndPass.lean ====
section
/-! SUPPORT. A recovery level opens and passes (Recovery.lean, R184, R294, R299): where its lanes go, and what the level below keeps of what it logged. -/
namespace Sys2Proof.Machine

/-! ### A team sent to an address -/

/-- A group whose live and parked lanes are sent to an address, with nothing left to wait for. -/
def Group.sent (g : Group) (a : Word) : Group :=
  { g.mapLanes g.countSet (fun _ n => { n with cond := .live, place := .none, vpc := a }) with gatherings := [], resumes := [], issue := .ready }

theorem Group.lane_sent (g : Group) (a : Word) {l : Nat} (h : l < 64) :
    (g.sent a).lane l = if (g.lane l).counts then { g.lane l with cond := .live, place := .none, vpc := a } else g.lane l := by
  refine (g.lane_mapLanes g.countSet (fun _ n => { n with cond := .live, place := .none, vpc := a }) h).trans ?_
  rw [Group.inSet_countSet, decide_eq_true h, Bool.true_and]

/-- Groups put in place of what they were, by a function of their numbers. -/
def State.putGroups (s : State) (F : Nat → Group) (ks : List Nat) : State := ks.foldl (fun s k => s.onGroup k (fun _ => F k)) s

theorem State.putGroups_eq (s : State) (F : Nat → Group) (ks : List Nat) : s.putGroups F ks = { s with groups := (s.putGroups F ks).groups } := by
  induction ks generalizing s with
  | nil => rfl
  | cons k ks ih => exact (ih (s.onGroup k (fun _ => F k))).trans rfl

theorem State.group_putGroups (s : State) (F : Nat → Group) (ks : List Nat) (j : Nat) :
    (s.putGroups F ks).group j = if j ∈ ks then F j else s.group j := by
  induction ks generalizing s with
  | nil => rfl
  | cons k ks ih =>
    refine (ih (s.onGroup k (fun _ => F k))).trans ?_
    rw [State.group_onGroup]
    by_cases hk : j = k
    · subst hk; simp
    · simp [hk]

section
variable (s : State) (t : Nat) (a : Word)

theorem State.sendTeam_groups : s.sendTeam t a = (s.dropWaiters (s.team t).groups).putGroups (fun k => (s.group k).sent a) (s.team t).groups := by
  rw [State.sendTeam, State.teamGroups, List.foldl_map]
  rfl

/-- Sending a team touches its groups, and the waiters of the dies. -/
theorem State.sendTeam_eq : s.sendTeam t a = { s with groups := (s.sendTeam t a).groups, dies := (s.sendTeam t a).dies } := by
  rw [State.sendTeam_groups, State.putGroups_eq]
  rfl

theorem State.team_sendTeam (k : Nat) : (s.sendTeam t a).team k = s.team k := by rw [State.sendTeam_eq]; rfl
theorem State.grid_sendTeam (k : Nat) : (s.sendTeam t a).grid k = s.grid k := by rw [State.sendTeam_eq]; rfl

theorem State.group_sendTeam (k : Nat) : (s.sendTeam t a).group k = if k ∈ (s.team t).groups then (s.group k).sent a else s.group k := by
  rw [State.sendTeam_groups, State.group_putGroups]
  rfl

end

/-! ### What the level below keeps (R299) -/

/-- Entries put where a map has none yet: an earlier entry stays. -/
theorem FMap.look_fill {α : Type} (l m : FMap α) (k : Nat) :
    FMap.look (l.foldl (fun m p => if FMap.has m p.1 then m else FMap.put m p.1 p.2) m) k = (FMap.look m k).or (FMap.look l k) := by
  induction l generalizing m with
  | nil => simp
  | cons p l ih =>
    obtain ⟨j, v⟩ := p
    rw [List.foldl_cons, ih]
    by_cases hk : k = j
    · subst hk
      cases hm : FMap.look m k <;> simp [FMap.has, FMap.look, hm]
    · have hput : FMap.look (if FMap.has m j then m else FMap.put m j v) k = FMap.look m k := by
        split_ifs
        · rfl
        · exact FMap.look_put_ne _ _ hk
      have hcons : FMap.look ((j, v) :: l) k = FMap.look l k := by simp [FMap.look, Ne.symm hk]
      rw [hput, hcons]

/-- Entries kept by their keys. -/
theorem FMap.look_filter {α : Type} (q : Nat → Bool) (l : FMap α) (k : Nat) :
    FMap.look (l.filter (fun p => q p.1)) k = if q k then FMap.look l k else none := by
  induction l with
  | nil => simp
  | cons p l ih =>
    obtain ⟨j, v⟩ := p
    by_cases hk : j = k
    · subst hk
      cases hq : q j with
      | true => simp [hq, FMap.look]
      | false => simp [hq, ih]
    · have hcons (l : FMap α) : FMap.look ((j, v) :: l) k = FMap.look l k := by simp [FMap.look, hk]
      rw [hcons, ← ih, List.filter_cons]
      split_ifs
      · exact hcons _
      · rfl

/-- Another party of a team's innermost level has logged a line at its level `i`. -/
def State.older (s : State) (t i ln : Nat) : Bool :=
  (s.parties t).any (fun m => m != t && match (s.team m).levels[i]? with | some x => FMap.has x.lines ln | none => false)

theorem State.older_iff (s : State) (t i ln : Nat) : s.older t i ln = true ↔
    ∃ m ∈ s.parties t, m ≠ t ∧ ∃ x, (s.team m).levels[i]? = some x ∧ FMap.has x.lines ln = true := by
  rw [State.older, List.any_eq_true]
  refine exists_congr (fun m => and_congr_right (fun _ => ?_))
  rw [Bool.and_eq_true, bne_iff_ne]
  refine and_congr_right (fun _ => ?_)
  cases (s.team m).levels[i]? with
  | none => simp
  | some x => simp

/-- The lines that a merge takes to the level below: those of the level that passes which neither the level below nor another party's has. -/
theorem State.look_mergeInto (s : State) (t ln : Nat) (lv low : Level) : FMap.look ((s.ownLines t lv).mergeInto low).lines ln =
    (FMap.look low.lines ln).or (if s.older t ((s.team t).rlevel - 2) ln then none else FMap.look lv.lines ln) := by
  have hown : FMap.look (s.ownLines t lv).lines ln = if !s.older t ((s.team t).rlevel - 2) ln then FMap.look lv.lines ln else none :=
    FMap.look_filter (fun ln => !s.older t ((s.team t).rlevel - 2) ln) lv.lines ln
  refine (FMap.look_fill (s.ownLines t lv).lines low.lines ln).trans ?_
  rw [hown]
  cases s.older t ((s.team t).rlevel - 2) ln <;> rfl

/-- The levels of a team whose innermost one has passed. -/
def State.levelsKept (s : State) (t : Nat) (below : List Level) (lv : Level) : List Level :=
  match below.reverse with
  | [] => []
  | low :: more => ((s.ownLines t lv).mergeInto low :: more).reverse

theorem State.levelsKept_length (s : State) (t : Nat) (below : List Level) (lv : Level) : (s.levelsKept t below lv).length = below.length := by
  rw [State.levelsKept, ← List.length_reverse (as := below)]
  cases below.reverse <;> simp

theorem State.levelsKept_last (s : State) (t : Nat) {below : List Level} (lv : Level) {low : Level} (h : below.getLast? = some low) :
    s.levelsKept t below lv = below.dropLast ++ [(s.ownLines t lv).mergeInto low] := by
  obtain ⟨init, rfl⟩ := List.getLast?_eq_some_iff.1 h
  simp [State.levelsKept]

/-- A team whose innermost level has passed. -/
def Team.passed (t : Team) (kept : List Level) : Team := { t with levels := kept, recArrivals := [], wdcount := 0 }

theorem State.passLevel_eq {s : State} {t : Nat} {below : List Level} {lv : Level} (hl : (s.team t).levels = below ++ [lv])
    (hrec : (s.grid (s.team t).grid).recordMode = 0) :
    s.passLevel t = (s.sendTeam t lv.cont).setTeam t ((s.team t).passed (s.levelsKept t below lv)) := by
  have hrev : (s.team t).levels.reverse = lv :: below.reverse := by rw [hl, List.reverse_concat]
  have hset : (s.sendTeam t lv.cont).onTeam t (fun tm => { tm with levels := s.levelsKept t below lv, recArrivals := [], wdcount := 0 }) =
      (s.sendTeam t lv.cont).setTeam t ((s.team t).passed (s.levelsKept t below lv)) := by
    rw [State.onTeam, State.team_sendTeam]
    rfl
  unfold State.passLevel
  rw [hrev, ← hset]
  refine State.logPoint_off ?_ _ _ _ _
  rw [State.team_onTeam_self]
  change ((s.sendTeam t lv.cont).grid ((s.sendTeam t lv.cont).team t).grid).recordMode = 0
  rw [State.team_sendTeam, State.grid_sendTeam]
  exact hrec

/-- A team with a level opened. -/
def State.openedLevel (s : State) (t : Nat) (a : RecArrival) (d : RecDesc) (key : Nat) : Team :=
  let tm := s.team t
  { tm with
    levels := tm.levels ++ [{ test := d.test, cont := d.cont, primary := d.primary, alts := d.alts, nalt := d.nalt, ticks := d.ticks, noreg := d.noreg
                              conv := key, ensure := a.hdr, ensWord := a.word, ensAddr := a.addr, arrivals := tm.arrivals, phases := tm.phases }]
    recArrivals := [] }

/-- Settles O38: every lane of the team goes to the level's address, the other teams are no part of it, and the lines merge as `FMap.look_fill` says. -/
theorem levelsOpenAndPass : Obligations.LevelsOpenAndPass := by
  unfold Obligations.LevelsOpenAndPass
  intro s t _ sent
  have hsent (w : State) (a : Word) (hw : ∀ k, w.group k = (s.sendTeam t a).group k) : sent w a := fun k hk l hl => by
    rw [hw, State.group_sendTeam, if_pos hk, Group.lane_sent _ _ hl]
  have hmem (a : Word) : (s.sendTeam t a).mem = s.mem := by rw [State.sendTeam_eq]
  refine ⟨fun a d key => ?_, fun below lv hl hrec => ?_⟩
  · intro u
    have hteam (k : Nat) : u.team k = if k = t then s.openedLevel t a d key else s.team k := by
      refine (State.team_onTeam _ _ _ _).trans ?_
      simp only [State.team_sendTeam]
      rfl
    refine ⟨hsent u d.primary (fun _ => rfl), fun k hk => by rw [hteam, if_neg hk], hmem d.primary, ?_, ?_⟩
    · rw [hteam, if_pos rfl]
      rfl
    · rw [hteam, if_pos rfl]
      exact ⟨_, rfl, rfl, rfl, rfl, rfl, rfl, rfl, rfl, rfl, rfl, rfl, rfl, rfl, rfl⟩
  · intro u
    have hu : u = _ := State.passLevel_eq hl hrec
    have hteam (k : Nat) : u.team k = if k = t then (s.team t).passed (s.levelsKept t below lv) else s.team k := by
      rw [hu, State.team_setTeam, State.team_sendTeam]
    have hlen : (s.team t).rlevel - 2 = below.length - 1 := by
      rw [Team.rlevel, hl, List.length_append, List.length_singleton]
      omega
    refine ⟨hsent u lv.cont (fun _ => by rw [hu]; rfl), fun k hk => by rw [hteam, if_neg hk], by rw [hu]; exact hmem lv.cont, ?_, ?_, ?_, fun low hlow => ?_⟩
    · rw [hteam, if_pos rfl]
      rfl
    · rw [hteam, if_pos rfl]
      rfl
    · rw [hteam, if_pos rfl]
      exact s.levelsKept_length t below lv
    · refine ⟨(s.ownLines t lv).mergeInto low, ?_, fun ln => ?_⟩
      · rw [hteam, if_pos rfl]
        exact s.levelsKept_last t lv hlow
      · intro older
        have holder : s.older t (below.length - 1) ln = true ↔ older := s.older_iff _ _ _
        rw [State.look_mergeInto, hlen]
        refine ⟨fun hn ho => ?_, fun hn ho => ?_, fun x hx => ?_⟩
        · rw [hn, if_pos (holder.2 ho)]
          rfl
        · rw [hn, if_neg (fun h => ho (holder.1 h))]
          rfl
        · rw [hx]
          rfl

end Sys2Proof.Machine
end

