-- ==== Sys2Proof/Proofs/ConversationWords.lean ====
section
/-! SUPPORT. CONVJOIN and CONVLEAVE (Recovery.lean, R185, R305). -/
namespace Sys2Proof.Machine

/-- The members of a conversation. -/
def State.membersOf (s : State) (key : Nat) : List Nat := match FMap.look s.convs key with | some c => c.members | none => []

/-- A word that issues after a change of teams and conversations alone. -/
theorem State.convs_issued {v w : State} (h : { w with teams := v.teams, convs := v.convs } = v) :
    { w.advance 1 1 with time := v.time, clusters := v.clusters, groups := v.groups, teams := v.teams, convs := v.convs } = v ∧
    OwnSlice v (w.advance 1 1) ∧ (w.advance 1 1).me = { v.me with run := v.me.run.after 1 } := by
  have hw : w = { v with teams := w.teams, convs := w.convs } := congrArg (fun x : State => { x with teams := w.teams, convs := w.convs }) h
  rw [hw]
  exact ⟨rfl, State.advance_slice 1 1 (fun _ _ => rfl) rfl rfl rfl rfl, State.me_advance _ _ _⟩

section
variable {s : State} {p : BitVec 5} {b : List (BitVec 8)} {sp : Space} {pa : Nat}

/-- The rules of a conversation object hold (R305). -/
theorem convFields_hold (h1 : 1 ≤ fieldAt b 0 4) (h2 : fieldAt b 0 4 ≤ 16) (h3 : ∀ x ∈ b.drop 4, x = 0) : ∀ f ∈ convFields b, f.1 = false := by
  intro f hf
  rcases List.mem_cons.1 hf with rfl | hf
  · simp; omega
  · rw [List.mem_singleton.1 hf]
    simpa using h3

/-- What the words of a conversation find (R185): operands that are full, a block they can read and whose fields hold, its translation. -/
structure State.FindsConv (s : State) (p : BitVec 5) (b : List (BitVec 8)) (sp : Space) (pa : Nat) : Prop where
  region : ∀ l, inSet s.me.run.act l = true → (s.me.lane l).region = none
  ready : s.ready [80 + p.toNat, 80 + p.toNat + 1] []
  fences : s.me.fences = []
  block : s.blockIs (s.me.sPair p.toNat).toNat 64 64 b
  target : (s.afterBlock (s.me.sPair p.toNat).toNat 64).target s.me.cluster (s.partOf s.me) .read (s.me.sPair p.toNat).toNat = .ok sp pa
  fields : ∀ f ∈ convFields b, f.1 = false

/-- The state after the read of the object. -/
def State.convRead (s : State) (p : BitVec 5) : State := s.afterBlock (s.me.sPair p.toNat).toNat 64

theorem State.convRead_blockRead (s : State) (p : BitVec 5) : BlockRead s (s.convRead p) := s.afterBlock_blockRead _ _

/-- A team that joins a conversation. -/
def State.joinConv (s : State) (key : Nat) (c : Conversation) : State :=
  { s with convs := FMap.put s.convs key c }.onTeam s.me.team (fun tm => { tm with convs := tm.convs ++ [key] })

theorem BlockRead.convs {s v : State} (h : BlockRead s v) : v.convs = s.convs := by
  obtain ⟨_, _, _, _, _, _, _, rfl⟩ := h.eq
  rfl

theorem BlockRead.team {s v : State} (h : BlockRead s v) (k : Nat) : v.team k = s.team k := by
  obtain ⟨_, _, _, _, _, _, _, rfl⟩ := h.eq
  rfl

theorem State.FindsConv.key (h : s.FindsConv p b sp pa) : (s.convRead p).convAt (s.me.sPair p.toNat).toNat = convKey (s.partOf s.me) sp pa := by
  have hv := s.convRead_blockRead p
  have ht := h.target
  unfold State.convAt
  rw [hv.partOf, hv.me, show (s.convRead p).target s.me.cluster (s.partOf s.me) .read (s.me.sPair p.toNat).toNat = .ok sp pa from ht]

section
variable (h : s.FindsConv p b sp pa)
include h

/-- CONVJOIN once its object has been read. -/
theorem execConvjoin_read : exec (.convjoin p) s = .next (
    let v := s.convRead p
    let key := convKey (s.partOf s.me) sp pa
    let members := s.membersOf key
    let fields := fieldFail (s.me.sPair p.toNat).toNat (convFields b)
    if members.contains s.me.team then v.checked [fields] (v.advance 1 1)
    else v.checked [fields, failIf (decide (fieldAt b 0 4 ≤ members.length)) 0x60 3 0
        , failIf ((FMap.look s.convs key).isNone && decide ((v.part (s.partOf s.me)).partcfg.toNat / 2 ^ 31 % 2 ^ 10 ≤
            (s.convs.filter (fun c => c.2.part == s.partOf s.me)).length)) 0x60 7 0
        , failIf (s.myTeam.rlevel != 0 || members.any (fun m => (v.team m).rlevel != 0)) 0x60 9 0]
      ((v.joinConv key { part := s.partOf s.me, teams := fieldAt b 0 4, members := members ++ [s.me.team] }).advance 1 1)) := by
  have hv := s.convRead_blockRead p
  rw [exec_convjoin]
  unfold execConvjoin sreg
  dsimp only
  rw [State.eGate_ready h.ready (fun hf => by cases hf) h.region (.inl rfl), State.withBlock_read h.fences h.block]
  have hkey := h.key
  have hpart := hv.partOf
  rw [hv.me] at hpart
  unfold State.joinConv
  unfold State.convRead at hkey hpart hv ⊢
  rw [hkey, hv.me, hv.convs, hv.myTeam, hpart]
  rfl

/-- A team that leaves (R185). -/
theorem execConvleave_go (hl : ∀ lv ∈ s.myTeam.levels, lv.conv ≠ convKey (s.partOf s.me) sp pa) :
    exec (.convleave p) s = .next (((s.convRead p).leaveConv s.me.team (convKey (s.partOf s.me) sp pa)).advance 1 1) := by
  have hv := s.convRead_blockRead p
  have hlevels : (s.convRead p).myTeam.levels.any (fun lv => lv.conv == convKey (s.partOf s.me) sp pa) = false := by
    rw [hv.myTeam, List.any_eq_false]
    exact fun lv hlv => by simpa using hl lv hlv
  rw [exec_convleave]
  unfold execConvleave sreg
  dsimp only
  rw [State.eGate_ready h.ready (fun hf => by cases hf) h.region (.inl rfl), State.withBlock_read h.fences h.block]
  change Host.Outcome.next ((s.convRead p).checked [fieldFail _ (convFields b), failIf ((s.convRead p).myTeam.levels.any
    (fun lv => lv.conv == (s.convRead p).convAt (s.me.sPair p.toNat).toNat)) 0x60 4 0]
    (((s.convRead p).leaveConv (s.convRead p).me.team ((s.convRead p).convAt (s.me.sPair p.toNat).toNat)).advance 1 1)) = _
  rw [h.key, hlevels, hv.me, State.checked_none]
  intro f hf
  rcases List.mem_cons.1 hf with rfl | hf
  · exact fieldFail_none h.fields _
  · rw [List.mem_singleton.1 hf]
    exact failIf_none rfl _ _ _

/-- A member that joins again changes nothing (R185). -/
theorem execConvjoin_member (hm : s.me.team ∈ s.membersOf (convKey (s.partOf s.me) sp pa)) :
    exec (.convjoin p) s = .next ((s.convRead p).advance 1 1) := by
  rw [execConvjoin_read h]
  dsimp only
  rw [if_pos (List.contains_iff_mem.2 hm), State.checked_none]
  intro f hf
  rw [List.mem_singleton.1 hf]
  exact fieldFail_none h.fields _

/-- A team that joins (R185, R305). -/
theorem execConvjoin_new (hm : s.me.team ∉ s.membersOf (convKey (s.partOf s.me) sp pa))
    (hroom : (s.membersOf (convKey (s.partOf s.me) sp pa)).length < fieldAt b 0 4) (hl : s.myTeam.levels = [])
    (hls : ∀ m ∈ s.membersOf (convKey (s.partOf s.me) sp pa), (s.team m).levels = [])
    (hshare : FMap.look s.convs (convKey (s.partOf s.me) sp pa) = none →
      (s.convs.filter (fun c => c.2.part == s.partOf s.me)).length < (s.part (s.partOf s.me)).partcfg.toNat / 2 ^ 31 % 2 ^ 10) :
    exec (.convjoin p) s = .next (((s.convRead p).joinConv (convKey (s.partOf s.me) sp pa)
      { part := s.partOf s.me, teams := fieldAt b 0 4, members := s.membersOf (convKey (s.partOf s.me) sp pa) ++ [s.me.team] }).advance 1 1) := by
  have hv := s.convRead_blockRead p
  have hcfg : ((s.convRead p).part (s.partOf s.me)).partcfg = (s.part (s.partOf s.me)).partcfg := by
    have he := congrArg Partition.partcfg (hv.part (s.partOf s.me))
    exact he
  have hlevels : (s.membersOf (convKey (s.partOf s.me) sp pa)).any (fun m => ((s.convRead p).team m).rlevel != 0) = false := by
    rw [List.any_eq_false]
    intro m hmem
    rw [hv.team, Team.rlevel, hls m hmem]
    decide
  have hentry : ((FMap.look s.convs (convKey (s.partOf s.me) sp pa)).isNone && decide (((s.convRead p).part (s.partOf s.me)).partcfg.toNat / 2 ^ 31 %
      2 ^ 10 ≤ (s.convs.filter (fun c => c.2.part == s.partOf s.me)).length)) = false := by
    rw [hcfg]
    cases hold : FMap.look s.convs (convKey (s.partOf s.me) sp pa) with
    | none => exact decide_eq_false (not_le.2 (hshare hold))
    | some c => rfl
  rw [execConvjoin_read h]
  dsimp only
  rw [if_neg (fun hc => hm (List.contains_iff_mem.1 hc)), State.checked_none]
  simp only [List.forall_mem_cons]
  exact ⟨fieldFail_none h.fields _, failIf_none (decide_eq_false (not_le.2 hroom)) _ _ _, failIf_none hentry _ _ _,
    failIf_none (by rw [hlevels, Team.rlevel, hl]; rfl) _ _ _, fun _ hf => absurd hf List.not_mem_nil⟩

end

end

/-! ### What the words leave -/

theorem State.team_joinConv (s : State) (key : Nat) (c : Conversation) (k : Nat) : (s.joinConv key c).team k =
    if k = s.me.team then { s.team k with convs := (s.team k).convs ++ [key] } else s.team k := by
  refine (State.team_onTeam { s with convs := FMap.put s.convs key c } s.me.team k (fun tm => { tm with convs := tm.convs ++ [key] })).trans ?_
  split_ifs with h
  · rw [h]; rfl
  · rfl

section
variable (s : State) (t key : Nat)

/-- The conversations once a team has left one. -/
def State.convsLeft (s : State) (t key : Nat) : FMap Conversation :=
  match FMap.look s.convs key with
  | some c => if (c.members.filter (· != t)).isEmpty then FMap.del s.convs key else FMap.put s.convs key { c with members := c.members.filter (· != t) }
  | none => s.convs

theorem State.leaveConv_eq : s.leaveConv t key =
    { s with convs := s.convsLeft t key }.onTeam t (fun tm => { tm with convs := tm.convs.filter (· != key) }) := by
  unfold State.leaveConv State.convsLeft
  have hconvs : (s.onTeam t (fun tm => { tm with convs := tm.convs.filter (· != key) })).convs = s.convs := rfl
  dsimp only
  rw [hconvs]
  cases FMap.look s.convs key <;> rfl

theorem State.convs_leaveConv : (s.leaveConv t key).convs = s.convsLeft t key := by
  rw [State.leaveConv_eq]
  rfl

theorem State.leaveConv_world : { s.leaveConv t key with teams := s.teams, convs := s.convs } = s := by
  rw [State.leaveConv_eq]
  rfl

theorem BlockRead.convsLeft {s v : State} (h : BlockRead s v) (t key : Nat) : v.convsLeft t key = s.convsLeft t key := by
  obtain ⟨_, _, _, _, _, _, _, rfl⟩ := h.eq
  rfl

theorem State.team_leaveConv (k : Nat) : (s.leaveConv t key).team k =
    if k = t then { s.team k with convs := (s.team k).convs.filter (· != key) } else s.team k := by
  rw [State.leaveConv_eq, State.team_onTeam]
  split_ifs with h
  · rw [h]; rfl
  · rfl

theorem State.look_convsLeft (k : Nat) (h : k ≠ key) : FMap.look (s.convsLeft t key) k = FMap.look s.convs k := by
  unfold State.convsLeft
  cases FMap.look s.convs key with
  | none => rfl
  | some c =>
    dsimp only
    split_ifs
    · exact FMap.look_del_ne _ h
    · exact FMap.look_put_ne _ _ h

/-- The entry of a conversation that a team leaves: freed with its last member. -/
theorem State.look_convsLeft_self : FMap.look (s.convsLeft t key) key =
    (FMap.look s.convs key).bind (fun c => if (c.members.filter (· != t)).isEmpty then none else some { c with members := c.members.filter (· != t) }) := by
  unfold State.convsLeft
  cases hc : FMap.look s.convs key with
  | none => exact hc
  | some c =>
    dsimp only [Option.bind_some]
    split_ifs
    · exact FMap.look_del_self _ _
    · exact FMap.look_put_self _ _ _

end

/-- Settles O39: the object is read and judged; the entry of the conversation and the team's list of conversations change together. -/
theorem conversationWords : Obligations.ConversationWords := by
  unfold Obligations.ConversationWords
  intro s p b sp pa va part v key members teams hreg hr hf hb ht h1 h16 hz world
  have h : s.FindsConv p b sp pa := ⟨hreg, hr, hf, hb, ht, convFields_hold h1 h16 hz⟩
  have hv : BlockRead s v := s.afterBlock_blockRead va 64
  have hworld {w : State} (hw : { w with teams := v.teams, convs := v.convs } = v) (hc : ∀ k, k ≠ key → FMap.look w.convs k = FMap.look s.convs k) :
      world (w.advance 1 1) := by
    obtain ⟨hrest, hslice, hme⟩ := State.convs_issued hw
    exact ⟨hv, hrest, hslice, hme.trans (by rw [hv.me]), hc⟩
  refine ⟨fun hm hroom hl hls hshare => ?_, fun hm => ?_, fun hl hc => ?_⟩
  · refine ⟨_, execConvjoin_new h hm hroom hl hls hshare, hworld rfl (fun k hk => ?_), ?_, fun k => ?_⟩
    · exact (FMap.look_put_ne v.convs _ hk).trans (congrArg (FMap.look · k) hv.convs)
    · exact FMap.look_put_self v.convs key _
    · exact (v.team_joinConv key _ k).trans (by rw [hv.me, hv.team])
  · exact ⟨_, execConvjoin_member h hm, hworld rfl (fun k _ => congrArg (FMap.look · k) hv.convs), hv.convs, hv.teams⟩
  · have hconvs : (v.leaveConv s.me.team key).convs = s.convsLeft s.me.team key := (v.convs_leaveConv _ _).trans (hv.convsLeft _ _)
    obtain ⟨c, hc⟩ := Option.isSome_iff_exists.1 hc
    have hmembers : members = c.members := by
      change (match FMap.look s.convs key with | some c => c.members | none => []) = _
      rw [hc]
    have hlook : FMap.look ((v.leaveConv s.me.team key).advance 1 1).convs key =
        if (members.filter (· != s.me.team)).isEmpty then none else some { c with members := members.filter (· != s.me.team) } := by
      rw [State.advance_convs, hconvs, State.look_convsLeft_self, hc, hmembers]
      rfl
    refine ⟨_, execConvleave_go h hl, hworld (w := v.leaveConv s.me.team key) (v.leaveConv_world _ _) (fun k hk => ?_), ?_, fun hall => ?_, fun k => ?_⟩
    · rw [hconvs]
      exact s.look_convsLeft _ _ k hk
    · refine (congrArg (fun o : Option Conversation => o.elim [] Conversation.members) hlook).trans ?_
      cases hms : members.filter (· != s.me.team) <;> rfl
    · refine hlook.trans (if_pos (List.isEmpty_iff.2 (List.filter_eq_nil_iff.2 (fun m hm => ?_))))
      rw [hall m hm]
      simp
    · rw [State.team_advance, State.team_leaveConv, (s.convRead_blockRead p).team]

end Sys2Proof.Machine
end

