-- ==== Sys2Proof/Proofs/EngineCommandStart.lean ====
section
/-! SUPPORT. A command that starts, and an L1 that lists one way twice (EngExec.lean, Caches.lean, R169, R214, R215, R219). -/
namespace Sys2Proof.Machine

/-- A drain block that writes two elements, 16,384 bytes apart from address 0 on: two lines of one set of an L1 (R257, R258). -/
def farDrainBlock : List (BitVec 8) := ((List.replicate 64 0).set 2 2).set 6 1 |>.set 49 0x40

/-- The drain of that block. -/
def farDrain : Command := { unit := 0, op := 0x04, cluster := 0, part := 0, team := 0, group := 0, hdr := 0, ec := 0, block := farDrainBlock }

/-- A state whose only command is that drain. A table maps the lowest 2^30 addresses to themselves, to be written (R222, R223), and the L1 of its cluster
lists way 0 of set 0 twice: with line 128, which is the entry that counts, and behind it with line 0. -/
def twiceListed : State :=
  { State.reset with
    clusters := [(0, { l1 := [(0, (128, 0)), (0, (0, 0))] })], mem := [(0, 0x01), (1, 0x10), (0x1000, 0x07)], commands := [(1, farDrain)] }

theorem twiceListed_canStart : twiceListed.canStart 1 farDrain = true := by decide +kernel

theorem twiceListed_lines : (twiceListed.destLines farDrain).1 = [0, 128] := by decide +kernel

/-- Line 0, which the command owns, comes to stand in the L1 when the start takes line 128 out of it. -/
theorem twiceListed_hasLine : ((twiceListed.startCommand 1).cluster 0).hasLine 0 = true := by decide +kernel

/-- Refutes O44: the start takes an owned line out of the L1s that hold it, and what is behind an entry of a table that lists a way twice comes to light
with the next line that it takes out. -/
theorem not_commandsStartAndComplete : ¬ Obligations.CommandsStartAndComplete := by
  unfold Obligations.CommandsStartAndComplete
  rintro ⟨hstart, -, -⟩
  obtain ⟨t, ht, -, -, -, -, -, -, -, -, -, -, hgone, -, -⟩ := hstart twiceListed 1 farDrain rfl twiceListed_canStart (by decide +kernel)
  have hstate : t = twiceListed.startCommand 1 := (Host.Outcome.next.inj ((exec_engineCommandStart 1 twiceListed).symm.trans ht)).symm
  have hline := hgone 0 0 (by rw [twiceListed_lines]; exact List.mem_cons_self)
  rw [hstate, twiceListed_hasLine] at hline
  exact Bool.noConfusion hline

end Sys2Proof.Machine
end

