-- ==== Sys2Proof/Proofs/ReleaseAndTickLimit.lean ====
section
/-! SUPPORT. A cluster's turn in the release of a grid barrier (Sync.lean, R179, R325), and the tick limit of a level (Recovery.lean, R301, R304). -/
namespace Sys2Proof.Machine

/-! ### Grid barriers -/

/-- The groups of a grid that a cluster holds. -/
def State.groupsThere (s : State) (grid cl : Nat) : List Nat :=
  ((s.gridTeams grid).flatMap (fun t => (s.teamGroups t).filter (fun x => x.2.cluster == cl))).map (·.1)

theorem State.mem_groupsThere (s : State) (grid cl k : Nat) :
    k ∈ s.groupsThere grid cl ↔ (∃ t ∈ (s.grid grid).live, k ∈ (s.team t).groups) ∧ (s.group k).cluster = cl := by
  simp only [State.groupsThere, State.gridTeams, State.teamGroups, List.mem_map, List.mem_flatMap, List.mem_filter, beq_iff_eq]
  constructor
  · rintro ⟨x, ⟨t, ht, ⟨j, hj, rfl⟩, hc⟩, rfl⟩
    exact ⟨⟨t, ht, hj⟩, hc⟩
  · rintro ⟨⟨t, ht, hk⟩, hc⟩
    exact ⟨(k, s.group k), ⟨t, ht, ⟨k, hk, rfl⟩, hc⟩, rfl⟩

/-- The state once a cluster has had its turn in the release of a grid barrier. -/
def State.released (s : State) (grid cl : Nat) : State :=
  ((s.wakeGroups (s.groupsThere grid cl) .gridBarrier).onGrid grid (fun g => { g with releases := g.releases.filter (fun r => r.1 != cl) })).dropCopies cl

theorem State.released_world (s : State) (grid cl : Nat) :
    { s.released grid cl with groups := s.groups, grids := s.grids, clusters := s.clusters } = s := by
  rw [State.released, State.wakeGroups_eq]
  rfl

theorem State.grid_released (s : State) (grid cl k : Nat) : (s.released grid cl).grid k =
    if k = grid then { s.grid grid with releases := (s.grid grid).releases.filter (fun r => r.1 != cl) } else s.grid k := by
  refine (State.grid_onGrid (s.wakeGroups (s.groupsThere grid cl) .gridBarrier) grid k
    (fun g => { g with releases := g.releases.filter (fun r => r.1 != cl) })).trans ?_
  rw [State.grid_wakeGroups, State.grid_wakeGroups]

theorem State.group_released (s : State) (grid cl k : Nat) : (s.released grid cl).group k =
    if k ∈ s.groupsThere grid cl then (s.group k).wakeAt .gridBarrier else s.group k :=
  s.group_wakeGroups (s.groupsThere grid cl) .gridBarrier k

theorem State.cluster_released (s : State) (grid cl c : Nat) : (s.released grid cl).cluster c =
    if c = cl then { s.cluster cl with l1 := (s.cluster cl).l1.filter (fun p => s.holderOf p.2.1 == some cl), stale := [] } else s.cluster c := by
  rw [State.released, State.wakeGroups_eq]
  exact State.cluster_onCluster _ _ _ _

theorem execGbarClusterRelease_go {s : State} {grid cl tick : Nat} (h : (cl, tick) ∈ (s.grid grid).releases) (ht : tick ≤ s.tick)
    (hrec : (s.grid grid).recordMode = 0) : execGbarClusterRelease grid cl s = .next (s.released grid cl) := by
  have hturn : (s.grid grid).releases.any (fun r => r.1 == cl && decide (r.2 ≤ s.tick)) = true :=
    List.any_eq_true.2 ⟨(cl, tick), h, by simp [ht]⟩
  have hmode : ((s.released grid cl).grid grid).recordMode = 0 := by
    rw [State.grid_released, if_pos rfl]
    exact hrec
  have hwake : ((s.gridTeams grid).flatMap (fun t => (s.teamGroups t).filter (fun x => x.2.cluster == cl))).foldl
      (fun s x => s.onGroup x.1 (·.wakeAt .gridBarrier)) s = s.wakeGroups (s.groupsThere grid cl) .gridBarrier := by
    rw [State.groupsThere, State.wakeGroups, List.foldl_map]
  refine congrArg Host.Outcome.next ((if_pos (by rw [hturn, State.logStalls_off hrec]; rfl)).trans ?_)
  dsimp only
  cases ((s.gridTeams grid).flatMap (fun t => (s.teamGroups t).filter (fun x => x.2.cluster == cl))).head? with
  | none => exact congrArg (fun w : State => (w.onGrid grid (fun g => { g with releases := g.releases.filter (fun r => r.1 != cl) })).dropCopies cl) hwake
  | some x =>
    refine (congrArg (fun w : State => State.logPoint ((w.onGrid grid (fun g => { g with
      releases := g.releases.filter (fun r => r.1 != cl) })).dropCopies cl) grid x.2 5 (Config.barrierKey 4 (s.grid grid).gphase).toNat 0) hwake).trans ?_
    exact State.logPoint_off hmode _ _ _ _

/-! ### The tick limit of a level (R301, R304) -/

section
variable {s : State} {t : Nat} {last : Level} (hl : (s.team t).levels.getLast? = some last) (hc : last.conv = 0)
include hl hc

theorem State.parties_last : s.parties t = [t] := by
  rw [State.parties, hl]
  simp [hc]

/-- Alone, a team's limit is that of its own level. -/
theorem State.tickLimit_alone (i : Nat) : s.tickLimit t i = ((s.team t).levels[i]?).bind (fun lv => if lv.ticks = 0 then none else some lv.ticks) := by
  rw [State.tickLimit, State.parties_last hl hc, List.foldl_cons, List.foldl_nil]
  cases (s.team t).levels[i]? <;> rfl

theorem State.expiredLevel_first {i : Nat} {lv : Level} (hi : (s.team t).levels[i]? = some lv) (hne : lv.ticks ≠ 0) (hle : lv.ticks ≤ lv.used)
    (hfirst : ∀ (j : Nat) (x : Level), j < i → (s.team t).levels[j]? = some x → x.ticks = 0 ∨ x.used < x.ticks) : s.expiredLevel t = some i := by
  have hlt : i < (s.team t).rlevel := (List.getElem?_eq_some_iff.1 hi).1
  simp only [State.expiredLevel, State.tickLimit_alone hl hc]
  refine List.find?_range_eq_some.2 ⟨?_, List.mem_range.2 hlt, fun j hj => ?_⟩
  · simp [hi, hne, hle]
  · obtain ⟨x, hx⟩ : ∃ x, (s.team t).levels[j]? = some x := ⟨_, List.getElem?_eq_getElem (hj.trans hlt)⟩
    rcases hfirst j x hj hx with h0 | hu
    · simp [hx, h0]
    · simp [hx, (Nat.zero_le _).trans_lt hu |>.ne', not_le.2 hu]

theorem execRecoveryTickLimitExpiry_expired {i : Nat} {lv : Level} (hr : (s.team t).rollback = none) (hi : (s.team t).levels[i]? = some lv)
    (hne : lv.ticks ≠ 0) (hle : lv.ticks ≤ lv.used)
    (hfirst : ∀ (j : Nat) (x : Level), j < i → (s.team t).levels[j]? = some x → x.ticks = 0 ∨ x.used < x.ticks) :
    execRecoveryTickLimitExpiry t s = .next (s.setTeam t ((s.team t).rollingBack (s.team t).levels.dropLast last (i + 1) 0x63 0)) := by
  rw [execRecoveryTickLimitExpiry, State.expiredLevel_first hl hc hi hne hle hfirst]
  exact congrArg Host.Outcome.next (State.beginRollback_alone (List.dropLast_append_getLast? last hl).symm hc hr _ _ _)

end

end Sys2Proof.Machine
end

