-- ==== Sys2Proof/Proofs/RegionCommit.lean ====
section
/-! SUPPORT. The commit of a region and the lapse of a reservation (Regions.lean, R281 to R283): versions written, slots freed, the lane live again. -/
namespace Sys2Proof.Machine

/-! ### The versions that a region writes (R283) -/

theorem Mem.read_write (m : Mem) (a x : Nat) (b : BitVec 8) : Mem.read (Mem.write m a b) x = if x = a then b else Mem.read m x := by
  split_ifs with h
  · rw [h, Mem.read_write_self]
  · exact Mem.read_write_ne m b h

/-- The listed bytes among those at some distances from an address. -/
def bytesAt (f : FMap (BitVec 8)) (w : Nat) (is : List Nat) : List (Nat × BitVec 8) :=
  is.filterMap (fun i => (FMap.look f (4 * w + i)).map (fun b => (4 * w + i, b)))

/-- Runs of bytes written to a memory one after another. -/
def Mem.writeRuns (m : Mem) (rs : List (Nat × List (BitVec 8))) : Mem := rs.foldl (fun m r => Mem.writeBytes m r.1 r.2) m

theorem Mem.read_writeRuns_bytes (f : FMap (BitVec 8)) (w : Nat) (is : List Nat) (m : Mem) (a : Nat) :
    Mem.read (Mem.writeRuns m ((bytesAt f w is).map (fun p => (p.1, [p.2])))) a =
      if ∃ i ∈ is, a = 4 * w + i then (FMap.look f a).getD (Mem.read m a) else Mem.read m a := by
  induction is generalizing m with
  | nil => simp [bytesAt, Mem.writeRuns]
  | cons i is ih =>
    simp only [List.exists_mem_cons_iff]
    cases hi : FMap.look f (4 * w + i) with
    | none =>
      have hskip : bytesAt f w (i :: is) = bytesAt f w is := List.filterMap_cons_none (by rw [hi]; rfl)
      rw [hskip, ih]
      by_cases ha : a = 4 * w + i
      · simp [ha, hi]
      · simp [ha]
    | some b =>
      have hput : bytesAt f w (i :: is) = (4 * w + i, b) :: bytesAt f w is := List.filterMap_cons_some (by rw [hi]; rfl)
      rw [hput, List.map_cons, Mem.writeRuns, List.foldl_cons]
      refine (ih (Mem.write m (4 * w + i) b)).trans ?_
      rw [Mem.read_write]
      by_cases ha : a = 4 * w + i
      · simp [ha, hi]
      · simp [ha]

/-- The runs of one word of a region's versions. -/
def wordRuns (f : FMap (BitVec 8)) (whole : FMap Unit) (w : Nat) : List (Nat × List (BitVec 8)) :=
  if (bytesAt f w (List.range 4)).length = 4 ∧ FMap.has whole w then [(4 * w, (bytesAt f w (List.range 4)).map (·.2))]
  else (bytesAt f w (List.range 4)).map (fun p => (p.1, [p.2]))

/-- A word written whole is its bytes written one by one. -/
theorem Mem.writeRuns_word (f : FMap (BitVec 8)) (whole : FMap Unit) (w : Nat) (m : Mem) :
    Mem.writeRuns m (wordRuns f whole w) = Mem.writeRuns m ((bytesAt f w (List.range 4)).map (fun p => (p.1, [p.2]))) := by
  rw [wordRuns]
  split_ifs with h
  · have hall := List.filterMap_length_eq_length.1 (h.1.trans (List.length_range (n := 4)).symm)
    simp only [Option.isSome_map, List.mem_range] at hall
    obtain ⟨b0, h0⟩ := Option.isSome_iff_exists.1 (hall 0 (by decide))
    obtain ⟨b1, h1⟩ := Option.isSome_iff_exists.1 (hall 1 (by decide))
    obtain ⟨b2, h2⟩ := Option.isSome_iff_exists.1 (hall 2 (by decide))
    obtain ⟨b3, h3⟩ := Option.isSome_iff_exists.1 (hall 3 (by decide))
    have hbytes : bytesAt f w (List.range 4) = [(4 * w + 0, b0), (4 * w + 1, b1), (4 * w + 2, b2), (4 * w + 3, b3)] := by
      rw [bytesAt, show List.range 4 = [0, 1, 2, 3] from rfl]
      simp only [List.filterMap_cons, List.filterMap_nil, h0, h1, h2, h3, Option.map_some]
    rw [hbytes]
    rfl
  · rfl

theorem Mem.read_writeRuns_word (f : FMap (BitVec 8)) (whole : FMap Unit) (w : Nat) (m : Mem) (a : Nat) :
    Mem.read (Mem.writeRuns m (wordRuns f whole w)) a = if a / 4 = w then (FMap.look f a).getD (Mem.read m a) else Mem.read m a := by
  rw [Mem.writeRuns_word, Mem.read_writeRuns_bytes]
  refine if_congr ⟨fun ⟨i, hi, h⟩ => ?_, fun h => ⟨a % 4, List.mem_range.2 (by omega), by omega⟩⟩ rfl rfl
  have := List.mem_range.1 hi
  omega

/-- The versions of a region reach memory byte by byte. -/
theorem Mem.read_versionRuns (f : FMap (BitVec 8)) (whole : FMap Unit) (m : Mem) (a : Nat) :
    Mem.read (Mem.writeRuns m (versionRuns f whole)) a = (FMap.look f a).getD (Mem.read m a) := by
  have hwords (ws : List Nat) (m : Mem) : Mem.read (Mem.writeRuns m (ws.flatMap (wordRuns f whole))) a =
      if a / 4 ∈ ws then (FMap.look f a).getD (Mem.read m a) else Mem.read m a := by
    induction ws generalizing m with
    | nil => rfl
    | cons w ws ih =>
      rw [List.flatMap_cons, Mem.writeRuns, List.foldl_append]
      refine (ih (Mem.writeRuns m (wordRuns f whole w))).trans ?_
      rw [Mem.read_writeRuns_word]
      by_cases hw : a / 4 = w
      · cases FMap.look f a <;> simp [hw]
      · simp [hw]
  refine (hwords _ m).trans ?_
  split_ifs with h
  · rfl
  · rw [FMap.look_eq_none f a (fun p hp he => h (List.mem_dedup.2 (List.mem_map.2 ⟨p, hp, by rw [he]⟩)))]
    rfl

/-! ### Slots under writes at the performing point (R282) -/

theorem State.slot_foldl_onSlot {P : Slot → Prop} (f : Nat → Slot → Slot) (j : Nat) (hP : ∀ x, P x → P (f j x)) (ks : List Nat) (s : State)
    (h : P (s.slot j)) : P ((ks.foldl (fun s k => s.onSlot k (f k)) s).slot j) := by
  induction ks generalizing s with
  | nil => exact h
  | cons k ks ih =>
    refine ih _ ?_
    rw [State.slot_onSlot]
    split_ifs with hj
    · subst hj
      exact hP _ h
    · exact h

theorem State.foldl_onSlot_eq (f : Nat → Slot → Slot) (ks : List Nat) (s : State) :
    ks.foldl (fun s k => s.onSlot k (f k)) s = { s with dies := (ks.foldl (fun s k => s.onSlot k (f k)) s).dies } := by
  induction ks generalizing s with
  | nil => rfl
  | cons k ks ih => exact (ih (s.onSlot k (f k))).trans rfl

/-- The lane whose region holds a slot. -/
def Slot.held (k l : Nat) (x : Slot) : Prop := x.group = k ∧ x.lane = l

/-- A write at the performing point leaves each slot to its lane. -/
theorem State.held_writePhys {s : State} {j k l : Nat} (h : (s.slot j).held k l) (cl : Option Nat) (a : Nat) (bs : List (BitVec 8)) (but : List Nat)
    (v : Nat) : ((s.writePhys cl a bs but v).slot j).held k l := by
  have hlines := (LinesOnly.foldl (fun (s : State) ln => s.cacheWrite cl v ln) (fun s ln => s.cacheWrite_lines cl v ln) (linesOf a bs.length) s).trans
    (State.markStale_lines _ cl a bs.length)
  have hslot := hlines.of_rest (fun x => x.slot j) (fun _ _ _ => rfl)
  exact State.slot_foldl_onSlot (P := Slot.held k l) (fun _ x => { x with inval := true }) j (fun _ hx => hx) _ _ (hslot ▸ h)

/-- A region's versions written at the performing point. -/
def State.writeVersions (s : State) (rs : List (Nat × List (BitVec 8))) (but : List Nat) : State :=
  rs.foldl (fun s r => s.writePhys none r.1 r.2 but) s

section
variable (s : State) (rs : List (Nat × List (BitVec 8))) (but : List Nat)

theorem State.writeVersions_writes : WritesOnly s (s.writeVersions rs but) := by
  induction rs generalizing s with
  | nil => exact WritesOnly.refl s
  | cons r rs ih => exact (s.writePhys_writes none r.1 r.2 but 6).trans (ih _)

theorem State.mem_writeVersions : (s.writeVersions rs but).mem = Mem.writeRuns s.mem rs := by
  induction rs generalizing s with
  | nil => rfl
  | cons r rs ih =>
    obtain ⟨t, ds, un, -, e⟩ := s.writePhys_spec none r.1 r.2 but 6
    exact (ih _).trans (congrArg (fun w : State => Mem.writeRuns w.mem rs) e)

theorem State.held_writeVersions {j k l : Nat} (h : (s.slot j).held k l) : ((s.writeVersions rs but).slot j).held k l := by
  induction rs generalizing s with
  | nil => exact h
  | cons r rs ih => exact ih _ (State.held_writePhys h none r.1 r.2 but 6)

end

/-! ### A region closes (R283) -/

/-- A group one of whose lanes has committed its region. -/
def Group.committed (g : Group) (l : Nat) : Group :=
  (g.count 0).onLane l (fun n => { n with cond := .live, place := .none, region := none, aborting := false, reserved := none })

theorem State.slot_refreshSlots_free {s : State} {j : Nat} (h : s.slot j = {}) : s.refreshSlots.slot j = {} := by
  refine State.slot_foldl_onSlot (P := (· = {})) (fun id sl => { sl with anc := s.ancestors 8 id, depth := s.slotDepth 8 id }) j (fun x hx => ?_) _ _ h
  subst hx
  rw [State.ancestors, State.slotDepth, h]
  rfl

theorem State.refreshSlots_eq (s : State) : s.refreshSlots = { s with dies := s.refreshSlots.dies } := State.foldl_onSlot_eq _ _ _

/-- The state in which a region's versions, edges and token are gone and its slot is free. -/
def State.regionFreed (s : State) (id : Nat) : State :=
  let x : FMap (List (Nat × Bool)) := s.sectors.map (fun p => (p.1, p.2.filter (fun a => a.1 != id)))
  let s := { s with sectors := x.filter (fun p => !p.2.isEmpty) }
  ((s.openSlots.foldl (fun s k => s.onSlot k (fun x => { x with preds := x.preds.filter (fun p => p.1 != id) })) s).returnToken id).onSlot id (fun _ => {})

theorem State.regionFreed_eq (s : State) (id : Nat) : s.regionFreed id = { s with dies := (s.regionFreed id).dies, sectors := (s.regionFreed id).sectors } := by
  rw [State.regionFreed, State.foldl_onSlot_eq (fun _ x => { x with preds := x.preds.filter (fun p => p.1 != id) })]
  rfl

theorem State.slot_regionFreed (s : State) (id : Nat) : (s.regionFreed id).slot id = {} := (State.slot_onSlot _ id id _).trans (if_pos rfl)

/-- The state in which a region of a lane has closed, but for what the other slots record of it. -/
def State.regionClosed (s : State) (id k l : Nat) : State :=
  ((s.regionFreed id).onGroup k (·.committed l)).kick ((s.regionFreed id).group k).team

theorem State.closeRegion_held {s : State} {id k l : Nat} (h : (s.slot id).held k l) : s.closeRegion id = (s.regionClosed id k l).refreshSlots := by
  obtain ⟨rfl, rfl⟩ := h
  have hteam : (((s.regionFreed id).onGroup (s.slot id).group (·.committed (s.slot id).lane)).group (s.slot id).group).team =
      ((s.regionFreed id).group (s.slot id).group).team := by
    rw [State.group_onGroup, if_pos rfl]
    rfl
  rw [State.regionClosed, ← hteam]
  rfl

/-- A closed region leaves its lane live and its slot free. -/
theorem State.closeRegion_spec {s : State} {id k l : Nat} (h : (s.slot id).held k l) : (s.closeRegion id).slot id = {} ∧ ∃ ds x,
    s.closeRegion id = { (s.onGroup k (·.committed l)).kick (s.group k).team with dies := ds, sectors := x } := by
  rw [State.closeRegion_held h]
  refine ⟨State.slot_refreshSlots_free (s.slot_regionFreed id), (s.regionClosed id k l).refreshSlots.dies, (s.regionFreed id).sectors, ?_⟩
  rw [State.refreshSlots_eq, State.regionClosed, State.regionFreed_eq]
  rfl

/-! ### When a region commits (R242, R282, R283) -/

theorem execRegionCommit_waits {s : State} {die slot : Nat} (h : s.canCommit (die * 4096 + slot) = false) : execRegionCommit die slot s = .next s := by
  rw [execRegionCommit, h]
  rfl

section
variable {s : State} {id : Nat}

/-- A line of a region's versions that is tentative at a level of another team holds the commit back. -/
theorem State.canCommit_foreign (h : ∃ p ∈ (s.slot id).bytes, s.foreignLine (s.group (s.slot id).group).team (p.1 / 128) = true) :
    s.canCommit id = false := by
  obtain ⟨p, hp, hf⟩ := h
  have hall : (((s.slot id).bytes.map (fun p => p.1 / 128)).dedup).all (fun ln => !s.foreignLine (s.group (s.slot id).group).team ln) = false :=
    List.all_eq_false.2 ⟨p.1 / 128, List.mem_dedup.2 (List.mem_map_of_mem (f := fun p => p.1 / 128) hp), by simp [hf]⟩
  rw [State.canCommit, hall, Bool.and_false]

variable (hphase : (s.slot id).phase = 2) (hpreds : (s.slot id).preds = [])
  (hfar : s.farDone (s.slot id).group (oneLane (s.slot id).lane) s.fresh = true) (hl1 : s.l1Drained (s.group (s.slot id).group).cluster = true)
  (hown : ∀ p ∈ (s.slot id).bytes, s.foreignLine (s.group (s.slot id).group).team (p.1 / 128) = false)
  (hrec : (s.grid (s.team (s.group (s.slot id).group).team).grid).recordMode = 0)
include hphase hpreds hfar hl1 hown hrec

theorem State.canCommit_ready : s.canCommit id = true := by
  have hall : (((s.slot id).bytes.map (fun p => p.1 / 128)).dedup).all (fun ln => !s.foreignLine (s.group (s.slot id).group).team ln) = true := by
    refine List.all_eq_true.2 (fun ln hln => ?_)
    obtain ⟨p, hp, rfl⟩ := List.mem_map.1 (List.mem_dedup.1 hln)
    rw [hown p hp]
    rfl
  rw [State.canCommit, hphase, hpreds, hfar, hl1, State.logStalls_off hrec, hall]
  rfl

end

/-- A commit outside levels, of an unrecorded grid: the versions are written, the cluster drops its copies, and the region closes. -/
theorem State.commitRegion_outside {s : State} {id : Nat} (hl : (s.team (s.group (s.slot id).group).team).levels = []) (hi : (s.slot id).inval = false)
    (hrec : (s.grid (s.team (s.group (s.slot id).group).team).grid).recordMode = 0) : ∃ but, s.commitRegion id =
      ((s.writeVersions (versionRuns (s.slot id).bytes (s.slot id).whole) but).dropCopies (s.group (s.slot id).group).cluster).closeRegion id := by
  refine ⟨id :: s.openSlots.filter (fun k => (s.ancestors 9 k).contains id), ?_⟩
  have hw := s.writeVersions_writes (versionRuns (s.slot id).bytes (s.slot id).whole) (id :: s.openSlots.filter (fun k => (s.ancestors 9 k).contains id))
  rw [State.commitRegion]
  dsimp only
  rw [if_neg (by rw [hi]; decide), s.logLines_none _ _ hl]
  dsimp only
  refine congrArg (fun w : State => (w.dropCopies (s.group (s.slot id).group).cluster).closeRegion id) (State.logPoint_off ?_ _ _ _ _)
  refine (congrArg Grid.recordMode ((hw.grid _).trans ?_)).trans hrec
  exact congrArg (fun t : Team => s.grid t.grid) (hw.team _)

/-- What a commit leaves: the versions in memory, the slot free, and the lane live. -/
structure RegionCommitted (s : State) (id : Nat) (u : State) : Prop where
  mem : ∀ a, Mem.read u.mem a = (FMap.look (s.slot id).bytes a).getD (Mem.read s.mem a)
  slot : u.slot id = {}
  groups : u.groups = (s.onGroup (s.slot id).group (·.committed (s.slot id).lane)).groups
  accesses : u.accesses = s.accesses
  teams : u.teams = (s.onTeam (s.group (s.slot id).group).team (fun t => { t with wdcount := 0 })).teams

theorem State.commitRegion_committed {s : State} {id : Nat} (hl : (s.team (s.group (s.slot id).group).team).levels = []) (hi : (s.slot id).inval = false)
    (hrec : (s.grid (s.team (s.group (s.slot id).group).team).grid).recordMode = 0) : RegionCommitted s id (s.commitRegion id) := by
  obtain ⟨but, e⟩ := State.commitRegion_outside hl hi hrec
  generalize hrs : versionRuns (s.slot id).bytes (s.slot id).whole = rs at e
  generalize hv : (s.writeVersions rs but).dropCopies (s.group (s.slot id).group).cluster = v at e
  have hw : WritesOnly s v := hv ▸ (s.writeVersions_writes rs but).trans (State.dropCopies_lines _ _).writesOnly
  have hheld : (v.slot id).held (s.slot id).group (s.slot id).lane := by
    rw [← hv]
    exact s.held_writeVersions rs but ⟨rfl, rfl⟩
  have hmem : v.mem = Mem.writeRuns s.mem rs := by
    rw [← hv]
    exact s.mem_writeVersions rs but
  have hgroup : v.group (s.slot id).group = s.group (s.slot id).group := congrArg (FMap.at ({} : Group) · (s.slot id).group) hw.groups
  obtain ⟨hslot, ds, x, hclose⟩ := State.closeRegion_spec hheld
  rw [e]
  refine ⟨fun a => ?_, hslot, ?_, ?_, ?_⟩
  · rw [hclose]
    refine (congrArg (Mem.read · a) hmem).trans ?_
    rw [← hrs, Mem.read_versionRuns]
  · rw [hclose]
    exact congrArg (fun m => ({ s with groups := m } : State).onGroup (s.slot id).group (·.committed (s.slot id).lane) |>.groups) hw.groups
  · rw [hclose]
    exact hw.of_rest State.accesses (fun _ _ _ _ _ _ _ _ _ _ _ => rfl)
  · rw [hclose, hgroup]
    exact congrArg (fun m => ({ s with teams := m } : State).onTeam (s.group (s.slot id).group).team (fun t => { t with wdcount := 0 }) |>.teams) hw.teams

/-! ### Reservations (R281) -/

/-- The state in which the slot kept for a lane's retry is free. -/
def State.lapsed (s : State) (id : Nat) : State :=
  (s.onSlot id (fun _ => {})).onGroup (s.slot id).group (fun g => g.onLane (s.slot id).lane (fun n => { n with reserved := none }))

theorem execRegionReservationLapse_due {s : State} {die slot : Nat} (hphase : (s.slot (die * 4096 + slot)).phase = 5)
    (hres : ((s.group (s.slot (die * 4096 + slot)).group).lane (s.slot (die * 4096 + slot)).lane).reserved = some (die * 4096 + slot))
    (hwait : ¬ (((s.group (s.slot (die * 4096 + slot)).group).lane (s.slot (die * 4096 + slot)).lane).place = .slotWait ∧
      ((s.group (s.slot (die * 4096 + slot)).group).lane (s.slot (die * 4096 + slot)).lane).isParked = true))
    (hdue : ((s.group (s.slot (die * 4096 + slot)).group).lane (s.slot (die * 4096 + slot)).lane).counts = false ∨
      (s.slot (die * 4096 + slot)).since + 2 ^ 20 ≤ s.tick) :
    execRegionReservationLapse die slot s = .next (s.lapsed (die * 4096 + slot)).settleRegions := by
  refine congrArg Host.Outcome.next (if_pos ⟨hphase, hres, hwait, hdue.imp_left fun h => ?_⟩)
  rw [h]
  rfl

end Sys2Proof.Machine
end

