-- ==== Sys2Proof/Proofs/Terminations.lean ====
section
/-! SUPPORT. A team terminated while no region is open (Recovery.lean, Control.lean, R291, R336, R345): what containment leaves, group by group. -/
namespace Sys2Proof.Machine

/-! ### No region open -/

/-- A slot that holds an uncommitted region. -/
def Slot.isOpen (x : Slot) : Prop := 1 ≤ x.phase ∧ x.phase ≤ 4

theorem State.openSlots_nil_iff (s : State) : s.openSlots = [] ↔ ∀ d < 2, ∀ p ∈ (s.die d).slots, ¬ p.2.isOpen := by
  rw [State.openSlots, List.append_eq_nil_iff, List.map_eq_nil_iff, List.map_eq_nil_iff, List.filter_eq_nil_iff, List.filter_eq_nil_iff]
  refine ⟨fun ⟨h0, h1⟩ d hd p hp => ?_, fun h => ⟨fun p hp => ?_, fun p hp => ?_⟩⟩
  · interval_cases d
    · simpa [Slot.isOpen] using h0 p hp
    · simpa [Slot.isOpen] using h1 p hp
  · simpa [Slot.isOpen] using h 0 (by decide) p hp
  · simpa [Slot.isOpen] using h 1 (by decide) p hp

/-- A slot that is freed opens no region. -/
theorem State.openSlots_free {s : State} (h : s.openSlots = []) (id : Nat) : (s.onSlot id (fun _ => {})).openSlots = [] := by
  rw [State.openSlots_nil_iff] at h ⊢
  intro d hd p hp
  rw [State.onSlot, State.die_onDie] at hp
  split_ifs at hp with he
  · rcases FMap.mem_put _ _ _ hp with rfl | hp
    · simp [Slot.isOpen]
    · exact h _ (he ▸ hd) p hp
  · exact h d hd p hp

/-- What the freeing of one reserved slot keeps, the freeing of all keeps. -/
theorem State.freeReserved_keeps {P : State → Prop} (k : Nat) (m : LaneSet)
    (hP : ∀ s id l, P s → P ((s.onSlot id (fun _ => {})).onGroup k (fun g => g.onLane l (fun n => { n with reserved := none })))) {s : State} (h : P s) :
    P (s.freeReserved k m) := by
  rw [State.freeReserved]
  generalize lanesIn m = ls
  induction ls generalizing s with
  | nil => exact h
  | cons l ls ih =>
    rw [List.foldl_cons]
    refine ih ?_
    split
    · exact hP s _ l h
    · exact h

theorem State.openSlots_freeReserved {s : State} (h : s.openSlots = []) (k : Nat) (m : LaneSet) : (s.freeReserved k m).openSlots = [] :=
  State.freeReserved_keeps (P := fun s => s.openSlots = []) k m (fun _ id _ h => State.openSlots_free h id) h

theorem State.group_freeReserved_other (s : State) {k j : Nat} (h : j ≠ k) (m : LaneSet) : (s.freeReserved k m).group j = s.group j :=
  State.freeReserved_keeps (P := fun t => t.group j = s.group j) k m (fun _ _ _ ht => ((State.group_onGroup _ _ _ _).trans (if_neg h)).trans ht) rfl

theorem State.openSlots_dropWaiters {s : State} (h : s.openSlots = []) (gs : List Nat) : (s.dropWaiters gs).openSlots = [] := by
  rw [State.openSlots_nil_iff] at h ⊢
  have hslots (d : Nat) : ((s.dropWaiters gs).die d).slots = (s.die d).slots := by
    refine (congrArg Die.slots (FMap.at_mapVals (fun _ d => { d with
      waiters := d.waiters.filter (fun w => !gs.contains w.group)
      tokenWaiters := d.tokenWaiters.filter (fun w => !gs.contains w.group) }) ({} : Die) s.dies d rfl)).trans rfl
  intro d hd p hp
  exact h d hd p (hslots d ▸ hp)

/-! ### Containment of a group (R345) -/

/-- What the containment of a group leaves of the state and of the other groups. -/
structure GroupContained (s : State) (k code : Nat) (u : State) : Prop where
  world : { u with groups := s.groups, dies := s.dies, sectors := s.sectors, teams := s.teams } = s
  closed : u.openSlots = []
  others : ∀ j, j ≠ k → u.group j = s.group j
  counts : ∀ l, l < 64 → ((u.group k).lane l).counts = false
  kept : ∀ e, (s.group k).contained = some e → (u.group k).contained = some e
  of : (u.group k).team = (s.group k).team
  exit : (s.group k).contained = none → ∃ e, (u.group k).contained = some e ∧ e.cause = code
  team : ∀ j, { u.team j with recArrivals := (s.team j).recArrivals } = s.team j
  otherTeams : ∀ j, j ≠ (s.group k).team → u.team j = s.team j

/-- A group contained, with the exit status of an earlier containment where there is one. -/
def Group.containedAs (g : Group) (e : Exit) : Group := g.stopAll (some (g.contained.getD e))

/-- With no region open, containment frees the slots kept for the group's retries, stops it, and takes it out of what its team waits for. -/
theorem State.contain_eq {s : State} (ho : s.openSlots = []) (k code detail : Nat) (defer : Bool) (pc : Word) :
    ∃ (x : FMap (List (Nat × Bool))) (w : State) (e : Exit) (f : List RecArrival → List RecArrival),
      w = ({ s with sectors := x } : State).freeReserved k (s.group k).countSet ∧ e.cause = code ∧
    s.contain k code detail defer pc =
      ((w.onGroup k (·.containedAs e)).dropWaiters [k]).onTeam (w.group k).team (fun t => { t with recArrivals := f t.recArrivals }) := by
  obtain ⟨x, hx⟩ := s.abortRegions_nil 1 false ho
  have hg : s.groupSlots k = [] := by unfold State.groupSlots; rw [ho]; rfl
  generalize hw : ({ s with sectors := x } : State).freeReserved k (s.group k).countSet = w
  refine ⟨x, w, w.exitOf k code detail defer pc, List.map (fun a => { a with lanes := FMap.put a.lanes (w.group k).gid 0 }), hw.symm, rfl, ?_⟩
  have hw' : (s.abortRegions (s.groupSlots k) 1 false).freeReserved k ((s.abortRegions (s.groupSlots k) 1 false).group k).countSet = w := by
    rw [hg, hx]
    exact hw
  unfold State.contain
  dsimp only
  rw [hw', State.onGroup, State.onGroup, Group.containedAs]
  cases (w.group k).contained <;> rfl

theorem State.contain_groupContained {s : State} (ho : s.openSlots = []) (k code detail : Nat) (defer : Bool) (pc : Word) :
    GroupContained s k code (s.contain k code detail defer pc) := by
  obtain ⟨x, w, e, f, hw, he, hcontain⟩ := State.contain_eq ho k code detail defer pc
  have hf : Unreserved k s w := by
    have h0 : Unreserved k s { s with sectors := x } := ⟨rfl, rfl, fun _ => rfl⟩
    exact hw ▸ h0.trans (State.freeReserved_unreserved _ _ _)
  have hteam (j : Nat) : w.team j = s.team j := by
    have h := congrArg (fun v : State => v.team j) hf.world
    exact h
  have hof : (w.group k).team = (s.group k).team := by
    have h := congrArg Group.team hf.group
    exact h
  have hcont : (w.group k).contained = (s.group k).contained := by
    have h := congrArg Group.contained hf.group
    exact h
  have hself : (s.contain k code detail defer pc).group k = (w.group k).containedAs e := by
    rw [hcontain]
    exact State.group_onGroup_self w k (·.containedAs e)
  have hteamOf (j : Nat) : (s.contain k code detail defer pc).team j = if j = (s.group k).team then
      { s.team j with recArrivals := f (s.team j).recArrivals } else s.team j := by
    rw [hcontain, hof]
    refine (State.team_onTeam _ _ _ _).trans ?_
    split_ifs with hj
    · subst hj
      exact congrArg (fun t : Team => { t with recArrivals := f t.recArrivals }) (hteam _)
    · exact hteam j
  refine ⟨?_, ?_, fun j hj => ?_, fun l hl => ?_, fun x hx => ?_, ?_, fun hx => ⟨e, ?_, he⟩, fun j => ?_, fun j hj => ?_⟩
  · rw [hcontain]
    exact congrArg (fun v : State => { v with teams := s.teams }) hf.world
  · rw [hcontain]
    refine State.openSlots_dropWaiters (s := w.onGroup k (·.containedAs e)) ?_ [k]
    rw [hw]
    exact State.openSlots_freeReserved (s := { s with sectors := x }) ho k _
  · rw [hcontain]
    refine (State.group_onGroup w k j (·.containedAs e)).trans ((if_neg hj).trans ?_)
    rw [hw]
    exact State.group_freeReserved_other { s with sectors := x } hj _
  · rw [hself, Group.containedAs, Group.lane_stopAll _ _ hl]
    split_ifs with hc
    · rfl
    · simpa using hc
  · rw [hself]
    exact congrArg (fun o : Option Exit => some (o.getD e)) (hcont.trans hx)
  · rw [hself]
    exact hof
  · rw [hself]
    exact congrArg (fun o : Option Exit => some (o.getD e)) (hcont.trans hx)
  · rw [hteamOf]
    split_ifs <;> rfl
  · rw [hteamOf, if_neg hj]

/-! ### A team terminated (R291, R336) -/

/-- One group of a team that is terminated. -/
def State.terminateGroup (s : State) (code detail : Nat) (pc : Option Word) (k : Nat) (g : Group) : State :=
  if g.retired || g.contained.isSome then s else s.contain k code detail false (pc.getD g.stopAt)

/-- What the termination of some groups leaves: every one of them contained, but those that have retired or were contained before. -/
structure GroupsTerminated (s : State) (code : Nat) (ks : List Nat) (u : State) : Prop where
  world : { u with groups := s.groups, dies := s.dies, sectors := s.sectors, teams := s.teams } = s
  closed : u.openSlots = []
  others : ∀ k, k ∉ ks → u.group k = s.group k
  of : ∀ k, (u.group k).team = (s.group k).team
  contained : ∀ k ∈ ks, (s.group k).retired = false → (s.group k).contained = none → u.containedWith k code
  team : ∀ j, { u.team j with recArrivals := (s.team j).recArrivals } = s.team j
  otherTeams : ∀ j, (∀ k ∈ ks, (s.group k).team ≠ j) → u.team j = s.team j

/-- Before the first group. -/
theorem GroupsTerminated.none {s : State} (ho : s.openSlots = []) (code : Nat) : GroupsTerminated s code [] s :=
  ⟨rfl, ho, fun _ _ => rfl, fun _ => rfl, fun _ h => absurd h List.not_mem_nil, fun _ => rfl, fun _ _ => rfl⟩

/-- A group more. -/
theorem GroupsTerminated.cons {s v : State} {code : Nat} {ks : List Nat} (h : GroupsTerminated s code ks v) (detail : Nat) (pc : Option Word) (k : Nat) :
    GroupsTerminated s code (k :: ks) (v.terminateGroup code detail pc k (s.group k)) := by
  rw [State.terminateGroup]
  split_ifs with hskip
  · refine ⟨h.world, h.closed, fun j hj => h.others j (fun hm => hj (List.mem_cons_of_mem _ hm)), h.of, fun j hj hr hc => ?_, h.team,
      fun j hj => h.otherTeams j (fun i hi => hj i (List.mem_cons_of_mem _ hi))⟩
    rcases List.mem_cons.1 hj with rfl | hj
    · simp [hr, hc] at hskip
    · exact h.contained j hj hr hc
  · have hk := State.contain_groupContained h.closed k code detail false (pc.getD (s.group k).stopAt)
    generalize v.contain k code detail false (pc.getD (s.group k).stopAt) = u at hk
    refine ⟨?_, hk.closed, fun j hj => ?_, fun j => ?_, fun j hj hr hc => ?_, fun j => ?_, fun j hj => ?_⟩
    · exact (congrArg (fun x : State => { x with groups := s.groups, dies := s.dies, sectors := s.sectors, teams := s.teams }) hk.world).trans h.world
    · rw [List.mem_cons, not_or] at hj
      exact (hk.others j hj.1).trans (h.others j hj.2)
    · by_cases hj : j = k
      · rw [hj, hk.of, h.of]
      · rw [hk.others j hj, h.of]
    · by_cases hjk : j = k
      · subst hjk
        refine ⟨?_, hk.counts⟩
        by_cases hm : j ∈ ks
        · obtain ⟨⟨e, he, hcode⟩, -⟩ := h.contained j hm hr hc
          exact ⟨e, hk.kept e he, hcode⟩
        · exact hk.exit (by rw [h.others j hm]; exact hc)
      · have hprev := h.contained j ((List.mem_cons.1 hj).resolve_left hjk) hr hc
        rw [State.containedWith, hk.others j hjk]
        exact hprev
    · exact (congrArg (fun t : Team => { t with recArrivals := (s.team j).recArrivals }) (hk.team j)).trans (h.team j)
    · refine (hk.otherTeams j (fun he => hj k List.mem_cons_self ?_)).trans (h.otherTeams j (fun i hi => hj i (List.mem_cons_of_mem _ hi)))
      rw [he, h.of]

theorem State.terminateGroups_terminated {s : State} (ho : s.openSlots = []) (code detail : Nat) (pc : Option Word) (ks : List Nat) :
    GroupsTerminated s code ks.reverse (ks.foldl (fun v k => v.terminateGroup code detail pc k (s.group k)) s) := by
  have hfold (ks done : List Nat) (v : State) (h : GroupsTerminated s code done v) :
      GroupsTerminated s code (ks.reverse ++ done) (ks.foldl (fun v k => v.terminateGroup code detail pc k (s.group k)) v) := by
    induction ks generalizing done v with
    | nil => exact h
    | cons k ks ih =>
      rw [List.reverse_cons, List.append_assoc]
      exact ih _ _ (h.cons detail pc k)
  rw [← List.append_nil ks.reverse]
  exact hfold ks [] s (GroupsTerminated.none ho code)

/-! ### Conversations left (R305) -/

/-- States that differ in their conversations, and in which conversations each team has. -/
structure ConvsLeft (s u : State) : Prop where
  world : { u with teams := s.teams, convs := s.convs } = s
  team : ∀ j, { u.team j with convs := (s.team j).convs } = s.team j

theorem State.leaveConvs_left (s : State) (t : Nat) : ConvsLeft s (s.leaveConvs t) := by
  rw [State.leaveConvs]
  generalize (s.team t).convs = ks
  induction ks generalizing s with
  | nil => exact ⟨rfl, fun _ => rfl⟩
  | cons k ks ih =>
    obtain ⟨hw, ht⟩ := ih (s.leaveConv t k)
    have hteam (j : Nat) : { (s.leaveConv t k).team j with convs := (s.team j).convs } = s.team j := by
      rw [State.team_leaveConv]
      split_ifs with hj
      · rw [hj]
      · rfl
    exact ⟨(congrArg (fun x : State => { x with teams := s.teams, convs := s.convs }) hw).trans (s.leaveConv_world t k),
      fun j => (congrArg (fun x : Team => { x with convs := (s.team j).convs }) (ht j)).trans (hteam j)⟩

theorem State.leaveConvs_none {s : State} {t : Nat} (h : (s.team t).convs = []) : s.leaveConvs t = s := by
  rw [State.leaveConvs, h]
  rfl

/-! ### The team -/

/-- A team with no level left. -/
def Team.levelless (t : Team) : Team := { t with levels := [], rollback := none, recArrivals := [] }

/-- The state in which a team that is terminated has no level and no conversation left. -/
def State.teamOver (s : State) (t : Nat) : State := (s.onTeam t Team.levelless).leaveConvs t

theorem State.terminate_eq (s : State) (t code detail : Nat) (pc : Option Word) : s.terminate t code detail pc =
    ((s.teamOver t).team t).groups.foldl (fun v k => v.terminateGroup code detail pc k ((s.teamOver t).group k)) (s.teamOver t) := by
  rw [State.terminate]
  exact List.foldl_map ..

/-- What the termination of a team leaves, with no region open. -/
structure TeamTerminated (s : State) (t code : Nat) (u : State) : Prop where
  mem : u.mem = s.mem
  levels : (u.team t).levels = []
  rollback : (u.team t).rollback = none
  contained : ∀ k ∈ (s.team t).groups, (s.group k).retired = false → (s.group k).contained = none → u.containedWith k code
  otherTeams : (s.team t).convs = [] → (∀ k ∈ (s.team t).groups, (s.group k).team = t) → ∀ j, j ≠ t → u.team j = s.team j

theorem State.terminate_terminated {s : State} (ho : s.openSlots = []) (t code detail : Nat) (pc : Option Word) :
    TeamTerminated s t code (s.terminate t code detail pc) := by
  have hleft : ConvsLeft (s.onTeam t Team.levelless) (s.teamOver t) := State.leaveConvs_left _ t
  have hgroup (k : Nat) : (s.teamOver t).group k = s.group k := by
    have h := congrArg (fun x : State => x.group k) hleft.world
    exact h
  have hteam : { (s.teamOver t).team t with convs := (s.team t).convs } = (s.team t).levelless := by
    have h := hleft.team t
    rw [State.team_onTeam_self] at h
    exact h
  have hgroups : ((s.teamOver t).team t).groups = (s.team t).groups := by
    have h := congrArg Team.groups hteam
    exact h
  have hopen : (s.teamOver t).openSlots = [] := by
    have h := congrArg State.openSlots hleft.world
    exact h.trans ho
  have h := State.terminateGroups_terminated hopen code detail pc ((s.teamOver t).team t).groups
  rw [← State.terminate_eq] at h
  generalize s.terminate t code detail pc = u at h
  refine ⟨?_, ?_, ?_, fun k hk hr hc => ?_, fun hconvs hof j hj => ?_⟩
  · have hmem := congrArg State.mem hleft.world
    have hu := congrArg State.mem h.world
    exact hu.trans hmem
  · have hl := congrArg Team.levels hteam
    have hu := congrArg Team.levels (h.team t)
    exact hu.trans hl
  · have hl := congrArg Team.rollback hteam
    have hu := congrArg Team.rollback (h.team t)
    exact hu.trans hl
  · refine h.contained k ?_ ?_ ?_
    · rw [List.mem_reverse, hgroups]
      exact hk
    · rw [hgroup]
      exact hr
    · rw [hgroup]
      exact hc
  · have hover : s.teamOver t = s.onTeam t Team.levelless := State.leaveConvs_none (by rw [State.team_onTeam_self]; exact hconvs)
    refine (h.otherTeams j (fun k hk he => hj ?_)).trans ?_
    · rw [List.mem_reverse, hgroups] at hk
      rw [← he, hgroup, hof k hk]
    · rw [hover, State.team_onTeam, if_neg hj]

end Sys2Proof.Machine
end

