-- ==== Sys2Proof/Proofs/Rollbacks.lean ====
section
/-! SUPPORT. A rollback carried out for a team of no conversation while no region is open (Recovery.lean, R290, R302): what is restored, and what
follows. -/
namespace Sys2Proof.Machine

/-! ### Lines restored (R302) -/

/-- The lines that a level logged, put back. -/
def State.restoreLines (s : State) (ls : FMap (List (BitVec 8) × List Nat)) : State := ls.foldl (fun s p => s.restoreLine p.1 p.2.1 p.2.2) s

theorem State.restoreLines_world (s : State) (ls : FMap (List (BitVec 8) × List Nat)) :
    { s.restoreLines ls with mem := s.mem, poison := s.poison, clusters := s.clusters } = s := by
  induction ls generalizing s with
  | nil => rfl
  | cons p ls ih => exact congrArg (fun x : State => { x with mem := s.mem, poison := s.poison, clusters := s.clusters }) (ih (s.restoreLine p.1 p.2.1 p.2.2))

theorem State.read_restoreLine (s : State) (ln : Nat) {bs : List (BitVec 8)} (h : bs.length = 128) (bad : List Nat) (x : Nat) :
    Mem.read (s.restoreLine ln bs bad).mem x = if x / 128 = ln then bs.getD (x % 128) 0 else Mem.read s.mem x := by
  refine (Mem.read_writeBytes s.mem (128 * ln) x bs).trans ?_
  rw [h]
  by_cases hx : x / 128 = ln
  · rw [if_pos hx, if_pos (by omega), show x - 128 * ln = x % 128 by omega]
  · rw [if_neg hx, if_neg (by omega)]

/-- Memory holds what was logged of each line. -/
theorem State.read_restoreLines (s : State) {ls : FMap (List (BitVec 8) × List Nat)} (hn : (FMap.keys ls).Nodup) (h : ∀ p ∈ ls, p.2.1.length = 128)
    (x : Nat) : Mem.read (s.restoreLines ls).mem x =
      ((FMap.look ls (x / 128)).map (fun b => b.1.getD (x % 128) 0)).getD (Mem.read s.mem x) := by
  induction ls generalizing s with
  | nil => rfl
  | cons p ls ih =>
    obtain ⟨ln, bs, bad⟩ := p
    obtain ⟨hln, hn⟩ := List.nodup_cons.1 hn
    refine (ih (s.restoreLine ln bs bad) hn (fun p hp => h p (List.mem_cons_of_mem _ hp))).trans ?_
    rw [State.read_restoreLine s ln (h _ List.mem_cons_self)]
    by_cases hx : x / 128 = ln
    · have hnone : FMap.look ls (x / 128) = none :=
        FMap.look_eq_none ls _ (fun p hp he => hln (List.mem_map.2 ⟨p, hp, he.trans hx⟩))
      rw [hnone, FMap.look, if_pos hx.symm, if_pos hx]
      rfl
    · simp [FMap.look, hx, Ne.symm hx]

/-! ### Lanes restored (R302) -/

/-- What a level logged of a lane, as far as a rollback restores it. -/
def Level.logOf (lv : Level) (regs : Bool) (g : Group) (l : Nat) : LaneLog := if regs then FMap.at {} lv.lanes (g.gid * 64 + l) else {}

/-- A group whose live and parked lanes are restored. -/
def Group.restored (g : Group) (log : Nat → LaneLog) : Group := g.mapLanes g.countSet (fun l n => (log l).restore n)

theorem Group.lane_restored (g : Group) (log : Nat → LaneLog) {l : Nat} (h : l < 64) :
    (g.restored log).lane l = if (g.lane l).counts then (log l).restore (g.lane l) else g.lane l := by
  refine (g.lane_mapLanes g.countSet (fun l n => (log l).restore n) h).trans ?_
  rw [Group.inSet_countSet, decide_eq_true h, Bool.true_and]

/-- A restored lane is live, parked or exited as before. -/
theorem LaneLog.restore_counts (lg : LaneLog) (n : Lane) : (lg.restore n).counts = n.counts := by
  have hregs (rs : FMap (Word × Bool)) (n : Lane) : (rs.foldl (fun n p =>
      if p.2.2 then { n with regs := FMap.put n.regs p.1 p.2.1, empty := n.empty ||| (1#72 <<< p.1) } else n.setReg p.1 p.2.1) n).cond = n.cond := by
    induction rs generalizing n with
    | nil => rfl
    | cons p rs ih =>
      rw [List.foldl_cons, ih]
      split_ifs <;> rfl
  exact congrArg (fun c => ({ n with cond := c } : Lane).counts) (hregs lg.regs n)

/-- A group with no fault pending and no handler running. -/
def Group.faultless (g : Group) : Group :=
  { g with deferred := [], faultRegs := [], trapPending := false, handler := false, hwait := .ready, trapAt := none }

theorem Group.dropFaults_none {g : Group} (hd : g.deferred = []) (hf : g.faultRegs = []) : g.dropFaults = g.faultless := by
  rw [Group.dropFaults, hd, hf]
  rfl

/-- The pending faults of some groups dropped. -/
def State.dropGroupFaults (s : State) (ks : List Nat) : State := ks.foldl (fun s k => s.onGroup k Group.dropFaults) s

theorem State.dropGroupFaults_eq (s : State) (ks : List Nat) : s.dropGroupFaults ks = { s with groups := (s.dropGroupFaults ks).groups } := by
  induction ks generalizing s with
  | nil => rfl
  | cons k ks ih => exact (ih (s.onGroup k Group.dropFaults)).trans rfl

theorem State.group_dropGroupFaults {s : State} {ks : List Nat} (h : ∀ k ∈ ks, (s.group k).deferred = [] ∧ (s.group k).faultRegs = []) (j : Nat) :
    (s.dropGroupFaults ks).group j = if j ∈ ks then (s.group j).faultless else s.group j := by
  induction ks generalizing s with
  | nil => rfl
  | cons k ks ih =>
    obtain ⟨hd, hf⟩ := h k List.mem_cons_self
    have hstep (j : Nat) : (s.onGroup k Group.dropFaults).group j = if j = k then (s.group k).faultless else s.group j := by
      rw [State.group_onGroup, Group.dropFaults_none hd hf]
    refine (ih (s := s.onGroup k Group.dropFaults) (fun i hi => ?_)).trans ?_
    · rw [hstep]
      split_ifs
      · exact ⟨rfl, rfl⟩
      · exact h i (List.mem_cons_of_mem _ hi)
    · rw [hstep]
      by_cases hj : j = k
      · subst hj
        simp [Group.faultless]
      · simp [hj]

/-! ### A level restored -/

theorem State.restoreLevel_eq (s : State) (t : Nat) (lv : Level) (regs : Bool) : ∃ (cl : Nat) (f : Cluster → Cluster), s.restoreLevel t lv regs =
    ((s.putGroups (fun k => (s.group k).restored (lv.logOf regs (s.group k))) (s.team t).groups).onCluster cl f).restoreLines lv.lines := by
  refine ⟨match (s.team t).place with | .resident c => c | _ => 0, fun c => lv.scratch.foldl (fun c p => { c with
    scratch := Mem.writeBytes c.scratch (4 * ((s.team t).scrBase / 4 + p.1)) (leBytes 4 p.2.1.toNat)
    scrPoison := if p.2.2 then FMap.put c.scrPoison ((s.team t).scrBase / 4 + p.1) () else FMap.del c.scrPoison ((s.team t).scrBase / 4 + p.1) }) c, ?_⟩
  rw [State.restoreLevel, State.teamGroups, List.foldl_map]
  rfl

/-- A level whose caches have been emptied after a rollback to it. -/
def Level.emptied (lv : Level) : Level := { lv with lanes := if lv.noreg then lv.lanes else [], scratch := [], lines := [] }

theorem Level.failCode_emptied (lv : Level) (last : Nat) :
    lv.emptied.failCode last = lv.errCode.getD (if last = 0x69 then lv.fcode else 0) := by
  unfold Level.failCode Level.emptied
  dsimp only
  cases lv.errCode <;> rfl

/-- A team unwound to its innermost level. -/
def Team.unwound (t : Team) (below : List Level) (lv : Level) : Team := { t.withdrawArrivals lv with recArrivals := [], levels := below ++ [lv.emptied] }

/-- A team unwound to a level: arrivals at its barriers since are withdrawn, and the caches of the level are emptied. -/
def Team.unwoundTo (t : Team) (level : Nat) : Team :=
  let tm := ((t.levels.drop (level - 1)).reverse).foldl (fun tm lv => tm.withdrawArrivals lv) t
  { tm with
    recArrivals := []
    levels := (tm.levels.take level).mapIdx (fun i lv =>
      if i + 1 = level then { lv with lanes := if lv.noreg then lv.lanes else [], scratch := [], lines := [] } else lv) }

/-- Only the innermost level of a team is emptied. -/
theorem levels_emptied (below : List Level) (lv : Level) : ((below ++ [lv]).take (below.length + 1)).mapIdx (fun i lv =>
    if i + 1 = below.length + 1 then { lv with lanes := if lv.noreg then lv.lanes else [], scratch := [], lines := [] } else lv) = below ++ [lv.emptied] := by
  rw [List.take_of_length_le (by simp), List.mapIdx_concat, if_pos rfl]
  refine congrArg (· ++ [lv.emptied]) (List.ext_getElem (by simp) (fun i h1 h2 => ?_))
  rw [List.getElem_mapIdx, if_neg (by omega)]

theorem Team.unwoundTo_innermost {t : Team} {below : List Level} {lv : Level} (hl : t.levels = below ++ [lv]) :
    t.unwoundTo (below.length + 1) = t.unwound below lv := by
  have hdrop : t.levels.drop (below.length + 1 - 1) = [lv] := by rw [hl, Nat.add_sub_cancel, List.drop_left]
  rw [Team.unwoundTo, hdrop]
  refine congrArg (fun ls => ({ t.withdrawArrivals lv with recArrivals := [], levels := ls } : Team)) ?_
  have hlevels : (t.withdrawArrivals lv).levels = below ++ [lv] := hl
  refine Eq.trans ?_ (levels_emptied below lv)
  rw [← hlevels]
  rfl

section
variable {s : State} (ho : s.openSlots = [])
include ho

theorem State.regionsOf_none (ps : List Nat) : s.regionsOf ps = [] := by
  have h (k : Nat) : s.groupSlots k = [] := by rw [State.groupSlots, ho]; rfl
  simp [State.regionsOf, h]

theorem State.abortStopped_none (ps : List Nat) : s.abortStopped ps = s := by
  rw [State.abortStopped, State.regionsOf_none ho]
  rfl

variable {t : Nat} {below : List Level} {lv : Level} (hl : (s.team t).levels = below ++ [lv])
include hl

/-- The unwinding of a team to its innermost level. -/
theorem State.unwind_alone : ∃ x, s.unwind [t] (below.length + 1) =
    ((({ s with sectors := x } : State).dropGroupFaults (s.team t).groups).restoreLevel t lv (!lv.noreg)).onTeam t (·.unwoundTo (below.length + 1)) := by
  obtain ⟨x, hx⟩ := s.abortRegions_nil 1 false ho
  refine ⟨x, ?_⟩
  have hdepth : ([t].map (fun t => (s.team t).rlevel)).foldl max 0 = below.length + 1 := by simp [Team.rlevel, hl]
  have hdrop : (({ s with sectors := x } : State).teamGroups t).foldl (fun s y => s.onGroup y.1 Group.dropFaults) { s with sectors := x } =
      ({ s with sectors := x } : State).dropGroupFaults (s.team t).groups := List.foldl_map ..
  have hlevel : ((({ s with sectors := x } : State).dropGroupFaults (s.team t).groups).team t).levels[below.length + 1 - 0 - 1]? = some lv := by
    rw [State.dropGroupFaults_eq]
    refine (congrArg (fun ls : List Level => ls[below.length + 1 - 0 - 1]?) hl).trans ?_
    simp
  unfold State.unwind
  dsimp only
  rw [hdepth, State.regionsOf_none ho, hx, Nat.add_sub_cancel_left, show List.range 1 = [0] from rfl]
  simp only [List.foldl_cons, List.foldl_nil]
  rw [hdrop, hlevel]
  simp only [Nat.sub_zero, bne_self_eq_false, Bool.or_false]
  rfl

end

/-- What the unwinding of a team to its innermost level leaves (R302 steps 1 to 3). -/
structure Unwound (s : State) (t : Nat) (below : List Level) (lv : Level) (u : State) : Prop where
  world : { u with
    mem := s.mem, poison := s.poison, clusters := s.clusters, groups := s.groups, teams := s.teams, sectors := s.sectors } = s
  mem : ∃ v : State, v.mem = s.mem ∧ u.mem = (v.restoreLines lv.lines).mem
  team : ∀ k, u.team k = if k = t then (s.team t).unwound below lv else s.team k
  group : ∀ k, u.group k = if k ∈ (s.team t).groups then (s.group k).faultless.restored (lv.logOf (!lv.noreg) (s.group k)) else s.group k

theorem State.unwind_unwound {s : State} {t : Nat} {below : List Level} {lv : Level} (ho : s.openSlots = []) (hl : (s.team t).levels = below ++ [lv])
    (hf : ∀ k ∈ (s.team t).groups, (s.group k).deferred = [] ∧ (s.group k).faultRegs = []) : Unwound s t below lv (s.unwind [t] (below.length + 1)) := by
  obtain ⟨x, e⟩ := State.unwind_alone ho hl
  have hdrop := State.group_dropGroupFaults (s := { s with sectors := x }) (ks := (s.team t).groups) hf
  have heq := ({ s with sectors := x } : State).dropGroupFaults_eq (s.team t).groups
  generalize ({ s with sectors := x } : State).dropGroupFaults (s.team t).groups = d at e hdrop heq
  have hteam (k : Nat) : d.team k = s.team k := by rw [heq]; rfl
  obtain ⟨cl, f, hrestore⟩ := d.restoreLevel_eq t lv (!lv.noreg)
  rw [hteam] at hrestore
  have hput := d.group_putGroups (fun k => (d.group k).restored (lv.logOf (!lv.noreg) (d.group k))) (s.team t).groups
  generalize hp : d.putGroups (fun k => (d.group k).restored (lv.logOf (!lv.noreg) (d.group k))) (s.team t).groups = p at hrestore hput
  have hworld : { p.onCluster cl f with groups := s.groups, clusters := s.clusters, sectors := s.sectors } = s := by
    rw [← hp, State.putGroups_eq, heq]
    rfl
  generalize hv : p.onCluster cl f = v at hrestore hworld
  have hgroupv (k : Nat) : v.group k = p.group k := by rw [← hv]; rfl
  have hlines := v.restoreLines_world lv.lines
  have hteamv (k : Nat) : v.team k = s.team k := by
    have h := congrArg (fun y : State => y.team k) hworld
    exact h
  have hteamr (k : Nat) : (v.restoreLines lv.lines).team k = s.team k := by
    have h := congrArg (fun y : State => y.team k) hlines
    exact h.trans (hteamv k)
  rw [e, hrestore]
  refine ⟨?_, ⟨v, ?_, rfl⟩, fun k => ?_, fun k => ?_⟩
  · have h := congrArg (fun y : State => { y with
      mem := s.mem, poison := s.poison, clusters := s.clusters, groups := s.groups, teams := s.teams, sectors := s.sectors }) hlines
    exact h.trans (congrArg (fun y : State => { y with mem := s.mem, poison := s.poison, teams := s.teams }) hworld)
  · have h := congrArg State.mem hworld
    exact h
  · refine (State.team_onTeam _ t k (·.unwoundTo (below.length + 1))).trans ?_
    rw [hteamr, hteamr, Team.unwoundTo_innermost hl]
  · have h := congrArg (fun y : State => y.group k) hlines
    refine (Eq.trans ?_ h).trans ?_
    · rfl
    · rw [hgroupv, hput, hdrop]
      split_ifs <;> rfl

section
variable {s w : State} {t : Nat} {below : List Level} {lv : Level} (h : Unwound s t below lv w)
include h

theorem Unwound.levels : (w.team t).levels = below ++ [lv.emptied] := by
  rw [h.team, if_pos rfl]
  rfl

theorem Unwound.groups : (w.team t).groups = (s.team t).groups := by
  rw [h.team, if_pos rfl]
  rfl

theorem Unwound.recordMode (hrec : (s.grid (s.team t).grid).recordMode = 0) : (w.grid (w.team t).grid).recordMode = 0 := by
  have hg := congrArg (fun y : State => y.grid (s.team t).grid) h.world
  rw [h.team, if_pos rfl]
  exact (congrArg Grid.recordMode hg).trans hrec

theorem Unwound.openSlots (ho : s.openSlots = []) : w.openSlots = [] := by
  have hs := congrArg State.openSlots h.world
  exact hs.trans ho

/-- Memory holds what the level logged. -/
theorem Unwound.read (hn : (FMap.keys lv.lines).Nodup) (hlen : ∀ p ∈ lv.lines, p.2.1.length = 128) (x : Nat) :
    Mem.read w.mem x = ((FMap.look lv.lines (x / 128)).map (fun b => b.1.getD (x % 128) 0)).getD (Mem.read s.mem x) := by
  obtain ⟨v, hv, hw⟩ := h.mem
  rw [hw, State.read_restoreLines v hn hlen, hv]

/-- A live or parked lane is restored, and another left alone, wherever its group is sent. -/
theorem Unwound.lane_sent (a : Word) {k l : Nat} (hk : k ∈ (s.team t).groups) (hl : l < 64) : ((w.group k).sent a).lane l =
    if ((s.group k).lane l).counts then
      { (lv.logOf (!lv.noreg) (s.group k) l).restore ((s.group k).lane l) with cond := .live, place := .none, vpc := a } else (s.group k).lane l := by
  have hlane : (w.group k).lane l = if ((s.group k).lane l).counts then
      (lv.logOf (!lv.noreg) (s.group k) l).restore ((s.group k).lane l) else (s.group k).lane l := by
    rw [h.group, if_pos hk]
    exact Group.lane_restored (s.group k).faultless _ hl
  rw [Group.lane_sent _ _ hl, hlane]
  by_cases hc : ((s.group k).lane l).counts = true
  · rw [if_pos hc, if_pos hc, if_pos ((LaneLog.restore_counts _ _).trans hc)]
  · rw [if_neg hc, if_neg hc, if_neg hc]

end

/-! ### What follows the unwinding (R290, R302) -/

/-- A level that tries its next alternate. -/
def Level.retried (lv : Level) (last : Nat) : Level := { lv with routine := lv.routine + 1, phase := 1, last := last, used := 0, errCode := none }

/-- A team whose innermost level tries its next alternate. -/
def Team.retrying (t : Team) (below : List Level) (lv : Level) (last : Nat) : Team :=
  { t with levels := below ++ [lv.retried last], rollback := none, wdcount := 0 }

/-- A team whose innermost level has closed with a failure. -/
def Team.failing (t : Team) (more : List Level) (low : Level) (code : Nat) : Team :=
  { t with levels := more ++ [{ low with fcode := code, phase := 3 }], rollback := some { level := more.length + 1, last := 0x69 } }

section
variable {s : State} {t : Nat} (hrec : (s.grid (s.team t).grid).recordMode = 0)
include hrec

theorem State.nextAlternate_eq {below : List Level} {lv : Level} (hl : (s.team t).levels = below ++ [lv]) (last : Nat) :
    s.nextAlternate t last = (s.sendTeam t (lv.alts.getD lv.routine 0)).setTeam t ((s.team t).retrying below lv last) := by
  have hset : (s.sendTeam t (lv.alts.getD lv.routine 0)).onTeam t (fun tm => { tm with
      levels := tm.levels.dropLast ++ [lv.retried last], rollback := none, wdcount := 0 }) =
      (s.sendTeam t (lv.alts.getD lv.routine 0)).setTeam t ((s.team t).retrying below lv last) := by
    rw [State.onTeam, State.team_sendTeam, hl, List.dropLast_concat]
    rfl
  have hlast : (s.team t).levels.getLast? = some lv := by rw [hl, List.getLast?_concat]
  unfold State.nextAlternate
  rw [hlast, ← hset]
  refine State.logPoint_off ?_ _ _ _ _
  rw [State.team_onTeam_self]
  change ((s.sendTeam t (lv.alts.getD lv.routine 0)).grid ((s.sendTeam t (lv.alts.getD lv.routine 0)).team t).grid).recordMode = 0
  rw [State.team_sendTeam, State.grid_sendTeam]
  exact hrec

theorem State.closeLevel_below {more : List Level} {low lv : Level} (hl : (s.team t).levels = more ++ [low] ++ [lv]) (last : Nat) :
    s.closeLevel t last = s.setTeam t ((s.team t).failing more low (lv.failCode last)) := by
  have hrev : (s.team t).levels.reverse = lv :: low :: more.reverse := by simp [hl]
  have hset : s.onTeam t (fun tm => { tm with
      levels := ({ low with fcode := lv.failCode last, phase := 3 } :: more.reverse).reverse
      rollback := some { level := (s.team t).rlevel - 1, last := 0x69 } }) = s.setTeam t ((s.team t).failing more low (lv.failCode last)) := by
    rw [State.onTeam, Team.rlevel, hl]
    simp [Team.failing]
  unfold State.closeLevel
  rw [hrev, ← hset]
  refine State.logPoint_off ?_ _ _ _ _
  rw [State.team_onTeam_self]
  exact hrec

theorem State.closeLevel_outermost {lv : Level} (hl : (s.team t).levels = [lv]) (last : Nat) :
    s.closeLevel t last = s.terminate t 0x61 (lv.failCode last) (some lv.ensure) := by
  have hrev : (s.team t).levels.reverse = [lv] := by rw [hl, List.reverse_singleton]
  have hlog : s.logOutcome t 1 last lv.routine = s := State.logPoint_off hrec _ _ _ _
  unfold State.closeLevel
  rw [hrev]
  exact congrArg (fun v : State => v.terminate t 0x61 (lv.failCode last) (some lv.ensure)) hlog

end

section
variable {s : State} {t last : Nat} {below : List Level} {lv : Level} (hl : (s.team t).levels = below ++ [lv]) (hc : lv.conv = 0)
  (hr : (s.team t).rollback = some { level := below.length + 1, last := last })
include hl hc hr

/-- Alone, a team is unwound, then tries the next alternate of its level or closes it. -/
theorem State.performRollback_alone (hw : Unwound s t below lv (s.unwind [t] (below.length + 1))) : s.performRollback t =
    if lv.routine < lv.nalt then (s.unwind [t] (below.length + 1)).nextAlternate t last else (s.unwind [t] (below.length + 1)).closeLevel t last := by
  have hlast : ((s.unwind [t] (below.length + 1)).team t).levels.getLast? = some lv.emptied := by rw [hw.levels, List.getLast?_concat]
  unfold State.performRollback
  rw [hr]
  dsimp only
  rw [State.parties_alone hl hc]
  simp only [List.any_cons, List.any_nil, List.all_cons, List.all_nil, List.foldl_cons, List.foldl_nil, hr, hlast, Option.getD_some]
  simp only [Bool.and_true, Bool.or_false, Option.isSome_none, Bool.false_eq_true, if_false, decide_eq_true_eq]
  rfl

end

theorem execRollback_closed {s : State} {t : Nat} (hr : (s.team t).rollback.isSome = true) (ho : s.openSlots = []) (hcan : s.canRollback t = true) :
    execRollback t s = .next (s.performRollback t).settleRegions := by
  rw [execRollback, if_pos hr, State.abortStopped_none ho, if_pos hcan]

end Sys2Proof.Machine
end

