-- ==== Sys2Proof/Proofs/RegionAndRecoveryEvents.lean ====
section
/-! SUPPORT. The loss of an undo area (Recovery.lean, R303), and obligation O47. -/
namespace Sys2Proof.Machine

/-! ### Outcomes reported while no region is open (R282, R367) -/

/-- A write at the performing point marks no region where none is open. -/
theorem State.dies_writePhys {s : State} (ho : s.openSlots = []) (cl : Option Nat) (a : Nat) (bs : List (BitVec 8)) (but : List Nat) (v : Nat) :
    (s.writePhys cl a bs but v).dies = s.dies := by
  have hlines := (LinesOnly.foldl (fun (s : State) ln => s.cacheWrite cl v ln) (fun s ln => s.cacheWrite_lines cl v ln) (linesOf a bs.length) s).trans
    (State.markStale_lines _ cl a bs.length)
  have hmark {t : State} (h : t.openSlots = []) : t.markInval a bs.length but = t := by
    rw [State.markInval, h]
    rfl
  have hopen := hlines.of_rest State.openSlots (fun _ _ _ => rfl)
  exact (congrArg State.dies (hmark (hopen.trans ho))).trans (hlines.of_rest State.dies (fun _ _ _ => rfl))

/-- What a report to a record log leaves, with no region open. -/
structure Reported (s u : State) : Prop where
  writes : WritesOnly s u
  dies : u.dies = s.dies

theorem Reported.refl (s : State) : Reported s s := ⟨WritesOnly.refl s, rfl⟩

theorem Reported.trans {s t u : State} (h : Reported s t) (k : Reported t u) : Reported s u := ⟨h.writes.trans k.writes, k.dies.trans h.dies⟩

theorem Reported.openSlots {s u : State} (h : Reported s u) : u.openSlots = s.openSlots := by
  have hdie (d : Nat) : u.die d = s.die d := congrArg (FMap.at ({} : Die) · d) h.dies
  rw [State.openSlots, State.openSlots, hdie, hdie]

theorem State.onPart_reported (s : State) (k : Nat) (f : Partition → Partition) : Reported s (s.onPart k f) := ⟨⟨rfl⟩, rfl⟩

theorem State.logPoint_reported {s : State} (ho : s.openSlots = []) (k : Nat) (g : Group) (type key value : Nat) :
    Reported s (s.logPoint k g type key value) := by
  have hput (a : Nat) (bs : List (BitVec 8)) (f : Partition → Partition) : Reported s ((s.writePhys none a bs []).onPart (s.grid k).part f) :=
    Reported.trans ⟨s.writePhys_writes none a bs [] 6, State.dies_writePhys ho none a bs [] 6⟩ (State.onPart_reported _ _ f)
  have hdrop (t : State) (f : Partition → Partition) (v : Nat) : Reported t ((t.onPart (s.grid k).part f).signal v) :=
    ⟨⟨rfl⟩, rfl⟩
  unfold State.logPoint
  dsimp only
  split_ifs
  · exact Reported.refl s
  · exact hput _ _ _
  · exact (hput _ _ _).trans (hdrop _ _ _)
  · exact hdrop _ _ _

/-- The outcomes of levels of a team reported, one after another. -/
def State.logOutcomes (s : State) (t reason : Nat) (xs : List (Nat × Nat)) : State := xs.foldl (fun s x => s.logOutcome t x.1 reason x.2) s

theorem State.logOutcomes_reported {s : State} (ho : s.openSlots = []) (t reason : Nat) (xs : List (Nat × Nat)) :
    Reported s (s.logOutcomes t reason xs) := by
  induction xs generalizing s with
  | nil => exact Reported.refl s
  | cons x xs ih =>
    have hx : Reported s (s.logOutcome t x.1 reason x.2) := State.logPoint_reported ho _ _ _ _ _
    exact hx.trans (ih (hx.openSlots.trans ho))

theorem State.logOutcomes_off {s : State} {t : Nat} (h : (s.grid (s.team t).grid).recordMode = 0) (reason : Nat) (xs : List (Nat × Nat)) :
    s.logOutcomes t reason xs = s :=
  foldl_eq_self _ _ _ (fun _ _ => State.logPoint_off h _ _ _ _)

theorem execUndoAreaLost_alone {s : State} {t : Nat} {last : Level} (hl : (s.team t).levels.getLast? = some last) (hc : last.conv = 0) :
    ∃ xs pc, execUndoAreaLost t s = .next ((s.logOutcomes t 0x64 xs).terminate t 0x64 0 pc).settleRegions := by
  have hlevel : (s.team t).rlevel ≠ 0 := fun h0 => by
    rw [List.length_eq_zero_iff.1 h0] at hl
    exact absurd hl (by simp)
  refine ⟨((s.team t).levels.mapIdx (fun i lv => (i + 1, lv.routine))).reverse, ((s.team t).levels.head?).map (·.ensure), ?_⟩
  rw [execUndoAreaLost, if_neg hlevel, State.parties_last hl hc]
  rfl

/-- A team whose undo area is lost is terminated with cause 0x64 (R303). -/
theorem State.undoArea_terminated {s : State} {t : Nat} (ho : s.openSlots = []) (xs : List (Nat × Nat)) (pc : Option Word) :
    let u := (s.logOutcomes t 0x64 xs).terminate t 0x64 0 pc
    ((s.grid (s.team t).grid).recordMode = 0 → u.mem = s.mem) ∧ (u.team t).levels = [] ∧
    ∀ k ∈ (s.team t).groups, (s.group k).retired = false → (s.group k).contained = none → u.containedWith k 0x64 := by
  have hlog := State.logOutcomes_reported ho t 0x64 xs
  have hgroup (k : Nat) : (s.logOutcomes t 0x64 xs).group k = s.group k := congrArg (FMap.at ({} : Group) · k) hlog.writes.groups
  have hend := State.terminate_terminated (hlog.openSlots.trans ho) t 0x64 0 pc
  refine ⟨fun hrec => hend.mem.trans ?_, hend.levels, fun k hk hr hcont => hend.contained k ?_ ?_ ?_⟩
  · rw [State.logOutcomes_off hrec]
  · rw [hlog.writes.team]
    exact hk
  · rw [hgroup]
    exact hr
  · rw [hgroup]
    exact hcont

/-! ### What a rollback leaves (R290, R302) -/

section
variable {s : State} {t last : Nat} {below : List Level} {lv : Level} (hcan : s.canRollback t = true) (hl : (s.team t).levels = below ++ [lv])
  (hc : lv.conv = 0) (hr : (s.team t).rollback = some { level := below.length + 1, last := last }) (ho : s.openSlots = [])
  (hf : ∀ k ∈ (s.team t).groups, (s.group k).deferred = [] ∧ (s.group k).faultRegs = [])
include hcan hl hc hr ho hf

/-- A level with an alternate left tries it. -/
theorem execRollback_retries (hrec : (s.grid (s.team t).grid).recordMode = 0) (hn : lv.routine < lv.nalt) : ∃ w, Unwound s t below lv w ∧ execRollback t s =
    .next ((w.sendTeam t (lv.alts.getD lv.routine 0)).setTeam t ((w.team t).retrying below lv.emptied last)).settleRegions := by
  have hw := State.unwind_unwound ho hl hf
  refine ⟨_, hw, ?_⟩
  rw [execRollback_closed (by rw [hr]; rfl) ho hcan, State.performRollback_alone hl hc hr hw, if_pos hn,
    State.nextAlternate_eq (hw.recordMode hrec) hw.levels]
  rfl

/-- A level with none left closes. -/
theorem execRollback_closes (hn : lv.nalt ≤ lv.routine) : ∃ w, Unwound s t below lv w ∧ execRollback t s = .next (w.closeLevel t last).settleRegions := by
  have hw := State.unwind_unwound ho hl hf
  refine ⟨_, hw, ?_⟩
  rw [execRollback_closed (by rw [hr]; rfl) ho hcan, State.performRollback_alone hl hc hr hw, if_neg (not_lt.2 hn)]

end

/-- Settles O47: a grid barrier's release wakes the lanes of its turn, a region commits by its versions, and a level that runs out of time or of alternates
rolls back into the level below or ends its team. -/
theorem barrierRegionAndRecoveryEvents : Obligations.BarrierRegionAndRecoveryEvents := by
  unfold Obligations.BarrierRegionAndRecoveryEvents
  refine ⟨fun s grid cl tick h ht hrec => ?_, fun s die slot _ => ?_, fun s team i lv last hr hl hc hi hne hle hfirst => ?_,
    fun s team last below lv => ?_, fun s team last hl hc ho => ?_⟩
  · intro there
    refine ⟨s.released grid cl, (exec_gbarClusterRelease grid cl s).trans (execGbarClusterRelease_go h ht hrec), s.released_world grid cl,
      s.grid_released grid cl, s.cluster_released grid cl, fun k hk => ?_, fun k hk => ?_⟩
    · rw [State.group_released, if_neg (fun hm => hk ((s.mem_groupsThere grid cl k).1 hm))]
    · rw [State.group_released, if_pos ((s.mem_groupsThere grid cl k).2 hk)]
      exact ⟨rfl, fun l hl => Group.lane_wakeAt _ _ hl⟩
  · intro id sl g n
    refine ⟨fun h => (exec_regionCommit die slot s).trans (execRegionCommit_waits h),
      fun h => (exec_regionCommit die slot s).trans (execRegionCommit_waits (State.canCommit_foreign h)),
      fun hphase hpreds hfar hl1 hlevels hown hrec => ?_, fun hphase hres hwait hdue => ?_⟩
    · have hgo : exec (.regionCommit die slot) s = .next (s.commitRegion id).settleRegions :=
        (exec_regionCommit die slot s).trans (congrArg Host.Outcome.next (if_pos (State.canCommit_ready hphase hpreds hfar hl1 hown hrec)))
      refine ⟨fun hi => ?_, fun hi => ?_⟩
      · have hu := State.commitRegion_committed hlevels hi hrec
        have hgroup (k : Nat) : (s.commitRegion id).group k = if k = sl.group then g.committed sl.lane else s.group k :=
          (congrArg (FMap.at ({} : Group) · k) hu.groups).trans (State.group_onGroup _ _ _ _)
        refine ⟨_, hgo, hu.mem, hu.slot, fun k hk => ?_, ?_, fun l => ?_, hu.accesses, hu.teams⟩
        · rw [hgroup, if_neg hk]
        · rw [hgroup, if_pos rfl]
          rfl
        · rw [hgroup, if_pos rfl, Group.committed, Group.lane_onLane]
          rfl
      · rw [hgo, State.commitRegion]
        exact congrArg (fun v : State => Host.Outcome.next v.settleRegions) (if_pos hi)
    · refine ⟨s.lapsed id, (exec_regionReservationLapse die slot s).trans (execRegionReservationLapse_due hphase hres hwait hdue), rfl, fun k => ?_,
        fun k hk => ?_, ?_⟩
      · exact State.slot_onSlot s id k (fun _ => {})
      · exact (State.group_onGroup _ _ _ _).trans (if_neg hk)
      · exact State.group_onGroup_self (s.onSlot id (fun _ => {})) sl.group _
  · refine ⟨_, (exec_recoveryTickLimitExpiry team s).trans (execRecoveryTickLimitExpiry_expired hl hc hr hi hne hle hfirst), rfl, fun k => ?_⟩
    rw [State.team_setTeam]
    split_ifs with hk
    · rw [hk]
      rfl
    · rfl
  · intro tm hcan hl hc hr ho _ hf hrec hkeys hlen restored gives
    have hrestored {w u : State} (hw : Unwound s team below lv w) (hu : u.mem = w.mem) : restored u := fun x => by
      rw [hu, hw.read hkeys hlen]
      cases FMap.look lv.lines (x / 128) <;> rfl
    refine ⟨fun hmore => ?_, fun more low hnone hbelow => ?_, fun hnone hbelow hconvs hof => ?_⟩
    · obtain ⟨w, hw, hexec⟩ := execRollback_retries hcan hl hc hr ho hf hrec hmore
      refine ⟨_, (exec_rollback team s).trans hexec, hrestored hw ?_, fun k hk => ?_, ?_⟩
      · rw [State.sendTeam_eq]
        rfl
      · rw [State.team_setTeam, if_neg hk, State.team_sendTeam, hw.team, if_neg hk]
      · dsimp only
        rw [State.team_setTeam, if_pos rfl]
        refine ⟨rfl, rfl, ?_, rfl, fun k hk l hlt => ?_⟩
        · exact congrArg Team.recArrivals ((hw.team team).trans (if_pos rfl))
        · have hgroup := w.group_sendTeam team (lv.alts.getD lv.routine 0) k
          rw [if_pos (by rw [hw.groups]; exact hk)] at hgroup
          refine (congrArg (fun g : Group => g.lane l) hgroup).trans ((hw.lane_sent _ hk hlt).trans ?_)
          rw [Level.logOf]
          cases lv.noreg <;> rfl
    · obtain ⟨w, hw, hexec⟩ := execRollback_closes hcan hl hc hr ho hf hnone
      subst hbelow
      rw [State.closeLevel_below (hw.recordMode hrec) hw.levels] at hexec
      refine ⟨_, (exec_rollback team s).trans hexec, hrestored hw rfl, fun k hk => ?_, ?_⟩
      · rw [State.team_setTeam, if_neg hk, hw.team, if_neg hk]
      · dsimp only
        rw [State.team_setTeam, if_pos rfl, Level.failCode_emptied]
        exact ⟨rfl, by simp [Team.failing]⟩
    · obtain ⟨w, hw, hexec⟩ := execRollback_closes hcan hl hc hr ho hf hnone
      subst hbelow
      rw [State.closeLevel_outermost (hw.recordMode hrec) hw.levels] at hexec
      have hend := State.terminate_terminated (hw.openSlots ho) team 0x61 (lv.emptied.failCode last) (some lv.emptied.ensure)
      have hteam := (hw.team team).trans (if_pos rfl)
      refine ⟨_, (exec_rollback team s).trans hexec, hrestored hw hend.mem, fun k hk => ?_, hend.levels, hend.rollback, fun k hk hret hcont => ?_⟩
      · refine (hend.otherTeams ?_ (fun j hj => ?_) k hk).trans ((hw.team k).trans (if_neg hk))
        · rw [hteam]
          exact hconvs
        · rw [hw.groups] at hj
          rw [hw.group, if_pos hj]
          exact hof j hj
      · have hgroup := (hw.group k).trans (if_pos hk)
        refine hend.contained k ?_ ?_ ?_
        · rw [hw.groups]
          exact hk
        · rw [hgroup]
          exact hret
        · rw [hgroup]
          exact hcont
  · obtain ⟨xs, pc, hexec⟩ := execUndoAreaLost_alone hl hc
    exact ⟨_, (exec_undoAreaLost team s).trans hexec, State.undoArea_terminated ho xs pc⟩

end Sys2Proof.Machine
end
